-- ==== Sys2Proof/Word.lean ====
section
/-!
DEFINITION. The words the machine computes on.
-/
namespace Sys2Proof

/-- A byte of memory or of a register. -/
abbrev Byte := BitVec 8

/-- A 32-bit word: an instruction word, a code address, a thread mask. -/
abbrev Word := BitVec 32

/-- A 64-bit register value. -/
abbrev Reg := BitVec 64

/-- A fixed-width counter that wraps at its width (R127). -/
def wrapAdd (w a b : Nat) : Nat := (a + b) % 2 ^ w

/-- A counter that saturates at its width (R127, the underflow count). -/
def satAdd (w a b : Nat) : Nat := min (a + b) (2 ^ w - 1)

end Sys2Proof
end

