-- ==== Sys2Proof/Machine/Table.lean ====
section
/-!
DEFINITION. Finite tables as plain data: a list of keys and values, keys strictly rising.
Memories, register files and the maps from names of operations to operations are held in this form.
A table with a default lists no entry equal to it, so equal contents are equal data.
-/
namespace Sys2Proof

/-- A table from keys to values. -/
abbrev Tab (α : Type) := List (Nat × α)

/-- The entry at a key, if it is listed. -/
def tabFind {α : Type} (m : Tab α) (k : Nat) : Option α :=
  match m with
  | [] => none
  | (k', v) :: r => if k = k' then some v else tabFind r k

/-- The entry at a key, or the default. -/
def tabGet {α : Type} (d : α) (m : Tab α) (k : Nat) : α := (tabFind m k).getD d

/-- Write an entry, keeping the keys in order. -/
def tabIns {α : Type} (m : Tab α) (k : Nat) (v : α) : Tab α :=
  match m with
  | [] => [(k, v)]
  | (k', v') :: r =>
    if k < k' then (k, v) :: (k', v') :: r
    else if k = k' then (k, v) :: r
    else (k', v') :: tabIns r k v

/-- Remove an entry. -/
def tabDel {α : Type} (m : Tab α) (k : Nat) : Tab α := m.filter (fun e => e.1 != k)

/-- Write an entry of a table with default `d`: writing the default removes it. -/
def tabPut {α : Type} [DecidableEq α] (d : α) (m : Tab α) (k : Nat) (v : α) : Tab α :=
  if v = d then tabDel m k else tabIns m k v

/-- Change the entry at a key, if it is listed. -/
def tabMod {α : Type} (m : Tab α) (k : Nat) (f : α → α) : Tab α :=
  match tabFind m k with
  | none => m
  | some v => tabIns m k (f v)

/-- Write several entries of a table with default `d`. -/
def tabPuts {α : Type} [DecidableEq α] (d : α) (m : Tab α) (kvs : List (Nat × α)) : Tab α :=
  kvs.foldl (fun acc e => tabPut d acc e.1 e.2) m

/-- The keys are strictly rising. -/
def tabSorted {α : Type} (m : Tab α) : Bool :=
  match m with
  | [] => true
  | [_] => true
  | (a, _) :: (b, v) :: r => decide (a < b) && tabSorted ((b, v) :: r)

/-- The canonical form of a table with default `d`. -/
def tabWf {α : Type} [DecidableEq α] (d : α) (m : Tab α) : Bool :=
  tabSorted m && m.all (fun e => decide (e.2 ≠ d))

end Sys2Proof
end

