-- ==== Sys2Proof/Machine/Bits.lean ====
section
/-!
DEFINITION. Sub-elements of a register, sign extension, bit fields and byte order (R1, R77, R105).
-/
namespace Sys2Proof.Machine

/-- R77. Sub-element `j` of width `W` of a 64-bit value. -/
def subGet (W : Nat) (x : Reg) (j : Nat) : Nat := x.toNat / 2 ^ (W * j) % 2 ^ W

/-- The 64-bit mask of sub-element `j`. -/
def subMask (W j : Nat) : Reg := BitVec.ofNat 64 ((2 ^ W - 1) * 2 ^ (W * j))

/-- R77. `x` with sub-element `j` replaced. -/
def subSet (W : Nat) (x : Reg) (j v : Nat) : Reg :=
  (x &&& ~~~ subMask W j) ||| BitVec.ofNat 64 (v % 2 ^ W * 2 ^ (W * j))

/-- Sub-elements 0 to n-1, in order. -/
def subList (W n : Nat) (x : Reg) : List Nat := (List.range n).map (subGet W x)

/-- R77. The signed value of a W-bit number. -/
def sx (W v : Nat) : Int := if v < 2 ^ (W - 1) then (v : Int) else (v : Int) - 2 ^ W

/-- R77. A value "mod 2^W". -/
def modW (W : Nat) (v : Int) : Nat := (v % 2 ^ W).toNat

/-- R81. clampS, as its W-bit pattern. -/
def clampS (W : Nat) (x : Int) : Nat := modW W (min (max x (-(2 ^ (W - 1)))) (2 ^ (W - 1) - 1))

/-- R81. clampU. -/
def clampU (W : Nat) (x : Int) : Nat := (min (max x 0) (2 ^ W - 1)).toNat

/-- Bits [hi:lo] of a number. -/
def bits (x hi lo : Nat) : Nat := x / 2 ^ lo % 2 ^ (hi + 1 - lo)

/-- Bit `n` of a number. -/
def bitOf (x n : Nat) : Bool := x / 2 ^ n % 2 == 1

/-- Bit `n` of a 32-bit thread mask. -/
def inMask (m : Word) (t : Nat) : Bool := m.getLsbD t

/-- The 32 threads of a squad (R13). -/
def threads : List Nat := List.range 32

/-- The mask of the threads that satisfy `p`. -/
def maskOf (p : Nat → Bool) : Word :=
  BitVec.ofNat 32 ((List.range 32).foldl (fun acc t => if p t then acc + 2 ^ t else acc) 0)

/-- The threads of a mask, ascending. -/
def maskThreads (m : Word) : List Nat := threads.filter (inMask m)

/-- The value of little-endian bytes (R1). -/
def leVal : List Byte → Nat
  | [] => 0
  | b :: r => b.toNat + 256 * leVal r

/-- The `n` little-endian bytes of a value (R1). -/
def leBytes (n v : Nat) : List Byte :=
  match n with
  | 0 => []
  | n + 1 => BitVec.ofNat 8 v :: leBytes n (v / 256)

/-- Sign extension of an n-bit field to an integer. -/
def sextNat (n v : Nat) : Int := sx n (v % 2 ^ n)

/-- R33. A 64-bit address sum, wrapping at 64 bits. -/
def addrAdd (a : Nat) (b : Int) : Nat := (((a : Int) + b) % 2 ^ 64).toNat

/-- The position of the highest one bit; 0 for 0. -/
def log2Nat (n : Nat) : Nat := Nat.log2 n

/-- The number of one bits among the low `n` bits. -/
def popNat (n v : Nat) : Nat := (List.range n).foldl (fun acc i => acc + v / 2 ^ i % 2) 0

end Sys2Proof.Machine
end

