-- ==== Sys2Proof/Machine/Crypto.lean ====
section
/-!
DEFINITION. The functions that the spec names by their standards: AES-256-GCM, which protects flits (R315), and SHA-384, which measures
an image (R325, R334). The standards are FIPS 197, SP 800-38D and FIPS 180-4 (log 23).
-/
namespace Sys2Proof.Machine

/-- AES. A byte times x in its field, and the product of two bytes. -/
def aesDouble (a : Nat) : Nat := if a < 128 then 2 * a else Nat.xor (2 * a - 256) 0x1B
def aesMul (a b : Nat) : Nat :=
  (List.range 8).foldl (fun acc i => let d := aesDouble acc; if bitOf b (7 - i) then Nat.xor d a else d) 0

/-- AES. The inverse of a byte, its power 254; 0 for 0. -/
def aesInverse (a : Nat) : Nat :=
  ((List.range 7).foldl (fun (p : Nat × Nat) _ => let q := aesMul p.1 p.1; (q, aesMul p.2 q)) (a, 1)).2

/-- AES. SubBytes of a byte. -/
def aesSub (a : Nat) : Nat :=
  let b := aesInverse a
  let turn (k : Nat) : Nat := (b * 2 ^ k + b / 2 ^ (8 - k)) % 256
  [turn 1, turn 2, turn 3, turn 4, 0x63].foldl Nat.xor b

/-- Bytes combined place by place. -/
def xorBytes (a b : List Nat) : List Nat := List.zipWith Nat.xor a b

/-- AES. What the word of a place takes from the word before it: turned and substituted at each eighth, substituted at each fourth behind. -/
def aesTemp (i : Nat) (prev : List Nat) : List Nat :=
  if i % 8 = 0 then xorBytes ((prev.drop 1 ++ prev.take 1).map aesSub) [2 ^ (i / 8 - 1), 0, 0, 0]
  else if i % 8 = 4 then prev.map aesSub
  else prev

/-- AES. One word more, and the 60 words of four bytes that a key of 32 bytes expands to. -/
def aesExtend (ws : List (List Nat)) (i : Nat) : List (List Nat) := ws ++ [xorBytes (ws.getD (i - 8) []) (aesTemp i (ws.getD (i - 1) []))]
def aesExpand (key : List Nat) : List (List Nat) :=
  (List.range 52).foldl (fun ws j => aesExtend ws (8 + j)) ((List.range 8).map (fun i => (key.drop (4 * i)).take 4))

/-- AES. ShiftRows, and MixColumns of a state of 16 bytes, column by column. -/
def aesShift (st : List Nat) : List Nat := (List.range 16).map (fun i => st.getD ((i + 4 * (i % 4)) % 16) 0)
def aesMix (st : List Nat) : List Nat :=
  (List.range 16).map (fun i =>
    let at_ (k : Nat) : Nat := st.getD (i / 4 * 4 + (i + k) % 4) 0
    [aesMul 2 (at_ 0), aesMul 3 (at_ 1), at_ 2].foldl Nat.xor (at_ 3))

/-- AES-256. A block of 16 bytes under an expanded key. -/
def aesBlock (ws : List (List Nat)) (block : List Nat) : List Nat :=
  let rk (r : Nat) : List Nat := ((ws.drop (4 * r)).take 4).flatten
  let mid := (List.range 13).foldl (fun st r => xorBytes (aesMix (aesShift (st.map aesSub))) (rk (r + 1))) (xorBytes block (rk 0))
  xorBytes (aesShift (mid.map aesSub)) (rk 14)

/-- The value of big-endian bytes, and the n big-endian bytes of a value. -/
def beVal (bs : List Nat) : Nat := bs.foldl (fun acc b => 256 * acc + b) 0
def beBytes (n v : Nat) : List Nat := (List.range n).map (fun i => v / 256 ^ (n - 1 - i) % 256)

/-- GCM. The product of two blocks in GHASH's field. -/
def ghashMul (x y : Nat) : Nat :=
  ((List.range 128).foldl (fun (p : Nat × Nat) i =>
    (if bitOf x (127 - i) then Nat.xor p.1 p.2 else p.1,
     if p.2 % 2 = 1 then Nat.xor (p.2 / 2) (0xE1 * 2 ^ 120) else p.2 / 2)) (0, y)).1

/-- Bytes in blocks of n, the last filled up with zeros. -/
def blocksOf (n : Nat) (bs : List Nat) : List (List Nat) :=
  (List.range ((bs.length + n - 1) / n)).map (fun i => let b := (bs.drop (n * i)).take n; b ++ List.replicate (n - b.length) 0)

/-- GCM. GHASH of additional data and a ciphertext. -/
def ghash (h : Nat) (aad ct : List Nat) : Nat :=
  let len := beBytes 8 (8 * aad.length) ++ beBytes 8 (8 * ct.length)
  (blocksOf 16 aad ++ blocksOf 16 ct ++ [len]).foldl (fun y b => ghashMul (Nat.xor y (beVal b)) h) 0

/-- GCM. n bytes of the key stream: the blocks of counters 2 and up. -/
def gcmStream (ws : List (List Nat)) (iv : List Nat) (n : Nat) : List Nat :=
  ((List.range ((n + 15) / 16)).flatMap (fun i => aesBlock ws (iv ++ beBytes 4 (2 + i)))).take n

/-- GCM. The tag of a ciphertext. -/
def gcmTag (ws : List (List Nat)) (iv aad ct : List Nat) : List Nat :=
  let h := beVal (aesBlock ws (List.replicate 16 0))
  xorBytes (beBytes 16 (ghash h aad ct)) (aesBlock ws (iv ++ beBytes 4 1))

/-- A key as its 32 bytes, in the order of its record, and an initialisation vector as its 12, the highest first (log 24). -/
def keyBytes (key : BitVec 256) : List Nat := (leBytes 32 key.toNat).map (·.toNat)
def ivBytes (iv : BitVec 96) : List Nat := beBytes 12 iv.toNat

/-- Bytes combined with the key stream. -/
def gcmCrypt (key : BitVec 256) (iv : BitVec 96) (bs : List Byte) : List Byte :=
  List.zipWith (fun (b : Byte) k => b ^^^ BitVec.ofNat 8 k) bs (gcmStream (aesExpand (keyBytes key)) (ivBytes iv) bs.length)

/-- The 16 bytes of a ciphertext's tag. -/
def gcmTagOf (key : BitVec 256) (iv : BitVec 96) (aad ct : List Byte) : List Byte :=
  let t := gcmTag (aesExpand (keyBytes key)) (ivBytes iv) (aad.map (·.toNat)) (ct.map (·.toNat))
  (List.range 16).map (fun i => BitVec.ofNat 8 (t.getD i 0))

/-- R315. AES-256-GCM: the ciphertext of a plaintext, and its tag behind it. -/
def gcmSeal (key : BitVec 256) (iv : BitVec 96) (aad plain : List Byte) : List Byte :=
  let ct := gcmCrypt key iv plain
  ct ++ gcmTagOf key iv aad ct

/-- R315. AES-256-GCM: the plaintext of a ciphertext of n bytes with its tag behind it, when the tag is right. -/
def gcmOpen (n : Nat) (key : BitVec 256) (iv : BitVec 96) (aad body : List Byte) : Option (List Byte) :=
  let ct := body.take n
  if body.drop n = gcmTagOf key iv aad ct then some (gcmCrypt key iv ct) else none

/-- The whole part of the k-th root of a number below 2^(72 k), found bit by bit. -/
def rootOf (k n : Nat) : Nat := (List.range 72).foldl (fun r i => if (r + 2 ^ (71 - i)) ^ k ≤ n then r + 2 ^ (71 - i) else r) 0

/-- The primes below 410. -/
def smallPrimes : List Nat := (List.range 410).filter (fun n => decide (2 ≤ n) && (List.range n).all (fun d => decide (d < 2) || n % d != 0))

/-- SHA-384. The round constants, the first 64 bits of the fractions of the cube roots of the first 80 primes, and the initial state, those
of the square roots of the ninth to the sixteenth. -/
def shaConstants : List Nat := smallPrimes.map (fun p => rootOf 3 (p * 2 ^ 192) % 2 ^ 64)
def shaInitial : List Nat := ((smallPrimes.drop 8).take 8).map (fun p => rootOf 2 (p * 2 ^ 128) % 2 ^ 64)

/-- SHA-384. A word turned right, and the functions of one, two and three words. -/
def rotr (n x : Nat) : Nat := x / 2 ^ n + x % 2 ^ n * 2 ^ (64 - n)
def xor3 (a b c : Nat) : Nat := Nat.xor (Nat.xor a b) c
def shaUpper0 (x : Nat) : Nat := xor3 (rotr 28 x) (rotr 34 x) (rotr 39 x)
def shaUpper1 (x : Nat) : Nat := xor3 (rotr 14 x) (rotr 18 x) (rotr 41 x)
def shaLower0 (x : Nat) : Nat := xor3 (rotr 1 x) (rotr 8 x) (x / 2 ^ 7)
def shaLower1 (x : Nat) : Nat := xor3 (rotr 19 x) (rotr 61 x) (x / 2 ^ 6)
def shaChoose (e f g : Nat) : Nat := Nat.xor (Nat.land e f) (Nat.land (2 ^ 64 - 1 - e) g)
def shaMajority (a b c : Nat) : Nat := xor3 (Nat.land a b) (Nat.land a c) (Nat.land b c)

/-- SHA-384. The 80 words that a block of 128 bytes expands to. -/
def shaSchedule (block : List Nat) : List Nat :=
  (List.range 64).foldl (fun ws j =>
    let i := 16 + j
    let w (k : Nat) : Nat := ws.getD (i - k) 0
    ws ++ [(shaLower1 (w 2) + w 7 + shaLower0 (w 15) + w 16) % 2 ^ 64]) ((List.range 16).map (fun i => beVal ((block.drop (8 * i)).take 8)))

/-- SHA-384. One round on a state of eight words. -/
def shaRound (st : List Nat) (kw : Nat) : List Nat :=
  match st with
  | [a, b, c, d, e, f, g, h] =>
    let t1 := h + shaUpper1 e + shaChoose e f g + kw
    [(t1 + shaUpper0 a + shaMajority a b c) % 2 ^ 64, a, b, c, (d + t1) % 2 ^ 64, e, f, g]
  | _ => st

/-- SHA-384. A block taken into the state. -/
def shaBlock (st block : List Nat) : List Nat :=
  let out := (List.zipWith (· + ·) shaConstants (shaSchedule block)).foldl shaRound st
  List.zipWith (fun a b => (a + b) % 2 ^ 64) st out

/-- R325, R334. SHA-384 of bytes: 48 bytes. -/
def sha384 (bs : List Byte) : List Byte :=
  let m := bs.map (·.toNat) ++ [0x80]
  let fill := (112 + 128 - m.length % 128) % 128
  let padded := m ++ List.replicate fill 0 ++ beBytes 16 (8 * bs.length)
  let st := (blocksOf 128 padded).foldl shaBlock shaInitial
  (List.range 48).map (fun i => BitVec.ofNat 8 ((st.flatMap (beBytes 8)).getD i 0))

end Sys2Proof.Machine
end

