-- ==== Sys2Proof/Syntax.lean ====
section
/-!
DEFINITION. The instructions of the module: one constructor per row of spec/opcode_table.json.
The first kind is an instruction word (with its literal, for an L-format word), carrying the fields of its
encoding in the opcode maps (R35 to R45): `w` width code, `f` format code, `g` and `n` guard and negate, `m` bit 18,
`d`, `a`, `b`, `t` register fields, `x` and `o` addressing, `k` an immediate, `p` a predicate destination.
The second kind is a step of a unit of the device (a clause fetch, a home slice, an engine, the scheduler, the host).
Its arguments say which of the waiting operations the step acts on, or carry what comes from outside the module.
-/
namespace Sys2Proof

/-- One row of the opcode table. -/
inductive Instr where
  /-- R340. When a squad's previous clause has ended, its lane fetches the clause at the issue address and then, in order, raises any pending POISON, makes the clause check and makes the SYS privilege check; it may trap or park at the header. -/
  | clauseFetch (q : Nat)
  /-- R63. A lane that is free to start a clause picks a ready squad in rotating slot order and issues that squad's fetched clause to its participating threads. -/
  | clauseIssue (lane : Nat)
  /-- R81. Vector integer add of sub-elements, modulo 2^W. -/
  | add (w : BitVec 2) (g : BitVec 4) (n m : BitVec 1) (d a b : BitVec 6)
  /-- R81. Vector integer subtract, modulo 2^W. -/
  | sub (w : BitVec 2) (g : BitVec 4) (n m : BitVec 1) (d a b : BitVec 6)
  /-- R81. Vector multiply, low half. -/
  | mul (w : BitVec 2) (g : BitVec 4) (n m : BitVec 1) (d a b : BitVec 6)
  /-- R81. Vector signed multiply, high half. -/
  | mulhI (w : BitVec 2) (g : BitVec 4) (n m : BitVec 1) (d a b : BitVec 6)
  /-- R81. Vector unsigned multiply, high half. -/
  | mulhN (w : BitVec 2) (g : BitVec 4) (n m : BitVec 1) (d a b : BitVec 6)
  /-- R81. Vector signed saturating add. -/
  | addISat (w : BitVec 2) (g : BitVec 4) (n m : BitVec 1) (d a b : BitVec 6)
  /-- R81. Vector unsigned saturating add. -/
  | addNSat (w : BitVec 2) (g : BitVec 4) (n m : BitVec 1) (d a b : BitVec 6)
  /-- R81. Vector signed saturating subtract. -/
  | subISat (w : BitVec 2) (g : BitVec 4) (n m : BitVec 1) (d a b : BitVec 6)
  /-- R81. Vector unsigned saturating subtract. -/
  | subNSat (w : BitVec 2) (g : BitVec 4) (n m : BitVec 1) (d a b : BitVec 6)
  /-- R81. Vector signed rounding average. -/
  | avgI (w : BitVec 2) (g : BitVec 4) (n m : BitVec 1) (d a b : BitVec 6)
  /-- R81. Vector unsigned rounding average. -/
  | avgN (w : BitVec 2) (g : BitVec 4) (n m : BitVec 1) (d a b : BitVec 6)
  /-- R81. Vector signed minimum. -/
  | minI (w : BitVec 2) (g : BitVec 4) (n m : BitVec 1) (d a b : BitVec 6)
  /-- R81. Vector unsigned minimum. -/
  | minN (w : BitVec 2) (g : BitVec 4) (n m : BitVec 1) (d a b : BitVec 6)
  /-- R81. Vector signed maximum. -/
  | maxI (w : BitVec 2) (g : BitVec 4) (n m : BitVec 1) (d a b : BitVec 6)
  /-- R81. Vector unsigned maximum. -/
  | maxN (w : BitVec 2) (g : BitVec 4) (n m : BitVec 1) (d a b : BitVec 6)
  /-- R82. Vector shift left; a count of W or more gives 0. -/
  | shl (w : BitVec 2) (g : BitVec 4) (n m : BitVec 1) (d a b : BitVec 6)
  /-- R82. Vector logical shift right. -/
  | shrN (w : BitVec 2) (g : BitVec 4) (n m : BitVec 1) (d a b : BitVec 6)
  /-- R82. Vector arithmetic shift right. -/
  | shrI (w : BitVec 2) (g : BitVec 4) (n m : BitVec 1) (d a b : BitVec 6)
  /-- R86. Vector compare equal into a predicate. -/
  | cmpeq (w : BitVec 2) (g : BitVec 4) (n : BitVec 1) (p : BitVec 7) (a b : BitVec 6)
  /-- R86. Vector signed compare less-than into a predicate. -/
  | cmpltI (w : BitVec 2) (g : BitVec 4) (n : BitVec 1) (p : BitVec 7) (a b : BitVec 6)
  /-- R86. Vector unsigned compare less-than into a predicate. -/
  | cmpltN (w : BitVec 2) (g : BitVec 4) (n : BitVec 1) (p : BitVec 7) (a b : BitVec 6)
  /-- R86. Vector signed compare less-or-equal into a predicate. -/
  | cmpleI (w : BitVec 2) (g : BitVec 4) (n : BitVec 1) (p : BitVec 7) (a b : BitVec 6)
  /-- R86. Vector unsigned compare less-or-equal into a predicate. -/
  | cmpleN (w : BitVec 2) (g : BitVec 4) (n : BitVec 1) (p : BitVec 7) (a b : BitVec 6)
  /-- R86. Vector compare not-equal into a predicate. -/
  | cmpne (w : BitVec 2) (g : BitVec 4) (n : BitVec 1) (p : BitVec 7) (a b : BitVec 6)
  /-- R84. Bytewise vector AND. -/
  | and (g : BitVec 4) (n m : BitVec 1) (d a b : BitVec 6)
  /-- R84. Bytewise vector OR. -/
  | or (g : BitVec 4) (n m : BitVec 1) (d a b : BitVec 6)
  /-- R84. Bytewise vector XOR. -/
  | xor (g : BitVec 4) (n m : BitVec 1) (d a b : BitVec 6)
  /-- R84. Bytewise vector a AND NOT b. -/
  | andn (g : BitVec 4) (n m : BitVec 1) (d a b : BitVec 6)
  /-- R84. Bytewise vector NOT of a. -/
  | not (g : BitVec 4) (n : BitVec 1) (d a : BitVec 6)
  /-- R84. Vector move of b, from a vector or a scalar register. -/
  | mov (g : BitVec 4) (n m : BitVec 1) (d b : BitVec 6)
  /-- R85. Bytewise select of a or b by a selector predicate. -/
  | sel (g : BitVec 4) (n m : BitVec 1) (d a b : BitVec 6)
  /-- R84. Vector move of a 32-bit literal, sign- or zero-extended. -/
  | movl (g : BitVec 4) (n m : BitVec 1) (d : BitVec 6) (lit : BitVec 32)
  /-- R83. Population count of a 64-bit value. -/
  | popc (g : BitVec 4) (n : BitVec 1) (d a : BitVec 6)
  /-- R83. Count of leading zero bits. -/
  | clz (g : BitVec 4) (n : BitVec 1) (d a : BitVec 6)
  /-- R83. Count of trailing zero bits. -/
  | ctz (g : BitVec 4) (n : BitVec 1) (d a : BitVec 6)
  /-- R83. Bit reversal of a 64-bit value. -/
  | brev (g : BitVec 4) (n : BitVec 1) (d a : BitVec 6)
  /-- R83. Unsigned bit-field extract. -/
  | bfxN (g : BitVec 4) (n m : BitVec 1) (d a b : BitVec 6)
  /-- R83. Signed bit-field extract. -/
  | bfxI (g : BitVec 4) (n m : BitVec 1) (d a b : BitVec 6)
  /-- R83. Bit-field insert into d. -/
  | bfi (g : BitVec 4) (n m : BitVec 1) (d a b : BitVec 6)
  /-- R82. 64-bit rotate left. -/
  | rot (g : BitVec 4) (n m : BitVec 1) (d a b : BitVec 6)
  /-- R81. Vector signed absolute value. -/
  | abs (w : BitVec 2) (g : BitVec 4) (n : BitVec 1) (d a : BitVec 6)
  /-- R87. Predicate AND. -/
  | pand (g : BitVec 4) (n : BitVec 1) (p : BitVec 7) (a b : BitVec 6)
  /-- R87. Predicate OR. -/
  | por (g : BitVec 4) (n : BitVec 1) (p : BitVec 7) (a b : BitVec 6)
  /-- R87. Predicate XOR. -/
  | pxor (g : BitVec 4) (n : BitVec 1) (p : BitVec 7) (a b : BitVec 6)
  /-- R87. Predicate a AND NOT b. -/
  | pandn (g : BitVec 4) (n : BitVec 1) (p : BitVec 7) (a b : BitVec 6)
  /-- R87. Predicate NOT. -/
  | pnot (g : BitVec 4) (n : BitVec 1) (p : BitVec 7) (a : BitVec 6)
  /-- R91. Each active thread reads one sub-element of a named thread's register. -/
  | xread (g : BitVec 4) (n : BitVec 1) (p : BitVec 7) (d a : BitVec 6) (t : BitVec 5) (j : BitVec 3) (w : BitVec 2)
  /-- R91. Each active thread reads the register of the thread named by its own index register. -/
  | xshuf (g : BitVec 4) (n : BitVec 1) (p : BitVec 7) (d a x : BitVec 6)
  /-- R91. Each active thread reads the register of one literal thread. -/
  | xbcast (g : BitVec 4) (n : BitVec 1) (p : BitVec 7) (d a : BitVec 6) (t : BitVec 5)
  /-- R93. 64-bit AND reduction over the active threads into a scalar. -/
  | redand (g : BitVec 4) (n : BitVec 1) (d a b : BitVec 6)
  /-- R93. 64-bit OR reduction into a scalar. -/
  | redor (g : BitVec 4) (n : BitVec 1) (d a b : BitVec 6)
  /-- R117. Ordered RNE F32 sum reduction into a scalar. -/
  | redfadd (g : BitVec 4) (n : BitVec 1) (d a b : BitVec 6)
  /-- R117. Ordered F32 maximum reduction into a scalar. -/
  | redfmax (g : BitVec 4) (n : BitVec 1) (d a b : BitVec 6)
  /-- R110. Vector floating add, rounded by the mode word. -/
  | fadd (f : BitVec 2) (g : BitVec 4) (n m : BitVec 1) (d a b : BitVec 6)
  /-- R110. Vector floating subtract. -/
  | fsub (f : BitVec 2) (g : BitVec 4) (n m : BitVec 1) (d a b : BitVec 6)
  /-- R110. Vector floating multiply. -/
  | fmul (f : BitVec 2) (g : BitVec 4) (n m : BitVec 1) (d a b : BitVec 6)
  /-- R110. Vector fused multiply-add into d, with one rounding. -/
  | fma (f : BitVec 2) (g : BitVec 4) (n m : BitVec 1) (d a b : BitVec 6)
  /-- R110. Vector floating minimum. -/
  | fmin (f : BitVec 2) (g : BitVec 4) (n m : BitVec 1) (d a b : BitVec 6)
  /-- R110. Vector floating maximum. -/
  | fmax (f : BitVec 2) (g : BitVec 4) (n m : BitVec 1) (d a b : BitVec 6)
  /-- R110. Clears the sign bit. -/
  | fabs (f : BitVec 2) (g : BitVec 4) (n : BitVec 1) (d a : BitVec 6)
  /-- R110. Inverts the sign bit. -/
  | fneg (f : BitVec 2) (g : BitVec 4) (n : BitVec 1) (d a : BitVec 6)
  /-- R111. Floating compare equal into a predicate. -/
  | fcmpeq (f : BitVec 2) (g : BitVec 4) (n : BitVec 1) (p : BitVec 7) (a b : BitVec 6)
  /-- R111. Floating compare less-than into a predicate. -/
  | fcmplt (f : BitVec 2) (g : BitVec 4) (n : BitVec 1) (p : BitVec 7) (a b : BitVec 6)
  /-- R111. Floating compare less-or-equal into a predicate. -/
  | fcmple (f : BitVec 2) (g : BitVec 4) (n : BitVec 1) (p : BitVec 7) (a b : BitVec 6)
  /-- R111. Floating compare unordered into a predicate. -/
  | fcmpun (f : BitVec 2) (g : BitVec 4) (n : BitVec 1) (p : BitVec 7) (a b : BitVec 6)
  /-- R112. Converts packed elements between formats. -/
  | cvt (c g : BitVec 4) (n : BitVec 1) (d a : BitVec 6) (b : BitVec 4) (r : BitVec 3)
  /-- R112. Saturating conversion between formats. -/
  | cvtSat (c g : BitVec 4) (n : BitVec 1) (d a : BitVec 6) (b : BitVec 4) (r : BitVec 3)
  /-- R93. Integer sum reduction into a scalar. -/
  | redadd (w : BitVec 2) (g : BitVec 4) (n : BitVec 1) (d a b : BitVec 6)
  /-- R93. Signed minimum reduction into a scalar. -/
  | redminI (w : BitVec 2) (g : BitVec 4) (n : BitVec 1) (d a b : BitVec 6)
  /-- R93. Unsigned minimum reduction into a scalar. -/
  | redminN (w : BitVec 2) (g : BitVec 4) (n : BitVec 1) (d a b : BitVec 6)
  /-- R93. Signed maximum reduction into a scalar. -/
  | redmaxI (w : BitVec 2) (g : BitVec 4) (n : BitVec 1) (d a b : BitVec 6)
  /-- R93. Unsigned maximum reduction into a scalar. -/
  | redmaxN (w : BitVec 2) (g : BitVec 4) (n : BitVec 1) (d a b : BitVec 6)
  /-- R93. Inclusive ascending sum scan. -/
  | scanadd (w : BitVec 2) (g : BitVec 4) (n : BitVec 1) (d a b : BitVec 6)
  /-- R93. Inclusive signed maximum scan. -/
  | scanmaxI (w : BitVec 2) (g : BitVec 4) (n : BitVec 1) (d a b : BitVec 6)
  /-- R93. Inclusive unsigned maximum scan. -/
  | scanmaxN (w : BitVec 2) (g : BitVec 4) (n : BitVec 1) (d a b : BitVec 6)
  /-- R88. Scalar 64-bit add. -/
  | addScalar (d a b : BitVec 6)
  /-- R88. Scalar 64-bit subtract. -/
  | subScalar (d a b : BitVec 6)
  /-- R88. Scalar 64-bit multiply, low half. -/
  | mulScalar (d a b : BitVec 6)
  /-- R88. Scalar bitwise AND. -/
  | andScalar (d a b : BitVec 6)
  /-- R88. Scalar bitwise OR. -/
  | orScalar (d a b : BitVec 6)
  /-- R88. Scalar bitwise XOR. -/
  | xorScalar (d a b : BitVec 6)
  /-- R88. Scalar shift left. -/
  | shlScalar (d a b : BitVec 6)
  /-- R88. Scalar logical shift right. -/
  | shrNScalar (d a b : BitVec 6)
  /-- R88. Scalar arithmetic shift right. -/
  | shrIScalar (d a b : BitVec 6)
  /-- R88. Scalar signed minimum. -/
  | minIScalar (d a b : BitVec 6)
  /-- R88. Scalar signed maximum. -/
  | maxIScalar (d a b : BitVec 6)
  /-- R88. Scalar unsigned minimum. -/
  | minNScalar (d a b : BitVec 6)
  /-- R88. Scalar unsigned maximum. -/
  | maxNScalar (d a b : BitVec 6)
  /-- R88. Scalar move of a 32-bit literal, sign- or zero-extended. -/
  | movlScalar (m : BitVec 1) (d : BitVec 6) (lit : BitVec 32)
  /-- R89. Scalar compare equal, writing the predicate in all 32 threads. -/
  | cmpeqScalar (p : BitVec 7) (a b : BitVec 6)
  /-- R89. Scalar signed compare less-than, writing the predicate in all 32 threads. -/
  | cmpltScalar (p : BitVec 7) (a b : BitVec 6)
  /-- R120. Special-function reciprocal. -/
  | rcp (f : BitVec 2) (g : BitVec 4) (n : BitVec 1) (d a : BitVec 6)
  /-- R120. Special-function reciprocal square root. -/
  | rsq (f : BitVec 2) (g : BitVec 4) (n : BitVec 1) (d a : BitVec 6)
  /-- R120. Correctly rounded square root. -/
  | sqrt (f : BitVec 2) (g : BitVec 4) (n : BitVec 1) (d a : BitVec 6)
  /-- R120. Special-function base-2 exponential. -/
  | exp2 (f : BitVec 2) (g : BitVec 4) (n : BitVec 1) (d a : BitVec 6)
  /-- R120. Special-function base-2 logarithm. -/
  | log2 (f : BitVec 2) (g : BitVec 4) (n : BitVec 1) (d a : BitVec 6)
  /-- R120. sin(πx). -/
  | sin (f : BitVec 2) (g : BitVec 4) (n : BitVec 1) (d a : BitVec 6)
  /-- R120. cos(πx). -/
  | cos (f : BitVec 2) (g : BitVec 4) (n : BitVec 1) (d a : BitVec 6)
  /-- R120. Hyperbolic tangent. -/
  | tanh (f : BitVec 2) (g : BitVec 4) (n : BitVec 1) (d a : BitVec 6)
  /-- R159. Zero-extending GLOBAL vector load, one element per enabled thread. -/
  | ldgN (w : BitVec 2) (g : BitVec 4) (n : BitVec 1) (t b : BitVec 6) (x : BitVec 1) (o : BitVec 6)
  /-- R159. Sign-extending GLOBAL vector load. -/
  | ldgI (w : BitVec 2) (g : BitVec 4) (n : BitVec 1) (t b : BitVec 6) (x : BitVec 1) (o : BitVec 6)
  /-- R159. GLOBAL vector store. -/
  | stg (w : BitVec 2) (g : BitVec 4) (n : BitVec 1) (t b : BitVec 6) (x : BitVec 1) (o : BitVec 6)
  /-- R161. No-fault GLOBAL load that writes a residency predicate. -/
  | ldgNf (w : BitVec 2) (g : BitVec 4) (n : BitVec 1) (t b : BitVec 6) (x : BitVec 1) (o : BitVec 6)
  /-- R159. Zero-extending SCRATCH load. -/
  | ldsN (w : BitVec 2) (g : BitVec 4) (n : BitVec 1) (t b : BitVec 6) (x : BitVec 1) (o : BitVec 6)
  /-- R159. Sign-extending SCRATCH load. -/
  | ldsI (w : BitVec 2) (g : BitVec 4) (n : BitVec 1) (t b : BitVec 6) (x : BitVec 1) (o : BitVec 6)
  /-- R159. SCRATCH vector store. -/
  | sts (w : BitVec 2) (g : BitVec 4) (n : BitVec 1) (t b : BitVec 6) (x : BitVec 1) (o : BitVec 6)
  /-- R162. Load from the squad's REG-space register window. -/
  | ldr (g : BitVec 4) (n : BitVec 1) (t b : BitVec 6) (x : BitVec 1) (o : BitVec 6)
  /-- R162. Store into the squad's REG-space register window. -/
  | str (g : BitVec 4) (n : BitVec 1) (t b : BitVec 6) (x : BitVec 1) (o : BitVec 6)
  /-- R163. Load of one accumulator element per thread. -/
  | lda (g : BitVec 4) (n : BitVec 1) (t b : BitVec 6) (x : BitVec 1) (o : BitVec 6)
  /-- R163. Store of one accumulator element per thread. -/
  | sta (g : BitVec 4) (n : BitVec 1) (t b : BitVec 6) (x : BitVec 1) (o : BitVec 6)
  /-- R164. Load from another device's exported window, draining any matching write-combining entry first. -/
  | ldp (w : BitVec 2) (g : BitVec 4) (n : BitVec 1) (t b : BitVec 6) (x : BitVec 1) (o : BitVec 6)
  /-- R165. POD store into the core's write-combining buffer. -/
  | stp (w : BitVec 2) (g : BitVec 4) (n : BitVec 1) (t b : BitVec 6) (x : BitVec 1) (o : BitVec 6)
  /-- R160. Scalar 8-byte GLOBAL load. -/
  | ldgScalar (t b o : BitVec 6)
  /-- R160. Scalar 8-byte GLOBAL store. -/
  | stgScalar (t b o : BitVec 6)
  /-- R160. Scalar 8-byte SCRATCH load. -/
  | ldsScalar (t b o : BitVec 6)
  /-- R160. Scalar 8-byte SCRATCH store. -/
  | stsScalar (t b o : BitVec 6)
  /-- R166. GLOBAL atomic add at the home slice. -/
  | atomgAdd (v : BitVec 1) (g : BitVec 4) (n : BitVec 1) (t b : BitVec 6) (x : BitVec 1) (o : BitVec 6)
  /-- R166. GLOBAL atomic signed minimum. -/
  | atomgMinI (v : BitVec 1) (g : BitVec 4) (n : BitVec 1) (t b : BitVec 6) (x : BitVec 1) (o : BitVec 6)
  /-- R166. GLOBAL atomic unsigned minimum. -/
  | atomgMinN (v : BitVec 1) (g : BitVec 4) (n : BitVec 1) (t b : BitVec 6) (x : BitVec 1) (o : BitVec 6)
  /-- R166. GLOBAL atomic signed maximum. -/
  | atomgMaxI (v : BitVec 1) (g : BitVec 4) (n : BitVec 1) (t b : BitVec 6) (x : BitVec 1) (o : BitVec 6)
  /-- R166. GLOBAL atomic unsigned maximum. -/
  | atomgMaxN (v : BitVec 1) (g : BitVec 4) (n : BitVec 1) (t b : BitVec 6) (x : BitVec 1) (o : BitVec 6)
  /-- R166. GLOBAL atomic AND. -/
  | atomgAnd (v : BitVec 1) (g : BitVec 4) (n : BitVec 1) (t b : BitVec 6) (x : BitVec 1) (o : BitVec 6)
  /-- R166. GLOBAL atomic OR. -/
  | atomgOr (v : BitVec 1) (g : BitVec 4) (n : BitVec 1) (t b : BitVec 6) (x : BitVec 1) (o : BitVec 6)
  /-- R166. GLOBAL atomic XOR. -/
  | atomgXor (v : BitVec 1) (g : BitVec 4) (n : BitVec 1) (t b : BitVec 6) (x : BitVec 1) (o : BitVec 6)
  /-- R166. GLOBAL atomic exchange. -/
  | atomgXchg (v : BitVec 1) (g : BitVec 4) (n : BitVec 1) (t b : BitVec 6) (x : BitVec 1) (o : BitVec 6)
  /-- R166. GLOBAL atomic compare-and-swap. -/
  | atomgCas (v : BitVec 1) (g : BitVec 4) (n : BitVec 1) (t b : BitVec 6) (x : BitVec 1) (o : BitVec 6)
  /-- R167. Two independent RNE BF16 atomic adds, low half first. -/
  | atomgAddBf16x2 (g : BitVec 4) (n : BitVec 1) (t b : BitVec 6) (x : BitVec 1) (o : BitVec 6)
  /-- R167. RNE F32 atomic add at the home slice. -/
  | atomgAddF32 (g : BitVec 4) (n : BitVec 1) (t b : BitVec 6) (x : BitVec 1) (o : BitVec 6)
  /-- R168. Atomically hands out the next chunk of an index range. -/
  | atomgGrab (t b o : BitVec 6)
  /-- R166. SCRATCH atomic add. -/
  | atomsAdd (v : BitVec 1) (g : BitVec 4) (n : BitVec 1) (t b : BitVec 6) (x : BitVec 1) (o : BitVec 6)
  /-- R166. SCRATCH atomic signed minimum. -/
  | atomsMinI (v : BitVec 1) (g : BitVec 4) (n : BitVec 1) (t b : BitVec 6) (x : BitVec 1) (o : BitVec 6)
  /-- R166. SCRATCH atomic unsigned minimum. -/
  | atomsMinN (v : BitVec 1) (g : BitVec 4) (n : BitVec 1) (t b : BitVec 6) (x : BitVec 1) (o : BitVec 6)
  /-- R166. SCRATCH atomic signed maximum. -/
  | atomsMaxI (v : BitVec 1) (g : BitVec 4) (n : BitVec 1) (t b : BitVec 6) (x : BitVec 1) (o : BitVec 6)
  /-- R166. SCRATCH atomic unsigned maximum. -/
  | atomsMaxN (v : BitVec 1) (g : BitVec 4) (n : BitVec 1) (t b : BitVec 6) (x : BitVec 1) (o : BitVec 6)
  /-- R166. SCRATCH atomic AND. -/
  | atomsAnd (v : BitVec 1) (g : BitVec 4) (n : BitVec 1) (t b : BitVec 6) (x : BitVec 1) (o : BitVec 6)
  /-- R166. SCRATCH atomic OR. -/
  | atomsOr (v : BitVec 1) (g : BitVec 4) (n : BitVec 1) (t b : BitVec 6) (x : BitVec 1) (o : BitVec 6)
  /-- R166. SCRATCH atomic XOR. -/
  | atomsXor (v : BitVec 1) (g : BitVec 4) (n : BitVec 1) (t b : BitVec 6) (x : BitVec 1) (o : BitVec 6)
  /-- R166. SCRATCH atomic exchange. -/
  | atomsXchg (v : BitVec 1) (g : BitVec 4) (n : BitVec 1) (t b : BitVec 6) (x : BitVec 1) (o : BitVec 6)
  /-- R166. SCRATCH atomic compare-and-swap. -/
  | atomsCas (v : BitVec 1) (g : BitVec 4) (n : BitVec 1) (t b : BitVec 6) (x : BitVec 1) (o : BitVec 6)
  /-- R203. Performs the release half and then the acquire half at the scope named by O[1:0]. -/
  | fence (c : BitVec 2)
  /-- R169. Prefetches resident, readable lines into the home slice and the L1. -/
  | pref (g : BitVec 4) (n : BitVec 1) (b : BitVec 6) (x : BitVec 1) (o : BitVec 6)
  /-- R169. Enters a request-only entry in the fault filter for each non-resident page. -/
  | reqpage (g : BitVec 4) (n : BitVec 1) (b : BitVec 6) (x : BitVec 1) (o : BitVec 6)
  /-- R169. Invalidates the core's L1 copy of each named line. -/
  | l1inv (g : BitVec 4) (n : BitVec 1) (b : BitVec 6) (x : BitVec 1) (o : BitVec 6)
  /-- R169. Invalidates every line of the core's L1. -/
  | l1inva
  /-- R194. Queues a matrix multiply of canonical panels into an accumulator tile. -/
  | tileMma (b o : BitVec 6)
  /-- R195. Queues the zeroing of a whole accumulator tile. -/
  | tileZero (d : BitVec 6) (f : BitVec 4)
  /-- R195. Queues a whole-tile copy. -/
  | tileMov (d a : BitVec 6) (f : BitVec 4)
  /-- R195. Queues a whole-tile RNE add. -/
  | tileAdd (d a : BitVec 6) (f : BitVec 4)
  /-- R195. Queues a whole-tile RNE scaling by a scalar. -/
  | tileScale (d a : BitVec 6) (f : BitVec 4)
  /-- R196. Returns the weight-buffer epoch and the engine queue and bindings occupancy. -/
  | tileQuery (d : BitVec 6)
  /-- R181. Queues a copy of a tensor into a canonical panel or as RAW bytes. -/
  | cpin (f : BitVec 4) (b : BitVec 6) (x : BitVec 1) (o : BitVec 6)
  /-- R182. Queues a conversion of accumulator or scratch elements out to a storage tensor. -/
  | cpout (f : BitVec 4) (b : BitVec 6) (x : BitVec 1) (o : BitVec 6)
  /-- R183. Queues a copy of weight-buffer bytes out to GLOBAL. -/
  | cpwb (f : BitVec 4) (b : BitVec 6) (x : BitVec 1) (o : BitVec 6)
  /-- R191. Adds a weight-buffer range to the lock table. -/
  | lock (t b o : BitVec 6)
  /-- R191. Removes a matching weight-buffer lock. -/
  | unlock (t b o : BitVec 6)
  /-- R192. Tags every fresh weight-buffer unit with a residency key. -/
  | wkey (a : BitVec 6)
  /-- R248. Sends one figure request per enabled thread to the update unit that owns the address. -/
  | fig (g : BitVec 4) (n : BitVec 1) (t b : BitVec 6) (x : BitVec 1) (o k : BitVec 6) (f : BitVec 4) (e : BitVec 1)
  /-- R245. Reads and checks a figure definition for a slot and returns a status. -/
  | figld (t b o k : BitVec 6)
  /-- R246. Empties a figure slot. -/
  | figunld (b : BitVec 6)
  /-- R266. Sends a named store of the enabled threads' values to a register of a named squad. -/
  | stn (g : BitVec 4) (n : BitVec 1) (d a b : BitVec 6)
  /-- R266. Named store that first performs the release half of FENCE.POD. -/
  | stnRel (g : BitVec 4) (n : BitVec 1) (d a b : BitVec 6)
  /-- R266. Named store that names a completion flag. -/
  | stnF (g : BitVec 4) (n : BitVec 1) (d a b : BitVec 6) (f : BitVec 4)
  /-- R264. Allocates a directory entry and gives the squad a name. -/
  | nameget (d : BitVec 6)
  /-- R265. Retires the squad's name and ends its server registrations. -/
  | namerel
  /-- R275. Offers a 64-byte task to the servers of a class through a heat. -/
  | tender (d a : BitVec 6) (c : BitVec 4)
  /-- R274. Registers the squad as the server of a class on its core. -/
  | serve (c : BitVec 4)
  /-- R279. Moves the oldest inbox task of a class into scratch. -/
  | take (d a : BitVec 6) (c : BitVec 4)
  /-- R319. Queues a copy of a GLOBAL range to every device of a destination string. -/
  | mcast (d a : BitVec 6) (f : BitVec 4)
  /-- R320. Contributes a vector to a switch reduction among a group of devices. -/
  | redx (d : BitVec 6) (o : BitVec 3) (f : BitVec 4)
  /-- R99. Changes nothing. -/
  | nop (g : BitVec 4) (n : BitVec 1)
  /-- R94. Branches the enabled threads relative to the clause header. -/
  | bra (g : BitVec 4) (n : BitVec 1) (f : BitVec 19)
  /-- R95. Branches each enabled thread to the address in its register. -/
  | brx (g : BitVec 4) (n : BitVec 1) (a : BitVec 6)
  /-- R96. Writes the link to v31 and branches. -/
  | call (g : BitVec 4) (n : BitVec 1) (f : BitVec 19)
  /-- R95. Returns each enabled thread to the link address in its register. -/
  | ret (g : BitVec 4) (n : BitVec 1) (a : BitVec 6)
  /-- R98. Retires the enabled threads. -/
  | exit (g : BitVec 4) (n : BitVec 1)
  /-- R99. Ends the squad's turn after this clause. -/
  | yield
  /-- R300. Arrives at a block barrier counting all unretired squads of the block. -/
  | bar (p : BitVec 7) (b : BitVec 4)
  /-- R300. Arrives at a block barrier with an explicit participant count. -/
  | barc (p : BitVec 7) (a : BitVec 6) (b : BitVec 4)
  /-- R304. Waits for the commit token, enters the commit section and performs the acquire half. -/
  | commit
  /-- R304. Performs the release half, leaves the section and sends the commit token on. -/
  | pass
  /-- R101. Marks the lowest-numbered enabled thread in a predicate. -/
  | elect (g : BitVec 4) (n : BitVec 1) (p : BitVec 7)
  /-- R100. Raises a precise trap with cause 0x80 + code. -/
  | trap (g : BitVec 4) (n : BitVec 1) (k : BitVec 7)
  /-- R136. Starts a hardware loop over the following body. -/
  | loop (c : BitVec 2) (l : BitVec 8) (b : BitVec 6)
  /-- R134. Holds its clause until the outstanding-class counters are at or below the limits. -/
  | wait (l b c : BitVec 5) (t : BitVec 4)
  /-- R135. Sets the masked completion flags. -/
  | flagset (m : BitVec 12)
  /-- R135. Clears the masked completion flags and their error bits. -/
  | flagclr (m : BitVec 12)
  /-- R68. Takes the pair lock on v32–v63, zeroing them when the holder changes. -/
  | xlock
  /-- R68. Releases the pair lock. -/
  | xunlock
  /-- R69. Sets the hold count of a vector register. -/
  | arm (d c : BitVec 6)
  /-- R70. Writes a thread, squad, block, cluster, core or device identity. -/
  | getid (g : BitVec 4) (n : BitVec 1) (d : BitVec 6) (k : BitVec 7)
  /-- R108. Sets the rounding mode and seeds all 32 generator words. -/
  | setmode (a : BitVec 6) (m : BitVec 3)
  /-- R214. Marks the squad released for dependent launches. -/
  | lnext
  /-- R214. Waits for EARLY predecessors to be released and DONE predecessors to retire, then acquires. -/
  | waitpred
  /-- R214. Waits for every predecessor launch to retire, then acquires. -/
  | waitdone
  /-- R75. Reads a squad CSR into a scalar. -/
  | csrrd (d : BitVec 6) (c : BitVec 12)
  /-- R75. Writes a scalar into a squad CSR. -/
  | csrwr (b : BitVec 6) (c : BitVec 12)
  /-- R76. Returns from a trap handler, resuming the clause remainder or ordinary issue. -/
  | rft
  /-- R227. Releases, then invalidates a page or a whole address space in every TLB of the device. -/
  | tlbinv (m : BitVec 1) (a b : BitVec 6)
  /-- R318. Loads link keys into the idle transmit and receive slots. -/
  | lkeyld (a : BitVec 6) (l : BitVec 4)
  /-- R318. Sends a marker and switches the link to the new key slot. -/
  | lkeyarm (a : BitVec 6) (l : BitVec 4)
  /-- R272. Loads a class table entry of bid formula weights. -/
  | bidf (a : BitVec 6) (c : BitVec 4)
  /-- R45. SYS HALT; listed in the opcode map without further description. -/
  | halt
  /-- R309. Reads a fault record and sends its release to the record's C-die. -/
  | replay (a : BitVec 6)
  /-- R148. Reads a core event counter. -/
  | evrd (d : BitVec 6) (n : BitVec 4)
  /-- R147. Selects, enables or clears a core event counter. -/
  | evsel (a : BitVec 6) (n : BitVec 4)
  /-- R158. Returning load or atomic data writes its destination elements and lowers oc.ld, leaving any POISON pending. -/
  | loadCompletion (op t : Nat)
  /-- R201. A store is accepted at its home slice or host port, performed at DIE and DEV, and leaves the core store path. -/
  | storeAccept (core k : Nat)
  /-- R202. A load element is served at its home slice or host port, filling L1 where its home allows. -/
  | loadAtHome (op t : Nat)
  /-- R166. An atomic element performs its read-modify-write at the home slice. -/
  | atomicAtHome (core k : Nat)
  /-- R202. An L1 line tagged DIE, DEV or POD expires 4,096 clk after its fill. -/
  | l1LineExpiry (core line : Nat)
  /-- R226. A walk of the die's walkers finishes and installs a well-formed leaf in the TLB. -/
  | pageWalkComplete (core asid va : Nat)
  /-- R203. The fence's awaited conditions are met, the acquire half runs, and the squad's next clause becomes ready. -/
  | fenceComplete (q : Nat)
  /-- R227. Outstanding walks and elements translated by invalidated entries have finished, and TLBINV completes. -/
  | tlbinvComplete (q : Nat)
  /-- R214. Once the squad's copies and tiles have retired, LNEXT releases and marks the squad released. -/
  | lnextRelease (q : Nat)
  /-- R231. A parked party's waiting pages enter the fault filter as its entries free. -/
  | faultFilterAdmit (core : Nat)
  /-- R232. A forwarded filter entry merges into the die fault stage, or waits when the stage is full. -/
  | faultStageForward (die : Nat)
  /-- R232. A die stage entry is posted as a page record 64 die clk after its creation. -/
  | faultStagePost (die k : Nat)
  /-- R233. An unposted record retries a full ring every 4,096 die clk. -/
  | faultPostRetry (die k : Nat)
  /-- R235. The die stage releases a page entry's waiters and frees the entry. -/
  | replayRelease (k : Nat)
  /-- R173. An engine word that waited for a full queue enters it when an entry frees. -/
  | engineWordEnqueue (lane : Nat)
  /-- R175. The copy engine starts a queued copy once no earlier conflicting operation remains. -/
  | copyStart (core op : Nat)
  /-- R181. The copy engine translates, checks, converts and writes one copy row. -/
  | copyRow (core op : Nat)
  /-- R181. A copy retires after its last row, passing its underflow count and setting fresh bits. -/
  | copyRetire (core op : Nat)
  /-- R175. The matrix engine starts the next queued tile operation once no earlier conflicting operation remains. -/
  | tileStart (core : Nat)
  /-- R125. The array finishes a K-block and folds its exact block sums into the accumulator elements. -/
  | tileKblock (core : Nat)
  /-- R194. A TILE.MMA completes, writes progress 0 and completes its flag. -/
  | tileComplete (core : Nat)
  /-- R195. A whole-tile operation completes on all 32,768 elements. -/
  | tileOpComplete (core : Nat)
  /-- R245. A FIG word that waited on a busy slot issues when the mark clears. -/
  | figSlotClear (lane : Nat)
  /-- R247. A slice fills a missing definition from the figure table. -/
  | definitionCacheFill (slice asid k : Nat)
  /-- R242. An update unit runs one figure request's micro-program against the granule. -/
  | figureExecute (core k : Nat)
  /-- R252. A combinable figure request merges into, or allocates, a slice combining-buffer entry. -/
  | figureCombine (core k : Nat)
  /-- R252. A combining entry is applied 64 clk after its allocation. -/
  | combineEntryAge (slice k : Nat)
  /-- R251. The channel update unit runs a TILE figure on its granule after the lead slice's write-back. -/
  | tileFigureChannel (k : Nat)
  /-- R245. Once earlier FIGs to the slot are done, the definition is installed and the summaries updated. -/
  | figldApply (k : Nat)
  /-- R246. Once earlier FIGs to the slot are done, the slot is emptied. -/
  | figunldApply (k : Nat)
  /-- R165. A write-combining entry drains after 2,048 core clk without a write. -/
  | wcbAgeDrain (core k : Nat)
  /-- R207. A destination applies a drained POD write in per-source sequence order. -/
  | podWriteApply (k : Nat)
  /-- R158, R164. A destination checks a POD load against its window, translates it and serves or refuses it; another device returns
  `data`, or poison. -/
  | podLoadServe (k : Nat) (data : Option (BitVec 64))
  /-- R313. A refusal from a switch or a destination returns to the sender. -/
  | podRefusal (k : Nat)
  /-- R323. The host refuses an access to a HOST page: load elements poison, stores are recorded, copies end with error. -/
  | hostRefusal (kind op t : Nat)
  /-- R267. A named store reaches its entry's home slice and is forwarded, written into the saved image, queued or dropped. -/
  | stnDelivery (k : Nat)
  /-- R69. A delivery writes the target register and lowers its hold count, acquiring when it reaches zero. -/
  | stnArrival (k : Nat)
  /-- R268. An unreachable delivery returns to the sender, which drops it and counts it dead-lettered. -/
  | stnRefusal (k : Nat)
  /-- R276. A tender reaches the heat root, which broadcasts the class and opens the window. -/
  | heatBroadcast (k : Nat)
  /-- R273. A bidding core computes its cost when the tender reaches it, and sends its bid. -/
  | heatBid (h core : Nat)
  /-- R276. A bid reaches the root; in a DET region the last bid closes the window. -/
  | heatBidReceive (h core : Nat)
  /-- R276. The bid window expires, the root picks the winner and sends the award. -/
  | heatWindowClose (h : Nat)
  /-- R276. An award reaches the winner's inbox and is taken, or the winner withdraws. -/
  | heatAward (h : Nat)
  /-- R275. The heat's result reaches the tendering squad and is written to sd. -/
  | heatResult (h : Nat)
  /-- R303. The commit token arrives at the next live squad over the chairlift. -/
  | tokenArrival (l : Nat)
  /-- R300. Arrivals equal the count: the epilogue role is written and the arrivals' clauses issue. -/
  | barrierComplete (l b n : Nat)
  /-- R98. Once its outstanding operations have taken effect, a squad retires, releasing its lock, name and token and freeing its lane slot. -/
  | squadRetire (q : Nat)
  /-- R288. When every squad has retired, the completion value is written and the launch leaves the table. -/
  | launchRetire (l : Nat)
  /-- R295. Placement puts a whole cluster onto cores within the region's budgets and mask. -/
  | placement (l : Nat)
  /-- R305. A pre-emption request stops issue for the unit's squads and stops its engines at boundaries. -/
  | preemptionRequest (l b : Nat)
  /-- R305. A halted unit's contexts are written to the save area, and its names go PARKED. -/
  | contextSave (l b : Nat)
  /-- R306. A saved unit is restored whole onto cores, its names go LIVE, and it acquires before its first clause. -/
  | contextRestore (l b : Nat)
  /-- R286. A doorbell write updates a queue's write index, or is discarded, or sets overrun status. -/
  | doorbell (fn off : Nat) (v : BitVec 64)
  /-- R292. The scheduler binds the highest-priority runnable queue to a free slot, pre-empting a lower one. -/
  | schedulerBind
  /-- R293. A slot's time slice reaches zero, and the slot is pre-empted or its counter restarted. -/
  | sliceExpiry (slot : Nat)
  /-- R288. A slot begins a LAUNCH packet and places its clusters per its edge. -/
  | launchPacket (slot : Nat)
  /-- R237. A PREFETCH packet pages or warms its ranges and completes at once. -/
  | prefetchPacket (slot : Nat)
  /-- R290. After earlier launches retire, a SIGNAL writes or adds to a signal word atomically. -/
  | signalPacket (slot : Nat)
  /-- R290. A WAITSIG reads a signal word and completes, or takes the queue out of its slot. -/
  | waitsigPacket (slot : Nat)
  /-- R290. The scheduler rereads a waiting signal word after a matching write, or every 4,096 ticks. -/
  | waitsigRecheck (queue : Nat)
  /-- R291. A GRAPH packet places its nodes against their own predecessors. -/
  | graphPacket (slot : Nat)
  /-- R322. A write of an RCB address to BAR2 KILL kills that region's fault domain. -/
  | hostKill (fn : Nat) (v : BitVec 64)
  /-- R322. A write of a fault-record address to BAR2 REPLAY acts as REPLAY. -/
  | hostReplay (fn : Nat) (v : BitVec 64)
  /-- R322. A write of a queue id to BAR2 PREEMPT pre-empts that queue's slot. -/
  | hostPreempt (fn : Nat) (v : BitVec 64)
  /-- R322. A write sets the export window's address space, enable, base or size. -/
  | exportWindowWrite (fn off : Nat) (v : BitVec 64)
  /-- R322. A host write selects the source of a die event counter. -/
  | dieEventSelect (fn off : Nat) (v : BitVec 64)
  /-- R330. A write sets a channel's groomer threshold and period, or is discarded and logged. -/
  | groomerConfigWrite (fn off : Nat) (v : BitVec 64)
  /-- R332. A write of 0 to a channel's error count empties its error log. -/
  | channelErrorLogClear (fn off : Nat) (v : BitVec 64)
  /-- R321. A write of 0 to a function's error count clears it. -/
  | functionErrorLogClear (fn : Nat) (v : BitVec 64)
  /-- R334. Mailbox command 1 returns a signed attestation report for a nonce. -/
  | mailboxAttest
  /-- R336. Mailbox command 2 requests the ACTIVE or HALTED power state. -/
  | mailboxPower
  /-- R336. Mailbox command 3 returns die temperatures and the supply voltage. -/
  | mailboxSensors
  /-- R336. Mailbox command 4 resets a link and returns its state. -/
  | mailboxLinkreset
  /-- R321. A host write to any other function register, such as the MSI-X table. -/
  | registerWrite (fn bar off : Nat) (data : List (BitVec 8))
  /-- R326. A request reaches a channel queue and takes its deadline. -/
  | channelRequestArrival (chan cls budget line core : Nat)
  /-- R327. The channel picks and serves one request by class and deadline, counting a miss when it is late. -/
  | channelIssue (chan : Nat)
  /-- R328. A bank refresh writes back the bank's dirty row buffers. -/
  | bankRefresh (chan bank : Nat)
  /-- R329. The groomer reads and corrects the next row when its level allows. -/
  | groomerRead (chan : Nat)
  /-- R329. The pass's elapsed time reaches the period, and the groomer escalates to level 1. -/
  | groomerPeriodExpiry (chan : Nat)
  /-- R316. A receiver authenticates a flit; a failure NAKs it, and a third failure takes the link DOWN. -/
  | flitReceive (link : Nat) (flit : List (BitVec 8))
  /-- R316. A NAK makes the transmitter resend its stored flits from the refused number. -/
  | nakReceive (link seq : Nat)
  /-- R315. An ACK frees the acknowledged flits from the replay buffer. -/
  | ackReceive (link seq : Nat)
  /-- R317. The invocation count reaches L − 1: a marker switches slots, or the link stalls and KEYEXHAUST is posted. -/
  | keyLimitReached (link : Nat)
  /-- R312. Training completes and the link becomes UP. -/
  | linkTrained (link : Nat)
  /-- R319. A switch receives a multicast packet and sends its branches as ports free. -/
  | mcastSwitchBranch (k : Nat)
  /-- R319. A destination applies or refuses one multicast line. -/
  | mcastLineApply (k dev : Nat)
  /-- R320. The group's spine combines the members' contributions in fixed order. -/
  | redxSpineCombine (k : Nat)
  /-- R320. The reduction result is written at each member, completing its flag. -/
  | redxResultWrite (k : Nat)
  /-- R333. The boot ROM verifies, measures and applies the firmware, trains memory and links, and enters ACTIVE. -/
  | powerOn (image : List (BitVec 8))
  /-- R335. A die at 105 °C or a supply below 48 V puts the module into THROTTLED. -/
  | throttleEntry
  /-- R335. Temperatures below 100 °C and a supply of at least 48 V return the module to ACTIVE. -/
  | throttleExit
  /-- R335. A die at 115 °C or a supply below 46 V halts the module, kills every fault domain and posts 0x27. -/
  | moduleHalt
  /-- R321. A host memory read request to a function's BAR returns the register's value, or, outside the function's assignment, an Unsupported Request completion that is logged in that function's error log. -/
  | memoryReadRequest (fn bar off len : Nat)
  /-- R318. At each flit boundary a link transmitter sends its next flit (data, marker or idle), encrypting it under the active slot and advancing that slot's invocation count. -/
  | flitBoundary (link : Nat)
  deriving DecidableEq, Repr

end Sys2Proof
end

