-- ==== Sys2Proof/WellFormed.lean ====
section
/-!
DEFINITION. Which operand fields an instruction may hold (the field ranges that R23, R31 and the opcode maps give).
A word that breaks one raises ILLEGAL at the clause check and never executes.
-/
namespace Sys2Proof

/-- R35. The FP format code 3 raises ILLEGAL. -/
def fpFormatOk (f : BitVec 2) : Bool := f != 3#2

/-- R159. Opcodes 0x07 and 0x17, a signed 64-bit load, raise ILLEGAL. -/
def signedWidthOk (w : BitVec 2) : Bool := w != 3#2

/-- R31. A flag field names f0 to f11. -/
def flagOk (f : BitVec 4) : Bool := f.toNat < 12

/-- R39. CAS writes v(t+1), so t = 63 raises ILLEGAL. -/
def casRegisterOk (t : BitVec 6) : Bool := t != 63#6

/-- R37. Equal source and destination codes, and rounding values 6 and 7, raise ILLEGAL. -/
def cvtOk (c b : BitVec 4) (r : BitVec 3) : Bool := c != b && r.toNat < 6

/-- R40. With X = 1 the base is 0 and the first record scalar is at most 56. -/
def copyBaseOk (x : BitVec 1) (b o : BitVec 6) : Bool := x == 0#1 || (b == 0#6 && o.toNat ≤ 56)

/-- R248. With the enable bit clear the flag field is reserved zero; with it set it names f0 to f11. -/
def figFlagOk (e : BitVec 1) (f : BitVec 4) : Bool := if e == 0#1 then f == 0#4 else flagOk f

/-- R41. MCAST with a = 63 has no second mask scalar. -/
def mcastOk (a : BitVec 6) : Bool := a != 63#6

/-- R41. REDX operations 4 to 7 raise ILLEGAL. -/
def redxOpOk (o : BitVec 3) : Bool := o.toNat < 4

/-- R42. LOOP counter 3 raises ILLEGAL. -/
def loopCounterOk (c : BitVec 2) : Bool := c != 3#2

/-- R42, R29. GETID selectors 8 to 127 raise ILLEGAL, and every selector but id.t has guard kind U. -/
def getidOk (g : BitVec 4) (n : BitVec 1) (k : BitVec 7) : Bool :=
  k.toNat < 8 && (k == 0#7 || (g == 0#4 && n == 0#1))

/-- R42. SETMODE rounding values 5 to 7 raise ILLEGAL. -/
def roundModeOk (k : BitVec 3) : Bool := k.toNat < 5

/-- R45. TLBINV with M = 1 has a = 0. -/
def tlbinvOk (m : BitVec 1) (a : BitVec 6) : Bool := m == 0#1 || a == 0#6

/-- R91. XREAD names a sub-element below 8 >> w. -/
def xreadOk (w : BitVec 2) (j : BitVec 3) : Bool := j.toNat < 8 / 2 ^ w.toNat

/-- The field ranges of every row. A device step has no encoding and no field to check. -/
def Instr.wellFormed : Instr → Bool
  | .clauseFetch _ => true
  | .clauseIssue _ => true
  | .add _ _ _ _ _ _ _ => true
  | .sub _ _ _ _ _ _ _ => true
  | .mul _ _ _ _ _ _ _ => true
  | .mulhI _ _ _ _ _ _ _ => true
  | .mulhN _ _ _ _ _ _ _ => true
  | .addISat _ _ _ _ _ _ _ => true
  | .addNSat _ _ _ _ _ _ _ => true
  | .subISat _ _ _ _ _ _ _ => true
  | .subNSat _ _ _ _ _ _ _ => true
  | .avgI _ _ _ _ _ _ _ => true
  | .avgN _ _ _ _ _ _ _ => true
  | .minI _ _ _ _ _ _ _ => true
  | .minN _ _ _ _ _ _ _ => true
  | .maxI _ _ _ _ _ _ _ => true
  | .maxN _ _ _ _ _ _ _ => true
  | .shl _ _ _ _ _ _ _ => true
  | .shrN _ _ _ _ _ _ _ => true
  | .shrI _ _ _ _ _ _ _ => true
  | .cmpeq _ _ _ _ _ _ => true
  | .cmpltI _ _ _ _ _ _ => true
  | .cmpltN _ _ _ _ _ _ => true
  | .cmpleI _ _ _ _ _ _ => true
  | .cmpleN _ _ _ _ _ _ => true
  | .cmpne _ _ _ _ _ _ => true
  | .and _ _ _ _ _ _ => true
  | .or _ _ _ _ _ _ => true
  | .xor _ _ _ _ _ _ => true
  | .andn _ _ _ _ _ _ => true
  | .not _ _ _ _ => true
  | .mov _ _ _ _ _ => true
  | .sel _ _ _ _ _ _ => true
  | .movl _ _ _ _ _ => true
  | .popc _ _ _ _ => true
  | .clz _ _ _ _ => true
  | .ctz _ _ _ _ => true
  | .brev _ _ _ _ => true
  | .bfxN _ _ _ _ _ _ => true
  | .bfxI _ _ _ _ _ _ => true
  | .bfi _ _ _ _ _ _ => true
  | .rot _ _ _ _ _ _ => true
  | .abs _ _ _ _ _ => true
  | .pand _ _ _ _ _ => true
  | .por _ _ _ _ _ => true
  | .pxor _ _ _ _ _ => true
  | .pandn _ _ _ _ _ => true
  | .pnot _ _ _ _ => true
  | .xread _ _ _ _ _ _ j w => xreadOk w j
  | .xshuf _ _ _ _ _ _ => true
  | .xbcast _ _ _ _ _ _ => true
  | .redand _ _ _ _ _ => true
  | .redor _ _ _ _ _ => true
  | .redfadd _ _ _ _ _ => true
  | .redfmax _ _ _ _ _ => true
  | .fadd f _ _ _ _ _ _ => fpFormatOk f
  | .fsub f _ _ _ _ _ _ => fpFormatOk f
  | .fmul f _ _ _ _ _ _ => fpFormatOk f
  | .fma f _ _ _ _ _ _ => fpFormatOk f
  | .fmin f _ _ _ _ _ _ => fpFormatOk f
  | .fmax f _ _ _ _ _ _ => fpFormatOk f
  | .fabs f _ _ _ _ => fpFormatOk f
  | .fneg f _ _ _ _ => fpFormatOk f
  | .fcmpeq f _ _ _ _ _ => fpFormatOk f
  | .fcmplt f _ _ _ _ _ => fpFormatOk f
  | .fcmple f _ _ _ _ _ => fpFormatOk f
  | .fcmpun f _ _ _ _ _ => fpFormatOk f
  | .cvt c _ _ _ _ b r => cvtOk c b r
  | .cvtSat c _ _ _ _ b r => cvtOk c b r
  | .redadd _ _ _ _ _ _ => true
  | .redminI _ _ _ _ _ _ => true
  | .redminN _ _ _ _ _ _ => true
  | .redmaxI _ _ _ _ _ _ => true
  | .redmaxN _ _ _ _ _ _ => true
  | .scanadd _ _ _ _ _ _ => true
  | .scanmaxI _ _ _ _ _ _ => true
  | .scanmaxN _ _ _ _ _ _ => true
  | .addScalar _ _ _ => true
  | .subScalar _ _ _ => true
  | .mulScalar _ _ _ => true
  | .andScalar _ _ _ => true
  | .orScalar _ _ _ => true
  | .xorScalar _ _ _ => true
  | .shlScalar _ _ _ => true
  | .shrNScalar _ _ _ => true
  | .shrIScalar _ _ _ => true
  | .minIScalar _ _ _ => true
  | .maxIScalar _ _ _ => true
  | .minNScalar _ _ _ => true
  | .maxNScalar _ _ _ => true
  | .movlScalar _ _ _ => true
  | .cmpeqScalar _ _ _ => true
  | .cmpltScalar _ _ _ => true
  | .rcp f _ _ _ _ => fpFormatOk f
  | .rsq f _ _ _ _ => fpFormatOk f
  | .sqrt f _ _ _ _ => fpFormatOk f
  | .exp2 f _ _ _ _ => fpFormatOk f
  | .log2 f _ _ _ _ => fpFormatOk f
  | .sin f _ _ _ _ => fpFormatOk f
  | .cos f _ _ _ _ => fpFormatOk f
  | .tanh f _ _ _ _ => fpFormatOk f
  | .ldgN _ _ _ _ _ _ _ => true
  | .ldgI w _ _ _ _ _ _ => signedWidthOk w
  | .stg _ _ _ _ _ _ _ => true
  | .ldgNf _ _ _ _ _ _ _ => true
  | .ldsN _ _ _ _ _ _ _ => true
  | .ldsI w _ _ _ _ _ _ => signedWidthOk w
  | .sts _ _ _ _ _ _ _ => true
  | .ldr _ _ _ _ _ _ => true
  | .str _ _ _ _ _ _ => true
  | .lda _ _ _ _ _ _ => true
  | .sta _ _ _ _ _ _ => true
  | .ldp _ _ _ _ _ _ _ => true
  | .stp _ _ _ _ _ _ _ => true
  | .ldgScalar _ _ _ => true
  | .stgScalar _ _ _ => true
  | .ldsScalar _ _ _ => true
  | .stsScalar _ _ _ => true
  | .atomgAdd _ _ _ _ _ _ _ => true
  | .atomgMinI _ _ _ _ _ _ _ => true
  | .atomgMinN _ _ _ _ _ _ _ => true
  | .atomgMaxI _ _ _ _ _ _ _ => true
  | .atomgMaxN _ _ _ _ _ _ _ => true
  | .atomgAnd _ _ _ _ _ _ _ => true
  | .atomgOr _ _ _ _ _ _ _ => true
  | .atomgXor _ _ _ _ _ _ _ => true
  | .atomgXchg _ _ _ _ _ _ _ => true
  | .atomgCas _ _ _ t _ _ _ => casRegisterOk t
  | .atomgAddBf16x2 _ _ _ _ _ _ => true
  | .atomgAddF32 _ _ _ _ _ _ => true
  | .atomgGrab _ _ _ => true
  | .atomsAdd _ _ _ _ _ _ _ => true
  | .atomsMinI _ _ _ _ _ _ _ => true
  | .atomsMinN _ _ _ _ _ _ _ => true
  | .atomsMaxI _ _ _ _ _ _ _ => true
  | .atomsMaxN _ _ _ _ _ _ _ => true
  | .atomsAnd _ _ _ _ _ _ _ => true
  | .atomsOr _ _ _ _ _ _ _ => true
  | .atomsXor _ _ _ _ _ _ _ => true
  | .atomsXchg _ _ _ _ _ _ _ => true
  | .atomsCas _ _ _ t _ _ _ => casRegisterOk t
  | .fence _ => true
  | .pref _ _ _ _ _ => true
  | .reqpage _ _ _ _ _ => true
  | .l1inv _ _ _ _ _ => true
  | .l1inva => true
  | .tileMma _ _ => true
  | .tileZero _ f => flagOk f
  | .tileMov _ _ f => flagOk f
  | .tileAdd _ _ f => flagOk f
  | .tileScale _ _ f => flagOk f
  | .tileQuery _ => true
  | .cpin f b x o => flagOk f && copyBaseOk x b o
  | .cpout f b x o => flagOk f && copyBaseOk x b o
  | .cpwb f b x o => flagOk f && copyBaseOk x b o
  | .lock _ _ _ => true
  | .unlock _ _ _ => true
  | .wkey _ => true
  | .fig _ _ _ _ _ _ _ f e => figFlagOk e f
  | .figld _ _ _ _ => true
  | .figunld _ => true
  | .stn _ _ _ _ _ => true
  | .stnRel _ _ _ _ _ => true
  | .stnF _ _ _ _ _ f => flagOk f
  | .nameget _ => true
  | .namerel => true
  | .tender _ _ _ => true
  | .serve _ => true
  | .take _ _ _ => true
  | .mcast _ a f => flagOk f && mcastOk a
  | .redx _ o f => flagOk f && redxOpOk o
  | .nop _ _ => true
  | .bra _ _ _ => true
  | .brx _ _ _ => true
  | .call _ _ _ => true
  | .ret _ _ _ => true
  | .exit _ _ => true
  | .yield => true
  | .bar _ _ => true
  | .barc _ _ _ => true
  | .commit => true
  | .pass => true
  | .elect _ _ _ => true
  | .trap _ _ _ => true
  | .loop c _ _ => loopCounterOk c
  | .wait _ _ _ _ => true
  | .flagset _ => true
  | .flagclr _ => true
  | .xlock => true
  | .xunlock => true
  | .arm _ _ => true
  | .getid g n _ k => getidOk g n k
  | .setmode _ m => roundModeOk m
  | .lnext => true
  | .waitpred => true
  | .waitdone => true
  | .csrrd _ _ => true
  | .csrwr _ _ => true
  | .rft => true
  | .tlbinv m a _ => tlbinvOk m a
  | .lkeyld _ _ => true
  | .lkeyarm _ _ => true
  | .bidf _ _ => true
  | .halt => true
  | .replay _ => true
  | .evrd _ _ => true
  | .evsel _ _ => true
  | .loadCompletion _ _ => true
  | .storeAccept _ _ => true
  | .loadAtHome _ _ => true
  | .atomicAtHome _ _ => true
  | .l1LineExpiry _ _ => true
  | .pageWalkComplete _ _ _ => true
  | .fenceComplete _ => true
  | .tlbinvComplete _ => true
  | .lnextRelease _ => true
  | .faultFilterAdmit _ => true
  | .faultStageForward _ => true
  | .faultStagePost _ _ => true
  | .faultPostRetry _ _ => true
  | .replayRelease _ => true
  | .engineWordEnqueue _ => true
  | .copyStart _ _ => true
  | .copyRow _ _ => true
  | .copyRetire _ _ => true
  | .tileStart _ => true
  | .tileKblock _ => true
  | .tileComplete _ => true
  | .tileOpComplete _ => true
  | .figSlotClear _ => true
  | .definitionCacheFill _ _ _ => true
  | .figureExecute _ _ => true
  | .figureCombine _ _ => true
  | .combineEntryAge _ _ => true
  | .tileFigureChannel _ => true
  | .figldApply _ => true
  | .figunldApply _ => true
  | .wcbAgeDrain _ _ => true
  | .podWriteApply _ => true
  | .podLoadServe _ _ => true
  | .podRefusal _ => true
  | .hostRefusal _ _ _ => true
  | .stnDelivery _ => true
  | .stnArrival _ => true
  | .stnRefusal _ => true
  | .heatBroadcast _ => true
  | .heatBid _ _ => true
  | .heatBidReceive _ _ => true
  | .heatWindowClose _ => true
  | .heatAward _ => true
  | .heatResult _ => true
  | .tokenArrival _ => true
  | .barrierComplete _ _ _ => true
  | .squadRetire _ => true
  | .launchRetire _ => true
  | .placement _ => true
  | .preemptionRequest _ _ => true
  | .contextSave _ _ => true
  | .contextRestore _ _ => true
  | .doorbell _ _ _ => true
  | .schedulerBind => true
  | .sliceExpiry _ => true
  | .launchPacket _ => true
  | .prefetchPacket _ => true
  | .signalPacket _ => true
  | .waitsigPacket _ => true
  | .waitsigRecheck _ => true
  | .graphPacket _ => true
  | .hostKill _ _ => true
  | .hostReplay _ _ => true
  | .hostPreempt _ _ => true
  | .exportWindowWrite _ _ _ => true
  | .dieEventSelect _ _ _ => true
  | .groomerConfigWrite _ _ _ => true
  | .channelErrorLogClear _ _ _ => true
  | .functionErrorLogClear _ _ => true
  | .mailboxAttest => true
  | .mailboxPower => true
  | .mailboxSensors => true
  | .mailboxLinkreset => true
  | .registerWrite _ _ _ _ => true
  | .channelRequestArrival _ _ _ _ _ => true
  | .channelIssue _ => true
  | .bankRefresh _ _ => true
  | .groomerRead _ => true
  | .groomerPeriodExpiry _ => true
  | .flitReceive _ _ => true
  | .nakReceive _ _ => true
  | .ackReceive _ _ => true
  | .keyLimitReached _ => true
  | .linkTrained _ => true
  | .mcastSwitchBranch _ => true
  | .mcastLineApply _ _ => true
  | .redxSpineCombine _ => true
  | .redxResultWrite _ => true
  | .powerOn _ => true
  | .throttleEntry => true
  | .throttleExit => true
  | .moduleHalt => true
  | .memoryReadRequest _ _ _ _ => true
  | .flitBoundary _ => true

end Sys2Proof
end

