-- ==== Sys2Proof/Decode.lean ====
section
/-!
DEFINITION. Decoding and encoding of instruction words (R21 to R45).
A word is read as a number, bit 0 its least significant bit. Which table decodes it is the class of its clause header.
The decoder is total: a word that is no instruction of its class is refused by name.
-/
namespace Sys2Proof

/-- Why a word is no instruction. Each is ILLEGAL at the clause check (R23). -/
inductive DecodeError where
  /-- R35. The opcode is not in the class's table. -/
  | unknownOpcode
  /-- R5, R23. A reserved field is non-zero. -/
  | reservedField
  /-- R23. A field is outside its range. -/
  | fieldRange
  /-- R23. An L-format word is the last word of its clause. -/
  | missingLiteral
  deriving DecidableEq, Repr

/-- Field [lo+k-1:lo] of a word. -/
def fld (w lo k : Nat) : BitVec k := BitVec.ofNat k (w / 2 ^ lo)

/-- A row whose reserved fields are checked by `ok`. -/
def rowIf (ok : Bool) (i : Instr) : Except DecodeError Instr :=
  if ok then (if i.wellFormed then .ok i else .error .fieldRange) else .error .reservedField

/-- An L-format row: the literal follows and its reserved bits are zero. -/
def rowLit (ok : Bool) (lit : Option Nat) (mk : Nat → Instr) (litOk : Nat → Bool) : Except DecodeError Instr :=
  match lit with
  | none => .error .missingLiteral
  | some l => rowIf (ok && litOk l) (mk l)

/-- The VEC opcode map. -/
def decodeVec (w : Nat) (lit : Option Nat) : Except DecodeError Instr :=
  match w / 67108864 with
  | 0 => rowIf (true) (.add (fld w 24 2) (fld w 20 4) (fld w 19 1) (fld w 18 1) (fld w 12 6) (fld w 6 6) (fld w 0 6))
  | 1 => rowIf (true) (.sub (fld w 24 2) (fld w 20 4) (fld w 19 1) (fld w 18 1) (fld w 12 6) (fld w 6 6) (fld w 0 6))
  | 2 => rowIf (true) (.mul (fld w 24 2) (fld w 20 4) (fld w 19 1) (fld w 18 1) (fld w 12 6) (fld w 6 6) (fld w 0 6))
  | 3 => rowIf (true) (.mulhI (fld w 24 2) (fld w 20 4) (fld w 19 1) (fld w 18 1) (fld w 12 6) (fld w 6 6) (fld w 0 6))
  | 4 => rowIf (true) (.mulhN (fld w 24 2) (fld w 20 4) (fld w 19 1) (fld w 18 1) (fld w 12 6) (fld w 6 6) (fld w 0 6))
  | 5 => rowIf (true) (.addISat (fld w 24 2) (fld w 20 4) (fld w 19 1) (fld w 18 1) (fld w 12 6) (fld w 6 6) (fld w 0 6))
  | 6 => rowIf (true) (.addNSat (fld w 24 2) (fld w 20 4) (fld w 19 1) (fld w 18 1) (fld w 12 6) (fld w 6 6) (fld w 0 6))
  | 7 => rowIf (true) (.subISat (fld w 24 2) (fld w 20 4) (fld w 19 1) (fld w 18 1) (fld w 12 6) (fld w 6 6) (fld w 0 6))
  | 8 => rowIf (true) (.subNSat (fld w 24 2) (fld w 20 4) (fld w 19 1) (fld w 18 1) (fld w 12 6) (fld w 6 6) (fld w 0 6))
  | 9 => rowIf (true) (.avgI (fld w 24 2) (fld w 20 4) (fld w 19 1) (fld w 18 1) (fld w 12 6) (fld w 6 6) (fld w 0 6))
  | 10 => rowIf (true) (.avgN (fld w 24 2) (fld w 20 4) (fld w 19 1) (fld w 18 1) (fld w 12 6) (fld w 6 6) (fld w 0 6))
  | 11 => rowIf (true) (.minI (fld w 24 2) (fld w 20 4) (fld w 19 1) (fld w 18 1) (fld w 12 6) (fld w 6 6) (fld w 0 6))
  | 12 => rowIf (true) (.minN (fld w 24 2) (fld w 20 4) (fld w 19 1) (fld w 18 1) (fld w 12 6) (fld w 6 6) (fld w 0 6))
  | 13 => rowIf (true) (.maxI (fld w 24 2) (fld w 20 4) (fld w 19 1) (fld w 18 1) (fld w 12 6) (fld w 6 6) (fld w 0 6))
  | 14 => rowIf (true) (.maxN (fld w 24 2) (fld w 20 4) (fld w 19 1) (fld w 18 1) (fld w 12 6) (fld w 6 6) (fld w 0 6))
  | 15 => rowIf (true) (.shl (fld w 24 2) (fld w 20 4) (fld w 19 1) (fld w 18 1) (fld w 12 6) (fld w 6 6) (fld w 0 6))
  | 16 => rowIf (true) (.shrN (fld w 24 2) (fld w 20 4) (fld w 19 1) (fld w 18 1) (fld w 12 6) (fld w 6 6) (fld w 0 6))
  | 17 => rowIf (true) (.shrI (fld w 24 2) (fld w 20 4) (fld w 19 1) (fld w 18 1) (fld w 12 6) (fld w 6 6) (fld w 0 6))
  | 18 => rowIf (true) (.cmpeq (fld w 24 2) (fld w 20 4) (fld w 19 1) (fld w 12 7) (fld w 6 6) (fld w 0 6))
  | 19 => rowIf (true) (.cmpltI (fld w 24 2) (fld w 20 4) (fld w 19 1) (fld w 12 7) (fld w 6 6) (fld w 0 6))
  | 20 => rowIf (true) (.cmpltN (fld w 24 2) (fld w 20 4) (fld w 19 1) (fld w 12 7) (fld w 6 6) (fld w 0 6))
  | 21 => rowIf (true) (.cmpleI (fld w 24 2) (fld w 20 4) (fld w 19 1) (fld w 12 7) (fld w 6 6) (fld w 0 6))
  | 22 => rowIf (true) (.cmpleN (fld w 24 2) (fld w 20 4) (fld w 19 1) (fld w 12 7) (fld w 6 6) (fld w 0 6))
  | 23 => rowIf (true) (.cmpne (fld w 24 2) (fld w 20 4) (fld w 19 1) (fld w 12 7) (fld w 6 6) (fld w 0 6))
  | 24 =>
    match w / 16777216 % 4 with
    | 0 => rowIf (true) (.and (fld w 20 4) (fld w 19 1) (fld w 18 1) (fld w 12 6) (fld w 6 6) (fld w 0 6))
    | 1 => rowIf (true) (.or (fld w 20 4) (fld w 19 1) (fld w 18 1) (fld w 12 6) (fld w 6 6) (fld w 0 6))
    | 2 => rowIf (true) (.xor (fld w 20 4) (fld w 19 1) (fld w 18 1) (fld w 12 6) (fld w 6 6) (fld w 0 6))
    | 3 => rowIf (true) (.andn (fld w 20 4) (fld w 19 1) (fld w 18 1) (fld w 12 6) (fld w 6 6) (fld w 0 6))
    | _ => .error .unknownOpcode
  | 25 =>
    match w / 16777216 % 4 with
    | 0 => rowIf (w / 1 % 64 == 0 && w / 262144 % 2 == 0) (.not (fld w 20 4) (fld w 19 1) (fld w 12 6) (fld w 6 6))
    | 1 => rowIf (w / 64 % 64 == 0) (.mov (fld w 20 4) (fld w 19 1) (fld w 18 1) (fld w 12 6) (fld w 0 6))
    | 2 => rowIf (true) (.sel (fld w 20 4) (fld w 19 1) (fld w 18 1) (fld w 12 6) (fld w 6 6) (fld w 0 6))
    | 3 => rowLit (w / 1 % 4096 == 0) lit (fun l => .movl (fld w 20 4) (fld w 19 1) (fld w 18 1) (fld w 12 6) (fld l 0 32)) (fun _ => true)
    | _ => .error .unknownOpcode
  | 26 =>
    match w / 16777216 % 4 with
    | 0 => rowIf (w / 1 % 64 == 0 && w / 262144 % 2 == 0) (.popc (fld w 20 4) (fld w 19 1) (fld w 12 6) (fld w 6 6))
    | 1 => rowIf (w / 1 % 64 == 0 && w / 262144 % 2 == 0) (.clz (fld w 20 4) (fld w 19 1) (fld w 12 6) (fld w 6 6))
    | 2 => rowIf (w / 1 % 64 == 0 && w / 262144 % 2 == 0) (.ctz (fld w 20 4) (fld w 19 1) (fld w 12 6) (fld w 6 6))
    | 3 => rowIf (w / 1 % 64 == 0 && w / 262144 % 2 == 0) (.brev (fld w 20 4) (fld w 19 1) (fld w 12 6) (fld w 6 6))
    | _ => .error .unknownOpcode
  | 27 =>
    match w / 16777216 % 4 with
    | 0 => rowIf (true) (.bfxN (fld w 20 4) (fld w 19 1) (fld w 18 1) (fld w 12 6) (fld w 6 6) (fld w 0 6))
    | 1 => rowIf (true) (.bfxI (fld w 20 4) (fld w 19 1) (fld w 18 1) (fld w 12 6) (fld w 6 6) (fld w 0 6))
    | 2 => rowIf (true) (.bfi (fld w 20 4) (fld w 19 1) (fld w 18 1) (fld w 12 6) (fld w 6 6) (fld w 0 6))
    | 3 => rowIf (true) (.rot (fld w 20 4) (fld w 19 1) (fld w 18 1) (fld w 12 6) (fld w 6 6) (fld w 0 6))
    | _ => .error .unknownOpcode
  | 28 => rowIf (w / 1 % 64 == 0 && w / 262144 % 2 == 0) (.abs (fld w 24 2) (fld w 20 4) (fld w 19 1) (fld w 12 6) (fld w 6 6))
  | 29 =>
    match w / 16777216 % 4 with
    | 0 => rowIf (true) (.pand (fld w 20 4) (fld w 19 1) (fld w 12 7) (fld w 6 6) (fld w 0 6))
    | 1 => rowIf (true) (.por (fld w 20 4) (fld w 19 1) (fld w 12 7) (fld w 6 6) (fld w 0 6))
    | 2 => rowIf (true) (.pxor (fld w 20 4) (fld w 19 1) (fld w 12 7) (fld w 6 6) (fld w 0 6))
    | 3 => rowIf (true) (.pandn (fld w 20 4) (fld w 19 1) (fld w 12 7) (fld w 6 6) (fld w 0 6))
    | _ => .error .unknownOpcode
  | 30 =>
    match w / 16777216 % 4 with
    | 0 => rowIf (w / 1 % 64 == 0) (.pnot (fld w 20 4) (fld w 19 1) (fld w 12 7) (fld w 6 6))
    | 1 => rowLit (true) lit (fun l => .xread (fld w 20 4) (fld w 19 1) (fld w 12 7) (fld w 6 6) (fld w 0 6) (fld l 0 5) (fld l 5 3) (fld l 8 2)) (fun l => l / 1024 == 0)
    | 2 => rowLit (true) lit (fun l => .xshuf (fld w 20 4) (fld w 19 1) (fld w 12 7) (fld w 6 6) (fld w 0 6) (fld l 0 6)) (fun l => l / 64 == 0)
    | 3 => rowLit (true) lit (fun l => .xbcast (fld w 20 4) (fld w 19 1) (fld w 12 7) (fld w 6 6) (fld w 0 6) (fld l 0 5)) (fun l => l / 32 == 0)
    | _ => .error .unknownOpcode
  | 31 =>
    match w / 16777216 % 4 with
    | 0 => rowIf (w / 262144 % 2 == 0) (.redand (fld w 20 4) (fld w 19 1) (fld w 12 6) (fld w 6 6) (fld w 0 6))
    | 1 => rowIf (w / 262144 % 2 == 0) (.redor (fld w 20 4) (fld w 19 1) (fld w 12 6) (fld w 6 6) (fld w 0 6))
    | 2 => rowIf (w / 262144 % 2 == 0) (.redfadd (fld w 20 4) (fld w 19 1) (fld w 12 6) (fld w 6 6) (fld w 0 6))
    | 3 => rowIf (w / 262144 % 2 == 0) (.redfmax (fld w 20 4) (fld w 19 1) (fld w 12 6) (fld w 6 6) (fld w 0 6))
    | _ => .error .unknownOpcode
  | 32 => rowIf (true) (.fadd (fld w 24 2) (fld w 20 4) (fld w 19 1) (fld w 18 1) (fld w 12 6) (fld w 6 6) (fld w 0 6))
  | 33 => rowIf (true) (.fsub (fld w 24 2) (fld w 20 4) (fld w 19 1) (fld w 18 1) (fld w 12 6) (fld w 6 6) (fld w 0 6))
  | 34 => rowIf (true) (.fmul (fld w 24 2) (fld w 20 4) (fld w 19 1) (fld w 18 1) (fld w 12 6) (fld w 6 6) (fld w 0 6))
  | 35 => rowIf (true) (.fma (fld w 24 2) (fld w 20 4) (fld w 19 1) (fld w 18 1) (fld w 12 6) (fld w 6 6) (fld w 0 6))
  | 36 => rowIf (true) (.fmin (fld w 24 2) (fld w 20 4) (fld w 19 1) (fld w 18 1) (fld w 12 6) (fld w 6 6) (fld w 0 6))
  | 37 => rowIf (true) (.fmax (fld w 24 2) (fld w 20 4) (fld w 19 1) (fld w 18 1) (fld w 12 6) (fld w 6 6) (fld w 0 6))
  | 38 => rowIf (w / 1 % 64 == 0 && w / 262144 % 2 == 0) (.fabs (fld w 24 2) (fld w 20 4) (fld w 19 1) (fld w 12 6) (fld w 6 6))
  | 39 => rowIf (w / 1 % 64 == 0 && w / 262144 % 2 == 0) (.fneg (fld w 24 2) (fld w 20 4) (fld w 19 1) (fld w 12 6) (fld w 6 6))
  | 40 => rowIf (true) (.fcmpeq (fld w 24 2) (fld w 20 4) (fld w 19 1) (fld w 12 7) (fld w 6 6) (fld w 0 6))
  | 41 => rowIf (true) (.fcmplt (fld w 24 2) (fld w 20 4) (fld w 19 1) (fld w 12 7) (fld w 6 6) (fld w 0 6))
  | 42 => rowIf (true) (.fcmple (fld w 24 2) (fld w 20 4) (fld w 19 1) (fld w 12 7) (fld w 6 6) (fld w 0 6))
  | 43 => rowIf (true) (.fcmpun (fld w 24 2) (fld w 20 4) (fld w 19 1) (fld w 12 7) (fld w 6 6) (fld w 0 6))
  | 44 => rowIf (true) (.cvt (fld w 24 4) (fld w 20 4) (fld w 19 1) (fld w 13 6) (fld w 7 6) (fld w 3 4) (fld w 0 3))
  | 45 => rowIf (true) (.cvt (fld w 24 4) (fld w 20 4) (fld w 19 1) (fld w 13 6) (fld w 7 6) (fld w 3 4) (fld w 0 3))
  | 46 => rowIf (true) (.cvt (fld w 24 4) (fld w 20 4) (fld w 19 1) (fld w 13 6) (fld w 7 6) (fld w 3 4) (fld w 0 3))
  | 47 => rowIf (true) (.cvt (fld w 24 4) (fld w 20 4) (fld w 19 1) (fld w 13 6) (fld w 7 6) (fld w 3 4) (fld w 0 3))
  | 48 => rowIf (true) (.cvtSat (fld w 24 4) (fld w 20 4) (fld w 19 1) (fld w 13 6) (fld w 7 6) (fld w 3 4) (fld w 0 3))
  | 49 => rowIf (true) (.cvtSat (fld w 24 4) (fld w 20 4) (fld w 19 1) (fld w 13 6) (fld w 7 6) (fld w 3 4) (fld w 0 3))
  | 50 => rowIf (true) (.cvtSat (fld w 24 4) (fld w 20 4) (fld w 19 1) (fld w 13 6) (fld w 7 6) (fld w 3 4) (fld w 0 3))
  | 51 => rowIf (true) (.cvtSat (fld w 24 4) (fld w 20 4) (fld w 19 1) (fld w 13 6) (fld w 7 6) (fld w 3 4) (fld w 0 3))
  | 52 => rowIf (w / 262144 % 2 == 0) (.redadd (fld w 24 2) (fld w 20 4) (fld w 19 1) (fld w 12 6) (fld w 6 6) (fld w 0 6))
  | 53 => rowIf (w / 262144 % 2 == 0) (.redminI (fld w 24 2) (fld w 20 4) (fld w 19 1) (fld w 12 6) (fld w 6 6) (fld w 0 6))
  | 54 => rowIf (w / 262144 % 2 == 0) (.redminN (fld w 24 2) (fld w 20 4) (fld w 19 1) (fld w 12 6) (fld w 6 6) (fld w 0 6))
  | 55 => rowIf (w / 262144 % 2 == 0) (.redmaxI (fld w 24 2) (fld w 20 4) (fld w 19 1) (fld w 12 6) (fld w 6 6) (fld w 0 6))
  | 56 => rowIf (w / 262144 % 2 == 0) (.redmaxN (fld w 24 2) (fld w 20 4) (fld w 19 1) (fld w 12 6) (fld w 6 6) (fld w 0 6))
  | 57 => rowIf (w / 262144 % 2 == 0) (.scanadd (fld w 24 2) (fld w 20 4) (fld w 19 1) (fld w 12 6) (fld w 6 6) (fld w 0 6))
  | 58 => rowIf (w / 262144 % 2 == 0) (.scanmaxI (fld w 24 2) (fld w 20 4) (fld w 19 1) (fld w 12 6) (fld w 6 6) (fld w 0 6))
  | 59 => rowIf (w / 262144 % 2 == 0) (.scanmaxN (fld w 24 2) (fld w 20 4) (fld w 19 1) (fld w 12 6) (fld w 6 6) (fld w 0 6))
  | 60 =>
    match w / 16777216 % 4 with
    | 0 => rowIf (w / 262144 % 64 == 0) (.addScalar (fld w 12 6) (fld w 6 6) (fld w 0 6))
    | 1 => rowIf (w / 262144 % 64 == 0) (.subScalar (fld w 12 6) (fld w 6 6) (fld w 0 6))
    | 2 => rowIf (w / 262144 % 64 == 0) (.mulScalar (fld w 12 6) (fld w 6 6) (fld w 0 6))
    | 3 => rowIf (w / 262144 % 64 == 0) (.andScalar (fld w 12 6) (fld w 6 6) (fld w 0 6))
    | _ => .error .unknownOpcode
  | 61 =>
    match w / 16777216 % 4 with
    | 0 => rowIf (w / 262144 % 64 == 0) (.orScalar (fld w 12 6) (fld w 6 6) (fld w 0 6))
    | 1 => rowIf (w / 262144 % 64 == 0) (.xorScalar (fld w 12 6) (fld w 6 6) (fld w 0 6))
    | 2 => rowIf (w / 262144 % 64 == 0) (.shlScalar (fld w 12 6) (fld w 6 6) (fld w 0 6))
    | 3 => rowIf (w / 262144 % 64 == 0) (.shrNScalar (fld w 12 6) (fld w 6 6) (fld w 0 6))
    | _ => .error .unknownOpcode
  | 62 =>
    match w / 16777216 % 4 with
    | 0 => rowIf (w / 262144 % 64 == 0) (.shrIScalar (fld w 12 6) (fld w 6 6) (fld w 0 6))
    | 1 => rowIf (w / 262144 % 64 == 0) (.minIScalar (fld w 12 6) (fld w 6 6) (fld w 0 6))
    | 2 => rowIf (w / 262144 % 64 == 0) (.maxIScalar (fld w 12 6) (fld w 6 6) (fld w 0 6))
    | 3 => rowIf (w / 262144 % 64 == 0) (.minNScalar (fld w 12 6) (fld w 6 6) (fld w 0 6))
    | _ => .error .unknownOpcode
  | 63 =>
    match w / 16777216 % 4 with
    | 0 => rowIf (w / 262144 % 64 == 0) (.maxNScalar (fld w 12 6) (fld w 6 6) (fld w 0 6))
    | 1 => rowLit (w / 1 % 4096 == 0 && w / 524288 % 32 == 0) lit (fun l => .movlScalar (fld w 18 1) (fld w 12 6) (fld l 0 32)) (fun _ => true)
    | 2 => rowIf (w / 524288 % 32 == 0) (.cmpeqScalar (fld w 12 7) (fld w 6 6) (fld w 0 6))
    | 3 => rowIf (w / 524288 % 32 == 0) (.cmpltScalar (fld w 12 7) (fld w 6 6) (fld w 0 6))
    | _ => .error .unknownOpcode
  | _ => .error .unknownOpcode

/-- The SFN opcode map. -/
def decodeSfn (w : Nat) : Except DecodeError Instr :=
  match w / 67108864 with
  | 0 => rowIf (w / 1 % 64 == 0 && w / 262144 % 2 == 0) (.rcp (fld w 24 2) (fld w 20 4) (fld w 19 1) (fld w 12 6) (fld w 6 6))
  | 1 => rowIf (w / 1 % 64 == 0 && w / 262144 % 2 == 0) (.rsq (fld w 24 2) (fld w 20 4) (fld w 19 1) (fld w 12 6) (fld w 6 6))
  | 2 => rowIf (w / 1 % 64 == 0 && w / 262144 % 2 == 0) (.sqrt (fld w 24 2) (fld w 20 4) (fld w 19 1) (fld w 12 6) (fld w 6 6))
  | 3 => rowIf (w / 1 % 64 == 0 && w / 262144 % 2 == 0) (.exp2 (fld w 24 2) (fld w 20 4) (fld w 19 1) (fld w 12 6) (fld w 6 6))
  | 4 => rowIf (w / 1 % 64 == 0 && w / 262144 % 2 == 0) (.log2 (fld w 24 2) (fld w 20 4) (fld w 19 1) (fld w 12 6) (fld w 6 6))
  | 5 => rowIf (w / 1 % 64 == 0 && w / 262144 % 2 == 0) (.sin (fld w 24 2) (fld w 20 4) (fld w 19 1) (fld w 12 6) (fld w 6 6))
  | 6 => rowIf (w / 1 % 64 == 0 && w / 262144 % 2 == 0) (.cos (fld w 24 2) (fld w 20 4) (fld w 19 1) (fld w 12 6) (fld w 6 6))
  | 7 => rowIf (w / 1 % 64 == 0 && w / 262144 % 2 == 0) (.tanh (fld w 24 2) (fld w 20 4) (fld w 19 1) (fld w 12 6) (fld w 6 6))
  | _ => .error .unknownOpcode

/-- The MEM opcode map. -/
def decodeMem (w : Nat) : Except DecodeError Instr :=
  match w / 67108864 with
  | 0 => rowIf (true) (.ldgN (fld w 24 2) (fld w 20 4) (fld w 19 1) (fld w 13 6) (fld w 7 6) (fld w 6 1) (fld w 0 6))
  | 1 => rowIf (true) (.ldgI (fld w 24 2) (fld w 20 4) (fld w 19 1) (fld w 13 6) (fld w 7 6) (fld w 6 1) (fld w 0 6))
  | 2 => rowIf (true) (.stg (fld w 24 2) (fld w 20 4) (fld w 19 1) (fld w 13 6) (fld w 7 6) (fld w 6 1) (fld w 0 6))
  | 3 => rowIf (true) (.ldgNf (fld w 24 2) (fld w 20 4) (fld w 19 1) (fld w 13 6) (fld w 7 6) (fld w 6 1) (fld w 0 6))
  | 4 => rowIf (true) (.ldsN (fld w 24 2) (fld w 20 4) (fld w 19 1) (fld w 13 6) (fld w 7 6) (fld w 6 1) (fld w 0 6))
  | 5 => rowIf (true) (.ldsI (fld w 24 2) (fld w 20 4) (fld w 19 1) (fld w 13 6) (fld w 7 6) (fld w 6 1) (fld w 0 6))
  | 6 => rowIf (true) (.sts (fld w 24 2) (fld w 20 4) (fld w 19 1) (fld w 13 6) (fld w 7 6) (fld w 6 1) (fld w 0 6))
  | 7 =>
    match w / 16777216 % 4 with
    | 0 => rowIf (true) (.ldr (fld w 20 4) (fld w 19 1) (fld w 13 6) (fld w 7 6) (fld w 6 1) (fld w 0 6))
    | 1 => rowIf (true) (.str (fld w 20 4) (fld w 19 1) (fld w 13 6) (fld w 7 6) (fld w 6 1) (fld w 0 6))
    | 2 => rowIf (true) (.lda (fld w 20 4) (fld w 19 1) (fld w 13 6) (fld w 7 6) (fld w 6 1) (fld w 0 6))
    | 3 => rowIf (true) (.sta (fld w 20 4) (fld w 19 1) (fld w 13 6) (fld w 7 6) (fld w 6 1) (fld w 0 6))
    | _ => .error .unknownOpcode
  | 8 => rowIf (true) (.ldp (fld w 24 2) (fld w 20 4) (fld w 19 1) (fld w 13 6) (fld w 7 6) (fld w 6 1) (fld w 0 6))
  | 9 => rowIf (true) (.stp (fld w 24 2) (fld w 20 4) (fld w 19 1) (fld w 13 6) (fld w 7 6) (fld w 6 1) (fld w 0 6))
  | 10 =>
    match w / 16777216 % 4 with
    | 0 => rowIf (w / 64 % 2 == 0 && w / 524288 % 32 == 0) (.ldgScalar (fld w 13 6) (fld w 7 6) (fld w 0 6))
    | 1 => rowIf (w / 64 % 2 == 0 && w / 524288 % 32 == 0) (.stgScalar (fld w 13 6) (fld w 7 6) (fld w 0 6))
    | 2 => rowIf (w / 64 % 2 == 0 && w / 524288 % 32 == 0) (.ldsScalar (fld w 13 6) (fld w 7 6) (fld w 0 6))
    | 3 => rowIf (w / 64 % 2 == 0 && w / 524288 % 32 == 0) (.stsScalar (fld w 13 6) (fld w 7 6) (fld w 0 6))
    | _ => .error .unknownOpcode
  | 16 =>
    match w / 16777216 % 4 with
    | 0 => rowIf (true) (.atomgAdd (fld w 24 1) (fld w 20 4) (fld w 19 1) (fld w 13 6) (fld w 7 6) (fld w 6 1) (fld w 0 6))
    | 1 => rowIf (true) (.atomgAdd (fld w 24 1) (fld w 20 4) (fld w 19 1) (fld w 13 6) (fld w 7 6) (fld w 6 1) (fld w 0 6))
    | 2 => rowIf (true) (.atomgMinI (fld w 24 1) (fld w 20 4) (fld w 19 1) (fld w 13 6) (fld w 7 6) (fld w 6 1) (fld w 0 6))
    | 3 => rowIf (true) (.atomgMinI (fld w 24 1) (fld w 20 4) (fld w 19 1) (fld w 13 6) (fld w 7 6) (fld w 6 1) (fld w 0 6))
    | _ => .error .unknownOpcode
  | 17 =>
    match w / 16777216 % 4 with
    | 0 => rowIf (true) (.atomgMinN (fld w 24 1) (fld w 20 4) (fld w 19 1) (fld w 13 6) (fld w 7 6) (fld w 6 1) (fld w 0 6))
    | 1 => rowIf (true) (.atomgMinN (fld w 24 1) (fld w 20 4) (fld w 19 1) (fld w 13 6) (fld w 7 6) (fld w 6 1) (fld w 0 6))
    | 2 => rowIf (true) (.atomgMaxI (fld w 24 1) (fld w 20 4) (fld w 19 1) (fld w 13 6) (fld w 7 6) (fld w 6 1) (fld w 0 6))
    | 3 => rowIf (true) (.atomgMaxI (fld w 24 1) (fld w 20 4) (fld w 19 1) (fld w 13 6) (fld w 7 6) (fld w 6 1) (fld w 0 6))
    | _ => .error .unknownOpcode
  | 18 =>
    match w / 16777216 % 4 with
    | 0 => rowIf (true) (.atomgMaxN (fld w 24 1) (fld w 20 4) (fld w 19 1) (fld w 13 6) (fld w 7 6) (fld w 6 1) (fld w 0 6))
    | 1 => rowIf (true) (.atomgMaxN (fld w 24 1) (fld w 20 4) (fld w 19 1) (fld w 13 6) (fld w 7 6) (fld w 6 1) (fld w 0 6))
    | 2 => rowIf (true) (.atomgAnd (fld w 24 1) (fld w 20 4) (fld w 19 1) (fld w 13 6) (fld w 7 6) (fld w 6 1) (fld w 0 6))
    | 3 => rowIf (true) (.atomgAnd (fld w 24 1) (fld w 20 4) (fld w 19 1) (fld w 13 6) (fld w 7 6) (fld w 6 1) (fld w 0 6))
    | _ => .error .unknownOpcode
  | 19 =>
    match w / 16777216 % 4 with
    | 0 => rowIf (true) (.atomgOr (fld w 24 1) (fld w 20 4) (fld w 19 1) (fld w 13 6) (fld w 7 6) (fld w 6 1) (fld w 0 6))
    | 1 => rowIf (true) (.atomgOr (fld w 24 1) (fld w 20 4) (fld w 19 1) (fld w 13 6) (fld w 7 6) (fld w 6 1) (fld w 0 6))
    | 2 => rowIf (true) (.atomgXor (fld w 24 1) (fld w 20 4) (fld w 19 1) (fld w 13 6) (fld w 7 6) (fld w 6 1) (fld w 0 6))
    | 3 => rowIf (true) (.atomgXor (fld w 24 1) (fld w 20 4) (fld w 19 1) (fld w 13 6) (fld w 7 6) (fld w 6 1) (fld w 0 6))
    | _ => .error .unknownOpcode
  | 20 =>
    match w / 16777216 % 4 with
    | 0 => rowIf (true) (.atomgXchg (fld w 24 1) (fld w 20 4) (fld w 19 1) (fld w 13 6) (fld w 7 6) (fld w 6 1) (fld w 0 6))
    | 1 => rowIf (true) (.atomgXchg (fld w 24 1) (fld w 20 4) (fld w 19 1) (fld w 13 6) (fld w 7 6) (fld w 6 1) (fld w 0 6))
    | 2 => rowIf (true) (.atomgCas (fld w 24 1) (fld w 20 4) (fld w 19 1) (fld w 13 6) (fld w 7 6) (fld w 6 1) (fld w 0 6))
    | 3 => rowIf (true) (.atomgCas (fld w 24 1) (fld w 20 4) (fld w 19 1) (fld w 13 6) (fld w 7 6) (fld w 6 1) (fld w 0 6))
    | _ => .error .unknownOpcode
  | 21 =>
    match w / 16777216 % 4 with
    | 0 => rowIf (true) (.atomgAddBf16x2 (fld w 20 4) (fld w 19 1) (fld w 13 6) (fld w 7 6) (fld w 6 1) (fld w 0 6))
    | 1 => rowIf (true) (.atomgAddF32 (fld w 20 4) (fld w 19 1) (fld w 13 6) (fld w 7 6) (fld w 6 1) (fld w 0 6))
    | 2 => rowIf (w / 64 % 2 == 0 && w / 524288 % 32 == 0) (.atomgGrab (fld w 13 6) (fld w 7 6) (fld w 0 6))
    | _ => .error .unknownOpcode
  | 24 =>
    match w / 16777216 % 4 with
    | 0 => rowIf (true) (.atomsAdd (fld w 24 1) (fld w 20 4) (fld w 19 1) (fld w 13 6) (fld w 7 6) (fld w 6 1) (fld w 0 6))
    | 1 => rowIf (true) (.atomsAdd (fld w 24 1) (fld w 20 4) (fld w 19 1) (fld w 13 6) (fld w 7 6) (fld w 6 1) (fld w 0 6))
    | 2 => rowIf (true) (.atomsMinI (fld w 24 1) (fld w 20 4) (fld w 19 1) (fld w 13 6) (fld w 7 6) (fld w 6 1) (fld w 0 6))
    | 3 => rowIf (true) (.atomsMinI (fld w 24 1) (fld w 20 4) (fld w 19 1) (fld w 13 6) (fld w 7 6) (fld w 6 1) (fld w 0 6))
    | _ => .error .unknownOpcode
  | 25 =>
    match w / 16777216 % 4 with
    | 0 => rowIf (true) (.atomsMinN (fld w 24 1) (fld w 20 4) (fld w 19 1) (fld w 13 6) (fld w 7 6) (fld w 6 1) (fld w 0 6))
    | 1 => rowIf (true) (.atomsMinN (fld w 24 1) (fld w 20 4) (fld w 19 1) (fld w 13 6) (fld w 7 6) (fld w 6 1) (fld w 0 6))
    | 2 => rowIf (true) (.atomsMaxI (fld w 24 1) (fld w 20 4) (fld w 19 1) (fld w 13 6) (fld w 7 6) (fld w 6 1) (fld w 0 6))
    | 3 => rowIf (true) (.atomsMaxI (fld w 24 1) (fld w 20 4) (fld w 19 1) (fld w 13 6) (fld w 7 6) (fld w 6 1) (fld w 0 6))
    | _ => .error .unknownOpcode
  | 26 =>
    match w / 16777216 % 4 with
    | 0 => rowIf (true) (.atomsMaxN (fld w 24 1) (fld w 20 4) (fld w 19 1) (fld w 13 6) (fld w 7 6) (fld w 6 1) (fld w 0 6))
    | 1 => rowIf (true) (.atomsMaxN (fld w 24 1) (fld w 20 4) (fld w 19 1) (fld w 13 6) (fld w 7 6) (fld w 6 1) (fld w 0 6))
    | 2 => rowIf (true) (.atomsAnd (fld w 24 1) (fld w 20 4) (fld w 19 1) (fld w 13 6) (fld w 7 6) (fld w 6 1) (fld w 0 6))
    | 3 => rowIf (true) (.atomsAnd (fld w 24 1) (fld w 20 4) (fld w 19 1) (fld w 13 6) (fld w 7 6) (fld w 6 1) (fld w 0 6))
    | _ => .error .unknownOpcode
  | 27 =>
    match w / 16777216 % 4 with
    | 0 => rowIf (true) (.atomsOr (fld w 24 1) (fld w 20 4) (fld w 19 1) (fld w 13 6) (fld w 7 6) (fld w 6 1) (fld w 0 6))
    | 1 => rowIf (true) (.atomsOr (fld w 24 1) (fld w 20 4) (fld w 19 1) (fld w 13 6) (fld w 7 6) (fld w 6 1) (fld w 0 6))
    | 2 => rowIf (true) (.atomsXor (fld w 24 1) (fld w 20 4) (fld w 19 1) (fld w 13 6) (fld w 7 6) (fld w 6 1) (fld w 0 6))
    | 3 => rowIf (true) (.atomsXor (fld w 24 1) (fld w 20 4) (fld w 19 1) (fld w 13 6) (fld w 7 6) (fld w 6 1) (fld w 0 6))
    | _ => .error .unknownOpcode
  | 28 =>
    match w / 16777216 % 4 with
    | 0 => rowIf (true) (.atomsXchg (fld w 24 1) (fld w 20 4) (fld w 19 1) (fld w 13 6) (fld w 7 6) (fld w 6 1) (fld w 0 6))
    | 1 => rowIf (true) (.atomsXchg (fld w 24 1) (fld w 20 4) (fld w 19 1) (fld w 13 6) (fld w 7 6) (fld w 6 1) (fld w 0 6))
    | 2 => rowIf (true) (.atomsCas (fld w 24 1) (fld w 20 4) (fld w 19 1) (fld w 13 6) (fld w 7 6) (fld w 6 1) (fld w 0 6))
    | 3 => rowIf (true) (.atomsCas (fld w 24 1) (fld w 20 4) (fld w 19 1) (fld w 13 6) (fld w 7 6) (fld w 6 1) (fld w 0 6))
    | _ => .error .unknownOpcode
  | 32 =>
    match w / 16777216 % 4 with
    | 0 => rowIf (w / 4 % 4194304 == 0) (.fence (fld w 0 2))
    | 1 => rowIf (w / 8192 % 64 == 0) (.pref (fld w 20 4) (fld w 19 1) (fld w 7 6) (fld w 6 1) (fld w 0 6))
    | 2 => rowIf (w / 8192 % 64 == 0) (.reqpage (fld w 20 4) (fld w 19 1) (fld w 7 6) (fld w 6 1) (fld w 0 6))
    | 3 => rowIf (w / 8192 % 64 == 0) (.l1inv (fld w 20 4) (fld w 19 1) (fld w 7 6) (fld w 6 1) (fld w 0 6))
    | _ => .error .unknownOpcode
  | 33 =>
    match w / 16777216 % 4 with
    | 0 => rowIf (w / 1 % 16777216 == 0) (.l1inva)
    | _ => .error .unknownOpcode
  | _ => .error .unknownOpcode

/-- The TILE opcode map. -/
def decodeTile (w : Nat) : Except DecodeError Instr :=
  match w / 67108864 with
  | 0 =>
    match w / 16777216 % 4 with
    | 0 => rowIf (w / 64 % 2 == 0 && w / 8192 % 2048 == 0) (.tileMma (fld w 7 6) (fld w 0 6))
    | 1 => rowIf (w / 16 % 512 == 0 && w / 524288 % 32 == 0) (.tileZero (fld w 13 6) (fld w 0 4))
    | 2 => rowIf (w / 16 % 8 == 0 && w / 524288 % 32 == 0) (.tileMov (fld w 13 6) (fld w 7 6) (fld w 0 4))
    | 3 => rowIf (w / 16 % 8 == 0 && w / 524288 % 32 == 0) (.tileAdd (fld w 13 6) (fld w 7 6) (fld w 0 4))
    | _ => .error .unknownOpcode
  | 1 =>
    match w / 16777216 % 4 with
    | 0 => rowIf (w / 16 % 8 == 0 && w / 524288 % 32 == 0) (.tileScale (fld w 13 6) (fld w 7 6) (fld w 0 4))
    | 1 => rowIf (w / 1 % 8192 == 0 && w / 524288 % 32 == 0) (.tileQuery (fld w 13 6))
    | _ => .error .unknownOpcode
  | _ => .error .unknownOpcode

/-- The COPY opcode map. -/
def decodeCopy (w : Nat) : Except DecodeError Instr :=
  match w / 67108864 with
  | 0 =>
    match w / 16777216 % 4 with
    | 0 => rowIf (w / 131072 % 128 == 0) (.cpin (fld w 13 4) (fld w 7 6) (fld w 6 1) (fld w 0 6))
    | 1 => rowIf (w / 131072 % 128 == 0) (.cpout (fld w 13 4) (fld w 7 6) (fld w 6 1) (fld w 0 6))
    | 2 => rowIf (w / 131072 % 128 == 0) (.cpwb (fld w 13 4) (fld w 7 6) (fld w 6 1) (fld w 0 6))
    | 3 => rowIf (w / 64 % 2 == 0 && w / 524288 % 32 == 0) (.lock (fld w 13 6) (fld w 7 6) (fld w 0 6))
    | _ => .error .unknownOpcode
  | 1 =>
    match w / 16777216 % 4 with
    | 0 => rowIf (w / 64 % 2 == 0 && w / 524288 % 32 == 0) (.unlock (fld w 13 6) (fld w 7 6) (fld w 0 6))
    | 1 => rowIf (w / 1 % 128 == 0 && w / 8192 % 2048 == 0) (.wkey (fld w 7 6))
    | _ => .error .unknownOpcode
  | _ => .error .unknownOpcode

/-- The REM opcode map. -/
def decodeRem (w : Nat) (lit : Option Nat) : Except DecodeError Instr :=
  match w / 67108864 with
  | 0 =>
    match w / 16777216 % 4 with
    | 0 => rowLit (true) lit (fun l => .fig (fld w 20 4) (fld w 19 1) (fld w 13 6) (fld w 7 6) (fld w 6 1) (fld w 0 6) (fld l 0 6) (fld l 6 4) (fld l 10 1)) (fun l => l / 2048 == 0)
    | 1 => rowLit (w / 64 % 2 == 0 && w / 524288 % 32 == 0) lit (fun l => .figld (fld w 13 6) (fld w 7 6) (fld w 0 6) (fld l 0 6)) (fun l => l / 64 == 0)
    | 2 => rowIf (w / 64 % 262144 == 0) (.figunld (fld w 0 6))
    | 3 => rowIf (w / 262144 % 2 == 1) (.stn (fld w 20 4) (fld w 19 1) (fld w 12 6) (fld w 6 6) (fld w 0 6))
    | _ => .error .unknownOpcode
  | 1 =>
    match w / 16777216 % 4 with
    | 0 => rowIf (w / 262144 % 2 == 1) (.stnRel (fld w 20 4) (fld w 19 1) (fld w 12 6) (fld w 6 6) (fld w 0 6))
    | 1 => rowLit (w / 262144 % 2 == 1) lit (fun l => .stnF (fld w 20 4) (fld w 19 1) (fld w 12 6) (fld w 6 6) (fld w 0 6) (fld l 0 4)) (fun l => l / 16 == 0)
    | 2 => rowIf (w / 1 % 4096 == 0 && w / 262144 % 64 == 0) (.nameget (fld w 12 6))
    | 3 => rowIf (w / 1 % 16777216 == 0) (.namerel)
    | _ => .error .unknownOpcode
  | 2 =>
    match w / 16777216 % 4 with
    | 0 => rowIf (w / 16 % 8 == 0 && w / 524288 % 32 == 0) (.tender (fld w 13 6) (fld w 7 6) (fld w 0 4))
    | 1 => rowIf (w / 16 % 1048576 == 0) (.serve (fld w 0 4))
    | 2 => rowIf (w / 16 % 8 == 0 && w / 524288 % 32 == 0) (.take (fld w 13 6) (fld w 7 6) (fld w 0 4))
    | 3 => rowIf (w / 16 % 8 == 0 && w / 524288 % 32 == 0) (.mcast (fld w 13 6) (fld w 7 6) (fld w 0 4))
    | _ => .error .unknownOpcode
  | 3 =>
    match w / 16777216 % 4 with
    | 0 => rowIf (w / 128 % 64 == 0 && w / 524288 % 32 == 0) (.redx (fld w 13 6) (fld w 4 3) (fld w 0 4))
    | _ => .error .unknownOpcode
  | _ => .error .unknownOpcode

/-- The CTL opcode map. -/
def decodeCtl (w : Nat) : Except DecodeError Instr :=
  match w / 67108864 with
  | 0 =>
    match w / 16777216 % 4 with
    | 0 => rowIf (w / 1 % 524288 == 0) (.nop (fld w 20 4) (fld w 19 1))
    | 1 => rowIf (true) (.bra (fld w 20 4) (fld w 19 1) (fld w 0 19))
    | 2 => rowIf (w / 1 % 64 == 0 && w / 4096 % 128 == 0) (.brx (fld w 20 4) (fld w 19 1) (fld w 6 6))
    | 3 => rowIf (true) (.call (fld w 20 4) (fld w 19 1) (fld w 0 19))
    | _ => .error .unknownOpcode
  | 1 =>
    match w / 16777216 % 4 with
    | 0 => rowIf (w / 1 % 64 == 0 && w / 4096 % 128 == 0) (.ret (fld w 20 4) (fld w 19 1) (fld w 6 6))
    | 1 => rowIf (w / 1 % 524288 == 0) (.exit (fld w 20 4) (fld w 19 1))
    | 2 => rowIf (w / 1 % 16777216 == 0) (.yield)
    | 3 => rowIf (w / 16 % 256 == 0 && w / 524288 % 32 == 0) (.bar (fld w 12 7) (fld w 0 4))
    | _ => .error .unknownOpcode
  | 2 =>
    match w / 16777216 % 4 with
    | 0 => rowIf (w / 16 % 4 == 0 && w / 524288 % 32 == 0) (.barc (fld w 12 7) (fld w 6 6) (fld w 0 4))
    | 1 => rowIf (w / 1 % 16777216 == 0) (.commit)
    | 2 => rowIf (w / 1 % 16777216 == 0) (.pass)
    | 3 => rowIf (w / 1 % 4096 == 0) (.elect (fld w 20 4) (fld w 19 1) (fld w 12 7))
    | _ => .error .unknownOpcode
  | 3 =>
    match w / 16777216 % 4 with
    | 0 => rowIf (w / 128 % 4096 == 0) (.trap (fld w 20 4) (fld w 19 1) (fld w 0 7))
    | 1 => rowIf (w / 1 % 8 == 0 && w / 524288 % 32 == 0) (.loop (fld w 17 2) (fld w 9 8) (fld w 3 6))
    | 2 => rowIf (w / 524288 % 32 == 0) (.wait (fld w 14 5) (fld w 9 5) (fld w 4 5) (fld w 0 4))
    | 3 => rowIf (w / 4096 % 4096 == 0) (.flagset (fld w 0 12))
    | _ => .error .unknownOpcode
  | 4 =>
    match w / 16777216 % 4 with
    | 0 => rowIf (w / 4096 % 4096 == 0) (.flagclr (fld w 0 12))
    | 1 => rowIf (w / 1 % 16777216 == 0) (.xlock)
    | 2 => rowIf (w / 1 % 16777216 == 0) (.xunlock)
    | 3 => rowIf (w / 64 % 128 == 0 && w / 524288 % 32 == 0) (.arm (fld w 13 6) (fld w 0 6))
    | _ => .error .unknownOpcode
  | 5 =>
    match w / 16777216 % 4 with
    | 0 => rowIf (w / 128 % 64 == 0) (.getid (fld w 20 4) (fld w 19 1) (fld w 13 6) (fld w 0 7))
    | 1 => rowIf (w / 8 % 16 == 0 && w / 8192 % 2048 == 0) (.setmode (fld w 7 6) (fld w 0 3))
    | 2 => rowIf (w / 1 % 16777216 == 0) (.lnext)
    | 3 => rowIf (w / 1 % 16777216 == 0) (.waitpred)
    | _ => .error .unknownOpcode
  | 6 =>
    match w / 16777216 % 4 with
    | 0 => rowIf (w / 1 % 16777216 == 0) (.waitdone)
    | _ => .error .unknownOpcode
  | _ => .error .unknownOpcode

/-- The SYS opcode map. -/
def decodeSys (w : Nat) : Except DecodeError Instr :=
  match w / 67108864 with
  | 0 =>
    match w / 16777216 % 4 with
    | 0 => rowIf (w / 4096 % 2 == 0 && w / 524288 % 32 == 0) (.csrrd (fld w 13 6) (fld w 0 12))
    | 1 => rowIf (w / 4096 % 2 == 0 && w / 524288 % 32 == 0) (.csrwr (fld w 13 6) (fld w 0 12))
    | 2 => rowIf (w / 1 % 16777216 == 0) (.rft)
    | 3 => rowIf (w / 4096 % 64 == 0 && w / 524288 % 32 == 0) (.tlbinv (fld w 18 1) (fld w 6 6) (fld w 0 6))
    | _ => .error .unknownOpcode
  | 1 =>
    match w / 16777216 % 4 with
    | 0 => rowIf (w / 16 % 8 == 0 && w / 8192 % 2048 == 0) (.lkeyld (fld w 7 6) (fld w 0 4))
    | 1 => rowIf (w / 16 % 8 == 0 && w / 8192 % 2048 == 0) (.lkeyarm (fld w 7 6) (fld w 0 4))
    | 2 => rowIf (w / 16 % 8 == 0 && w / 8192 % 2048 == 0) (.bidf (fld w 7 6) (fld w 0 4))
    | 3 => rowIf (w / 1 % 16777216 == 0) (.halt)
    | _ => .error .unknownOpcode
  | 2 =>
    match w / 16777216 % 4 with
    | 0 => rowIf (w / 1 % 128 == 0 && w / 8192 % 2048 == 0) (.replay (fld w 7 6))
    | 1 => rowIf (w / 16 % 512 == 0 && w / 524288 % 32 == 0) (.evrd (fld w 13 6) (fld w 0 4))
    | 2 => rowIf (w / 16 % 8 == 0 && w / 8192 % 2048 == 0) (.evsel (fld w 7 6) (fld w 0 4))
    | _ => .error .unknownOpcode
  | _ => .error .unknownOpcode

/-- R22. The word `w`, with the word after it if there is one, decoded by the table of the header's class (R21). -/
def decode (cls w : Nat) (lit : Option Nat) : Except DecodeError Instr :=
  match cls with
  | 0 => decodeCtl w
  | 1 => decodeVec w lit
  | 2 => decodeSfn w
  | 3 => decodeMem w
  | 4 => decodeTile w
  | 5 => decodeCopy w
  | 6 => decodeRem w lit
  | 7 => decodeSys w
  | _ => .error .unknownOpcode

/-- R21. The class of an instruction word; a device step has none. -/
def Instr.cls : Instr → Option Nat
  | .clauseFetch _ => none
  | .clauseIssue _ => none
  | .add _ _ _ _ _ _ _ => some 1
  | .sub _ _ _ _ _ _ _ => some 1
  | .mul _ _ _ _ _ _ _ => some 1
  | .mulhI _ _ _ _ _ _ _ => some 1
  | .mulhN _ _ _ _ _ _ _ => some 1
  | .addISat _ _ _ _ _ _ _ => some 1
  | .addNSat _ _ _ _ _ _ _ => some 1
  | .subISat _ _ _ _ _ _ _ => some 1
  | .subNSat _ _ _ _ _ _ _ => some 1
  | .avgI _ _ _ _ _ _ _ => some 1
  | .avgN _ _ _ _ _ _ _ => some 1
  | .minI _ _ _ _ _ _ _ => some 1
  | .minN _ _ _ _ _ _ _ => some 1
  | .maxI _ _ _ _ _ _ _ => some 1
  | .maxN _ _ _ _ _ _ _ => some 1
  | .shl _ _ _ _ _ _ _ => some 1
  | .shrN _ _ _ _ _ _ _ => some 1
  | .shrI _ _ _ _ _ _ _ => some 1
  | .cmpeq _ _ _ _ _ _ => some 1
  | .cmpltI _ _ _ _ _ _ => some 1
  | .cmpltN _ _ _ _ _ _ => some 1
  | .cmpleI _ _ _ _ _ _ => some 1
  | .cmpleN _ _ _ _ _ _ => some 1
  | .cmpne _ _ _ _ _ _ => some 1
  | .and _ _ _ _ _ _ => some 1
  | .or _ _ _ _ _ _ => some 1
  | .xor _ _ _ _ _ _ => some 1
  | .andn _ _ _ _ _ _ => some 1
  | .not _ _ _ _ => some 1
  | .mov _ _ _ _ _ => some 1
  | .sel _ _ _ _ _ _ => some 1
  | .movl _ _ _ _ _ => some 1
  | .popc _ _ _ _ => some 1
  | .clz _ _ _ _ => some 1
  | .ctz _ _ _ _ => some 1
  | .brev _ _ _ _ => some 1
  | .bfxN _ _ _ _ _ _ => some 1
  | .bfxI _ _ _ _ _ _ => some 1
  | .bfi _ _ _ _ _ _ => some 1
  | .rot _ _ _ _ _ _ => some 1
  | .abs _ _ _ _ _ => some 1
  | .pand _ _ _ _ _ => some 1
  | .por _ _ _ _ _ => some 1
  | .pxor _ _ _ _ _ => some 1
  | .pandn _ _ _ _ _ => some 1
  | .pnot _ _ _ _ => some 1
  | .xread _ _ _ _ _ _ _ _ => some 1
  | .xshuf _ _ _ _ _ _ => some 1
  | .xbcast _ _ _ _ _ _ => some 1
  | .redand _ _ _ _ _ => some 1
  | .redor _ _ _ _ _ => some 1
  | .redfadd _ _ _ _ _ => some 1
  | .redfmax _ _ _ _ _ => some 1
  | .fadd _ _ _ _ _ _ _ => some 1
  | .fsub _ _ _ _ _ _ _ => some 1
  | .fmul _ _ _ _ _ _ _ => some 1
  | .fma _ _ _ _ _ _ _ => some 1
  | .fmin _ _ _ _ _ _ _ => some 1
  | .fmax _ _ _ _ _ _ _ => some 1
  | .fabs _ _ _ _ _ => some 1
  | .fneg _ _ _ _ _ => some 1
  | .fcmpeq _ _ _ _ _ _ => some 1
  | .fcmplt _ _ _ _ _ _ => some 1
  | .fcmple _ _ _ _ _ _ => some 1
  | .fcmpun _ _ _ _ _ _ => some 1
  | .cvt _ _ _ _ _ _ _ => some 1
  | .cvtSat _ _ _ _ _ _ _ => some 1
  | .redadd _ _ _ _ _ _ => some 1
  | .redminI _ _ _ _ _ _ => some 1
  | .redminN _ _ _ _ _ _ => some 1
  | .redmaxI _ _ _ _ _ _ => some 1
  | .redmaxN _ _ _ _ _ _ => some 1
  | .scanadd _ _ _ _ _ _ => some 1
  | .scanmaxI _ _ _ _ _ _ => some 1
  | .scanmaxN _ _ _ _ _ _ => some 1
  | .addScalar _ _ _ => some 1
  | .subScalar _ _ _ => some 1
  | .mulScalar _ _ _ => some 1
  | .andScalar _ _ _ => some 1
  | .orScalar _ _ _ => some 1
  | .xorScalar _ _ _ => some 1
  | .shlScalar _ _ _ => some 1
  | .shrNScalar _ _ _ => some 1
  | .shrIScalar _ _ _ => some 1
  | .minIScalar _ _ _ => some 1
  | .maxIScalar _ _ _ => some 1
  | .minNScalar _ _ _ => some 1
  | .maxNScalar _ _ _ => some 1
  | .movlScalar _ _ _ => some 1
  | .cmpeqScalar _ _ _ => some 1
  | .cmpltScalar _ _ _ => some 1
  | .rcp _ _ _ _ _ => some 2
  | .rsq _ _ _ _ _ => some 2
  | .sqrt _ _ _ _ _ => some 2
  | .exp2 _ _ _ _ _ => some 2
  | .log2 _ _ _ _ _ => some 2
  | .sin _ _ _ _ _ => some 2
  | .cos _ _ _ _ _ => some 2
  | .tanh _ _ _ _ _ => some 2
  | .ldgN _ _ _ _ _ _ _ => some 3
  | .ldgI _ _ _ _ _ _ _ => some 3
  | .stg _ _ _ _ _ _ _ => some 3
  | .ldgNf _ _ _ _ _ _ _ => some 3
  | .ldsN _ _ _ _ _ _ _ => some 3
  | .ldsI _ _ _ _ _ _ _ => some 3
  | .sts _ _ _ _ _ _ _ => some 3
  | .ldr _ _ _ _ _ _ => some 3
  | .str _ _ _ _ _ _ => some 3
  | .lda _ _ _ _ _ _ => some 3
  | .sta _ _ _ _ _ _ => some 3
  | .ldp _ _ _ _ _ _ _ => some 3
  | .stp _ _ _ _ _ _ _ => some 3
  | .ldgScalar _ _ _ => some 3
  | .stgScalar _ _ _ => some 3
  | .ldsScalar _ _ _ => some 3
  | .stsScalar _ _ _ => some 3
  | .atomgAdd _ _ _ _ _ _ _ => some 3
  | .atomgMinI _ _ _ _ _ _ _ => some 3
  | .atomgMinN _ _ _ _ _ _ _ => some 3
  | .atomgMaxI _ _ _ _ _ _ _ => some 3
  | .atomgMaxN _ _ _ _ _ _ _ => some 3
  | .atomgAnd _ _ _ _ _ _ _ => some 3
  | .atomgOr _ _ _ _ _ _ _ => some 3
  | .atomgXor _ _ _ _ _ _ _ => some 3
  | .atomgXchg _ _ _ _ _ _ _ => some 3
  | .atomgCas _ _ _ _ _ _ _ => some 3
  | .atomgAddBf16x2 _ _ _ _ _ _ => some 3
  | .atomgAddF32 _ _ _ _ _ _ => some 3
  | .atomgGrab _ _ _ => some 3
  | .atomsAdd _ _ _ _ _ _ _ => some 3
  | .atomsMinI _ _ _ _ _ _ _ => some 3
  | .atomsMinN _ _ _ _ _ _ _ => some 3
  | .atomsMaxI _ _ _ _ _ _ _ => some 3
  | .atomsMaxN _ _ _ _ _ _ _ => some 3
  | .atomsAnd _ _ _ _ _ _ _ => some 3
  | .atomsOr _ _ _ _ _ _ _ => some 3
  | .atomsXor _ _ _ _ _ _ _ => some 3
  | .atomsXchg _ _ _ _ _ _ _ => some 3
  | .atomsCas _ _ _ _ _ _ _ => some 3
  | .fence _ => some 3
  | .pref _ _ _ _ _ => some 3
  | .reqpage _ _ _ _ _ => some 3
  | .l1inv _ _ _ _ _ => some 3
  | .l1inva => some 3
  | .tileMma _ _ => some 4
  | .tileZero _ _ => some 4
  | .tileMov _ _ _ => some 4
  | .tileAdd _ _ _ => some 4
  | .tileScale _ _ _ => some 4
  | .tileQuery _ => some 4
  | .cpin _ _ _ _ => some 5
  | .cpout _ _ _ _ => some 5
  | .cpwb _ _ _ _ => some 5
  | .lock _ _ _ => some 5
  | .unlock _ _ _ => some 5
  | .wkey _ => some 5
  | .fig _ _ _ _ _ _ _ _ _ => some 6
  | .figld _ _ _ _ => some 6
  | .figunld _ => some 6
  | .stn _ _ _ _ _ => some 6
  | .stnRel _ _ _ _ _ => some 6
  | .stnF _ _ _ _ _ _ => some 6
  | .nameget _ => some 6
  | .namerel => some 6
  | .tender _ _ _ => some 6
  | .serve _ => some 6
  | .take _ _ _ => some 6
  | .mcast _ _ _ => some 6
  | .redx _ _ _ => some 6
  | .nop _ _ => some 0
  | .bra _ _ _ => some 0
  | .brx _ _ _ => some 0
  | .call _ _ _ => some 0
  | .ret _ _ _ => some 0
  | .exit _ _ => some 0
  | .yield => some 0
  | .bar _ _ => some 0
  | .barc _ _ _ => some 0
  | .commit => some 0
  | .pass => some 0
  | .elect _ _ _ => some 0
  | .trap _ _ _ => some 0
  | .loop _ _ _ => some 0
  | .wait _ _ _ _ => some 0
  | .flagset _ => some 0
  | .flagclr _ => some 0
  | .xlock => some 0
  | .xunlock => some 0
  | .arm _ _ => some 0
  | .getid _ _ _ _ => some 0
  | .setmode _ _ => some 0
  | .lnext => some 0
  | .waitpred => some 0
  | .waitdone => some 0
  | .csrrd _ _ => some 7
  | .csrwr _ _ => some 7
  | .rft => some 7
  | .tlbinv _ _ _ => some 7
  | .lkeyld _ _ => some 7
  | .lkeyarm _ _ => some 7
  | .bidf _ _ => some 7
  | .halt => some 7
  | .replay _ => some 7
  | .evrd _ _ => some 7
  | .evsel _ _ => some 7
  | .loadCompletion _ _ => none
  | .storeAccept _ _ => none
  | .loadAtHome _ _ => none
  | .atomicAtHome _ _ => none
  | .l1LineExpiry _ _ => none
  | .pageWalkComplete _ _ _ => none
  | .fenceComplete _ => none
  | .tlbinvComplete _ => none
  | .lnextRelease _ => none
  | .faultFilterAdmit _ => none
  | .faultStageForward _ => none
  | .faultStagePost _ _ => none
  | .faultPostRetry _ _ => none
  | .replayRelease _ => none
  | .engineWordEnqueue _ => none
  | .copyStart _ _ => none
  | .copyRow _ _ => none
  | .copyRetire _ _ => none
  | .tileStart _ => none
  | .tileKblock _ => none
  | .tileComplete _ => none
  | .tileOpComplete _ => none
  | .figSlotClear _ => none
  | .definitionCacheFill _ _ _ => none
  | .figureExecute _ _ => none
  | .figureCombine _ _ => none
  | .combineEntryAge _ _ => none
  | .tileFigureChannel _ => none
  | .figldApply _ => none
  | .figunldApply _ => none
  | .wcbAgeDrain _ _ => none
  | .podWriteApply _ => none
  | .podLoadServe _ _ => none
  | .podRefusal _ => none
  | .hostRefusal _ _ _ => none
  | .stnDelivery _ => none
  | .stnArrival _ => none
  | .stnRefusal _ => none
  | .heatBroadcast _ => none
  | .heatBid _ _ => none
  | .heatBidReceive _ _ => none
  | .heatWindowClose _ => none
  | .heatAward _ => none
  | .heatResult _ => none
  | .tokenArrival _ => none
  | .barrierComplete _ _ _ => none
  | .squadRetire _ => none
  | .launchRetire _ => none
  | .placement _ => none
  | .preemptionRequest _ _ => none
  | .contextSave _ _ => none
  | .contextRestore _ _ => none
  | .doorbell _ _ _ => none
  | .schedulerBind => none
  | .sliceExpiry _ => none
  | .launchPacket _ => none
  | .prefetchPacket _ => none
  | .signalPacket _ => none
  | .waitsigPacket _ => none
  | .waitsigRecheck _ => none
  | .graphPacket _ => none
  | .hostKill _ _ => none
  | .hostReplay _ _ => none
  | .hostPreempt _ _ => none
  | .exportWindowWrite _ _ _ => none
  | .dieEventSelect _ _ _ => none
  | .groomerConfigWrite _ _ _ => none
  | .channelErrorLogClear _ _ _ => none
  | .functionErrorLogClear _ _ => none
  | .mailboxAttest => none
  | .mailboxPower => none
  | .mailboxSensors => none
  | .mailboxLinkreset => none
  | .registerWrite _ _ _ _ => none
  | .channelRequestArrival _ _ _ _ _ => none
  | .channelIssue _ => none
  | .bankRefresh _ _ => none
  | .groomerRead _ => none
  | .groomerPeriodExpiry _ => none
  | .flitReceive _ _ => none
  | .nakReceive _ _ => none
  | .ackReceive _ _ => none
  | .keyLimitReached _ => none
  | .linkTrained _ => none
  | .mcastSwitchBranch _ => none
  | .mcastLineApply _ _ => none
  | .redxSpineCombine _ => none
  | .redxResultWrite _ => none
  | .powerOn _ => none
  | .throttleEntry => none
  | .throttleExit => none
  | .moduleHalt => none
  | .memoryReadRequest _ _ _ _ => none
  | .flitBoundary _ => none

/-- R22, R32. An L-format instruction takes the next word as its literal. -/
def Instr.isLong : Instr → Bool
  | .clauseFetch _ => false
  | .clauseIssue _ => false
  | .add _ _ _ _ _ _ _ => false
  | .sub _ _ _ _ _ _ _ => false
  | .mul _ _ _ _ _ _ _ => false
  | .mulhI _ _ _ _ _ _ _ => false
  | .mulhN _ _ _ _ _ _ _ => false
  | .addISat _ _ _ _ _ _ _ => false
  | .addNSat _ _ _ _ _ _ _ => false
  | .subISat _ _ _ _ _ _ _ => false
  | .subNSat _ _ _ _ _ _ _ => false
  | .avgI _ _ _ _ _ _ _ => false
  | .avgN _ _ _ _ _ _ _ => false
  | .minI _ _ _ _ _ _ _ => false
  | .minN _ _ _ _ _ _ _ => false
  | .maxI _ _ _ _ _ _ _ => false
  | .maxN _ _ _ _ _ _ _ => false
  | .shl _ _ _ _ _ _ _ => false
  | .shrN _ _ _ _ _ _ _ => false
  | .shrI _ _ _ _ _ _ _ => false
  | .cmpeq _ _ _ _ _ _ => false
  | .cmpltI _ _ _ _ _ _ => false
  | .cmpltN _ _ _ _ _ _ => false
  | .cmpleI _ _ _ _ _ _ => false
  | .cmpleN _ _ _ _ _ _ => false
  | .cmpne _ _ _ _ _ _ => false
  | .and _ _ _ _ _ _ => false
  | .or _ _ _ _ _ _ => false
  | .xor _ _ _ _ _ _ => false
  | .andn _ _ _ _ _ _ => false
  | .not _ _ _ _ => false
  | .mov _ _ _ _ _ => false
  | .sel _ _ _ _ _ _ => false
  | .movl _ _ _ _ _ => true
  | .popc _ _ _ _ => false
  | .clz _ _ _ _ => false
  | .ctz _ _ _ _ => false
  | .brev _ _ _ _ => false
  | .bfxN _ _ _ _ _ _ => false
  | .bfxI _ _ _ _ _ _ => false
  | .bfi _ _ _ _ _ _ => false
  | .rot _ _ _ _ _ _ => false
  | .abs _ _ _ _ _ => false
  | .pand _ _ _ _ _ => false
  | .por _ _ _ _ _ => false
  | .pxor _ _ _ _ _ => false
  | .pandn _ _ _ _ _ => false
  | .pnot _ _ _ _ => false
  | .xread _ _ _ _ _ _ _ _ => true
  | .xshuf _ _ _ _ _ _ => true
  | .xbcast _ _ _ _ _ _ => true
  | .redand _ _ _ _ _ => false
  | .redor _ _ _ _ _ => false
  | .redfadd _ _ _ _ _ => false
  | .redfmax _ _ _ _ _ => false
  | .fadd _ _ _ _ _ _ _ => false
  | .fsub _ _ _ _ _ _ _ => false
  | .fmul _ _ _ _ _ _ _ => false
  | .fma _ _ _ _ _ _ _ => false
  | .fmin _ _ _ _ _ _ _ => false
  | .fmax _ _ _ _ _ _ _ => false
  | .fabs _ _ _ _ _ => false
  | .fneg _ _ _ _ _ => false
  | .fcmpeq _ _ _ _ _ _ => false
  | .fcmplt _ _ _ _ _ _ => false
  | .fcmple _ _ _ _ _ _ => false
  | .fcmpun _ _ _ _ _ _ => false
  | .cvt _ _ _ _ _ _ _ => false
  | .cvtSat _ _ _ _ _ _ _ => false
  | .redadd _ _ _ _ _ _ => false
  | .redminI _ _ _ _ _ _ => false
  | .redminN _ _ _ _ _ _ => false
  | .redmaxI _ _ _ _ _ _ => false
  | .redmaxN _ _ _ _ _ _ => false
  | .scanadd _ _ _ _ _ _ => false
  | .scanmaxI _ _ _ _ _ _ => false
  | .scanmaxN _ _ _ _ _ _ => false
  | .addScalar _ _ _ => false
  | .subScalar _ _ _ => false
  | .mulScalar _ _ _ => false
  | .andScalar _ _ _ => false
  | .orScalar _ _ _ => false
  | .xorScalar _ _ _ => false
  | .shlScalar _ _ _ => false
  | .shrNScalar _ _ _ => false
  | .shrIScalar _ _ _ => false
  | .minIScalar _ _ _ => false
  | .maxIScalar _ _ _ => false
  | .minNScalar _ _ _ => false
  | .maxNScalar _ _ _ => false
  | .movlScalar _ _ _ => true
  | .cmpeqScalar _ _ _ => false
  | .cmpltScalar _ _ _ => false
  | .rcp _ _ _ _ _ => false
  | .rsq _ _ _ _ _ => false
  | .sqrt _ _ _ _ _ => false
  | .exp2 _ _ _ _ _ => false
  | .log2 _ _ _ _ _ => false
  | .sin _ _ _ _ _ => false
  | .cos _ _ _ _ _ => false
  | .tanh _ _ _ _ _ => false
  | .ldgN _ _ _ _ _ _ _ => false
  | .ldgI _ _ _ _ _ _ _ => false
  | .stg _ _ _ _ _ _ _ => false
  | .ldgNf _ _ _ _ _ _ _ => false
  | .ldsN _ _ _ _ _ _ _ => false
  | .ldsI _ _ _ _ _ _ _ => false
  | .sts _ _ _ _ _ _ _ => false
  | .ldr _ _ _ _ _ _ => false
  | .str _ _ _ _ _ _ => false
  | .lda _ _ _ _ _ _ => false
  | .sta _ _ _ _ _ _ => false
  | .ldp _ _ _ _ _ _ _ => false
  | .stp _ _ _ _ _ _ _ => false
  | .ldgScalar _ _ _ => false
  | .stgScalar _ _ _ => false
  | .ldsScalar _ _ _ => false
  | .stsScalar _ _ _ => false
  | .atomgAdd _ _ _ _ _ _ _ => false
  | .atomgMinI _ _ _ _ _ _ _ => false
  | .atomgMinN _ _ _ _ _ _ _ => false
  | .atomgMaxI _ _ _ _ _ _ _ => false
  | .atomgMaxN _ _ _ _ _ _ _ => false
  | .atomgAnd _ _ _ _ _ _ _ => false
  | .atomgOr _ _ _ _ _ _ _ => false
  | .atomgXor _ _ _ _ _ _ _ => false
  | .atomgXchg _ _ _ _ _ _ _ => false
  | .atomgCas _ _ _ _ _ _ _ => false
  | .atomgAddBf16x2 _ _ _ _ _ _ => false
  | .atomgAddF32 _ _ _ _ _ _ => false
  | .atomgGrab _ _ _ => false
  | .atomsAdd _ _ _ _ _ _ _ => false
  | .atomsMinI _ _ _ _ _ _ _ => false
  | .atomsMinN _ _ _ _ _ _ _ => false
  | .atomsMaxI _ _ _ _ _ _ _ => false
  | .atomsMaxN _ _ _ _ _ _ _ => false
  | .atomsAnd _ _ _ _ _ _ _ => false
  | .atomsOr _ _ _ _ _ _ _ => false
  | .atomsXor _ _ _ _ _ _ _ => false
  | .atomsXchg _ _ _ _ _ _ _ => false
  | .atomsCas _ _ _ _ _ _ _ => false
  | .fence _ => false
  | .pref _ _ _ _ _ => false
  | .reqpage _ _ _ _ _ => false
  | .l1inv _ _ _ _ _ => false
  | .l1inva => false
  | .tileMma _ _ => false
  | .tileZero _ _ => false
  | .tileMov _ _ _ => false
  | .tileAdd _ _ _ => false
  | .tileScale _ _ _ => false
  | .tileQuery _ => false
  | .cpin _ _ _ _ => false
  | .cpout _ _ _ _ => false
  | .cpwb _ _ _ _ => false
  | .lock _ _ _ => false
  | .unlock _ _ _ => false
  | .wkey _ => false
  | .fig _ _ _ _ _ _ _ _ _ => true
  | .figld _ _ _ _ => true
  | .figunld _ => false
  | .stn _ _ _ _ _ => false
  | .stnRel _ _ _ _ _ => false
  | .stnF _ _ _ _ _ _ => true
  | .nameget _ => false
  | .namerel => false
  | .tender _ _ _ => false
  | .serve _ => false
  | .take _ _ _ => false
  | .mcast _ _ _ => false
  | .redx _ _ _ => false
  | .nop _ _ => false
  | .bra _ _ _ => false
  | .brx _ _ _ => false
  | .call _ _ _ => false
  | .ret _ _ _ => false
  | .exit _ _ => false
  | .yield => false
  | .bar _ _ => false
  | .barc _ _ _ => false
  | .commit => false
  | .pass => false
  | .elect _ _ _ => false
  | .trap _ _ _ => false
  | .loop _ _ _ => false
  | .wait _ _ _ _ => false
  | .flagset _ => false
  | .flagclr _ => false
  | .xlock => false
  | .xunlock => false
  | .arm _ _ => false
  | .getid _ _ _ _ => false
  | .setmode _ _ => false
  | .lnext => false
  | .waitpred => false
  | .waitdone => false
  | .csrrd _ _ => false
  | .csrwr _ _ => false
  | .rft => false
  | .tlbinv _ _ _ => false
  | .lkeyld _ _ => false
  | .lkeyarm _ _ => false
  | .bidf _ _ => false
  | .halt => false
  | .replay _ => false
  | .evrd _ _ => false
  | .evsel _ _ => false
  | .loadCompletion _ _ => false
  | .storeAccept _ _ => false
  | .loadAtHome _ _ => false
  | .atomicAtHome _ _ => false
  | .l1LineExpiry _ _ => false
  | .pageWalkComplete _ _ _ => false
  | .fenceComplete _ => false
  | .tlbinvComplete _ => false
  | .lnextRelease _ => false
  | .faultFilterAdmit _ => false
  | .faultStageForward _ => false
  | .faultStagePost _ _ => false
  | .faultPostRetry _ _ => false
  | .replayRelease _ => false
  | .engineWordEnqueue _ => false
  | .copyStart _ _ => false
  | .copyRow _ _ => false
  | .copyRetire _ _ => false
  | .tileStart _ => false
  | .tileKblock _ => false
  | .tileComplete _ => false
  | .tileOpComplete _ => false
  | .figSlotClear _ => false
  | .definitionCacheFill _ _ _ => false
  | .figureExecute _ _ => false
  | .figureCombine _ _ => false
  | .combineEntryAge _ _ => false
  | .tileFigureChannel _ => false
  | .figldApply _ => false
  | .figunldApply _ => false
  | .wcbAgeDrain _ _ => false
  | .podWriteApply _ => false
  | .podLoadServe _ _ => false
  | .podRefusal _ => false
  | .hostRefusal _ _ _ => false
  | .stnDelivery _ => false
  | .stnArrival _ => false
  | .stnRefusal _ => false
  | .heatBroadcast _ => false
  | .heatBid _ _ => false
  | .heatBidReceive _ _ => false
  | .heatWindowClose _ => false
  | .heatAward _ => false
  | .heatResult _ => false
  | .tokenArrival _ => false
  | .barrierComplete _ _ _ => false
  | .squadRetire _ => false
  | .launchRetire _ => false
  | .placement _ => false
  | .preemptionRequest _ _ => false
  | .contextSave _ _ => false
  | .contextRestore _ _ => false
  | .doorbell _ _ _ => false
  | .schedulerBind => false
  | .sliceExpiry _ => false
  | .launchPacket _ => false
  | .prefetchPacket _ => false
  | .signalPacket _ => false
  | .waitsigPacket _ => false
  | .waitsigRecheck _ => false
  | .graphPacket _ => false
  | .hostKill _ _ => false
  | .hostReplay _ _ => false
  | .hostPreempt _ _ => false
  | .exportWindowWrite _ _ _ => false
  | .dieEventSelect _ _ _ => false
  | .groomerConfigWrite _ _ _ => false
  | .channelErrorLogClear _ _ _ => false
  | .functionErrorLogClear _ _ => false
  | .mailboxAttest => false
  | .mailboxPower => false
  | .mailboxSensors => false
  | .mailboxLinkreset => false
  | .registerWrite _ _ _ _ => false
  | .channelRequestArrival _ _ _ _ _ => false
  | .channelIssue _ => false
  | .bankRefresh _ _ => false
  | .groomerRead _ => false
  | .groomerPeriodExpiry _ => false
  | .flitReceive _ _ => false
  | .nakReceive _ _ => false
  | .ackReceive _ _ => false
  | .keyLimitReached _ => false
  | .linkTrained _ => false
  | .mcastSwitchBranch _ => false
  | .mcastLineApply _ _ => false
  | .redxSpineCombine _ => false
  | .redxResultWrite _ => false
  | .powerOn _ => false
  | .throttleEntry => false
  | .throttleExit => false
  | .moduleHalt => false
  | .memoryReadRequest _ _ _ _ => false
  | .flitBoundary _ => false

/-- The first word of an instruction (R28, R32, R36 to R45); 0 for a device step, which has none. -/
def encodeWord : Instr → Nat
  | .clauseFetch _ => 0
  | .clauseIssue _ => 0
  | .add w g n m d a b => w.toNat * 16777216 + g.toNat * 1048576 + n.toNat * 524288 + m.toNat * 262144 + d.toNat * 4096 + a.toNat * 64 + b.toNat
  | .sub w g n m d a b => 0x4000000 + w.toNat * 16777216 + g.toNat * 1048576 + n.toNat * 524288 + m.toNat * 262144 + d.toNat * 4096 + a.toNat * 64 + b.toNat
  | .mul w g n m d a b => 0x8000000 + w.toNat * 16777216 + g.toNat * 1048576 + n.toNat * 524288 + m.toNat * 262144 + d.toNat * 4096 + a.toNat * 64 + b.toNat
  | .mulhI w g n m d a b => 0xc000000 + w.toNat * 16777216 + g.toNat * 1048576 + n.toNat * 524288 + m.toNat * 262144 + d.toNat * 4096 + a.toNat * 64 + b.toNat
  | .mulhN w g n m d a b => 0x10000000 + w.toNat * 16777216 + g.toNat * 1048576 + n.toNat * 524288 + m.toNat * 262144 + d.toNat * 4096 + a.toNat * 64 + b.toNat
  | .addISat w g n m d a b => 0x14000000 + w.toNat * 16777216 + g.toNat * 1048576 + n.toNat * 524288 + m.toNat * 262144 + d.toNat * 4096 + a.toNat * 64 + b.toNat
  | .addNSat w g n m d a b => 0x18000000 + w.toNat * 16777216 + g.toNat * 1048576 + n.toNat * 524288 + m.toNat * 262144 + d.toNat * 4096 + a.toNat * 64 + b.toNat
  | .subISat w g n m d a b => 0x1c000000 + w.toNat * 16777216 + g.toNat * 1048576 + n.toNat * 524288 + m.toNat * 262144 + d.toNat * 4096 + a.toNat * 64 + b.toNat
  | .subNSat w g n m d a b => 0x20000000 + w.toNat * 16777216 + g.toNat * 1048576 + n.toNat * 524288 + m.toNat * 262144 + d.toNat * 4096 + a.toNat * 64 + b.toNat
  | .avgI w g n m d a b => 0x24000000 + w.toNat * 16777216 + g.toNat * 1048576 + n.toNat * 524288 + m.toNat * 262144 + d.toNat * 4096 + a.toNat * 64 + b.toNat
  | .avgN w g n m d a b => 0x28000000 + w.toNat * 16777216 + g.toNat * 1048576 + n.toNat * 524288 + m.toNat * 262144 + d.toNat * 4096 + a.toNat * 64 + b.toNat
  | .minI w g n m d a b => 0x2c000000 + w.toNat * 16777216 + g.toNat * 1048576 + n.toNat * 524288 + m.toNat * 262144 + d.toNat * 4096 + a.toNat * 64 + b.toNat
  | .minN w g n m d a b => 0x30000000 + w.toNat * 16777216 + g.toNat * 1048576 + n.toNat * 524288 + m.toNat * 262144 + d.toNat * 4096 + a.toNat * 64 + b.toNat
  | .maxI w g n m d a b => 0x34000000 + w.toNat * 16777216 + g.toNat * 1048576 + n.toNat * 524288 + m.toNat * 262144 + d.toNat * 4096 + a.toNat * 64 + b.toNat
  | .maxN w g n m d a b => 0x38000000 + w.toNat * 16777216 + g.toNat * 1048576 + n.toNat * 524288 + m.toNat * 262144 + d.toNat * 4096 + a.toNat * 64 + b.toNat
  | .shl w g n m d a b => 0x3c000000 + w.toNat * 16777216 + g.toNat * 1048576 + n.toNat * 524288 + m.toNat * 262144 + d.toNat * 4096 + a.toNat * 64 + b.toNat
  | .shrN w g n m d a b => 0x40000000 + w.toNat * 16777216 + g.toNat * 1048576 + n.toNat * 524288 + m.toNat * 262144 + d.toNat * 4096 + a.toNat * 64 + b.toNat
  | .shrI w g n m d a b => 0x44000000 + w.toNat * 16777216 + g.toNat * 1048576 + n.toNat * 524288 + m.toNat * 262144 + d.toNat * 4096 + a.toNat * 64 + b.toNat
  | .cmpeq w g n p a b => 0x48000000 + w.toNat * 16777216 + g.toNat * 1048576 + n.toNat * 524288 + p.toNat * 4096 + a.toNat * 64 + b.toNat
  | .cmpltI w g n p a b => 0x4c000000 + w.toNat * 16777216 + g.toNat * 1048576 + n.toNat * 524288 + p.toNat * 4096 + a.toNat * 64 + b.toNat
  | .cmpltN w g n p a b => 0x50000000 + w.toNat * 16777216 + g.toNat * 1048576 + n.toNat * 524288 + p.toNat * 4096 + a.toNat * 64 + b.toNat
  | .cmpleI w g n p a b => 0x54000000 + w.toNat * 16777216 + g.toNat * 1048576 + n.toNat * 524288 + p.toNat * 4096 + a.toNat * 64 + b.toNat
  | .cmpleN w g n p a b => 0x58000000 + w.toNat * 16777216 + g.toNat * 1048576 + n.toNat * 524288 + p.toNat * 4096 + a.toNat * 64 + b.toNat
  | .cmpne w g n p a b => 0x5c000000 + w.toNat * 16777216 + g.toNat * 1048576 + n.toNat * 524288 + p.toNat * 4096 + a.toNat * 64 + b.toNat
  | .and g n m d a b => 0x60000000 + g.toNat * 1048576 + n.toNat * 524288 + m.toNat * 262144 + d.toNat * 4096 + a.toNat * 64 + b.toNat
  | .or g n m d a b => 0x61000000 + g.toNat * 1048576 + n.toNat * 524288 + m.toNat * 262144 + d.toNat * 4096 + a.toNat * 64 + b.toNat
  | .xor g n m d a b => 0x62000000 + g.toNat * 1048576 + n.toNat * 524288 + m.toNat * 262144 + d.toNat * 4096 + a.toNat * 64 + b.toNat
  | .andn g n m d a b => 0x63000000 + g.toNat * 1048576 + n.toNat * 524288 + m.toNat * 262144 + d.toNat * 4096 + a.toNat * 64 + b.toNat
  | .not g n d a => 0x64000000 + g.toNat * 1048576 + n.toNat * 524288 + d.toNat * 4096 + a.toNat * 64
  | .mov g n m d b => 0x65000000 + g.toNat * 1048576 + n.toNat * 524288 + m.toNat * 262144 + d.toNat * 4096 + b.toNat
  | .sel g n m d a b => 0x66000000 + g.toNat * 1048576 + n.toNat * 524288 + m.toNat * 262144 + d.toNat * 4096 + a.toNat * 64 + b.toNat
  | .movl g n m d _ => 0x67000000 + g.toNat * 1048576 + n.toNat * 524288 + m.toNat * 262144 + d.toNat * 4096
  | .popc g n d a => 0x68000000 + g.toNat * 1048576 + n.toNat * 524288 + d.toNat * 4096 + a.toNat * 64
  | .clz g n d a => 0x69000000 + g.toNat * 1048576 + n.toNat * 524288 + d.toNat * 4096 + a.toNat * 64
  | .ctz g n d a => 0x6a000000 + g.toNat * 1048576 + n.toNat * 524288 + d.toNat * 4096 + a.toNat * 64
  | .brev g n d a => 0x6b000000 + g.toNat * 1048576 + n.toNat * 524288 + d.toNat * 4096 + a.toNat * 64
  | .bfxN g n m d a b => 0x6c000000 + g.toNat * 1048576 + n.toNat * 524288 + m.toNat * 262144 + d.toNat * 4096 + a.toNat * 64 + b.toNat
  | .bfxI g n m d a b => 0x6d000000 + g.toNat * 1048576 + n.toNat * 524288 + m.toNat * 262144 + d.toNat * 4096 + a.toNat * 64 + b.toNat
  | .bfi g n m d a b => 0x6e000000 + g.toNat * 1048576 + n.toNat * 524288 + m.toNat * 262144 + d.toNat * 4096 + a.toNat * 64 + b.toNat
  | .rot g n m d a b => 0x6f000000 + g.toNat * 1048576 + n.toNat * 524288 + m.toNat * 262144 + d.toNat * 4096 + a.toNat * 64 + b.toNat
  | .abs w g n d a => 0x70000000 + w.toNat * 16777216 + g.toNat * 1048576 + n.toNat * 524288 + d.toNat * 4096 + a.toNat * 64
  | .pand g n p a b => 0x74000000 + g.toNat * 1048576 + n.toNat * 524288 + p.toNat * 4096 + a.toNat * 64 + b.toNat
  | .por g n p a b => 0x75000000 + g.toNat * 1048576 + n.toNat * 524288 + p.toNat * 4096 + a.toNat * 64 + b.toNat
  | .pxor g n p a b => 0x76000000 + g.toNat * 1048576 + n.toNat * 524288 + p.toNat * 4096 + a.toNat * 64 + b.toNat
  | .pandn g n p a b => 0x77000000 + g.toNat * 1048576 + n.toNat * 524288 + p.toNat * 4096 + a.toNat * 64 + b.toNat
  | .pnot g n p a => 0x78000000 + g.toNat * 1048576 + n.toNat * 524288 + p.toNat * 4096 + a.toNat * 64
  | .xread g n p d a _ _ _ => 0x79000000 + g.toNat * 1048576 + n.toNat * 524288 + p.toNat * 4096 + d.toNat * 64 + a.toNat
  | .xshuf g n p d a _ => 0x7a000000 + g.toNat * 1048576 + n.toNat * 524288 + p.toNat * 4096 + d.toNat * 64 + a.toNat
  | .xbcast g n p d a _ => 0x7b000000 + g.toNat * 1048576 + n.toNat * 524288 + p.toNat * 4096 + d.toNat * 64 + a.toNat
  | .redand g n d a b => 0x7c000000 + g.toNat * 1048576 + n.toNat * 524288 + d.toNat * 4096 + a.toNat * 64 + b.toNat
  | .redor g n d a b => 0x7d000000 + g.toNat * 1048576 + n.toNat * 524288 + d.toNat * 4096 + a.toNat * 64 + b.toNat
  | .redfadd g n d a b => 0x7e000000 + g.toNat * 1048576 + n.toNat * 524288 + d.toNat * 4096 + a.toNat * 64 + b.toNat
  | .redfmax g n d a b => 0x7f000000 + g.toNat * 1048576 + n.toNat * 524288 + d.toNat * 4096 + a.toNat * 64 + b.toNat
  | .fadd f g n m d a b => 0x80000000 + f.toNat * 16777216 + g.toNat * 1048576 + n.toNat * 524288 + m.toNat * 262144 + d.toNat * 4096 + a.toNat * 64 + b.toNat
  | .fsub f g n m d a b => 0x84000000 + f.toNat * 16777216 + g.toNat * 1048576 + n.toNat * 524288 + m.toNat * 262144 + d.toNat * 4096 + a.toNat * 64 + b.toNat
  | .fmul f g n m d a b => 0x88000000 + f.toNat * 16777216 + g.toNat * 1048576 + n.toNat * 524288 + m.toNat * 262144 + d.toNat * 4096 + a.toNat * 64 + b.toNat
  | .fma f g n m d a b => 0x8c000000 + f.toNat * 16777216 + g.toNat * 1048576 + n.toNat * 524288 + m.toNat * 262144 + d.toNat * 4096 + a.toNat * 64 + b.toNat
  | .fmin f g n m d a b => 0x90000000 + f.toNat * 16777216 + g.toNat * 1048576 + n.toNat * 524288 + m.toNat * 262144 + d.toNat * 4096 + a.toNat * 64 + b.toNat
  | .fmax f g n m d a b => 0x94000000 + f.toNat * 16777216 + g.toNat * 1048576 + n.toNat * 524288 + m.toNat * 262144 + d.toNat * 4096 + a.toNat * 64 + b.toNat
  | .fabs f g n d a => 0x98000000 + f.toNat * 16777216 + g.toNat * 1048576 + n.toNat * 524288 + d.toNat * 4096 + a.toNat * 64
  | .fneg f g n d a => 0x9c000000 + f.toNat * 16777216 + g.toNat * 1048576 + n.toNat * 524288 + d.toNat * 4096 + a.toNat * 64
  | .fcmpeq f g n p a b => 0xa0000000 + f.toNat * 16777216 + g.toNat * 1048576 + n.toNat * 524288 + p.toNat * 4096 + a.toNat * 64 + b.toNat
  | .fcmplt f g n p a b => 0xa4000000 + f.toNat * 16777216 + g.toNat * 1048576 + n.toNat * 524288 + p.toNat * 4096 + a.toNat * 64 + b.toNat
  | .fcmple f g n p a b => 0xa8000000 + f.toNat * 16777216 + g.toNat * 1048576 + n.toNat * 524288 + p.toNat * 4096 + a.toNat * 64 + b.toNat
  | .fcmpun f g n p a b => 0xac000000 + f.toNat * 16777216 + g.toNat * 1048576 + n.toNat * 524288 + p.toNat * 4096 + a.toNat * 64 + b.toNat
  | .cvt c g n d a b r => 0xb0000000 + c.toNat * 16777216 + g.toNat * 1048576 + n.toNat * 524288 + d.toNat * 8192 + a.toNat * 128 + b.toNat * 8 + r.toNat
  | .cvtSat c g n d a b r => 0xc0000000 + c.toNat * 16777216 + g.toNat * 1048576 + n.toNat * 524288 + d.toNat * 8192 + a.toNat * 128 + b.toNat * 8 + r.toNat
  | .redadd w g n d a b => 0xd0000000 + w.toNat * 16777216 + g.toNat * 1048576 + n.toNat * 524288 + d.toNat * 4096 + a.toNat * 64 + b.toNat
  | .redminI w g n d a b => 0xd4000000 + w.toNat * 16777216 + g.toNat * 1048576 + n.toNat * 524288 + d.toNat * 4096 + a.toNat * 64 + b.toNat
  | .redminN w g n d a b => 0xd8000000 + w.toNat * 16777216 + g.toNat * 1048576 + n.toNat * 524288 + d.toNat * 4096 + a.toNat * 64 + b.toNat
  | .redmaxI w g n d a b => 0xdc000000 + w.toNat * 16777216 + g.toNat * 1048576 + n.toNat * 524288 + d.toNat * 4096 + a.toNat * 64 + b.toNat
  | .redmaxN w g n d a b => 0xe0000000 + w.toNat * 16777216 + g.toNat * 1048576 + n.toNat * 524288 + d.toNat * 4096 + a.toNat * 64 + b.toNat
  | .scanadd w g n d a b => 0xe4000000 + w.toNat * 16777216 + g.toNat * 1048576 + n.toNat * 524288 + d.toNat * 4096 + a.toNat * 64 + b.toNat
  | .scanmaxI w g n d a b => 0xe8000000 + w.toNat * 16777216 + g.toNat * 1048576 + n.toNat * 524288 + d.toNat * 4096 + a.toNat * 64 + b.toNat
  | .scanmaxN w g n d a b => 0xec000000 + w.toNat * 16777216 + g.toNat * 1048576 + n.toNat * 524288 + d.toNat * 4096 + a.toNat * 64 + b.toNat
  | .addScalar d a b => 0xf0000000 + d.toNat * 4096 + a.toNat * 64 + b.toNat
  | .subScalar d a b => 0xf1000000 + d.toNat * 4096 + a.toNat * 64 + b.toNat
  | .mulScalar d a b => 0xf2000000 + d.toNat * 4096 + a.toNat * 64 + b.toNat
  | .andScalar d a b => 0xf3000000 + d.toNat * 4096 + a.toNat * 64 + b.toNat
  | .orScalar d a b => 0xf4000000 + d.toNat * 4096 + a.toNat * 64 + b.toNat
  | .xorScalar d a b => 0xf5000000 + d.toNat * 4096 + a.toNat * 64 + b.toNat
  | .shlScalar d a b => 0xf6000000 + d.toNat * 4096 + a.toNat * 64 + b.toNat
  | .shrNScalar d a b => 0xf7000000 + d.toNat * 4096 + a.toNat * 64 + b.toNat
  | .shrIScalar d a b => 0xf8000000 + d.toNat * 4096 + a.toNat * 64 + b.toNat
  | .minIScalar d a b => 0xf9000000 + d.toNat * 4096 + a.toNat * 64 + b.toNat
  | .maxIScalar d a b => 0xfa000000 + d.toNat * 4096 + a.toNat * 64 + b.toNat
  | .minNScalar d a b => 0xfb000000 + d.toNat * 4096 + a.toNat * 64 + b.toNat
  | .maxNScalar d a b => 0xfc000000 + d.toNat * 4096 + a.toNat * 64 + b.toNat
  | .movlScalar m d _ => 0xfd000000 + m.toNat * 262144 + d.toNat * 4096
  | .cmpeqScalar p a b => 0xfe000000 + p.toNat * 4096 + a.toNat * 64 + b.toNat
  | .cmpltScalar p a b => 0xff000000 + p.toNat * 4096 + a.toNat * 64 + b.toNat
  | .rcp f g n d a => f.toNat * 16777216 + g.toNat * 1048576 + n.toNat * 524288 + d.toNat * 4096 + a.toNat * 64
  | .rsq f g n d a => 0x4000000 + f.toNat * 16777216 + g.toNat * 1048576 + n.toNat * 524288 + d.toNat * 4096 + a.toNat * 64
  | .sqrt f g n d a => 0x8000000 + f.toNat * 16777216 + g.toNat * 1048576 + n.toNat * 524288 + d.toNat * 4096 + a.toNat * 64
  | .exp2 f g n d a => 0xc000000 + f.toNat * 16777216 + g.toNat * 1048576 + n.toNat * 524288 + d.toNat * 4096 + a.toNat * 64
  | .log2 f g n d a => 0x10000000 + f.toNat * 16777216 + g.toNat * 1048576 + n.toNat * 524288 + d.toNat * 4096 + a.toNat * 64
  | .sin f g n d a => 0x14000000 + f.toNat * 16777216 + g.toNat * 1048576 + n.toNat * 524288 + d.toNat * 4096 + a.toNat * 64
  | .cos f g n d a => 0x18000000 + f.toNat * 16777216 + g.toNat * 1048576 + n.toNat * 524288 + d.toNat * 4096 + a.toNat * 64
  | .tanh f g n d a => 0x1c000000 + f.toNat * 16777216 + g.toNat * 1048576 + n.toNat * 524288 + d.toNat * 4096 + a.toNat * 64
  | .ldgN w g n t b x o => w.toNat * 16777216 + g.toNat * 1048576 + n.toNat * 524288 + t.toNat * 8192 + b.toNat * 128 + x.toNat * 64 + o.toNat
  | .ldgI w g n t b x o => 0x4000000 + w.toNat * 16777216 + g.toNat * 1048576 + n.toNat * 524288 + t.toNat * 8192 + b.toNat * 128 + x.toNat * 64 + o.toNat
  | .stg w g n t b x o => 0x8000000 + w.toNat * 16777216 + g.toNat * 1048576 + n.toNat * 524288 + t.toNat * 8192 + b.toNat * 128 + x.toNat * 64 + o.toNat
  | .ldgNf w g n t b x o => 0xc000000 + w.toNat * 16777216 + g.toNat * 1048576 + n.toNat * 524288 + t.toNat * 8192 + b.toNat * 128 + x.toNat * 64 + o.toNat
  | .ldsN w g n t b x o => 0x10000000 + w.toNat * 16777216 + g.toNat * 1048576 + n.toNat * 524288 + t.toNat * 8192 + b.toNat * 128 + x.toNat * 64 + o.toNat
  | .ldsI w g n t b x o => 0x14000000 + w.toNat * 16777216 + g.toNat * 1048576 + n.toNat * 524288 + t.toNat * 8192 + b.toNat * 128 + x.toNat * 64 + o.toNat
  | .sts w g n t b x o => 0x18000000 + w.toNat * 16777216 + g.toNat * 1048576 + n.toNat * 524288 + t.toNat * 8192 + b.toNat * 128 + x.toNat * 64 + o.toNat
  | .ldr g n t b x o => 0x1c000000 + g.toNat * 1048576 + n.toNat * 524288 + t.toNat * 8192 + b.toNat * 128 + x.toNat * 64 + o.toNat
  | .str g n t b x o => 0x1d000000 + g.toNat * 1048576 + n.toNat * 524288 + t.toNat * 8192 + b.toNat * 128 + x.toNat * 64 + o.toNat
  | .lda g n t b x o => 0x1e000000 + g.toNat * 1048576 + n.toNat * 524288 + t.toNat * 8192 + b.toNat * 128 + x.toNat * 64 + o.toNat
  | .sta g n t b x o => 0x1f000000 + g.toNat * 1048576 + n.toNat * 524288 + t.toNat * 8192 + b.toNat * 128 + x.toNat * 64 + o.toNat
  | .ldp w g n t b x o => 0x20000000 + w.toNat * 16777216 + g.toNat * 1048576 + n.toNat * 524288 + t.toNat * 8192 + b.toNat * 128 + x.toNat * 64 + o.toNat
  | .stp w g n t b x o => 0x24000000 + w.toNat * 16777216 + g.toNat * 1048576 + n.toNat * 524288 + t.toNat * 8192 + b.toNat * 128 + x.toNat * 64 + o.toNat
  | .ldgScalar t b o => 0x28000000 + t.toNat * 8192 + b.toNat * 128 + o.toNat
  | .stgScalar t b o => 0x29000000 + t.toNat * 8192 + b.toNat * 128 + o.toNat
  | .ldsScalar t b o => 0x2a000000 + t.toNat * 8192 + b.toNat * 128 + o.toNat
  | .stsScalar t b o => 0x2b000000 + t.toNat * 8192 + b.toNat * 128 + o.toNat
  | .atomgAdd v g n t b x o => 0x40000000 + v.toNat * 16777216 + g.toNat * 1048576 + n.toNat * 524288 + t.toNat * 8192 + b.toNat * 128 + x.toNat * 64 + o.toNat
  | .atomgMinI v g n t b x o => 0x42000000 + v.toNat * 16777216 + g.toNat * 1048576 + n.toNat * 524288 + t.toNat * 8192 + b.toNat * 128 + x.toNat * 64 + o.toNat
  | .atomgMinN v g n t b x o => 0x44000000 + v.toNat * 16777216 + g.toNat * 1048576 + n.toNat * 524288 + t.toNat * 8192 + b.toNat * 128 + x.toNat * 64 + o.toNat
  | .atomgMaxI v g n t b x o => 0x46000000 + v.toNat * 16777216 + g.toNat * 1048576 + n.toNat * 524288 + t.toNat * 8192 + b.toNat * 128 + x.toNat * 64 + o.toNat
  | .atomgMaxN v g n t b x o => 0x48000000 + v.toNat * 16777216 + g.toNat * 1048576 + n.toNat * 524288 + t.toNat * 8192 + b.toNat * 128 + x.toNat * 64 + o.toNat
  | .atomgAnd v g n t b x o => 0x4a000000 + v.toNat * 16777216 + g.toNat * 1048576 + n.toNat * 524288 + t.toNat * 8192 + b.toNat * 128 + x.toNat * 64 + o.toNat
  | .atomgOr v g n t b x o => 0x4c000000 + v.toNat * 16777216 + g.toNat * 1048576 + n.toNat * 524288 + t.toNat * 8192 + b.toNat * 128 + x.toNat * 64 + o.toNat
  | .atomgXor v g n t b x o => 0x4e000000 + v.toNat * 16777216 + g.toNat * 1048576 + n.toNat * 524288 + t.toNat * 8192 + b.toNat * 128 + x.toNat * 64 + o.toNat
  | .atomgXchg v g n t b x o => 0x50000000 + v.toNat * 16777216 + g.toNat * 1048576 + n.toNat * 524288 + t.toNat * 8192 + b.toNat * 128 + x.toNat * 64 + o.toNat
  | .atomgCas v g n t b x o => 0x52000000 + v.toNat * 16777216 + g.toNat * 1048576 + n.toNat * 524288 + t.toNat * 8192 + b.toNat * 128 + x.toNat * 64 + o.toNat
  | .atomgAddBf16x2 g n t b x o => 0x54000000 + g.toNat * 1048576 + n.toNat * 524288 + t.toNat * 8192 + b.toNat * 128 + x.toNat * 64 + o.toNat
  | .atomgAddF32 g n t b x o => 0x55000000 + g.toNat * 1048576 + n.toNat * 524288 + t.toNat * 8192 + b.toNat * 128 + x.toNat * 64 + o.toNat
  | .atomgGrab t b o => 0x56000000 + t.toNat * 8192 + b.toNat * 128 + o.toNat
  | .atomsAdd v g n t b x o => 0x60000000 + v.toNat * 16777216 + g.toNat * 1048576 + n.toNat * 524288 + t.toNat * 8192 + b.toNat * 128 + x.toNat * 64 + o.toNat
  | .atomsMinI v g n t b x o => 0x62000000 + v.toNat * 16777216 + g.toNat * 1048576 + n.toNat * 524288 + t.toNat * 8192 + b.toNat * 128 + x.toNat * 64 + o.toNat
  | .atomsMinN v g n t b x o => 0x64000000 + v.toNat * 16777216 + g.toNat * 1048576 + n.toNat * 524288 + t.toNat * 8192 + b.toNat * 128 + x.toNat * 64 + o.toNat
  | .atomsMaxI v g n t b x o => 0x66000000 + v.toNat * 16777216 + g.toNat * 1048576 + n.toNat * 524288 + t.toNat * 8192 + b.toNat * 128 + x.toNat * 64 + o.toNat
  | .atomsMaxN v g n t b x o => 0x68000000 + v.toNat * 16777216 + g.toNat * 1048576 + n.toNat * 524288 + t.toNat * 8192 + b.toNat * 128 + x.toNat * 64 + o.toNat
  | .atomsAnd v g n t b x o => 0x6a000000 + v.toNat * 16777216 + g.toNat * 1048576 + n.toNat * 524288 + t.toNat * 8192 + b.toNat * 128 + x.toNat * 64 + o.toNat
  | .atomsOr v g n t b x o => 0x6c000000 + v.toNat * 16777216 + g.toNat * 1048576 + n.toNat * 524288 + t.toNat * 8192 + b.toNat * 128 + x.toNat * 64 + o.toNat
  | .atomsXor v g n t b x o => 0x6e000000 + v.toNat * 16777216 + g.toNat * 1048576 + n.toNat * 524288 + t.toNat * 8192 + b.toNat * 128 + x.toNat * 64 + o.toNat
  | .atomsXchg v g n t b x o => 0x70000000 + v.toNat * 16777216 + g.toNat * 1048576 + n.toNat * 524288 + t.toNat * 8192 + b.toNat * 128 + x.toNat * 64 + o.toNat
  | .atomsCas v g n t b x o => 0x72000000 + v.toNat * 16777216 + g.toNat * 1048576 + n.toNat * 524288 + t.toNat * 8192 + b.toNat * 128 + x.toNat * 64 + o.toNat
  | .fence c => 0x80000000 + c.toNat
  | .pref g n b x o => 0x81000000 + g.toNat * 1048576 + n.toNat * 524288 + b.toNat * 128 + x.toNat * 64 + o.toNat
  | .reqpage g n b x o => 0x82000000 + g.toNat * 1048576 + n.toNat * 524288 + b.toNat * 128 + x.toNat * 64 + o.toNat
  | .l1inv g n b x o => 0x83000000 + g.toNat * 1048576 + n.toNat * 524288 + b.toNat * 128 + x.toNat * 64 + o.toNat
  | .l1inva => 0x84000000
  | .tileMma b o => b.toNat * 128 + o.toNat
  | .tileZero d f => 0x1000000 + d.toNat * 8192 + f.toNat
  | .tileMov d a f => 0x2000000 + d.toNat * 8192 + a.toNat * 128 + f.toNat
  | .tileAdd d a f => 0x3000000 + d.toNat * 8192 + a.toNat * 128 + f.toNat
  | .tileScale d a f => 0x4000000 + d.toNat * 8192 + a.toNat * 128 + f.toNat
  | .tileQuery d => 0x5000000 + d.toNat * 8192
  | .cpin f b x o => f.toNat * 8192 + b.toNat * 128 + x.toNat * 64 + o.toNat
  | .cpout f b x o => 0x1000000 + f.toNat * 8192 + b.toNat * 128 + x.toNat * 64 + o.toNat
  | .cpwb f b x o => 0x2000000 + f.toNat * 8192 + b.toNat * 128 + x.toNat * 64 + o.toNat
  | .lock t b o => 0x3000000 + t.toNat * 8192 + b.toNat * 128 + o.toNat
  | .unlock t b o => 0x4000000 + t.toNat * 8192 + b.toNat * 128 + o.toNat
  | .wkey a => 0x5000000 + a.toNat * 128
  | .fig g n t b x o _ _ _ => g.toNat * 1048576 + n.toNat * 524288 + t.toNat * 8192 + b.toNat * 128 + x.toNat * 64 + o.toNat
  | .figld t b o _ => 0x1000000 + t.toNat * 8192 + b.toNat * 128 + o.toNat
  | .figunld b => 0x2000000 + b.toNat
  | .stn g n d a b => 0x3040000 + g.toNat * 1048576 + n.toNat * 524288 + d.toNat * 4096 + a.toNat * 64 + b.toNat
  | .stnRel g n d a b => 0x4040000 + g.toNat * 1048576 + n.toNat * 524288 + d.toNat * 4096 + a.toNat * 64 + b.toNat
  | .stnF g n d a b _ => 0x5040000 + g.toNat * 1048576 + n.toNat * 524288 + d.toNat * 4096 + a.toNat * 64 + b.toNat
  | .nameget d => 0x6000000 + d.toNat * 4096
  | .namerel => 0x7000000
  | .tender d a c => 0x8000000 + d.toNat * 8192 + a.toNat * 128 + c.toNat
  | .serve c => 0x9000000 + c.toNat
  | .take d a c => 0xa000000 + d.toNat * 8192 + a.toNat * 128 + c.toNat
  | .mcast d a f => 0xb000000 + d.toNat * 8192 + a.toNat * 128 + f.toNat
  | .redx d o f => 0xc000000 + d.toNat * 8192 + o.toNat * 16 + f.toNat
  | .nop g n => g.toNat * 1048576 + n.toNat * 524288
  | .bra g n f => 0x1000000 + g.toNat * 1048576 + n.toNat * 524288 + f.toNat
  | .brx g n a => 0x2000000 + g.toNat * 1048576 + n.toNat * 524288 + a.toNat * 64
  | .call g n f => 0x3000000 + g.toNat * 1048576 + n.toNat * 524288 + f.toNat
  | .ret g n a => 0x4000000 + g.toNat * 1048576 + n.toNat * 524288 + a.toNat * 64
  | .exit g n => 0x5000000 + g.toNat * 1048576 + n.toNat * 524288
  | .yield => 0x6000000
  | .bar p b => 0x7000000 + p.toNat * 4096 + b.toNat
  | .barc p a b => 0x8000000 + p.toNat * 4096 + a.toNat * 64 + b.toNat
  | .commit => 0x9000000
  | .pass => 0xa000000
  | .elect g n p => 0xb000000 + g.toNat * 1048576 + n.toNat * 524288 + p.toNat * 4096
  | .trap g n k => 0xc000000 + g.toNat * 1048576 + n.toNat * 524288 + k.toNat
  | .loop c l b => 0xd000000 + c.toNat * 131072 + l.toNat * 512 + b.toNat * 8
  | .wait l b c t => 0xe000000 + l.toNat * 16384 + b.toNat * 512 + c.toNat * 16 + t.toNat
  | .flagset m => 0xf000000 + m.toNat
  | .flagclr m => 0x10000000 + m.toNat
  | .xlock => 0x11000000
  | .xunlock => 0x12000000
  | .arm d c => 0x13000000 + d.toNat * 8192 + c.toNat
  | .getid g n d k => 0x14000000 + g.toNat * 1048576 + n.toNat * 524288 + d.toNat * 8192 + k.toNat
  | .setmode a m => 0x15000000 + a.toNat * 128 + m.toNat
  | .lnext => 0x16000000
  | .waitpred => 0x17000000
  | .waitdone => 0x18000000
  | .csrrd d c => d.toNat * 8192 + c.toNat
  | .csrwr b c => 0x1000000 + b.toNat * 8192 + c.toNat
  | .rft => 0x2000000
  | .tlbinv m a b => 0x3000000 + m.toNat * 262144 + a.toNat * 64 + b.toNat
  | .lkeyld a l => 0x4000000 + a.toNat * 128 + l.toNat
  | .lkeyarm a l => 0x5000000 + a.toNat * 128 + l.toNat
  | .bidf a c => 0x6000000 + a.toNat * 128 + c.toNat
  | .halt => 0x7000000
  | .replay a => 0x8000000 + a.toNat * 128
  | .evrd d n => 0x9000000 + d.toNat * 8192 + n.toNat
  | .evsel a n => 0xa000000 + a.toNat * 128 + n.toNat
  | .loadCompletion _ _ => 0
  | .storeAccept _ _ => 0
  | .loadAtHome _ _ => 0
  | .atomicAtHome _ _ => 0
  | .l1LineExpiry _ _ => 0
  | .pageWalkComplete _ _ _ => 0
  | .fenceComplete _ => 0
  | .tlbinvComplete _ => 0
  | .lnextRelease _ => 0
  | .faultFilterAdmit _ => 0
  | .faultStageForward _ => 0
  | .faultStagePost _ _ => 0
  | .faultPostRetry _ _ => 0
  | .replayRelease _ => 0
  | .engineWordEnqueue _ => 0
  | .copyStart _ _ => 0
  | .copyRow _ _ => 0
  | .copyRetire _ _ => 0
  | .tileStart _ => 0
  | .tileKblock _ => 0
  | .tileComplete _ => 0
  | .tileOpComplete _ => 0
  | .figSlotClear _ => 0
  | .definitionCacheFill _ _ _ => 0
  | .figureExecute _ _ => 0
  | .figureCombine _ _ => 0
  | .combineEntryAge _ _ => 0
  | .tileFigureChannel _ => 0
  | .figldApply _ => 0
  | .figunldApply _ => 0
  | .wcbAgeDrain _ _ => 0
  | .podWriteApply _ => 0
  | .podLoadServe _ _ => 0
  | .podRefusal _ => 0
  | .hostRefusal _ _ _ => 0
  | .stnDelivery _ => 0
  | .stnArrival _ => 0
  | .stnRefusal _ => 0
  | .heatBroadcast _ => 0
  | .heatBid _ _ => 0
  | .heatBidReceive _ _ => 0
  | .heatWindowClose _ => 0
  | .heatAward _ => 0
  | .heatResult _ => 0
  | .tokenArrival _ => 0
  | .barrierComplete _ _ _ => 0
  | .squadRetire _ => 0
  | .launchRetire _ => 0
  | .placement _ => 0
  | .preemptionRequest _ _ => 0
  | .contextSave _ _ => 0
  | .contextRestore _ _ => 0
  | .doorbell _ _ _ => 0
  | .schedulerBind => 0
  | .sliceExpiry _ => 0
  | .launchPacket _ => 0
  | .prefetchPacket _ => 0
  | .signalPacket _ => 0
  | .waitsigPacket _ => 0
  | .waitsigRecheck _ => 0
  | .graphPacket _ => 0
  | .hostKill _ _ => 0
  | .hostReplay _ _ => 0
  | .hostPreempt _ _ => 0
  | .exportWindowWrite _ _ _ => 0
  | .dieEventSelect _ _ _ => 0
  | .groomerConfigWrite _ _ _ => 0
  | .channelErrorLogClear _ _ _ => 0
  | .functionErrorLogClear _ _ => 0
  | .mailboxAttest => 0
  | .mailboxPower => 0
  | .mailboxSensors => 0
  | .mailboxLinkreset => 0
  | .registerWrite _ _ _ _ => 0
  | .channelRequestArrival _ _ _ _ _ => 0
  | .channelIssue _ => 0
  | .bankRefresh _ _ => 0
  | .groomerRead _ => 0
  | .groomerPeriodExpiry _ => 0
  | .flitReceive _ _ => 0
  | .nakReceive _ _ => 0
  | .ackReceive _ _ => 0
  | .keyLimitReached _ => 0
  | .linkTrained _ => 0
  | .mcastSwitchBranch _ => 0
  | .mcastLineApply _ _ => 0
  | .redxSpineCombine _ => 0
  | .redxResultWrite _ => 0
  | .powerOn _ => 0
  | .throttleEntry => 0
  | .throttleExit => 0
  | .moduleHalt => 0
  | .memoryReadRequest _ _ _ _ => 0
  | .flitBoundary _ => 0

/-- The literal word of an L-format instruction. -/
def encodeLit : Instr → Option Nat
  | .clauseFetch _ => none
  | .clauseIssue _ => none
  | .add _ _ _ _ _ _ _ => none
  | .sub _ _ _ _ _ _ _ => none
  | .mul _ _ _ _ _ _ _ => none
  | .mulhI _ _ _ _ _ _ _ => none
  | .mulhN _ _ _ _ _ _ _ => none
  | .addISat _ _ _ _ _ _ _ => none
  | .addNSat _ _ _ _ _ _ _ => none
  | .subISat _ _ _ _ _ _ _ => none
  | .subNSat _ _ _ _ _ _ _ => none
  | .avgI _ _ _ _ _ _ _ => none
  | .avgN _ _ _ _ _ _ _ => none
  | .minI _ _ _ _ _ _ _ => none
  | .minN _ _ _ _ _ _ _ => none
  | .maxI _ _ _ _ _ _ _ => none
  | .maxN _ _ _ _ _ _ _ => none
  | .shl _ _ _ _ _ _ _ => none
  | .shrN _ _ _ _ _ _ _ => none
  | .shrI _ _ _ _ _ _ _ => none
  | .cmpeq _ _ _ _ _ _ => none
  | .cmpltI _ _ _ _ _ _ => none
  | .cmpltN _ _ _ _ _ _ => none
  | .cmpleI _ _ _ _ _ _ => none
  | .cmpleN _ _ _ _ _ _ => none
  | .cmpne _ _ _ _ _ _ => none
  | .and _ _ _ _ _ _ => none
  | .or _ _ _ _ _ _ => none
  | .xor _ _ _ _ _ _ => none
  | .andn _ _ _ _ _ _ => none
  | .not _ _ _ _ => none
  | .mov _ _ _ _ _ => none
  | .sel _ _ _ _ _ _ => none
  | .movl _ _ _ _ lit => some (lit.toNat)
  | .popc _ _ _ _ => none
  | .clz _ _ _ _ => none
  | .ctz _ _ _ _ => none
  | .brev _ _ _ _ => none
  | .bfxN _ _ _ _ _ _ => none
  | .bfxI _ _ _ _ _ _ => none
  | .bfi _ _ _ _ _ _ => none
  | .rot _ _ _ _ _ _ => none
  | .abs _ _ _ _ _ => none
  | .pand _ _ _ _ _ => none
  | .por _ _ _ _ _ => none
  | .pxor _ _ _ _ _ => none
  | .pandn _ _ _ _ _ => none
  | .pnot _ _ _ _ => none
  | .xread _ _ _ _ _ t j w => some (t.toNat + j.toNat * 32 + w.toNat * 256)
  | .xshuf _ _ _ _ _ x => some (x.toNat)
  | .xbcast _ _ _ _ _ t => some (t.toNat)
  | .redand _ _ _ _ _ => none
  | .redor _ _ _ _ _ => none
  | .redfadd _ _ _ _ _ => none
  | .redfmax _ _ _ _ _ => none
  | .fadd _ _ _ _ _ _ _ => none
  | .fsub _ _ _ _ _ _ _ => none
  | .fmul _ _ _ _ _ _ _ => none
  | .fma _ _ _ _ _ _ _ => none
  | .fmin _ _ _ _ _ _ _ => none
  | .fmax _ _ _ _ _ _ _ => none
  | .fabs _ _ _ _ _ => none
  | .fneg _ _ _ _ _ => none
  | .fcmpeq _ _ _ _ _ _ => none
  | .fcmplt _ _ _ _ _ _ => none
  | .fcmple _ _ _ _ _ _ => none
  | .fcmpun _ _ _ _ _ _ => none
  | .cvt _ _ _ _ _ _ _ => none
  | .cvtSat _ _ _ _ _ _ _ => none
  | .redadd _ _ _ _ _ _ => none
  | .redminI _ _ _ _ _ _ => none
  | .redminN _ _ _ _ _ _ => none
  | .redmaxI _ _ _ _ _ _ => none
  | .redmaxN _ _ _ _ _ _ => none
  | .scanadd _ _ _ _ _ _ => none
  | .scanmaxI _ _ _ _ _ _ => none
  | .scanmaxN _ _ _ _ _ _ => none
  | .addScalar _ _ _ => none
  | .subScalar _ _ _ => none
  | .mulScalar _ _ _ => none
  | .andScalar _ _ _ => none
  | .orScalar _ _ _ => none
  | .xorScalar _ _ _ => none
  | .shlScalar _ _ _ => none
  | .shrNScalar _ _ _ => none
  | .shrIScalar _ _ _ => none
  | .minIScalar _ _ _ => none
  | .maxIScalar _ _ _ => none
  | .minNScalar _ _ _ => none
  | .maxNScalar _ _ _ => none
  | .movlScalar _ _ lit => some (lit.toNat)
  | .cmpeqScalar _ _ _ => none
  | .cmpltScalar _ _ _ => none
  | .rcp _ _ _ _ _ => none
  | .rsq _ _ _ _ _ => none
  | .sqrt _ _ _ _ _ => none
  | .exp2 _ _ _ _ _ => none
  | .log2 _ _ _ _ _ => none
  | .sin _ _ _ _ _ => none
  | .cos _ _ _ _ _ => none
  | .tanh _ _ _ _ _ => none
  | .ldgN _ _ _ _ _ _ _ => none
  | .ldgI _ _ _ _ _ _ _ => none
  | .stg _ _ _ _ _ _ _ => none
  | .ldgNf _ _ _ _ _ _ _ => none
  | .ldsN _ _ _ _ _ _ _ => none
  | .ldsI _ _ _ _ _ _ _ => none
  | .sts _ _ _ _ _ _ _ => none
  | .ldr _ _ _ _ _ _ => none
  | .str _ _ _ _ _ _ => none
  | .lda _ _ _ _ _ _ => none
  | .sta _ _ _ _ _ _ => none
  | .ldp _ _ _ _ _ _ _ => none
  | .stp _ _ _ _ _ _ _ => none
  | .ldgScalar _ _ _ => none
  | .stgScalar _ _ _ => none
  | .ldsScalar _ _ _ => none
  | .stsScalar _ _ _ => none
  | .atomgAdd _ _ _ _ _ _ _ => none
  | .atomgMinI _ _ _ _ _ _ _ => none
  | .atomgMinN _ _ _ _ _ _ _ => none
  | .atomgMaxI _ _ _ _ _ _ _ => none
  | .atomgMaxN _ _ _ _ _ _ _ => none
  | .atomgAnd _ _ _ _ _ _ _ => none
  | .atomgOr _ _ _ _ _ _ _ => none
  | .atomgXor _ _ _ _ _ _ _ => none
  | .atomgXchg _ _ _ _ _ _ _ => none
  | .atomgCas _ _ _ _ _ _ _ => none
  | .atomgAddBf16x2 _ _ _ _ _ _ => none
  | .atomgAddF32 _ _ _ _ _ _ => none
  | .atomgGrab _ _ _ => none
  | .atomsAdd _ _ _ _ _ _ _ => none
  | .atomsMinI _ _ _ _ _ _ _ => none
  | .atomsMinN _ _ _ _ _ _ _ => none
  | .atomsMaxI _ _ _ _ _ _ _ => none
  | .atomsMaxN _ _ _ _ _ _ _ => none
  | .atomsAnd _ _ _ _ _ _ _ => none
  | .atomsOr _ _ _ _ _ _ _ => none
  | .atomsXor _ _ _ _ _ _ _ => none
  | .atomsXchg _ _ _ _ _ _ _ => none
  | .atomsCas _ _ _ _ _ _ _ => none
  | .fence _ => none
  | .pref _ _ _ _ _ => none
  | .reqpage _ _ _ _ _ => none
  | .l1inv _ _ _ _ _ => none
  | .l1inva => none
  | .tileMma _ _ => none
  | .tileZero _ _ => none
  | .tileMov _ _ _ => none
  | .tileAdd _ _ _ => none
  | .tileScale _ _ _ => none
  | .tileQuery _ => none
  | .cpin _ _ _ _ => none
  | .cpout _ _ _ _ => none
  | .cpwb _ _ _ _ => none
  | .lock _ _ _ => none
  | .unlock _ _ _ => none
  | .wkey _ => none
  | .fig _ _ _ _ _ _ k f e => some (k.toNat + f.toNat * 64 + e.toNat * 1024)
  | .figld _ _ _ k => some (k.toNat)
  | .figunld _ => none
  | .stn _ _ _ _ _ => none
  | .stnRel _ _ _ _ _ => none
  | .stnF _ _ _ _ _ f => some (f.toNat)
  | .nameget _ => none
  | .namerel => none
  | .tender _ _ _ => none
  | .serve _ => none
  | .take _ _ _ => none
  | .mcast _ _ _ => none
  | .redx _ _ _ => none
  | .nop _ _ => none
  | .bra _ _ _ => none
  | .brx _ _ _ => none
  | .call _ _ _ => none
  | .ret _ _ _ => none
  | .exit _ _ => none
  | .yield => none
  | .bar _ _ => none
  | .barc _ _ _ => none
  | .commit => none
  | .pass => none
  | .elect _ _ _ => none
  | .trap _ _ _ => none
  | .loop _ _ _ => none
  | .wait _ _ _ _ => none
  | .flagset _ => none
  | .flagclr _ => none
  | .xlock => none
  | .xunlock => none
  | .arm _ _ => none
  | .getid _ _ _ _ => none
  | .setmode _ _ => none
  | .lnext => none
  | .waitpred => none
  | .waitdone => none
  | .csrrd _ _ => none
  | .csrwr _ _ => none
  | .rft => none
  | .tlbinv _ _ _ => none
  | .lkeyld _ _ => none
  | .lkeyarm _ _ => none
  | .bidf _ _ => none
  | .halt => none
  | .replay _ => none
  | .evrd _ _ => none
  | .evsel _ _ => none
  | .loadCompletion _ _ => none
  | .storeAccept _ _ => none
  | .loadAtHome _ _ => none
  | .atomicAtHome _ _ => none
  | .l1LineExpiry _ _ => none
  | .pageWalkComplete _ _ _ => none
  | .fenceComplete _ => none
  | .tlbinvComplete _ => none
  | .lnextRelease _ => none
  | .faultFilterAdmit _ => none
  | .faultStageForward _ => none
  | .faultStagePost _ _ => none
  | .faultPostRetry _ _ => none
  | .replayRelease _ => none
  | .engineWordEnqueue _ => none
  | .copyStart _ _ => none
  | .copyRow _ _ => none
  | .copyRetire _ _ => none
  | .tileStart _ => none
  | .tileKblock _ => none
  | .tileComplete _ => none
  | .tileOpComplete _ => none
  | .figSlotClear _ => none
  | .definitionCacheFill _ _ _ => none
  | .figureExecute _ _ => none
  | .figureCombine _ _ => none
  | .combineEntryAge _ _ => none
  | .tileFigureChannel _ => none
  | .figldApply _ => none
  | .figunldApply _ => none
  | .wcbAgeDrain _ _ => none
  | .podWriteApply _ => none
  | .podLoadServe _ _ => none
  | .podRefusal _ => none
  | .hostRefusal _ _ _ => none
  | .stnDelivery _ => none
  | .stnArrival _ => none
  | .stnRefusal _ => none
  | .heatBroadcast _ => none
  | .heatBid _ _ => none
  | .heatBidReceive _ _ => none
  | .heatWindowClose _ => none
  | .heatAward _ => none
  | .heatResult _ => none
  | .tokenArrival _ => none
  | .barrierComplete _ _ _ => none
  | .squadRetire _ => none
  | .launchRetire _ => none
  | .placement _ => none
  | .preemptionRequest _ _ => none
  | .contextSave _ _ => none
  | .contextRestore _ _ => none
  | .doorbell _ _ _ => none
  | .schedulerBind => none
  | .sliceExpiry _ => none
  | .launchPacket _ => none
  | .prefetchPacket _ => none
  | .signalPacket _ => none
  | .waitsigPacket _ => none
  | .waitsigRecheck _ => none
  | .graphPacket _ => none
  | .hostKill _ _ => none
  | .hostReplay _ _ => none
  | .hostPreempt _ _ => none
  | .exportWindowWrite _ _ _ => none
  | .dieEventSelect _ _ _ => none
  | .groomerConfigWrite _ _ _ => none
  | .channelErrorLogClear _ _ _ => none
  | .functionErrorLogClear _ _ => none
  | .mailboxAttest => none
  | .mailboxPower => none
  | .mailboxSensors => none
  | .mailboxLinkreset => none
  | .registerWrite _ _ _ _ => none
  | .channelRequestArrival _ _ _ _ _ => none
  | .channelIssue _ => none
  | .bankRefresh _ _ => none
  | .groomerRead _ => none
  | .groomerPeriodExpiry _ => none
  | .flitReceive _ _ => none
  | .nakReceive _ _ => none
  | .ackReceive _ _ => none
  | .keyLimitReached _ => none
  | .linkTrained _ => none
  | .mcastSwitchBranch _ => none
  | .mcastLineApply _ _ => none
  | .redxSpineCombine _ => none
  | .redxResultWrite _ => none
  | .powerOn _ => none
  | .throttleEntry => none
  | .throttleExit => none
  | .moduleHalt => none
  | .memoryReadRequest _ _ _ _ => none
  | .flitBoundary _ => none

/-- The words of a well-formed instruction, in address order; none for a device step. -/
def encode (i : Instr) : List (BitVec 32) :=
  match i.cls with
  | none => []
  | some _ =>
    BitVec.ofNat 32 (encodeWord i) :: (match encodeLit i with | none => [] | some l => [BitVec.ofNat 32 l])

/-- How many bits of the first word a row fixes: the opcode and the reserved fields. -/
def Instr.fixedBits : Instr → Nat
  | .clauseFetch _ => 0
  | .clauseIssue _ => 0
  | .add _ _ _ _ _ _ _ => 6
  | .sub _ _ _ _ _ _ _ => 6
  | .mul _ _ _ _ _ _ _ => 6
  | .mulhI _ _ _ _ _ _ _ => 6
  | .mulhN _ _ _ _ _ _ _ => 6
  | .addISat _ _ _ _ _ _ _ => 6
  | .addNSat _ _ _ _ _ _ _ => 6
  | .subISat _ _ _ _ _ _ _ => 6
  | .subNSat _ _ _ _ _ _ _ => 6
  | .avgI _ _ _ _ _ _ _ => 6
  | .avgN _ _ _ _ _ _ _ => 6
  | .minI _ _ _ _ _ _ _ => 6
  | .minN _ _ _ _ _ _ _ => 6
  | .maxI _ _ _ _ _ _ _ => 6
  | .maxN _ _ _ _ _ _ _ => 6
  | .shl _ _ _ _ _ _ _ => 6
  | .shrN _ _ _ _ _ _ _ => 6
  | .shrI _ _ _ _ _ _ _ => 6
  | .cmpeq _ _ _ _ _ _ => 6
  | .cmpltI _ _ _ _ _ _ => 6
  | .cmpltN _ _ _ _ _ _ => 6
  | .cmpleI _ _ _ _ _ _ => 6
  | .cmpleN _ _ _ _ _ _ => 6
  | .cmpne _ _ _ _ _ _ => 6
  | .and _ _ _ _ _ _ => 8
  | .or _ _ _ _ _ _ => 8
  | .xor _ _ _ _ _ _ => 8
  | .andn _ _ _ _ _ _ => 8
  | .not _ _ _ _ => 15
  | .mov _ _ _ _ _ => 14
  | .sel _ _ _ _ _ _ => 8
  | .movl _ _ _ _ _ => 20
  | .popc _ _ _ _ => 15
  | .clz _ _ _ _ => 15
  | .ctz _ _ _ _ => 15
  | .brev _ _ _ _ => 15
  | .bfxN _ _ _ _ _ _ => 8
  | .bfxI _ _ _ _ _ _ => 8
  | .bfi _ _ _ _ _ _ => 8
  | .rot _ _ _ _ _ _ => 8
  | .abs _ _ _ _ _ => 13
  | .pand _ _ _ _ _ => 8
  | .por _ _ _ _ _ => 8
  | .pxor _ _ _ _ _ => 8
  | .pandn _ _ _ _ _ => 8
  | .pnot _ _ _ _ => 14
  | .xread _ _ _ _ _ _ _ _ => 8
  | .xshuf _ _ _ _ _ _ => 8
  | .xbcast _ _ _ _ _ _ => 8
  | .redand _ _ _ _ _ => 9
  | .redor _ _ _ _ _ => 9
  | .redfadd _ _ _ _ _ => 9
  | .redfmax _ _ _ _ _ => 9
  | .fadd _ _ _ _ _ _ _ => 6
  | .fsub _ _ _ _ _ _ _ => 6
  | .fmul _ _ _ _ _ _ _ => 6
  | .fma _ _ _ _ _ _ _ => 6
  | .fmin _ _ _ _ _ _ _ => 6
  | .fmax _ _ _ _ _ _ _ => 6
  | .fabs _ _ _ _ _ => 13
  | .fneg _ _ _ _ _ => 13
  | .fcmpeq _ _ _ _ _ _ => 6
  | .fcmplt _ _ _ _ _ _ => 6
  | .fcmple _ _ _ _ _ _ => 6
  | .fcmpun _ _ _ _ _ _ => 6
  | .cvt _ _ _ _ _ _ _ => 4
  | .cvtSat _ _ _ _ _ _ _ => 4
  | .redadd _ _ _ _ _ _ => 7
  | .redminI _ _ _ _ _ _ => 7
  | .redminN _ _ _ _ _ _ => 7
  | .redmaxI _ _ _ _ _ _ => 7
  | .redmaxN _ _ _ _ _ _ => 7
  | .scanadd _ _ _ _ _ _ => 7
  | .scanmaxI _ _ _ _ _ _ => 7
  | .scanmaxN _ _ _ _ _ _ => 7
  | .addScalar _ _ _ => 14
  | .subScalar _ _ _ => 14
  | .mulScalar _ _ _ => 14
  | .andScalar _ _ _ => 14
  | .orScalar _ _ _ => 14
  | .xorScalar _ _ _ => 14
  | .shlScalar _ _ _ => 14
  | .shrNScalar _ _ _ => 14
  | .shrIScalar _ _ _ => 14
  | .minIScalar _ _ _ => 14
  | .maxIScalar _ _ _ => 14
  | .minNScalar _ _ _ => 14
  | .maxNScalar _ _ _ => 14
  | .movlScalar _ _ _ => 25
  | .cmpeqScalar _ _ _ => 13
  | .cmpltScalar _ _ _ => 13
  | .rcp _ _ _ _ _ => 13
  | .rsq _ _ _ _ _ => 13
  | .sqrt _ _ _ _ _ => 13
  | .exp2 _ _ _ _ _ => 13
  | .log2 _ _ _ _ _ => 13
  | .sin _ _ _ _ _ => 13
  | .cos _ _ _ _ _ => 13
  | .tanh _ _ _ _ _ => 13
  | .ldgN _ _ _ _ _ _ _ => 6
  | .ldgI _ _ _ _ _ _ _ => 6
  | .stg _ _ _ _ _ _ _ => 6
  | .ldgNf _ _ _ _ _ _ _ => 6
  | .ldsN _ _ _ _ _ _ _ => 6
  | .ldsI _ _ _ _ _ _ _ => 6
  | .sts _ _ _ _ _ _ _ => 6
  | .ldr _ _ _ _ _ _ => 8
  | .str _ _ _ _ _ _ => 8
  | .lda _ _ _ _ _ _ => 8
  | .sta _ _ _ _ _ _ => 8
  | .ldp _ _ _ _ _ _ _ => 6
  | .stp _ _ _ _ _ _ _ => 6
  | .ldgScalar _ _ _ => 14
  | .stgScalar _ _ _ => 14
  | .ldsScalar _ _ _ => 14
  | .stsScalar _ _ _ => 14
  | .atomgAdd _ _ _ _ _ _ _ => 7
  | .atomgMinI _ _ _ _ _ _ _ => 7
  | .atomgMinN _ _ _ _ _ _ _ => 7
  | .atomgMaxI _ _ _ _ _ _ _ => 7
  | .atomgMaxN _ _ _ _ _ _ _ => 7
  | .atomgAnd _ _ _ _ _ _ _ => 7
  | .atomgOr _ _ _ _ _ _ _ => 7
  | .atomgXor _ _ _ _ _ _ _ => 7
  | .atomgXchg _ _ _ _ _ _ _ => 7
  | .atomgCas _ _ _ _ _ _ _ => 7
  | .atomgAddBf16x2 _ _ _ _ _ _ => 8
  | .atomgAddF32 _ _ _ _ _ _ => 8
  | .atomgGrab _ _ _ => 14
  | .atomsAdd _ _ _ _ _ _ _ => 7
  | .atomsMinI _ _ _ _ _ _ _ => 7
  | .atomsMinN _ _ _ _ _ _ _ => 7
  | .atomsMaxI _ _ _ _ _ _ _ => 7
  | .atomsMaxN _ _ _ _ _ _ _ => 7
  | .atomsAnd _ _ _ _ _ _ _ => 7
  | .atomsOr _ _ _ _ _ _ _ => 7
  | .atomsXor _ _ _ _ _ _ _ => 7
  | .atomsXchg _ _ _ _ _ _ _ => 7
  | .atomsCas _ _ _ _ _ _ _ => 7
  | .fence _ => 30
  | .pref _ _ _ _ _ => 14
  | .reqpage _ _ _ _ _ => 14
  | .l1inv _ _ _ _ _ => 14
  | .l1inva => 32
  | .tileMma _ _ => 20
  | .tileZero _ _ => 22
  | .tileMov _ _ _ => 16
  | .tileAdd _ _ _ => 16
  | .tileScale _ _ _ => 16
  | .tileQuery _ => 26
  | .cpin _ _ _ _ => 15
  | .cpout _ _ _ _ => 15
  | .cpwb _ _ _ _ => 15
  | .lock _ _ _ => 14
  | .unlock _ _ _ => 14
  | .wkey _ => 26
  | .fig _ _ _ _ _ _ _ _ _ => 8
  | .figld _ _ _ _ => 14
  | .figunld _ => 26
  | .stn _ _ _ _ _ => 9
  | .stnRel _ _ _ _ _ => 9
  | .stnF _ _ _ _ _ _ => 9
  | .nameget _ => 26
  | .namerel => 32
  | .tender _ _ _ => 16
  | .serve _ => 28
  | .take _ _ _ => 16
  | .mcast _ _ _ => 16
  | .redx _ _ _ => 19
  | .nop _ _ => 27
  | .bra _ _ _ => 8
  | .brx _ _ _ => 21
  | .call _ _ _ => 8
  | .ret _ _ _ => 21
  | .exit _ _ => 27
  | .yield => 32
  | .bar _ _ => 21
  | .barc _ _ _ => 15
  | .commit => 32
  | .pass => 32
  | .elect _ _ _ => 20
  | .trap _ _ _ => 20
  | .loop _ _ _ => 16
  | .wait _ _ _ _ => 13
  | .flagset _ => 20
  | .flagclr _ => 20
  | .xlock => 32
  | .xunlock => 32
  | .arm _ _ => 20
  | .getid _ _ _ _ => 14
  | .setmode _ _ => 23
  | .lnext => 32
  | .waitpred => 32
  | .waitdone => 32
  | .csrrd _ _ => 14
  | .csrwr _ _ => 14
  | .rft => 32
  | .tlbinv _ _ _ => 19
  | .lkeyld _ _ => 22
  | .lkeyarm _ _ => 22
  | .bidf _ _ => 22
  | .halt => 32
  | .replay _ => 26
  | .evrd _ _ => 22
  | .evsel _ _ => 22
  | .loadCompletion _ _ => 0
  | .storeAccept _ _ => 0
  | .loadAtHome _ _ => 0
  | .atomicAtHome _ _ => 0
  | .l1LineExpiry _ _ => 0
  | .pageWalkComplete _ _ _ => 0
  | .fenceComplete _ => 0
  | .tlbinvComplete _ => 0
  | .lnextRelease _ => 0
  | .faultFilterAdmit _ => 0
  | .faultStageForward _ => 0
  | .faultStagePost _ _ => 0
  | .faultPostRetry _ _ => 0
  | .replayRelease _ => 0
  | .engineWordEnqueue _ => 0
  | .copyStart _ _ => 0
  | .copyRow _ _ => 0
  | .copyRetire _ _ => 0
  | .tileStart _ => 0
  | .tileKblock _ => 0
  | .tileComplete _ => 0
  | .tileOpComplete _ => 0
  | .figSlotClear _ => 0
  | .definitionCacheFill _ _ _ => 0
  | .figureExecute _ _ => 0
  | .figureCombine _ _ => 0
  | .combineEntryAge _ _ => 0
  | .tileFigureChannel _ => 0
  | .figldApply _ => 0
  | .figunldApply _ => 0
  | .wcbAgeDrain _ _ => 0
  | .podWriteApply _ => 0
  | .podLoadServe _ _ => 0
  | .podRefusal _ => 0
  | .hostRefusal _ _ _ => 0
  | .stnDelivery _ => 0
  | .stnArrival _ => 0
  | .stnRefusal _ => 0
  | .heatBroadcast _ => 0
  | .heatBid _ _ => 0
  | .heatBidReceive _ _ => 0
  | .heatWindowClose _ => 0
  | .heatAward _ => 0
  | .heatResult _ => 0
  | .tokenArrival _ => 0
  | .barrierComplete _ _ _ => 0
  | .squadRetire _ => 0
  | .launchRetire _ => 0
  | .placement _ => 0
  | .preemptionRequest _ _ => 0
  | .contextSave _ _ => 0
  | .contextRestore _ _ => 0
  | .doorbell _ _ _ => 0
  | .schedulerBind => 0
  | .sliceExpiry _ => 0
  | .launchPacket _ => 0
  | .prefetchPacket _ => 0
  | .signalPacket _ => 0
  | .waitsigPacket _ => 0
  | .waitsigRecheck _ => 0
  | .graphPacket _ => 0
  | .hostKill _ _ => 0
  | .hostReplay _ _ => 0
  | .hostPreempt _ _ => 0
  | .exportWindowWrite _ _ _ => 0
  | .dieEventSelect _ _ _ => 0
  | .groomerConfigWrite _ _ _ => 0
  | .channelErrorLogClear _ _ _ => 0
  | .functionErrorLogClear _ _ => 0
  | .mailboxAttest => 0
  | .mailboxPower => 0
  | .mailboxSensors => 0
  | .mailboxLinkreset => 0
  | .registerWrite _ _ _ _ => 0
  | .channelRequestArrival _ _ _ _ _ => 0
  | .channelIssue _ => 0
  | .bankRefresh _ _ => 0
  | .groomerRead _ => 0
  | .groomerPeriodExpiry _ => 0
  | .flitReceive _ _ => 0
  | .nakReceive _ _ => 0
  | .ackReceive _ _ => 0
  | .keyLimitReached _ => 0
  | .linkTrained _ => 0
  | .mcastSwitchBranch _ => 0
  | .mcastLineApply _ _ => 0
  | .redxSpineCombine _ => 0
  | .redxResultWrite _ => 0
  | .powerOn _ => 0
  | .throttleEntry => 0
  | .throttleExit => 0
  | .moduleHalt => 0
  | .memoryReadRequest _ _ _ _ => 0
  | .flitBoundary _ => 0

/-- The instruction of class `cls` that a table word holds, with its number of fixed bits. -/
def tableCandidate (w lit cls : Nat) : Option (Instr × Nat) :=
  match decode cls w (some lit) with
  | .ok i => some (i, i.fixedBits)
  | .error _ => none

/-- The better of two readings: the one that fixes more bits, the earlier on a tie. -/
def betterCandidate (x y : Option (Instr × Nat)) : Option (Instr × Nat) :=
  match x, y with
  | none, y => y
  | x, none => x
  | some (i, p), some (j, q) => if p < q then some (j, q) else some (i, p)

/-- The instruction a table word stands for. The class is in the clause header (R21), not in the word, so one word can be
an instruction of several classes: the reading whose row fixes the most bits is taken, the lower class number on a tie.
DESIGN CHOICE (log 1). Bits [63:32] are the literal of an L-format word. -/
def decodeTableWord (nbits w : Nat) : Option Instr :=
  let v := w % 2 ^ nbits
  let w0 := v % 4294967296
  let w1 := v / 4294967296 % 4294967296
  ([1, 2, 3, 4, 5, 6, 7].foldl (fun acc c => betterCandidate acc (tableCandidate w0 w1 c)) (tableCandidate w0 w1 0)).map (·.1)

end Sys2Proof
end

