-- ==== Sys2Proof/Config.lean ====
section
/-!
DEFINITION. What the module's makers fix and the manual does not publish, and the free values of the model.
Every constant here has no body, so no proof can rest on a value of it.
-/
namespace Sys2Proof

/-- R119. Which F32 value within the bound each special function returns: function 0 to 7, input pattern.
Merward does not publish it. The model takes this value when it lies within the bound (log 5). -/
opaque Config.sfnF32 : Nat → Word → Word

/-- A value the manual leaves open, by the position in the run at which it is drawn (log 3). -/
opaque Config.freeValue : Nat → Reg

/-- R16, R18, R333. What a firmware image sets: the device id, the physical addresses of the name directory and of the queue
table, the groomer's threshold and period, and the link settings (log 6). -/
opaque Config.imageDevice : List Byte → BitVec 12
opaque Config.imageDirectory : List Byte → BitVec 52
opaque Config.imageQueueTable : List Byte → BitVec 52
opaque Config.imageThreshold : List Byte → BitVec 7
opaque Config.imagePeriod : List Byte → Word
opaque Config.imageLinks : List Byte → List Byte

/-- R27, R55. The control blocks of the regions whose squads are management firmware, as an image names them (log 62). -/
opaque Config.imageFirmware : List Byte → List Nat

/-- R9. The set of its home slice that a line falls into, by its physical address divided by 128 (log 9). -/
opaque Config.l2Set : Nat → BitVec 9

/-- R321. The reason byte of an error-log entry of a kind, for a case of refusal (log 22). -/
opaque Config.logReason : Nat → Nat → Byte

/-- R307. Byte i of what the device writes in its own format at a save, by the position in the run (log 21). -/
opaque Config.ownByte : Nat → Nat → Byte

/-- R328. The bank and the row of its channel that a line falls into, by its physical address divided by 128 (log 9). -/
opaque Config.rowOf : Nat → Nat × Nat

/-- R329. How many rows a channel has, and the lines of a row of a channel (log 9). -/
opaque Config.rowsPerChannel : Nat
opaque Config.linesOfRow : Nat → Nat → List Nat

/-- R333. Does the image's signature check out against Merward's key? -/
opaque Config.imageGood : List Byte → Bool

/-- R334. The identity certificate in the module's flash, and the signature with the identity key: 96 bytes (log 23). -/
opaque Config.certificate : List Byte
opaque Config.sign : List Byte → List Byte

/-- R336. The codes that the mailbox gives the power states BRINGUP and THROTTLED (log 27). -/
opaque Config.powerCode : Nat → Byte

/-- R315. The CRC-32 of a flit's header (log 24). -/
opaque Config.crc32 : List Byte → Word

/-- R313, R315. The payload of a flit, by the position in the run; the flit holds its first 224 bytes, with zeros behind a shorter one
(log 24). -/
opaque Config.payload : Nat → List Byte

/-- R313. A packet from another device as its payload carries it: source, sequence number, kind (0 a drained write, 1 a load,
2 a figure, 3 a multicast line, 4 a named store), offset, size, a device, a number, and data (log 24). -/
structure WirePacket where
  src : Nat := 0
  seq : Word := 0
  kind : Nat := 0
  off : Nat := 0
  size : Nat := 0
  reg : Nat := 0
  name : Word := 0
  mask : Word := 0
  operand : Nat := 0
  ret : Bool := false
  data : List (Nat × Nat) := []
  image : List Byte := []
  deriving DecidableEq, Repr

/-- R313. The packets of a payload (log 24). -/
opaque Config.packets : List Byte → List WirePacket

/-- R320. The contribution of another member to a reduction, by the position in the run and the device; and whether the
members agree (log 25). -/
opaque Config.peerVector : Nat → Nat → List Byte
opaque Config.peersAgree : Nat → Bool

end Sys2Proof
end

