-- ==== Sys2Proof/Machine/Number.lean ====
section
/-!
DEFINITION. Number formats, exact values, the five roundings and the arithmetic on them (R102 to R118).
An exact finite value is a sign, a natural mantissa and an exponent of two: (-1)^neg * m * 2^e.
-/
namespace Sys2Proof.Machine

/-- R102. The floating formats. -/
inductive Fmt where
  | f32 | f16 | bf16 | e4m3 | e5m2 | e2m1 | e8m0
  deriving DecidableEq, Repr

/-- R102. Mantissa bits of a format. -/
def Fmt.man : Fmt → Nat
  | .f32 => 23 | .f16 => 10 | .bf16 => 7 | .e4m3 => 3 | .e5m2 => 2 | .e2m1 => 1 | .e8m0 => 0

/-- R102. Exponent bits of a format. -/
def Fmt.exp : Fmt → Nat
  | .f32 => 8 | .f16 => 5 | .bf16 => 8 | .e4m3 => 4 | .e5m2 => 5 | .e2m1 => 2 | .e8m0 => 8

/-- R102. Exponent bias. -/
def Fmt.bias : Fmt → Nat
  | .f32 => 127 | .f16 => 15 | .bf16 => 127 | .e4m3 => 7 | .e5m2 => 15 | .e2m1 => 1 | .e8m0 => 127

/-- R102. Width in bits. -/
def Fmt.width : Fmt → Nat
  | .f32 => 32 | .f16 => 16 | .bf16 => 16 | .e4m3 => 8 | .e5m2 => 8 | .e2m1 => 4 | .e8m0 => 8

/-- R103. Formats with an infinity. -/
def Fmt.hasInf : Fmt → Bool
  | .f32 => true | .f16 => true | .bf16 => true | .e5m2 => true
  | .e4m3 => false | .e2m1 => false | .e8m0 => false

/-- The value of the sign bit's place: one bit above exponent and mantissa. -/
def Fmt.signBit (f : Fmt) : Nat := 2 ^ (f.man + f.exp)

/-- R103. The bits of +infinity in a format that has one. -/
def Fmt.infBits (f : Fmt) : Nat := (2 ^ f.exp - 1) * 2 ^ f.man

/-- R102. The bits of the largest finite value. -/
def Fmt.maxBits : Fmt → Nat
  | .e4m3 => 0x7E
  | .e2m1 => 0x7
  | .e8m0 => 0xFE
  | f => f.infBits - 1

/-- R103. The canonical NaN; 0 for E2M1, which has none. -/
def Fmt.nanBits : Fmt → Nat
  | .e4m3 => 0x7F
  | .e2m1 => 0
  | .e8m0 => 0xFF
  | f => f.infBits + 2 ^ (f.man - 1)

/-- A datum: a finite value, an infinity or a NaN. -/
inductive FVal where
  | fin (neg : Bool) (m : Nat) (e : Int)
  | inf (neg : Bool)
  | nan (neg : Bool)
  deriving DecidableEq, Repr

/-- R102, R103. The datum that a bit pattern holds. -/
def Fmt.decode (f : Fmt) (w : Nat) : FVal :=
  match f with
  | .e8m0 => if w % 256 = 255 then .nan false else .fin false 1 ((w % 256 : Nat) - 127)
  | _ =>
    let neg := w / f.signBit % 2 == 1
    let mag := w % f.signBit
    let ef := mag / 2 ^ f.man
    let mf := mag % 2 ^ f.man
    if f.hasInf && mag == f.infBits then .inf neg
    else if f.hasInf && decide (mag > f.infBits) then .nan neg
    else if f == .e4m3 && mag == 0x7F then .nan neg
    else if ef = 0 then .fin neg mf (1 - (f.bias : Int) - f.man)
    else .fin neg (2 ^ f.man + mf) ((ef : Int) - f.bias - f.man)

/-- R106. The rounding modes. -/
inductive RMode where
  | rne | rtz | rup | rdn | rs
  deriving DecidableEq, Repr

/-- R60. The mode that a mode-word code names. -/
def rmodeOf : Nat → RMode
  | 0 => .rne | 1 => .rtz | 2 => .rup | 3 => .rdn | _ => .rs

/-- R107. One advance of a generator word. -/
def genAdvance (g : Word) : Word :=
  let g1 := g ^^^ (g <<< 13)
  let g2 := g1 ^^^ (g1 >>> 17)
  g2 ^^^ (g2 <<< 5)

/-- R108. The seed of thread `t`. -/
def genSeed (seed : Word) (t : Nat) : Word :=
  let g := seed ^^^ BitVec.ofNat 32 ((t + 1) * 0x9E3779B1)
  if g = 0 then 0x9E3779B1#32 else g

/-- R106, R107. Does a rounding choose u over t? `odd` is the lowest kept bit of t, and the discarded part is
rem / 2^sh of one step, with 0 < rem; `g` is the generator already advanced. -/
def roundsUp (mode : RMode) (neg odd : Bool) (rem sh : Nat) (g : Word) : Bool :=
  match mode with
  | .rne => decide (2 ^ sh < 2 * rem) || (decide (2 * rem = 2 ^ sh) && odd)
  | .rtz => false
  | .rup => !neg
  | .rdn => neg
  | .rs => decide (g.toNat < rem * 2 ^ 32 / 2 ^ sh)

/-- A magnitude m * 2^e, m > 0, as an integer count of steps of 2^q: the floor, the remainder and its shift. -/
def toSteps (m : Nat) (e q : Int) : Nat × Nat × Nat :=
  if q ≤ e then (m * 2 ^ (e - q).toNat, 0, 0)
  else
    let sh := (q - e).toNat
    (m / 2 ^ sh, m % 2 ^ sh, sh)

/-- R106. The code (exponent and mantissa fields as one number, unbounded above) of a rounded magnitude m * 2^e, m > 0. -/
def roundMag (f : Fmt) (mode : RMode) (neg : Bool) (m : Nat) (e : Int) (g : Word) : Nat :=
  let top := (Nat.log2 m : Int) + e
  let emin := 1 - (f.bias : Int)
  let q := max top emin - f.man
  let st := toSteps m e q
  let k := if st.2.1 = 0 then st.1
    else if roundsUp mode neg (st.1 % 2 == 1) st.2.1 st.2.2 g then st.1 + 1 else st.1
  (q - (emin - f.man)).toNat * 2 ^ f.man + k

/-- R106, R113. The magnitude bits that an overflow delivers. -/
def overflowMag (f : Fmt) (mode : RMode) (neg sat : Bool) : Nat :=
  if sat || f == .e2m1 then f.maxBits
  else
    let toInf := match mode with
      | .rne => true | .rs => true | .rtz => false | .rup => !neg | .rdn => neg
    if toInf then (if f.hasInf then f.infBits else f.nanBits) else f.maxBits

/-- The bits of a signed magnitude. -/
def Fmt.withSign (f : Fmt) (neg : Bool) (mag : Nat) : Nat := if neg then f.signBit + mag else mag

/-- R106. The finite value (-1)^neg * m * 2^e rounded into a format other than E8M0. -/
def roundFin (f : Fmt) (mode : RMode) (sat neg : Bool) (m : Nat) (e : Int) (g : Word) : Nat :=
  if m = 0 then f.withSign neg 0
  else
    let code := roundMag f mode neg m e g
    f.withSign neg (if code ≤ f.maxBits then code else overflowMag f mode neg sat)

/-- R103. The canonical NaN of a format carrying a sign; +0 for E2M1 (R113). -/
def Fmt.nanOf (f : Fmt) (neg : Bool) : Nat :=
  match f with
  | .e2m1 => 0
  | .e8m0 => 0xFF
  | f => f.withSign neg f.nanBits

/-- R115. A value converted into E8M0. -/
def roundE8M0 (mode : RMode) (sat : Bool) (x : FVal) (g : Word) : Nat :=
  match x with
  | .nan _ => 0xFF
  | .inf neg => if neg then (if sat then 0x00 else 0xFF) else (if sat then 0xFE else 0xFF)
  | .fin neg m e =>
    if m = 0 || neg then (if sat then 0x00 else 0xFF)
    else
      let top := (Nat.log2 m : Int) + e
      if top < -127 then 0x00
      else
        let code := (top + 127).toNat
        let st := toSteps m e top
        let code' := if st.2.1 = 0 then code
          else if roundsUp mode false (code % 2 == 1) st.2.1 st.2.2 g then code + 1 else code
        if code' ≤ 0xFE then code'
        else if sat then 0xFE
        else match mode with
          | .rtz => 0xFE | .rdn => 0xFE | _ => 0xFF

/-- R113, R115. A datum converted into a floating format. -/
def convertFloat (f : Fmt) (mode : RMode) (sat : Bool) (x : FVal) (g : Word) : Nat :=
  if f = .e8m0 then roundE8M0 mode sat x g
  else match x with
    | .fin neg m e => roundFin f mode sat neg m e g
    | .nan neg => f.nanOf neg
    | .inf neg =>
      if sat || f == .e2m1 then f.withSign neg f.maxBits
      else if f.hasInf then f.withSign neg f.infBits
      else f.withSign neg f.nanBits

/-- R114. A finite value rounded to an integer. -/
def roundToInt (mode : RMode) (neg : Bool) (m : Nat) (e : Int) (g : Word) : Int :=
  if m = 0 then 0
  else
    let st := toSteps m e 0
    let k := if st.2.1 = 0 then st.1
      else if roundsUp mode neg (st.1 % 2 == 1) st.2.1 st.2.2 g then st.1 + 1 else st.1
    if neg then -(k : Int) else k

/-- R114. The least and greatest values of an integer type. -/
def intRange (signed : Bool) (W : Nat) : Int × Int :=
  if signed then (-(2 ^ (W - 1)), 2 ^ (W - 1) - 1) else (0, 2 ^ W - 1)

/-- R114. The pattern delivered where a value has no integer: 1 followed by zeros, or all ones. -/
def intInvalid (signed : Bool) (W : Nat) : Nat := if signed then 2 ^ (W - 1) else 2 ^ W - 1

/-- R114. A datum converted into an integer format. -/
def convertInt (signed : Bool) (W : Nat) (mode : RMode) (sat : Bool) (x : FVal) (g : Word) : Nat :=
  let r := intRange signed W
  match x with
  | .nan _ => if sat then 0 else intInvalid signed W
  | .inf neg => if sat then modW W (if neg then r.1 else r.2) else intInvalid signed W
  | .fin neg m e =>
    let k := roundToInt mode neg m e g
    if r.1 ≤ k ∧ k ≤ r.2 then modW W k
    else if sat then modW W (if k < r.1 then r.1 else r.2)
    else intInvalid signed W

/-- R114. An integer converted into an integer format. -/
def convertIntInt (signed : Bool) (W : Nat) (sat : Bool) (v : Int) : Nat :=
  let r := intRange signed W
  if sat then modW W (min (max v r.1) r.2) else modW W v

/-- The exact value of an integer. -/
def FVal.ofInt (v : Int) : FVal := .fin (decide (v < 0)) v.natAbs 0

/-- The opposite of a datum's sign. -/
def FVal.negate : FVal → FVal
  | .fin n m e => .fin (!n) m e
  | .inf n => .inf (!n)
  | .nan n => .nan n

/-- A signed mantissa at exponent `q`, q at most the value's own exponent. -/
def scaledInt (neg : Bool) (m : Nat) (e q : Int) : Int :=
  let k : Int := ((m * 2 ^ (e - q).toNat : Nat) : Int)
  if neg then -k else k

/-- The exact sum of two data (R109): infinities and NaNs, and the sign of an exact zero (R106). -/
def FVal.add (mode : RMode) (x y : FVal) : FVal :=
  match x, y with
  | .nan _, _ => .nan false
  | _, .nan _ => .nan false
  | .inf a, .inf b => if a = b then .inf a else .nan false
  | .inf a, .fin _ _ _ => .inf a
  | .fin _ _ _, .inf b => .inf b
  | .fin a m e, .fin b n f =>
    let q := min e f
    let v := scaledInt a m e q + scaledInt b n f q
    if v = 0 then
      (if m = 0 && n = 0 && a == b then .fin a 0 0 else .fin (mode == .rdn) 0 0)
    else .fin (decide (v < 0)) v.natAbs q

/-- The exact product of two data (R109). -/
def FVal.mul (x y : FVal) : FVal :=
  match x, y with
  | .nan _, _ => .nan false
  | _, .nan _ => .nan false
  | .inf a, .inf b => .inf (a != b)
  | .inf a, .fin b n _ => if n = 0 then .nan false else .inf (a != b)
  | .fin a m _, .inf b => if m = 0 then .nan false else .inf (a != b)
  | .fin a m e, .fin b n f => .fin (a != b) (m * n) (e + f)

/-- R103, R109. An arithmetic result: rounded once, a NaN canonical with S = 0. -/
def arithResult (f : Fmt) (mode : RMode) (x : FVal) (g : Word) : Nat :=
  match x with
  | .nan _ => f.nanBits
  | .inf neg => f.withSign neg f.infBits
  | .fin neg m e => roundFin f mode false neg m e g

/-- R110. FADD. -/
def fadd (f : Fmt) (mode : RMode) (a b : Nat) (g : Word) : Nat :=
  arithResult f mode ((f.decode a).add mode (f.decode b)) g

/-- R110. FSUB. -/
def fsub (f : Fmt) (mode : RMode) (a b : Nat) (g : Word) : Nat :=
  arithResult f mode ((f.decode a).add mode (f.decode b).negate) g

/-- R110. FMUL. -/
def fmul (f : Fmt) (mode : RMode) (a b : Nat) (g : Word) : Nat :=
  arithResult f mode ((f.decode a).mul (f.decode b)) g

/-- R109, R110. FMA, rounded once. -/
def fma (f : Fmt) (mode : RMode) (a b d : Nat) (g : Word) : Nat :=
  arithResult f mode (((f.decode a).mul (f.decode b)).add mode (f.decode d)) g

/-- Is the datum a NaN? -/
def FVal.isNan : FVal → Bool
  | .nan _ => true
  | .fin _ _ _ => false
  | .inf _ => false

/-- The order of two data that are not NaN, as the sign of x - y; zeros are equal. -/
def FVal.cmp (x y : FVal) : Int :=
  match x, y with
  | .inf a, .inf b => if a = b then 0 else if a then -1 else 1
  | .inf a, _ => if a then -1 else 1
  | _, .inf b => if b then 1 else -1
  | .fin a m e, .fin b n f =>
    let q := min e f
    (scaledInt a m e q - scaledInt b n f q).sign
  | _, _ => 0

/-- Is the pattern's sign bit set? -/
def Fmt.isNeg (f : Fmt) (w : Nat) : Bool := w / f.signBit % 2 == 1

/-- R110. FMIN (`big` false) and FMAX (`big` true): -0 below +0, a NaN loses to a number. -/
def fminmax (f : Fmt) (big : Bool) (a b : Nat) : Nat :=
  let x := f.decode a
  let y := f.decode b
  match x.isNan, y.isNan with
  | true, true => f.nanBits
  | true, false => b
  | false, true => a
  | false, false =>
    let c := x.cmp y
    let aLess := decide (c < 0) || (c == 0 && f.isNeg a)
    if aLess != big then a else b

/-- R110. FABS. -/
def fabs (f : Fmt) (a : Nat) : Nat := a % f.signBit

/-- R110. FNEG. -/
def fneg (f : Fmt) (a : Nat) : Nat := if f.isNeg a then a - f.signBit else a + f.signBit

/-- R111. The compares: equal, less, less or equal, unordered. -/
def fcmp (f : Fmt) (k : Nat) (a b : Nat) : Bool :=
  let x := f.decode a
  let y := f.decode b
  let un := x.isNan || y.isNan
  match k with
  | 0 => !un && x.cmp y == 0
  | 1 => !un && decide (x.cmp y < 0)
  | 2 => !un && decide (x.cmp y ≤ 0)
  | _ => un

/-- R117, R118. FADD rounded RNE, whatever the mode word holds. -/
def faddRne (f : Fmt) (a b : Nat) : Nat := fadd f .rne a b 0

/-- R37. The format a CVT code names: a floating format, or an integer format by sign and width. -/
def cvtFloat : Nat → Option Fmt
  | 0 => some .f32 | 1 => some .f16 | 2 => some .bf16 | 3 => some .e4m3
  | 4 => some .e5m2 | 5 => some .e2m1 | 6 => some .e8m0 | _ => none

/-- R37. The integer formats: signed, width. -/
def cvtInt : Nat → Bool × Nat
  | 7 => (true, 4) | 8 => (true, 8) | 9 => (true, 16) | 10 => (true, 32) | 11 => (true, 64)
  | 12 => (false, 8) | 13 => (false, 16) | 14 => (false, 32) | _ => (false, 64)

/-- R37. The width of a format code. -/
def cvtWidth (c : Nat) : Nat :=
  match cvtFloat c with
  | some f => f.width
  | none => (cvtInt c).2

/-- The signed value of a W-bit integer pattern. -/
def intVal (t : Bool × Nat) (w : Nat) : Int := if t.1 then sx t.2 (w % 2 ^ t.2) else ((w % 2 ^ t.2 : Nat) : Int)

/-- R113 to R115. One element converted from format code `src` to format code `dst`. -/
def cvtElem (dst src : Nat) (mode : RMode) (sat : Bool) (w : Nat) (g : Word) : Nat :=
  match cvtFloat dst, cvtFloat src with
  | some f, some s => convertFloat f mode sat (s.decode w) g
  | some f, none => convertFloat f mode sat (FVal.ofInt (intVal (cvtInt src) w)) g
  | none, some s => convertInt (cvtInt dst).1 (cvtInt dst).2 mode sat (s.decode w) g
  | none, none => convertIntInt (cvtInt dst).1 (cvtInt dst).2 sat (intVal (cvtInt src) w)

/-- R107, R116. Does a conversion advance the generator when its effective mode is RS? -/
def cvtRounds (dst src : Nat) : Bool := (cvtFloat dst).isSome || (cvtFloat src).isSome

end Sys2Proof.Machine
end

