-- ==== Sys2Proof/Machine/SquadState.lean ====
section
/-!
DEFINITION. The state of a squad, of a lane and of a lane-slot pair, as plain data (R55, R127).
-/
namespace Sys2Proof.Machine

/-- R127, R136. One hardware loop: its counter, its frame, its place in the order in which loops started, and whether it has gone
back to its start (R140). -/
structure Loop where
  lc : Word := 0
  start : Word := 0
  len : BitVec 9 := 0
  active : Bool := false
  seq : Nat := 0
  again : Bool := false
  deriving DecidableEq, Repr

/-- Where a squad is (R13, R16, R303). -/
inductive Residence where
  /-- Its cluster is not yet placed. -/
  | waiting
  /-- In a lane slot of a core. -/
  | resident (core lane slot : Nat)
  /-- Saved, with its context in the squad's own fields. -/
  | saved
  /-- R98. All its threads have exited and its lane slot is free. -/
  | retired
  deriving DecidableEq, Repr

/-- R21. A clause as its lane fetched it: header address, header, words. -/
structure Clause where
  addr : Word
  hdr : Word
  words : List Word
  deriving DecidableEq, Repr

/-- R63. What keeps a squad's next clause from being ready, beside the clause's own conditions. Operations are numbered in
issue order, and `upto` is the first number issued after the waiting word. -/
inductive NextWait where
  /-- R203. A fence of a scope. -/
  | fence (scope upto : Nat)
  /-- R214. LNEXT: the copies and tiles before `upto`, then the release half, for what was issued before `rel`. -/
  | lnext (upto : Nat) (rel : Option Nat)
  /-- R227. TLBINV of an address space, for one address or all of it: first its release half, for what was issued before `upto`;
  once the entries are invalid, what was translated before the operation `inv`. -/
  | tlbinv (asid : Nat) (va : Option Nat) (upto : Nat) (inv : Option Nat)
  /-- R246. FIGUNLD of a slot. -/
  | figunld (op : Nat)
  /-- R304. PASS, until its release half is done and the token has left. -/
  | pass (upto : Nat)
  /-- R318. LKEYARM, until the marker has been sent on a link. -/
  | marker (link : Nat)
  /-- R309. REPLAY, until the release has been sent. -/
  | replay (op : Nat)
  deriving DecidableEq, Repr

/-- R26, R76. The remainder of a clause that a squad resumes: header address, index of the next word (1 to 15), and the
threads still in the clause. -/
structure Remainder where
  addr : Word
  index : Nat
  mask : Word
  /-- R136. Where these threads go at the clause's end, when a LOOP of trip count 0 before the remainder says so. -/
  jump : Option Word := none
  deriving DecidableEq, Repr

/-- The registers and counters of a squad (R55, R127) and its standing in its launch. -/
structure Squad where
  /-- The launch it belongs to. -/
  launch : Nat := 0
  /-- R294. The linear index of its block, its index in the block, its block's coordinates and its cluster's index. -/
  block : Nat := 0
  qid : Nat := 0
  bx : Nat := 0
  byy : Nat := 0
  bz : Nat := 0
  cluster : Nat := 0
  /-- R294. Its logical id. -/
  lid : Nat := 0
  place : Residence := .waiting
  /-- v0 to v31, thread t of register i under 32 i + t. -/
  v : Tab Reg := []
  /-- v32 to v63 of a saved holder of the pair lock (R68, R307), under the same keys. -/
  savedExt : Option (Tab Reg × Tab (BitVec 6)) := none
  /-- s1 to s63. -/
  sc : Tab Reg := []
  /-- p1 to p127, thread t of predicate i under 32 i + t. -/
  pr : Tab Byte := []
  /-- vpc of each thread; a thread not listed has exited (0xFFFF_FFFF). -/
  vpc : Tab Word := []
  /-- R69. Hold counts of v0 to v31. -/
  hold : Tab (BitVec 6) := []
  xcause : Byte := 0
  xpc : Word := 0
  xaddr : Reg := 0
  xinfo : Reg := 0
  xvpc : Tab Word := []
  /-- R76, R136. The clause that the last precise trap left, by its header address, and where a LOOP of trip count 0 in it sends the
  threads at its end (log 17). -/
  xjump : Option (Word × Word) := none
  /-- R73. Privileged state, and the mark of a management firmware squad. -/
  priv : Bool := false
  mgmt : Bool := false
  sname : Word := 0
  /-- R60. The mode word. -/
  mode : Word := 0
  /-- R107. Generator words. -/
  gen : Tab Word := []
  /-- R129. F, E and P of the completion flags; P of fn stands in bits [4n+3:4n]. -/
  flagF : BitVec 12 := BitVec.allOnes 12
  flagE : BitVec 12 := 0
  flagP : BitVec 48 := 0
  ocLd : BitVec 6 := 0
  ocSt : BitVec 6 := 0
  ocCp : BitVec 5 := 0
  ocTl : BitVec 4 := 0
  loop0 : Loop := {}
  loop1 : Loop := {}
  loop2 : Loop := {}
  underflow : Word := 0
  /-- R158. A POISON that waits for the next header: address and detail. -/
  poison : Option (Reg × Byte) := none
  /-- R157, R231. The 4 KiB pages a parked squad still waits for. -/
  parked : Option (List Nat) := none
  remainder : Option Remainder := none
  /-- The next clause, fetched and passed by the four stages of R340. -/
  fetched : Option Clause := none
  nextWait : Option NextWait := none
  /-- R63. What further words of the same clause wait for, after it, in their order. -/
  moreWaits : List NextWait := []
  /-- R140. The words of active loops' bodies, by address, as their first pass found them. -/
  loopBuf : Tab Word := []
  /-- R214. Released by LNEXT. -/
  released : Bool := false
  /-- R300. The barrier at which its clause has arrived. -/
  arrived : Option Nat := none
  /-- R300, R301. The barrier at which it arrived has completed: does it hold the epilogue role? -/
  barRole : Option Bool := none
  /-- R305. Its lane starts no further clause for it. -/
  halted : Bool := false
  /-- R208. Write-combining entries that must be applied before its first clause after a restore: the core they stood on, and their
number. -/
  wcbWait : List (Nat × Nat) := []
  /-- R98. It has no live thread and waits for its outstanding operations. -/
  exiting : Bool := false
  /-- R262, R307. The physical address of its save-area record, while it is saved. -/
  saveAt : Nat := 0
  /-- R274. The classes it serves, as its context carries them. -/
  serves : BitVec 16 := 0
  deriving DecidableEq, Repr

/-- R173, R245, R275. What a word that waits inside its clause waits for. -/
inductive HoldReason where
  /-- R245. The busy mark of a figure slot. -/
  | slot (n : Nat)
  /-- R173. An entry of the copy queue, or of the tile queue. -/
  | copyQueue
  | tileQueue
  /-- R275. The result of a heat. -/
  | heat (h : Nat)
  /-- R157, R202. A read that the word itself makes cannot be served yet; the lane tries the word again. -/
  | retry
  /-- R157, R323. A read that the word itself makes, an operation of its own, reaches the host. -/
  | read (op : Nat)
  /-- R156, R201. The elements of an operation still issue, one at a time. -/
  | issue (op : Nat)
  /-- R63. A barrier: a clause issues only once it lets it, so no run waits here. -/
  | barrier
  /-- R68. The pair lock; the lane tries the word again. -/
  | lock
  deriving DecidableEq, Repr

/-- R146. An event counter: its count, its source code, and whether it counts. -/
structure EventCounter where
  count : BitVec 48 := 0
  source : Byte := 0
  en : Bool := false
  deriving DecidableEq, Repr

/-- A clause in execution on a lane (R25). -/
structure Exec where
  squad : Nat
  clause : Clause
  /-- Index of the next word: 1 for the word after the header. -/
  idx : Nat
  /-- The threads still in the clause. -/
  mask : Word
  /-- The word at `idx` waits inside its clause (R173, R245, R275). -/
  hold : Option HoldReason := none
  /-- R136. Where the threads still in the clause go at its end, when a LOOP of trip count 0 says so. -/
  jump : Option Word := none
  /-- R300. At its issue its barrier word met a barrier of another kind or count. -/
  clash : Bool := false
  /-- R148. The index of the word at which it issued, and its core's event counters as they stood before it did. -/
  first : Nat := 0
  counts : Tab EventCounter := []
  deriving DecidableEq, Repr

/-- R64. A lane: the slot it last issued and the squad then in it, how many clauses of that squad's turn it has issued, whether the turn is over,
and the clause in execution. One that has never issued starts its rotation at slot 0 (log 18). -/
structure Lane where
  last : Nat := 3
  who : Nat := 0
  turns : Nat := 0
  ended : Bool := true
  cur : Option Exec := none
  deriving DecidableEq, Repr

/-- R67, R68. The extended registers of a lane-slot pair, their hold counts and the pair lock. -/
structure Pair where
  /-- v32 to v63, thread t of register i under 32 i + t. -/
  v : Tab Reg := []
  hold : Tab (BitVec 6) := []
  /-- The squad that holds the lock. -/
  owner : Option Nat := none
  /-- The squad that last held it. -/
  last : Option Nat := none
  deriving DecidableEq, Repr

end Sys2Proof.Machine
end

