-- ==== Sys2Proof/Machine/LaunchState.lean ====
section
/-!
DEFINITION. The state of regions, launches, blocks and queues, as plain data (R281 to R308).
-/
namespace Sys2Proof.Machine

/-- R282, R283. A region's fields as resolved when a launch is dispatched. -/
structure Region where
  /-- The region control block's physical address. -/
  rcb : Nat := 0
  /-- The control blocks from the region to its root, with their resolved lane-slot and named-squad budgets. -/
  path : List (Nat × Nat × Nat) := []
  root : Nat := 0
  asid : Nat := 0
  priority : Nat := 8
  det : Bool := false
  /-- R284. The control block of the nearest fault domain. -/
  domain : Nat := 0
  svc : Nat := 2
  deadline : Nat := 1023
  codeBase : Nat := 0
  codeSize : Nat := 0
  handler : Nat := 0
  saveBase : Nat := 0
  saveSize : Nat := 0
  pinQuota : Nat := 0
  coreMask : BitVec 384 := BitVec.allOnes 384
  faultQueue : Nat := 0
  figTable : Nat := 0
  paramWin : Nat := 0xF000000000
  /-- The owner function: 0 the physical function, 1 to 64 a virtual function. -/
  fn : Nat := 0
  deriving DecidableEq, Repr

/-- R306. Where a block stands with respect to pre-emption. -/
inductive Phase where
  | running
  /-- R305. A pre-emption has reached its core, which halts its squads. -/
  | asked
  /-- R270. The save has begun: its names are MOVING. -/
  | saving
  | saved
  /-- R270. The restore has begun: it is on its new core and its names are MOVING. -/
  | restoring
  deriving DecidableEq, Repr

/-- R300. A block barrier: the count fixed by a BARC, whether the generation is a BARC one, and the arrivals in order. -/
structure Barrier where
  count : Nat := 0
  barc : Bool := false
  arrivals : List Nat := []
  deriving DecidableEq, Repr

/-- A placed block (R13, R150, R300). -/
structure Block where
  launch : Nat := 0
  index : Nat := 0
  /-- The core it is resident on; none while it is not placed or saved. -/
  core : Option Nat := none
  base : Nat := 0
  size : Nat := 0
  barriers : Tab Barrier := []
  /-- R306, R307. Its scratch contents and the accumulator tiles of its core, while it is saved. -/
  savedScratch : Tab Byte := []
  savedAcc : Tab Word := []
  /-- R307. The save-area records it holds while it is saved. -/
  records : List Nat := []
  phase : Phase := .running
  /-- R186. What of that is poisoned. -/
  savedBad : Tab Bool := []
  savedBadAcc : Tab Bool := []
  /-- R293. A pre-emption was asked for while it was being restored. -/
  wanted : Bool := false
  /-- R208. The operations that the release half of its save waits for: those issued before this number. -/
  upto : Nat := 0
  deriving DecidableEq, Repr

/-- A launch-table entry (R281, R288). -/
structure Launch where
  region : Region := {}
  queue : Nat := 0
  packetId : Nat := 0
  entry : Word := 0
  gx : Nat := 1
  gy : Nat := 1
  gz : Nat := 1
  cx : Nat := 1
  cy : Nat := 1
  cz : Nat := 1
  squadsPer : Nat := 1
  scratch : Nat := 0
  signal : Nat := 0
  value : Nat := 0
  /-- Clusters placed so far, counted in placement order. -/
  placed : Nat := 0
  /-- R297. Clusters counted as retired in a region with DET, counted in curve order. -/
  retiredClusters : Nat := 0
  /-- R289. Its predecessor launches, each with whether the edge is EARLY. -/
  preds : List (Nat × Bool) := []
  /-- R303. The commit token: the logical id it stands at or travels to, whether it has arrived, and the in-section bit. -/
  tokenAt : Nat := 0
  tokenHere : Bool := true
  inSection : Bool := false
  /-- R291. The graph it is a node of. -/
  graph : Option Nat := none
  /-- R293, R305. Its queue's slot has been pre-empted: no cluster of it is placed until the queue is bound again. -/
  preempted : Bool := false
  deriving DecidableEq, Repr

/-- R291. A graph in progress: its queue and packet, where its node images lie, how many there are, its edges (from, to,
EARLY), the packet's own edge's predecessors, its completion signal, and the launches of the nodes dispatched so far. -/
structure GraphRun where
  queue : Nat := 0
  packetId : Nat := 0
  nodeVa : Nat := 0
  count : Nat := 0
  edges : List (Nat × Nat × Bool) := []
  preds : List (Nat × Bool) := []
  signal : Nat := 0
  value : Nat := 0
  nodes : List Nat := []
  deriving DecidableEq, Repr

/-- R281. The state of a hardware queue slot. -/
inductive SlotState where
  | free | run | waitsig
  deriving DecidableEq, Repr

/-- R281, R292. A hardware queue slot. -/
structure Slot where
  st : SlotState := .free
  queue : Nat := 0
  /-- The next packet to begin. -/
  next : Nat := 0
  /-- The launches of the packet in progress: placement of its clusters is not finished. -/
  busy : List Nat := []
  /-- R291. The graph whose nodes it is dispatching. -/
  graph : Option Nat := none
  slice : Nat := 0
  /-- The scheduler count at which it was bound. -/
  boundAt : Nat := 0
  deriving DecidableEq, Repr

/-- What the scheduler knows of a queue beside its descriptor in memory (R285, R290, R292). -/
structure QueueRun where
  /-- The scheduler count at which it was last unbound. -/
  unboundAt : Nat := 0
  /-- R290. It waits on a WAITSIG: the signal word's address, and the scheduler count of the last read. -/
  waiting : Option (Nat × Nat) := none
  /-- R290. The word has been written since, or the condition has been found true: the WAITSIG completes in its next slot. -/
  due : Bool := false
  passed : Bool := false
  /-- R289. The launches of its latest LAUNCH or GRAPH. -/
  latest : List Nat := []
  deriving DecidableEq, Repr

/-- R232, R234. A die fault stage entry: a page entry merged from the filters of the die's cores, or a record that found
its ring full. -/
structure StageEntry where
  die : Nat := 0
  fn : Nat := 0
  asid : Nat := 0
  fq : Nat := 0
  page : Nat := 0
  rcb : Nat := 0
  kinds : Byte := 0
  waiters : List Nat := []
  cores : BitVec 48 := 0
  posted : Bool := false
  /-- The die clock at its creation, and at its last try to post. -/
  born : Nat := 0
  tried : Nat := 0
  /-- It has found its ring full and been counted. -/
  overflowed : Bool := false
  /-- R234. The record of an entry that is no page entry. -/
  record : Option (List Byte) := none
  deriving DecidableEq, Repr

/-- R321. An MSI-X vector of a function. -/
structure MsixVector where
  addr : Reg := 0
  data : Word := 0
  masked : Bool := true
  pending : Bool := false
  deriving DecidableEq, Repr

/-- R321. A function's error log: the newest 16 entries of 16 bytes, newest first, and the count. -/
structure FunctionLog where
  entries : List (List Byte) := []
  count : Word := 0
  deriving DecidableEq, Repr

/-- What leaves the module toward the outside (log 4). -/
inductive OutMsg where
  /-- R324. An MSI-X message of a function's vector. -/
  | msix (fn vec : Nat)
  /-- R324. An interrupt to the management controller. -/
  | mgmtIrq
  /-- R316, R317, R331, R335. A record for the management controller. -/
  | mgmtRecord (bytes : List Byte)
  /-- R315. A flit sent over a link. -/
  | flit (link : Nat) (bytes : List Byte)
  /-- R321. A register read's value, or its refusal. -/
  | readReply (fn : Nat) (value : Option (List Byte))
  deriving DecidableEq, Repr

end Sys2Proof.Machine
end

