-- ==== Sys2Proof/Machine/EngineState.lean ====
section
/-!
DEFINITION. Operations in flight, as plain data: loads, the core store path, the write-combining buffer, copies, tiles
and figures (R131, R158, R165, R172, R201, R202, R238, R252).
-/
namespace Sys2Proof.Machine

/-- R158, R202. What has become of an element of a load, an atomic or a RET figure. -/
inductive ElemState where
  /-- Not yet performed. -/
  | waiting
  /-- Its value is fixed and not yet written. -/
  | ready (v : Reg)
  /-- R272. The same for an element of 16 bytes, which no register takes. -/
  | wide (v : BitVec 128)
  /-- It meets a POISON with this detail: 1 poisoned data, 2 a device's refusal, 3 the host's. -/
  | bad (detail : Nat)
  /-- It leaves its destination as it is (R249), or clears it (R161). -/
  | skip
  /-- Written. -/
  | done
  deriving DecidableEq, Repr

/-- An element: its thread, its address in its space, its translated address, home, share scope and page size. -/
structure Elem where
  thread : Nat
  va : Nat
  pa : Nat := 0
  host : Bool := false
  home : Nat := 0
  scope : Nat := 0
  psize : Nat := 4096
  st : ElemState := .waiting
  /-- R217. It found an atomic or a figure in the core store path before it: its home serves it. -/
  late : Bool := false
  deriving DecidableEq, Repr

/-- R131. What kind of counted load an operation is. -/
inductive LoadKind where
  /-- LDG, LDS, LDP: sign-extended or not. -/
  | vec (signed : Bool)
  /-- LDG.NF. -/
  | nf
  /-- A scalar load. -/
  | scalar
  /-- ATOMG.GRAB: its scalar's value comes from the home. -/
  | grab
  /-- ATOMG, ATOMS, LDP and RET figures: another unit gives each element's value. -/
  | given
  /-- R245. FIGLD of a slot: 16 elements of 8 bytes. -/
  | figld (slot : Nat)
  /-- R309, R318, R272. The record that a SYS word reads, 8 bytes an element. -/
  | record
  deriving DecidableEq, Repr

/-- An outstanding load, atomic or RET figure of a squad: its destination register, element size and elements. `bad` keeps
thread, address and detail of the lowest-numbered element that met a POISON. -/
structure LoadOp where
  squad : Nat
  core : Nat
  dest : Nat
  size : Nat
  kind : LoadKind
  asid : Nat := 0
  region : Region := {}
  /-- R204. Its elements are read at the banks of the rink. -/
  scratch : Bool := false
  elems : List Elem
  bad : Option (Nat × Nat × Nat) := none
  deriving DecidableEq, Repr

/-- What an entry of the core store path does at its home (R166 to R168, R201, R249). -/
inductive PathKind where
  | store (bs : List Byte)
  /-- R166. ATOMG of operation k on elements of 32 (v = 0) or 64 bits, operand x, CAS partner y. -/
  | atomic (k v : Nat) (x y : Reg)
  /-- R167. ATOMG.ADD.F32. -/
  | addF32 (x : Reg)
  /-- R167. ATOMG.ADD.BF16X2 before its low half, or before its high half with the old low half. -/
  | addBf16 (x : Reg) (low : Option Nat)
  /-- R168. ATOMG.GRAB. -/
  | grab
  /-- R249. A figure request of a slot, with its operand. -/
  | figure (slot : Nat) (x : Reg)
  deriving DecidableEq, Repr

/-- R201. An element in the core store path. Its stores count as one operation `op` of its squad. -/
structure PathEntry where
  op : Nat
  squad : Nat
  thread : Nat
  kind : PathKind
  size : Nat
  va : Nat
  pa : Nat
  host : Bool := false
  home : Nat := 0
  scope : Nat := 0
  psize : Nat := 4096
  asid : Nat := 0
  /-- R331. The store instruction covers the whole line. -/
  whole : Bool := false
  /-- R249, R251. For a figure: the size of its granule, which its program may read and write (log 31). -/
  gran : Nat := 0
  /-- R234. For a figure: its region, its squad's sname, its word's address, and its flag. -/
  region : Region := {}
  sname : Word := 0
  code : Word := 0
  flag : Option Nat := none
  deriving DecidableEq, Repr

/-- R166, R204. What an element does at its rink bank: a load, a store, or an ATOMS of operation k on elements of 32 (v = 0) or
64 bits with operand x and CAS partner y. -/
inductive BankKind where
  | read
  | write (bs : List Byte)
  | atomic (k v : Nat) (x y : Reg)
  deriving DecidableEq, Repr

/-- R150, R204. An element on its way to the banks of its core's rink: its operation, squad, thread, core byte and size. -/
structure BankOp where
  op : Nat
  squad : Nat
  thread : Nat
  at_ : Nat
  size : Nat
  kind : BankKind
  deriving DecidableEq, Repr

/-- R144, R153, R326. For whom a home serves a request: the core, unless a slice asks on its own behalf, the address space and its
quota of pinned bytes, and the service class and deadline budget. -/
structure Asker where
  core : Option Nat := none
  asid : Nat := 0
  quota : Nat := 0
  cls : Nat := 2
  budget : Nat := 1023
  deriving DecidableEq, Repr

/-- R169, R237. A line that PREF or a PREFETCH packet fetches once its granule is free, and the core whose L1 takes it too. -/
structure Prefetch where
  by_ : Asker
  pa : Nat
  home : Nat
  scope : Nat
  l1 : Option Nat := none
  deriving DecidableEq, Repr

/-- R165. A write-combining entry: device, line, data, mask, the core clock of its last write, and the region and squad of
its last STP, for a refusal's record. -/
structure WcbEntry where
  id : Nat
  dev : Nat
  line : Nat
  data : Tab Byte := []
  last : Nat := 0
  region : Region := {}
  sname : Word := 0
  code : Word := 0
  deriving DecidableEq, Repr

/-- R176, R319, R320. The operations of the copy engine. -/
inductive CopyKind where
  | cpin | cpout | cpwb | mcast
  deriving DecidableEq, Repr

/-- R172. A copy queue entry. -/
structure CopyOp where
  id : Nat
  squad : Nat
  kind : CopyKind
  flag : Nat
  /-- The 64 bytes of its layout record. -/
  image : List Byte
  /-- The issuing squad's block's allocation base and size. -/
  base : Nat
  size : Nat
  region : Region := {}
  sname : Word := 0
  code : Word := 0
  /-- R182, R185. The issuing squad's rounding mode, and whether it stood in a commit section, at issue. -/
  rm : RMode := .rne
  sec : Bool := false
  row : Nat := 0
  gen : Word := 0
  under : Nat := 0
  /-- R146. The bytes that its last row wrote. -/
  wrote : Nat := 0
  /-- R172, R175. Its place among the operations of its core: the order of issue, or of the restore. -/
  ord : Nat := 0
  started : Bool := false
  /-- R185. It waits for REPLAY. -/
  parked : Bool := false
  /-- Its last row is written, or it has met an error. -/
  ended : Bool := false
  err : Bool := false
  /-- R180. Of a zero-elided panel: where the current slab and the next significand lie. -/
  slab : Nat := 0
  next : Nat := 0
  /-- R181. The 64 KiB units of the weight buffer it has written into. -/
  units : Word := 0
  /-- R187, R311. The weight buffer as a saved CPWB reads it from its save area, and the CPINs saved before it that still write there
  (log 71). -/
  wbSaved : Option (Tab Byte) := none
  wbFrom : List Nat := []
  /-- R187. The weight-buffer epoch of a CPIN's core, and that core, at its issue or its last save. -/
  epoch : Word := 0
  epochCore : Nat := 0
  /-- R319. A multicast's leaf and port masks, and its lines that some destination has not yet applied or refused. -/
  leaf : Reg := 0
  port : Reg := 0
  pending : Nat := 0
  deriving DecidableEq, Repr

/-- R193, R195. The operations of the matrix engine. -/
inductive TileKind where
  | mma
  | zero (d : Nat)
  | mov (d a : Nat)
  | add (d a : Nat)
  | scale (d : Nat) (x : Word)
  deriving DecidableEq, Repr

/-- R172. A tile queue entry. -/
structure TileOp where
  id : Nat
  squad : Nat
  kind : TileKind
  flag : Nat
  /-- The 64 bytes of its parameter block, and the core byte it lies at. -/
  image : List Byte := []
  at_ : Nat := 0
  base : Nat := 0
  region : Region := {}
  sname : Word := 0
  code : Word := 0
  /-- The next K-block. -/
  k : Nat := 0
  /-- R172, R175. Its place among the operations of its core: the order of issue, or of the restore. -/
  ord : Nat := 0
  started : Bool := false
  ended : Bool := false
  err : Bool := false
  /-- R187, R311. The weight buffer as a saved tile reads its remaining slabs from its save area, and the CPINs saved before it that still
  write there (log 71). -/
  wbSaved : Option (Tab Byte) := none
  wbFrom : List Nat := []
  deriving DecidableEq, Repr

/-- R172, R189. A bound range of a core: scratch by core byte, or the accumulator store; SRC or EXCL; its operation. -/
structure Binding where
  acc : Bool
  lo : Nat
  hi : Nat
  excl : Bool
  op : Nat
  deriving DecidableEq, Repr

/-- R172, R188. A range of the range scoreboard, by core byte, and its copy. -/
structure BoardRange where
  lo : Nat
  hi : Nat
  op : Nat
  deriving DecidableEq, Repr

/-- R192. A residency tag. -/
structure ResTag where
  key : BitVec 16 := 0
  fresh : Bool := false
  deriving DecidableEq, Repr

/-- R260, R276. An entry of a tender inbox. -/
structure InboxEntry where
  cls : Nat
  task : List Byte
  core : Nat
  sname : Word
  deriving DecidableEq, Repr

/-- R129, R249. A flagged FIG whose elements are not all done. -/
structure FlagOp where
  squad : Nat
  flag : Nat
  left : Nat
  err : Bool := false
  deriving DecidableEq, Repr

/-- R252. A combining-buffer entry: its slice, key, merged operand, request count, the die clock at its allocation, and the
requests' origins. -/
structure CombineEntry where
  slice : Nat
  asid : Nat
  slot : Nat
  pa : Nat
  va : Nat
  home : Nat := 0
  operand : Nat
  count : Nat
  born : Nat
  cores : List Nat := []
  region : Region := {}
  sname : Word := 0
  code : Word := 0
  deriving DecidableEq, Repr

/-- R251. A figure request passed to a channel update unit, with its definition. `back` names the operation and thread that
take its return value. -/
structure TileFig where
  channel : Nat
  granule : Nat
  asid : Nat
  slot : Nat
  pa : Nat
  va : Nat
  image : List Byte
  operand : Nat
  count : Nat
  back : Option (Nat × Nat) := none
  flagOp : Option Nat := none
  /-- R326. For whom the channel is asked. -/
  by_ : Asker := {}
  cores : List Nat := []
  core : Nat := 0
  region : Region := {}
  sname : Word := 0
  code : Word := 0
  deriving DecidableEq, Repr

/-- R245, R246. A FIGLD or FIGUNLD that has reached the table: the image, or none for an unload. -/
structure FigLoad where
  id : Nat
  squad : Nat
  asid : Nat
  table : Nat
  slot : Nat
  image : Option (List Byte)
  dest : Nat := 0
  deriving DecidableEq, Repr

/-- R152, R153. A line held in its home slice: pinned, by which address space; from a STREAM page; written since its fill; and, of
a pinned line, whether its way holds data (R251). -/
structure L2Line where
  pinned : Bool := false
  asid : Nat := 0
  stream : Bool := false
  dirty : Bool := false
  present : Bool := true
  deriving DecidableEq, Repr

/-- R149. A line of a memory-side cache: written since its fill? -/
structure MscLine where
  dirty : Bool := false
  deriving DecidableEq, Repr

/-- R229. A die pin table entry. -/
structure PinEntry where
  die : Nat
  asid : Nat
  share : Nat
  bytes : Nat
  deriving DecidableEq, Repr

/-- R164, R207, R250, R266, R319, R320. What a packet between devices carries. -/
inductive PodKind where
  /-- A drained write-combining entry: bytes by their place in the line at the packet's offset. -/
  | write (data : Tab Byte)
  /-- A POD load of an element. -/
  | load (op thread size : Nat)
  /-- A figure request with its definition, operand, return place and flag. -/
  | figure (slot : Nat) (img : List Byte) (x : Nat) (back : Option (Nat × Nat)) (flagOp : Option Nat)
  /-- R319. A line of a multicast on its way to its leaf switch, with its destination string; and to one destination. -/
  | cast (op : Nat) (leaf port : Reg) (data : List Byte)
  | line (op : Nat) (data : List Byte)
  /-- R267. A named store for another device: its squad, name, target register, mask, values and flag. -/
  | named (squad : Nat) (name : Word) (reg : Nat) (mask : Word) (vals : Tab Reg) (flag : Option Nat)
  /-- R158, R164. The answer to a packet of another device: its value (0 for a write), poisoned data or a refusal as an element meets them,
  or the fault of a figure. -/
  | reply (answer : ElemState)
  deriving DecidableEq, Repr

/-- R312, R314. The export window. -/
structure ExportWindow where
  asid : Nat := 0
  enable : Bool := false
  base : Nat := 0
  size : Nat := 0
  deriving DecidableEq, Repr

/-- R207, R313. A packet in flight, in the sending order of its pair of devices. -/
structure PodMsg where
  id : Nat
  src : Nat
  dst : Nat
  core : Nat := 0
  off : Nat
  kind : PodKind
  /-- Sent by this device, and on its way. -/
  mine : Bool := true
  sent : Bool := false
  /-- R313. Its sequence number in its pair, once it has left. -/
  seq : Option Word := none
  /-- R322. The export window as it stood when a packet of another device arrived. -/
  window : Option ExportWindow := none
  /-- R208. The write-combining entry that it drained. -/
  entry : Nat := 0
  /-- R131. The FIG of a NORET figure, and its squad, whose element it is until it leaves. -/
  counted : Option (Nat × Nat) := none
  region : Region := {}
  sname : Word := 0
  code : Word := 0
  deriving DecidableEq, Repr

/-- R319. Where a branch of a multicast packet goes next. -/
inductive BranchTo where
  /-- From a leaf up to a spine, carrying leaves. -/
  | spine (leaves : Reg)
  /-- From a spine down to a leaf. -/
  | leaf (l : Nat)
  /-- From a leaf down to a device. -/
  | device (d : Nat)
  deriving DecidableEq, Repr

/-- R319. A branch of a multicast line that waits for its output port. -/
structure Branch where
  op : Nat
  core : Nat
  off : Nat
  data : List Byte
  port : Reg
  goes : BranchTo
  region : Region := {}
  sname : Word := 0
  code : Word := 0
  deriving DecidableEq, Repr

/-- R320. A REDX in progress: its descriptor, operation, the result once the spine has combined it, or an error. -/
structure RedxOp where
  id : Nat
  squad : Nat
  core : Nat
  flag : Nat
  op : Nat
  image : List Byte
  region : Region := {}
  sname : Word := 0
  code : Word := 0
  sec : Bool := false
  result : Option (List Byte) := none
  err : Bool := false
  /-- R185. It waits for the pages of its result. -/
  parked : Bool := false
  deriving DecidableEq, Repr

/-- R266, R267. Where a delivery of a named store stands. -/
inductive DeliveryAt where
  | sent
  /-- Forwarded by its entry's slice to a core, lane and slot. -/
  | forwarded (core lane slot : Nat)
  deriving DecidableEq, Repr

/-- R266. A delivery: its sender, name, target register, mask of threads, their values, and its flag. `rel` is the first
operation issued after an STN.REL. -/
structure Delivery where
  id : Nat
  squad : Nat
  core : Nat
  name : Word
  reg : Nat
  mask : Word
  vals : Tab Reg
  flag : Option Nat := none
  rel : Option Nat := none
  /-- R261. Its name is none: it never leaves, and is dropped on its way. -/
  dead : Bool := false
  /-- Sent by this device. -/
  mine : Bool := true
  at_ : DeliveryAt := .sent
  deriving DecidableEq, Repr

/-- R272. A class table entry of a region: c0, the weights of RES, QD, LOAD, DIST and PINB, the residency key, the window
and the server mask. -/
structure ClassEntry where
  c0 : BitVec 16 := 0
  wRes : Byte := 0
  wQd : Byte := 0
  wLoad : Byte := 0
  wDist : Byte := 0
  wPinb : Byte := 0
  key : BitVec 16 := 0
  window : Nat := 0
  servers : BitVec 384 := 0
  deriving DecidableEq, Repr

/-- R276. Where a heat stands. -/
inductive HeatStage where
  /-- On its way to the root, or waiting there. -/
  | queued
  /-- Its window is open until a count of the root's clock. -/
  | window (closes : Nat)
  /-- Its award travels to a core. -/
  | award (core : Nat)
  /-- Its result travels back. -/
  | result (name : Word) (core : Nat)
  deriving DecidableEq, Repr

/-- R276. A heat: its tender, its bidders, the bids sent and the bids received, and the cores that have withdrawn. -/
structure Heat where
  core : Nat
  squad : Nat
  sname : Word
  dest : Nat
  cls : Nat
  task : List Byte
  rcb : Nat
  det : Bool := false
  coreMask : BitVec 384 := 0
  stage : HeatStage := .queued
  bidders : List Nat := []
  sent : List (Nat × Int) := []
  bids : List (Nat × Int) := []
  /-- R272. The class table entry as it stood when the window opened. -/
  entry : ClassEntry := {}
  withdrawn : List Nat := []
  /-- R278. The root's count at which the message under way arrives: the tender at the root, the class at the bidders, the award
  at its winner, the result at the tendering core. -/
  due : Nat := 0
  deriving DecidableEq, Repr

/-- R235, R309. A release on its way to a die fault stage: the record, and the squad whose REPLAY waits for it. -/
structure Release where
  id : Nat
  squad : Option Nat := none
  record : List Byte
  deriving DecidableEq, Repr

/-- R247. A definition cache entry. -/
structure DefEntry where
  asid : Nat
  slot : Nat
  image : List Byte
  deriving DecidableEq, Repr

end Sys2Proof.Machine
end

