-- ==== Sys2Proof/Machine/CoreState.lean ====
section
/-!
DEFINITION. The state of a core and of its units, as plain data (R127, R149, R172, R220, R238, R260).
-/
namespace Sys2Proof.Machine

/-- R149, R202. An L1 line: the share scope of its page, the core clock at its fill, its bytes. -/
structure L1Line where
  scope : Nat := 0
  fill : Nat := 0
  data : List Byte := []
  deriving DecidableEq, Repr

/-- R220, R226. A TLB entry: address-space id, page number, page size in bytes, the leaf. -/
structure TlbEntry where
  asid : Nat := 0
  page : Nat := 0
  size : Nat := 4096
  leaf : Nat := 0
  deriving DecidableEq, Repr

/-- R220, R326. A walk in flight on a die's walkers, with the class and budget of the region whose access missed; a stale one's result
is discarded (R227). -/
structure Walk where
  core : Nat := 0
  asid : Nat := 0
  root : Nat := 0
  va : Nat := 0
  cls : Nat := 2
  budget : Nat := 1023
  stale : Bool := false
  deriving DecidableEq, Repr

/-- R231. A fault-filter entry: its key, the union of the access kinds (R 1, W 2, X 4, F 8, request only 16), and the
parties that wait: squad q as 2q, copy k as 2k + 1. -/
structure FilterEntry where
  asid : Nat := 0
  fq : Nat := 0
  page : Nat := 0
  rcb : Nat := 0
  kinds : Byte := 0
  fn : Nat := 0
  waiters : List Nat := []
  /-- Kinds and waiters the die stage has been told of; none before the first forwarding. -/
  sent : Option (Byte × List Nat) := none
  deriving DecidableEq, Repr

/-- R231. A page that a parked party or a REQPAGE still has to enter in the filter. -/
structure FilterWait where
  party : Nat := 0
  asid : Nat := 0
  fq : Nat := 0
  rcb : Nat := 0
  page : Nat := 0
  kinds : Byte := 0
  fn : Nat := 0
  deriving DecidableEq, Repr

/-- The state of one core. -/
structure CoreS where
  /-- R149, R150. The scratch part of the rink, by core byte. -/
  scratch : Tab Byte := []
  /-- R149, R151. The accumulator store, element (tile, row, column) under (tile * 128 + row) * 256 + column. -/
  acc : Tab Word := []
  /-- R149. The weight buffer, by byte. -/
  wb : Tab Byte := []
  /-- R149. The L1 part of the rink, by physical address divided by 128. -/
  l1 : Tab L1Line := []
  /-- R220. The TLB, newest first. -/
  tlb : List TlbEntry := []
  /-- R146, R202. Core clocks since core reset. -/
  clk : Nat := 0
  /-- R296. The region whose squads it last held. -/
  region : Option Region := none
  /-- R231. The fault filter, and the pages of parked parties that wait for an entry, in parking order. -/
  filter : List FilterEntry := []
  filterWait : List FilterWait := []
  /-- R143. The mogul counter. -/
  mogul : BitVec 48 := 0
  /-- R144. Missed deadlines by service class. -/
  missed : Tab Word := []
  /-- R146. Core event counters 0 to 15. -/
  events : Tab EventCounter := []
  /-- R201, R204. The core store path in its order of entry, and the elements that wait to enter it, in issue order. -/
  path : List PathEntry := []
  held : List PathEntry := []
  /-- R201. Elements of words in execution that have still to issue, each operation's in thread order. -/
  leaving : List PathEntry := []
  /-- R150, R204. Elements on their way to the banks of the rink, in issue order; the banks that have served an access in this clock,
  and whether one has refused an access. -/
  bank : List BankOp := []
  banksBusy : BitVec 64 := 0
  bankRefused : Bool := false
  /-- R186. The poisoned bytes of scratch and of the weight buffer, and the poisoned elements of the accumulator store. -/
  badScratch : Tab Bool := []
  badWb : Tab Bool := []
  badAcc : Tab Bool := []
  /-- R165. The write-combining buffer. -/
  wcb : List WcbEntry := []
  /-- R172. The copy queue and the tile queue, in issue order. -/
  copies : List CopyOp := []
  tiles : List TileOp := []
  /-- R172, R188, R189. The bindings and the range scoreboard. -/
  bindings : List Binding := []
  board : List BoardRange := []
  /-- R191. The weight-buffer locks: offset and length. -/
  locks : List (Nat × Nat) := []
  /-- R192. The residency tags of units 0 to 31. -/
  tags : Tab ResTag := []
  /-- R172. The weight-buffer epoch. -/
  epoch : Word := 0
  /-- R238. The slot summary, and the slot busy marks. -/
  summary : Tab Byte := []
  busy : BitVec 64 := 0
  /-- R260. The server registers, and the tender inbox, oldest first. -/
  servers : Tab Word := []
  inbox : List InboxEntry := []
  deriving DecidableEq, Repr

end Sys2Proof.Machine
end

