-- ==== Sys2Proof/Machine/EdgeState.lean ====
section
/-!
DEFINITION. The state of the module's edge, of the memory channels and of the module, as plain data (R312, R325).
-/
namespace Sys2Proof.Machine

/-- R312. The state of a link. -/
inductive LinkState where
  | down | training | up
  deriving DecidableEq, Repr

/-- R312, R315, R317. A key slot: key, salt, limit less one (transmit slots), valid bit, and its invocation count. -/
structure KeySlot where
  key : BitVec 256 := 0
  salt : BitVec 48 := 0
  last : BitVec 48 := 0
  valid : Bool := false
  count : BitVec 48 := 0
  deriving DecidableEq, Repr

/-- R315, R316. A stored flit: its link sequence number, its bytes, the packets it carries (by number), and how often it
has been refused in a row. -/
structure StoredFlit where
  seq : Nat
  bytes : List Byte
  packets : List Nat := []
  naks : Nat := 0
  deriving DecidableEq, Repr

/-- R312 to R318. A link: its state, its key slots, which are active, and both directions of its flit traffic. -/
structure LinkS where
  st : LinkState := .down
  tx0 : KeySlot := {}
  tx1 : KeySlot := {}
  rx0 : KeySlot := {}
  rx1 : KeySlot := {}
  /-- The active slot bits: slot 1 is active. -/
  txActive : Bool := false
  rxActive : Bool := false
  /-- The replay buffer, oldest first, and the next link sequence number to send. -/
  replay : List StoredFlit := []
  seq : BitVec 16 := 0
  /-- The next link sequence number to receive, whether later flits are being discarded, and the failures in a row. -/
  rxSeq : BitVec 16 := 0
  discarding : Bool := false
  fails : Nat := 0
  /-- R145. Received flits whose tag failed. -/
  authFails : Word := 0
  /-- R318. The record address of the last LKEYLD, and the squads whose LKEYARM marker waits for the flit boundary. -/
  keyAddr : Option Nat := none
  armed : List Nat := []
  /-- R317. Data is stalled for want of a valid other slot, and has been recorded. -/
  stalled : Bool := false
  deriving DecidableEq, Repr

/-- R325, R326. A request to a channel: its class and budget, its line, the core it is made for, whether it writes, and its
deadline once it has arrived. The groomer's names a row (R329). -/
structure ChanReq where
  cls : Nat
  budget : Nat
  line : Nat
  core : Option Nat := none
  write : Bool := false
  deadline : Word := 0
  row : Option Nat := none
  deriving DecidableEq, Repr

/-- R328. A row buffer. A bank's buffers are listed from the most to the least recently used. -/
structure RowBuf where
  row : Nat
  dirty : Bool := false
  deriving DecidableEq, Repr

/-- R332. An entry of a channel's error log, oldest first in its table. -/
structure ErrEntry where
  addr : Nat
  bad : Bool
  groomer : Bool
  times : Nat := 1
  at_ : Word := 0
  deriving DecidableEq, Repr

/-- R325, R327, R329. A channel. -/
structure ChannelS where
  queue : List ChanReq := []
  clk : Word := 0
  /-- Issues since the last one of class 3. -/
  since3 : Nat := 0
  rows : Tab (List RowBuf) := []
  threshold : BitVec 7 := 8
  period : Word := 0
  /-- The period of the pass in progress, its elapsed clocks, the next row, and the level. -/
  passPeriod : Word := 0
  elapsed : Nat := 0
  progress : Nat := 0
  level : Nat := 3
  errors : List ErrEntry := []
  errCount : Word := 0
  deriving DecidableEq, Repr

/-- R18, R333. What the firmware image sets: the device id, the bases of the name directory and of the queue table, the groomer's
threshold and period, the link settings, and the control blocks of the regions of management firmware (log 62). Of the limits that an image sets, the manual names the groomer's threshold
and period alone, and no other is held (log 6). -/
structure ImageConfig where
  deviceId : BitVec 12 := 0
  directory : BitVec 52 := 0
  queueTable : BitVec 52 := 0
  threshold : BitVec 7 := 8
  period : Word := 0
  links : List Byte := []
  firmware : List Nat := []
  deriving DecidableEq, Repr

/-- R325, R335. The power state. -/
inductive Power where
  | bringup | active | throttled | halted
  deriving DecidableEq, Repr

/-- R325, R333 to R336. The module: power state, measurement, mailbox, what the sensors read, and the throttling steps. -/
structure ModuleS where
  power : Power := .bringup
  /-- R333. Bring-up has reached step 7 since power-on: the image is verified, measured and in force. -/
  booted : Bool := false
  measurement : List Byte := []
  config : ImageConfig := {}
  command : Byte := 0
  status : Byte := 0
  buffer : Tab Byte := []
  /-- R336. Temperatures of dies 0 to 17 in 0.1 degrees, and the supply in mV. -/
  temps : Tab Nat := []
  supply : Nat := 48000
  /-- R335. The core clock stands this many steps of 50 MHz below 600 MHz. -/
  slower : Nat := 0
  deriving DecidableEq, Repr

end Sys2Proof.Machine
end

