-- ==== Sys2Proof/Machine/State.lean ====
section
/-!
DEFINITION. The state of the machine and the reasons a step can stop.
-/
namespace Sys2Proof.Machine

/-- Why the machine stops with a fault. -/
inductive Fault where
  /-- Raised by every instruction word's meaning when the lane in focus has no clause in execution. The step never runs a
  word then, so no run reaches it. Safe. -/
  | noClause
  deriving DecidableEq, Repr

/-- Why the model gives an instruction no meaning. -/
inductive Refusal where
  /-- Raised by an arm of the dispatcher whose instruction has no meaning yet. Safe. -/
  | notModelled (mnemonic : String)
  /-- R45. Raised by HALT: the opcode map lists it and no rule says what it does. Safe. -/
  | haltUndescribed
  deriving DecidableEq, Repr

/-- Who moves next (log 2): one entry of the agenda. -/
inductive Turn where
  /-- A lane, by its key: it runs the next word of its clause. -/
  | lane (key : Nat)
  /-- An event of the opcode table. -/
  | event (i : Instr)
  /-- One clock of a core, of a die, of a channel, and one tick of the scheduler (R2, R20). -/
  | coreClock (core : Nat)
  | dieClock (die : Nat)
  | channelClock (chan : Nat)
  | tick
  /-- The host writes its own memory. -/
  | hostWrite (addr : Nat) (bs : List Byte)
  /-- R335, R336. The sensors read a die's temperature in 0.1 degrees, or the supply in mV. -/
  | temperature (die value : Nat)
  | supply (value : Nat)
  /-- R331. An error strikes the codeword of an address: 1 within one symbol, 2 beyond. -/
  | bitError (addr kind : Nat)
  /-- R146. Events that only timing makes: n of a source code on a core, or on a die. -/
  | timing (core code n : Nat)
  | dieTiming (die code n : Nat)
  /-- R150, R156. Element k on its way to the banks of a core reaches its bank. -/
  | bank (core k : Nat)
  /-- R143. Clocks of a core in which a bank refuses an access of its registers or its L1. -/
  | mogul (core n : Nat)
  /-- R186. An error beyond correction strikes a byte of scratch (0) or of the weight buffer (1), or an accumulator element (2). -/
  | coreError (core store at_ : Nat)
  deriving DecidableEq, Repr

/-- The state of the module. -/
structure State where
  squads : Tab Squad := []
  /-- Lane l of core c under 64 c + l. -/
  lanes : Tab Lane := []
  /-- Pair h (slots 2h and 2h+1) of lane l of core c under 2 (64 c + l) + h. -/
  pairs : Tab Pair := []
  cores : Tab CoreS := []
  launches : Tab Launch := []
  /-- Block b of launch l under 2^32 l + b. -/
  blocks : Tab Block := []
  /-- R149. HBM, by physical address: zero once bring-up completes. -/
  hbm : List Host.Cell := []
  /-- R331. The poisoned 128-byte lines, by physical address divided by 128. -/
  poisoned : Tab Bool := []
  /-- R152. The memory of the host, by host-link address; what is not listed reads zero (log 8). -/
  host : List Host.Cell := []
  /-- R220. The walks in flight. -/
  walks : List Walk := []
  /-- R232. The die fault stages, in order of creation. -/
  stage : List StageEntry := []
  /-- R235. Releases on their way to the die fault stages. -/
  releases : List Release := []
  /-- R20. The clocks of the C-dies and X-dies. -/
  dieClk : Tab Nat := []
  /-- R281, R292. Hardware queue slots 0 to 63, what the scheduler keeps of a queue, and the scheduler counter. -/
  slots : Tab Slot := []
  queues : Tab QueueRun := []
  schedClk : Word := 0
  graphs : Tab GraphRun := []
  /-- R295. The rotation pointer over the C-dies. -/
  rotation : Nat := 0
  /-- R127, R145. The dead-letter counter. -/
  deadLetter : Word := 0
  /-- R321, R324. MSI-X vector v of function f under 256 f + v, and the function error logs. -/
  msix : Tab MsixVector := []
  fnLogs : Tab FunctionLog := []
  /-- What has left the module, newest last (log 4). -/
  outbox : List OutMsg := []
  /-- R146. The event counters of the ten C- and X-dies, counter n of die d under 64 d + n. -/
  dieEvents : Tab EventCounter := []
  /-- R131. Outstanding loads, atomics and RET figures, by operation number. -/
  loads : Tab LoadOp := []
  /-- R249. Flagged FIGs in flight, by operation number. -/
  flagOps : Tab FlagOp := []
  /-- R9, R152. The lines held in their home slices, and in the memory-side caches, by physical address divided by 128. -/
  l2 : Tab L2Line := []
  msc : Tab MscLine := []
  /-- R326. The requests on their way from the memory-side caches to the channels. -/
  toChannel : List ChanReq := []
  /-- R169, R251. The prefetches that wait for a granule. -/
  prefetches : List Prefetch := []
  /-- R229. The die pin tables. -/
  pins : List PinEntry := []
  /-- R145. Pin overflows and figure drops of slices 0 to 767, and figure drops of channels 0 to 511. -/
  pinOverflow : Tab Word := []
  sliceDrops : Tab Word := []
  channelDrops : Tab Word := []
  /-- R252. The combining-buffer entries, oldest first. -/
  combining : List CombineEntry := []
  /-- R251. The figure requests at the channel update units, in arrival order. -/
  tileFigs : List TileFig := []
  /-- R245. Loads and unloads of figure definitions in progress, in the order they reached the table. -/
  figLoads : List FigLoad := []
  /-- R247. The definition caches, newest use first, by slice. -/
  defCache : Tab (List DefEntry) := []
  /-- R207. Packets in flight between this device and the pod, each pair's in sending order. -/
  pod : List PodMsg := []
  /-- R319. Branches of multicast lines at switches. -/
  branches : List Branch := []
  /-- R320. The reductions in progress. -/
  redx : List RedxOp := []
  /-- R266, R267. The deliveries on their way, in sending order, and the move queues by directory index. -/
  stns : List Delivery := []
  moves : Tab (List Delivery) := []
  /-- R260, R272. Class c of the region with control block r under 16 r + c. -/
  classes : Tab ClassEntry := []
  /-- R260, R276. The heats, by number. -/
  heats : Tab Heat := []
  /-- R312. The links, the next sequence number sent to and applied from each device, and the export window. -/
  links : Tab LinkS := []
  txSeq : Tab Word := []
  rxSeq : Tab Word := []
  window : ExportWindow := {}
  /-- R226, R314. The page-table root of each address space, as its regions gave it. -/
  roots : Tab Nat := []
  /-- R325. The channels and the module. -/
  channels : Tab ChannelS := []
  module : ModuleS := {}
  /-- R331. Codewords struck by an error, by physical address divided by 64: 1 correctable, 2 not. -/
  struck : Tab Nat := []
  /-- R187. Copies and tiles parked with saved squads. -/
  savedCopies : List CopyOp := []
  savedTiles : List TileOp := []
  /-- R280. Tender-inbox entries saved with a unit, by its first block; and those that wait for room in a core's inbox. -/
  savedInbox : Tab (List InboxEntry) := []
  inboxWait : Tab (List InboxEntry) := []
  /-- Who moves next; when it is empty, the lane in focus does (log 2). -/
  agenda : List Turn := []
  /-- Which lane moves when the agenda is empty (log 2). -/
  focus : Nat := 0
  /-- How many free values the run has drawn (log 3). -/
  fresh : Nat := 0
  /-- The number of the next operation to issue (log 2). -/
  nextId : Nat := 1
  deriving DecidableEq, Repr

/-- The machine right after reset. -/
def State.reset : State := {}

end Sys2Proof.Machine
end

