-- ==== Sys2Proof/Machine/Regs.lean ====
section
/-!
DEFINITION. Reading and writing the registers of squads and the parts of the machine by name (R55 to R63, R67, R69).
Every read and write of a register goes through these, so a hard-wired register reads as the manual says.
-/
namespace Sys2Proof.Machine

/-- The value of vpc that marks an exited thread (R13). -/
def exited : Word := 0xFFFFFFFF#32

/-- Change one squad. -/
def State.modSquad (s : State) (q : Nat) (f : Squad → Squad) : State := { s with squads := tabMod s.squads q f }

/-- A core's state. -/
def State.core (s : State) (c : Nat) : CoreS := tabGet {} s.cores c

/-- Change one core. -/
def State.modCore (s : State) (c : Nat) (f : CoreS → CoreS) : State := { s with cores := tabPut {} s.cores c (f (s.core c)) }

/-- A lane's state. -/
def State.lane (s : State) (k : Nat) : Lane := tabGet {} s.lanes k

/-- Change one lane. -/
def State.modLane (s : State) (k : Nat) (f : Lane → Lane) : State := { s with lanes := tabPut {} s.lanes k (f (s.lane k)) }

/-- A lane-slot pair's state. -/
def State.pair (s : State) (k : Nat) : Pair := tabGet {} s.pairs k

/-- Change one lane-slot pair. -/
def State.modPair (s : State) (k : Nat) (f : Pair → Pair) : State := { s with pairs := tabPut {} s.pairs k (f (s.pair k)) }

/-- The key of a lane (R7). -/
def laneKey (core lane : Nat) : Nat := 64 * core + lane

/-- R67. The key of the pair that a slot of a lane belongs to. -/
def pairKey (core lane slot : Nat) : Nat := 2 * laneKey core lane + slot / 2

/-- The core a squad is resident on. -/
def Squad.core (sq : Squad) : Nat :=
  match sq.place with
  | .resident c _ _ => c
  | .waiting => 0
  | .saved => 0
  | .retired => 0

/-- The lane key of a resident squad. -/
def Squad.laneOf (sq : Squad) : Nat :=
  match sq.place with
  | .resident c l _ => laneKey c l
  | .waiting => 0
  | .saved => 0
  | .retired => 0

/-- The lane slot of a resident squad. -/
def Squad.slot (sq : Squad) : Nat :=
  match sq.place with
  | .resident _ _ i => i
  | .waiting => 0
  | .saved => 0
  | .retired => 0

/-- Is the squad in a lane slot? -/
def Squad.isResident (sq : Squad) : Bool :=
  match sq.place with
  | .resident _ _ _ => true
  | .waiting => false
  | .saved => false
  | .retired => false

/-- The key of a resident squad's pair. -/
def Squad.pairOf (sq : Squad) : Nat := 2 * sq.laneOf + sq.slot / 2

/-- R68. Does the squad hold its pair lock? -/
def State.holdsLock (s : State) (q : Nat) (sq : Squad) : Bool :=
  sq.isResident && (s.pair sq.pairOf).owner == some q

/-- R55. Register `r` of thread `t`: v0 to v31 in the squad, v32 to v63 in its pair. -/
def State.readV (s : State) (sq : Squad) (r t : Nat) : Reg :=
  if r < 32 then tabGet 0 sq.v (32 * r + t) else tabGet 0 (s.pair sq.pairOf).v (32 * r + t)

/-- R55. Write register `r` of thread `t`. -/
def State.writeV (s : State) (q r t : Nat) (x : Reg) : State :=
  if r < 32 then s.modSquad q (fun sq => { sq with v := tabPut 0 sq.v (32 * r + t) x })
  else match tabFind s.squads q with
    | none => s
    | some sq => s.modPair sq.pairOf (fun p => { p with v := tabPut 0 p.v (32 * r + t) x })

/-- Write register `r` in several threads. -/
def State.writeVs (s : State) (q r : Nat) (xs : List (Nat × Reg)) : State :=
  xs.foldl (fun acc e => acc.writeV q r e.1 e.2) s

/-- R55, R58. A scalar register; s0 reads 0. -/
def Squad.readS (sq : Squad) (r : Nat) : Reg := if r = 0 then 0 else tabGet 0 sq.sc r

/-- R55, R58. Write a scalar register; a write to s0 is ignored. -/
def State.writeS (s : State) (q r : Nat) (x : Reg) : State :=
  if r = 0 then s else s.modSquad q (fun sq => { sq with sc := tabPut 0 sq.sc r x })

/-- R55, R59. The eight bits of a predicate in a thread; p0 reads all ones. -/
def Squad.readP (sq : Squad) (p t : Nat) : Byte := if p = 0 then 0xFF else tabGet 0 sq.pr (32 * p + t)

/-- R55, R59. Write a predicate in a thread; a write to p0 is ignored. -/
def State.writeP (s : State) (q p t : Nat) (x : Byte) : State :=
  if p = 0 then s else s.modSquad q (fun sq => { sq with pr := tabPut 0 sq.pr (32 * p + t) x })

/-- Write a predicate in several threads. -/
def State.writePs (s : State) (q p : Nat) (xs : List (Nat × Byte)) : State :=
  xs.foldl (fun acc e => acc.writeP q p e.1 e.2) s

/-- R55. vpc of a thread. -/
def Squad.readVpc (sq : Squad) (t : Nat) : Word := tabGet exited sq.vpc t

/-- A squad with vpc of a thread replaced. -/
def Squad.withVpc (sq : Squad) (t : Nat) (a : Word) : Squad := { sq with vpc := tabPut exited sq.vpc t a }

/-- A squad with vpc replaced in every thread of a mask. -/
def Squad.withVpcs (sq : Squad) (m : Word) (a : Word) : Squad :=
  (maskThreads m).foldl (fun acc t => acc.withVpc t a) sq

/-- R62. The live threads. -/
def Squad.live (sq : Squad) : List Nat := threads.filter (fun t => sq.readVpc t != exited)

/-- R62. The issue address: the least vpc over the live threads. -/
def Squad.issueAddr (sq : Squad) : Option Word :=
  match sq.live with
  | [] => none
  | t :: r => some (r.foldl (fun a u => if sq.readVpc u < a then sq.readVpc u else a) (sq.readVpc t))

/-- R62. The threads whose vpc is `a`. -/
def Squad.atAddr (sq : Squad) (a : Word) : Word := maskOf (fun t => sq.readVpc t == a && a != exited)

/-- R69. The hold count of a register. -/
def State.readHold (s : State) (sq : Squad) (r : Nat) : BitVec 6 :=
  if r < 32 then tabGet 0 sq.hold r else tabGet 0 (s.pair sq.pairOf).hold r

/-- R69. Write the hold count of a register. -/
def State.writeHold (s : State) (q r : Nat) (x : BitVec 6) : State :=
  if r < 32 then s.modSquad q (fun sq => { sq with hold := tabPut 0 sq.hold r x })
  else match tabFind s.squads q with
    | none => s
    | some sq => s.modPair sq.pairOf (fun p => { p with hold := tabPut 0 p.hold r x })

/-- R60. The mode word's rounding mode. -/
def Squad.rm (sq : Squad) : RMode := rmodeOf (sq.mode.toNat % 8)

/-- R60. The mode word's DET bit. -/
def Squad.det (sq : Squad) : Bool := sq.mode.getLsbD 3

/-- R107. A thread's generator word. -/
def Squad.readGen (sq : Squad) (t : Nat) : Word := tabGet 0 sq.gen t

/-- Write a thread's generator word. -/
def State.writeGen (s : State) (q t : Nat) (g : Word) : State :=
  s.modSquad q (fun sq => { sq with gen := tabPut 0 sq.gen t g })

/-- R282. The resolved region of a squad's launch. -/
def State.regionOf (s : State) (sq : Squad) : Region :=
  match tabFind s.launches sq.launch with
  | some l => l.region
  | none => {}

/-- Change one launch. -/
def State.modLaunch (s : State) (l : Nat) (f : Launch → Launch) : State := { s with launches := tabMod s.launches l f }

/-- The key of block `b` of launch `l`. -/
def blockKey (l b : Nat) : Nat := 4294967296 * l + b

/-- The key of a squad's block. -/
def Squad.blockOf (sq : Squad) : Nat := blockKey sq.launch sq.block

/-- The block of a squad. -/
def State.block (s : State) (k : Nat) : Block := (tabFind s.blocks k).getD {}

/-- Change one block. -/
def State.modBlock (s : State) (k : Nat) (f : Block → Block) : State := { s with blocks := tabMod s.blocks k f }

/-- The C-die of a core (R7). -/
def dieOfCore (c : Nat) : Nat := c / 48

/-- One counter's count raised by n when its source is `code`. -/
def EventCounter.add (code n : Nat) (e : EventCounter) : EventCounter :=
  if e.source.toNat = code then { e with count := e.count + BitVec.ofNat 48 n } else e

/-- R146. Events of a core: its enabled counters of that source, and its die's counters of that source. -/
def State.coreEvent (s : State) (c code n : Nat) : State :=
  let s1 := s.modCore c (fun k => { k with events := k.events.map (fun p => (p.1, if p.2.en then p.2.add code n else p.2)) })
  { s1 with dieEvents := s1.dieEvents.map (fun p => if p.2.en && p.1 / 64 == dieOfCore c then (p.1, p.2.add code n) else p) }

/-- R146. Events of a die's slices, channels and links. -/
def State.dieEvent (s : State) (die code n : Nat) : State :=
  { s with dieEvents := s.dieEvents.map (fun p => if p.2.en && p.1 / 64 == die then (p.1, p.2.add code n) else p) }

/-- The number of the next operation, and the state in which it is taken. -/
def State.newId (s : State) : Nat × State := (s.nextId, { s with nextId := s.nextId + 1 })

/-- R313. The key of a pair of devices. -/
def pairOfDevices (src dst : Nat) : Nat := 4096 * src + dst

/-- R207, R313. A packet of this device takes its number and its place in the sending order of its pair. -/
def State.podSend (s : State) (m : PodMsg) : State :=
  let r := s.newId
  { r.2 with pod := r.2.pod ++ [{ m with id := r.1 }] }

/-- R313. A packet that leaves takes the next number of its pair, and its place behind those that have one. -/
def State.podNumber (s : State) (m : PodMsg) : State :=
  let k := pairOfDevices m.src m.dst
  let rest := s.pod.filter (fun x => x.id != m.id)
  if m.seq.isSome then s
  else { s with pod := rest.filter (·.seq.isSome) ++ { m with seq := some (tabGet 0 s.txSeq k) } :: rest.filter (·.seq.isNone)
                txSeq := tabPut 0 s.txSeq k (tabGet 0 s.txSeq k + 1) }

/-- Draw a free value (log 3). -/
def State.free (s : State) : Reg × State := (Config.freeValue s.fresh, { s with fresh := s.fresh + 1 })

/-- R129. P of flag n. -/
def Squad.flagP_ (sq : Squad) (n : Nat) : Nat := sq.flagP.toNat / 2 ^ (4 * n) % 16

/-- A bit of a 12-bit flag field set or cleared. -/
def setBit12 (x : BitVec 12) (n : Nat) (b : Bool) : BitVec 12 :=
  if b then x ||| BitVec.ofNat 12 (2 ^ n) else x &&& ~~~ BitVec.ofNat 12 (2 ^ n)

/-- R129. P of flag n replaced. -/
def Squad.withFlagP (sq : Squad) (n v : Nat) : Squad :=
  { sq with flagP := (sq.flagP &&& ~~~ BitVec.ofNat 48 (15 * 2 ^ (4 * n))) ||| BitVec.ofNat 48 (v % 16 * 2 ^ (4 * n)) }

/-- R129. Issue of an instruction that names flag n: P rises and F clears. -/
def Squad.flagIssue (sq : Squad) (n : Nat) : Squad :=
  let x := sq.withFlagP n (sq.flagP_ n + 1)
  { x with flagF := setBit12 x.flagF n false }

/-- R129. Completion of an instruction that named flag n: P falls, E is set on an error, F is set when P reaches 0. -/
def Squad.flagDone (sq : Squad) (n : Nat) (err : Bool) : Squad :=
  let p := sq.flagP_ n - 1
  let x := sq.withFlagP n p
  { x with
    flagE := if err then setBit12 x.flagE n true else x.flagE
    flagF := if p = 0 then setBit12 x.flagF n true else x.flagF }

/-- R63. A word makes the squad's next clause wait, after what earlier words of its clause wait for. -/
def Squad.await (sq : Squad) (w : NextWait) : Squad :=
  match sq.nextWait with
  | none => { sq with nextWait := some w }
  | some _ => { sq with moreWaits := sq.moreWaits ++ [w] }

/-- R63. The first wait of a squad's next clause is over. -/
def Squad.waited (sq : Squad) : Squad := { sq with nextWait := sq.moreWaits.head?, moreWaits := sq.moreWaits.tail }

/-- R63. A wait of a squad's next clause is over, whichever of them it is. -/
def Squad.waitedFor (sq : Squad) (w : NextWait) : Squad :=
  let rest := (sq.nextWait.toList ++ sq.moreWaits).filter (fun x => x != w)
  { sq with nextWait := rest.head?, moreWaits := rest.tail }

end Sys2Proof.Machine
end

