-- ==== Sys2Proof/Machine/Mem.lean ====
section
/-!
DEFINITION. HBM by bytes and words, a fault record's form, and what leaves the module (R149, R234, R321, R324, R331).
-/
namespace Sys2Proof.Machine

/-- R16, R333. This device's id, as its image gives it. -/
def State.own (s : State) : Nat := s.module.config.deviceId.toNat

/-- A memory as plain data: the bytes that are not zero, addresses strictly rising. -/
abbrev Memory := List Host.Cell

/-- The canonical form of a memory. -/
def Memory.wf (m : Memory) : Bool := tabWf 0 m

/-- The memories of the state, HBM and the host's, are in canonical form. -/
def State.memWf (s : State) : Bool := Memory.wf s.hbm && Memory.wf s.host

/-- R149. One byte of HBM; a byte that nothing has written reads zero. An address beyond the end of HBM is read as any other (log 58). -/
def State.readByte (s : State) (a : Nat) : Byte := tabGet 0 s.hbm a

/-- Write one byte of HBM. -/
def State.writeByte (s : State) (a : Nat) (b : Byte) : State := { s with hbm := tabPut 0 s.hbm a b }

/-- The n bytes from an address. -/
def State.readBytes (s : State) (a n : Nat) : List Byte := (List.range n).map (fun i => s.readByte (a + i))

/-- Write bytes from an address up. -/
def State.writeBytes (s : State) (a : Nat) (bs : List Byte) : State :=
  match bs with
  | [] => s
  | b :: r => (s.writeByte a b).writeBytes (a + 1) r

/-- R1. An n-byte little-endian value of HBM. -/
def State.readLe (s : State) (a n : Nat) : Nat := leVal (s.readBytes a n)

/-- R1. Store an n-byte little-endian value. -/
def State.writeLe (s : State) (a n v : Nat) : State := s.writeBytes a (leBytes n v)

/-- R331. Is the 128-byte line of an address poisoned? -/
def State.isPoisoned (s : State) (a : Nat) : Bool := tabGet false s.poisoned (a / 128)

/-- R331. One update of HBM: a write of all 128 bytes of a line clears its poison. -/
def State.storeBytes (s : State) (a : Nat) (bs : List Byte) : State :=
  let s1 := s.writeBytes a bs
  if a % 128 = 0 ∧ bs.length = 128 then { s1 with poisoned := tabPut false s1.poisoned (a / 128) false } else s1

/-- R321. Log a refused access in a function's error log. -/
def State.logFn (s : State) (fn addr kind reason req : Nat) : State :=
  let l := tabGet {} s.fnLogs fn
  let e := leBytes 8 addr ++ leBytes 1 kind ++ [Config.logReason kind reason] ++ leBytes 2 req ++ leBytes 4 0
  { s with fnLogs := tabPut {} s.fnLogs fn { entries := (e :: l.entries).take 16, count := l.count + 1 } }

/-- Append a message to what leaves the module. -/
def State.send (s : State) (m : OutMsg) : State := { s with outbox := s.outbox ++ [m] }

/-- R321. The number of MSI-X vectors of a function. -/
def vectorsOf (fn : Nat) : Nat := if fn = 0 then 256 else 64

/-- R324. Interrupt a function: the message goes, or its pending bit is set while masked, or the vector is logged. -/
def State.interrupt (s : State) (fn vec : Nat) : State :=
  if vec < vectorsOf fn then
    let k := 256 * fn + vec
    let v := tabGet {} s.msix k
    if v.masked then { s with msix := tabPut {} s.msix k { v with pending := true } } else s.send (.msix fn vec)
  else s.logFn fn vec 3 0 fn

/-- R234. A fault record before it is laid out. -/
structure FaultRec where
  addr : Nat := 0
  asid : Nat := 0
  cause : Nat := 0
  detail : Nat := 0
  kinds : Nat := 0
  source : Nat := 0
  waiters : Nat := 0
  cores : Nat := 0
  die : Nat := 0
  sname : Nat := 0
  code : Nat := 0
  rcb : Nat := 0
  range : Nat := 0
  second : Nat := 0
  deriving DecidableEq, Repr

/-- R234. The 64 bytes of a fault record. -/
def FaultRec.bytes (r : FaultRec) : List Byte :=
  leBytes 8 r.addr ++ leBytes 2 r.asid ++ leBytes 1 r.cause ++ leBytes 1 r.detail ++ leBytes 1 r.kinds ++
  leBytes 1 r.source ++ leBytes 2 r.waiters ++ leBytes 8 (r.cores % 2 ^ 48 + r.die % 8 * 2 ^ 48) ++ leBytes 4 r.sname ++
  leBytes 4 r.code ++ leBytes 8 r.rcb ++ leBytes 8 r.range ++ leBytes 1 r.second ++ leBytes 15 0

/-- R234. The core mask of a record about one core. -/
def coreBit (c : Nat) : Nat := 2 ^ (c % 48)

/-- R10. A physical address that memory holds in 8 bytes: its low 52 bits (log 58). -/
def State.readPa (s : State) (a : Nat) : Nat := s.readLe a 8 % 2 ^ 52

end Sys2Proof.Machine
end

