-- ==== Sys2Proof/Machine/Slices.lean ====
section
/-!
DEFINITION. The homes of lines: placement of a physical address, and what the slices, the memory-side caches and the channels do when
an access reaches a line (R9, R10, R145, R152, R153, R229, R326, R331, R332).
-/
namespace Sys2Proof.Machine

/-- R10. The C-die of a physical address. -/
def dieOfPa (pa : Nat) : Nat := pa / 2 ^ 16 % 8

/-- R10. The line index within the die. -/
def lineIndex (pa : Nat) : Nat := pa / 2 ^ 19 * 512 + pa / 2 ^ 7 % 512

/-- R10. The home slice. -/
def sliceOf (pa : Nat) : Nat :=
  let l := lineIndex pa
  let h := Nat.xor (Nat.xor (l % 2 ^ 17) (l / 2 ^ 17 % 2 ^ 17)) (l / 2 ^ 34 % 256)
  dieOfPa pa * 96 + h % 96

/-- R10. The channel. -/
def channelOf (pa : Nat) : Nat := dieOfPa pa * 64 + lineIndex pa / 16 % 64

/-- R7. The C-dies of a slice and of a channel. -/
def dieOfSlice (sl : Nat) : Nat := sl / 96
def dieOfChannel (ch : Nat) : Nat := ch / 64

/-- R229. One more pinned line of an address space on a die, when its share and the die pin table have room. -/
def State.pinRoom (s : State) (die asid quota : Nat) : Option State :=
  match s.pins.find? (fun e => e.die == die && e.asid == asid) with
  | some e =>
    if e.bytes + 128 ≤ e.share then
      some { s with pins := s.pins.map (fun x => if x.die == die && x.asid == asid then { x with bytes := x.bytes + 128 } else x) }
    else none
  | none =>
    let share := quota / 8 / 128 * 128
    if (s.pins.filter (fun e => e.die == die)).length < 64 ∧ 128 ≤ share then
      some { s with pins := s.pins ++ [{ die := die, asid := asid, share := share, bytes := 128 }] }
    else none

/-- R326. For whom an access is made: a region's, on one of its cores, and what its page walk reads. -/
def Region.asker (g : Region) (core : Nat) : Asker :=
  { core := some core, asid := g.asid, quota := g.pinQuota, cls := g.svc, budget := g.deadline }
def Walk.asker (w : Walk) : Asker := { core := some w.core, asid := w.asid, cls := w.cls, budget := w.budget }

/-- R144. For whom a slice serves what no one core asks for, in a region. -/
def Region.sliceAsker (g : Region) : Asker := { g.asker 0 with core := none }

/-- R145. A line of a PINNED page is installed as CACHED. -/
def State.pinOverflowed (s : State) (pa : Nat) : State :=
  let sl := sliceOf pa
  { s with pinOverflow := tabPut 0 s.pinOverflow sl (tabGet 0 s.pinOverflow sl + 1) }.dieEvent (dieOfSlice sl) 0x44 1

/-- R9. The lines of a line's set in its home slice. -/
def State.setOf (s : State) (pa : Nat) : List (Nat × L2Line) :=
  s.l2.filter (fun e => sliceOf (e.1 * 128) == sliceOf pa && Config.l2Set e.1 == Config.l2Set (pa / 128))

/-- A channel's state, and the state with one channel changed. -/
def State.channel (s : State) (ch : Nat) : ChannelS := tabGet {} s.channels ch
def State.modChannel (s : State) (ch : Nat) (f : ChannelS → ChannelS) : State :=
  { s with channels := tabPut {} s.channels ch (f (s.channel ch)) }

/-- R332. Remove the oldest corrected entry of an error log, or the oldest of all for an uncorrectable error. -/
def errRoom (es : List ErrEntry) (bad : Bool) : Option (List ErrEntry) :=
  if es.length < 16 then some es
  else match es.find? (fun e => !e.bad) with
    | some e => some (es.erase e)
    | none => if bad then some (es.drop 1) else none

/-- R332. A channel logs an error. -/
def ChannelS.logError (c : ChannelS) (addr : Nat) (bad groomer : Bool) : ChannelS :=
  let es := if c.errors.any (fun e => e.addr == addr) then
      c.errors.map (fun e => if e.addr = addr then
        { e with bad := bad, groomer := groomer, times := min 65535 (e.times + 1), at_ := c.clk } else e)
    else match errRoom c.errors bad with
      | some l => l ++ [{ addr := addr, bad := bad, groomer := groomer, at_ := c.clk }]
      | none => c.errors
  { c with errors := es, errCount := c.errCount + 1 }

/-- R331. A channel reads a codeword: an error within one symbol is corrected, one beyond poisons the line. -/
def State.readCodeword (s : State) (groomer : Bool) (cw : Nat) : State :=
  let kind := tabGet 0 s.struck cw
  if kind = 0 then s
  else
    let a := 64 * cw
    let s1 := { s with struck := tabDel s.struck cw }.modChannel (channelOf a) (fun c => c.logError a (decide (kind ≠ 1)) groomer)
    if kind = 1 then s1.dieEvent (dieOfPa a) 0x49 1
    else
      let r : FaultRec := { addr := a, cause := 10, source := 5, die := dieOfPa a }
      { s1 with poisoned := tabPut false s1.poisoned (a / 128) true }.send (.mgmtRecord r.bytes)

/-- R331. A channel reads a line. -/
def State.readLine (s : State) (groomer : Bool) (line : Nat) : State :=
  (s.readCodeword groomer (2 * line)).readCodeword groomer (2 * line + 1)

/-- R326. A memory-side cache sends a request for a line to its channel; a write-back or a refill has the class and the budget of the
request that causes it. -/
def State.askChannel (s : State) (w : Asker) (line : Nat) (write : Bool) : State :=
  { s with toChannel := s.toChannel ++ [{ cls := w.cls, budget := w.budget, line := line, core := w.core, write := write }] }

/-- R6, R149. How many lines a memory-side cache of 768 MiB holds. -/
def mscLines : Nat := 6291456

/-- R149. A memory-side cache writes a line back, when it is dirty, and loses it. -/
def State.mscDrop (s : State) (w : Asker) (line : Nat) : State :=
  match tabFind s.msc line with
  | none => s
  | some l =>
    let s1 : State := { s with msc := tabDel s.msc line }
    if l.dirty then s1.askChannel w line true else s1

/-- R149. A full memory-side cache loses a line; which one is left open (log 3). -/
def State.mscRoom (s : State) (w : Asker) (die : Nat) : State :=
  let ls := s.msc.filter (fun e => dieOfPa (e.1 * 128) == die)
  if ls.length < mscLines then s
  else
    let r := s.free
    match ls[r.1.toNat % ls.length]? with
    | some e => r.2.mscDrop w e.1
    | none => r.2

/-- R9, R152. A request passes the memory-side cache; a miss is served by the channel. -/
def State.mscTouch (s : State) (w : Asker) (pa : Nat) (write : Bool) : State :=
  let die := dieOfPa pa
  match tabFind s.msc (pa / 128) with
  | some l => { s with msc := tabIns s.msc (pa / 128) { dirty := l.dirty || write } }.dieEvent die 0x42 1
  | none =>
    let s1 := ((s.dieEvent die 0x43 1).mscRoom w die).askChannel w (pa / 128) false
    { s1 with msc := tabIns s1.msc (pa / 128) { dirty := write } }.readLine false (pa / 128)

/-- R146, R149. A slice writes a line back to the memory-side cache. That this is neither a hit nor a miss there (0x42, 0x43) is the
model's choice (log 67). -/
def State.mscWriteBack (s : State) (w : Asker) (line : Nat) : State :=
  let s1 := if (tabFind s.msc line).isSome then s else s.mscRoom w (dieOfPa (line * 128))
  { s1 with msc := tabIns s1.msc line { dirty := true } }

/-- R149. A home slice loses a line, which it writes back when it is dirty. -/
def State.l2Drop (s : State) (w : Asker) (line : Nat) (l : L2Line) : State :=
  let s1 : State := { s with l2 := tabDel s.l2 line }
  if l.dirty then s1.mscWriteBack w line else s1

/-- R152, R153. The lines of a full set that may be lost: its STREAM lines where there is one, never a pinned one. -/
def victims (set : List (Nat × L2Line)) : List (Nat × L2Line) :=
  let free := set.filter (fun e => !e.2.pinned)
  let streams := free.filter (fun e => e.2.stream)
  if streams.isEmpty then free else streams

/-- R152, R153. A full set loses a line. Which one of several that may be lost, of its STREAM lines too, is a free value (log 3). -/
def State.makeRoom (s : State) (w : Asker) (pa : Nat) : State :=
  let set := s.setOf pa
  if set.length < 16 then s
  else
    let r := s.free
    match (victims set)[r.1.toNat % (max 1 (victims set).length)]? with
    | some e => r.2.l2Drop w e.1 e.2
    | none => r.2

/-- R153, R229. Install a line in its home slice, pinned when its page asks for it and there is room. -/
def State.installLine (s : State) (w : Asker) (pa home : Nat) (write : Bool) : State :=
  let s1 := s.makeRoom w pa
  let put (x : State) (l : L2Line) : State := { x with l2 := tabIns x.l2 (pa / 128) { l with dirty := write } }
  if home = 1 then
    if ((s1.setOf pa).filter (fun e => e.2.pinned)).length < 12 then
      match s1.pinRoom (dieOfPa pa) w.asid w.quota with
      | some s2 => put s2 { pinned := true, asid := w.asid }
      | none => put (s1.pinOverflowed pa) {}
    else put (s1.pinOverflowed pa) {}
  else put s1 { stream := home == 2 }

/-- R146, R152, R251. An access reaches the home of a line: a hit, or a fetch through the memory-side cache, into the line's own way when
it is pinned there without its data. Each access that meets its home, several of one line among them, counts one hit or one miss of the
slice (0x40, 0x41), and each fetch one of the memory-side cache (0x42, 0x43): the model's choice (log 67). -/
def State.touchHome (s : State) (w : Asker) (host : Bool) (pa home : Nat) (write : Bool) : State :=
  if host then s
  else if home = 3 then s.mscTouch w pa write
  else
    let miss := (s.dieEvent (dieOfPa pa) 0x41 1).mscTouch w pa false
    match tabFind s.l2 (pa / 128) with
    | none => miss.installLine w pa home write
    | some l =>
      if l.present then
        { s with l2 := tabIns s.l2 (pa / 128) { l with dirty := l.dirty || write } }.dieEvent (dieOfPa pa) 0x40 1
      else { miss with l2 := tabIns miss.l2 (pa / 128) { l with present := true, dirty := write } }

end Sys2Proof.Machine
end

