-- ==== Sys2Proof/Machine/Posting.lean ====
section
/-!
DEFINITION. The device's own accesses to HBM, which reach the homes of their lines as any others, and the fault queues
(R9, R152, R233, R234, R324).
-/
namespace Sys2Proof.Machine

/-- R9, R152. An access of the device's own, to a queue descriptor, a directory entry, a fault queue or a save-area record, reaches the
homes of its lines, as one to a CACHED page does, for no core (log 57). Nothing but what the homes hold and count changes. -/
def State.ownTouch (s : State) (a n : Nat) (write : Bool) : State :=
  let lines := (List.range ((a + n + 127) / 128 - a / 128)).map (fun i => a / 128 + i)
  let t := lines.foldl (fun acc l => acc.touchHome {} false (l * 128) 0 write) s
  { s with l2 := t.l2, msc := t.msc, pins := t.pins, pinOverflow := t.pinOverflow, dieEvents := t.dieEvents, toChannel := t.toChannel,
           channels := t.channels, struck := t.struck, poisoned := t.poisoned, outbox := t.outbox, fresh := t.fresh }

/-- R9, R152, R331. A store of the device's own, at the homes of its lines. -/
def State.ownStore (s : State) (a : Nat) (bs : List Byte) : State := (s.ownTouch a bs.length true).storeBytes a bs

/-- R233. Is the ring of a fault queue full? -/
def State.ringFull (s : State) (fq : Nat) : Bool :=
  decide ((s.readLe (fq + 0x10) 4 + 2 ^ 32 - s.readLe (fq + 0x14) 4) % 2 ^ 32 = 2 ^ (s.readLe (fq + 8) 4))

/-- R233, R324. The interrupt that a fault queue's header names; records of cause 11, 0x25 and 0x26 go to the controller. -/
def State.queueInterrupt (s : State) (fq fn cause : Nat) : State :=
  let w := s.readLe (fq + 0x0C) 4
  if bitOf w 16 || cause == 11 || cause == 0x25 || cause == 0x26 then s.send .mgmtIrq else s.interrupt fn (w % 65536)

/-- R233. Write a record at the tail, then the tail, both through the home slices, then raise the interrupt. The ring has room. -/
def State.postAt (s : State) (fq fn cause : Nat) (bs : List Byte) : State :=
  let tail := s.readLe (fq + 0x10) 4
  let n := 2 ^ (s.readLe (fq + 8) 4)
  let s1 := s.ownStore (s.readPa fq + 64 * (tail % n)) bs
  let s2 := s1.ownStore (fq + 0x10) (leBytes 4 (tail + 1))
  s2.queueInterrupt fq fn cause

/-- R233. Count an entry in the queue's overflow count. -/
def State.countOverflow (s : State) (fq : Nat) : State :=
  s.ownStore (fq + 0x18) (leBytes 4 (s.readLe (fq + 0x18) 4 + 1))

/-- R232, R234. How many entries a die's stage holds. -/
def State.stageCount (s : State) (die : Nat) : Nat := (s.stage.filter (fun e => e.die == die)).length

/-- The die clock (R2, R20). -/
def State.clockOfDie (s : State) (die : Nat) : Nat := tabGet 0 s.dieClk die

/-- R234. Post a record at once. With the ring full it takes an entry of the die's stage, or is discarded; either is counted. -/
def State.postNow (s : State) (fq fn die : Nat) (r : FaultRec) : State :=
  if fq = 0 then s
  else if s.ringFull fq then
    let s1 := s.countOverflow fq
    if s1.stageCount die < 256 then
      { s1 with stage := s1.stage ++ [{ die := die, fn := fn, asid := r.asid, fq := fq, rcb := r.rcb, born := s1.clockOfDie die,
                                         tried := s1.clockOfDie die, overflowed := true, record := some r.bytes }] }
    else s1
  else s.postAt fq fn r.cause r.bytes

/-- The region fields that every record of a region carries. -/
def Region.fillRec (g : Region) (r : FaultRec) : FaultRec := { r with asid := g.asid, rcb := g.rcb }

/-- Post a record to a region's fault queue. -/
def State.postRegion (s : State) (g : Region) (die : Nat) (r : FaultRec) : State := s.postNow g.faultQueue g.fn die (g.fillRec r)

end Sys2Proof.Machine
end

