-- ==== Sys2Proof/Machine/Directory.lean ====
section
/-!
DEFINITION. The name directory, server registrations, and the dropping of named stores (R145, R260 to R263, R267, R274).
-/
namespace Sys2Proof.Machine

/-- R261. The fields of a name. -/
def nameDev (n : Word) : Nat := n.toNat / 2 ^ 20
def nameIndex (n : Word) : Nat := n.toNat / 2 ^ 6 % 2 ^ 14
def nameGen (n : Word) : Nat := n.toNat % 2 ^ 6

/-- R261. The name of an index and a generation on this device. -/
def State.nameOf (s : State) (i gen : Nat) : Word := BitVec.ofNat 32 (s.own * 2 ^ 20 + i * 2 ^ 6 + gen)

/-- R262. The states of a directory entry, by their codes. -/
def dirFree : Nat := 0
def dirLive : Nat := 1
def dirParked : Nat := 2
def dirMoving : Nat := 3
def dirRetired : Nat := 4

/-- R262. A directory entry. -/
structure DirEntry where
  st : Nat := 0
  gen : Nat := 0
  queued : Nat := 0
  core : Nat := 0
  lane : Nat := 0
  slot : Nat := 0
  save : Nat := 0
  deriving DecidableEq, Repr

/-- R262. Where entry i lies. -/
def State.dirAt (s : State) (i : Nat) : Nat := s.module.config.directory.toNat + 16 * i

/-- R262. Entry i as memory holds it. -/
def State.dirEntry (s : State) (i : Nat) : DirEntry :=
  let a := s.dirAt i
  let w := s.readLe (a + 4) 4
  { st := s.readLe a 1 % 8, gen := s.readLe (a + 1) 1 % 64, queued := s.readLe (a + 3) 1, core := bits w 8 0,
    lane := bits w 14 9, slot := bits w 16 15, save := s.readLe (a + 8) 8 }

/-- R262. The 16 bytes of an entry. -/
def DirEntry.bytes (e : DirEntry) : List Byte :=
  leBytes 1 e.st ++ leBytes 1 e.gen ++ leBytes 1 0 ++ leBytes 1 e.queued ++
  leBytes 4 (e.core + e.lane * 2 ^ 9 + e.slot * 2 ^ 15) ++ leBytes 8 e.save

/-- R262. The directory agent, the entry's home slice, changes entry i. -/
def State.putDir (s : State) (i : Nat) (e : DirEntry) : State := s.ownStore (s.dirAt i) e.bytes

/-- R130, R266, R268. The flag of a delivery sent by this device completes. -/
def State.deliveryFlag (s : State) (d : Delivery) (err : Bool) : State :=
  match d.flag with
  | some n => if d.mine then s.modSquad d.squad (fun sq => sq.flagDone n err) else s
  | none => s

/-- R145, R261. One named store is dead-lettered on this device. -/
def State.countDead (s : State) : State := { s with deadLetter := s.deadLetter + 1 }.dieEvent 8 0x4A 1

/-- R261, R267. A delivery is dropped at this device: counted, and its flag completes with error. -/
def State.dropDelivery (s : State) (d : Delivery) : State := s.countDead.deliveryFlag d true

/-- R263. The move queue of an entry is dropped. -/
def State.dropMoves (s : State) (i : Nat) : State :=
  (tabGet [] s.moves i).foldl State.dropDelivery { s with moves := tabDel s.moves i }

/-- R263. A squad's name, when it holds one, becomes RETIRED. -/
def State.retireName (s : State) (name : Word) : State :=
  if name = 0 then s
  else
    let i := nameIndex name
    let s1 := s.putDir i { (s.dirEntry i) with st := dirRetired, queued := 0, core := 0, lane := 0, slot := 0, save := 0 }
    s1.dropMoves i

/-- R260. The key of a region's class. -/
def classKey (rcb c : Nat) : Nat := 16 * rcb + c

/-- R274. The class table entry of a region. -/
def State.classOf (s : State) (rcb c : Nat) : ClassEntry := tabGet {} s.classes (classKey rcb c)

/-- R274. A core's bit in a server mask. -/
def serverBit (core : Nat) : BitVec 384 := BitVec.ofNat 384 (2 ^ core)

/-- R274. The registration of class c on a core ends. -/
def State.endServer (s : State) (rcb core c : Nat) : State :=
  let e := s.classOf rcb c
  { (s.modCore core (fun k => { k with servers := tabDel k.servers c })) with
    classes := tabPut {} s.classes (classKey rcb c) { e with servers := e.servers &&& ~~~ serverBit core } }

/-- R274. The classes that a name serves on a core. -/
def CoreS.servedBy (k : CoreS) (name : Word) : List Nat :=
  (List.range 16).filter (fun c => name != 0 && tabGet 0 k.servers c == name)

/-- R265, R274. Every server registration of a squad's name on its core ends. -/
def State.endServers (s : State) (rcb core : Nat) (name : Word) : State :=
  ((s.core core).servedBy name).foldl (fun acc c => acc.endServer rcb core c) s

/-- Draw n free bits (log 3). -/
def State.freeBits (s : State) (n : Nat) : List Bool × State :=
  ((List.range n).map (fun i => (Config.freeValue (s.fresh + i)).getLsbD 0), { s with fresh := s.fresh + n })

/-- Keep every element, but for those that satisfy `p` and whose free bit says no. -/
def keepSome {α : Type} (bs : List Bool) (p : α → Bool) (l : List α) : List α :=
  (l.zip bs).filterMap (fun x => if !p x.1 || x.2 then some x.1 else none)

end Sys2Proof.Machine
end

