-- ==== Sys2Proof/Machine/Kill.lean ====
section
/-!
DEFINITION. Stopping a queue, the save area's allocation, and killing a fault domain (R284, R285, R287, R292, R307).
-/
namespace Sys2Proof.Machine

/-- R284. Is a region in the subtree of a fault domain? -/
def Region.within (g : Region) (domain : Nat) : Bool := g.path.any (fun e => e.1 == domain)

/-- R285. The address of a queue's descriptor. -/
def State.queueDesc (s : State) (q : Nat) : Nat := s.module.config.queueTable.toNat + 64 * q

/-- R292. What the scheduler keeps of a queue. -/
def State.queueRun (s : State) (q : Nat) : QueueRun := tabGet {} s.queues q

/-- Change it. -/
def State.modQueue (s : State) (q : Nat) (f : QueueRun → QueueRun) : State :=
  { s with queues := tabPut {} s.queues q (f (s.queueRun q)) }

/-- R292. A queue leaves the slot it holds, if any. -/
def State.unbind (s : State) (q : Nat) : State :=
  { s with slots := s.slots.filter (fun e => e.2.queue != q) }.modQueue q (fun x => { x with unboundAt := s.schedClk.toNat })

/-- R287, R292. A queue stops with a status: the status and the failing packet's id are written, its interrupt is raised,
and its slot frees. -/
def State.queueStatus (s : State) (q status packetId : Nat) : State :=
  let d := s.queueDesc q
  let s1 := s.ownStore (d + 0x0B) (leBytes 1 status)
  let s2 := s1.ownStore (d + 0x20) (leBytes 4 packetId)
  (s2.interrupt (s.readLe (d + 0x09) 1) (s.readLe (d + 0x24) 2)).unbind q

/-- R284 step 5. A killed launch's queue takes status 8 and is disabled. -/
def State.queueKilled (s : State) (q packetId : Nat) : State :=
  let s1 := s.queueStatus q 8 packetId
  s1.ownStore (s1.queueDesc q + 0x0A) (leBytes 1 0)

/-- R307. The size of a save-area record. -/
def recordSize : Nat := 0x8000

/-- R307. Is record r of a region's save area in use? The bitmap's form is the model's (log 21). -/
def State.recordUsed (s : State) (g : Region) (r : Nat) : Bool := bitOf (s.readByte (g.saveBase + r / 8)).toNat (r % 8)

/-- R307. Mark record r of a region's save area. -/
def State.markRecord (s : State) (g : Region) (r : Nat) (used : Bool) : State :=
  let a := g.saveBase + r / 8
  let b := (s.readByte a).toNat
  let old := if bitOf b (r % 8) then b - 2 ^ (r % 8) else b
  s.ownStore a (leBytes 1 (if used then old + 2 ^ (r % 8) else old))

/-- R307. Free the records of a block. -/
def State.freeRecords (s : State) (g : Region) (rs : List Nat) : State := rs.foldl (fun acc r => acc.markRecord g r false) s

/-- R68, R284. Release a pair lock held by one of some squads; `last` still names it. -/
def releaseLocks (dead : List Nat) (p : Pair) : Pair :=
  match p.owner with
  | some q => if dead.contains q then { p with owner := none } else p
  | none => p

/-- R284. A lane drops the clause of a killed squad. -/
def dropClause (dead : List Nat) (l : Lane) : Lane :=
  match l.cur with
  | some e => if dead.contains e.squad then { l with cur := none, ended := true } else l
  | none => l

/-- R284. A killed squad. -/
def Squad.killed (sq : Squad) : Squad :=
  { sq with place := .retired, vpc := [], fetched := none, nextWait := none, moreWaits := [], parked := none, remainder := none,
            arrived := none, poison := none, sname := 0, exiting := false, savedExt := none, saveAt := 0, serves := 0,
            halted := false }

/-- R284 step 2. Is an entry of a core's path a store or a NORET figure: an operation that may still take effect? -/
def PathEntry.mayStay (loads : List Nat) (e : PathEntry) : Bool :=
  match e.kind with
  | .store _ => true
  | .atomic _ _ _ _ => false
  | .addF32 _ => false
  | .addBf16 _ _ => false
  | .grab => false
  | .figure _ _ => !loads.contains e.op

/-- R166, R204. Is an element at a bank a store's? -/
def BankKind.isWrite : BankKind → Bool
  | .read => false
  | .write _ => true
  | .atomic _ _ _ _ => false

/-- R284 step 2. A core drops the engine operations, the waiting pages and the atomics of killed squads. -/
def CoreS.cancel (k : CoreS) (dead loads ops : List Nat) (domain : Nat) : CoreS :=
  let cs := (k.copies.filter (fun c => dead.contains c.squad)).map (·.id)
  let ts := (k.tiles.filter (fun c => dead.contains c.squad)).map (·.id)
  let stay (e : PathEntry) : Bool := !dead.contains e.squad || e.mayStay loads
  { k with
    copies := k.copies.filter (fun c => !cs.contains c.id)
    tiles := k.tiles.filter (fun c => !ts.contains c.id)
    bindings := k.bindings.filter (fun b => !cs.contains b.op && !ts.contains b.op)
    board := k.board.filter (fun b => !cs.contains b.op)
    filterWait := k.filterWait.filter (fun w => !(if w.party % 2 = 0 then dead else ops).contains (w.party / 2))
    path := k.path.filter stay
    held := k.held.filter stay
    leaving := k.leaving.filter (fun e => !dead.contains e.squad)
    bank := k.bank.filter (fun b => !dead.contains b.squad || b.kind.isWrite)
    inbox := match k.region with
      | some g => if g.within domain then [] else k.inbox
      | none => k.inbox }

/-- R284, R331. A store that covers its line and has lost some of its elements covers it no more. -/
def thinWhole (before after : List PathEntry) : List PathEntry :=
  after.map (fun e =>
    let n (l : List PathEntry) : Nat := (l.filter (fun x => x.op == e.op && x.whole && x.host == e.host && x.pa / 128 == e.pa / 128)).length
    if e.whole && decide (n after < n before) then { e with whole := false } else e)

/-- R284 step 2. Stores and NORET figures of killed squads on their way take effect or not, each independently. -/
def State.thinPaths (s : State) (dead : List Nat) : State :=
  (s.cores.map (·.1)).foldl (fun acc c =>
    let k := acc.core c
    let b1 := acc.freeBits k.path.length
    let b2 := b1.2.freeBits k.held.length
    let b3 := b2.2.freeBits k.bank.length
    b3.2.modCore c (fun x => { x with
      path := thinWhole x.path (keepSome b1.1 (fun e => dead.contains e.squad) x.path)
      held := thinWhole x.held (keepSome b2.1 (fun e => dead.contains e.squad) x.held)
      bank := keepSome b3.1 (fun e => dead.contains e.squad) x.bank })) s

/-- R284 step 2. Is a packet a load, or a figure with a return value, of one of some operations? -/
def PodMsg.discarded (m : PodMsg) (loads : List Nat) : Bool :=
  match m.kind with
  | .load op _ _ => loads.contains op
  | .figure _ _ _ back _ => (back.map (fun b => loads.contains b.1)).getD false
  | .write _ => false
  | .cast _ _ _ _ => false
  | .line _ _ => false
  | .named _ _ _ _ _ _ => false
  | .reply _ => false

/-- R245, R284. The slots of an address space that no load or unload in progress keeps busy are marked idle. -/
def State.idleSlots (s : State) : State :=
  { s with cores := s.cores.map (fun (c : Nat × CoreS) =>
      let asid := c.2.region.map (·.asid)
      let live := s.figLoads.filter (fun f => asid == some f.asid)
      (c.1, { c.2 with busy := BitVec.ofNat 64 ((List.range 64).foldl (fun acc i =>
        if c.2.busy.getLsbD i && live.any (fun f => f.slot == i) then acc + 2 ^ i else acc) 0) })) }

/-- R231. The copies and reductions of some squads, which may wait for pages. -/
def State.copiesOf (s : State) (dead : List Nat) : List Nat :=
  ((s.cores.flatMap (fun c => c.2.copies) ++ s.savedCopies).filter (fun c => dead.contains c.squad)).map (·.id) ++
  (s.redx.filter (fun r => dead.contains r.squad)).map (·.id)

/-- R284 step 2. Cancel the outstanding operations of killed squads. Which stores on a path and which named stores still take effect is free
(log 3); stores that combine or have left in a packet, and NORET figures at a slice or a channel, always do, which is the model's choice
(log 75). -/
def State.cancelWork (s : State) (dead : List Nat) (domain : Nat) : State :=
  let loads := (s.loads.filter (fun e => dead.contains e.2.squad)).map (·.1)
  let s1 : State := { s with cores := s.cores.map (fun (c : Nat × CoreS) => (c.1, c.2.cancel dead loads (s.copiesOf dead) domain)) }
  let s2 := s1.thinPaths dead
  let b := s2.freeBits s2.stns.length
  let s3 : State := { b.2 with
    loads := b.2.loads.filter (fun e => !loads.contains e.1)
    flagOps := b.2.flagOps.filter (fun e => !dead.contains e.2.squad)
    figLoads := b.2.figLoads.filter (fun f => !dead.contains f.squad)
    tileFigs := b.2.tileFigs.filter (fun f => !((f.back.map (fun x => loads.contains x.1)).getD false))
    pod := b.2.pod.filter (fun m => !(m.mine && m.discarded loads))
    stns := keepSome b.1 (fun d => d.mine && dead.contains d.squad) b.2.stns
    redx := b.2.redx.filter (fun r => !dead.contains r.squad)
    heats := b.2.heats.filter (fun h => !dead.contains h.2.squad)
    savedCopies := b.2.savedCopies.filter (fun c => !dead.contains c.squad)
    savedTiles := b.2.savedTiles.filter (fun c => !dead.contains c.squad) }
  s3.idleSlots

/-- R284 step 3. Names become RETIRED and server registrations end; those of a squad whose threads have exited are so already. -/
def State.unname (s : State) (dead : List (Nat × Squad)) : State :=
  (dead.filter (fun e => !e.2.exiting && e.2.place != .retired)).foldl (fun acc e => (acc.endServers (acc.regionOf e.2).rcb e.2.core e.2.sname).retireName e.2.sname) s

/-- R284 step 4. The records that a kill posts, one for each launch, to the fault queue of its own region. -/
def State.killRecords (s : State) (ls : List (Nat × Launch)) (faulted die : Nat) : State :=
  ls.foldl (fun acc e =>
    acc.postNow e.2.region.faultQueue e.2.region.fn die
      { addr := 0, asid := e.2.region.asid, cause := 0x24, source := 0, rcb := faulted }) s

/-- R284. Kill a fault domain: stop its squads, cancel what they have outstanding, end their names and servers, post the
records, stop the queues. -/
def State.killDomain (s : State) (domain faulted die : Nat) : State :=
  let ls := s.launches.filter (fun e => e.2.region.within domain)
  let ids := ls.map (·.1)
  let gone := s.squads.filter (fun e => ids.contains e.2.launch)
  let dead := gone.map (·.1)
  let bs := s.blocks.filter (fun e => ids.contains e.2.launch)
  let s0 := bs.foldl (fun acc e => acc.freeRecords ((tabFind s.launches e.2.launch).getD {}).region e.2.records) s
  let s1 := (s0.unname gone).cancelWork dead domain
  let s2 := { s1 with
    squads := s1.squads.map (fun (e : Nat × Squad) => if dead.contains e.1 then (e.1, e.2.killed) else e),
    lanes := s1.lanes.map (fun (e : Nat × Lane) => (e.1, dropClause dead e.2)),
    pairs := s1.pairs.map (fun (e : Nat × Pair) => (e.1, releaseLocks dead e.2)),
    launches := s1.launches.filter (fun e => !ids.contains e.1),
    graphs := s1.graphs.filter (fun e => !(e.2.nodes.any (fun n => ids.contains n))),
    savedInbox := s1.savedInbox.filter (fun e => !(bs.any (fun b => b.1 == e.1))),
    inboxWait := s1.inboxWait.filter (fun e => !(((s.core e.1).region.map (fun (g : Region) => g.within domain)).getD false)),
    blocks := s1.blocks.filter (fun e => !ids.contains e.2.launch) }
  let s3 := s2.killRecords ls faulted die
  ls.foldl (fun acc e => acc.queueKilled e.2.queue e.2.packetId) s3

end Sys2Proof.Machine
end

