-- ==== Sys2Proof/Machine/Ops.lean ====
section
/-!
DEFINITION. The shared operations of the instruction words: the clause in execution, taking an exception and returning from
one, parking, charging clocks, flags, loops, and the end of a clause (R25, R26, R71, R73, R76, R129, R131, R137, R139, R299).
-/
namespace Sys2Proof.Machine

/-- R72. Cause codes. -/
def causeIllegal : Nat := 1
def causeXset : Nat := 2
def causeBinding : Nat := 3
def causeSbound : Nat := 4
def causeDetshare : Nat := 5
def causeWithdrawn : Nat := 6
def causePriv : Nat := 7
def causePage : Nat := 8
def causeProt : Nat := 9
def causePoison : Nat := 10
def causeKeyexhaust : Nat := 11

/-- R21. COUNT of a header. -/
def hdrCount (h : Word) : Nat := h.toNat / 2 ^ 28

/-- R21. CLASS of a header. -/
def hdrClass (h : Word) : Nat := h.toNat / 2 ^ 25 % 8

/-- R21. The WAIT mask of a header. -/
def hdrWait (h : Word) : BitVec 12 := BitVec.ofNat 12 (h.toNat / 2 ^ 13)

/-- R21. The YIELD bit of a header. -/
def hdrYield (h : Word) : Bool := h.getLsbD 12

/-- The address of the word at an index of a clause: 0 is the header. -/
def wordAddr (a : Word) (i : Nat) : Word := a + BitVec.ofNat 32 (4 * i)

/-- R22. The address after a clause. -/
def Clause.endAddr (c : Clause) : Word := wordAddr c.addr (hdrCount c.hdr + 1)

/-- What a precise trap reports (R71). -/
structure TrapInfo where
  cause : Nat
  xpc : Word
  xaddr : Reg
  index : Nat
  cls : Nat
  detail : Nat
  mask : Word
  /-- R136. The clause's target at its end, when a LOOP of trip count 0 has given one. -/
  jump : Option Word := none
  deriving DecidableEq, Repr

/-- R71. The value of xinfo. -/
def TrapInfo.xinfo (t : TrapInfo) : Reg :=
  BitVec.ofNat 64 (t.index % 16 + t.cls % 8 * 16 + t.detail % 256 * 256 + t.mask.toNat * 2 ^ 32)

/-- R71. vpc of all 32 threads, as xvpc keeps it. -/
def Squad.vpcCopy (sq : Squad) : Tab Word := threads.foldl (fun acc t => tabPut 0 acc t (sq.readVpc t)) []

/-- R71, R299. A squad as it stands when it enters its handler: trap registers written, privileged, live threads at the
handler. Its counters, holds, loops and outstanding operations stay as they are (R139, R299). -/
def Squad.enterHandler (sq : Squad) (t : TrapInfo) (handler : Word) : Squad :=
  { sq with
    xcause := BitVec.ofNat 8 t.cause
    xpc := t.xpc
    xaddr := t.xaddr
    xinfo := t.xinfo
    xvpc := sq.vpcCopy
    xjump := t.jump.map (fun a => (t.xpc - BitVec.ofNat 32 (4 * t.index), a))
    priv := true
    vpc := sq.live.foldl (fun acc th => tabPut exited acc th handler) sq.vpc
    fetched := none
    remainder := none
    arrived := none }

/-- R64. The lane of a squad is free again; the turn has ended when `ended` holds. -/
def State.freeLane (s : State) (k : Nat) (ended : Bool) : State := s.modLane k (fun l => { l with cur := none, ended := ended })

/-- R73. The record of a double trap. -/
def Squad.doubleTrapRec (sq : Squad) (t : TrapInfo) : FaultRec :=
  { addr := t.xaddr.toNat, cause := 0x20, detail := t.detail, source := 0, cores := coreBit sq.core, die := dieOfCore sq.core,
    sname := sq.sname.toNat, code := t.xpc.toNat, second := t.cause }

/-- R299. Does the region have a handler inside its code segment? -/
def Region.hasHandler (g : Region) : Bool := decide (g.handler ≠ 0) && decide (g.handler < g.codeSize)

/-- R71, R73, R299. Take a precise trap. A squad in privileged state is killed with its fault domain, after a record of
cause 0x20; so is a squad whose region has no handler. Any other squad enters its handler. The squad's turn ends, also with YIELD clear (log 18). -/
def State.takeTrap (s : State) (q : Nat) (sq : Squad) (t : TrapInfo) : State :=
  let g := s.regionOf sq
  let die := dieOfCore sq.core
  let s1 := s.freeLane sq.laneOf true
  if sq.priv then
    (s1.postRegion g die (sq.doubleTrapRec t)).killDomain g.domain g.rcb die
  else if g.hasHandler then s1.modSquad q (fun x => x.enterHandler t (BitVec.ofNat 32 g.handler))
  else s1.killDomain g.domain g.rcb die

/-- R26. A trap at the word in execution: the threads still in the clause keep vpc = A. -/
def State.trapWord (s : State) (q : Nat) (sq : Squad) (e : Exec) (cause : Nat) (xaddr : Reg) (detail : Nat) : State :=
  s.takeTrap q sq { cause := cause, xpc := wordAddr e.clause.addr e.idx, xaddr := xaddr, index := e.idx,
                    cls := hdrClass e.clause.hdr, detail := detail, mask := e.mask, jump := e.jump }

/-- R340. A trap at the header: xinfo[3:0] = 0 and the mask is that of the participating threads. -/
def State.trapHeader (s : State) (q : Nat) (sq : Squad) (mask : Word) (cause cls : Nat) (xpc : Word) (xaddr : Reg)
    (detail : Nat) : State :=
  s.takeTrap q sq { cause := cause, xpc := xpc, xaddr := xaddr, index := 0, cls := cls, detail := detail,
                    mask := mask }

/-- R76. Return from a trap handler: vpc from xvpc, privileged state cleared, and the remainder to resume, if any. A remainder of the
clause that trapped keeps the target that a LOOP of trip count 0 gave its end (R136, log 17). -/
def Squad.returnFromTrap (sq : Squad) : Squad :=
  let i := sq.xinfo.toNat % 16
  let header := sq.xpc - BitVec.ofNat 32 (4 * i)
  { sq with
    vpc := threads.foldl (fun acc t => tabPut exited acc t (tabGet 0 sq.xvpc t)) []
    priv := false
    remainder := if i = 0 then none
      else some { addr := header, index := i, mask := BitVec.ofNat 32 (sq.xinfo.toNat / 2 ^ 32),
                  jump := (sq.xjump.filter (fun x => x.1 == header)).map (·.2) } }

/-- R30, R146. Charge thread-clocks to the squad's core: event 0x03. -/
def State.charge (s : State) (sq : Squad) (n : Nat) : State := s.coreEvent sq.core 0x03 (max 1 n)

/-- The clause in execution on the lane in focus, its squad's number and the squad. -/
def State.current (s : State) : Option (Nat × Squad × Exec) :=
  match (s.lane s.focus).cur with
  | none => none
  | some e => match tabFind s.squads e.squad with
    | none => none
    | some sq => some (e.squad, sq, e)

/-- Run a word's meaning on the clause in execution on the lane in focus. -/
def State.word (s : State) (f : Nat → Squad → Exec → State) : Host.Outcome State Fault Refusal :=
  match s.current with
  | none => .fault .noClause
  | some (q, sq, e) => .next (f q sq e)

/-- R67. The first of the named registers that lies in v32 to v63 without the pair lock. -/
def State.xsetReg (s : State) (q : Nat) (sq : Squad) (rs : List Nat) : Option Nat :=
  if s.holdsLock q sq then none else rs.find? (fun r => decide (32 ≤ r))

/-- R67. Run a word's meaning unless it names v32 to v63 without the pair lock, which raises XSET. `rs` are the vector
registers it names: those it reads, then those it writes (log 7). -/
def State.wordV (s : State) (rs : List Nat) (f : Nat → Squad → Exec → State) : Host.Outcome State Fault Refusal :=
  s.word (fun q sq e =>
    match s.xsetReg q sq rs with
    | some r => s.trapWord q sq e causeXset (BitVec.ofNat 64 r) 0
    | none => f q sq e)

/-- R157. The squad parks at the word in execution: it resumes there, for the threads still in the clause. -/
def State.parkWord (s : State) (q : Nat) (sq : Squad) (e : Exec) (pages : List Nat) (kinds : Nat) : State :=
  let g := s.regionOf sq
  let s1 := s.freeLane sq.laneOf true
  let s2 := s1.modSquad q (fun x => { x with
    parked := some pages
    fetched := none
    remainder := some { addr := e.clause.addr, index := e.idx, mask := e.mask, jump := e.jump } })
  s2.modCore sq.core (fun k => { k with
    filterWait := k.filterWait ++ pages.map (fun p => { party := 2 * q, asid := g.asid, fq := g.faultQueue, rcb := g.rcb, fn := g.fn, page := p, kinds := BitVec.ofNat 8 kinds }) })

/-- R173, R245, R275. The word in execution waits inside its clause. -/
def State.holdWord (s : State) (r : HoldReason) : State :=
  s.modLane s.focus (fun l => { l with cur := l.cur.map (fun e => { e with hold := some r }) })

/-- R136. The three loops. -/
def Squad.loops (sq : Squad) : List (Nat × Loop) := [(0, sq.loop0), (1, sq.loop1), (2, sq.loop2)]

/-- R136. Loop n. -/
def Squad.loopN (sq : Squad) (n : Nat) : Loop :=
  match n with
  | 0 => sq.loop0
  | 1 => sq.loop1
  | _ => sq.loop2

/-- Loop n replaced. -/
def Squad.withLoop (sq : Squad) (n : Nat) (l : Loop) : Squad :=
  match n with
  | 0 => { sq with loop0 := l }
  | 1 => { sq with loop1 := l }
  | _ => { sq with loop2 := l }

/-- R138. A cancelled loop: its counter 0 and its frame inactive. -/
def Loop.cancel (l : Loop) : Loop := { l with lc := 0, active := false }

/-- R136. The end of a loop's body, as a number. -/
def Loop.endN (l : Loop) : Nat := l.start.toNat + 4 * l.len.toNat

/-- R137, R139. Does an address lie in the loop's body? -/
def Loop.inside (l : Loop) (a : Nat) : Bool := decide (l.start.toNat ≤ a) && decide (a < l.endN)

/-- R139. Cancel every active loop for which some target lies outside its body; nothing in privileged state. -/
def Squad.cancelLoops (sq : Squad) (targets : List Word) : Squad :=
  if sq.priv then sq
  else
    let out (l : Loop) : Bool := l.active && targets.any (fun a => !l.inside a.toNat)
    let f (l : Loop) : Loop := if out l then l.cancel else l
    { sq with loop0 := f sq.loop0, loop1 := f sq.loop1, loop2 := f sq.loop2 }

/-- R137. The active loops that close with a clause, the most recently started first. -/
def Squad.closing (sq : Squad) (a : Nat) (endA : Nat) : List Nat :=
  let ls := sq.loops.filter (fun e => e.2.active && e.2.inside a && decide (e.2.endN = endA))
  let ins (acc : List (Nat × Loop)) (e : Nat × Loop) : List (Nat × Loop) :=
    acc.filter (fun x => decide (x.2.seq > e.2.seq)) ++ [e] ++ acc.filter (fun x => decide (x.2.seq ≤ e.2.seq))
  (ls.foldl ins []).map (·.1)

/-- R137. The closing clause acts on its loops from the inside out: it loops back at the first whose counter is above 1. -/
def Squad.closeLoops (sq : Squad) (ns : List Nat) (fall : Word) : Squad × Word × Bool :=
  match ns with
  | [] => (sq, fall, false)
  | n :: r =>
    let l := sq.loopN n
    if 1 < l.lc.toNat then (sq.withLoop n { l with lc := l.lc - 1, again := true }, l.start, true)
    else (sq.withLoop n l.cancel).closeLoops r fall

/-- R25, R137, R139. The end of a clause: the threads still in it take the next address, or the start of a loop. -/
def Squad.endClause (sq : Squad) (e : Exec) : Squad × Bool :=
  let fall := e.clause.endAddr
  if e.jump.isSome then (sq.withVpcs e.mask (e.jump.getD fall), false)
  else if sq.priv || e.mask == 0 then (sq.withVpcs e.mask fall, false)
  else
    let r := sq.closeLoops (sq.closing e.clause.addr.toNat (e.clause.addr.toNat + 4 * (hdrCount e.clause.hdr + 1))) fall
    (r.1.withVpcs e.mask r.2.1, r.2.2)

/-- R68, R98, R263. A squad's last thread has exited: its pair lock is released, its name is retired in the directory, its registrations
end, and it begins to retire. The register sname keeps its value (R339, log 32). -/
def State.exitSquad (s : State) (q : Nat) (sq : Squad) : State :=
  let s1 := s.modPair sq.pairOf (releaseLocks [q])
  ((s1.endServers (s1.regionOf sq).rcb sq.core sq.sname).retireName sq.sname).modSquad q (fun x =>
    { x with exiting := true, remainder := none })

/-- R62, R98. A squad in its slot with no live thread begins to retire, once. -/
def State.retireIfDead (s : State) (q : Nat) : State :=
  match tabFind s.squads q with
  | none => s
  | some sq => if sq.live.isEmpty && sq.isResident && !sq.exiting then s.exitSquad q sq else s

/-- R25, R64, R98. The clause of a lane ends: vpc moves, the lane is free, and a squad with no live thread begins to retire. -/
def State.endClause (s : State) (k : Nat) (e : Exec) : State :=
  match tabFind s.squads e.squad with
  | none => s.freeLane k true
  | some sq =>
    let r := sq.endClause e
    let s1 := s.modSquad e.squad (fun _ => r.1)
    let s2 := s1.modLane k (fun l => { l with cur := none, ended := l.ended || hdrYield e.clause.hdr || decide (2 ≤ l.turns) })
    let s3 := s2.retireIfDead e.squad
    if r.2 then s3.coreEvent sq.core 0x15 1 else s3

/-- R25. After a word has run: the next word of the clause, or the clause's end. A word that trapped or parked has left the
lane; a word that waits stays. -/
def State.advanceWord (s : State) (long : Bool) : State :=
  match (s.lane s.focus).cur with
  | none => s
  | some e =>
    if e.hold.isSome then s
    else
      let i := e.idx + (if long then 2 else 1)
      if i ≤ e.clause.words.length then
        s.modLane s.focus (fun l => { l with cur := some { e with idx := i } })
      else s.endClause s.focus e

/-- R25. Threads leave the clause: their vpc takes a target and the remaining words skip them. -/
def State.leaveClause (s : State) (q : Nat) (m : Word) (a : Nat → Word) : State :=
  let s1 := s.modSquad q (fun sq => (maskThreads m).foldl (fun acc t => acc.withVpc t (a t)) sq)
  s1.modLane s.focus (fun l => { l with cur := l.cur.map (fun e => { e with mask := e.mask &&& ~~~ m }) })

/-- R203. The acquire half of a fence on a core: every L1 line tagged DIE, DEV or POD becomes invalid. -/
def State.acquire (s : State) (c : Nat) : State :=
  s.modCore c (fun k => { k with l1 := k.l1.filter (fun (x : Nat × L1Line) => x.2.scope == 0) })

/-- R27. Run a SYS word's meaning; outside privileged state it raises PRIV at the header. -/
def State.sysWord (s : State) (f : Nat → Squad → Exec → State) : Host.Outcome State Fault Refusal :=
  s.word (fun q sq e =>
    if sq.priv then f q sq e else s.trapHeader q sq e.mask causePriv (hdrClass e.clause.hdr) e.clause.addr 0 0)

/-- R303. The squad of a launch with a logical id, if it has been placed. -/
def State.squadOfLid (s : State) (l lid : Nat) : Option (Nat × Squad) :=
  s.squads.find? (fun e => e.2.launch == l && e.2.lid == lid)

/-- R303. Is the squad of a logical id live for the token: not yet placed, or not retired? -/
def State.lidLive (s : State) (l lid : Nat) : Bool :=
  match s.squadOfLid l lid with
  | none => true
  | some e => e.2.place != .retired

/-- R294. The squads of a launch. -/
def Launch.squadCount (l : Launch) : Nat := l.gx * l.gy * l.gz * l.squadsPer

/-- R303. The next live logical id after one, wrapping to the lowest; itself when there is no other. -/
def State.nextLid (s : State) (l lid total : Nat) : Nat :=
  (((List.range total).map (fun k => (lid + 1 + k) % total)).find? (s.lidLive l)).getD lid

/-- R303, R304. The token leaves for the next live squad; the in-section bit is clear. -/
def State.sendToken (s : State) (l : Nat) : State :=
  match tabFind s.launches l with
  | none => s
  | some x => s.modLaunch l (fun y => { y with tokenAt := s.nextLid l x.tokenAt x.squadCount, tokenHere := false, inSection := false })

/-- R303. Does a squad hold its launch's commit token? -/
def State.holdsToken (s : State) (sq : Squad) : Bool :=
  match tabFind s.launches sq.launch with
  | none => false
  | some x => x.tokenHere && x.tokenAt == sq.lid

/-- R154, R304. Is a squad inside a commit section? -/
def State.inSection (s : State) (sq : Squad) : Bool :=
  match tabFind s.launches sq.launch with
  | none => false
  | some x => x.inSection && x.tokenHere && x.tokenAt == sq.lid

end Sys2Proof.Machine
end

