-- ==== Sys2Proof/Machine/Operands.lean ====
section
/-!
DEFINITION. Operand forms: guards, scalar and vector sources, sub-element writes, M-format addresses
(R29, R32, R33, R58, R59, R77, R84).
-/
namespace Sys2Proof.Machine

/-- R29, R59. The guard's eight bits in a thread: pG XOR GN. -/
def Squad.guard (sq : Squad) (g : BitVec 4) (n : BitVec 1) (t : Nat) : Byte :=
  if n = 1 then ~~~ sq.readP g.toNat t else sq.readP g.toNat t

/-- R29. Guard kind T: is a thread enabled? Bit 0 of the guard, and the thread still in the clause. -/
def Squad.enabledT (sq : Squad) (e : Exec) (g : BitVec 4) (n : BitVec 1) (t : Nat) : Bool :=
  inMask e.mask t && (sq.guard g n t).getLsbD 0

/-- R29. The enabled threads of a T-kind word, ascending. -/
def Squad.activeT (sq : Squad) (e : Exec) (g : BitVec 4) (n : BitVec 1) : List Nat := threads.filter (sq.enabledT e g n)

/-- R29. Guard kind E: is sub-element j of width W enabled in a guard byte? -/
def elemOn (W : Nat) (gb : Byte) (j : Nat) : Bool := gb.getLsbD (j * W / 8)

/-- R29. The threads of an E-kind word with at least one enabled sub-element among the first n of width W. -/
def Squad.activeE (sq : Squad) (e : Exec) (g : BitVec 4) (n : BitVec 1) (W k : Nat) : List Nat :=
  threads.filter (fun t => inMask e.mask t && (List.range k).any (elemOn W (sq.guard g n t)))

/-- R77. The old value with every enabled sub-element replaced by `f` of its index. -/
def elemUpdate (W k : Nat) (gb : Byte) (old : Reg) (f : Nat → Nat) : Reg :=
  (List.range k).foldl (fun acc j => if elemOn W gb j then subSet W acc j (f j) else acc) old

/-- R59. A predicate with the bits of every enabled sub-element replaced by its result. -/
def predUpdate (W : Nat) (gb : Byte) (old : Byte) (f : Nat → Bool) : Byte :=
  (List.range (64 / W)).foldl (fun acc j =>
    if elemOn W gb j then
      let m : Byte := BitVec.ofNat 8 ((2 ^ (W / 8) - 1) * 2 ^ (j * W / 8))
      if f j then acc ||| m else acc &&& ~~~ m
    else acc) old

/-- R35. The width in bits of a width code. -/
def widthOf (w : BitVec 2) : Nat := 8 * 2 ^ w.toNat

/-- R32. Source b of a V3/VS word in a thread: a scalar when M = 1. -/
def State.srcB (s : State) (sq : Squad) (m : BitVec 1) (b : BitVec 6) (t : Nat) : Reg :=
  if m = 1 then sq.readS b.toNat else s.readV sq b.toNat t

/-- R67. The vector registers that source b names. -/
def regsB (m : BitVec 1) (b : BitVec 6) : List Nat := if m = 1 then [] else [b.toNat]

/-- R77, R81. An E-kind V3/VS word: each enabled sub-element of d becomes `f` of those of a and b. -/
def State.vecBinary (s : State) (W : Nat) (g : BitVec 4) (n m : BitVec 1) (d a b : BitVec 6) (f : Nat → Nat → Nat) :
    Host.Outcome State Fault Refusal :=
  s.wordV (a.toNat :: regsB m b ++ [d.toNat]) (fun q sq e =>
    let act := sq.activeE e g n W (64 / W)
    let res := act.map (fun t =>
      let x := s.readV sq a.toNat t
      let y := s.srcB sq m b t
      (t, elemUpdate W (64 / W) (sq.guard g n t) (s.readV sq d.toNat t) (fun j => f (subGet W x j) (subGet W y j))))
    (s.writeVs q d.toNat res).charge sq act.length)

/-- R83. As vecBinary, with d read as a source too. -/
def State.vecTernary (s : State) (W : Nat) (g : BitVec 4) (n m : BitVec 1) (d a b : BitVec 6) (f : Nat → Nat → Nat → Nat) :
    Host.Outcome State Fault Refusal :=
  s.wordV (a.toNat :: regsB m b ++ [d.toNat]) (fun q sq e =>
    let act := sq.activeE e g n W (64 / W)
    let res := act.map (fun t =>
      let x := s.readV sq a.toNat t
      let y := s.srcB sq m b t
      let z := s.readV sq d.toNat t
      (t, elemUpdate W (64 / W) (sq.guard g n t) z (fun j => f (subGet W x j) (subGet W y j) (subGet W z j))))
    (s.writeVs q d.toNat res).charge sq act.length)

/-- R77. An E-kind word with the one vector source a. -/
def State.vecUnary (s : State) (W : Nat) (g : BitVec 4) (n : BitVec 1) (d a : BitVec 6) (f : Nat → Nat) :
    Host.Outcome State Fault Refusal :=
  s.wordV [a.toNat, d.toNat] (fun q sq e =>
    let act := sq.activeE e g n W (64 / W)
    let res := act.map (fun t =>
      let x := s.readV sq a.toNat t
      (t, elemUpdate W (64 / W) (sq.guard g n t) (s.readV sq d.toNat t) (fun j => f (subGet W x j))))
    (s.writeVs q d.toNat res).charge sq act.length)

/-- R84. An E-kind word whose value in a thread is `f`, over sub-elements of width W; `rs` are the source registers. -/
def State.vecMove (s : State) (W : Nat) (g : BitVec 4) (n : BitVec 1) (d : BitVec 6) (rs : List Nat)
    (f : Squad → Nat → Reg) : Host.Outcome State Fault Refusal :=
  s.wordV (rs ++ [d.toNat]) (fun q sq e =>
    let act := sq.activeE e g n W (64 / W)
    let res := act.map (fun t =>
      (t, elemUpdate W (64 / W) (sq.guard g n t) (s.readV sq d.toNat t) (fun j => subGet W (f sq t) j)))
    (s.writeVs q d.toNat res).charge sq act.length)

/-- R88. A U-kind scalar form. -/
def State.scalarOp (s : State) (d : BitVec 6) (f : Squad → Reg) : Host.Outcome State Fault Refusal :=
  s.word (fun q sq _ => (s.writeS q d.toNat (f sq)).charge sq 1)

/-- R33. The address of a thread's element: X = 0, base plus scaled offset plus thread; X = 1, base plus v[O]. -/
def State.addrM (s : State) (sq : Squad) (base x : Nat) (o : BitVec 6) (size t : Nat) : Nat :=
  let b := (sq.readS base).toNat
  if x = 0 then addrAdd b (o.toInt * 32 * size + t * size)
  else (b + (s.readV sq o.toNat t).toNat) % 2 ^ 64

/-- R33, R160. The address of a scalar-data or record access. -/
def Squad.addrScalar (sq : Squad) (base : Nat) (o : BitVec 6) (scale : Nat) : Nat :=
  addrAdd (sq.readS base).toNat (o.toInt * scale)

/-- R33. The index register that an M-format word names. -/
def regsX (x : BitVec 1) (o : BitVec 6) : List Nat := if x = 1 then [o.toNat] else []

end Sys2Proof.Machine
end

