-- ==== Sys2Proof/Machine/Flags.lean ====
section
/-!
DEFINITION. Predicate results: compares, predicate logic, validity (R59, R86, R87, R89, R92, R111).
-/
namespace Sys2Proof.Machine

/-- R86, R111. A compare of the PD format: the result of each enabled sub-element goes to all bits of pd that cover it. -/
def State.vecCompare (s : State) (W : Nat) (g : BitVec 4) (n : BitVec 1) (p : BitVec 7) (a b : BitVec 6)
    (f : Nat → Nat → Bool) : Host.Outcome State Fault Refusal :=
  s.wordV [a.toNat, b.toNat] (fun q sq e =>
    let act := sq.activeE e g n W (64 / W)
    let res := act.map (fun t =>
      let x := s.readV sq a.toNat t
      let y := s.readV sq b.toNat t
      (t, predUpdate W (sq.guard g n t) (sq.readP p.toNat t) (fun j => f (subGet W x j) (subGet W y j))))
    (s.writePs q p.toNat res).charge sq act.length)

/-- R87. Predicate logic: bit k of pd is written where bit k of the guard is on. -/
def State.predLogic (s : State) (g : BitVec 4) (n : BitVec 1) (p : BitVec 7) (a b : BitVec 6) (f : Byte → Byte → Byte) :
    Host.Outcome State Fault Refusal :=
  s.word (fun q sq e =>
    let act := sq.activeE e g n 8 8
    let res := act.map (fun t =>
      let gb := sq.guard g n t
      (t, (sq.readP p.toNat t &&& ~~~ gb) ||| (f (sq.readP a.toNat t) (sq.readP b.toNat t) &&& gb)))
    (s.writePs q p.toNat res).charge sq act.length)

/-- R89, R92. The same bits written to a predicate in all 32 threads. -/
def State.writePAll (s : State) (q p : Nat) (x : Byte) : State := s.writePs q p (threads.map (fun t => (t, x)))

/-- A truth value as a predicate byte. -/
def predByte (b : Bool) : Byte := if b then 0xFF else 0x00

end Sys2Proof.Machine
end

