-- ==== Sys2Proof/Machine/VecInt.lean ====
section
/-!
DEFINITION. Vector and scalar integer instructions, bit fields, logic, moves, compares, predicate logic (R77 to R89).
-/
namespace Sys2Proof.Machine

/-- R81. The lesser or greater of two patterns by a numbering of them. -/
def pick (val : Nat → Int) (big : Bool) (a b : Nat) : Nat := if decide (val a < val b) != big then a else b

/-- The unsigned value of a pattern. -/
def zx (v : Nat) : Int := v

/-- R82. Logical left shift of a W-bit pattern. -/
def shl (W a c : Nat) : Nat := if W ≤ c then 0 else a * 2 ^ c % 2 ^ W

/-- R82. Logical right shift. -/
def shrN (W a c : Nat) : Nat := if W ≤ c then 0 else a / 2 ^ c

/-- R82. Arithmetic right shift: the count's excess fills with the sign. -/
def shrI (W a c : Nat) : Nat := modW W (sx W a / 2 ^ min c W)

/-- R82. Left rotation of a 64-bit pattern. -/
def rotl (a c : Nat) : Nat := (a * 2 ^ (c % 64) + a / 2 ^ (64 - c % 64)) % 2 ^ 64

/-- R83. Zero bits above the highest one bit. -/
def clz (a : Nat) : Nat := if a = 0 then 64 else 63 - Nat.log2 a

/-- R83. Zero bits below the lowest one bit, searched from bit i up. -/
def ctzFrom (a fuel i : Nat) : Nat :=
  match fuel with
  | 0 => 64
  | fuel + 1 => if bitOf a i then i else ctzFrom a fuel (i + 1)

/-- R83. Bit reversal of a 64-bit pattern. -/
def brev (a : Nat) : Nat := (List.range 64).foldl (fun acc i => if bitOf a i then acc + 2 ^ (63 - i) else acc) 0

/-- R83. The position of a bit field. -/
def bfPos (b : Nat) : Nat := b % 64

/-- R83. The length of a bit field, which never passes bit 63. -/
def bfLen (b : Nat) : Nat := min (b / 256 % 64) (64 - bfPos b)

/-- R83. BFX.N64. -/
def bfxN (a b : Nat) : Nat := a / 2 ^ bfPos b % 2 ^ bfLen b

/-- R83. BFX.I64. -/
def bfxI (a b : Nat) : Nat := if bfLen b = 0 then 0 else modW 64 (sx (bfLen b) (bfxN a b))

/-- R83. BFI. -/
def bfi (a b d : Nat) : Nat :=
  let mask := 2 ^ bfLen b - 1
  d - d / 2 ^ bfPos b % 2 ^ bfLen b * 2 ^ bfPos b + a % (mask + 1) * 2 ^ bfPos b

/-- R84. The literal of MOVL: sign-extended when M = 0, zero-extended when M = 1. -/
def movlValue (m : BitVec 1) (lit : Word) : Reg := if m = 1 then lit.zeroExtend 64 else lit.signExtend 64

/-- R85. SEL in a thread: the selector chooses byte by byte. -/
def selBytes (p : Byte) (x y : Reg) : Reg :=
  (List.range 8).foldl (fun acc k => subSet 8 acc k (if p.getLsbD k then subGet 8 x k else subGet 8 y k)) 0

/-- R81. Vector integer add of sub-elements, modulo 2^W. -/
def execAdd (w : BitVec 2) (g : BitVec 4) (n m : BitVec 1) (d a b : BitVec 6) (s : State) : Host.Outcome State Fault Refusal :=
  s.vecBinary (widthOf w) g n m d a b (fun x y => (x + y) % 2 ^ widthOf w)

/-- R81. Vector integer subtract, modulo 2^W. -/
def execSub (w : BitVec 2) (g : BitVec 4) (n m : BitVec 1) (d a b : BitVec 6) (s : State) : Host.Outcome State Fault Refusal :=
  s.vecBinary (widthOf w) g n m d a b (fun x y => modW (widthOf w) (zx x - zx y))

/-- R81. Vector multiply, low half. -/
def execMul (w : BitVec 2) (g : BitVec 4) (n m : BitVec 1) (d a b : BitVec 6) (s : State) : Host.Outcome State Fault Refusal :=
  s.vecBinary (widthOf w) g n m d a b (fun x y => x * y % 2 ^ widthOf w)

/-- R81. Vector signed multiply, high half. -/
def execMulhI (w : BitVec 2) (g : BitVec 4) (n m : BitVec 1) (d a b : BitVec 6) (s : State) : Host.Outcome State Fault Refusal :=
  s.vecBinary (widthOf w) g n m d a b (fun x y =>
    modW (widthOf w) (sx (widthOf w) x * sx (widthOf w) y / 2 ^ widthOf w))

/-- R81. Vector unsigned multiply, high half. -/
def execMulhN (w : BitVec 2) (g : BitVec 4) (n m : BitVec 1) (d a b : BitVec 6) (s : State) : Host.Outcome State Fault Refusal :=
  s.vecBinary (widthOf w) g n m d a b (fun x y => x * y / 2 ^ widthOf w)

/-- R81. Vector signed saturating add. -/
def execAddISat (w : BitVec 2) (g : BitVec 4) (n m : BitVec 1) (d a b : BitVec 6) (s : State) : Host.Outcome State Fault Refusal :=
  s.vecBinary (widthOf w) g n m d a b (fun x y => clampS (widthOf w) (sx (widthOf w) x + sx (widthOf w) y))

/-- R81. Vector unsigned saturating add. -/
def execAddNSat (w : BitVec 2) (g : BitVec 4) (n m : BitVec 1) (d a b : BitVec 6) (s : State) : Host.Outcome State Fault Refusal :=
  s.vecBinary (widthOf w) g n m d a b (fun x y => clampU (widthOf w) (zx x + zx y))

/-- R81. Vector signed saturating subtract. -/
def execSubISat (w : BitVec 2) (g : BitVec 4) (n m : BitVec 1) (d a b : BitVec 6) (s : State) : Host.Outcome State Fault Refusal :=
  s.vecBinary (widthOf w) g n m d a b (fun x y => clampS (widthOf w) (sx (widthOf w) x - sx (widthOf w) y))

/-- R81. Vector unsigned saturating subtract. -/
def execSubNSat (w : BitVec 2) (g : BitVec 4) (n m : BitVec 1) (d a b : BitVec 6) (s : State) : Host.Outcome State Fault Refusal :=
  s.vecBinary (widthOf w) g n m d a b (fun x y => clampU (widthOf w) (zx x - zx y))

/-- R81. Vector signed rounding average. -/
def execAvgI (w : BitVec 2) (g : BitVec 4) (n m : BitVec 1) (d a b : BitVec 6) (s : State) : Host.Outcome State Fault Refusal :=
  s.vecBinary (widthOf w) g n m d a b (fun x y =>
    modW (widthOf w) ((sx (widthOf w) x + sx (widthOf w) y + 1) / 2))

/-- R81. Vector unsigned rounding average. -/
def execAvgN (w : BitVec 2) (g : BitVec 4) (n m : BitVec 1) (d a b : BitVec 6) (s : State) : Host.Outcome State Fault Refusal :=
  s.vecBinary (widthOf w) g n m d a b (fun x y => (x + y + 1) / 2)

/-- R81. Vector signed minimum. -/
def execMinI (w : BitVec 2) (g : BitVec 4) (n m : BitVec 1) (d a b : BitVec 6) (s : State) : Host.Outcome State Fault Refusal :=
  s.vecBinary (widthOf w) g n m d a b (pick (sx (widthOf w)) false)

/-- R81. Vector unsigned minimum. -/
def execMinN (w : BitVec 2) (g : BitVec 4) (n m : BitVec 1) (d a b : BitVec 6) (s : State) : Host.Outcome State Fault Refusal :=
  s.vecBinary (widthOf w) g n m d a b (pick zx false)

/-- R81. Vector signed maximum. -/
def execMaxI (w : BitVec 2) (g : BitVec 4) (n m : BitVec 1) (d a b : BitVec 6) (s : State) : Host.Outcome State Fault Refusal :=
  s.vecBinary (widthOf w) g n m d a b (pick (sx (widthOf w)) true)

/-- R81. Vector unsigned maximum. -/
def execMaxN (w : BitVec 2) (g : BitVec 4) (n m : BitVec 1) (d a b : BitVec 6) (s : State) : Host.Outcome State Fault Refusal :=
  s.vecBinary (widthOf w) g n m d a b (pick zx true)

/-- R81. Vector signed absolute value. -/
def execAbs (w : BitVec 2) (g : BitVec 4) (n : BitVec 1) (d a : BitVec 6) (s : State) : Host.Outcome State Fault Refusal :=
  s.vecUnary (widthOf w) g n d a (fun x => modW (widthOf w) (sx (widthOf w) x).natAbs)

/-- R82. Vector shift left; a count of W or more gives 0. -/
def execShl (w : BitVec 2) (g : BitVec 4) (n m : BitVec 1) (d a b : BitVec 6) (s : State) : Host.Outcome State Fault Refusal :=
  s.vecBinary (widthOf w) g n m d a b (shl (widthOf w))

/-- R82. Vector logical shift right. -/
def execShrN (w : BitVec 2) (g : BitVec 4) (n m : BitVec 1) (d a b : BitVec 6) (s : State) : Host.Outcome State Fault Refusal :=
  s.vecBinary (widthOf w) g n m d a b (shrN (widthOf w))

/-- R82. Vector arithmetic shift right. -/
def execShrI (w : BitVec 2) (g : BitVec 4) (n m : BitVec 1) (d a b : BitVec 6) (s : State) : Host.Outcome State Fault Refusal :=
  s.vecBinary (widthOf w) g n m d a b (shrI (widthOf w))

/-- R82. 64-bit rotate left. -/
def execRot (g : BitVec 4) (n m : BitVec 1) (d a b : BitVec 6) (s : State) : Host.Outcome State Fault Refusal :=
  s.vecBinary 64 g n m d a b rotl

/-- R83. Population count of a 64-bit value. -/
def execPopc (g : BitVec 4) (n : BitVec 1) (d a : BitVec 6) (s : State) : Host.Outcome State Fault Refusal :=
  s.vecUnary 64 g n d a (popNat 64)

/-- R83. Count of leading zero bits. -/
def execClz (g : BitVec 4) (n : BitVec 1) (d a : BitVec 6) (s : State) : Host.Outcome State Fault Refusal :=
  s.vecUnary 64 g n d a clz

/-- R83. Count of trailing zero bits. -/
def execCtz (g : BitVec 4) (n : BitVec 1) (d a : BitVec 6) (s : State) : Host.Outcome State Fault Refusal :=
  s.vecUnary 64 g n d a (fun x => ctzFrom x 64 0)

/-- R83. Bit reversal of a 64-bit value. -/
def execBrev (g : BitVec 4) (n : BitVec 1) (d a : BitVec 6) (s : State) : Host.Outcome State Fault Refusal :=
  s.vecUnary 64 g n d a brev

/-- R83. Unsigned bit-field extract. -/
def execBfxN (g : BitVec 4) (n m : BitVec 1) (d a b : BitVec 6) (s : State) : Host.Outcome State Fault Refusal :=
  s.vecBinary 64 g n m d a b bfxN

/-- R83. Signed bit-field extract. -/
def execBfxI (g : BitVec 4) (n m : BitVec 1) (d a b : BitVec 6) (s : State) : Host.Outcome State Fault Refusal :=
  s.vecBinary 64 g n m d a b bfxI

/-- R83. Bit-field insert into d. -/
def execBfi (g : BitVec 4) (n m : BitVec 1) (d a b : BitVec 6) (s : State) : Host.Outcome State Fault Refusal :=
  s.vecTernary 64 g n m d a b bfi

/-- R84. Bytewise vector AND. -/
def execAnd (g : BitVec 4) (n m : BitVec 1) (d a b : BitVec 6) (s : State) : Host.Outcome State Fault Refusal :=
  s.vecBinary 8 g n m d a b (fun x y => x &&& y)

/-- R84. Bytewise vector OR. -/
def execOr (g : BitVec 4) (n m : BitVec 1) (d a b : BitVec 6) (s : State) : Host.Outcome State Fault Refusal :=
  s.vecBinary 8 g n m d a b (fun x y => x ||| y)

/-- R84. Bytewise vector XOR. -/
def execXor (g : BitVec 4) (n m : BitVec 1) (d a b : BitVec 6) (s : State) : Host.Outcome State Fault Refusal :=
  s.vecBinary 8 g n m d a b (fun x y => x ^^^ y)

/-- R84. Bytewise vector a AND NOT b. -/
def execAndn (g : BitVec 4) (n m : BitVec 1) (d a b : BitVec 6) (s : State) : Host.Outcome State Fault Refusal :=
  s.vecBinary 8 g n m d a b (fun x y => x &&& (255 - y))

/-- R84. Bytewise vector NOT of a. -/
def execNot (g : BitVec 4) (n : BitVec 1) (d a : BitVec 6) (s : State) : Host.Outcome State Fault Refusal :=
  s.vecUnary 8 g n d a (fun x => 255 - x)

/-- R84. Vector move of b, from a vector or a scalar register. -/
def execMov (g : BitVec 4) (n m : BitVec 1) (d b : BitVec 6) (s : State) : Host.Outcome State Fault Refusal :=
  s.vecMove 8 g n d (regsB m b) (fun sq t => s.srcB sq m b t)

/-- R84. Vector move of a 32-bit literal, sign- or zero-extended. -/
def execMovl (g : BitVec 4) (n m : BitVec 1) (d : BitVec 6) (lit : BitVec 32) (s : State) : Host.Outcome State Fault Refusal :=
  s.vecMove 64 g n d [] (fun _ _ => movlValue m lit)

/-- R85. Bytewise select of a or b by a selector predicate. -/
def execSel (g : BitVec 4) (n m : BitVec 1) (d a b : BitVec 6) (s : State) : Host.Outcome State Fault Refusal :=
  s.wordV (a.toNat :: regsB m b ++ [d.toNat]) (fun q sq e =>
    let act := maskThreads e.mask
    let res := act.map (fun t => (t, selBytes (sq.guard g n t) (s.readV sq a.toNat t) (s.srcB sq m b t)))
    (s.writeVs q d.toNat res).charge sq act.length)

/-- R86. Vector compare equal into a predicate. -/
def execCmpeq (w : BitVec 2) (g : BitVec 4) (n : BitVec 1) (p : BitVec 7) (a b : BitVec 6) (s : State) : Host.Outcome State Fault Refusal :=
  s.vecCompare (widthOf w) g n p a b (fun x y => x == y)

/-- R86. Vector signed compare less-than into a predicate. -/
def execCmpltI (w : BitVec 2) (g : BitVec 4) (n : BitVec 1) (p : BitVec 7) (a b : BitVec 6) (s : State) : Host.Outcome State Fault Refusal :=
  s.vecCompare (widthOf w) g n p a b (fun x y => decide (sx (widthOf w) x < sx (widthOf w) y))

/-- R86. Vector unsigned compare less-than into a predicate. -/
def execCmpltN (w : BitVec 2) (g : BitVec 4) (n : BitVec 1) (p : BitVec 7) (a b : BitVec 6) (s : State) : Host.Outcome State Fault Refusal :=
  s.vecCompare (widthOf w) g n p a b (fun x y => decide (x < y))

/-- R86. Vector signed compare less-or-equal into a predicate. -/
def execCmpleI (w : BitVec 2) (g : BitVec 4) (n : BitVec 1) (p : BitVec 7) (a b : BitVec 6) (s : State) : Host.Outcome State Fault Refusal :=
  s.vecCompare (widthOf w) g n p a b (fun x y => decide (sx (widthOf w) x ≤ sx (widthOf w) y))

/-- R86. Vector unsigned compare less-or-equal into a predicate. -/
def execCmpleN (w : BitVec 2) (g : BitVec 4) (n : BitVec 1) (p : BitVec 7) (a b : BitVec 6) (s : State) : Host.Outcome State Fault Refusal :=
  s.vecCompare (widthOf w) g n p a b (fun x y => decide (x ≤ y))

/-- R86. Vector compare not-equal into a predicate. -/
def execCmpne (w : BitVec 2) (g : BitVec 4) (n : BitVec 1) (p : BitVec 7) (a b : BitVec 6) (s : State) : Host.Outcome State Fault Refusal :=
  s.vecCompare (widthOf w) g n p a b (fun x y => x != y)

/-- R87. Predicate AND. -/
def execPand (g : BitVec 4) (n : BitVec 1) (p : BitVec 7) (a b : BitVec 6) (s : State) : Host.Outcome State Fault Refusal :=
  s.predLogic g n p a b (fun x y => x &&& y)

/-- R87. Predicate OR. -/
def execPor (g : BitVec 4) (n : BitVec 1) (p : BitVec 7) (a b : BitVec 6) (s : State) : Host.Outcome State Fault Refusal :=
  s.predLogic g n p a b (fun x y => x ||| y)

/-- R87. Predicate XOR. -/
def execPxor (g : BitVec 4) (n : BitVec 1) (p : BitVec 7) (a b : BitVec 6) (s : State) : Host.Outcome State Fault Refusal :=
  s.predLogic g n p a b (fun x y => x ^^^ y)

/-- R87. Predicate a AND NOT b. -/
def execPandn (g : BitVec 4) (n : BitVec 1) (p : BitVec 7) (a b : BitVec 6) (s : State) : Host.Outcome State Fault Refusal :=
  s.predLogic g n p a b (fun x y => x &&& ~~~ y)

/-- R87. Predicate NOT. -/
def execPnot (g : BitVec 4) (n : BitVec 1) (p : BitVec 7) (a : BitVec 6) (s : State) : Host.Outcome State Fault Refusal :=
  s.predLogic g n p a 0 (fun x _ => ~~~ x)

/-- R88. Scalar 64-bit add. -/
def execAddScalar (d a b : BitVec 6) (s : State) : Host.Outcome State Fault Refusal :=
  s.scalarOp d (fun sq => sq.readS a.toNat + sq.readS b.toNat)

/-- R88. Scalar 64-bit subtract. -/
def execSubScalar (d a b : BitVec 6) (s : State) : Host.Outcome State Fault Refusal :=
  s.scalarOp d (fun sq => sq.readS a.toNat - sq.readS b.toNat)

/-- R88. Scalar 64-bit multiply, low half. -/
def execMulScalar (d a b : BitVec 6) (s : State) : Host.Outcome State Fault Refusal :=
  s.scalarOp d (fun sq => sq.readS a.toNat * sq.readS b.toNat)

/-- R88. Scalar bitwise AND. -/
def execAndScalar (d a b : BitVec 6) (s : State) : Host.Outcome State Fault Refusal :=
  s.scalarOp d (fun sq => sq.readS a.toNat &&& sq.readS b.toNat)

/-- R88. Scalar bitwise OR. -/
def execOrScalar (d a b : BitVec 6) (s : State) : Host.Outcome State Fault Refusal :=
  s.scalarOp d (fun sq => sq.readS a.toNat ||| sq.readS b.toNat)

/-- R88. Scalar bitwise XOR. -/
def execXorScalar (d a b : BitVec 6) (s : State) : Host.Outcome State Fault Refusal :=
  s.scalarOp d (fun sq => sq.readS a.toNat ^^^ sq.readS b.toNat)

/-- R88. Scalar shift left. -/
def execShlScalar (d a b : BitVec 6) (s : State) : Host.Outcome State Fault Refusal :=
  s.scalarOp d (fun sq => BitVec.ofNat 64 (shl 64 (sq.readS a.toNat).toNat (sq.readS b.toNat).toNat))

/-- R88. Scalar logical shift right. -/
def execShrNScalar (d a b : BitVec 6) (s : State) : Host.Outcome State Fault Refusal :=
  s.scalarOp d (fun sq => BitVec.ofNat 64 (shrN 64 (sq.readS a.toNat).toNat (sq.readS b.toNat).toNat))

/-- R88. Scalar arithmetic shift right. -/
def execShrIScalar (d a b : BitVec 6) (s : State) : Host.Outcome State Fault Refusal :=
  s.scalarOp d (fun sq => BitVec.ofNat 64 (shrI 64 (sq.readS a.toNat).toNat (sq.readS b.toNat).toNat))

/-- R88. Scalar signed minimum. -/
def execMinIScalar (d a b : BitVec 6) (s : State) : Host.Outcome State Fault Refusal :=
  s.scalarOp d (fun sq =>
    BitVec.ofNat 64 (pick (sx 64) false (sq.readS a.toNat).toNat (sq.readS b.toNat).toNat))

/-- R88. Scalar signed maximum. -/
def execMaxIScalar (d a b : BitVec 6) (s : State) : Host.Outcome State Fault Refusal :=
  s.scalarOp d (fun sq =>
    BitVec.ofNat 64 (pick (sx 64) true (sq.readS a.toNat).toNat (sq.readS b.toNat).toNat))

/-- R88. Scalar unsigned minimum. -/
def execMinNScalar (d a b : BitVec 6) (s : State) : Host.Outcome State Fault Refusal :=
  s.scalarOp d (fun sq =>
    BitVec.ofNat 64 (pick zx false (sq.readS a.toNat).toNat (sq.readS b.toNat).toNat))

/-- R88. Scalar unsigned maximum. -/
def execMaxNScalar (d a b : BitVec 6) (s : State) : Host.Outcome State Fault Refusal :=
  s.scalarOp d (fun sq =>
    BitVec.ofNat 64 (pick zx true (sq.readS a.toNat).toNat (sq.readS b.toNat).toNat))

/-- R88. Scalar move of a 32-bit literal, sign- or zero-extended. -/
def execMovlScalar (m : BitVec 1) (d : BitVec 6) (lit : BitVec 32) (s : State) : Host.Outcome State Fault Refusal :=
  s.scalarOp d (fun _ => movlValue m lit)

/-- R89. Scalar compare equal, writing the predicate in all 32 threads. -/
def execCmpeqScalar (p : BitVec 7) (a b : BitVec 6) (s : State) : Host.Outcome State Fault Refusal :=
  s.word (fun q sq _ =>
    (s.writePAll q p.toNat (predByte (sq.readS a.toNat == sq.readS b.toNat))).charge sq 1)

/-- R89. Scalar signed compare less-than, writing the predicate in all 32 threads. -/
def execCmpltScalar (p : BitVec 7) (a b : BitVec 6) (s : State) : Host.Outcome State Fault Refusal :=
  s.word (fun q sq _ =>
    (s.writePAll q p.toNat (predByte ((sq.readS a.toNat).slt (sq.readS b.toNat)))).charge sq 1)

end Sys2Proof.Machine
end

