-- ==== Sys2Proof/Machine/Control.lean ====
section
/-!
DEFINITION. Control flow, loops, waits, flags, holds, locks, identity, barriers and the commit token
(R43, R68 to R70, R94 to R101, R108, R134 to R139, R214, R300 to R304).
-/
namespace Sys2Proof.Machine

/-- R34. The target of a B-format branch from the clause at `a`. -/
def branchTarget (a : Word) (f : BitVec 19) : Word := a + BitVec.ofInt 32 (f.toInt * 4)

/-- R95. BRX and RET: each enabled thread goes to its register's address; a misaligned target raises ILLEGAL (R43). -/
def State.branchReg (s : State) (g : BitVec 4) (n : BitVec 1) (a : BitVec 6) : Host.Outcome State Fault Refusal :=
  s.wordV [a.toNat] (fun q sq e =>
    let act := sq.activeT e g n
    let tgt (t : Nat) : Word := (s.readV sq a.toNat t).setWidth 32
    match act.find? (fun t => (tgt t).toNat % 4 != 0) with
    | some t => s.trapWord q sq e causeIllegal ((tgt t).setWidth 64) 0
    | none =>
      let s1 := s.modSquad q (fun x => x.cancelLoops (act.map tgt))
      (s1.leaveClause q (maskOf (fun t => act.contains t)) tgt).charge sq act.length)

/-- R301. The result of a barrier in a participant: pd in all threads. -/
def State.barrierResult (s : State) (q : Nat) (sq : Squad) (p : BitVec 7) : State :=
  match sq.barRole with
  | none => s.holdWord .barrier
  | some r => ((s.modSquad q (fun x => { x with barRole := none })).writePAll q p.toNat (predByte r)).charge sq 1

/-- R300. Barrier n of a squad's block. -/
def State.barrierOf (s : State) (sq : Squad) (n : Nat) : Barrier := tabGet {} (s.block sq.blockOf).barriers n

/-- R300. The arrivals of a BARC generation have reached its count: later arrivals belong to the next generation. -/
def Barrier.full (b : Barrier) : Bool := b.barc && decide (b.count ≤ b.arrivals.length)

/-- R300. A generation of the other kind, or a BARC whose count differs, is in progress. -/
def Barrier.clash (b : Barrier) (barc : Bool) (count : Nat) : Bool :=
  !b.arrivals.isEmpty && !b.full && (b.barc != barc || (barc && b.count != count))

/-- R136. Does the body [start, start + 4 len) lie within the body of a loop? -/
def Loop.covers (l : Loop) (start len : Nat) : Bool := decide (l.start.toNat ≤ start) && decide (start + 4 * len ≤ l.endN)

/-- R136, R138. Is loop m set aside by a LOOP on counter n: n's own active loop and every loop started after it? -/
def Squad.setAside (sq : Squad) (n m : Nat) : Bool :=
  (sq.loopN n).active && (sq.loopN m).active && decide ((sq.loopN n).seq ≤ (sq.loopN m).seq)

/-- R136. The loops with those set aside cancelled. -/
def Squad.cancelAside (sq : Squad) (n : Nat) : Squad :=
  let f (m : Nat) : Loop := if sq.setAside n m then (sq.loopN m).cancel else sq.loopN m
  { sq with loop0 := f 0, loop1 := f 1, loop2 := f 2 }

/-- R136. The order number of the next loop to start. -/
def Squad.nextSeq (sq : Squad) : Nat := max sq.loop0.seq (max sq.loop1.seq sq.loop2.seq) + 1

/-- R140. A loop begins: the loop buffer forgets its body, unless a later pass of a loop around it issues from there. -/
def Squad.forgetBody (sq : Squad) (start len : Nat) : Squad :=
  { sq with loopBuf := sq.loopBuf.filter (fun e => !(decide (start ≤ e.1) && decide (e.1 < start + 4 * len)) ||
      sq.loops.any (fun l => l.2.active && l.2.inside e.1 && l.2.again)) }

/-- R74, R128. The value of a squad CSR; none for a number the manual does not list. -/
def State.csrValue (s : State) (sq : Squad) (c : Nat) : Option Nat :=
  let k := s.core sq.core
  if c = 0x000 then some sq.xcause.toNat
  else if c = 0x001 then some sq.xpc.toNat
  else if c = 0x002 then some sq.xaddr.toNat
  else if c = 0x003 then some sq.xinfo.toNat
  else if c = 0x004 then some sq.mode.toNat
  else if c = 0x005 then some sq.sname.toNat
  else if 0x020 ≤ c ∧ c ≤ 0x03F then some (tabGet 0 sq.xvpc (c - 0x020)).toNat
  else if 0x040 ≤ c ∧ c ≤ 0x07F then some (s.readHold sq (c - 0x040)).toNat
  else if c = 0x100 then some (sq.flagF.toNat + sq.flagE.toNat * 2 ^ 16)
  else if c = 0x101 then some sq.flagP.toNat
  else if c = 0x102 then some (sq.ocLd.toNat + sq.ocSt.toNat * 2 ^ 8 + sq.ocCp.toNat * 2 ^ 16 + sq.ocTl.toNat * 2 ^ 24)
  else if 0x104 ≤ c ∧ c ≤ 0x106 then some (sq.loopN (c - 0x104)).lc.toNat
  else if 0x108 ≤ c ∧ c ≤ 0x10A then
    let l := sq.loopN (c - 0x108)
    some (l.start.toNat + l.len.toNat * 2 ^ 32 + (if l.active then 2 ^ 48 else 0))
  else if c = 0x110 then some k.mogul.toNat
  else if c = 0x111 then some sq.underflow.toNat
  else if 0x114 ≤ c ∧ c ≤ 0x117 then some (tabGet 0 k.missed (c - 0x114)).toNat
  else if c = 0x120 then some s.deadLetter.toNat
  else none

/-- R74, R128. The effect of CSRWR; none for a read-only CSR or a number the manual does not list. -/
def State.csrWrite (s : State) (q : Nat) (c : Nat) (x : Reg) : Option State :=
  if c = 0x000 then some (s.modSquad q (fun sq => { sq with xcause := x.setWidth 8 }))
  else if c = 0x001 then some (s.modSquad q (fun sq => { sq with xpc := x.setWidth 32 }))
  else if c = 0x002 then some (s.modSquad q (fun sq => { sq with xaddr := x }))
  else if c = 0x003 then some (s.modSquad q (fun sq => { sq with xinfo := x }))
  else if 0x020 ≤ c ∧ c ≤ 0x03F then
    some (s.modSquad q (fun sq => { sq with xvpc := tabPut 0 sq.xvpc (c - 0x020) (x.setWidth 32) }))
  else if 0x040 ≤ c ∧ c ≤ 0x07F then some (s.writeHold q (c - 0x040) (x.setWidth 6))
  else if c = 0x100 then
    some (s.modSquad q (fun sq => { sq with flagF := x.setWidth 12, flagE := (x >>> 16).setWidth 12 }))
  else if c = 0x111 then some (s.modSquad q (fun sq => { sq with underflow := x.setWidth 32 }))
  else none

/-- R74. The hold-count CSR of a register of v32 to v63 needs the pair lock. -/
def State.csrXset (s : State) (q : Nat) (sq : Squad) (c : Nat) : Option Nat :=
  if 0x040 ≤ c ∧ c ≤ 0x07F then s.xsetReg q sq [c - 0x040] else none

/-- R99. Changes nothing. -/
def execNop (g : BitVec 4) (n : BitVec 1) (s : State) : Host.Outcome State Fault Refusal :=
  s.word (fun _ sq e => s.charge sq (sq.activeT e g n).length)

/-- R94. Branches the enabled threads relative to the clause header. -/
def execBra (g : BitVec 4) (n : BitVec 1) (f : BitVec 19) (s : State) : Host.Outcome State Fault Refusal :=
  s.word (fun q sq e =>
    let act := sq.activeT e g n
    let tgt := branchTarget e.clause.addr f
    let s1 := s.modSquad q (fun x => x.cancelLoops (act.map (fun _ => tgt)))
    (s1.leaveClause q (maskOf (fun t => act.contains t)) (fun _ => tgt)).charge sq act.length)

/-- R95. Branches each enabled thread to the address in its register. -/
def execBrx (g : BitVec 4) (n : BitVec 1) (a : BitVec 6) (s : State) : Host.Outcome State Fault Refusal :=
  s.branchReg g n a

/-- R96. Writes the link to v31 and branches. -/
def execCall (g : BitVec 4) (n : BitVec 1) (f : BitVec 19) (s : State) : Host.Outcome State Fault Refusal :=
  s.word (fun q sq e =>
    let act := sq.activeT e g n
    let link := e.clause.endAddr
    let s1 := s.writeVs q 31 (act.map (fun t =>
      (t, (s.readV sq 31 t &&& 0xFFFFFFFF00000000#64) ||| link.setWidth 64)))
    (s1.leaveClause q (maskOf (fun t => act.contains t)) (fun _ => branchTarget e.clause.addr f)).charge sq act.length)

/-- R95. Returns each enabled thread to the link address in its register. -/
def execRet (g : BitVec 4) (n : BitVec 1) (a : BitVec 6) (s : State) : Host.Outcome State Fault Refusal :=
  s.branchReg g n a

/-- R98. Retires the enabled threads. -/
def execExit (g : BitVec 4) (n : BitVec 1) (s : State) : Host.Outcome State Fault Refusal :=
  s.word (fun q sq e =>
    let act := sq.activeT e g n
    ((s.leaveClause q (maskOf (fun t => act.contains t)) (fun _ => exited)).retireIfDead q).charge sq act.length)

/-- R99. Ends the squad's turn after this clause. -/
def execYield (s : State) : Host.Outcome State Fault Refusal :=
  s.word (fun _ sq _ => (s.modLane s.focus (fun l => { l with ended := true })).charge sq 1)

/-- R300. Arrives at a block barrier counting all unretired squads of the block. -/
def execBar (p : BitVec 7) (b : BitVec 4) (s : State) : Host.Outcome State Fault Refusal :=
  s.word (fun q sq e =>
    if (e.clash || (s.barrierOf sq b.toNat).clash false 0) && sq.barRole.isNone then s.trapWord q sq e causeIllegal 0 13
    else s.barrierResult q sq p)

/-- R300. Arrives at a block barrier with an explicit participant count. -/
def execBarc (p : BitVec 7) (a : BitVec 6) (b : BitVec 4) (s : State) : Host.Outcome State Fault Refusal :=
  s.word (fun q sq e =>
    let count := (sq.readS a.toNat).toNat
    if count = 0 ∨ 16 < count then s.trapWord q sq e causeIllegal 0 3
    else if (e.clash || (s.barrierOf sq b.toNat).clash true count) && sq.barRole.isNone then s.trapWord q sq e causeIllegal 0 13
    else s.barrierResult q sq p)

/-- R304. Waits for the commit token, enters the commit section and performs the acquire half. -/
def execCommit (s : State) : Host.Outcome State Fault Refusal :=
  s.word (fun _ sq _ =>
    ((s.modLaunch sq.launch (fun l => { l with inSection := true })).acquire sq.core).charge sq 1)

/-- R304. Performs the release half, leaves the section and sends the commit token on. -/
def execPass (s : State) : Host.Outcome State Fault Refusal :=
  s.word (fun q sq e =>
    if s.inSection sq then
      (s.modSquad q (fun x => x.await (.pass s.nextId))).charge sq 1
    else s.trapWord q sq e causeIllegal 0 12)

/-- R101. Marks the lowest-numbered enabled thread in a predicate. -/
def execElect (g : BitVec 4) (n : BitVec 1) (p : BitVec 7) (s : State) : Host.Outcome State Fault Refusal :=
  s.word (fun q sq e =>
    let act := sq.activeT e g n
    (s.writePs q p.toNat (act.map (fun t => (t, predByte (act.head? == some t))))).charge sq act.length)

/-- R100. Raises a precise trap with cause 0x80 + code. -/
def execTrap (g : BitVec 4) (n : BitVec 1) (k : BitVec 7) (s : State) : Host.Outcome State Fault Refusal :=
  s.word (fun q sq e =>
    let act := sq.activeT e g n
    if act.isEmpty then s.charge sq 1
    else s.trapWord q sq e (0x80 + k.toNat) ((maskOf (fun t => act.contains t)).setWidth 64) 0)

/-- R136. Starts a hardware loop over the following body. Of two in one clause, the end target of T = 0 stands (log 17). -/
def execLoop (c : BitVec 2) (l : BitVec 8) (b : BitVec 6) (s : State) : Host.Outcome State Fault Refusal :=
  s.word (fun q sq e =>
    let n := c.toNat
    let start := e.clause.endAddr.toNat
    let len := l.toNat + 1
    let trips := (sq.readS b.toNat).setWidth 32
    let bad := [0, 1, 2].any (fun m =>
      (sq.loopN m).active && !sq.setAside n m && !(sq.loopN m).covers start len)
    if bad then s.trapWord q sq e causeIllegal (BitVec.ofNat 64 (start + 4 * len)) 1
    else
      let fresh := (sq.cancelAside n).nextSeq
      let s1 := s.modSquad q (fun x =>
        if trips = 0 then (x.cancelAside n).withLoop n { ((x.cancelAside n).loopN n) with lc := 0, active := false }
        else ((x.cancelAside n).forgetBody start len).withLoop n
          { lc := trips, start := e.clause.endAddr, len := BitVec.ofNat 9 len, active := true, seq := fresh })
      let s2 := if trips = 0 then
          s1.modLane s.focus (fun k => { k with cur := k.cur.map (fun y => { y with jump := some (BitVec.ofNat 32 (start + 4 * len)) }) })
        else s1
      s2.charge sq 1)

/-- R134. Holds its clause until the outstanding-class counters are at or below the limits. -/
def execWait (_l _b _c : BitVec 5) (_t : BitVec 4) (s : State) : Host.Outcome State Fault Refusal :=
  s.word (fun _ sq _ => s.charge sq 1)

/-- R135. Sets the masked completion flags. -/
def execFlagset (m : BitVec 12) (s : State) : Host.Outcome State Fault Refusal :=
  s.word (fun q sq _ => (s.modSquad q (fun x => { x with flagF := x.flagF ||| m })).charge sq 1)

/-- R135. Clears the masked completion flags and their error bits. -/
def execFlagclr (m : BitVec 12) (s : State) : Host.Outcome State Fault Refusal :=
  s.word (fun q sq _ =>
    (s.modSquad q (fun x => { x with flagF := x.flagF &&& ~~~ m, flagE := x.flagE &&& ~~~ m })).charge sq 1)

/-- R68. Takes the pair lock on v32–v63, zeroing them when the holder changes. -/
def execXlock (s : State) : Host.Outcome State Fault Refusal :=
  s.word (fun q sq _ =>
    let p := s.pair sq.pairOf
    if p.owner = some q then s.charge sq 1
    else if p.owner = none then
      (s.modPair sq.pairOf (fun x =>
        if x.last = some q then { x with owner := some q, last := some q }
        else { v := [], hold := [], owner := some q, last := some q })).charge sq 1
    else s.holdWord .lock)

/-- R68. Releases the pair lock. -/
def execXunlock (s : State) : Host.Outcome State Fault Refusal :=
  s.word (fun q sq _ =>
    (s.modPair sq.pairOf (fun x => if x.owner = some q then { x with owner := none } else x)).charge sq 1)

/-- R69. Sets the hold count of a vector register. -/
def execArm (d c : BitVec 6) (s : State) : Host.Outcome State Fault Refusal :=
  s.wordV [d.toNat] (fun q sq _ => (s.writeHold q d.toNat c).charge sq 1)

/-- R70. Writes a thread, squad, block, cluster, core or device identity. -/
def execGetid (g : BitVec 4) (n : BitVec 1) (d : BitVec 6) (k : BitVec 7) (s : State) : Host.Outcome State Fault Refusal :=
  if k = 0 then s.vecMove 64 g n d [] (fun _ t => BitVec.ofNat 64 t)
  else s.scalarOp d (fun sq => BitVec.ofNat 64 (
    match k.toNat with
    | 1 => sq.qid
    | 2 => sq.bx
    | 3 => sq.byy
    | 4 => sq.bz
    | 5 => sq.cluster
    | 6 => sq.core
    | _ => s.own))

/-- R108. Sets the rounding mode and seeds all 32 generator words. -/
def execSetmode (a : BitVec 6) (m : BitVec 3) (s : State) : Host.Outcome State Fault Refusal :=
  s.word (fun q sq _ =>
    let seed : Word := (sq.readS a.toNat).setWidth 32
    (s.modSquad q (fun x => { x with
      mode := (x.mode &&& ~~~ 7#32) ||| m.setWidth 32
      gen := threads.foldl (fun acc t => tabPut 0 acc t (genSeed seed t)) x.gen })).charge sq 1)

/-- R214. Marks the squad released for dependent launches; for one that is released, it waits for no engine any more. -/
def execLnext (s : State) : Host.Outcome State Fault Refusal :=
  s.word (fun q sq _ =>
    (s.modSquad q (fun x => x.await (.lnext (if x.released then 0 else s.nextId) none))).charge sq 1)

/-- R214. Waits for EARLY predecessors to be released and DONE predecessors to retire, then acquires. -/
def execWaitpred (s : State) : Host.Outcome State Fault Refusal :=
  s.word (fun _ sq _ => (s.acquire sq.core).charge sq 1)

/-- R214. Waits for every predecessor launch to retire, then acquires. -/
def execWaitdone (s : State) : Host.Outcome State Fault Refusal :=
  s.word (fun _ sq _ => (s.acquire sq.core).charge sq 1)

/-- R75. Reads a squad CSR into a scalar. -/
def execCsrrd (d : BitVec 6) (c : BitVec 12) (s : State) : Host.Outcome State Fault Refusal :=
  s.sysWord (fun q sq e =>
    match s.csrXset q sq c.toNat with
    | some r => s.trapWord q sq e causeXset (BitVec.ofNat 64 r) 0
    | none => match s.csrValue sq c.toNat with
      | some v => (s.writeS q d.toNat (BitVec.ofNat 64 v)).charge sq 1
      | none => s.trapWord q sq e causeIllegal 0 0)

/-- R75. Writes a scalar into a squad CSR. -/
def execCsrwr (b : BitVec 6) (c : BitVec 12) (s : State) : Host.Outcome State Fault Refusal :=
  s.sysWord (fun q sq e =>
    match s.csrXset q sq c.toNat with
    | some r => s.trapWord q sq e causeXset (BitVec.ofNat 64 r) 0
    | none => match s.csrWrite q c.toNat (sq.readS b.toNat) with
      | some s1 => s1.charge sq 1
      | none => s.trapWord q sq e causeIllegal 0 0)

/-- R76. Returns from a trap handler, resuming the clause remainder or ordinary issue. The turn ends (log 18); a squad whose threads have
all exited retires and drops the remainder (log 17). -/
def execRft (s : State) : Host.Outcome State Fault Refusal :=
  s.sysWord (fun q sq e =>
    if sq.mgmt then s.trapWord q sq e causeIllegal 0 0
    else (((s.modSquad q Squad.returnFromTrap).retireIfDead q).freeLane sq.laneOf true).charge sq 1)

/-- R45. SYS HALT; listed in the opcode map without further description. -/
def execHalt (_s : State) : Host.Outcome State Fault Refusal :=
  .refused .haltUndescribed

/-- R146, R148. The core's event counters as they stood at the end of the previous clock: before the clause issued, for the word at
which it issued, which runs in that clock (log 19). -/
def State.countersAt (s : State) (core : Nat) (e : Exec) : Tab EventCounter :=
  if e.idx = e.first then e.counts else (s.core core).events

/-- R148. Reads a core event counter. -/
def execEvrd (d : BitVec 6) (n : BitVec 4) (s : State) : Host.Outcome State Fault Refusal :=
  s.sysWord (fun q sq e => (s.writeS q d.toNat ((tabGet {} (s.countersAt sq.core e) n.toNat).count.setWidth 64)).charge sq 1)

/-- R147. Selects, enables or clears a core event counter. -/
def execEvsel (a : BitVec 6) (n : BitVec 4) (s : State) : Host.Outcome State Fault Refusal :=
  s.sysWord (fun _ sq _ =>
    let x := sq.readS a.toNat
    let s1 := s.charge sq 1
    s1.modCore sq.core (fun c =>
      let old := tabGet ({} : EventCounter) c.events n.toNat
      let new : EventCounter := { count := if x.getLsbD 9 then 0 else old.count, source := x.setWidth 8, en := x.getLsbD 8 }
      { c with events := tabPut {} c.events n.toNat new }))

end Sys2Proof.Machine
end

