-- ==== Sys2Proof/Machine/Translate.lean ====
section
/-!
DEFINITION. Page tables, the TLB and translation (R221 to R224, R226).
-/
namespace Sys2Proof.Machine

/-- R222. A translated page: its physical or host-link base, its size and the leaf's attributes. -/
structure Page where
  base : Nat
  size : Nat
  leaf : Nat
  deriving DecidableEq, Repr

/-- R222. Home: 0 CACHED, 1 PINNED, 2 STREAM, 3 UNCACHED. -/
def Page.home (p : Page) : Nat := bits p.leaf 3 2

/-- R222. Share scope: 0 CORE, 1 DIE, 2 DEV, 3 POD. -/
def Page.scope (p : Page) : Nat := bits p.leaf 5 4

/-- R222. Is the page at the host? -/
def Page.host (p : Page) : Bool := bitOf p.leaf 6

/-- R222. The DET-shared flag. -/
def Page.det (p : Page) : Bool := bitOf p.leaf 7

/-- R222. The permissions. -/
def Page.r (p : Page) : Bool := bitOf p.leaf 8
def Page.w (p : Page) : Bool := bitOf p.leaf 9
def Page.x (p : Page) : Bool := bitOf p.leaf 10
def Page.f (p : Page) : Bool := bitOf p.leaf 11

/-- The physical (or host-link) address of a virtual address of the page. -/
def Page.pa (p : Page) (va : Nat) : Nat := p.base + va % p.size

/-- What a walk finds. -/
inductive WalkResult where
  /-- R236. A well-formed leaf with V = 1. -/
  | page (p : Page)
  /-- R221. An entry with V = 0. -/
  | absent
  /-- R223. A malformed entry. -/
  | malformed
  deriving DecidableEq, Repr

/-- R221. The index into the table of a level; level 5 stands for level 4 of 64 KiB pages. -/
def walkIndex (level va : Nat) : Nat :=
  match level with
  | 0 => va / 2 ^ 48 % 256
  | 1 => va / 2 ^ 39 % 512
  | 2 => va / 2 ^ 30 % 512
  | 3 => va / 2 ^ 21 % 512
  | 4 => va / 2 ^ 12 % 512
  | _ => va / 2 ^ 16 % 32

/-- R221. The page size of a leaf at a level. -/
def leafSize (level : Nat) : Nat :=
  match level with
  | 2 => 2 ^ 30
  | 3 => 2 ^ 21
  | 4 => 4096
  | _ => 65536

/-- R222, R223. Is a leaf entry well formed at a level? -/
def leafOk (level e : Nat) : Bool :=
  decide (2 ≤ level) && e / 2 ^ 52 == 0 && (e / 2 ^ 12 % 2 ^ 40 * 4096) % leafSize level == 0

/-- R222, R223. Is a pointer entry well formed at a level? -/
def pointerOk (level e : Nat) : Bool :=
  decide (level ≤ 3) && e / 2 ^ 52 == 0 && e / 8 % 512 == 0 && (level == 3 || e / 4 % 2 == 0)

/-- R221. A walk from a table at a level, with fuel for the levels below. -/
def State.walkFrom (s : State) (fuel level table va : Nat) : WalkResult :=
  match fuel with
  | 0 => .malformed
  | fuel + 1 =>
    let e := s.readLe (table + 8 * walkIndex level va) 8
    if e % 2 = 0 then .absent
    else if e / 2 % 2 = 1 then
      (if leafOk level e then .page { base := e / 2 ^ 12 % 2 ^ 40 * 4096, size := leafSize level, leaf := e } else .malformed)
    else if pointerOk level e then
      s.walkFrom fuel (if level = 3 ∧ e / 4 % 2 = 1 then 5 else level + 1) (e / 2 ^ 12 % 2 ^ 40 * 4096) va
    else .malformed

/-- R221. The walk of a virtual address from a root table. -/
def State.walk (s : State) (root va : Nat) : WalkResult := s.walkFrom 5 0 root (va % 2 ^ 56)

/-- R226. The TLB entry of a core that covers an address of an address space. -/
def CoreS.tlbFind (k : CoreS) (asid va : Nat) : Option TlbEntry :=
  k.tlb.find? (fun e => e.asid == asid && e.page == va / e.size)

/-- R226. Translation on a core: the TLB's entry, or a walk. -/
def State.translate (s : State) (core asid root va : Nat) : WalkResult :=
  match (s.core core).tlbFind asid va with
  | some e => .page { base := e.leaf / 2 ^ 12 % 2 ^ 40 * 4096, size := e.size, leaf := e.leaf }
  | none => s.walk root va

/-- R226. Translation in a region. -/
def State.translateIn (s : State) (core : Nat) (g : Region) (va : Nat) : WalkResult := s.translate core g.asid g.root va

/-- R220, R226. The addresses of the entries that a walk reads. -/
def State.walkReads (s : State) (fuel level table va : Nat) : List Nat :=
  match fuel with
  | 0 => []
  | fuel + 1 =>
    let a := table + 8 * walkIndex level va
    let e := s.readLe a 8
    a :: (if e % 4 = 1 ∧ pointerOk level e = true then
        s.walkReads fuel (if level = 3 ∧ e / 4 % 2 = 1 then 5 else level + 1) (e / 2 ^ 12 % 2 ^ 40 * 4096) va
      else [])

/-- R146, R220, R226. A miss is counted and goes to the die's walkers, unless one is in flight or waits there for the page. -/
def State.startWalk (s : State) (core : Nat) (g : Region) (va : Nat) : State :=
  if ((s.core core).tlbFind g.asid va).isSome then s
  else if s.walks.any (fun w => w.core == core && w.asid == g.asid && w.va / 4096 == va / 4096) then s
  else
    let w : Walk := { core := core, asid := g.asid, root := g.root, va := va, cls := g.svc, budget := g.deadline }
    { s with walks := s.walks ++ [w] }.coreEvent core 0x08 1

/-- R226. Install a leaf; a full TLB first loses an entry, which one is left open (log 3). -/
def State.installTlb (s : State) (core : Nat) (e : TlbEntry) : State :=
  let t := (s.core core).tlb.filter (fun x => !(x.asid == e.asid && x.page == e.page && x.size == e.size))
  if t.length < 2048 then s.modCore core (fun k => { k with tlb := e :: t })
  else
    let r := s.free
    r.2.modCore core (fun k => { k with tlb := e :: t.eraseIdx (r.1.toNat % t.length) })

/-- R1, R152. A byte at the home of a translated address. -/
def State.homeByte (s : State) (host : Bool) (a : Nat) : Byte := if host then tabGet 0 s.host a else s.readByte a

/-- The n bytes from an address at their home. -/
def State.homeBytes (s : State) (host : Bool) (a n : Nat) : List Byte := (List.range n).map (fun i => s.homeByte host (a + i))

/-- One update at the home of an address (R331). -/
def State.homeStore (s : State) (host : Bool) (a : Nat) (bs : List Byte) : State :=
  if host then { s with host := (List.range bs.length).foldl (fun m i => tabPut 0 m (a + i) (bs.getD i 0)) s.host }
  else s.storeBytes a bs

end Sys2Proof.Machine
end

