-- ==== Sys2Proof/Machine/Figure.lean ====
section
/-!
DEFINITION. Figure definitions: their image, the checks of a load, the program's run on a granule, and the merging of
combinable requests (R239 to R244, R252).
-/
namespace Sys2Proof.Machine

/-- R239. A definition image's flags byte. -/
def figFlags (img : List Byte) : Nat := (img.getD 0 0).toNat

/-- R239. The fields of a flags byte: TILE granule, COMM, RET, DROP, POD space, V. -/
def figTile (fl : Nat) : Bool := bitOf fl 0
def figComm (fl : Nat) : Bool := bitOf fl 1
def figRet (fl : Nat) : Bool := bitOf fl 2
def figDrop (fl : Nat) : Bool := bitOf fl 3
def figPod (fl : Nat) : Bool := bitOf fl 6
def figValid (fl : Nat) : Bool := bitOf fl 7

/-- R239. The element width in bits, and in bytes. -/
def figW (fl : Nat) : Nat := 8 * 2 ^ (fl / 16 % 4)
def figBytes (fl : Nat) : Nat := 2 ^ (fl / 16 % 4)

/-- R239. The granule in bytes. -/
def figGranule (fl : Nat) : Nat := if figTile fl then 256 else 128

/-- R239. n, and micro-operation word i. -/
def figN (img : List Byte) : Nat := (img.getD 1 0).toNat
def figWord (img : List Byte) (i : Nat) : Nat := leVal ((img.drop (16 + 4 * i)).take 4)

/-- R240. The fields of a micro-operation word. -/
def uopOp (w : Nat) : Nat := w / 2 ^ 26
def uopD (w : Nat) : Nat := w / 2 ^ 24 % 4
def uopA (w : Nat) : Nat := w / 2 ^ 22 % 4
def uopB (w : Nat) : Nat := w / 2 ^ 20 % 4
def uopK (w : Nat) : Nat := w / 2 ^ 19 % 2
def uopS (w : Nat) : Nat := w / 2 ^ 18 % 2
def uopAM (w : Nat) : Nat := w / 2 ^ 16 % 4
def uopZ (w : Nat) : Nat := w / 2 ^ 9 % 128
def uopImm (w : Nat) : Int := sextNat 9 w

/-- R240, R241. Are the fields that a micro-operation does not use zero? -/
def uopUnusedZero (w : Nat) : Bool :=
  let op := uopOp w
  let mem := op == 1 || op == 2
  let usesD := op == 1 || op == 3 || (4 ≤ op && op ≤ 18)
  let usesA := op == 2 || (4 ≤ op && op ≤ 20)
  let binary := (4 ≤ op && op ≤ 13) || op == 15 || op == 16
  let reg3 := op == 14 || op == 17 || op == 18
  let usesB := (binary && uopK w == 0) || reg3 || (mem && uopAM w == 2)
  let usesS := op == 6 || op == 7 || op == 8 || op == 13 || op == 16
  let usesImm := mem || op == 3 || (binary && uopK w == 1)
  (usesD || uopD w == 0) && (usesA || uopA w == 0) && (usesB || uopB w == 0) && (binary || uopK w == 0) &&
  (usesS || uopS w == 0) && (mem || uopAM w == 0) && uopZ w == 0 && (usesImm || w % 512 == 0)

/-- R243, status 2. Is a word at a position before END well formed? -/
def uopOk (w : Nat) : Bool :=
  uopOp w != 0 && decide (uopOp w ≤ 20) && uopAM w != 3 && uopUnusedZero w

/-- R243, status 2. Does position i break a rule? -/
def figBad2 (img : List Byte) (i : Nat) : Bool :=
  let n := figN img
  let w := figWord img i
  if i + 1 < n then !uopOk w else w != 0

/-- R243, status 3. Is a constant offset outside the granule? -/
def figBad3 (img : List Byte) (i : Nat) : Bool :=
  let fl := figFlags img
  let w := figWord img i
  let b : Int := figBytes fl
  let top : Int := figGranule fl - b
  let m := uopImm w
  (uopOp w == 1 || uopOp w == 2) &&
  (decide (m % b ≠ 0) || (if uopAM w = 1 then decide (m < -top) || decide (top < m) else decide (m < 0) || decide (top < m)))

/-- R243, status 6. -/
def figBad6 (img : List Byte) (i : Nat) : Bool :=
  let W := figW (figFlags img)
  let w := figWord img i
  (uopOp w == 17 && W != 32) || (uopOp w == 18 && W != 16 && W != 32) ||
  (uopOp w == 3 && (decide (uopImm w < 0) || decide ((64 / W : Nat) ≤ uopImm w)))

/-- The positions of the program, END included. -/
def figPositions (img : List Byte) : List Nat := List.range (figN img)

/-- R243, status 4. The offending position. -/
def figBad4 (img : List Byte) : Option Nat :=
  let rs := (figPositions img).filter (fun i => uopOp (figWord img i) == 19)
  if figRet (figFlags img) then
    match rs with
    | [] => some (figN img - 1)
    | [_] => none
    | _ :: r :: _ => some r
  else rs.head?

/-- R244. The combining operation's code and its S bit, when a word is a permitted one. -/
def commOp (w : Nat) : Bool :=
  let op := uopOp w
  uopK w == 0 && (op == 4 || (op == 6 && uopS w == 0) || op == 7 || op == 8 || op == 9 || op == 10 || op == 11)

/-- R244. Does the word at a position of a COMM program depart from the form? -/
def commDeparts (img : List Byte) (i : Nat) : Bool :=
  let w (k : Nat) := figWord img k
  let x := uopD (w 0)
  let y := uopD (w 1)
  let z := uopD (w 2)
  let ret := figRet (figFlags img)
  match i with
  | 0 => !(uopOp (w 0) == 1 && uopAM (w 0) == 1 && w 0 % 512 == 0)
  | 1 => !(uopOp (w 1) == 3 && w 1 % 512 == 0 && x != y)
  | 2 => !(commOp (w 2) && ((uopA (w 2) == x && uopB (w 2) == y) || (uopA (w 2) == y && uopB (w 2) == x)))
  | 3 => !(uopOp (w 3) == 2 && uopAM (w 3) == 1 && w 3 % 512 == 0 && uopA (w 3) == z)
  | 4 => if ret then !(uopOp (w 4) == 19 && (uopA (w 4) == x || uopA (w 4) == z)) else w 4 != 0
  | 5 => ret && w 5 != 0
  | _ => false

/-- R243. A status word: the status and the offending position. -/
def figStatusWord (st pos : Nat) : Nat := st + 256 * pos

/-- R243. The status word of an image: 0 when it is accepted. A reserved byte at 0x50 to 0x7F counts with the header (log 66). -/
def figCheck (img : List Byte) : Nat :=
  let fl := figFlags img
  let n := figN img
  let pos := figPositions img
  if 16 < n then figStatusWord 1 0xFF
  else if n = 0 ∨ figValid fl ∨ ((img.drop 2).take 14).any (· != 0) ∨ ((img.drop 0x50).take 0x30).any (· != 0) then
    figStatusWord 2 0xFF
  else match (List.range 16).find? (figBad2 img) with
  | some i => figStatusWord 2 i
  | none => match pos.find? (figBad3 img) with
    | some i => figStatusWord 3 i
    | none => match figBad4 img with
      | some i => figStatusWord 4 i
      | none => match (if figComm fl then (List.range 6).find? (commDeparts img) else none) with
        | some i => figStatusWord 5 i
        | none => match pos.find? (figBad6 img) with
          | some i => figStatusWord 6 i
          | none => 0

/-- R242. A program's temporaries, working image, return value and whether it has stored. -/
structure FigRun where
  t0 : Nat := 0
  t1 : Nat := 0
  t2 : Nat := 0
  t3 : Nat := 0
  img : List Byte
  ret : Nat := 0
  stored : Bool := false
  deriving DecidableEq, Repr

/-- A temporary. -/
def FigRun.get (r : FigRun) (k : Nat) : Nat :=
  match k with
  | 0 => r.t0
  | 1 => r.t1
  | 2 => r.t2
  | _ => r.t3

/-- A temporary written. -/
def FigRun.set (r : FigRun) (k v : Nat) : FigRun :=
  match k with
  | 0 => { r with t0 := v }
  | 1 => { r with t1 := v }
  | 2 => { r with t2 := v }
  | _ => { r with t3 := v }

/-- A number read as W bits, signed or not. -/
def asSigned (S : Bool) (W v : Nat) : Int := if S then sx W (v % 2 ^ W) else ((v % 2 ^ W : Nat) : Int)

/-- R241. The value of a two-operand micro-operation. -/
def uopValue (W op : Nat) (S : Bool) (a b d : Nat) : Nat :=
  let x := asSigned S W a
  let y := asSigned S W b
  match op with
  | 4 => (a + b) % 2 ^ W
  | 5 => modW W ((a : Int) - b)
  | 6 => if S then clampS W (x + y) else clampU W (x + y)
  | 7 => if x ≤ y then a else b
  | 8 => if x ≤ y then b else a
  | 9 => a &&& b
  | 10 => a ||| b
  | 11 => a ^^^ b
  | 12 => if W ≤ b then 0 else a * 2 ^ b % 2 ^ W
  | 13 => modW W (x / 2 ^ (min b W))
  | 14 => if d = 0 then b else a
  | 15 => if a = b then 1 else 0
  | 16 => if x < y then 1 else 0
  | 17 => faddRne .f32 a b
  | 18 =>
    if W = 32 then faddRne .bf16 (a % 65536) (b % 65536) + 65536 * faddRne .bf16 (a / 65536) (b / 65536)
    else faddRne .bf16 a b
  | _ => 0

/-- What a program's run has come to. -/
inductive FigResult where
  | ok (r : FigRun)
  | fault (detail : Nat)
  deriving DecidableEq, Repr

/-- R242. The offset of an LDE or STE. -/
def uopOffset (r : FigRun) (w e : Nat) : Int :=
  match uopAM w with
  | 0 => uopImm w
  | 1 => e + uopImm w
  | _ => (r.get (uopB w) : Int) + uopImm w

/-- Bytes written over a list from a place. -/
def patch (l : List Byte) (at_ : Nat) (bs : List Byte) : List Byte := l.take at_ ++ bs ++ l.drop (at_ + bs.length)

/-- R242. One micro-operation on the element at offset e with an operand. -/
def uopStep (fl e operand w : Nat) (r : FigRun) : FigResult :=
  let W := figW fl
  let b := figBytes fl
  let op := uopOp w
  let off := uopOffset r w e
  if op = 1 ∨ op = 2 then
    if off < 0 ∨ (figGranule fl - b : Int) < off ∨ off % b ≠ 0 then .fault 1
    else if op = 1 then .ok (r.set (uopD w) (leVal ((r.img.drop off.toNat).take b)))
    else .ok { r with img := patch r.img off.toNat (leBytes b (r.get (uopA w))), stored := true }
  else if op = 3 then .ok (r.set (uopD w) (operand / 2 ^ (W * (uopImm w).toNat) % 2 ^ W))
  else if op = 19 then .ok { r with ret := r.get (uopA w) }
  else if op = 20 then (if r.get (uopA w) = 0 then .fault 2 else .ok r)
  else
    let y := if uopK w = 1 then modW W (uopImm w) else r.get (uopB w)
    .ok (r.set (uopD w) (uopValue W op (uopS w == 1) (r.get (uopA w)) y (r.get (uopD w))))

/-- R242. The micro-operations from a list of words, up to END. -/
def uopRun (fl e operand : Nat) (ws : List Nat) (r : FigRun) : FigResult :=
  match ws with
  | [] => .ok r
  | w :: rest =>
    if uopOp w = 0 then .ok r
    else match uopStep fl e operand w r with
      | .fault d => .fault d
      | .ok r1 => uopRun fl e operand rest r1

/-- R242. A definition's run on a granule's bytes, for the element at offset e. -/
def figRun (img : List Byte) (granule : List Byte) (e operand : Nat) : FigResult :=
  uopRun (figFlags img) e operand ((figPositions img).map (figWord img)) { img := granule }

/-- R240, R242. The bytes of its granule that an LDE or STE may reach, of the element at offset e: all of them where its offset is
computed. -/
def uopReach (fl e w : Nat) : List Nat :=
  let o : Int := if uopAM w = 1 then e + uopImm w else uopImm w
  let all := List.range (figGranule fl)
  if uopOp w ≠ 1 ∧ uopOp w ≠ 2 then []
  else if uopAM w = 2 then all
  else all.filter (fun (i : Nat) => decide (o ≤ (i : Int)) && decide ((i : Int) < o + figBytes fl))

/-- R200, R242. The addresses that a definition's program may read or write for the element at an address. -/
def figReach (img : List Byte) (a : Nat) : List Nat :=
  let fl := figFlags img
  let G := figGranule fl
  let ws := ((figPositions img).map (figWord img)).takeWhile (fun w => uopOp w != 0)
  (ws.flatMap (uopReach fl (a % G))).map (fun i => a / G * G + i)

/-- R244, R252. The operand of a merged entry. -/
def figMerge (img : List Byte) (x y : Nat) : Nat :=
  let w := figWord img 2
  uopValue (figW (figFlags img)) (uopOp w) (uopS w == 1) x y 0

/-- R238, R239. The table entry of a slot. -/
def State.figEntry (s : State) (table slot : Nat) : List Byte := s.readBytes (table + 128 * slot) 128

end Sys2Proof.Machine
end

