-- ==== Sys2Proof/Machine/Home.lean ====
section
/-!
DEFINITION. What is done at the home of a line: figure requests, the combining buffers, held granules, and the accesses that wait for
them (R152, R200, R204, R211, R242, R249 to R254, R257).
-/
namespace Sys2Proof.Machine

/-- R249. One element of a flagged FIG is done; the flag completes with its last. -/
def State.flagOpDone (s : State) (op : Nat) (err : Bool) : State :=
  match tabFind s.flagOps op with
  | none => s
  | some f =>
    if f.left ≤ 1 then
      { s with flagOps := tabDel s.flagOps op }.modSquad f.squad (fun sq => sq.flagDone f.flag (f.err || err))
    else { s with flagOps := tabIns s.flagOps op { f with left := f.left - 1, err := f.err || err } }

/-- The state of an element of a load replaced. -/
def LoadOp.setElem (o : LoadOp) (t : Nat) (st : ElemState) : LoadOp :=
  { o with elems := o.elems.map (fun e => if e.thread = t then { e with st := st } else e) }

/-- An element of an outstanding load or atomic is performed. -/
def State.setElem (s : State) (op t : Nat) (st : ElemState) : State :=
  { s with loads := tabMod s.loads op (fun o => o.setElem t st) }

/-- A figure request as an update unit takes it (R249, R251, R252). -/
structure FigReq where
  pa : Nat
  va : Nat
  img : List Byte
  operand : Nat
  count : Nat := 1
  core : Nat
  back : Option (Nat × Nat) := none
  flagOp : Option Nat := none
  /-- R326. For whom the home and the channel are asked. -/
  by_ : Asker := {}
  region : Region := {}
  sname : Word := 0
  code : Word := 0
  deriving DecidableEq, Repr

/-- The end of one request's element: its return place and its flag. -/
def State.figReturn (s : State) (q : FigReq) (st : ElemState) (err : Bool) : State :=
  let s1 := match q.back with
    | some b => s.setElem b.1 b.2 st
    | none => s
  match q.flagOp with
  | some op => s1.flagOpDone op err
  | none => s1

/-- R254. The record of a figure fault under TRAP. -/
def FigReq.record (q : FigReq) (d : Nat) : FaultRec :=
  { addr := q.va, cause := 0x22, detail := d, source := 5, cores := coreBit q.core, die := dieOfCore q.core,
    sname := q.sname.toNat, code := q.code.toNat }

/-- R145, R254. A request dropped under DROP: the counter of its slice or channel unit. -/
def State.figDropped (s : State) (q : FigReq) : State :=
  if figTile (figFlags q.img) then
    let ch := channelOf q.pa
    { s with channelDrops := tabPut 0 s.channelDrops ch (tabGet 0 s.channelDrops ch + BitVec.ofNat 32 q.count) }.dieEvent
      (dieOfChannel ch) 0x47 q.count
  else
    let sl := sliceOf q.pa
    { s with sliceDrops := tabPut 0 s.sliceDrops sl (tabGet 0 s.sliceDrops sl + BitVec.ofNat 32 q.count) }.dieEvent
      (dieOfSlice sl) 0x45 q.count

/-- R254. A figure request faults. -/
def State.figFault (s : State) (q : FigReq) (d : Nat) : State :=
  if figDrop (figFlags q.img) then (s.figDropped q).figReturn q .skip false
  else (s.postRegion q.region (dieOfPa q.pa) (q.record d)).figReturn q .skip true

/-- R242. Is a byte of a granule poisoned? -/
def State.granulePoisoned (s : State) (base size : Nat) : Bool := (List.range (size / 128)).any (fun i => s.isPoisoned (base + 128 * i))

/-- R149. A line that its slice, or for an UNCACHED page its memory-side cache, has written is dirty there. -/
def State.dirtyLine (s : State) (pa : Nat) : State :=
  match tabFind s.l2 (pa / 128) with
  | some l => if l.present then { s with l2 := tabIns s.l2 (pa / 128) { l with dirty := true } } else s
  | none => { s with msc := tabMod s.msc (pa / 128) (fun l => { l with dirty := true }) }

/-- R149, R251. What a figure has written: a LINE figure's line is dirty, and a TILE figure's lines go to the rows of their channel. -/
def State.figStored (s : State) (q : FigReq) : State :=
  if figTile (figFlags q.img) then
    (s.askChannel q.by_ (q.pa / 256 * 2) true).askChannel q.by_ (q.pa / 256 * 2 + 1) true
  else s.dirtyLine q.pa

/-- R242. An update unit executes one request: its whole update, or none. -/
def State.figExecute (s : State) (q : FigReq) : State :=
  let G := figGranule (figFlags q.img)
  let base := q.pa / G * G
  if s.granulePoisoned base G then s.figFault q 3
  else match figRun q.img (s.readBytes base G) (q.pa - base) q.operand with
    | .fault d => s.figFault q d
    | .ok r =>
      let s1 := if r.stored then (s.writeBytes base r.img).figStored q else s
      s1.figReturn q (.ready (BitVec.ofNat 64 r.ret)) false

/-- R326. For whom an entry is applied: the core of its requests, where it is one. -/
def CombineEntry.asker (e : CombineEntry) : Asker :=
  match e.cores with
  | [c] => e.region.asker c
  | _ => e.region.sliceAsker

/-- R252. The request of a combining-buffer entry. -/
def State.entryReq (s : State) (e : CombineEntry) : FigReq :=
  { pa := e.pa, va := e.va, img := s.figEntry e.region.figTable e.slot, operand := e.operand, count := e.count,
    core := e.cores.headD 0, by_ := e.asker, region := e.region, sname := e.sname, code := e.code }

/-- R251. Both lines of a granule leave the slices and then the memory-side cache, written back where they are dirty; a pinned line
keeps its way, without data. -/
def State.flushLine (s : State) (w : Asker) (line : Nat) : State :=
  let s1 := match tabFind s.l2 line with
    | none => s
    | some l =>
      if l.pinned then { (if l.dirty then s.mscWriteBack w line else s) with l2 := tabIns s.l2 line { l with present := false, dirty := false } }
      else s.l2Drop w line l
  s1.mscDrop w line
def State.flushGranule (s : State) (w : Asker) (base : Nat) : State := (s.flushLine w (base / 128)).flushLine w (base / 128 + 1)

/-- R251. The lead slice has its granule written back and passes a TILE request to its channel, which reads the granule's lines. -/
def State.passTile (s : State) (w : Asker) (f : TileFig) : State :=
  let s1 := ((s.flushGranule w f.granule).askChannel w (f.granule / 128) false).askChannel w (f.granule / 128 + 1) false
  { s1 with tileFigs := s1.tileFigs ++ [f] }

/-- R251. A request as its channel takes it. -/
def FigReq.tile (q : FigReq) (asid slot : Nat) (cores : List Nat) : TileFig :=
  let base := q.pa / 256 * 256
  { channel := channelOf base, granule := base, asid := asid, slot := slot, pa := q.pa, va := q.va, image := q.img,
    operand := q.operand, count := q.count, back := q.back, flagOp := q.flagOp, by_ := q.by_, cores := cores, core := q.core,
    region := q.region, sname := q.sname, code := q.code }

/-- R238. Is a combining-buffer entry's figure a TILE one? -/
def State.entryTile (s : State) (e : CombineEntry) : Bool := figTile (figFlags (s.figEntry e.region.figTable e.slot))

/-- Do two byte ranges of one space overlap? -/
def overlap (a m b n : Nat) : Bool := decide (a < b + n) && decide (b < a + m)

/-- R244. The bytes of its element, all that a combined figure reads or writes. -/
def State.entryBytes (s : State) (e : CombineEntry) : Nat := figBytes (figFlags (s.figEntry e.region.figTable e.slot))

/-- R200, R204. Does an entry that holds a figure of one of some cores stand on one of n bytes? -/
def State.entryMeets (s : State) (pa n : Nat) (cores : List Nat) (x : CombineEntry) : Bool :=
  overlap x.pa (s.entryBytes x) pa n && x.cores.any cores.contains

/-- R251. Is the granule of an address held for a TILE figure at a channel? -/
def State.granuleHeld (s : State) (pa : Nat) : Bool := s.tileFigs.any (fun f => f.granule == pa / 256 * 256)

/-- R200, R204, R251, R257. Must an entry stay in its buffer: while its granule is held, for a LINE figure, or while an older entry of one
of its cores stands on one of its bytes (log 70)? -/
def State.combineWaits (s : State) (e : CombineEntry) : Bool :=
  (!s.entryTile e && s.granuleHeld e.pa) || (s.combining.takeWhile (fun x => x != e)).any (s.entryMeets e.pa (s.entryBytes e) e.cores)

/-- R251, R252. One entry is applied: a LINE figure at its slice, which fills the line first, a TILE figure at its channel. -/
def State.applyEntry (s : State) (e : CombineEntry) : State :=
  let q := s.entryReq e
  if s.entryTile e then s.passTile q.by_ (q.tile e.asid e.slot e.cores)
  else (s.touchHome q.by_ false e.pa e.home false).figExecute q

/-- R252, R257. One entry leaves its buffer and is applied, unless it must stay. -/
def State.applyOne (s : State) (e : CombineEntry) : State :=
  if s.combineWaits e then s else { s with combining := s.combining.erase e }.applyEntry e

/-- R252, R257. Apply the entries that satisfy a condition, oldest first, each as one execution, and no other. -/
def State.applyEntries (s : State) (p : CombineEntry → Bool) : State := (s.combining.filter p).foldl State.applyOne s

/-- R251, R252. Is an entry's granule the one of an address? -/
def State.entryOn (s : State) (pa : Nat) (e : CombineEntry) : Bool :=
  let g := figGranule (figFlags (s.figEntry e.region.figTable e.slot))
  e.pa / g == pa / g

/-- R252. Apply what the combining buffers hold for a line, or a granule, before another access to it is served. -/
def State.applyLine (s : State) (host : Bool) (pa : Nat) : State :=
  if host then s else s.applyEntries (s.entryOn pa)

/-- R211, R251, R252. Is the line of an address, or its granule, free: not held, and nothing of it in a combining buffer? -/
def State.lineFree (s : State) (pa : Nat) : Bool := !s.granuleHeld pa && !s.combining.any (s.entryOn pa)

/-- R211, R251, R252. The home of an address serves an access: not while its granule is held, and after what the combining buffers
hold for its line, which may itself take the granule to its channel. -/
def State.serveAt (s : State) (host : Bool) (pa : Nat) (f : State → State) : State :=
  if host then f s
  else if s.granuleHeld pa then s
  else
    let s1 := s.applyLine false pa
    if s1.lineFree pa then f s1 else s1

/-- R211, R251, R252. The same for an access to several lines, by their addresses divided by 128. -/
def State.serveLines (s : State) (lines : List Nat) (f : State → State) : State :=
  if lines.any (fun l => s.granuleHeld (l * 128)) then s
  else
    let s1 := lines.foldl (fun acc l => acc.applyLine false (l * 128)) s
    if lines.all (fun l => s1.lineFree (l * 128)) then f s1 else s1

/-- R152, R169, R237. A prefetch: its line is fetched into its home slice and, for PREF, into its core's L1. The L1 part is `fill`. -/
def State.fetchLine (s : State) (p : Prefetch) (fill : State → State) : State :=
  if s.granuleHeld p.pa then { s with prefetches := s.prefetches ++ [p] }
  else
    let s1 := s.applyLine false p.pa
    if s1.lineFree p.pa then fill (s1.touchHome p.by_ false p.pa p.home false)
    else { s1 with prefetches := s1.prefetches ++ [p] }

end Sys2Proof.Machine
end

