-- ==== Sys2Proof/Machine/Path.lean ====
section
/-!
DEFINITION. The core store path, L1, and how a load, a store and an atomic are performed
(R156, R158, R166 to R168, R200 to R204, R216, R217).
-/
namespace Sys2Proof.Machine

/-- R249, R251. Where the bytes lie that an entry may read or write, and how many: its element, or a figure's granule (log 31). -/
def PathEntry.lo (e : PathEntry) : Nat := if e.gran = 0 then e.pa else e.pa / e.gran * e.gran
def PathEntry.len (e : PathEntry) : Nat := if e.gran = 0 then e.size else e.gran

/-- R201. Is an entry on the line of an address? A TILE figure is on both lines of its granule. -/
def PathEntry.onLine (e : PathEntry) (host : Bool) (pa : Nat) : Bool :=
  e.host == host && overlap (e.lo / 128 * 128) (max 128 e.len) (pa / 128 * 128) 128

/-- R201, R249. Do two entries share a line? -/
def PathEntry.sharesLine (e x : PathEntry) : Bool :=
  e.host == x.host && overlap (e.lo / 128 * 128) (max 128 e.len) (x.lo / 128 * 128) (max 128 x.len)

/-- Does an entry touch a byte range at its home? -/
def PathEntry.touches (e : PathEntry) (host : Bool) (pa n : Nat) : Bool := e.host == host && overlap e.lo e.len pa n

/-- R201. Is an entry a plain store? -/
def PathEntry.isStore (e : PathEntry) : Bool :=
  match e.kind with
  | .store _ => true
  | .atomic _ _ _ _ => false
  | .addF32 _ => false
  | .addBf16 _ _ => false
  | .grab => false
  | .figure _ _ => false

/-- R166 to R168. Is an entry an atomic? -/
def PathEntry.isAtomic (e : PathEntry) : Bool :=
  match e.kind with
  | .store _ => false
  | .atomic _ _ _ _ => true
  | .addF32 _ => true
  | .addBf16 _ _ => true
  | .grab => true
  | .figure _ _ => false

/-- R202. Is an L1 line valid: tagged CORE, or at most 4,096 core clocks old? -/
def CoreS.l1Valid (k : CoreS) (l : L1Line) : Bool := l.scope == 0 || decide (k.clk - l.fill ≤ 4096)

/-- R201. Drop the L1 copy of a line. -/
def CoreS.l1Drop (k : CoreS) (pa : Nat) : CoreS := { k with l1 := tabDel k.l1 (pa / 128) }

/-- R201. Drop the L1 copies of an entry's lines. -/
def CoreS.l1DropEntry (k : CoreS) (e : PathEntry) : CoreS := if e.host then k else (k.l1Drop e.lo).l1Drop (e.lo + e.len - 1)

/-- R152, R201. A store updates a present L1 line. -/
def CoreS.l1Store (k : CoreS) (pa : Nat) (bs : List Byte) : CoreS :=
  { k with l1 := tabMod k.l1 (pa / 128) (fun l => { l with data := patch l.data (pa % 128) bs }) }

/-- R201. An entry enters the core store path: a store updates L1, an atomic or a figure invalidates the line. -/
def CoreS.enter (k : CoreS) (e : PathEntry) : CoreS :=
  let k1 := { k with path := k.path ++ [e] }
  if e.host then k1
  else match e.kind with
    | .store bs => k1.l1Store e.pa bs
    | .atomic _ _ _ _ => k1.l1DropEntry e
    | .addF32 _ => k1.l1DropEntry e
    | .addBf16 _ _ => k1.l1DropEntry e
    | .grab => k1.l1DropEntry e
    | .figure _ _ => k1.l1DropEntry e

/-- R202. Is a load served by its core, not by the device's own bank or another device: a GLOBAL load, the reads of FIGLD and of a SYS
word's record among them, which fill L1 too (log 67)? -/
def LoadKind.global : LoadKind → Bool
  | .vec _ => true
  | .nf => true
  | .scalar => true
  | .grab => false
  | .given => false
  | .figld _ => true
  | .record => true

/-- R202. Is a load served through the core store path, L1 and the homes: a GLOBAL one? -/
def LoadOp.global (o : LoadOp) : Bool := o.kind.global && !o.scratch

/-- R204. Is an element of a load of operation number below `op` of a squad still to be performed on a byte range? -/
def State.loadsBefore (s : State) (q op : Nat) (host : Bool) (pa n : Nat) : Bool :=
  s.loads.any (fun o => decide (o.1 < op) && o.2.squad == q && o.2.global &&
    o.2.elems.any (fun l => l.st == .waiting && l.host == host && overlap l.pa o.2.size pa n))

/-- R331. The bytes for which an entry waits: those of its line when its instruction covers the line, so that all of its elements
on the line enter the path together. -/
def PathEntry.from_ (e : PathEntry) : Nat := if e.whole then e.pa / 128 * 128 else e.lo
def PathEntry.span (e : PathEntry) : Nat := if e.whole then 128 else e.len

/-- R204, R205. Does an element wait to enter the path: for an earlier load element of its squad that reads any of its bytes, for an
earlier element of its squad on its line that itself waits, or, a store, for an earlier store of its squad that waits? -/
def State.entryWaits (s : State) (held : List PathEntry) (e : PathEntry) : Bool :=
  held.any (fun h => h.squad == e.squad && (h.sharesLine e || (h.isStore && e.isStore))) ||
  s.loadsBefore e.squad e.op e.host e.from_ e.span

/-- R201, R204. Elements leave a squad's issue: each enters the core store path, or waits to. -/
def State.issuePath (s : State) (core : Nat) (es : List PathEntry) : State :=
  match es with
  | [] => s
  | e :: r =>
    if s.entryWaits (s.core core).held e then
      (s.modCore core (fun k => { (if e.isStore then k else k.l1DropEntry e) with held := k.held ++ [e] })).issuePath core r
    else (s.modCore core (fun k => k.enter e)).issuePath core r

/-- R204. The held elements of a core, tried again in order once a load has been performed. -/
def State.retryHeld (s : State) (core : Nat) : State :=
  let es := (s.core core).held
  (s.modCore core (fun k => { k with held := [] })).issuePath core es

/-- R7. The requests of a core that its memory pipe holds: load elements not yet performed, and elements on their way to their
homes. -/
def State.outstanding (s : State) (core : Nat) : Nat :=
  ((s.loads.filter (fun o => o.2.core == core && o.2.global)).map (fun o => (o.2.elems.filter (fun l => l.st == .waiting)).length)).sum +
  (s.core core).path.length + (s.core core).held.length

/-- R7. How many requests of a core stand before an element of a load. -/
def State.pipeBefore (s : State) (core op t : Nat) : Nat :=
  ((s.loads.filter (fun o => o.2.core == core && o.2.global && decide (o.1 ≤ op))).map (fun o =>
    (o.2.elems.filter (fun l => l.st == .waiting && (decide (o.1 < op) || decide (l.thread < t)))).length)).sum +
  (((s.core core).path ++ (s.core core).held).filter (fun e => decide (e.op < op))).length

/-- R156, R201. The next element of an operation issues; the elements of a store that covers its line issue together (R331). With
4,096 requests outstanding it waits (R7). -/
def State.issueElem (s : State) (core op : Nat) : State :=
  if 4096 ≤ s.outstanding core then s
  else match (s.core core).leaving.find? (fun e => e.op == op) with
    | none => s
    | some e =>
      let with_ (x : PathEntry) : Bool := e.whole && x.op == op && x.whole && x.onLine e.host e.pa
      let es := if e.whole then (s.core core).leaving.filter with_ else [e]
      (s.modCore core (fun k => { k with
        leaving := if e.whole then k.leaving.filter (fun x => !with_ x) else k.leaving.erase e })).issuePath core es

/-- R131. A counted store is done when none of its elements is left on the core. -/
def State.storeDone (s : State) (core op q : Nat) : State :=
  let k := s.core core
  if k.path.any (fun e => e.op == op) || k.held.any (fun e => e.op == op) || k.leaving.any (fun e => e.op == op) then s
  else s.modSquad q (fun sq => { sq with ocSt := sq.ocSt - 1 })

/-- R202. The youngest entry of a path that touches a byte. -/
def youngest (path : List PathEntry) (host : Bool) (a : Nat) : Option PathEntry :=
  (path.filter (fun e => e.touches host a 1)).getLast?

/-- R202. What the path says of a byte: its value, or that an atomic or a figure is youngest, or nothing. -/
inductive PathByte where
  | value (b : Byte)
  | waits
  | absent
  deriving DecidableEq, Repr

/-- R202. The path's answer for a byte. -/
def pathByte (path : List PathEntry) (host : Bool) (a : Nat) : PathByte :=
  match youngest path host a with
  | none => .absent
  | some e => match e.kind with
    | .store bs => .value (bs.getD (a - e.pa) 0)
    | .atomic _ _ _ _ => .waits
    | .addF32 _ => .waits
    | .addBf16 _ _ => .waits
    | .grab => .waits
    | .figure _ _ => .waits

/-- R201, R217. What of a path a load sees: its stores, and the atomics and figures that issued before it. -/
def pathFor (path : List PathEntry) (op : Nat) : List PathEntry := path.filter (fun e => e.isStore || decide (e.op < op))

/-- R217. A load that finds an atomic or a figure before it is served at its home. -/
def State.setLate (s : State) (op t : Nat) : State :=
  { s with loads := tabMod s.loads op (fun o => { o with elems := o.elems.map (fun e => if e.thread = t then { e with late := true } else e) }) }

/-- R202. A line as L1 is filled with it: the home's bytes under the stores of the path. -/
def State.lineFill (s : State) (core pa : Nat) : List Byte :=
  let base := pa / 128 * 128
  ((s.core core).path.foldl (fun (acc : List Byte) (e : PathEntry) =>
    match e.kind with
    | .store bs => if e.onLine false pa then patch acc (e.pa % 128) bs else acc
    | .atomic _ _ _ _ => acc
    | .addF32 _ => acc
    | .addBf16 _ _ => acc
    | .grab => acc
    | .figure _ _ => acc) (s.readBytes base 128))

/-- R152, R202. Fill L1 with a line; a full L1 first loses a line, which one is left open (log 3). -/
def State.l1Fill (s : State) (core pa scope : Nat) : State :=
  let l : L1Line := { scope := scope, fill := (s.core core).clk, data := s.lineFill core pa }
  if (s.core core).l1.length < 8192 then s.modCore core (fun k => { k with l1 := tabIns k.l1 (pa / 128) l })
  else
    let r := s.free
    r.2.modCore core (fun k => { k with l1 := tabIns (k.l1.eraseIdx (r.1.toNat % k.l1.length)) (pa / 128) l })

/-- R202. Does a home fill L1? -/
def fillsL1 (host : Bool) (home : Nat) : Bool := !host && (home == 0 || home == 1)

/-- The value of an element's bytes, with those the path gives in place of the home's. -/
def mergeBytes (ps : List PathByte) (bs : List Byte) : Nat :=
  leVal ((List.range bs.length).map (fun i => match ps.getD i .absent with
    | .value b => b
    | .waits => bs.getD i 0
    | .absent => bs.getD i 0))

/-- R156, R204. Must a load element wait for an earlier access of its squad to one of its bytes: an element that waits to enter the
path, an earlier load, or a lower thread of its own load? -/
def State.loadWaits (s : State) (op : Nat) (o : LoadOp) (l : Elem) : Bool :=
  (s.core o.core).held.any (fun h => h.squad == o.squad && decide (h.op < op) && h.touches l.host l.pa o.size) ||
  s.loadsBefore o.squad op l.host l.pa o.size ||
  o.elems.any (fun x => decide (x.thread < l.thread) && x.st == .waiting && x.host == l.host && overlap x.pa o.size l.pa o.size)

/-- R216, R272. What a performed element of a load has: its value, of 16 bytes for BIDF's. -/
def LoadOp.got (o : LoadOp) (v : Nat) : ElemState := if o.size = 16 then .wide (BitVec.ofNat 128 v) else .ready (BitVec.ofNat 64 v)

/-- R202, R216. Perform a load element: from the path, a valid L1 line, or its home. Nothing happens while it must wait. Each element
that L1 or a home serves counts as one hit or one miss of L1 (log 67). -/
def State.performLoad (s : State) (op : Nat) (o : LoadOp) (l : Elem) : State :=
  let k := s.core o.core
  let ps := (List.range o.size).map (fun i => pathByte (pathFor k.path op) l.host (l.pa + i))
  let fin (x : State) (st : ElemState) : State := (x.setElem op l.thread st).retryHeld o.core
  if s.loadWaits op o l then s
  else if ps.any (· == .waits) then s.setLate op l.thread
  else if ps.all (fun p => p != .absent) then fin s (o.got (mergeBytes ps (List.replicate o.size 0)))
  else match (if l.host || l.home == 3 || l.late then none else tabFind k.l1 (l.pa / 128)).filter k.l1Valid with
    | some line =>
      fin (s.coreEvent o.core 0x06 1) (o.got (mergeBytes ps ((line.data.drop (l.pa % 128)).take o.size)))
    | none =>
      s.serveAt l.host l.pa (fun s0 =>
        let s1 := s0.touchHome (o.region.asker o.core) l.host l.pa l.home false
        let s2 := if l.host then s1 else s1.coreEvent o.core 0x07 1
        if s2.isPoisoned l.pa && !l.host then fin s2 (if o.kind == .nf then .skip else .bad 1)
        else
          let v := mergeBytes ps (s2.homeBytes l.host l.pa o.size)
          fin (if fillsL1 l.host l.home then s2.l1Fill o.core l.pa l.scope else s2) (o.got v))

/-- R167, R216. Does an earlier entry let one of another squad on its line go first: an ATOMG.ADD.BF16X2 between its halves? -/
def PathEntry.between (x e : PathEntry) : Bool :=
  match x.kind with
  | .addBf16 _ (some _) => x.squad != e.squad
  | _ => false

/-- R200, R201, R216, R249. May entry k of a core's path be taken by its home: no earlier entry on its lines that it must follow, and its
granule free? -/
def State.mayAccept (s : State) (core k : Nat) : Option PathEntry :=
  let path := (s.core core).path
  match path[k]? with
  | none => none
  | some e =>
    if (path.take k).any (fun x => x.sharesLine e && !x.between e) then none
    else if !e.host && s.granuleHeld e.pa then none
    else some e

/-- The entries that go to their home together: the elements of a store instruction that covers the line (R331), or one. -/
def CoreS.together (c : CoreS) (k : Nat) (e : PathEntry) : List PathEntry :=
  if e.whole then c.path.filter (fun x => x.op == e.op && x.whole && x.onLine e.host e.pa)
  else (c.path[k]?).toList

/-- What is left of a path. -/
def CoreS.without (c : CoreS) (k : Nat) (e : PathEntry) : List PathEntry :=
  if e.whole then c.path.filter (fun x => !(x.op == e.op && x.whole && x.onLine e.host e.pa)) else c.path.eraseIdx k

/-- The bytes of a store entry. -/
def PathEntry.bytes (e : PathEntry) : List Byte :=
  match e.kind with
  | .store bs => bs
  | .atomic _ _ _ _ => []
  | .addF32 _ => []
  | .addBf16 _ _ => []
  | .grab => []
  | .figure _ _ => []

/-- R200, R201, R331. A store is accepted at its home. -/
def State.acceptStore (s : State) (core k : Nat) (e : PathEntry) : State :=
  let es := (s.core core).together k e
  let rest := (s.core core).without k e
  s.serveAt e.host e.pa (fun s0 =>
  let s1 := s0.touchHome (e.region.asker core) e.host e.pa e.home true
  let s2 := es.foldl (fun acc x => acc.homeStore x.host x.pa x.bytes) s1
  let s3 := if e.whole && !e.host then { s2 with poisoned := tabPut false s2.poisoned (e.pa / 128) false } else s2
  let s4 := s3.modCore core (fun c => { c with path := rest })
  s4.storeDone core e.op e.squad)

/-- R166. What an ATOM of operation k leaves in a W-bit element. -/
def atomResult (k W m x y : Nat) : Nat :=
  match k with
  | 0 => (m + x) % 2 ^ W
  | 1 => if sx W m ≤ sx W x then m else x
  | 2 => min m x
  | 3 => if sx W m ≤ sx W x then x else m
  | 4 => max m x
  | 5 => m &&& x
  | 6 => m ||| x
  | 7 => m ^^^ x
  | 8 => x
  | _ => if m = x then y else m

/-- R166. Element width of an ATOM. -/
def atomW (v : Nat) : Nat := if v = 0 then 32 else 64

/-- R168. The chunk of a GRAB: its size. -/
def grabSize (next end_ minimum participants : Nat) : Nat :=
  let rem := if next < end_ then end_ - next else 0
  let d := 2 * max 1 participants
  min rem (max minimum ((rem + d - 1) / d))

/-- R201. Remove entry k of a path, and drop the core's L1 copy of its line again. -/
def State.leavePath (s : State) (core k : Nat) (e : PathEntry) : State :=
  s.modCore core (fun c => { (c.l1DropEntry e) with path := c.path.eraseIdx k })

/-- R166 to R168, R218. An atomic element performs its read-modify-write at its home; a BF16X2 element takes two such steps,
the low half first (R167, R216). -/
def State.acceptAtomic (s : State) (core k : Nat) (e : PathEntry) : State :=
  s.serveAt e.host e.pa (fun s0 =>
  let s1 := s0.touchHome (e.region.asker core) e.host e.pa e.home false
  let m := s1.readLe e.pa e.size
  let fin (x : State) (st : ElemState) : State := (x.leavePath core k e).setElem e.op e.thread st
  let rmw (new ret : Nat) : State := fin ((s1.writeLe e.pa e.size new).dirtyLine e.pa) (.ready (BitVec.ofNat 64 ret))
  if s1.isPoisoned e.pa then fin s1 (.bad 1)
  else match e.kind with
  | .store _ => s1
  | .figure _ _ => s1
  | .atomic op v x y => rmw (atomResult op (atomW v) m (x.toNat % 2 ^ atomW v) (y.toNat % 2 ^ atomW v)) m
  | .addF32 x => rmw (faddRne .f32 m (x.toNat % 2 ^ 32)) m
  | .addBf16 x none =>
    let lo := m % 65536
    ((s1.writeLe e.pa 2 (faddRne .bf16 lo (x.toNat % 65536))).dirtyLine e.pa).modCore core (fun c =>
      { c.l1Drop e.pa with path := c.path.set k { e with kind := .addBf16 x (some lo) } })
  | .addBf16 x (some lo) =>
    let hi := m / 65536
    fin ((s1.writeLe (e.pa + 2) 2 (faddRne .bf16 hi (x.toNat / 65536 % 65536))).dirtyLine e.pa) (.ready (BitVec.ofNat 64 (lo + 65536 * hi)))
  | .grab =>
    let next := m % 2 ^ 32
    let size := grabSize next (m / 2 ^ 32 % 2 ^ 32) (m / 2 ^ 64 % 2 ^ 32) (m / 2 ^ 96)
    fin ((s1.writeLe e.pa 4 (next + size)).dirtyLine e.pa) (.ready (BitVec.ofNat 64 (size * 2 ^ 32 + next))))

/-- R203. Does FENCE.POD wait for a packet: a drained entry or a figure? -/
def PodKind.fenced : PodKind → Bool
  | .write _ => true
  | .load _ _ _ => false
  | .figure _ _ _ _ _ => true
  | .cast _ _ _ _ => false
  | .line _ _ => false
  | .named _ _ _ _ _ _ => false
  | .reply _ => false

/-- R203. Has the release half of a fence of a scope been done, for the operations issued before `upto`? -/
def State.released (s : State) (q core scope upto : Nat) : Bool :=
  !(s.loads.any (fun o => o.2.squad == q && decide (o.1 < upto))) &&
  !(s.figLoads.any (fun f => f.squad == q && decide (f.id < upto))) &&
  (scope == 0 || !(((s.core core).path ++ (s.core core).held ++ (s.core core).leaving).any (fun e => decide (e.op < upto)))) &&
  (scope != 3 || !(s.pod.any (fun m => m.mine && m.core == core && m.kind.fenced && decide (m.id < upto))))

/-- R203, R252. The release half applies the combining-buffer entries that hold a figure of the core. -/
def State.releaseApply (s : State) (core scope : Nat) : State :=
  if scope = 0 then s else s.applyEntries (fun e => e.cores.contains core)

/-- R203, R252, R257. The release half is over once no buffer holds a figure of the core any more; until then nothing else happens. -/
def State.afterRelease (s : State) (core scope : Nat) (f : State → State) : State :=
  let s1 := s.releaseApply core scope
  if scope ≠ 0 ∧ s1.combining.any (fun e => e.cores.contains core) then s1 else f s1

end Sys2Proof.Machine
end

