-- ==== Sys2Proof/Machine/Access.lean ====
section
/-!
DEFINITION. What every access instruction shares: addresses, the checks made before any element is performed, parking, and
the issue of loads, stores and atomics (R33, R57, R131, R151, R154 to R158, R163 to R165, R231).
-/
namespace Sys2Proof.Machine

/-- R157. The outcome of the checks of an access. -/
inductive Checked (α : Type) where
  | trap (cause : Nat) (xaddr : Reg) (detail : Nat)
  | park (pages : List Nat) (kinds : Nat)
  | ok (a : α)

/-- R224. What an access needs of its pages. -/
structure Need where
  r : Bool := false
  w : Bool := false
  f : Bool := false
  /-- R157. Atomics and figures need HBM. -/
  hbm : Bool := false
  deriving DecidableEq, Repr

/-- R231. The access kinds of a need: R 1, W 2, F 8. -/
def Need.kinds (n : Need) : Nat := (if n.r then 1 else 0) + (if n.w then 2 else 0) + (if n.f then 8 else 0)

/-- R154. Does the access write memory? -/
def Need.writes (n : Need) : Bool := n.w || n.f

/-- R223, R224. The detail of a missing permission of a translated element, or none. -/
def missing (ok : Page → Bool) (detail : Nat) (r : WalkResult) : Option Nat :=
  match r with
  | .page p => if ok p then none else some detail
  | .malformed => some 7
  | .absent => none

/-- A page's property, false where there is no page. -/
def WalkResult.pageIs (r : WalkResult) (p : Page → Bool) : Bool :=
  match r with
  | .page x => p x
  | .absent => false
  | .malformed => false

/-- R157. Check 5 on one element: the detail of the first of its conditions that the element fails (log 30). -/
def Need.fails (n : Need) (va : Nat) (r : WalkResult) : Option Nat :=
  if 2 ^ 56 ≤ va then some 5
  else if n.hbm && r.pageIs Page.host then some 4
  else (if n.r then missing Page.r 2 r else none).orElse (fun _ =>
    (if n.w then missing Page.w 3 r else none).orElse (fun _ => if n.f then missing Page.f 9 r else none))

/-- R157. The element of a translated address. -/
def elemOf (t va : Nat) (r : WalkResult) : Elem :=
  match r with
  | .page p => { thread := t, va := va, pa := p.pa va, host := p.host, home := p.home, scope := p.scope, psize := p.size }
  | .absent => { thread := t, va := va }
  | .malformed => { thread := t, va := va }

/-- R231. The 4 KiB pages of addresses, each once. -/
def pagesOf (vas : List Nat) : List Nat := (vas.map (· / 4096)).eraseDups

/-- R157, R224. Checks 5, 6 and 7 of a GLOBAL access, over all its elements (thread, address). -/
def State.checkGlobal (s : State) (core : Nat) (g : Region) (need : Need) (sec : Bool) (els : List (Nat × Nat)) :
    Checked (List Elem) :=
  let ws := els.map (fun e => (e.1, e.2, if 2 ^ 56 ≤ e.2 then .absent else s.translateIn core g e.2))
  match ws.findSome? (fun e => (need.fails e.2.1 e.2.2).map (fun d => (e.2.1, d))) with
  | some e => .trap causeProt (BitVec.ofNat 64 e.1) e.2
  | none =>
    match if need.writes && !sec then ws.find? (fun e => e.2.2.pageIs Page.det) else none with
    | some e => .trap causeDetshare (BitVec.ofNat 64 e.2.1) 0
    | none =>
      match ws.filter (fun e => e.2.2 == .absent) with
      | [] => .ok (ws.map (fun e => elemOf e.1 e.2.1 e.2.2))
      | a => .park (pagesOf (a.map (fun e => e.2.1))) need.kinds

/-- R157. The outcome of an access of one element that is checked in pieces: a trap reports the element's address. -/
def Checked.atElement {α : Type} (c : Checked α) (a : Nat) : Checked α :=
  match c with
  | .trap cause _ detail => .trap cause (BitVec.ofNat 64 a) detail
  | .park pages kinds => .park pages kinds
  | .ok x => .ok x

/-- R151, R226. Misses of the pages of an access's elements start walks; an address beyond 56 bits has no page. -/
def State.startWalks (s : State) (core : Nat) (g : Region) (els : List (Nat × Nat)) : State :=
  (pagesOf ((els.map (·.2)).filter (fun a => decide (a < 2 ^ 56)))).foldl (fun acc p => acc.startWalk core g (p * 4096)) s

/-- R157. Act on the outcome of a word's checks. -/
def State.checked {α : Type} (s : State) (q : Nat) (sq : Squad) (e : Exec) (c : Checked α) (f : α → State) : State :=
  match c with
  | .trap cause xaddr detail => s.trapWord q sq e cause xaddr detail
  | .park pages kinds => s.parkWord q sq e pages kinds
  | .ok a => f a

/-- R155. The first element that is not aligned to the size. -/
def misaligned (size : Nat) (els : List (Nat × Nat)) : Option (Nat × Nat) := els.find? (fun e => e.2 % size != 0)

/-- R29, R33. The elements of an M-format word: its enabled threads with their addresses. -/
def State.elementsM (s : State) (sq : Squad) (e : Exec) (g : BitVec 4) (n : BitVec 1) (b : BitVec 6) (x : BitVec 1)
    (o : BitVec 6) (size : Nat) : List (Nat × Nat) :=
  (sq.activeT e g n).map (fun t => (t, s.addrM sq b.toNat x.toNat o size t))

/-- R155, R157. An M-format access of guard kind T: operand registers, then, when a thread is enabled, alignment, then `f`. -/
def State.accessT (s : State) (rs : List Nat) (g : BitVec 4) (n : BitVec 1) (b : BitVec 6) (x : BitVec 1) (o : BitVec 6)
    (size : Nat) (f : Nat → Squad → Exec → List (Nat × Nat) → State) : Host.Outcome State Fault Refusal :=
  s.wordV (rs ++ regsX x o) (fun q sq e =>
    let els := s.elementsM sq e g n b x o size
    if els.isEmpty then s.charge sq 1
    else match misaligned size els with
      | some a => s.trapWord q sq e causeIllegal (BitVec.ofNat 64 a.2) 1
      | none => f q sq e els)

/-- R158, R340. A POISON waits for the squad's next header; an earlier one stays. -/
def Squad.notePoison (sq : Squad) (b : Option (Nat × Nat × Nat)) : Squad :=
  match b with
  | none => sq
  | some x => { sq with poison := sq.poison.orElse (fun _ => some (BitVec.ofNat 64 x.2.1, BitVec.ofNat 8 x.2.2)) }

/-- R131. A counted load is entered. -/
def State.enterLoad (s : State) (q : Nat) (o : LoadOp) : State :=
  let r := s.newId
  { r.2 with loads := tabIns r.2.loads r.1 o }.modSquad q (fun sq => { sq with ocLd := sq.ocLd + 1 })

/-- R156, R201. The elements of an operation begin to issue, one at a time; its word stays in execution meanwhile. -/
def State.beginIssue (s : State) (core op : Nat) (es : List PathEntry) : State :=
  (s.modCore core (fun k => { k with leaving := k.leaving ++ es })).holdWord (.issue op)

/-- R131. The elements of a counted store issue. -/
def State.enterStore (s : State) (q core : Nat) (es : Nat → List PathEntry) : State :=
  let r := s.newId
  (r.2.modSquad q (fun sq => { sq with ocSt := sq.ocSt + 1 })).beginIssue core r.1 (es r.1)

/-- R217. A load element as it issues: an atomic or a figure before it in the path sends it to its home. -/
def CoreS.issued (k : CoreS) (q size : Nat) (l : Elem) : Elem :=
  let path := k.path ++ k.held.filter (fun h => h.squad == q)
  { l with late := (List.range size).any (fun i => pathByte path l.host (l.pa + i) == .waits) }

/-- R152, R202. A GLOBAL load issues. -/
def State.loadGlobal (s : State) (q : Nat) (sq : Squad) (kind : LoadKind) (dest size : Nat) (els : List Elem) : State :=
  let g := s.regionOf sq
  s.enterLoad q { squad := q, core := sq.core, dest := dest, size := size, kind := kind, asid := g.asid, region := g,
                  elems := els.map ((s.core sq.core).issued q size) }

/-- R331. Do the elements of a store together cover the line of an address? -/
def coversLine (size : Nat) (els : List Elem) (l : Elem) : Bool :=
  let base := l.pa / 128 * 128
  (List.range (128 / size)).all (fun i => els.any (fun e => e.host == l.host && e.pa == base + i * size))

/-- R201. The path entry of an element. -/
def Elem.entry (l : Elem) (op q : Nat) (sq : Squad) (g : Region) (code : Word) (size : Nat) (kind : PathKind) : PathEntry :=
  { op := op, squad := q, thread := l.thread, kind := kind, size := size, va := l.va, pa := l.pa, host := l.host, home := l.home,
    scope := l.scope, psize := l.psize, asid := g.asid, region := g, sname := sq.sname, code := code }

/-- R152, R201. A GLOBAL store issues. `v` gives the value of each thread. -/
def State.storeGlobal (s : State) (q : Nat) (sq : Squad) (e : Exec) (size : Nat) (els : List Elem) (v : Nat → Reg) : State :=
  let g := s.regionOf sq
  s.enterStore q sq.core (fun op => els.map (fun l =>
    { l.entry op q sq g (wordAddr e.clause.addr e.idx) size (.store (leBytes size (v l.thread).toNat)) with
      whole := coversLine size els l }))

/-- R166. A GLOBAL atomic issues: a counted load whose elements are performed through the path. -/
def State.atomicGlobal (s : State) (q : Nat) (sq : Squad) (e : Exec) (kind : LoadKind) (dest size : Nat) (els : List Elem)
    (k : Nat → PathKind) : State :=
  let g := s.regionOf sq
  let op := s.nextId
  let s1 := s.enterLoad q { squad := q, core := sq.core, dest := dest, size := size, kind := kind, asid := g.asid, region := g,
                            elems := els }
  s1.beginIssue sq.core op (els.map (fun l => l.entry op q sq g (wordAddr e.clause.addr e.idx) size (k l.thread)))

/-- R157 check 4, R189. The lowest byte of a range that overlaps a range bound against the access. -/
def CoreS.bindHit (k : CoreS) (acc write : Bool) (lo size : Nat) : Option Nat :=
  (List.range size).findSome? (fun i =>
    if k.bindings.any (fun b => b.acc == acc && (b.excl || write) && decide (b.lo ≤ lo + i) && decide (lo + i ≤ b.hi))
    then some i else none)

/-- R157. The first element that meets a bound range, with the address of the byte. -/
def State.boundElem (s : State) (core : Nat) (acc write : Bool) (base size : Nat) (els : List (Nat × Nat)) : Option Nat :=
  els.findSome? (fun e => ((s.core core).bindHit acc write (base + e.2) size).map (fun i => e.2 + i))

/-- R151, R157. Checks 3 and 4 of a SCRATCH access, whose block's allocation is `blk`. -/
def State.checkScratch (s : State) (core : Nat) (blk : Block) (write : Bool) (size : Nat) (els : List (Nat × Nat)) : Checked Unit :=
  match els.find? (fun e => decide (blk.size < e.2 + size)) with
  | some e => .trap causeSbound (BitVec.ofNat 64 e.2) 0
  | none => match s.boundElem core false write blk.base size els with
    | some a => .trap causeBinding (BitVec.ofNat 64 a) 0
    | none => .ok ()

/-- R151, R157. Checks 3 and 4 of an ACC access. -/
def State.checkAcc (s : State) (core : Nat) (write : Bool) (els : List (Nat × Nat)) : Checked Unit :=
  match els.find? (fun e => decide (0x800000 ≤ e.2)) with
  | some e => .trap causeSbound (BitVec.ofNat 64 e.2) 0
  | none => match s.boundElem core true write 0 4 els with
    | some a => .trap causeBinding (BitVec.ofNat 64 a) 0
    | none => .ok ()

/-- R150. The n bytes of scratch from a core byte. -/
def CoreS.scratchRead (k : CoreS) (a n : Nat) : List Byte := (List.range n).map (fun i => tabGet 0 k.scratch (a + i))

/-- R150, R186. Bytes written into scratch from a core byte up; a byte written is poisoned no longer (log 60). -/
def CoreS.scratchWrite (k : CoreS) (a : Nat) (bs : List Byte) : CoreS :=
  { k with
    scratch := (List.range bs.length).foldl (fun m i => tabPut 0 m (a + i) (bs.getD i 0)) k.scratch
    badScratch := k.badScratch.filter (fun e => !(decide (a ≤ e.1) && decide (e.1 < a + bs.length))) }

/-- R186. Is one of the n bytes of scratch from a core byte poisoned? -/
def CoreS.scratchBad (k : CoreS) (a n : Nat) : Bool := k.badScratch.any (fun e => decide (a ≤ e.1) && decide (e.1 < a + n))

/-- R150. The bank of a byte of scratch, and the byte's place in the bank. -/
def bankOf (x : Nat) : Nat := x / 8 % 64
def bankOffset (x : Nat) : Nat := x / 512 * 8 + x % 8

/-- R150. The bank of each of some core bytes, and whether no such bank has served an access in this clock. -/
def banksAt (as_ : List Nat) : BitVec 64 := as_.foldl (fun m a => m ||| BitVec.ofNat 64 (2 ^ bankOf a)) 0
def CoreS.banksFree (k : CoreS) (as_ : List Nat) : Bool := as_.all (fun a => !k.banksBusy.getLsbD (bankOf a))

/-- The 64 bytes from a core byte. -/
def bytes64 (a : Nat) : List Nat := (List.range 64).map (fun i => a + i)

/-- A register's value from an element, zero- or sign-extended from its size in bytes. -/
def extend (signed : Bool) (size v : Nat) : Reg := if signed then BitVec.ofInt 64 (sx (8 * size) (v % 2 ^ (8 * size))) else BitVec.ofNat 64 v

/-- R156, R204. The elements of a SCRATCH access set out for the banks, in thread order. -/
def State.toBanks (s : State) (core : Nat) (bs : List BankOp) : State := s.modCore core (fun k => { k with bank := k.bank ++ bs })

/-- R204. A SCRATCH load or atomic: `k` is what each thread's element does at its bank. -/
def State.loadScratch (s : State) (q : Nat) (sq : Squad) (kind : LoadKind) (dest size base : Nat) (els : List (Nat × Nat))
    (k : Nat → BankKind) : State :=
  let op := s.nextId
  (s.enterLoad q { squad := q, core := sq.core, dest := dest, size := size, kind := kind, scratch := true,
                   elems := els.map (fun e => { thread := e.1, va := e.2 }) }).toBanks sq.core
    (els.map (fun e => { op := op, squad := q, thread := e.1, at_ := base + e.2, size := size, kind := k e.1 }))

/-- R131, R156. A SCRATCH store: `v` gives the value of each thread. -/
def State.storeScratch (s : State) (q core size base : Nat) (els : List (Nat × Nat)) (v : Nat → Reg) : State :=
  let r := s.newId
  (r.2.modSquad q (fun sq => { sq with ocSt := sq.ocSt + 1 })).toBanks core
    (els.map (fun e => { op := r.1, squad := q, thread := e.1, at_ := base + e.2, size := size,
                         kind := .write (leBytes size (v e.1).toNat) }))

/-- R156, R204. May element k on its way to a core's banks be performed: no earlier one of its squad? -/
def CoreS.bankReady (k : CoreS) (n : Nat) : Option BankOp :=
  match k.bank[n]? with
  | none => none
  | some b => if (k.bank.take n).any (fun x => x.squad == b.squad) then none else some b

/-- R131. A SCRATCH store is complete when its last element has been written. -/
def State.bankStored (s : State) (core : Nat) (b : BankOp) : State :=
  if (s.core core).bank.any (fun x => x.op == b.op) then s else s.modSquad b.squad (fun sq => { sq with ocSt := sq.ocSt - 1 })

/-- R156, R166, R186. An element is performed at its bank. -/
def State.atBank (s : State) (core n : Nat) (b : BankOp) : State :=
  let k := s.core core
  let s1 := s.modCore core (fun c => { c with bank := c.bank.eraseIdx n, banksBusy := c.banksBusy ||| BitVec.ofNat 64 (2 ^ bankOf b.at_) })
  let m := leVal (k.scratchRead b.at_ b.size)
  match b.kind with
  | .write bs => (s1.modCore core (fun c => c.scratchWrite b.at_ bs)).bankStored core b
  | .read => s1.setElem b.op b.thread (if k.scratchBad b.at_ b.size then .bad 1 else .ready (BitVec.ofNat 64 m))
  | .atomic op v x y =>
    let W := atomW v
    if k.scratchBad b.at_ b.size then s1.setElem b.op b.thread (.bad 1)
    else (s1.modCore core (fun c => c.scratchWrite b.at_ (leBytes (W / 8) (atomResult op W m (x.toNat % 2 ^ W) (y.toNat % 2 ^ W))))).setElem
      b.op b.thread (.ready (BitVec.ofNat 64 m))

/-- R143. A bank refuses an access: the clock counts once. -/
def State.bankRefuse (s : State) (core : Nat) : State :=
  if (s.core core).bankRefused then s
  else (s.modCore core (fun k => { k with bankRefused := true, mogul := k.mogul + 1 })).coreEvent core 0x05 1

/-- R150. An engine, or a word that reads or writes 64 bytes of scratch, has used the banks of some core bytes in this clock (log 69). -/
def State.useBanks (s : State) (core : Nat) (as_ : List Nat) : State :=
  s.modCore core (fun k => { k with banksBusy := k.banksBusy ||| banksAt as_ })

/-- R150. A word's access to core bytes: with a bank that has served one in this clock it is refused, and the lane tries again. -/
def State.onBanks (s : State) (core : Nat) (as_ : List Nat) (f : State → State) : State :=
  if (s.core core).banksFree as_ then f (s.useBanks core as_) else (s.bankRefuse core).holdWord .retry

/-- R150. Element n on its way to a core's banks reaches its bank, which serves one access in a clock. -/
def State.bankTurn (s : State) (core n : Nat) : State :=
  match (s.core core).bankReady n with
  | none => s
  | some b => if (s.core core).banksBusy.getLsbD (bankOf b.at_) then s.bankRefuse core else s.atBank core n b

/-- R174, R188, R210. Is a SCRATCH access of a core issued before an operation still on its way to the banks? -/
def CoreS.banksBefore (k : CoreS) (op : Nat) : Bool := k.bank.any (fun b => decide (b.op < op))

/-- R210. Is a SCRATCH access of the core to one of n bytes still on its way to the banks? -/
def CoreS.banksOn (k : CoreS) (a n : Nat) : Bool := k.bank.any (fun b => overlap b.at_ b.size a n)

/-- R174. Is a SCRATCH access of a squad still on its way to the banks? -/
def CoreS.banksOf (k : CoreS) (q : Nat) : Bool := k.bank.any (fun b => b.squad == q)

/-- R151. A POD address: the displacement acts on the offset alone, modulo 2^48. -/
def State.addrPod (s : State) (sq : Squad) (base x : Nat) (o : BitVec 6) (size t : Nat) : Nat :=
  let b := (sq.readS base).toNat
  let d : Int := if x = 0 then o.toInt * 32 * size + t * size else ((s.readV sq o.toNat t).toNat : Int)
  b / 2 ^ 48 * 2 ^ 48 + (((b % 2 ^ 48 : Nat) + d) % 2 ^ 48).toNat

/-- R164, R157. A POD access of guard kind T. -/
def State.accessPod (s : State) (rs : List Nat) (g : BitVec 4) (n : BitVec 1) (b : BitVec 6) (x : BitVec 1) (o : BitVec 6)
    (size : Nat) (f : Nat → Squad → Exec → List (Nat × Nat) → State) : Host.Outcome State Fault Refusal :=
  s.wordV (rs ++ regsX x o) (fun q sq e =>
    let els := (sq.activeT e g n).map (fun t => (t, s.addrPod sq b.toNat x.toNat o size t))
    if els.isEmpty then s.charge sq 1
    else match misaligned size els with
      | some a => s.trapWord q sq e causeIllegal (BitVec.ofNat 64 a.2) 1
      | none => match els.find? (fun a => decide (2 ^ 60 ≤ a.2)) with
        | some a => s.trapWord q sq e causeProt (BitVec.ofNat 64 a.2) 6
        | none => f q sq e els)

/-- R151. Device and offset of a POD address. -/
def podDev (a : Nat) : Nat := a / 2 ^ 48 % 4096
def podOff (a : Nat) : Nat := a % 2 ^ 48

/-- R165. A write-combining entry drains as one write. -/
def State.drain (s : State) (core : Nat) (w : WcbEntry) : State :=
  let m : PodMsg := { id := 0, src := s.own, dst := w.dev, core := core, off := w.line * 128,
                      kind := .write w.data, entry := w.id, region := w.region, sname := w.sname, code := w.code }
  (s.podSend m).modCore core (fun k => { k with wcb := k.wcb.erase w })

/-- R165. Drain the entries that satisfy a condition, oldest first. -/
def State.drainIf (s : State) (core : Nat) (p : WcbEntry → Bool) : State :=
  ((s.core core).wcb.filter p).foldl (fun acc w => acc.drain core w) s

/-- R165. The entry whose last write is oldest. -/
def oldestWcb (ws : List WcbEntry) : Option WcbEntry :=
  ws.foldl (fun acc w => match acc with
    | none => some w
    | some x => if w.last < x.last then some w else some x) none

/-- R165. An STP element enters the write-combining buffer, whose entries stand in the order of their last writes. The record of a refused
drain names the region, the squad and the word of the entry's last writer (log 68). -/
def State.combineStore (s : State) (core : Nat) (g : Region) (sname code : Word) (a : Nat) (bs : List Byte) : State :=
  let dev := podDev a
  let line := podOff a / 128
  let k := s.core core
  let at_ := podOff a % 128
  let put (w : WcbEntry) : WcbEntry :=
    { w with data := (List.range bs.length).foldl (fun m i => tabIns m (at_ + i) (bs.getD i 0)) w.data,
             last := k.clk, region := g, sname := sname, code := code }
  match k.wcb.find? (fun w => w.dev == dev && w.line == line) with
  | some w =>
    let w1 := put w
    let s1 := s.modCore core (fun c => { c with wcb := c.wcb.erase w ++ [w1] })
    if w1.data.length = 128 then s1.drain core w1 else s1
  | none =>
    let s1 := if k.wcb.length < 128 then s
      else match oldestWcb k.wcb with
        | some w => s.drain core w
        | none => s
    let r := s1.newId
    r.2.modCore core (fun c => { c with wcb := c.wcb ++ [put { id := r.1, dev := dev, line := line }] })

/-- R164. A POD load issues: its own core's entries for its lines drain first. -/
def State.loadPod (s : State) (q : Nat) (sq : Squad) (dest size : Nat) (els : List (Nat × Nat)) : State :=
  let g := s.regionOf sq
  let s1 := els.foldl (fun acc a => acc.drainIf sq.core (fun w => w.dev == podDev a.2 && w.line == podOff a.2 / 128)) s
  let op := s1.nextId
  let s2 := s1.enterLoad q { squad := q, core := sq.core, dest := dest, size := size, kind := .given, region := g,
                             elems := els.map (fun a => { thread := a.1, va := a.2 }) }
  els.foldl (fun acc a =>
    acc.podSend { id := 0, src := acc.own, dst := podDev a.2, core := sq.core, off := podOff a.2,
                  kind := .load op a.1 size, region := g, sname := sq.sname }) s2

/-- R231. A page enters a core's fault filter: a match takes the kinds and the waiter; otherwise a new entry, when one is
free. None when all 64 are in use. -/
def State.filterEnter (s : State) (core : Nat) (w : FilterWait) (waiter : Bool) : Option State :=
  let k := s.core core
  let same (x : FilterEntry) : Bool := x.asid == w.asid && x.fq == w.fq && x.page == w.page
  let ws := if waiter then [w.party] else []
  if k.filter.any same then
    some (s.modCore core (fun c => { c with filter := c.filter.map (fun x =>
      if same x then { x with kinds := x.kinds ||| w.kinds, waiters := (x.waiters ++ ws).eraseDups } else x) }))
  else if k.filter.length < 64 then
    some ((s.modCore core (fun c => { c with filter := c.filter ++
      [{ asid := w.asid, fq := w.fq, page := w.page, rcb := w.rcb, fn := w.fn, kinds := w.kinds, waiters := ws }] })).coreEvent core 0x09 1)
  else none

end Sys2Proof.Machine
end

