-- ==== Sys2Proof/Machine/MemAccess.lean ====
section
/-!
DEFINITION. The MEM instructions: loads, stores, atomics, fences, prefetch, page requests and L1 maintenance
(R159 to R169, R203).
-/
namespace Sys2Proof.Machine

/-- R159. A GLOBAL vector load. -/
def State.ldg (s : State) (signed : Bool) (size : Nat) (g : BitVec 4) (n : BitVec 1) (t b : BitVec 6) (x : BitVec 1)
    (o : BitVec 6) : Host.Outcome State Fault Refusal :=
  s.accessT [t.toNat] g n b x o size (fun q sq e els =>
    let s1 := s.startWalks sq.core (s.regionOf sq) els
    s1.checked q sq e (s.checkGlobal sq.core (s.regionOf sq) { r := true } true els) (fun l =>
      (s1.loadGlobal q sq (.vec signed) t.toNat size l).charge sq els.length))

/-- R159. A SCRATCH vector load. -/
def State.lds (s : State) (signed : Bool) (size : Nat) (g : BitVec 4) (n : BitVec 1) (t b : BitVec 6) (x : BitVec 1)
    (o : BitVec 6) : Host.Outcome State Fault Refusal :=
  s.accessT [t.toNat] g n b x o size (fun q sq e els =>
    let blk := s.block sq.blockOf
    s.checked q sq e (s.checkScratch sq.core blk false size els) (fun _ =>
      (s.loadScratch q sq (.vec signed) t.toNat size blk.base els (fun _ => .read)).charge sq els.length))

/-- R161. The element of a no-fault load: its page resident and readable, or cleared. -/
def nfElem (t va : Nat) (r : WalkResult) : Elem :=
  if decide (va < 2 ^ 56) && r.pageIs Page.r then elemOf t va r else { thread := t, va := va, st := .skip }

/-- R166, R167. A GLOBAL atomic of guard kind T. `rs` are its operand registers; `k` gives each thread's operation. -/
def State.atomg (s : State) (rs : List Nat) (size : Nat) (g : BitVec 4) (n : BitVec 1) (t b : BitVec 6) (x : BitVec 1)
    (o : BitVec 6) (k : Squad → Nat → PathKind) : Host.Outcome State Fault Refusal :=
  s.accessT rs g n b x o size (fun q sq e els =>
    let s1 := s.startWalks sq.core (s.regionOf sq) els
    s1.checked q sq e
      (s.checkGlobal sq.core (s.regionOf sq) { r := true, w := true, hbm := true } (s.inSection sq) els) (fun l =>
        (s1.atomicGlobal q sq e .given t.toNat size l (k sq)).charge sq els.length))

/-- R166. ATOMG of operation k. -/
def State.atomgOp (s : State) (k : Nat) (v : BitVec 1) (g : BitVec 4) (n : BitVec 1) (t b : BitVec 6) (x : BitVec 1)
    (o : BitVec 6) : Host.Outcome State Fault Refusal :=
  s.atomg [t.toNat] (atomW v.toNat / 8) g n t b x o (fun sq th => .atomic k v.toNat (s.readV sq t.toNat th) 0)

/-- R166. ATOMS of operation k; `rs` are its operand registers and y its CAS partner. -/
def State.atoms (s : State) (rs : List Nat) (k : Nat) (v : BitVec 1) (g : BitVec 4) (n : BitVec 1) (t b : BitVec 6)
    (x : BitVec 1) (o : BitVec 6) (y : Squad → Nat → Reg) : Host.Outcome State Fault Refusal :=
  s.accessT rs g n b x o (atomW v.toNat / 8) (fun q sq e els =>
    let blk := s.block sq.blockOf
    s.checked q sq e (s.checkScratch sq.core blk true (atomW v.toNat / 8) els) (fun _ =>
      (s.loadScratch q sq .given t.toNat (atomW v.toNat / 8) blk.base els (fun th =>
        .atomic k v.toNat (s.readV sq t.toNat th) (y sq th))).charge sq els.length))

/-- R166. ATOMS of an operation with one operand. -/
def State.atomsOp (s : State) (k : Nat) (v : BitVec 1) (g : BitVec 4) (n : BitVec 1) (t b : BitVec 6) (x : BitVec 1)
    (o : BitVec 6) : Host.Outcome State Fault Refusal :=
  s.atoms [t.toNat] k v g n t b x o (fun _ _ => 0)

/-- R57, R157. The checks of a REG access after alignment: a register of v32 to v63 without the pair lock, then the bound. -/
def State.checkReg (s : State) (q : Nat) (sq : Squad) (els : List (Nat × Nat)) : Checked Unit :=
  match if s.holdsLock q sq then none else els.find? (fun a => decide (0x2000 ≤ a.2) && decide (a.2 < 0x4000)) with
  | some a => .trap causeXset (BitVec.ofNat 64 (a.2 / 256)) 0
  | none => match els.find? (fun a => decide (0x4000 ≤ a.2)) with
    | some a => .trap causeSbound (BitVec.ofNat 64 a.2) 0
    | none => .ok ()

/-- R160. A U-kind access of one element with alignment checked. -/
def State.accessU (s : State) (b o : BitVec 6) (scale : Nat) (align : Nat) (f : Nat → Squad → Exec → Nat → State) :
    Host.Outcome State Fault Refusal :=
  s.word (fun q sq e =>
    let a := sq.addrScalar b.toNat o scale
    if a % align = 0 then f q sq e a else s.trapWord q sq e causeIllegal (BitVec.ofNat 64 a) 1)

/-- R155, R169, R226. A T-kind line instruction: each line that it names, by its address, is acted on in thread order, after the misses of
their pages have gone to the walkers. -/
def State.lines (s : State) (g : BitVec 4) (n : BitVec 1) (b : BitVec 6) (x : BitVec 1) (o : BitVec 6)
    (f : State → Nat → Region → Nat → State) : Host.Outcome State Fault Refusal :=
  s.wordV (regsX x o) (fun _ sq e =>
    let r := s.regionOf sq
    let ls := (s.elementsM sq e g n b x o 128).map (fun a => (a.1, a.2 / 128 * 128))
    (ls.foldl (fun acc a => f acc sq.core r a.2) (s.startWalks sq.core r ls)).charge sq ls.length)

/-- R152, R169. A fetched line enters the L1 of its core, unless L1 holds a valid copy, or the line is poisoned. -/
def State.fetchL1 (s : State) (p : Prefetch) : State :=
  match p.l1 with
  | none => s
  | some core =>
    let k := s.core core
    if fillsL1 false p.home && !s.isPoisoned p.pa && !(k.l1.any (fun l => l.1 == p.pa / 128 && k.l1Valid l.2)) then
      s.l1Fill core p.pa p.scope
    else s

/-- R169, R237. A line is fetched, at once or when its granule is free. -/
def State.fetch (s : State) (p : Prefetch) : State := s.fetchLine p (fun t => t.fetchL1 p)

/-- R169, R251. The fetches that waited for a granule, tried again. -/
def State.refetch (s : State) : State := s.prefetches.foldl State.fetch { s with prefetches := [] }

/-- R169. PREF of one line. -/
def State.prefetch (s : State) (core : Nat) (g : Region) (va : Nat) : State :=
  match (if va < 2 ^ 56 then s.translateIn core g va else .absent) with
  | .absent => s
  | .malformed => s
  | .page p =>
    if p.r && !p.host then s.fetch { by_ := g.asker core, pa := p.pa va, home := p.home, scope := p.scope, l1 := some core } else s

/-- R169. REQPAGE of one line: an absent page's request, dropped when the filter is full. -/
def State.requestPage (s : State) (core : Nat) (g : Region) (va : Nat) : State :=
  if 2 ^ 56 ≤ va ∨ s.translateIn core g va ≠ .absent then s
  else (s.filterEnter core { party := 0, asid := g.asid, fq := g.faultQueue, rcb := g.rcb, fn := g.fn, page := va / 4096, kinds := 16 } false).getD s

/-- R169. L1INV of one line. -/
def State.invalidateLine (s : State) (core : Nat) (g : Region) (va : Nat) : State :=
  match (if va < 2 ^ 56 then s.translateIn core g va else .absent) with
  | .absent => s
  | .malformed => s
  | .page p => if p.host then s else s.modCore core (fun k => k.l1Drop (p.pa va))

/-- R159. Zero-extending GLOBAL vector load, one element per enabled thread. -/
def execLdgN (w : BitVec 2) (g : BitVec 4) (n : BitVec 1) (t b : BitVec 6) (x : BitVec 1) (o : BitVec 6) (s : State) : Host.Outcome State Fault Refusal :=
  s.ldg false (2 ^ w.toNat) g n t b x o

/-- R159. Sign-extending GLOBAL vector load. -/
def execLdgI (w : BitVec 2) (g : BitVec 4) (n : BitVec 1) (t b : BitVec 6) (x : BitVec 1) (o : BitVec 6) (s : State) : Host.Outcome State Fault Refusal :=
  s.ldg true (2 ^ w.toNat) g n t b x o

/-- R159. GLOBAL vector store. -/
def execStg (w : BitVec 2) (g : BitVec 4) (n : BitVec 1) (t b : BitVec 6) (x : BitVec 1) (o : BitVec 6) (s : State) : Host.Outcome State Fault Refusal :=
  s.accessT [t.toNat] g n b x o (2 ^ w.toNat) (fun q sq e els =>
    let s1 := s.startWalks sq.core (s.regionOf sq) els
    s1.checked q sq e (s.checkGlobal sq.core (s.regionOf sq) { w := true } (s.inSection sq) els) (fun l =>
      (s1.storeGlobal q sq e (2 ^ w.toNat) l (fun th => s.readV sq t.toNat th)).charge sq els.length))

/-- R161. No-fault GLOBAL load that writes a residency predicate. -/
def execLdgNf (w : BitVec 2) (g : BitVec 4) (n : BitVec 1) (t b : BitVec 6) (x : BitVec 1) (o : BitVec 6) (s : State) : Host.Outcome State Fault Refusal :=
  s.accessT [t.toNat] g n b x o (2 ^ w.toNat) (fun q sq _ els =>
    let r := s.regionOf sq
    ((s.startWalks sq.core r els).loadGlobal q sq .nf t.toNat (2 ^ w.toNat)
      (els.map (fun a => nfElem a.1 a.2 (s.translateIn sq.core r a.2)))).charge sq els.length)

/-- R159. Zero-extending SCRATCH load. -/
def execLdsN (w : BitVec 2) (g : BitVec 4) (n : BitVec 1) (t b : BitVec 6) (x : BitVec 1) (o : BitVec 6) (s : State) : Host.Outcome State Fault Refusal :=
  s.lds false (2 ^ w.toNat) g n t b x o

/-- R159. Sign-extending SCRATCH load. -/
def execLdsI (w : BitVec 2) (g : BitVec 4) (n : BitVec 1) (t b : BitVec 6) (x : BitVec 1) (o : BitVec 6) (s : State) : Host.Outcome State Fault Refusal :=
  s.lds true (2 ^ w.toNat) g n t b x o

/-- R159. SCRATCH vector store. -/
def execSts (w : BitVec 2) (g : BitVec 4) (n : BitVec 1) (t b : BitVec 6) (x : BitVec 1) (o : BitVec 6) (s : State) : Host.Outcome State Fault Refusal :=
  s.accessT [t.toNat] g n b x o (2 ^ w.toNat) (fun q sq e els =>
    let blk := s.block sq.blockOf
    s.checked q sq e (s.checkScratch sq.core blk true (2 ^ w.toNat) els) (fun _ =>
      (s.storeScratch q sq.core (2 ^ w.toNat) blk.base els (fun th => s.readV sq t.toNat th)).charge sq els.length))

/-- R162. Load from the squad's REG-space register window. -/
def execLdr (g : BitVec 4) (n : BitVec 1) (t b : BitVec 6) (x : BitVec 1) (o : BitVec 6) (s : State) : Host.Outcome State Fault Refusal :=
  s.accessT [t.toNat] g n b x o 8 (fun q sq e els =>
    s.checked q sq e (s.checkReg q sq els) (fun _ =>
      (s.writeVs q t.toNat (els.map (fun a => (a.1, s.readV sq (a.2 / 256) (a.2 / 8 % 32))))).charge sq els.length))

/-- R162. Store into the squad's REG-space register window. -/
def execStr (g : BitVec 4) (n : BitVec 1) (t b : BitVec 6) (x : BitVec 1) (o : BitVec 6) (s : State) : Host.Outcome State Fault Refusal :=
  s.accessT [t.toNat] g n b x o 8 (fun q sq e els =>
    s.checked q sq e (s.checkReg q sq els) (fun _ =>
      (els.foldl (fun acc a => acc.writeV q (a.2 / 256) (a.2 / 8 % 32) (s.readV sq t.toNat a.1)) s).charge sq els.length))

/-- R163. Load of one accumulator element per thread. -/
def execLda (g : BitVec 4) (n : BitVec 1) (t b : BitVec 6) (x : BitVec 1) (o : BitVec 6) (s : State) : Host.Outcome State Fault Refusal :=
  s.accessT [t.toNat] g n b x o 4 (fun q sq e els =>
    s.checked q sq e (s.checkAcc sq.core false els) (fun _ =>
      let k := s.core sq.core
      let bad := els.find? (fun a => tabGet false k.badAcc (a.2 / 4))
      let good := els.filter (fun a => !tabGet false k.badAcc (a.2 / 4))
      ((s.writeVs q t.toNat (good.map (fun a => (a.1, (tabGet 0 k.acc (a.2 / 4)).setWidth 64)))).modSquad q (fun x =>
        x.notePoison (bad.map (fun a => (a.1, a.2, 1))))).charge sq els.length))

/-- R163. Store of one accumulator element per thread. -/
def execSta (g : BitVec 4) (n : BitVec 1) (t b : BitVec 6) (x : BitVec 1) (o : BitVec 6) (s : State) : Host.Outcome State Fault Refusal :=
  s.accessT [t.toNat] g n b x o 4 (fun q sq e els =>
    s.checked q sq e (s.checkAcc sq.core true els) (fun _ =>
      (s.modCore sq.core (fun k => { k with
        acc := tabPuts 0 k.acc (els.map (fun a => (a.2 / 4, (s.readV sq t.toNat a.1).setWidth 32)))
        badAcc := tabPuts false k.badAcc (els.map (fun a => (a.2 / 4, false))) })).charge sq els.length))

/-- R164. Load from another device's exported window, draining any matching write-combining entry first. -/
def execLdp (w : BitVec 2) (g : BitVec 4) (n : BitVec 1) (t b : BitVec 6) (x : BitVec 1) (o : BitVec 6) (s : State) : Host.Outcome State Fault Refusal :=
  s.accessPod [t.toNat] g n b x o (2 ^ w.toNat) (fun q sq _ els =>
    (s.loadPod q sq t.toNat (2 ^ w.toNat) els).charge sq els.length)

/-- R165. POD store into the core's write-combining buffer. -/
def execStp (w : BitVec 2) (g : BitVec 4) (n : BitVec 1) (t b : BitVec 6) (x : BitVec 1) (o : BitVec 6) (s : State) : Host.Outcome State Fault Refusal :=
  s.accessPod [t.toNat] g n b x o (2 ^ w.toNat) (fun _ sq e els =>
    (els.foldl (fun acc a => acc.combineStore sq.core (s.regionOf sq) sq.sname (wordAddr e.clause.addr e.idx) a.2
      (leBytes (2 ^ w.toNat) (s.readV sq t.toNat a.1).toNat)) s).charge sq els.length)

/-- R160. Scalar 8-byte GLOBAL load. -/
def execLdgScalar (t b o : BitVec 6) (s : State) : Host.Outcome State Fault Refusal :=
  s.accessU b o 8 8 (fun q sq e a =>
    let s1 := s.startWalks sq.core (s.regionOf sq) [(0, a)]
    s1.checked q sq e (s.checkGlobal sq.core (s.regionOf sq) { r := true } true [(0, a)]) (fun l =>
      (s1.loadGlobal q sq .scalar t.toNat 8 l).charge sq 1))

/-- R160. Scalar 8-byte GLOBAL store. -/
def execStgScalar (t b o : BitVec 6) (s : State) : Host.Outcome State Fault Refusal :=
  s.accessU b o 8 8 (fun q sq e a =>
    let s1 := s.startWalks sq.core (s.regionOf sq) [(0, a)]
    s1.checked q sq e (s.checkGlobal sq.core (s.regionOf sq) { w := true } (s.inSection sq) [(0, a)]) (fun l =>
      (s1.storeGlobal q sq e 8 l (fun _ => sq.readS t.toNat)).charge sq 1))

/-- R160. Scalar 8-byte SCRATCH load. -/
def execLdsScalar (t b o : BitVec 6) (s : State) : Host.Outcome State Fault Refusal :=
  s.accessU b o 8 8 (fun q sq e a =>
    let blk := s.block sq.blockOf
    s.checked q sq e (s.checkScratch sq.core blk false 8 [(0, a)]) (fun _ =>
      (s.loadScratch q sq .scalar t.toNat 8 blk.base [(0, a)] (fun _ => .read)).charge sq 1))

/-- R160. Scalar 8-byte SCRATCH store. -/
def execStsScalar (t b o : BitVec 6) (s : State) : Host.Outcome State Fault Refusal :=
  s.accessU b o 8 8 (fun q sq e a =>
    let blk := s.block sq.blockOf
    s.checked q sq e (s.checkScratch sq.core blk true 8 [(0, a)]) (fun _ =>
      (s.storeScratch q sq.core 8 blk.base [(0, a)] (fun _ => sq.readS t.toNat)).charge sq 1))

/-- R166. GLOBAL atomic add at the home slice. -/
def execAtomgAdd (v : BitVec 1) (g : BitVec 4) (n : BitVec 1) (t b : BitVec 6) (x : BitVec 1) (o : BitVec 6) (s : State) : Host.Outcome State Fault Refusal :=
  s.atomgOp 0 v g n t b x o

/-- R166. GLOBAL atomic signed minimum. -/
def execAtomgMinI (v : BitVec 1) (g : BitVec 4) (n : BitVec 1) (t b : BitVec 6) (x : BitVec 1) (o : BitVec 6) (s : State) : Host.Outcome State Fault Refusal :=
  s.atomgOp 1 v g n t b x o

/-- R166. GLOBAL atomic unsigned minimum. -/
def execAtomgMinN (v : BitVec 1) (g : BitVec 4) (n : BitVec 1) (t b : BitVec 6) (x : BitVec 1) (o : BitVec 6) (s : State) : Host.Outcome State Fault Refusal :=
  s.atomgOp 2 v g n t b x o

/-- R166. GLOBAL atomic signed maximum. -/
def execAtomgMaxI (v : BitVec 1) (g : BitVec 4) (n : BitVec 1) (t b : BitVec 6) (x : BitVec 1) (o : BitVec 6) (s : State) : Host.Outcome State Fault Refusal :=
  s.atomgOp 3 v g n t b x o

/-- R166. GLOBAL atomic unsigned maximum. -/
def execAtomgMaxN (v : BitVec 1) (g : BitVec 4) (n : BitVec 1) (t b : BitVec 6) (x : BitVec 1) (o : BitVec 6) (s : State) : Host.Outcome State Fault Refusal :=
  s.atomgOp 4 v g n t b x o

/-- R166. GLOBAL atomic AND. -/
def execAtomgAnd (v : BitVec 1) (g : BitVec 4) (n : BitVec 1) (t b : BitVec 6) (x : BitVec 1) (o : BitVec 6) (s : State) : Host.Outcome State Fault Refusal :=
  s.atomgOp 5 v g n t b x o

/-- R166. GLOBAL atomic OR. -/
def execAtomgOr (v : BitVec 1) (g : BitVec 4) (n : BitVec 1) (t b : BitVec 6) (x : BitVec 1) (o : BitVec 6) (s : State) : Host.Outcome State Fault Refusal :=
  s.atomgOp 6 v g n t b x o

/-- R166. GLOBAL atomic XOR. -/
def execAtomgXor (v : BitVec 1) (g : BitVec 4) (n : BitVec 1) (t b : BitVec 6) (x : BitVec 1) (o : BitVec 6) (s : State) : Host.Outcome State Fault Refusal :=
  s.atomgOp 7 v g n t b x o

/-- R166. GLOBAL atomic exchange. -/
def execAtomgXchg (v : BitVec 1) (g : BitVec 4) (n : BitVec 1) (t b : BitVec 6) (x : BitVec 1) (o : BitVec 6) (s : State) : Host.Outcome State Fault Refusal :=
  s.atomgOp 8 v g n t b x o

/-- R166. GLOBAL atomic compare-and-swap. -/
def execAtomgCas (v : BitVec 1) (g : BitVec 4) (n : BitVec 1) (t b : BitVec 6) (x : BitVec 1) (o : BitVec 6) (s : State) : Host.Outcome State Fault Refusal :=
  s.atomg [t.toNat, t.toNat + 1] (atomW v.toNat / 8) g n t b x o (fun sq th =>
    .atomic 9 v.toNat (s.readV sq t.toNat th) (s.readV sq (t.toNat + 1) th))

/-- R167. Two independent RNE BF16 atomic adds, low half first. -/
def execAtomgAddBf16x2 (g : BitVec 4) (n : BitVec 1) (t b : BitVec 6) (x : BitVec 1) (o : BitVec 6) (s : State) : Host.Outcome State Fault Refusal :=
  s.atomg [t.toNat] 4 g n t b x o (fun sq th => .addBf16 (s.readV sq t.toNat th) none)

/-- R167. RNE F32 atomic add at the home slice. -/
def execAtomgAddF32 (g : BitVec 4) (n : BitVec 1) (t b : BitVec 6) (x : BitVec 1) (o : BitVec 6) (s : State) : Host.Outcome State Fault Refusal :=
  s.atomg [t.toNat] 4 g n t b x o (fun sq th => .addF32 (s.readV sq t.toNat th))

/-- R168. Atomically hands out the next chunk of an index range. -/
def execAtomgGrab (t b o : BitVec 6) (s : State) : Host.Outcome State Fault Refusal :=
  s.accessU b o 16 16 (fun q sq e a =>
    if (s.regionOf sq).det then s.trapWord q sq e causeDetshare (BitVec.ofNat 64 a) 0
    else
      let s1 := s.startWalks sq.core (s.regionOf sq) [(0, a)]
      s1.checked q sq e
        (s.checkGlobal sq.core (s.regionOf sq) { r := true, w := true, hbm := true } (s.inSection sq) [(0, a)]) (fun l =>
          (s1.atomicGlobal q sq e .grab t.toNat 16 l (fun _ => .grab)).charge sq 1))

/-- R166. SCRATCH atomic add. -/
def execAtomsAdd (v : BitVec 1) (g : BitVec 4) (n : BitVec 1) (t b : BitVec 6) (x : BitVec 1) (o : BitVec 6) (s : State) : Host.Outcome State Fault Refusal :=
  s.atomsOp 0 v g n t b x o

/-- R166. SCRATCH atomic signed minimum. -/
def execAtomsMinI (v : BitVec 1) (g : BitVec 4) (n : BitVec 1) (t b : BitVec 6) (x : BitVec 1) (o : BitVec 6) (s : State) : Host.Outcome State Fault Refusal :=
  s.atomsOp 1 v g n t b x o

/-- R166. SCRATCH atomic unsigned minimum. -/
def execAtomsMinN (v : BitVec 1) (g : BitVec 4) (n : BitVec 1) (t b : BitVec 6) (x : BitVec 1) (o : BitVec 6) (s : State) : Host.Outcome State Fault Refusal :=
  s.atomsOp 2 v g n t b x o

/-- R166. SCRATCH atomic signed maximum. -/
def execAtomsMaxI (v : BitVec 1) (g : BitVec 4) (n : BitVec 1) (t b : BitVec 6) (x : BitVec 1) (o : BitVec 6) (s : State) : Host.Outcome State Fault Refusal :=
  s.atomsOp 3 v g n t b x o

/-- R166. SCRATCH atomic unsigned maximum. -/
def execAtomsMaxN (v : BitVec 1) (g : BitVec 4) (n : BitVec 1) (t b : BitVec 6) (x : BitVec 1) (o : BitVec 6) (s : State) : Host.Outcome State Fault Refusal :=
  s.atomsOp 4 v g n t b x o

/-- R166. SCRATCH atomic AND. -/
def execAtomsAnd (v : BitVec 1) (g : BitVec 4) (n : BitVec 1) (t b : BitVec 6) (x : BitVec 1) (o : BitVec 6) (s : State) : Host.Outcome State Fault Refusal :=
  s.atomsOp 5 v g n t b x o

/-- R166. SCRATCH atomic OR. -/
def execAtomsOr (v : BitVec 1) (g : BitVec 4) (n : BitVec 1) (t b : BitVec 6) (x : BitVec 1) (o : BitVec 6) (s : State) : Host.Outcome State Fault Refusal :=
  s.atomsOp 6 v g n t b x o

/-- R166. SCRATCH atomic XOR. -/
def execAtomsXor (v : BitVec 1) (g : BitVec 4) (n : BitVec 1) (t b : BitVec 6) (x : BitVec 1) (o : BitVec 6) (s : State) : Host.Outcome State Fault Refusal :=
  s.atomsOp 7 v g n t b x o

/-- R166. SCRATCH atomic exchange. -/
def execAtomsXchg (v : BitVec 1) (g : BitVec 4) (n : BitVec 1) (t b : BitVec 6) (x : BitVec 1) (o : BitVec 6) (s : State) : Host.Outcome State Fault Refusal :=
  s.atomsOp 8 v g n t b x o

/-- R166. SCRATCH atomic compare-and-swap. -/
def execAtomsCas (v : BitVec 1) (g : BitVec 4) (n : BitVec 1) (t b : BitVec 6) (x : BitVec 1) (o : BitVec 6) (s : State) : Host.Outcome State Fault Refusal :=
  s.atoms [t.toNat, t.toNat + 1] 9 v g n t b x o (fun sq th => s.readV sq (t.toNat + 1) th)

/-- R203. Performs the release half and then the acquire half at the scope named by O[1:0]. -/
def execFence (c : BitVec 2) (s : State) : Host.Outcome State Fault Refusal :=
  s.word (fun q sq _ =>
    let s1 := if c.toNat = 3 then s.drainIf sq.core (fun _ => true) else s
    (s1.modSquad q (fun x => x.await (.fence c.toNat s1.nextId))).charge sq 1)

/-- R169. Prefetches resident, readable lines into the home slice and the L1. -/
def execPref (g : BitVec 4) (n : BitVec 1) (b : BitVec 6) (x : BitVec 1) (o : BitVec 6) (s : State) : Host.Outcome State Fault Refusal :=
  s.lines g n b x o State.prefetch

/-- R169. Enters a request-only entry in the fault filter for each non-resident page. -/
def execReqpage (g : BitVec 4) (n : BitVec 1) (b : BitVec 6) (x : BitVec 1) (o : BitVec 6) (s : State) : Host.Outcome State Fault Refusal :=
  s.lines g n b x o State.requestPage

/-- R169. Invalidates the core's L1 copy of each named line. -/
def execL1inv (g : BitVec 4) (n : BitVec 1) (b : BitVec 6) (x : BitVec 1) (o : BitVec 6) (s : State) : Host.Outcome State Fault Refusal :=
  s.lines g n b x o State.invalidateLine

/-- R169. Invalidates every line of the core's L1. -/
def execL1inva (s : State) : Host.Outcome State Fault Refusal :=
  s.word (fun _ sq _ => (s.modCore sq.core (fun k => { k with l1 := [] })).charge sq 1)

end Sys2Proof.Machine
end

