-- ==== Sys2Proof/Machine/MemEvents.lean ====
section
/-!
DEFINITION. What the memory side does with loads, stores, atomics, fences and lines (R131, R158, R164, R165, R200 to R203,
R214, R226, R323). An event that is not due leaves the state as it is.
-/
namespace Sys2Proof.Machine

/-- R98. Does a squad still take the results of its loads and atomics? -/
def Squad.takesResults (sq : Squad) : Bool := !sq.exiting && sq.place != .retired

/-- R67. May a returning value be written to a vector register of a squad: live, and holding the pair lock for v32 to v63? -/
def State.mayReturn (s : State) (q : Nat) (sq : Squad) (r : Nat) : Bool :=
  sq.takesResults && (decide (r < 32) || s.holdsLock q sq)

/-- R98. A returning value is written to a scalar or a predicate of its squad, while the squad takes results. -/
def State.returnS (s : State) (q : Nat) (sq : Squad) (d : Nat) (v : Reg) : State := if sq.takesResults then s.writeS q d v else s
def State.returnP (s : State) (q : Nat) (sq : Squad) (d t : Nat) (v : Byte) : State := if sq.takesResults then s.writeP q d t v else s

/-- R158, R161, R164. Write what an element returns to its destination. -/
def State.writeElem (s : State) (o : LoadOp) (sq : Squad) (t : Nat) (st : ElemState) : State :=
  let q := o.squad
  let vec (v : Reg) : State := if s.mayReturn q sq o.dest then s.writeV q o.dest t v else s
  match o.kind, st with
  | .vec signed, .ready v => vec (extend signed o.size v.toNat)
  | .nf, .ready v => (vec v).returnP q sq (64 + o.dest) t 0xFF
  | .nf, .skip => (vec 0).returnP q sq (64 + o.dest) t 0
  | .scalar, .ready v => s.returnS q sq o.dest v
  | .grab, .ready v => s.returnS q sq o.dest v
  | .given, .ready v => vec v
  | .given, .bad 2 => vec 0
  | _, _ => s

/-- R158. The lowest-numbered element that met a POISON. -/
def LoadOp.noteBad (o : LoadOp) (l : Elem) : LoadOp :=
  match l.st with
  | .bad d => match o.bad with
    | some b => if l.thread < b.1 then { o with bad := some (l.thread, l.va, d) } else o
    | none => { o with bad := some (l.thread, l.va, d) }
  | _ => o

/-- R131. A counted load is complete. -/
def State.loadDone (s : State) (op : Nat) (o : LoadOp) : State :=
  { s with loads := tabDel s.loads op }.modSquad o.squad (fun sq => { sq with ocLd := sq.ocLd - 1 }.notePoison o.bad)

/-- R245. Mark a slot busy on every core whose region uses an address space. -/
def State.markBusy (s : State) (asid slot : Nat) (on : Bool) : State :=
  { s with cores := s.cores.map (fun (c : Nat × CoreS) =>
      (c.1, if (c.2.region.map (·.asid)) == some asid then
        { c.2 with busy := if on then c.2.busy ||| BitVec.ofNat 64 (2 ^ slot) else c.2.busy &&& ~~~ BitVec.ofNat 64 (2 ^ slot) }
      else c.2)) }

/-- R245, R272. The bytes that a FIGLD or a SYS word has read. -/
def LoadOp.image (o : LoadOp) : List Byte :=
  o.elems.flatMap (fun l => match l.st with
    | .ready v => leBytes 8 v.toNat
    | .wide v => leBytes 16 v.toNat
    | _ => leBytes 8 0)

/-- R98, R245. FIGLD's status is written, while its squad takes results. -/
def State.returnStatus (s : State) (q d st : Nat) : State :=
  match tabFind s.squads q with
  | none => s
  | some sq => s.returnS q sq d (BitVec.ofNat 64 st)

/-- R243, R245. A FIGLD's image is checked; an accepted one reaches the table's turn. -/
def State.figldRead (s : State) (op : Nat) (o : LoadOp) (slot : Nat) : State :=
  let bads := o.elems.foldl LoadOp.noteBad o
  if bads.bad.isSome then s.loadDone op { bads with bad := bads.bad.map (fun b => (b.1, (o.elems.headD { thread := 0, va := 0 }).va, b.2.2)) }
  else
    let st := figCheck o.image
    if st ≠ 0 then (s.returnStatus o.squad o.dest st).loadDone op o
    else
      let f : FigLoad := { id := op, squad := o.squad, asid := o.asid, table := o.region.figTable, slot := slot,
                           image := some o.image, dest := o.dest }
      let s1 : State := { s with loads := tabDel s.loads op, figLoads := s.figLoads ++ [f] }
      s1.markBusy o.asid slot true

/-- R158. An element of a load or atomic returns. -/
def State.completeElem (s : State) (op t : Nat) (o : LoadOp) (sq : Squad) (l : Elem) : State :=
  let o1 := (o.noteBad l).setElem t .done
  let s1 := s.writeElem o sq t l.st
  if o1.elems.all (fun x => x.st == .done) then s1.loadDone op o1 else { s1 with loads := tabIns s1.loads op o1 }

/-- R324, R323. The record of a store that a device, or the host, refuses. -/
def refusedStore (addr core : Nat) (sname code : Word) : FaultRec :=
  { addr := addr, cause := 0x21, source := 4, cores := coreBit core, die := dieOfCore core, sname := sname.toNat, code := code.toNat }

/-- R203, R212. The first wait of a squad for its next clause is over. -/
def State.clearWait (s : State) (q : Nat) : State := s.modSquad q Squad.waited

/-- R203, R304. The fence or PASS that a squad waits for, once its conditions are met. -/
def State.fenceDone (s : State) (q : Nat) (sq : Squad) : State :=
  match sq.nextWait with
  | some (.fence scope upto) =>
    if s.released q sq.core scope upto then
      s.afterRelease sq.core scope (fun t =>
        let s1 := t.clearWait q
        if scope = 0 then s1 else s1.acquire sq.core)
    else s
  | some (.pass upto) =>
    if s.released q sq.core 2 upto then s.afterRelease sq.core 2 (fun t => (t.clearWait q).sendToken sq.launch) else s
  | _ => s

/-- R214. Are the copies and tiles that a squad issued before an operation over? MCAST and REDX, which R203 names beside copies, are
none (log 65). -/
def State.enginesDone (s : State) (q core upto : Nat) : Bool :=
  !((s.core core).copies.any (fun c => c.squad == q && c.kind != .mcast && decide (c.id < upto))) &&
  !((s.core core).tiles.any (fun c => c.squad == q && decide (c.id < upto)))

/-- R158. Returning load or atomic data writes its destination elements and lowers oc.ld, leaving any POISON pending. -/
def execLoadCompletion (op t : Nat) (s : State) : Host.Outcome State Fault Refusal :=
  .next (match tabFind s.loads op with
    | none => s
    | some o => match tabFind s.squads o.squad with
      | none => s
      | some sq => match o.kind with
        | .record => s
        | .figld slot => if o.elems.any (fun l => l.st == .waiting) then s else s.figldRead op o slot
        | _ => match o.elems.find? (fun l => l.thread == t) with
          | none => s
          | some l => if l.st == .waiting || l.st == .done then s else s.completeElem op t o sq l)

/-- R201. A store is accepted at its home slice or host port, performed at DIE and DEV, and leaves the core store path. -/
def execStoreAccept (core k : Nat) (s : State) : Host.Outcome State Fault Refusal :=
  .next (match s.mayAccept core k with
    | none => s
    | some e => if e.isStore then s.acceptStore core k e else s)

/-- R202. A load element is served at its home slice or host port, filling L1 where its home allows. -/
def execLoadAtHome (op t : Nat) (s : State) : Host.Outcome State Fault Refusal :=
  .next (match tabFind s.loads op with
    | none => s
    | some o => match o.elems.find? (fun l => l.thread == t) with
      | none => s
      | some l => if l.st == .waiting && o.global && decide (s.pipeBefore o.core op t < 4096) then s.performLoad op o l else s)

/-- R166. An atomic element performs its read-modify-write at the home slice. -/
def execAtomicAtHome (core k : Nat) (s : State) : Host.Outcome State Fault Refusal :=
  .next (match s.mayAccept core k with
    | none => s
    | some e => if e.isAtomic then s.acceptAtomic core k e else s)

/-- R202. An L1 line tagged DIE, DEV or POD expires 4,096 clk after its fill. -/
def execL1LineExpiry (core line : Nat) (s : State) : Host.Outcome State Fault Refusal :=
  .next (match tabFind (s.core core).l1 line with
    | none => s
    | some l =>
      if l.scope ≠ 0 ∧ 4096 ≤ (s.core core).clk - l.fill then s.modCore core (fun c => { c with l1 := tabDel c.l1 line }) else s)

/-- R220. A walk of a core in flight: among the first 32 of its die. -/
def State.walkInFlight (s : State) (core asid va : Nat) : Option Walk :=
  ((s.walks.filter (fun w => dieOfCore w.core == dieOfCore core)).take 32).find? (fun w => w.core == core && w.asid == asid && w.va == va)

/-- R211, R226, R331. A walk reads its entries at their homes, and completes: a well-formed leaf enters the TLB unless the walk is stale
(R227). -/
def State.completeWalk (s : State) (core asid va : Nat) : State :=
  match s.walkInFlight core asid va with
  | none => s
  | some w =>
    let ls := ((s.walkReads 5 0 w.root (w.va % 2 ^ 56)).map (· / 128)).eraseDups
    s.serveLines ls (fun s0 =>
      let s1 := ls.foldl (fun acc l => acc.touchHome w.asker false (l * 128) 0 false) s0
      let s2 : State := { s1 with walks := s1.walks.erase w }
      if w.stale then s2
      else match s2.walk w.root w.va with
        | .page p => s2.installTlb core { asid := asid, page := w.va / p.size, size := p.size, leaf := p.leaf }
        | .absent => s2
        | .malformed => s2)

/-- R226. A walk of the die's walkers finishes and installs a well-formed leaf in the TLB. -/
def execPageWalkComplete (core asid va : Nat) (s : State) : Host.Outcome State Fault Refusal :=
  .next (s.completeWalk core asid va)

/-- R203. The fence's awaited conditions are met, the acquire half runs, and the squad's next clause becomes ready. -/
def execFenceComplete (q : Nat) (s : State) : Host.Outcome State Fault Refusal :=
  .next (match tabFind s.squads q with
    | none => s
    | some sq => s.fenceDone q sq)

/-- R214. Once the squad's copies and tiles have retired, LNEXT releases and marks the squad released. -/
def execLnextRelease (q : Nat) (s : State) : Host.Outcome State Fault Refusal :=
  .next (match tabFind s.squads q with
    | none => s
    | some sq => match sq.nextWait with
      | some (.lnext upto rel) =>
        if sq.exiting then s
        else if s.enginesDone q sq.core upto then
          let r := rel.getD s.nextId
          if s.released q sq.core 2 r then
            s.afterRelease sq.core 2 (fun t => t.modSquad q (fun x => { x.waited with released := true }))
          else s.modSquad q (fun x => { x with nextWait := some (.lnext upto (some r)) })
        else s
      | _ => s)

/-- R165. A write-combining entry drains after 2,048 core clk without a write. -/
def execWcbAgeDrain (core k : Nat) (s : State) : Host.Outcome State Fault Refusal :=
  .next (match (s.core core).wcb[k]? with
    | none => s
    | some w => if 2048 ≤ (s.core core).clk - w.last then s.drain core w else s)

end Sys2Proof.Machine
end

