-- ==== Sys2Proof/Machine/FigureOps.lean ====
section
/-!
DEFINITION. FIG, FIGLD, FIGUNLD and what slices and channels do with figure requests (R245 to R254, R257).
-/
namespace Sys2Proof.Machine

/-- R238. A slot's summary byte on a core. -/
def CoreS.slotFlags (k : CoreS) (slot : Nat) : Nat := (tabGet 0 k.summary slot).toNat

/-- R245. Is a slot busy on a core? -/
def CoreS.slotBusy (k : CoreS) (slot : Nat) : Bool := k.busy.getLsbD slot

/-- R248, R249. Enter a FIG: counted by its kind, its flag taken, its requests counted in event 0x11. -/
def State.enterFig (s : State) (q : Nat) (sq : Squad) (ret : Bool) (t size : Nat) (flag : Option Nat) (els : List Elem) :
    State :=
  let g := s.regionOf sq
  let op := s.nextId
  let s1 := if ret then
      s.enterLoad q { squad := q, core := sq.core, dest := t, size := size, kind := .given, asid := g.asid, region := g, elems := els }
    else
      let r := s.newId
      r.2.modSquad q (fun x => { x with ocSt := x.ocSt + 1 })
  let s2 := match flag with
    | none => s1
    | some n => { s1 with flagOps := tabIns s1.flagOps op { squad := q, flag := n, left := els.length } }.modSquad q
        (fun x => x.flagIssue n)
  s2.coreEvent sq.core 0x11 els.length

/-- R248, R249. A GLOBAL FIG's requests take their place in the core store path. -/
def State.figGlobal (s : State) (q : Nat) (sq : Squad) (e : Exec) (fl : Nat) (t slot : Nat) (flag : Option Nat)
    (els : List Elem) : State :=
  let g := s.regionOf sq
  let op := s.nextId
  let s1 := s.enterFig q sq (figRet fl) t (figBytes fl) flag els
  s1.beginIssue sq.core op (els.map (fun l =>
    { l.entry op q sq g (wordAddr e.clause.addr e.idx) (figBytes fl) (.figure slot (s.readV sq t l.thread)) with
      flag := flag, gran := figGranule fl }))

/-- R131, R211, R248, R250, R251. A POD FIG's requests leave with the definition, behind the stores to their lines, both of a TILE
granule, that the core still combines. -/
def State.figPodSend (s : State) (q : Nat) (sq : Squad) (e : Exec) (fl : Nat) (t slot : Nat) (flag : Option Nat)
    (els : List (Nat × Nat)) : State :=
  let g := s.regionOf sq
  let op := s.nextId
  let img := s.figEntry g.figTable slot
  let s0 := s.enterFig q sq (figRet fl) t (figBytes fl) flag (els.map (fun a => { thread := a.1, va := a.2 }))
  let s1 := els.foldl (fun acc a => acc.drainIf sq.core (fun w => w.dev == podDev a.2 && w.line * 128 / figGranule fl == podOff a.2 / figGranule fl)) s0
  els.foldl (fun acc a =>
    let m : PodMsg := { id := 0, src := acc.own, dst := podDev a.2, core := sq.core, off := podOff a.2,
                        kind := .figure slot img (s.readV sq t a.1).toNat (if figRet fl then some (op, a.1) else none)
                          (flag.map (fun _ => op)),
                        counted := if figRet fl then none else some (op, q), region := g, sname := sq.sname, code := wordAddr e.clause.addr e.idx }
    acc.podSend m) s1

/-- R252. Is a request combined: COMM and NORET, GLOBAL, its FIG without a flag? -/
def combinable (fl : Nat) (flag : Option Nat) : Bool := figComm fl && !figRet fl && !figPod fl && flag.isNone

/-- R247. The request of a path entry, with its definition from the table. -/
def State.pathReq (s : State) (core : Nat) (e : PathEntry) (slot : Nat) (x : Reg) : FigReq :=
  let img := s.figEntry e.region.figTable slot
  { pa := e.pa, va := e.va, img := img, operand := x.toNat, core := core, by_ := e.region.asker core,
    back := if figRet (figFlags img) then some (e.op, e.thread) else none, flagOp := e.flag.map (fun _ => e.op),
    region := e.region, sname := e.sname, code := e.code }

/-- R131, R201. A figure request has been accepted: it leaves the path, and a NORET one counts as an element gone. -/
def State.figLeave (s : State) (core k : Nat) (e : PathEntry) (ret : Bool) : State :=
  let s1 := s.leavePath core k e
  if ret then s1 else s1.storeDone core e.op e.squad

/-- R251. The request of a channel's entry. -/
def TileFig.req (f : TileFig) : FigReq :=
  { pa := f.pa, va := f.va, img := f.image, operand := f.operand, count := f.count, core := f.core, back := f.back,
    flagOp := f.flagOp, by_ := f.by_, region := f.region, sname := f.sname, code := f.code }

/-- R251, R252. The slice that takes a request: the lead slice for TILE. -/
def figSlice (fl pa : Nat) : Nat := if figTile fl then sliceOf (pa / 256 * 256) else sliceOf pa

/-- R247. A slice looks a definition up: when its cache holds it, it becomes its most recently used. None on a miss. -/
def State.lookupDef (s : State) (slice asid slot : Nat) : Option State :=
  let c := tabGet [] s.defCache slice
  match c.find? (fun d => d.asid == asid && d.slot == slot) with
  | none => none
  | some d => some { s with defCache := tabPut [] s.defCache slice (d :: c.filter (fun x => !(x.asid == asid && x.slot == slot))) }

/-- R242, R251. A request that is not combined is executed at its line's slice, or passed to its channel, once its slice holds its
definition. -/
def State.figServe (s : State) (core k : Nat) (e : PathEntry) (slot : Nat) (x : Reg) : State :=
  let q := s.pathReq core e slot x
  let fl := figFlags q.img
  if combinable fl e.flag then s
  else match s.lookupDef (figSlice fl e.pa) e.asid slot with
    | none => s
    | some s0 =>
      if figTile fl then
        s0.serveLines [e.pa / 256 * 2, e.pa / 256 * 2 + 1] (fun s1 =>
          (s1.passTile q.by_ (q.tile e.asid slot [])).figLeave core k e (figRet fl))
      else s0.serveAt false e.pa (fun s1 =>
        ((s1.touchHome q.by_ false e.pa e.home false).figExecute q).figLeave core k e (figRet fl))

/-- R252. The entries of a slice. -/
def State.entriesOf (s : State) (slice : Nat) : List CombineEntry := s.combining.filter (fun e => e.slice == slice)

/-- R200, R204, R252. A combinable request merges into its entry or allocates one; with all 32 in use the oldest is applied first. It waits
while a younger entry of its core stands on its bytes, which it must not pass (log 70). -/
def State.figCombine (s0 : State) (core k : Nat) (e : PathEntry) (slot : Nat) (x : Reg) : State :=
  let img := s0.figEntry e.region.figTable slot
  let fl := figFlags img
  let sl := figSlice fl e.pa
  let v := x.toNat % 2 ^ figW fl
  let same (c : CombineEntry) : Bool := c.slice == sl && c.asid == e.asid && c.slot == slot && c.pa == e.pa
  if !combinable fl e.flag then s0
  else if ((s0.combining.dropWhile (fun c => !same c)).drop 1).any (s0.entryMeets e.pa (figBytes fl) [core]) then s0
  else match s0.lookupDef sl e.asid slot with
  | none => s0
  | some s =>
  if s.combining.any same then
    let s1 : State := { s with combining := s.combining.map (fun c =>
      if same c then { c with operand := figMerge img c.operand v, count := c.count + 1, cores := (c.cores ++ [core]).eraseDups }
      else c) }
    (s1.dieEvent (dieOfSlice sl) 0x46 1).figLeave core k e false
  else
    let s1 := if (s.entriesOf sl).length < 32 then s
      else match (s.entriesOf sl).head? with
        | none => s
        | some o => s.applyEntries (fun c => c == o)
    if s1.granuleHeld e.pa || decide (32 ≤ (s1.entriesOf sl).length) then s1 else
    let c : CombineEntry := { slice := sl, asid := e.asid, slot := slot, pa := e.pa, va := e.va, home := e.home, operand := v, count := 1,
                              born := s1.clockOfDie (dieOfSlice sl), cores := [core], region := e.region, sname := e.sname,
                              code := e.code }
    let s2 : State := { s1 with combining := s1.combining ++ [c] }
    s2.figLeave core k e false

/-- R245. Is a FIG of a slot of an address space, issued anywhere on the device, not yet executed, dropped or refused? -/
def State.figInFlight (s : State) (asid slot : Nat) : Bool :=
  s.cores.any (fun c => (c.2.path ++ c.2.held ++ c.2.leaving).any (fun e => match e.kind with
    | .figure k _ => e.asid == asid && k == slot
    | _ => false)) ||
  s.tileFigs.any (fun f => f.asid == asid && f.slot == slot) ||
  s.pod.any (fun m => m.mine && m.region.asid == asid && (match m.kind with
    | .figure k _ _ _ _ => k == slot
    | _ => false))

/-- R245. May load or unload k be carried out: the first of its address space, with no FIG of its slot in flight? -/
def State.figLoadReady (s : State) (k : Nat) : Option FigLoad :=
  match s.figLoads[k]? with
  | none => none
  | some f =>
    if (s.figLoads.take k).any (fun x => x.asid == f.asid) || s.figInFlight f.asid f.slot then none else some f

/-- R245, R252. FIGLD or FIGUNLD k of a slot is carried out once the combining-buffer entries of the slot are applied and no FIG of
it is in flight. -/
def State.figApply (s : State) (k : Nat) (f : FigLoad) (install : State → State) : State :=
  let mine (e : CombineEntry) : Bool := e.asid == f.asid && e.slot == f.slot
  let s1 := s.applyEntries mine
  if (s1.figLoadReady k).isSome && !s1.combining.any mine then install s1 else s1

/-- R245, R246. Install an image, or empty a slot: the table, the definition caches, the summaries and the marks. -/
def State.figInstall (s : State) (k : Nat) (f : FigLoad) (img : List Byte) : State :=
  let s2 := s.writeBytes (f.table + 128 * f.slot) img
  let rest := s2.figLoads.eraseIdx k
  let s3 : State := { s2 with
    figLoads := rest
    defCache := s2.defCache.map (fun (c : Nat × List DefEntry) =>
      (c.1, c.2.filter (fun d => !(d.asid == f.asid && d.slot == f.slot))))
    cores := s2.cores.map (fun (c : Nat × CoreS) =>
      (c.1, if c.2.region.map (·.asid) == some f.asid then
        { c.2 with summary := tabPut 0 c.2.summary f.slot (img.getD 0 0) } else c.2)) }
  if rest.any (fun x => x.asid == f.asid && x.slot == f.slot) then s3 else s3.markBusy f.asid f.slot false

/-- R239. A source image as the table holds it: V set. -/
def validImage (img : List Byte) : List Byte :=
  match img with
  | [] => []
  | b :: r => (b ||| 0x80) :: r

/-- R248. Sends one figure request per enabled thread to the update unit that owns the address. -/
def execFig (g : BitVec 4) (n : BitVec 1) (t b : BitVec 6) (x : BitVec 1) (o k : BitVec 6) (f : BitVec 4) (e : BitVec 1) (s : State) : Host.Outcome State Fault Refusal :=
  s.wordV (t.toNat :: regsX x o) (fun q sq e2 =>
    let c := s.core sq.core
    let fl := c.slotFlags k.toNat
    let act := sq.activeT e2 g n
    let flag := if e = 1 then some f.toNat else none
    if act.isEmpty then s.charge sq 1
    else if c.slotBusy k.toNat then s.holdWord (.slot k.toNat)
    else if !figValid fl then s.trapWord q sq e2 causeIllegal (k.setWidth 64) 10
    else
      let els := act.map (fun th => (th, if figPod fl then s.addrPod sq b.toNat x.toNat o (figBytes fl) th
                                         else s.addrM sq b.toNat x.toNat o (figBytes fl) th))
      match misaligned (figBytes fl) els with
      | some a => s.trapWord q sq e2 causeIllegal (BitVec.ofNat 64 a.2) 1
      | none =>
        if figPod fl then
          match els.find? (fun a => decide (2 ^ 60 ≤ a.2)) with
          | some a => s.trapWord q sq e2 causeProt (BitVec.ofNat 64 a.2) 6
          | none => (s.figPodSend q sq e2 fl t.toNat k.toNat flag els).charge sq els.length
        else
          let s1 := s.startWalks sq.core (s.regionOf sq) els
          s1.checked q sq e2
            (s.checkGlobal sq.core (s.regionOf sq) { f := true, hbm := true } (s.inSection sq) els) (fun l =>
              (s1.figGlobal q sq e2 fl t.toNat k.toNat flag l).charge sq els.length))

/-- R245. Reads and checks a figure definition for a slot and returns a status. -/
def execFigld (t b o k : BitVec 6) (s : State) : Host.Outcome State Fault Refusal :=
  s.accessU b o 64 64 (fun q sq e a =>
    let els := (List.range 16).map (fun i => (i, (a + 8 * i) % 2 ^ 64))
    let s1 := s.startWalks sq.core (s.regionOf sq) els
    s1.checked q sq e ((s.checkGlobal sq.core (s.regionOf sq) { r := true } true els).atElement a) (fun l =>
      (s1.loadGlobal q sq (.figld k.toNat) t.toNat 8 l).charge sq 1))

/-- R246. Empties a figure slot. -/
def execFigunld (b : BitVec 6) (s : State) : Host.Outcome State Fault Refusal :=
  s.word (fun q sq _ =>
    let g := s.regionOf sq
    let r := s.newId
    let f : FigLoad := { id := r.1, squad := q, asid := g.asid, table := g.figTable, slot := b.toNat, image := none }
    let s1 : State := { r.2 with figLoads := r.2.figLoads ++ [f] }
    ((s1.markBusy g.asid b.toNat true).modSquad q (fun x => x.await (.figunld r.1))).charge sq 1)

/-- R245. A FIG word that waited on a busy slot issues when the mark clears. -/
def execFigSlotClear (lane : Nat) (s : State) : Host.Outcome State Fault Refusal :=
  .next (match (s.lane lane).cur with
    | none => s
    | some e => match e.hold with
      | some (.slot n) =>
        if (s.core (lane / 64)).slotBusy n then s
        else s.modLane lane (fun l => { l with cur := some { e with hold := none } })
      | _ => s)

/-- R247. A figure request of a slot that stands in a core's path and is a slice's to take. -/
def State.figWaiting (s : State) (slice asid slot : Nat) : Option (Nat × PathEntry) :=
  s.cores.findSome? (fun c => (c.2.path.find? (fun e => match e.kind with
    | .figure n _ => n == slot && e.asid == asid && figSlice (figFlags (s.figEntry e.region.figTable n)) e.pa == slice
    | _ => false)).map (fun e => (c.1, e)))

/-- R247. A slice that holds a request but not its definition reads it from the figure table, through the entry's home slice, in place
of its least recently used one. -/
def execDefinitionCacheFill (slice asid k : Nat) (s : State) : Host.Outcome State Fault Refusal :=
  .next (match s.figWaiting slice asid k with
    | none => s
    | some w =>
      let c := tabGet [] s.defCache slice
      let at_ := w.2.region.figTable + 128 * k
      if c.any (fun d => d.asid == asid && d.slot == k) then s
      else s.serveAt false at_ (fun t =>
        let u := t.touchHome (w.2.region.asker w.1) false at_ 0 false
        let d : DefEntry := { asid := asid, slot := k, image := u.figEntry w.2.region.figTable k }
        { u with defCache := tabPut [] u.defCache slice ((d :: c).take 256) }))

/-- R242. An update unit runs one figure request's micro-program against the granule. -/
def execFigureExecute (core k : Nat) (s : State) : Host.Outcome State Fault Refusal :=
  .next (match s.mayAccept core k with
    | none => s
    | some e => match e.kind with
      | .figure slot x => s.figServe core k e slot x
      | _ => s)

/-- R252. A combinable figure request merges into, or allocates, a slice combining-buffer entry. -/
def execFigureCombine (core k : Nat) (s : State) : Host.Outcome State Fault Refusal :=
  .next (match s.mayAccept core k with
    | none => s
    | some e => match e.kind with
      | .figure slot x => s.figCombine core k e slot x
      | _ => s)

/-- R252. A combining entry is applied 64 clk after its allocation. -/
def execCombineEntryAge (slice k : Nat) (s : State) : Host.Outcome State Fault Refusal :=
  .next (match (s.entriesOf slice)[k]? with
    | none => s
    | some c => if 64 ≤ s.clockOfDie (dieOfSlice slice) - c.born then s.applyEntries (fun x => x == c) else s)

/-- R251. The channel update unit runs a TILE figure on its granule after the lead slice's write-back. -/
def execTileFigureChannel (k : Nat) (s : State) : Host.Outcome State Fault Refusal :=
  .next (match s.tileFigs[k]? with
    | none => s
    | some f =>
      if (s.tileFigs.take k).any (fun x => x.granule == f.granule) then s
      else
        let s1 := (s.readLine false (f.granule / 128)).readLine false (f.granule / 128 + 1)
        ({ s1 with tileFigs := s1.tileFigs.eraseIdx k }.figExecute f.req).refetch)

/-- R245. Once earlier FIGs to the slot are done, the definition is installed and the summaries updated. -/
def execFigldApply (k : Nat) (s : State) : Host.Outcome State Fault Refusal :=
  .next (match s.figLoadReady k with
    | none => s
    | some f => match f.image with
      | none => s
      | some img =>
        s.figApply k f (fun t => ((t.figInstall k f (validImage img)).returnStatus f.squad f.dest 0).modSquad f.squad (fun sq =>
          { sq with ocLd := sq.ocLd - 1 })))

/-- R246. Once earlier FIGs to the slot are done, the slot is emptied. -/
def execFigunldApply (k : Nat) (s : State) : Host.Outcome State Fault Refusal :=
  .next (match s.figLoadReady k with
    | none => s
    | some f => match f.image with
      | some _ => s
      | none => s.figApply k f (fun t => (t.figInstall k f (List.replicate 128 0)).modSquad f.squad (fun x => x.waitedFor (.figunld f.id))))

end Sys2Proof.Machine
end

