-- ==== Sys2Proof/Machine/Copy.lean ====
section
/-!
DEFINITION. The copy engine: layout records, their checks, canonical blocks, the rows of a copy, starting and retiring
(R121 to R123, R175 to R185, R188, R189).
-/
namespace Sys2Proof.Machine

/-- R172. The size of the weight buffer. -/
def wbSize : Nat := 0x200000

/-- R151. The size of ACC space. -/
def accSize : Nat := 0x800000

/-- n rounded up to a multiple of k. -/
def roundUp (k n : Nat) : Nat := (n + k - 1) / k * k

/-- A quotient rounded up. -/
def ceilDiv (a b : Nat) : Nat := (a + b - 1) / b

/-- Field of n bytes at a place of an image. -/
def fld (img : List Byte) (at_ n : Nat) : Nat := leVal ((img.drop at_).take n)

/-- A signed 32-bit field. -/
def fldS (img : List Byte) (at_ : Nat) : Int := sx 32 (fld img at_ 4)

/-- R176. The fields of a layout record. -/
def recSrc (r : List Byte) : Nat := fld r 0 8
def recDst (r : List Byte) : Nat := fld r 8 8
def recExt (r : List Byte) (d : Nat) : Nat := fld r (0x10 + 2 * d) 2 + 1
def recStride (r : List Byte) (d : Nat) : Int := fldS r (0x18 + 4 * d)
def recScale (r : List Byte) : Nat := fld r 0x28 8
def recZero (r : List Byte) : Nat := fld r 0x30 8
def recFmt (r : List Byte) : Nat := fld r 0x38 1
def recBlkCode (r : List Byte) : Nat := fld r 0x39 1 % 4
def recMode (r : List Byte) : Nat := fld r 0x3A 1
def recSide (r : List Byte) : Nat := recMode r % 4
def recKdim (r : List Byte) : Nat := recMode r / 4 % 4
def recScr (r : List Byte) : Bool := bitOf (recMode r) 4
def recWide (r : List Byte) : Bool := bitOf (recMode r) 5
def recRound (r : List Byte) : Nat := fld r 0x3B 1 % 8
def recSat (r : List Byte) : Bool := bitOf (fld r 0x3B 1) 3
def recSeed (r : List Byte) : Nat := fld r 0x3C 4

/-- R176. The storage block size: 0 for none. -/
def recBlk (r : List Byte) : Nat := match recBlkCode r with
  | 1 => 16
  | 2 => 32
  | _ => 0

/-- R176. The storage formats Q4 and RAW. -/
def fmtQ4 : Nat := 16
def fmtRaw : Nat := 31

/-- R176. Is a storage format code defined? -/
def fmtDefined (f : Nat) : Bool := decide (f ≤ 5) || f == 7 || f == 8 || f == fmtQ4 || f == fmtRaw

/-- R178, R182. Formats that take block scales. -/
def fmtScaled (f : Nat) : Bool := f == 3 || f == 4 || f == 5

/-- R182, R183, R178. Element width in bits on the storage side. -/
def storeBits (k : CopyKind) (f : Nat) : Nat :=
  if f = fmtQ4 then 4
  else if f = fmtRaw then (match k with
    | .cpout => 32
    | .cpin => 8
    | .cpwb => 8
    | .mcast => 8)
  else cvtWidth f

/-- R178. Is the canonical class C16? -/
def recC16 (r : List Byte) : Bool := recFmt r == 2 || recWide r

/-- R178. Is it an integer panel? -/
def recInt (r : List Byte) : Bool := recFmt r == 7 || recFmt r == 8

/-- R177. The number of storage rows. -/
def recRows (r : List Byte) : Nat := recExt r 1 * recExt r 2 * recExt r 3

/-- R177. The effective byte strides of dimensions 0 to 3. -/
def effStride (k : CopyKind) (r : List Byte) (d : Nat) : Int :=
  let bits := storeBits k (recFmt r)
  let size : Int := if bits = 4 then 1 else (bits / 8 : Nat)
  let st0 : Int := (if recStride r 0 = 0 then 1 else recStride r 0) * size
  let st1 : Int := if recStride r 1 ≠ 0 then recStride r 1
    else if bits = 4 then (ceilDiv (recExt r 0) 2 : Nat) else recExt r 0 * st0
  let st2 : Int := if recStride r 2 ≠ 0 then recStride r 2 else recExt r 1 * st1
  match d with
  | 0 => st0
  | 1 => st1
  | 2 => st2
  | _ => if recStride r 3 ≠ 0 then recStride r 3 else recExt r 2 * st2

/-- R177. The byte of an element of the storage side, and the place of its lowest bit in that byte. -/
def storeAt (k : CopyKind) (r : List Byte) (base : Nat) (i0 i1 i2 i3 : Nat) : Int × Nat :=
  let row : Int := base + i1 * effStride k r 1 + i2 * effStride k r 2 + i3 * effStride k r 3
  if storeBits k (recFmt r) = 4 then (row + (i0 / 2 : Nat), 4 * (i0 % 2)) else (row + i0 * effStride k r 0, 0)

/-- R177. The coordinates of dimensions 1 to 3 of storage row ρ. -/
def rowCoords (r : List Byte) (ρ : Nat) : Nat × Nat × Nat :=
  (ρ % recExt r 1, ρ / recExt r 1 % recExt r 2, ρ / (recExt r 1 * recExt r 2))

/-- R189. The bounding range of the storage tensor: its lowest and highest byte. -/
def storeSpan (k : CopyKind) (r : List Byte) (base : Nat) : Int × Int :=
  let bits := storeBits k (recFmt r)
  let x0 : Int := if bits = 4 then ((recExt r 0 - 1) / 2 : Nat) else ((recExt r 0 - 1 : Nat) : Int) * effStride k r 0
  let xs := [x0, ((recExt r 1 - 1 : Nat) : Int) * effStride k r 1, ((recExt r 2 - 1 : Nat) : Int) * effStride k r 2,
             ((recExt r 3 - 1 : Nat) : Int) * effStride k r 3]
  let size : Int := if bits = 4 then 1 else (bits / 8 : Nat)
  (base + (xs.map (fun x => min 0 x)).foldl (· + ·) 0, base + (xs.map (fun x => max 0 x)).foldl (· + ·) 0 + size - 1)

/-- R177. The number of scale bytes of the tensor. -/
def scaleCount (r : List Byte) : Nat := recRows r * ceilDiv (recExt r 0) (max 1 (recBlk r))

/-- R179. K, K-blocks and Rows of a panel. -/
def panelK (r : List Byte) : Nat := recExt r (recKdim r)
def panelKB (r : List Byte) : Nat := ceilDiv (panelK r) 32
def panelDims (r : List Byte) : List Nat := [0, 1, 2, 3].filter (fun d => d != recKdim r)
def panelRows (r : List Byte) : Nat := (panelDims r).foldl (fun acc d => acc * recExt r d) 1

/-- R179. Bytes of significands of one row of a slab, and the slab's size. -/
def sigBytes (c16 : Bool) : Nat := if c16 then 64 else 32
def slabSize (c16 : Bool) (rows : Nat) : Nat := rows * sigBytes c16 + roundUp 32 rows

/-- R180. The bytes that a zero-elided panel reserves. -/
def elidedSize (kb rows : Nat) : Nat := kb * 4 + kb * (4 * ceilDiv rows 4 + 4 * rows + 32 * rows + 3)

/-- R179 to R181. The bytes that a CPIN's destination takes. -/
def panelSize (r : List Byte) : Nat :=
  if recFmt r = fmtRaw then recExt r 0 * recRows r
  else if recSide r = 2 then elidedSize (panelKB r) (panelRows r)
  else panelKB r * slabSize (recC16 r) (panelRows r)

/-- R181 to R183. The number of copy rows. -/
def copyRows (k : CopyKind) (r : List Byte) : Nat :=
  match k with
  | .cpin => if recFmt r = fmtRaw then ceilDiv (recExt r 0 * recRows r) 256 else panelKB r * panelRows r
  | .cpout => recRows r * ceilDiv (recExt r 0) 256
  | .cpwb => recRows r * ceilDiv (recExt r 0) 256
  | .mcast => fld r 0x10 4 / 128

/-- R182. The bounding range of a CPOUT's source. -/
def outSpan (r : List Byte) : Nat × Nat :=
  if recSide r < 2 then (recSrc r, recSrc r + (recRows r - 1) * 0x400 + 4 * recExt r 0 - 1)
  else (recSrc r, recSrc r + 4 * recRows r * recExt r 0 - 1)

/-- R184 check 2. -/
def copyBad1 (r : List Byte) : Bool :=
  !fmtDefined (recFmt r) || recBlkCode r == 3 || decide (4 ≤ fld r 0x39 1) || decide (64 ≤ recMode r) ||
  decide (16 ≤ fld r 0x3B 1) || decide (6 ≤ recRound r)

/-- R184 check 3. The wide and kdim bits of a CPOUT or CPWB record change nothing (log 37). -/
def copyBad2 (k : CopyKind) (r : List Byte) : Bool :=
  let f := recFmt r
  let b := recBlk r
  match k with
  | .cpin =>
    recSide r == 3 || (f == fmtRaw && (recKdim r != 0 || b != 0)) || (f == fmtQ4 && (b != 32 || recKdim r != 0)) ||
    (b != 0 && !fmtScaled f && f != fmtQ4) || (recWide r && f != 0 && f != 1) || (recSide r == 2 && recC16 r && f != fmtRaw)
  | .cpout => f == fmtQ4 || (b != 0 && !fmtScaled f)
  | .cpwb => recSide r != 0 || f != fmtRaw || b != 0 || recScr r
  | .mcast => false

/-- R184 check 4. The stride0 of a CPWB record that is neither 0 nor 1 is out of range (log 37). -/
def copyBad3 (k : CopyKind) (r : List Byte) : Bool :=
  let four := storeBits k (recFmt r) == 4 && recStride r 0 != 0 && recStride r 0 != 1
  match k with
  | .cpin => four || (recFmt r != fmtRaw && recDst r % (if recSide r = 2 then 4 else 32) != 0)
  | .cpout =>
    four || (storeBits k (recFmt r) == 4 && recExt r 0 % 2 != 0) ||
    (decide (recSide r < 2) && (recSrc r % 4 != 0 || decide (256 < recSrc r / 4 % 256 + recExt r 0)))
  | .cpwb => recStride r 0 != 0 && recStride r 0 != 1
  | .mcast => false

/-- R184 check 5. The scratch ranges of a copy, by block offset. -/
def copyScratch (k : CopyKind) (r : List Byte) : List (Int × Int) :=
  let n : Int := (scaleCount r : Nat)
  let sc (base : Nat) : List (Int × Int) :=
    if recScr r then
      storeSpan k r base :: (if recBlk r = 0 then [] else [((recScale r : Int), recScale r + n - 1)]) ++
      (if recFmt r = fmtQ4 then [((recZero r : Int), recZero r + (n + 1) / 2 - 1)] else [])
    else []
  match k with
  | .cpin => (if recSide r = 0 then [((recDst r : Int), (recDst r : Int) + panelSize r - 1)] else []) ++ sc (recSrc r)
  | .cpout => (if 2 ≤ recSide r then [(((outSpan r).1 : Int), ((outSpan r).2 : Int))] else []) ++ sc (recDst r)
  | .cpwb => []
  | .mcast => []

/-- R184 check 5. The lowest offending offset of ranges against a size. How a negative offset counts is the model's choice (log 37): each
range gives its lowest offending byte as a 64-bit pattern in two's complement, a negative one its first, and the least of these patterns as
unsigned numbers is reported. -/
def outOfBound (size : Nat) (rs : List (Int × Int)) : Option Nat :=
  let bad := (rs.filter (fun x => decide (x.1 < 0) || decide ((size : Int) ≤ x.2))).map (fun x =>
    modW 64 (if x.1 < 0 then x.1 else max x.1 size))
  match bad with
  | [] => none
  | a :: t => some (t.foldl min a)

/-- R184 check 5 on an ACC source. -/
def accOut (k : CopyKind) (r : List Byte) : Option Nat :=
  match k with
  | .cpout => if recSide r < 2 ∧ accSize ≤ (outSpan r).2 then some (max (outSpan r).1 accSize) else none
  | .cpin => none
  | .cpwb => none
  | .mcast => none

/-- R184 check 6. The weight-buffer range of a copy. -/
def copyWb (k : CopyKind) (r : List Byte) : Option (Nat × Nat) :=
  match k with
  | .cpin => if recSide r = 0 then none else some (recDst r, recDst r + panelSize r - 1)
  | .cpwb => some (recSrc r, recSrc r + recExt r 0 * recRows r - 1)
  | .cpout => none
  | .mcast => none

/-- R184 check 7, R191. The lowest locked byte that a range touches. -/
def lockHit (locks : List (Nat × Nat)) (lo hi : Nat) : Option Nat :=
  let hits := (locks.filter (fun l => decide (l.1 ≤ hi) && decide (lo < l.1 + l.2))).map (fun l => max lo l.1)
  match hits with
  | [] => none
  | a :: t => some (t.foldl min a)

/-- The lesser of two places that may be absent. -/
def minOpt (a b : Option Nat) : Option Nat :=
  match a, b with
  | some x, some y => some (min x y)
  | some x, none => some x
  | none, y => y

/-- R184. The checks 2 to 7 of a copy: cause, xaddr and detail of the first that fails. -/
def copyCheck (k : CopyKind) (r : List Byte) (size : Nat) (locks : List (Nat × Nat)) : Option (Nat × Nat × Nat) :=
  if copyBad1 r then some (causeIllegal, 0, 1)
  else if copyBad2 k r then some (causeIllegal, 0, 2)
  else if copyBad3 k r then some (causeIllegal, 0, 3)
  else match minOpt (outOfBound size (copyScratch k r)) (accOut k r) with
    | some a => some (causeSbound, a, 0)
    | none => match copyWb k r with
      | none => none
      | some w =>
        if wbSize ≤ w.2 then some (causeIllegal, w.1, 4)
        else if k == .cpin then (lockHit locks w.1 w.2).map (fun a => (causeBinding, a, 5))
        else none

/-- A byte range of a core: 0 scratch by core byte, 1 the weight buffer, 2 the accumulator store. -/
structure CoreRange where
  space : Nat
  lo : Nat
  hi : Nat
  deriving DecidableEq, Repr

/-- Do two ranges share a byte? -/
def CoreRange.meets (a b : CoreRange) : Bool := a.space == b.space && decide (a.lo ≤ b.hi) && decide (b.lo ≤ a.hi)

/-- R175. A scratch range by block offset, as a core range. -/
def scratchRange (base : Nat) (x : Int × Int) : CoreRange := { space := 0, lo := base + x.1.toNat, hi := base + x.2.toNat }

/-- R175, R189. What a copy reads of its core. -/
def CopyOp.reads (c : CopyOp) : List CoreRange :=
  let r := c.image
  match c.kind with
  | .cpin => (if recScr r then copyScratch .cpin r else []).filterMap (fun x =>
      if recSide r = 0 && x == ((recDst r : Int), (recDst r : Int) + panelSize r - 1) then none else some (scratchRange c.base x))
  | .cpout =>
    if recSide r < 2 then [{ space := 2, lo := (outSpan r).1, hi := (outSpan r).2 }]
    else [{ space := 0, lo := c.base + (outSpan r).1, hi := c.base + (outSpan r).2 }]
  | .cpwb => [{ space := 1, lo := recSrc r, hi := recSrc r + recExt r 0 * recRows r - 1 }]
  | .mcast => []

/-- R175, R189. What a copy writes of its core. -/
def CopyOp.writes (c : CopyOp) : List CoreRange :=
  let r := c.image
  match c.kind with
  | .cpin =>
    if recSide r = 0 then [{ space := 0, lo := c.base + recDst r, hi := c.base + recDst r + panelSize r - 1 }]
    else [{ space := 1, lo := recDst r, hi := recDst r + panelSize r - 1 }]
  | .cpout =>
    if recScr r then
      scratchRange c.base (storeSpan .cpout r (recDst r)) ::
        (if recBlk r = 0 then [] else [{ space := 0, lo := c.base + recScale r, hi := c.base + recScale r + scaleCount r - 1 }])
    else []
  | .cpwb => []
  | .mcast => []

/-- R188. The ranges that a copy enters in the range scoreboard. -/
def CopyOp.boards (c : CopyOp) : List BoardRange :=
  (c.writes.head?.toList.filter (fun x => x.space == 0)).map (fun x => { lo := x.lo, hi := x.hi, op := c.id })

/-- R189. The ranges that a copy enters in the bindings. -/
def CopyOp.binds (c : CopyOp) : List Binding :=
  match c.kind with
  | .cpin =>
    if recScr c.image then
      let x := scratchRange c.base (storeSpan .cpin c.image (recSrc c.image))
      [{ acc := false, lo := x.lo, hi := x.hi, excl := false, op := c.id }]
    else []
  | .cpout => (c.reads.head?.toList).map (fun x => { acc := x.space == 2, lo := x.lo, hi := x.hi, excl := x.space == 2, op := c.id })
  | .cpwb => []
  | .mcast => []

/-- R121 to R123. One canonical block of floating elements: exponent byte, significands, underflows. -/
def canonBlock (c16 : Bool) (xs : List FVal) : Nat × List Int × Nat :=
  let lim : Int := if c16 then 32768 else 128
  let sh : Int := if c16 then 14 else 6
  let bad := xs.any (fun x => match x with
    | .fin _ _ _ => false
    | .inf _ => true
    | .nan _ => true)
  let fl (x : FVal) : Option Int := match x with
    | .fin _ m e => if m = 0 then none else some ((Nat.log2 m : Nat) + e)
    | .inf _ => none
    | .nan _ => none
  let form (E : Int) : List Int := xs.map (fun x => match x with
    | .fin _ m e => roundToInt .rne false m (e + sh - E) 0
    | .inf _ => 0
    | .nan _ => 0)
  if bad then (0xFF, xs.map (fun _ => 0), 0)
  else match xs.filterMap fl with
    | [] => (0, xs.map (fun _ => 0), 0)
    | a :: t =>
      let E0 := max (-127) (t.foldl max a)
      let E1 := if (form E0).any (· == lim) then E0 + 1 else E0
      let mags := form E1
      let under := ((xs.zip mags).filter (fun p => p.2 == 0 && (match p.1 with
        | .fin _ m _ => m != 0
        | .inf _ => false
        | .nan _ => false))).length
      let sig := (xs.zip mags).map (fun p => match p.1 with
        | .fin neg _ _ => if neg then -p.2 else p.2
        | .inf _ => 0
        | .nan _ => 0)
      if E1 ≤ 127 then ((E1 + 127).toNat, sig, under)
      else (254, sig.map (fun v => max (1 - lim) (min (lim - 1) (v * 2 ^ (E1 - 127).toNat))), under)

/-- R104, R121, R123. One canonical block of Q4: its scale code, zero point and codes. -/
def q4Block (c z : Nat) (qs : List (Option Nat)) : Nat × List Int :=
  let sig (q : Option Nat) : Int := match q with
    | some v => (v : Int) - z
    | none => 0
  if c = 0xFF then (0xFF, qs.map (fun _ => 0))
  else if 127 < (c : Int) - 121 then
    (254, qs.map (fun q => max (-127) (min 127 (sig q * 2 ^ (c - 248)))))
  else (c + 6, qs.map sig)

/-- What a copy row meets (R185). -/
inductive RowFault where
  | error (cause addr detail : Nat)
  | park (pages kinds : List Nat)
  /-- R181, R251. It waits for a store of its squad, or for a granule. -/
  | later
  /-- R150. A bank has served another access in this clock. -/
  | bank
  deriving DecidableEq, Repr

/-- R181, R224, R226. The physical places of GLOBAL bytes that a copy reads or writes, or the row's fault; misses start walks. -/
def State.rowPages (s : State) (core : Nat) (c : CopyOp) (write : Bool) (vas : List Nat) :
    State × Except RowFault (List (Bool × Nat × Page)) :=
  let need : Need := if write then { w := true } else { r := true }
  let els := vas.map (fun v => (0, v))
  (s.startWalks core c.region els,
   match s.checkGlobal core c.region need (c.sec || !write) els with
   | .trap cause xaddr detail => .error (.error cause xaddr.toNat detail)
   | .park pages kinds => .error (.park pages [kinds])
   | .ok _ => .ok (vas.map (fun v => match s.translateIn core c.region v with
      | .page p => (p.host, p.pa v, p)
      | .absent => (false, 0, { base := 0, size := 4096, leaf := 0 })
      | .malformed => (false, 0, { base := 0, size := 4096, leaf := 0 }))))

/-- R181. Does an earlier store or atomic of the copy's squad still stand before one of these lines? -/
def State.rowBehind (s : State) (core : Nat) (c : CopyOp) (ps : List (Bool × Nat × Page)) : Bool :=
  let k := s.core core
  (k.path ++ k.held).any (fun e => e.squad == c.squad && decide (e.op < c.id) && ps.any (fun p => e.onLine p.1 p.2.1))

/-- The distinct lines of HBM places. -/
def linesOf (ps : List (Bool × Nat × Page)) : List (Nat × Page) :=
  ((ps.filter (fun p => !p.1)).foldl (fun (acc : List (Nat × Page)) p =>
    if acc.any (fun l => l.1 == p.2.1 / 128) then acc else acc ++ [(p.2.1 / 128, p.2.2)]) [])

/-- R211, R251, R252. The homes of the lines of a row are ready to serve it: no granule held, nothing left in a combining buffer. -/
def State.readyLines (s : State) (ls : List Nat) : State × Bool :=
  if ls.any (fun l => s.granuleHeld (l * 128)) then (s, false)
  else
    let s1 := ls.foldl (fun acc l => acc.applyLine false (l * 128)) s
    (s1, ls.all (fun l => s1.lineFree (l * 128)))

/-- R152. The lines of a row reach their homes. -/
def State.touchLines (s : State) (w : Asker) (ls : List (Nat × Page)) (write : Bool) : State :=
  ls.foldl (fun acc l => acc.touchHome w false (l.1 * 128) l.2.home write) s

/-- R181, R185. Read GLOBAL bytes for a copy row. -/
def State.rowRead (s : State) (core : Nat) (c : CopyOp) (vas : List Nat) : State × Except RowFault (List Byte) :=
  match s.rowPages core c false vas with
  | (s0, .error e) => (s0, .error e)
  | (s0, .ok ps) =>
    if s0.rowBehind core c ps then (s0, .error .later)
    else match s0.readyLines ((linesOf ps).map (·.1)) with
    | (s1, false) => (s1, .error .later)
    | (s1, true) =>
      let s2 := s1.touchLines (c.region.asker core) (linesOf ps) false
      match (vas.zip ps).find? (fun x => !x.2.1 && s2.isPoisoned x.2.2.1) with
      | some x => (s2, .error (.error causePoison x.1 1))
      | none => (s2, .ok (ps.map (fun p => s2.homeByte p.1 p.2.1)))

/-- R183, R185, R201, R331. Write GLOBAL bytes of a copy row: one update for each line. -/
def State.rowWrite (s : State) (core : Nat) (c : CopyOp) (items : List (Nat × Byte)) : State × Except RowFault Unit :=
  match s.rowPages core c true (items.map (·.1)) with
  | (s0, .error e) => (s0, .error e)
  | (s0, .ok ps) =>
    let ls := linesOf ps
    match s0.readyLines (ls.map (·.1)) with
    | (s1, false) => (s1, .error .later)
    | (s1, true) =>
      let s2 := (s1.touchLines (c.region.asker core) ls true).modCore core (fun k => ls.foldl (fun acc l => acc.l1Drop (l.1 * 128)) k)
      let s3 := (ps.zip items).foldl (fun acc x =>
        if x.1.1 then { acc with host := tabPut 0 acc.host x.1.2.1 x.2.2 } else acc.writeByte x.1.2.1 x.2.2) s2
      let whole (l : Nat) : Bool := (List.range 128).all (fun i => ps.any (fun p => !p.1 && p.2.1 == l * 128 + i))
      (ls.foldl (fun acc l => if whole l.1 then { acc with poisoned := tabPut false acc.poisoned l.1 false } else acc) s3, .ok ())

/-- R181. The coordinates of element i of K-block kb of destination row r. -/
def panelCoord (r : List Byte) (row k : Nat) (d : Nat) : Nat :=
  let rec go (ds : List Nat) (rem : Nat) : Nat :=
    match ds with
    | [] => 0
    | x :: t => if x = d then rem % recExt r x else go t (rem / recExt r x)
  if d = recKdim r then k else go (panelDims r) row

/-- The storage byte, bit place and scale index of element i of a panel block. -/
def panelElem (r : List Byte) (row k : Nat) : (Int × Nat) × Nat :=
  let i0 := panelCoord r row k 0
  let i1 := panelCoord r row k 1
  let i2 := panelCoord r row k 2
  let i3 := panelCoord r row k 3
  let ρ := i1 + recExt r 1 * (i2 + recExt r 2 * i3)
  (storeAt .cpin r (recSrc r) i0 i1 i2 i3, ρ * ceilDiv (recExt r 0) (max 1 (recBlk r)) + i0 / max 1 (recBlk r))

/-- R179. The bytes of row r of a dense slab. -/
def densePlaces (c16 : Bool) (slab rows r : Nat) : List Nat :=
  let w := sigBytes c16
  (List.range w).map (fun i => slab + w * r + i) ++ [slab + w * rows + r]

/-- R179. The exponent bytes beyond the last row of a dense slab, which are written with its first row. -/
def padPlaces (c16 : Bool) (slab rows r : Nat) : List Nat :=
  if r = 0 then (List.range (roundUp 32 rows - rows)).map (fun i => slab + sigBytes c16 * rows + rows + i) else []

/-- R181. The storage bytes, scale byte and zero-point byte of the elements of a panel block, in order. -/
def panelPlaces (r : List Byte) (kb row : Nat) : List (Option ((Int × Nat) × Nat)) :=
  (List.range 32).map (fun i => if 32 * kb + i < panelK r then some (panelElem r row (32 * kb + i)) else none)

/-- R181. The addresses that a panel block reads: the elements' bytes, then a scale and a zero point for each element that
has one. -/
def panelAddrs (r : List Byte) (pl : List (Option ((Int × Nat) × Nat))) : List Int :=
  let n := max 1 (storeBits .cpin (recFmt r) / 8)
  pl.flatMap (fun p => match p with
    | none => []
    | some x =>
      (List.range n).map (fun (i : Nat) => x.1.1 + (i : Int)) ++ (if recBlk r = 0 then [] else [((recScale r + x.2 : Nat) : Int)]) ++
      (if recFmt r = fmtQ4 then [((recZero r + x.2 / 2 : Nat) : Int)] else []))

/-- R181. The storage addresses that a copy row of a RAW CPIN reads. -/
def rawAddrs (r : List Byte) (row : Nat) : List Int :=
  let total := recExt r 0 * recRows r
  ((List.range 256).map (fun i => 256 * row + i) |>.filter (fun j => decide (j < total))).map (fun j =>
    let q := rowCoords r (j / recExt r 0)
    (storeAt .cpin r (recSrc r) (j % recExt r 0) q.1 q.2.1 q.2.2).1)

/-- R182. The places of the source that a copy row of a CPOUT reads: its elements, and those of the blocks that end in it. -/
def outPlaces (r : List Byte) (ρ : Nat) (i0s : List Nat) : List Nat :=
  let B := recBlk r
  let all := if B = 0 then i0s else ((List.range (recExt r 0)).filter (fun i => i0s.any (fun j => j / B == i / B)))
  all.flatMap (fun i => if recSide r < 2 then [recSrc r + ρ * 0x400 + 4 * i]
    else (List.range 4).map (fun b => recSrc r + 4 * (ρ * recExt r 0 + i) + b))

/-- R182, R183. The elements of a storage row that a copy row of a CPOUT or CPWB takes: the row, and their places in it. -/
def outElems (r : List Byte) (row : Nat) : Nat × List Nat :=
  let n := ceilDiv (recExt r 0) 256
  (row / n, (List.range 256).map (fun i => 256 * (row % n) + i) |>.filter (fun i => decide (i < recExt r 0)))

/-- R182, R183. The storage bytes that a copy row of a CPOUT or CPWB writes, its scales among them. -/
def outAddrs (k : CopyKind) (r : List Byte) (row : Nat) : List Int :=
  let o := outElems r row
  let q := rowCoords r o.1
  let B := recBlk r
  let n := max 1 (storeBits k (recFmt r) / 8)
  o.2.flatMap (fun i => (List.range n).map (fun (b : Nat) => (storeAt k r (recDst r) i q.1 q.2.1 q.2.2).1 + (b : Int))) ++
  (if B = 0 then [] else (o.2.filter (fun i => i % B == 0)).map (fun i => ((recScale r + o.1 * ceilDiv (recExt r 0) B + i / B : Nat) : Int)))

/-- R150. The core bytes of scratch that the next row of a copy reads or writes; a zero-elided panel goes to the weight buffer. -/
def CopyOp.rowPlaces (c : CopyOp) : List Nat :=
  let r := c.image
  let side (as_ : List Int) : List Nat := if recScr r then as_.map (fun a => c.base + a.toNat) else []
  match c.kind with
  | .cpin =>
    if recFmt r = fmtRaw then side (rawAddrs r c.row) ++
      (if recSide r = 0 then (List.range (rawAddrs r c.row).length).map (fun i => c.base + recDst r + 256 * c.row + i) else [])
    else
      let kb := c.row / panelRows r
      let row := c.row % panelRows r
      let slab := c.base + recDst r + kb * slabSize (recC16 r) (panelRows r)
      side (panelAddrs r (panelPlaces r kb row)) ++
        (if recSide r = 0 then densePlaces (recC16 r) slab (panelRows r) row ++ padPlaces (recC16 r) slab (panelRows r) row else [])
  | .cpout =>
    let o := outElems r c.row
    (if recSide r < 2 then [] else (outPlaces r o.1 o.2).map (fun a => c.base + a)) ++ side (outAddrs .cpout r c.row)
  | .cpwb => side (outAddrs .cpwb r c.row)
  | .mcast => []

/-- R150, R185, R188. What a copy row finds before it reads of its core: earlier accesses still on their way to the banks, a bank in use,
or poison at a place that it reads, by scratch offset, weight-buffer offset or ACC address. -/
def CoreS.rowBlocked (k : CoreS) (c : CopyOp) (space : Nat) (places : List Nat) : Option RowFault :=
  if (c.reads ++ c.writes).any (fun x => x.space == 0) && k.banksBefore c.id then some .later
  else if !k.banksFree c.rowPlaces then some .bank
  else
    let bad (a : Nat) : Bool := match space with
      | 0 => tabGet false k.badScratch (c.base + a)
      | 1 => tabGet false k.badWb a
      | _ => tabGet false k.badAcc (a / 4)
    (places.find? bad).map (fun a => .error causePoison a 1)

/-- The bytes of the storage side that a copy row reads: from scratch, or from GLOBAL. -/
def State.sideRead (s : State) (core : Nat) (c : CopyOp) (as_ : List Int) : State × Except RowFault (List Byte) :=
  let k := s.core core
  if recScr c.image then match k.rowBlocked c 0 (as_.map Int.toNat) with
    | some e => (s, .error e)
    | none => (s, .ok (as_.map (fun a => tabGet 0 k.scratch (c.base + a.toNat))))
  else match k.rowBlocked c 0 [] with
    | some e => (s, .error e)
    | none => s.rowRead core c (as_.map (fun a => modW 64 a))

/-- The bytes of the storage side that a copy row writes: to scratch, or to GLOBAL. -/
def State.sideWrite (s : State) (core : Nat) (c : CopyOp) (items : List (Int × Byte)) : State × Except RowFault Unit :=
  if recScr c.image then
    (s.modCore core (fun k => items.foldl (fun acc x => acc.scratchWrite (c.base + x.1.toNat) [x.2]) k), .ok ())
  else s.rowWrite core c (items.map (fun x => (modW 64 x.1, x.2)))

/-- R149, R186. Bytes written into the weight buffer; a byte written is poisoned no longer (log 60). -/
def CoreS.wbWrite (k : CoreS) (a : Nat) (bs : List Byte) : CoreS :=
  { k with
    wb := (List.range bs.length).foldl (fun m i => tabPut 0 m (a + i) (bs.getD i 0)) k.wb
    badWb := k.badWb.filter (fun e => !(decide (a ≤ e.1) && decide (e.1 < a + bs.length))) }

/-- R187, R311. What a CPIN writes is seen by the operations that wait for it with a saved weight buffer. -/
def CoreS.wbPass (k : CoreS) (c : CopyOp) (a : Nat) (bs : List Byte) : CoreS :=
  let put (m : Tab Byte) : Tab Byte := (List.range bs.length).foldl (fun m i => tabPut 0 m (a + i) (bs.getD i 0)) m
  { k with
    copies := k.copies.map (fun x => if x.wbFrom.contains c.id then { x with wbSaved := x.wbSaved.map put } else x)
    tiles := k.tiles.map (fun x => if x.wbFrom.contains c.id then { x with wbSaved := x.wbSaved.map put } else x) }

/-- R181. Write panel bytes: to scratch, or to the weight buffer. -/
def State.panelWrite (s : State) (core : Nat) (c : CopyOp) (at_ : Nat) (bs : List Byte) : State :=
  if recSide c.image = 0 then s.modCore core (fun k => k.scratchWrite (c.base + at_) bs)
  else s.modCore core (fun k => (k.wbWrite at_ bs).wbPass c at_ bs)

/-- R181. The 64 KiB units that a write of n bytes touches. -/
def unitsOf (at_ n : Nat) : Word := BitVec.ofNat 32 ((List.range 32).foldl (fun acc u =>
  if u * 65536 < at_ + n ∧ at_ < (u + 1) * 65536 then acc + 2 ^ u else acc) 0)

/-- R146, R181. A copy that has written bytes of its panel: how many in this row, and which units of the weight buffer. -/
def CopyOp.note (c : CopyOp) (at_ n : Nat) : CopyOp :=
  { c with wrote := c.wrote + n, units := if recSide c.image = 0 || n == 0 then c.units else c.units ||| unitsOf at_ n }

/-- R181. The writes of a panel row, with what the copy notes of them. -/
def State.panelWrites (s : State) (core : Nat) (c : CopyOp) (ws : List (Nat × List Byte)) : State × CopyOp :=
  ws.foldl (fun acc w => (acc.1.panelWrite core c w.1 w.2, acc.2.note w.1 w.2.length)) (s, c)

/-- An element's bits from the bytes that hold it. -/
def elemBits (bits : Nat) (bs : List Byte) (place : Nat) : Nat := leVal bs / 2 ^ place % 2 ^ bits

/-- R177. A scale's factor on a datum; code 0xFF stands for a NaN. -/
def scaled (c : Nat) (x : FVal) : FVal :=
  if c = 0xFF then .nan false
  else match x with
    | .fin n m e => .fin n m (e + (c : Int) - 127)
    | .inf n => .inf n
    | .nan n => .nan n

/-- The significands and exponent byte of one panel row: byte, significands, underflows. -/
def panelBlock (r : List Byte) (vals : List (Option (Nat × Nat × Nat))) : Nat × List Int × Nat :=
  let f := recFmt r
  let bits := storeBits .cpin f
  if recInt r then (0x7F, vals.map (fun v => match v with
      | some x => sx bits x.1
      | none => 0), 0)
  else if f = fmtQ4 then
    let h := vals.findSome? id
    let b := q4Block (h.getD (0, 0, 0)).2.1 (h.getD (0, 0, 0)).2.2 (vals.map (fun v => v.map (·.1)))
    (b.1, b.2, 0)
  else
    let dec (v : Option (Nat × Nat × Nat)) : FVal := match v, cvtFloat f with
      | some x, some fm => if recBlk r = 0 then fm.decode x.1 else scaled x.2.1 (fm.decode x.1)
      | _, _ => .fin false 0 0
    canonBlock (recC16 r) (vals.map dec)

/-- R179. The little-endian bytes of significands. -/
def sigData (c16 : Bool) (sig : List Int) : List Byte := sig.flatMap (fun v => if c16 then leBytes 2 (modW 16 v) else [BitVec.ofNat 8 (modW 8 v)])

/-- R179, R180. Write a row's block into its slab: dense, or zero-elided. -/
def State.putBlock (s : State) (core : Nat) (c : CopyOp) (kb row : Nat) (b : Nat × List Int × Nat) : State × CopyOp :=
  let r := c.image
  let rows := panelRows r
  let dst := recDst r
  if recSide r = 2 then
    let tab := panelKB r * 4
    let exps := roundUp 4 rows
    let slab := if row = 0 then (if kb = 0 then tab else roundUp 4 c.next) else c.slab
    let next := if row = 0 then slab + exps + 4 * rows else c.next
    let nz := b.2.1.filter (· != 0)
    let mask := (List.range 32).foldl (fun acc i => if b.2.1.getD i 0 ≠ 0 then acc + 2 ^ i else acc) 0
    let after := next + nz.length
    s.panelWrites core { c with slab := slab, next := after }
      ((if row = 0 then [(dst + 4 * kb, leBytes 4 slab), (dst + slab + rows, List.replicate (exps - rows) 0)] else []) ++
       [(dst + slab + row, [BitVec.ofNat 8 b.1]), (dst + slab + exps + 4 * row, leBytes 4 mask), (dst + next, sigData false nz)] ++
       (if row + 1 = rows then [(dst + after, List.replicate (roundUp 4 after - after) 0)] else []))
  else
    let c16 := recC16 r
    let w := sigBytes c16
    let slab := dst + kb * slabSize c16 rows
    s.panelWrites core c
      ([(slab + w * row, sigData c16 b.2.1), (slab + w * rows + row, [BitVec.ofNat 8 b.1])] ++
       (if row = 0 then [(slab + w * rows + rows, List.replicate (roundUp 32 rows - rows) 0)] else []))

/-- The elements of a panel block from its bytes: bits, scale code, zero point. -/
def panelVals (r : List Byte) (pl : List (Option ((Int × Nat) × Nat))) (bs : List Byte) : List (Option (Nat × Nat × Nat)) :=
  match pl with
  | [] => []
  | none :: t => none :: panelVals r t bs
  | some x :: t =>
    let bits := storeBits .cpin (recFmt r)
    let n := max 1 (bits / 8)
    let k := n + (if recBlk r = 0 then 0 else 1) + (if recFmt r = fmtQ4 then 1 else 0)
    let zb := (bs.getD (n + 1) 0).toNat / 2 ^ (4 * (x.2 % 2)) % 16
    some (elemBits bits (bs.take n) x.1.2, (if recBlk r = 0 then 0 else (bs.getD n 0).toNat), zb) :: panelVals r t (bs.drop k)

/-- R181. One copy row of a CPIN. -/
def State.rowIn (s : State) (core : Nat) (c : CopyOp) : State × Except RowFault CopyOp :=
  let r := c.image
  if recFmt r = fmtRaw then
    match s.sideRead core c (rawAddrs r c.row) with
    | (s1, .error e) => (s1, .error e)
    | (s1, .ok bs) =>
      let p := s1.panelWrites core c [(recDst r + 256 * c.row, bs)]
      (p.1, .ok p.2)
  else
    let kb := c.row / panelRows r
    let row := c.row % panelRows r
    let pl := panelPlaces r kb row
    match s.sideRead core c (panelAddrs r pl) with
    | (s1, .error e) => (s1, .error e)
    | (s1, .ok bs) =>
      let b := panelBlock r (panelVals r pl bs)
      let p := s1.putBlock core { c with under := c.under + b.2.2 } kb row b
      (p.1, .ok p.2)

/-- R182. The 32 bits of source element i0 of row ρ of a CPOUT. -/
def State.outElem (s : State) (core : Nat) (c : CopyOp) (ρ i0 : Nat) : Nat :=
  let r := c.image
  let k := s.core core
  if recSide r < 2 then (tabGet 0 k.acc ((recSrc r + ρ * 0x400 + 4 * i0) / 4)).toNat
  else leVal (k.scratchRead (c.base + recSrc r + 4 * (ρ * recExt r 0 + i0)) 4)

/-- R182. The scale of a storage block of a CPOUT, from its source data. -/
def outScale (f : Nat) (xs : List FVal) : Nat :=
  let emax : Int := match f with
    | 3 => 8
    | 4 => 15
    | _ => 2
  let bad := xs.any (fun x => match x with
    | .fin _ _ _ => false
    | .inf _ => true
    | .nan _ => true)
  let fl := xs.filterMap (fun x => match x with
    | .fin _ m e => if m = 0 then none else some ((Nat.log2 m : Nat) + e)
    | .inf _ => none
    | .nan _ => none)
  if bad then 0xFF
  else match fl with
    | [] => 0
    | a :: t => (min 254 (max 0 (t.foldl max a - emax + 127))).toNat

/-- R182. One element of a CPOUT: its storage bits, and the generator after it. -/
def outConvert (r : List Byte) (mode : RMode) (scale : Option Nat) (v : Nat) (g : Word) : Nat × Word :=
  let f := recFmt r
  let i32 := recSide r % 2 = 1
  if f = fmtRaw || (f = 0 && !i32) then (v, g)
  else
    let g1 := if mode == .rs && !(i32 && (f == 7 || f == 8)) then genAdvance g else g
    let x : FVal := if i32 then FVal.ofInt (sx 32 v) else Fmt.decode .f32 v
    match scale, cvtFloat f with
    | some c, some fm =>
      if c = 0xFF then (fm.nanBits, g1)
      else if c = 0 && (match x with
        | .fin _ m _ => m == 0
        | .inf _ => false
        | .nan _ => false) then (convertFloat fm mode (recSat r) x g1, g1)
      else (convertFloat fm mode (recSat r) (match x with
        | .fin n m e => .fin n m (e + 127 - (c : Int))
        | .inf n => .inf n
        | .nan n => .nan n) g1, g1)
    | _, _ => (cvtElem f (if i32 then 10 else 0) mode (recSat r) v g1, g1)

/-- R182. The elements of a copy row of a CPOUT, with the generator carried along. -/
def outRow (r : List Byte) (mode : RMode) (vs : List (Option Nat × Nat)) (g : Word) : List Nat × Word :=
  match vs with
  | [] => ([], g)
  | v :: t =>
    let a := outConvert r mode v.1 v.2 g
    let b := outRow r mode t a.2
    (a.1 :: b.1, b.2)

/-- R182, R185. One copy row of a CPOUT: up to 256 elements of a storage row, and the scales of the blocks that end in it. Poison of its
source is met before a fault of its destination pages, which is the model's choice (log 37). -/
def State.rowOut (s : State) (core : Nat) (c : CopyOp) : State × Except RowFault CopyOp :=
  let r := c.image
  let bits := storeBits .cpout (recFmt r)
  let B := recBlk r
  let ρ := (outElems r c.row).1
  let i0s := (outElems r c.row).2
  let q := rowCoords r ρ
  let datum (v : Nat) : FVal := if recSide r % 2 = 1 then FVal.ofInt (sx 32 v) else Fmt.decode .f32 v
  let scale (b : Nat) : Nat := outScale (recFmt r)
    ((List.range B).filterMap (fun j => if b * B + j < recExt r 0 then some (datum (s.outElem core c ρ (b * B + j))) else none))
  let vs := i0s.map (fun i => (if B = 0 then none else some (scale (i / B)), s.outElem core c ρ i))
  let mode := if recRound r = 5 then c.rm else rmodeOf (recRound r)
  let o := outRow r mode vs c.gen
  let at_ (i : Nat) : Int × Nat := storeAt .cpout r (recDst r) i q.1 q.2.1 q.2.2
  let items : List (Int × Byte) := if bits = 4 then
      (List.range (o.1.length / 2)).map (fun j =>
        ((at_ (i0s.getD (2 * j) 0)).1, BitVec.ofNat 8 (o.1.getD (2 * j) 0 % 16 + 16 * (o.1.getD (2 * j + 1) 0 % 16))))
    else (i0s.zip o.1).flatMap (fun p => (leBytes (bits / 8) p.2).zipIdx.map (fun b => ((at_ p.1).1 + (b.2 : Int), b.1)))
  let scs : List (Int × Byte) := if B = 0 then [] else
    (i0s.filter (fun i => i % B == 0)).map (fun i =>
      (((recScale r + ρ * ceilDiv (recExt r 0) B + i / B : Nat) : Int), BitVec.ofNat 8 (scale (i / B))))
  match (s.core core).rowBlocked c (if recSide r < 2 then 2 else 0) (outPlaces r ρ i0s) with
  | some e => (s, .error e)
  | none => match s.sideWrite core c (items ++ scs) with
    | (s1, .error e) => (s1, .error e)
    | (s1, .ok ()) => (s1, .ok { c with gen := o.2, wrote := c.wrote + items.length + scs.length })

/-- R183, R185. One copy row of a CPWB; poison of its source is met before a fault of its destination pages (log 37). -/
def State.rowWb (s : State) (core : Nat) (c : CopyOp) : State × Except RowFault CopyOp :=
  let r := c.image
  let ρ := (outElems r c.row).1
  let i0s := (outElems r c.row).2
  let q := rowCoords r ρ
  let wb := c.wbSaved.getD (s.core core).wb
  match (s.core core).rowBlocked c 1 (if c.wbSaved.isSome then [] else i0s.map (fun i => recSrc r + ρ * recExt r 0 + i)) with
  | some e => (s, .error e)
  | none => match s.sideWrite core c (i0s.map (fun i =>
      ((storeAt .cpwb r (recDst r) i q.1 q.2.1 q.2.2).1, tabGet 0 wb (recSrc r + ρ * recExt r 0 + i)))) with
    | (s1, .error e) => (s1, .error e)
    | (s1, .ok ()) => (s1, .ok { c with wrote := c.wrote + i0s.length })

/-- R319. The number of devices that a destination string names. -/
def destCount (leaf port : Reg) : Nat := popNat 64 leaf.toNat * popNat 64 port.toNat

/-- R319. The destination of a multicast packet before its leaf switch has split it: no device has this number. -/
def leafSwitch : Nat := 4096

/-- R319. The addresses of a line of an MCAST's source. -/
def castAddrs (r : List Byte) (row : Nat) : List Nat := (List.range 128).map (fun i => (recSrc r + 128 * row + i) % 2 ^ 64)

/-- R185, R323. The GLOBAL addresses that the next row of a copy reads or writes. -/
def CopyOp.rowVas (c : CopyOp) : List Nat :=
  let r := c.image
  let sides (as_ : List Int) : List Nat := if recScr r then [] else as_.map (fun a => modW 64 a)
  match c.kind with
  | .cpin => sides (if recFmt r = fmtRaw then rawAddrs r c.row else panelAddrs r (panelPlaces r (c.row / panelRows r) (c.row % panelRows r)))
  | .cpout => sides (outAddrs .cpout r c.row)
  | .cpwb => sides (outAddrs .cpwb r c.row)
  | .mcast => castAddrs r c.row

/-- R319. One line of an MCAST: read as a copy reads, and sent to its leaf switch. It counts 128 bytes in source 0x0E (log 67). -/
def State.rowCast (s : State) (core : Nat) (c : CopyOp) : State × Except RowFault CopyOp :=
  let r := c.image
  match s.rowRead core c (castAddrs r c.row) with
  | (s1, .error e) => (s1, .error e)
  | (s1, .ok bs) =>
    (s1.podSend { id := 0, src := s1.own, dst := leafSwitch, core := core, off := recDst r + 128 * c.row,
                  kind := .cast c.id c.leaf c.port bs, region := c.region, sname := c.sname, code := c.code },
     .ok { c with pending := c.pending + destCount c.leaf c.port, wrote := c.wrote + 128 })

/-- R181 to R183. One copy row. -/
def State.rowDo (s : State) (core : Nat) (c : CopyOp) : State × Except RowFault CopyOp :=
  let c0 := { c with wrote := 0 }
  match c.kind with
  | .cpin => s.rowIn core c0
  | .cpout => s.rowOut core c0
  | .cpwb => s.rowWb core c0
  | .mcast => s.rowCast core c0

/-- A copy of a core replaced. -/
def CoreS.putCopy (k : CoreS) (c : CopyOp) : CoreS := { k with copies := k.copies.map (fun x => if x.id = c.id then c else x) }

/-- R234. The record of a copy's error. -/
def CopyOp.record (c : CopyOp) (core cause addr detail : Nat) : FaultRec :=
  { addr := addr, cause := cause, detail := detail, source := 1, cores := coreBit core, die := dieOfCore core,
    sname := c.sname.toNat, code := c.code.toNat }

/-- R185. A copy ends with error. -/
def State.copyError (s : State) (core : Nat) (c : CopyOp) (cause addr detail : Nat) : State :=
  (s.postRegion c.region (dieOfCore core) (c.record core cause addr detail)).modCore core
    (fun k => k.putCopy { c with ended := true, err := true })

/-- R185, R231. A copy parks at its row. -/
def State.copyPark (s : State) (core : Nat) (c : CopyOp) (pages kinds : List Nat) : State :=
  let w (p : Nat) : FilterWait := { party := 2 * c.id + 1, asid := c.region.asid, fq := c.region.faultQueue, rcb := c.region.rcb, fn := c.region.fn,
                                    page := p, kinds := BitVec.ofNat 8 (kinds.headD 0) }
  s.modCore core (fun k => { (k.putCopy { c with parked := true }) with filterWait := k.filterWait ++ pages.map w })

/-- R175. The ranges of an engine operation: its place in the order of its core, what it reads and what it writes. -/
structure EngineRanges where
  ord : Nat
  reads : List CoreRange
  writes : List CoreRange
  deriving DecidableEq, Repr

/-- R175. Do two operations conflict? -/
def EngineRanges.conflict (a b : EngineRanges) : Bool :=
  a.writes.any (fun x => (b.reads ++ b.writes).any x.meets) || b.writes.any (fun x => a.reads.any x.meets)

/-- R175. The ranges of a copy. -/
def CopyOp.ranges (c : CopyOp) : EngineRanges := { ord := c.ord, reads := c.reads, writes := c.writes }

/-- R129, R131, R142, R181, R189. A copy retires. -/
def State.copyRetire (s : State) (core : Nat) (c : CopyOp) : State :=
  let s1 := s.modCore core (fun k => { k with
    copies := k.copies.filter (fun x => x.id != c.id)
    bindings := k.bindings.filter (fun b => b.op != c.id)
    board := k.board.filter (fun b => b.op != c.id)
    tags := (maskThreads c.units).foldl (fun m u => tabPut {} m u { key := (tabGet {} m u).key, fresh := true }) k.tags })
  s1.modSquad c.squad (fun sq =>
    let x := sq.flagDone c.flag c.err
    { x with ocCp := x.ocCp - 1, underflow := BitVec.ofNat 32 (min (2 ^ 32 - 1) (x.underflow.toNat + c.under)) })

end Sys2Proof.Machine
end

