-- ==== Sys2Proof/Machine/Tile.lean ====
section
/-!
DEFINITION. The matrix engine: parameter blocks, their checks, K-blocks and whole-tile operations
(R121, R124 to R126, R175, R180, R186, R189, R193 to R195).
-/
namespace Sys2Proof.Machine

/-- R193. The fields of a parameter block. -/
def tpA (p : List Byte) : Nat := fld p 0 4
def tpB (p : List Byte) : Nat := fld p 4 4
def tpKB (p : List Byte) : Nat := fld p 8 2
def tpM (p : List Byte) : Nat := fld p 0x0A 1 + 1
def tpN (p : List Byte) : Nat := fld p 0x0B 1 + 1
def tpTile (p : List Byte) : Nat := fld p 0x0C 1
def tpCtl (p : List Byte) : Nat := fld p 0x0D 1
def tpAccumulate (p : List Byte) : Bool := bitOf (tpCtl p) 0
def tpClass (p : List Byte) : Nat := tpCtl p / 2 % 4
def tpC16 (p : List Byte) : Bool := tpClass p == 2
def tpElided (p : List Byte) : Bool := bitOf (tpCtl p) 3
def tpFlag (p : List Byte) : Nat := fld p 0x0E 1
def tpARows (p : List Byte) : Nat := if fld p 0x10 2 = 0 then tpM p else fld p 0x10 2
def tpBRows (p : List Byte) : Nat := if fld p 0x12 2 = 0 then tpN p else fld p 0x12 2
def tpARow (p : List Byte) : Nat := fld p 0x14 2
def tpBCol (p : List Byte) : Nat := fld p 0x16 2
def tpAKB (p : List Byte) : Nat := fld p 0x18 2
def tpBKB (p : List Byte) : Nat := fld p 0x1A 2
def tpProgress (p : List Byte) : Nat := fld p 0x1C 4

/-- R184 check 2. -/
def tileBad1 (p : List Byte) : Bool :=
  decide (64 ≤ tpTile p) || decide (64 ≤ tpCtl p) || tpCtl p / 16 % 4 == 3 || decide (12 ≤ tpFlag p) || fld p 0x0F 1 != 0 ||
  decide (2 ^ 18 ≤ tpProgress p) || (p.drop 0x20).any (· != 0)

/-- R184 check 4, R193. -/
def tileBad3 (p : List Byte) : Bool :=
  tpA p % 32 != 0 || tpB p % (if tpElided p then 4 else 32) != 0 || tpKB p == 0 || decide (2048 < tpKB p) || decide (128 < tpM p) ||
  decide (tpARows p < tpARow p + tpM p) || decide (tpBRows p < tpBCol p + tpN p) || decide (tpKB p ≤ tpProgress p % 65536) ||
  tpProgress p / 65536 != 0

/-- R179, R189. The A range, by block offset. -/
def tileA (p : List Byte) : Nat × Nat :=
  let S := slabSize (tpC16 p) (tpARows p)
  (tpA p + tpAKB p * S, tpA p + (tpAKB p + tpKB p) * S - 1)

/-- R184 check 6. The B range that the block itself fixes: the slabs, or the words of a zero-elided panel's slab table. -/
def tileB (p : List Byte) : Nat × Nat :=
  if tpElided p then (tpB p + 4 * tpBKB p, tpB p + 4 * (tpBKB p + tpKB p) - 1)
  else
    let S := slabSize (tpC16 p) (tpBRows p)
    (tpB p + tpBKB p * S, tpB p + (tpBKB p + tpKB p) * S - 1)

/-- R184. The checks 2 to 6 of TILE.MMA: cause, xaddr and detail of the first that fails. -/
def tileCheck (p : List Byte) (size : Nat) : Option (Nat × Nat × Nat) :=
  if tileBad1 p then some (causeIllegal, 0, 1)
  else if tpC16 p && tpElided p then some (causeIllegal, 0, 2)
  else if tileBad3 p then some (causeIllegal, 0, 3)
  else if size ≤ (tileA p).2 then some (causeSbound, max (tileA p).1 size, 0)
  else if wbSize ≤ (tileB p).2 then some (causeIllegal, (tileB p).1, 4)
  else none

/-- R151. The ACC range of a tile. -/
def tileRange (d : Nat) : CoreRange := { space := 2, lo := d * 0x20000, hi := d * 0x20000 + 0x1FFFF }

/-- R175. What a tile operation reads and writes. A zero-elided panel is taken to reach to the end of the weight buffer. -/
def TileOp.ranges (o : TileOp) : EngineRanges :=
  match o.kind with
  | .mma =>
    let p := o.image
    { ord := o.ord
      reads := [{ space := 0, lo := o.base + (tileA p).1, hi := o.base + (tileA p).2 }, { space := 0, lo := o.at_, hi := o.at_ + 63 },
                { space := 1, lo := (if tpElided p then tpB p else (tileB p).1), hi := (if tpElided p then wbSize - 1 else (tileB p).2) }]
      writes := [tileRange (tpTile p), { space := 0, lo := o.at_ + 0x1C, hi := o.at_ + 0x1F }] }
  | .zero d => { ord := o.ord, reads := [], writes := [tileRange d] }
  | .mov d a => { ord := o.ord, reads := [tileRange a], writes := [tileRange d] }
  | .add d a => { ord := o.ord, reads := [tileRange a, tileRange d], writes := [tileRange d] }
  | .scale d _ => { ord := o.ord, reads := [tileRange d], writes := [tileRange d] }

/-- R189. An EXCL binding of a tile. -/
def tileBind (op d : Nat) : Binding := { acc := true, lo := d * 0x20000, hi := d * 0x20000 + 0x1FFFF, excl := true, op := op }

/-- R189. What a tile operation enters in the bindings. -/
def TileOp.binds (o : TileOp) : List Binding :=
  match o.kind with
  | .mma => [{ acc := false, lo := o.base + (tileA o.image).1, hi := o.base + (tileA o.image).2, excl := false, op := o.id },
             { acc := false, lo := o.at_, hi := o.at_ + 63, excl := false, op := o.id }, tileBind o.id (tpTile o.image)]
  | .zero d => [tileBind o.id d]
  | .mov d a => [tileBind o.id d, tileBind o.id a]
  | .add d a => [tileBind o.id d, tileBind o.id a]
  | .scale d _ => [tileBind o.id d]

/-- R175. The operations of a core, with their ranges. -/
def CoreS.engines (k : CoreS) : List EngineRanges := k.copies.map CopyOp.ranges ++ k.tiles.map TileOp.ranges

/-- R175. May an operation start: no earlier operation of the core conflicts with it? -/
def CoreS.mayStart (k : CoreS) (x : EngineRanges) : Bool := !(k.engines.any (fun o => decide (o.ord < x.ord) && o.conflict x))

/-- R179. Exponent byte and significands of row r of a dense slab in a memory. -/
def denseRow (mem : Tab Byte) (c16 : Bool) (slab rows r : Nat) : Nat × List Int :=
  let w := sigBytes c16
  let at_ (i n : Nat) : Nat := leVal ((List.range n).map (fun j => tabGet 0 mem (slab + i + j)))
  (at_ (w * rows + r) 1, (List.range 32).map (fun i => if c16 then sx 16 (at_ (w * r + 2 * i) 2) else sx 8 (at_ (w * r + i) 1)))

/-- R180, R186. Exponent byte and significands of row r of slab kb of a zero-elided panel; none past the weight buffer. -/
def elidedRow (wb : Tab Byte) (panel kb rows r : Nat) : Option (Nat × List Int) :=
  let rd (a n : Nat) : Nat := leVal ((List.range n).map (fun j => tabGet 0 wb (a + j)))
  let slab := panel + rd (panel + 4 * kb) 4
  let masks := slab + roundUp 4 rows
  let mask (k : Nat) : Nat := rd (masks + 4 * k) 4
  if wbSize < panel + 4 * kb + 4 ∨ wbSize < masks + 4 * rows then none
  else
    let before := (List.range r).foldl (fun acc k => acc + popNat 32 (mask k)) 0
    let start := masks + 4 * rows + before
    let m := mask r
    if wbSize < start + popNat 32 m then none
    else some (rd (slab + r) 1, (List.range 32).map (fun i =>
      if bitOf m i then sx 8 (rd (start + popNat i m) 1) else 0))

/-- R125. The fold of a block sum into an F32 accumulator. -/
def foldFloat (c16 : Bool) (c ea eb : Nat) (x : Int) : Nat :=
  if ea = 0xFF ∨ eb = 0xFF then 0x7FC00000
  else match Fmt.decode .f32 c with
    | .nan _ => c
    | v =>
      let k : Int := (ea : Int) - 127 + ((eb : Int) - 127) - (if c16 then 28 else 12)
      arithResult .f32 .rne (FVal.add .rne v (.fin (decide (x < 0)) x.natAbs k)) 0

/-- R125. The fold in integer mode: clamped on the I32 accumulator. -/
def foldInt (c : Nat) (x : Int) : Nat := clampS 32 (sx 32 c + x)

/-- R124. The exact block sum. -/
def blockSum (a b : List Int) : Int := ((a.zip b).map (fun p => p.1 * p.2)).foldl (· + ·) 0

/-- R151. The accumulator-store index of an element of a tile. -/
def accIndex (tile row col : Nat) : Nat := (tile * 128 + row) * 256 + col

/-- R194. The rows of B that K-block j reads; none when one points past the weight buffer. -/
def TileOp.bRows (o : TileOp) (wb : Tab Byte) (j : Nat) : Option (List (Nat × List Int)) :=
  let p := o.image
  (List.range (tpN p)).mapM (fun n =>
    if tpElided p then elidedRow wb (tpB p) (tpBKB p + j) (tpBRows p) (tpBCol p + n)
    else some (denseRow wb (tpC16 p) (tpB p + (tpBKB p + j) * slabSize (tpC16 p) (tpBRows p)) (tpBRows p) (tpBCol p + n)))

/-- R194. The rows of A that K-block j reads. -/
def TileOp.aRows (o : TileOp) (scratch : Tab Byte) (j : Nat) : List (Nat × List Int) :=
  let p := o.image
  (List.range (tpM p)).map (fun m =>
    denseRow scratch (tpC16 p) (o.base + tpA p + (tpAKB p + j) * slabSize (tpC16 p) (tpARows p)) (tpARows p) (tpARow p + m))

/-- R194. K-block j folded into the accumulator store. -/
def foldBlock (p : List Byte) (as_ bs : List (Nat × List Int)) (acc : Tab Word) : Tab Word :=
  (as_.zipIdx.foldl (fun t a => bs.zipIdx.foldl (fun u b =>
    let i := accIndex (tpTile p) a.2 b.2
    let c := (tabGet 0 u i).toNat
    let x := blockSum a.1.2 b.1.2
    tabPut 0 u i (BitVec.ofNat 32 (if tpClass p = 3 then foldInt c x else foldFloat (tpC16 p) c a.1.1 b.1.1 x))) t) acc)

/-- A tile operation of a core replaced. -/
def CoreS.putTile (k : CoreS) (o : TileOp) : CoreS := { k with tiles := k.tiles.map (fun x => if x.id = o.id then o else x) }

/-- R180. The bytes of a zero-elided panel that row r of slab kb is read from. -/
def elidedPlaces (wb : Tab Byte) (panel kb rows r : Nat) : List Nat :=
  let rd (a n : Nat) : Nat := leVal ((List.range n).map (fun j => tabGet 0 wb (a + j)))
  let run (a n : Nat) : List Nat := (List.range n).map (fun i => a + i)
  let slab := panel + rd (panel + 4 * kb) 4
  let masks := slab + roundUp 4 rows
  let before := (List.range r).foldl (fun acc k => acc + popNat 32 (rd (masks + 4 * k) 4)) 0
  run (panel + 4 * kb) 4 ++ [slab + r] ++ run masks (4 * (r + 1)) ++
    run (masks + 4 * rows + before) (popNat 32 (rd (masks + 4 * r) 4))

/-- R179, R194. The bytes of A that a K-block of a tile reads, by block offset. -/
def TileOp.aPlaces (o : TileOp) : List Nat :=
  let p := o.image
  (List.range (tpM p)).flatMap (fun m =>
    densePlaces (tpC16 p) (tpA p + (tpAKB p + o.k) * slabSize (tpC16 p) (tpARows p)) (tpARows p) (tpARow p + m))

/-- R150. The core bytes of scratch that a K-block of a tile reads, and those of its progress field. -/
def TileOp.blockPlaces (o : TileOp) : List Nat := o.aPlaces.map (fun a => o.base + a)
def TileOp.progressPlaces (o : TileOp) : List Nat := (List.range 4).map (fun i => o.at_ + 0x1C + i)

/-- R186. The first poisoned place that a K-block of a tile reads: a byte of A by block offset, a byte of B by weight-buffer offset
unless its slabs were saved, or an accumulator element by ACC address. -/
def TileOp.poisonAt (o : TileOp) (k : CoreS) : Option Nat :=
  let p := o.image
  let a := o.aPlaces
  let b := if o.wbSaved.isSome then [] else (List.range (tpN p)).flatMap (fun n =>
    if tpElided p then elidedPlaces k.wb (tpB p) (tpBKB p + o.k) (tpBRows p) (tpBCol p + n)
    else densePlaces (tpC16 p) (tpB p + (tpBKB p + o.k) * slabSize (tpC16 p) (tpBRows p)) (tpBRows p) (tpBCol p + n))
  let c := (List.range (tpM p)).flatMap (fun m => (List.range (tpN p)).map (fun n => accIndex (tpTile p) m n))
  (a.find? (fun x => tabGet false k.badScratch (o.base + x))).orElse (fun _ =>
    (b.find? (fun x => tabGet false k.badWb x)).orElse (fun _ => (c.find? (fun x => tabGet false k.badAcc x)).map (4 * ·)))

/-- R186. A tile ends with error at the K-block it reads: progress written, and a record posted. -/
def State.tileError (s : State) (core : Nat) (o : TileOp) (cause detail addr : Nat) : State :=
  let r : FaultRec := { addr := addr, cause := cause, detail := detail, source := 2, cores := coreBit core, die := dieOfCore core,
                        sname := o.sname.toNat, code := o.code.toNat }
  ((s.postRegion o.region (dieOfCore core) r).modCore core (fun k =>
    (k.putTile { o with ended := true, err := true }).scratchWrite (o.at_ + 0x1C) (leBytes 4 o.k))).useBanks core o.progressPlaces

/-- R125, R150, R186, R194. The array finishes the next K-block of a tile, once the banks of its rows of A are free, or, where the tile
ends in an error, those of its progress field too. -/
def State.tileBlock (s : State) (core : Nat) (o : TileOp) : State :=
  let c := s.core core
  let p := o.image
  if c.banksBefore o.id then s
  else if !c.banksFree o.blockPlaces then s.bankRefuse core
  else
    let stop (cause detail addr : Nat) : State :=
      if c.banksFree o.progressPlaces then s.tileError core o cause detail addr else s.bankRefuse core
    match o.poisonAt c with
    | some a => stop causePoison 1 a
    | none => match o.bRows (o.wbSaved.getD c.wb) o.k with
      | none => stop causeProt 4 (tpB p + 4 * (tpBKB p + o.k))
      | some bs =>
        let s1 := s.modCore core (fun k =>
          { (k.putTile { o with k := o.k + 1, ended := decide (tpKB p ≤ o.k + 1) }) with acc := foldBlock p (o.aRows k.scratch o.k) bs k.acc })
        (s1.useBanks core o.blockPlaces).coreEvent core 0x0D 32

/-- R194. An overwriting tile starts its elements at 0. -/
def zeroTile (p : List Byte) (acc : Tab Word) : Tab Word :=
  acc.filter (fun e => !((List.range (tpM p)).any (fun m =>
    decide (accIndex (tpTile p) m 0 ≤ e.1) && decide (e.1 < accIndex (tpTile p) m (tpN p)))))

/-- R186. The poisoned elements after an overwriting tile has started its elements. -/
def zeroBad (p : List Byte) (bad : Tab Bool) : Tab Bool :=
  bad.filter (fun e => !((List.range (tpM p)).any (fun m =>
    decide (accIndex (tpTile p) m 0 ≤ e.1) && decide (e.1 < accIndex (tpTile p) m (tpN p)))))

/-- R186. The poisoned elements after a whole-tile operation: those made from a poisoned element (log 60). -/
def wholeBad (k : TileKind) (bad : Tab Bool) : Tab Bool :=
  let at_ (t i : Nat) : Bool := tabGet false bad (t * 32768 + i)
  let all (d : Nat) (f : Nat → Bool) : Tab Bool := tabPuts false bad ((List.range 32768).map (fun i => (d * 32768 + i, f i)))
  match k with
  | .mma => bad
  | .zero d => bad.filter (fun e => e.1 / 32768 != d)
  | .mov d a => all d (at_ a)
  | .add d a => all d (fun i => at_ d i || at_ a i)
  | .scale _ _ => bad

/-- R195. The whole-tile operations on the accumulator store. -/
def wholeTile (k : TileKind) (acc : Tab Word) : Tab Word :=
  let at_ (t i : Nat) : Nat := (tabGet 0 acc (t * 32768 + i)).toNat
  let all (d : Nat) (f : Nat → Nat) : Tab Word :=
    tabPuts 0 acc ((List.range 32768).map (fun i => (d * 32768 + i, BitVec.ofNat 32 (f i))))
  match k with
  | .mma => acc
  | .zero d => acc.filter (fun e => e.1 / 32768 != d)
  | .mov d a => all d (at_ a)
  | .add d a => all d (fun i => fadd .f32 .rne (at_ d i) (at_ a i) 0)
  | .scale d x => all d (fun i => fmul .f32 .rne (at_ d i) x.toNat 0)

/-- R129, R131, R189. A tile operation completes. -/
def State.tileDone (s : State) (core : Nat) (o : TileOp) : State :=
  let s1 := s.modCore core (fun k => { k with
    tiles := k.tiles.filter (fun x => x.id != o.id)
    bindings := k.bindings.filter (fun b => b.op != o.id) })
  s1.modSquad o.squad (fun sq =>
    let x := sq.flagDone o.flag o.err
    { x with ocTl := x.ocTl - 1 })

end Sys2Proof.Machine
end

