-- ==== Sys2Proof/Machine/Engines.lean ====
section
/-!
DEFINITION. The COPY and TILE instructions, and the steps of the two engines (R173 to R197).
-/
namespace Sys2Proof.Machine

/-- R174. The record that a COPY word takes from scalars sO to s(O+7). -/
def Squad.recordOf (sq : Squad) (o : Nat) : List Byte := (List.range 8).flatMap (fun j => leBytes 8 (sq.readS (o + j)).toNat)

/-- R188. The lowest byte of a core range held in the scoreboard by a copy of a squad. -/
def CoreS.boardLow (k : CoreS) (q lo n : Nat) : Option Nat :=
  (List.range n).findSome? (fun i =>
    if k.board.any (fun b => decide (b.lo ≤ lo + i) && decide (lo + i ≤ b.hi) && k.copies.any (fun c => c.id == b.op && c.squad == q))
    then some i else none)

/-- R184 check 1, R188. The image at a SCRATCH offset, of n bytes; a poisoned byte of it reads as what it holds (log 60). -/
def State.imageAt (s : State) (q : Nat) (sq : Squad) (off n : Nat) : Checked (List Byte) :=
  let blk := s.block sq.blockOf
  let k := s.core sq.core
  if blk.size < off + n then .trap causeSbound (BitVec.ofNat 64 off) 0
  else match k.boardLow q (blk.base + off) n with
    | some i => .trap causeBinding (BitVec.ofNat 64 (off + i)) 6
    | none => .ok (k.scratchRead (blk.base + off) n)

/-- R129, R131, R172. A copy enters its queue. -/
def State.enterCopy (s : State) (q core : Nat) (c : CopyOp) : State :=
  (s.modCore core (fun k => { k with copies := k.copies ++ [c], board := k.board ++ c.boards, bindings := k.bindings ++ c.binds })).modSquad q
    (fun sq => { sq.flagIssue c.flag with ocCp := sq.ocCp + 1 })

/-- R129, R131, R172. A tile operation enters its queue. -/
def State.enterTile (s : State) (q core : Nat) (o : TileOp) : State :=
  (s.modCore core (fun k => { k with tiles := k.tiles ++ [o], bindings := k.bindings ++ o.binds })).modSquad q
    (fun sq => { sq.flagIssue o.flag with ocTl := sq.ocTl + 1 })

/-- R182. The generator word a copy starts with. -/
def copyGen (r : List Byte) : Word := if recSeed r = 0 then 0x9E3779B1#32 else BitVec.ofNat 32 (recSeed r)

/-- R173, R174, R184. CPIN, CPOUT and CPWB. -/
def State.copyWord (s : State) (kind : CopyKind) (f : BitVec 4) (b : BitVec 6) (x : BitVec 1) (o : BitVec 6) :
    Host.Outcome State Fault Refusal :=
  s.word (fun q sq e =>
    let blk := s.block sq.blockOf
    let img := if x = 1 then .ok (sq.recordOf o.toNat) else s.imageAt q sq (sq.addrScalar b.toNat o 64) 64
    if x = 0 ∧ (s.core sq.core).banksOf q then s.holdWord .retry
    else s.checked q sq e img (fun r =>
      match copyCheck kind r blk.size (s.core sq.core).locks with
      | some t => s.trapWord q sq e t.1 (BitVec.ofNat 64 t.2.1) t.2.2
      | none =>
        if 16 ≤ (s.core sq.core).copies.length then s.holdWord .copyQueue
        else
          s.onBanks sq.core (if x = 1 then [] else bytes64 (blk.base + sq.addrScalar b.toNat o 64)) (fun s0 =>
          let n := s0.newId
          let c : CopyOp := { id := n.1, ord := n.1, squad := q, kind := kind, flag := f.toNat, image := r, base := blk.base, size := blk.size,
                              region := s.regionOf sq, sname := sq.sname, code := wordAddr e.clause.addr e.idx, rm := sq.rm,
                              sec := s.inSection sq, gen := copyGen r }
          (n.2.enterCopy q sq.core c).charge sq 1)))

/-- R173, R195. A whole-tile word. -/
def State.tileWord (s : State) (f : BitVec 4) (k : Squad → TileKind) : Host.Outcome State Fault Refusal :=
  s.word (fun q sq e =>
    if 16 ≤ (s.core sq.core).tiles.length then s.holdWord .tileQueue
    else
      let n := s.newId
      let o : TileOp := { id := n.1, ord := n.1, squad := q, kind := k sq, flag := f.toNat, region := s.regionOf sq, sname := sq.sname,
                          code := wordAddr e.clause.addr e.idx }
      (n.2.enterTile q sq.core o).charge sq 1)

/-- R191. The range that LOCK and UNLOCK name, when it is well formed. -/
def lockRange (sq : Squad) (t b o : BitVec 6) : Option (Nat × Nat) :=
  let off := sq.addrScalar b.toNat o 64
  let n := (sq.readS t.toNat).toNat
  if n = 0 ∨ n % 64 ≠ 0 ∨ wbSize < off + n then none else some (off, n)

/-- R175. The copy of a core with a number. -/
def CoreS.copy (k : CoreS) (op : Nat) : Option CopyOp := k.copies.find? (fun c => c.id == op)

/-- R175. May a queued copy start: those before it have started, fewer than four are in progress, parked ones among them (log 59), and
nothing conflicts? -/
def CoreS.copyMayStart (k : CoreS) (c : CopyOp) : Bool :=
  !c.started && !(k.copies.any (fun x => decide (x.ord < c.ord) && !x.started)) &&
  decide ((k.copies.filter (fun x => x.started)).length < 4) && k.mayStart c.ranges

/-- R181, R185. One copy row, or the error or parking that it meets. -/
def State.copyRowStep (s : State) (core : Nat) (c : CopyOp) : State :=
  match s.rowDo core c with
  | (s1, .error .later) => s1
  | (s1, .error .bank) => s1.bankRefuse core
  | (s1, .error (.error cause addr detail)) => s1.copyError core c cause addr detail
  | (s1, .error (.park pages kinds)) => s1.copyPark core c pages kinds
  | (s1, .ok c1) =>
    let c2 := { c1 with row := c.row + 1, ended := decide (copyRows c.kind c.image ≤ c.row + 1) }
    ((s1.modCore core (fun k => k.putCopy c2)).useBanks core c.rowPlaces).coreEvent core 0x0E c1.wrote

/-- R194. Queues a matrix multiply of canonical panels into an accumulator tile. -/
def execTileMma (b o : BitVec 6) (s : State) : Host.Outcome State Fault Refusal :=
  s.word (fun q sq e =>
    let blk := s.block sq.blockOf
    let off := sq.addrScalar b.toNat o 64
    if (s.core sq.core).banksOf q then s.holdWord .retry
    else s.checked q sq e (s.imageAt q sq off 64) (fun p =>
      if (s.core sq.core).banksOn (blk.base + off) 64 then s.holdWord .retry
      else match tileCheck p blk.size with
      | some t => s.trapWord q sq e t.1 (BitVec.ofNat 64 t.2.1) t.2.2
      | none =>
        if 16 ≤ (s.core sq.core).tiles.length then s.holdWord .tileQueue
        else
          s.onBanks sq.core (bytes64 (blk.base + off)) (fun s0 =>
          let n := s0.newId
          let t : TileOp := { id := n.1, ord := n.1, squad := q, kind := .mma, flag := tpFlag p, image := p, at_ := blk.base + off,
                              base := blk.base, region := s.regionOf sq, sname := sq.sname,
                              code := wordAddr e.clause.addr e.idx, k := tpProgress p % 65536 }
          (n.2.enterTile q sq.core t).charge sq 1)))

/-- R195. Queues the zeroing of a whole accumulator tile. -/
def execTileZero (d : BitVec 6) (f : BitVec 4) (s : State) : Host.Outcome State Fault Refusal :=
  s.tileWord f (fun _ => .zero d.toNat)

/-- R195. Queues a whole-tile copy. -/
def execTileMov (d a : BitVec 6) (f : BitVec 4) (s : State) : Host.Outcome State Fault Refusal :=
  s.tileWord f (fun _ => .mov d.toNat a.toNat)

/-- R195. Queues a whole-tile RNE add. -/
def execTileAdd (d a : BitVec 6) (f : BitVec 4) (s : State) : Host.Outcome State Fault Refusal :=
  s.tileWord f (fun _ => .add d.toNat a.toNat)

/-- R195. Queues a whole-tile RNE scaling by a scalar. -/
def execTileScale (d a : BitVec 6) (f : BitVec 4) (s : State) : Host.Outcome State Fault Refusal :=
  s.tileWord f (fun sq => .scale d.toNat ((sq.readS a.toNat).setWidth 32))

/-- R196. Returns the weight-buffer epoch and the engine queue and bindings occupancy. -/
def execTileQuery (d : BitVec 6) (s : State) : Host.Outcome State Fault Refusal :=
  s.word (fun q sq _ =>
    let k := s.core sq.core
    (s.writeS q d.toNat (BitVec.ofNat 64 (k.epoch.toNat + 2 ^ 32 * k.tiles.length + 2 ^ 40 * k.copies.length +
      2 ^ 48 * (64 - k.bindings.length)))).charge sq 1)

/-- R181. Queues a copy of a tensor into a canonical panel or as RAW bytes. -/
def execCpin (f : BitVec 4) (b : BitVec 6) (x : BitVec 1) (o : BitVec 6) (s : State) : Host.Outcome State Fault Refusal :=
  s.copyWord .cpin f b x o

/-- R182. Queues a conversion of accumulator or scratch elements out to a storage tensor. -/
def execCpout (f : BitVec 4) (b : BitVec 6) (x : BitVec 1) (o : BitVec 6) (s : State) : Host.Outcome State Fault Refusal :=
  s.copyWord .cpout f b x o

/-- R183. Queues a copy of weight-buffer bytes out to GLOBAL. -/
def execCpwb (f : BitVec 4) (b : BitVec 6) (x : BitVec 1) (o : BitVec 6) (s : State) : Host.Outcome State Fault Refusal :=
  s.copyWord .cpwb f b x o

/-- R191. Adds a weight-buffer range to the lock table. -/
def execLock (t b o : BitVec 6) (s : State) : Host.Outcome State Fault Refusal :=
  s.word (fun q sq e =>
    match lockRange sq t b o with
    | none => s.trapWord q sq e causeIllegal 0 3
    | some r =>
      if 8 ≤ (s.core sq.core).locks.length then s.trapWord q sq e causeBinding 0 7
      else (s.modCore sq.core (fun k => { k with locks := k.locks ++ [r] })).charge sq 1)

/-- R191. Removes a matching weight-buffer lock. -/
def execUnlock (t b o : BitVec 6) (s : State) : Host.Outcome State Fault Refusal :=
  s.word (fun q sq e =>
    match lockRange sq t b o with
    | none => s.trapWord q sq e causeIllegal 0 3
    | some r => (s.modCore sq.core (fun k => { k with locks := k.locks.erase r })).charge sq 1)

/-- R192. Tags every fresh weight-buffer unit with a residency key. -/
def execWkey (a : BitVec 6) (s : State) : Host.Outcome State Fault Refusal :=
  s.word (fun _ sq _ =>
    let key : BitVec 16 := (sq.readS a.toNat).setWidth 16
    (s.modCore sq.core (fun k => { k with tags := (List.range 32).foldl (fun m u =>
      if (tabGet {} m u).fresh then tabPut {} m u { key := key, fresh := false } else m) k.tags })).charge sq 1)

/-- R173. An engine word that waited for a full queue enters it when an entry frees. -/
def execEngineWordEnqueue (lane : Nat) (s : State) : Host.Outcome State Fault Refusal :=
  .next (match (s.lane lane).cur with
    | none => s
    | some e =>
      let k := s.core (lane / 64)
      let go := s.modLane lane (fun l => { l with cur := some { e with hold := none } })
      match e.hold with
      | some .copyQueue => if k.copies.length < 16 then go else s
      | some .tileQueue => if k.tiles.length < 16 then go else s
      | _ => s)

/-- R175. The copy engine starts a queued copy once no earlier conflicting operation remains. -/
def execCopyStart (core op : Nat) (s : State) : Host.Outcome State Fault Refusal :=
  .next (match (s.core core).copy op with
    | none => s
    | some c =>
      if (s.core core).copyMayStart c then s.modCore core (fun k => k.putCopy { c with started := true }) else s)

/-- R181. The copy engine translates, checks, converts and writes one copy row. -/
def execCopyRow (core op : Nat) (s : State) : Host.Outcome State Fault Refusal :=
  .next (match (s.core core).copy op with
    | none => s
    | some c => if c.started && !c.parked && !c.ended then s.copyRowStep core c else s)

/-- R181. A copy retires after its last row, passing its underflow count and setting fresh bits. -/
def execCopyRetire (core op : Nat) (s : State) : Host.Outcome State Fault Refusal :=
  .next (match (s.core core).copy op with
    | none => s
    | some c => if c.ended && c.pending == 0 then s.copyRetire core c else s)

/-- R175. The matrix engine starts the next queued tile operation once no earlier conflicting operation remains. -/
def execTileStart (core : Nat) (s : State) : Host.Outcome State Fault Refusal :=
  .next (match (s.core core).tiles.head? with
    | none => s
    | some o =>
      if !o.started && (s.core core).mayStart o.ranges then
        s.modCore core (fun k =>
          let k1 := k.putTile { o with started := true }
          if o.kind == .mma && o.k == 0 && !tpAccumulate o.image then
            { k1 with acc := zeroTile o.image k1.acc, badAcc := zeroBad o.image k1.badAcc } else k1)
      else s)

/-- R125. The array finishes a K-block and folds its exact block sums into the accumulator elements. -/
def execTileKblock (core : Nat) (s : State) : Host.Outcome State Fault Refusal :=
  .next (match (s.core core).tiles.head? with
    | none => s
    | some o => if o.started && o.kind == .mma && !o.ended then s.tileBlock core o else s)

/-- R194. A TILE.MMA completes, writes progress 0 and completes its flag. -/
def execTileComplete (core : Nat) (s : State) : Host.Outcome State Fault Refusal :=
  .next (match (s.core core).tiles.head? with
    | none => s
    | some o =>
      if o.kind == .mma && o.ended then
        if o.err then s.tileDone core o
        else if !(s.core core).banksFree o.progressPlaces then s.bankRefuse core
        else ((s.modCore core (fun k => k.scratchWrite (o.at_ + 0x1C) (leBytes 4 0))).useBanks core o.progressPlaces).tileDone core o
      else s)

/-- R195. A whole-tile operation completes on all 32,768 elements. -/
def execTileOpComplete (core : Nat) (s : State) : Host.Outcome State Fault Refusal :=
  .next (match (s.core core).tiles.head? with
    | none => s
    | some o =>
      if o.started && o.kind != .mma then
        (s.modCore core (fun k => { k with acc := wholeTile o.kind k.acc, badAcc := wholeBad o.kind k.badAcc })).tileDone core o
      else s)

end Sys2Proof.Machine
end

