-- ==== Sys2Proof/Machine/Names.lean ====
section
/-!
DEFINITION. Names, named stores, servers, heats and tasks (R261 to R280).
-/
namespace Sys2Proof.Machine

/-- R264. The lowest FREE or RETIRED entry of the directory from index i up, among the next `fuel`. -/
def State.freeEntry (s : State) (fuel i : Nat) : Option Nat :=
  match fuel with
  | 0 => none
  | fuel + 1 =>
    let st := (s.dirEntry i).st
    if st = dirFree ∨ st = dirRetired then some i else s.freeEntry fuel (i + 1)

/-- R299. The names held by the squads of a region and of its descendants. -/
def State.namesUnder (s : State) (rcb : Nat) : Nat :=
  (s.squads.filter (fun e => e.2.sname != 0 && !e.2.exiting && e.2.place != .retired && (s.regionOf e.2).within rcb)).length

/-- R299. Does the named-squad budget of every region on a path allow one more name? -/
def State.nameRoom (s : State) (g : Region) : Bool := g.path.all (fun e => decide (s.namesUnder e.1 < e.2.2))

/-- R262, R264. Where a resident squad stands, as its directory entry holds it. -/
def Squad.dirPlace (sq : Squad) (e : DirEntry) : DirEntry :=
  match sq.place with
  | .resident c l i => { e with st := dirLive, core := c, lane := l, slot := i, save := 0 }
  | .waiting => e
  | .saved => e
  | .retired => e

/-- R261. Is a named store decided at the sender: generation 0, or a non-zero bit above the name? -/
def deadName (x : Reg) : Bool := decide (2 ^ 32 ≤ x.toNat) || nameGen (x.setWidth 32) == 0

/-- R129, R131, R261, R266. STN, STN.REL and STN.F. -/
def State.stnWord (s : State) (g : BitVec 4) (n : BitVec 1) (d a b : BitVec 6) (flag : Option Nat) (rel : Bool) :
    Host.Outcome State Fault Refusal :=
  s.wordV [a.toNat, d.toNat] (fun q sq e =>
    let act := sq.activeT e g n
    let x := sq.readS b.toNat
    let issue (y : Squad) : Squad := match flag with
      | some f => y.flagIssue f
      | none => y
    if act.isEmpty then s.charge sq 1
    else
      let dead := deadName x
      let s1 := if rel then s.drainIf sq.core (fun _ => true) else s
      let r := s1.newId
      let m : Delivery := { id := r.1, squad := q, core := sq.core, name := x.setWidth 32, reg := d.toNat,
                            mask := maskOf (fun t => act.contains t), vals := act.map (fun t => (t, s.readV sq a.toNat t)),
                            flag := flag, rel := if rel then some r.1 else none, dead := dead }
      let s2 : State := { r.2 with stns := r.2.stns ++ [m] }
      let s3 := s2.modSquad q (fun y => { issue y with ocSt := y.ocSt + 1 })
      (if dead then s3 else s3.coreEvent sq.core 0x12 1).charge sq act.length)

/-- R275, R279. The SCRATCH offset of a task: aligned to 64 bytes, then bounds and bindings. -/
def State.checkTask (s : State) (sq : Squad) (write : Bool) (off : Nat) : Checked Unit :=
  if off % 64 ≠ 0 then .trap causeIllegal (BitVec.ofNat 64 off) 1
  else s.checkScratch sq.core (s.block sq.blockOf) write 64 [(0, off)]

/-- R131. A named store has been accepted by its forwarding port. -/
def State.stnAccepted (s : State) (d : Delivery) : State :=
  if d.mine then s.modSquad d.squad (fun sq => { sq with ocSt := sq.ocSt - 1 }) else s

/-- R271. Are two deliveries of one sender to one register of one name? -/
def Delivery.sameStream (a b : Delivery) : Bool :=
  a.mine == b.mine && a.squad == b.squad && a.name == b.name && a.reg == b.reg

/-- R234, R269. The record of a delivery to v32 to v63 of a target that does not hold them: from the die of its core, or, for a saved
target, of the slice of its directory entry. -/
def State.deliveryXset (s : State) (sq : Squad) (reg : Nat) : State :=
  let die := if sq.isResident then dieOfCore sq.core else dieOfPa (s.dirAt (nameIndex sq.sname))
  s.postRegion (s.regionOf sq) die
    { addr := reg, cause := causeXset, detail := 1, source := 5, cores := if sq.isResident then coreBit sq.core else 0,
      die := die, sname := sq.sname.toNat }

/-- R69, R80, R212. A delivery arrives at a register of a resident squad: the threads' values as one unit, the hold count,
and the acquire when it reaches zero. -/
def State.arrive (s : State) (q : Nat) (sq : Squad) (d : Delivery) : State :=
  if 32 ≤ d.reg && !s.holdsLock q sq then (s.deliveryXset sq d.reg).deliveryFlag d false
  else
    let h := s.readHold sq d.reg
    let s1 := (s.writeVs q d.reg d.vals).deliveryFlag d false
    if h = 0 then s1
    else
      let s2 := s1.writeHold q d.reg (h - 1)
      if h = 1 then s2.acquire sq.core else s2

/-- R57, R307. The place of register r of thread t in a save-area record. -/
def savedReg (base r t : Nat) : Nat := base + 256 * r + 8 * t

/-- R267, R269. A delivery is applied to a saved register image. -/
def State.applySaved (s : State) (sq : Squad) (base : Nat) (d : Delivery) : State :=
  if 32 ≤ d.reg && sq.savedExt.isNone then (s.deliveryXset sq d.reg).deliveryFlag d false
  else
    let s1 := d.vals.foldl (fun acc x => acc.ownStore (savedReg base d.reg x.1) (leBytes 8 x.2.toNat)) s
    let h := s1.readLe (base + 0x5380 + d.reg) 1 % 64
    let s2 := if h = 0 then s1 else s1.ownStore (base + 0x5380 + d.reg) (leBytes 1 (h - 1))
    s2.deliveryFlag d false

/-- The saved squad whose record lies at an address. -/
def State.savedAt (s : State) (base : Nat) : Option (Nat × Squad) :=
  s.squads.find? (fun e => e.2.place == .saved && e.2.saveAt == base)

/-- R267. A delivery meets its directory entry. -/
def State.deliver (s₀ : State) (k : Nat) (d : Delivery) : State :=
  let i := nameIndex d.name
  let s := s₀.ownTouch (s₀.dirAt i) 16 false
  let e := s.dirEntry i
  let gone : State := { s with stns := s.stns.eraseIdx k }
  if e.gen ≠ nameGen d.name ∨ e.st = dirFree ∨ e.st = dirRetired then (gone.stnAccepted d).dropDelivery d
  else if e.st = dirLive then
    { s with stns := s.stns.set k { d with at_ := .forwarded e.core e.lane e.slot } }.stnAccepted d
  else if e.st = dirParked then
    match s.savedAt e.save with
    | some x => (gone.stnAccepted d).applySaved x.2 e.save d
    | none => (gone.stnAccepted d).dropDelivery d
  else if (tabGet [] s.moves i).length < 64 then
    let l := tabGet [] s.moves i ++ [d]
    ({ gone with moves := tabPut [] gone.moves i l }.putDir i { e with queued := l.length }).stnAccepted d
  else s

/-- R267. A named store for another device leaves as a packet. -/
def State.sendNamed (s : State) (k : Nat) (d : Delivery) : State :=
  let gone : State := { s with stns := s.stns.eraseIdx k }
  (gone.stnAccepted d).podSend
    { id := 0, src := s.own, dst := nameDev d.name, core := d.core, off := 0,
      kind := .named d.squad d.name d.reg d.mask d.vals d.flag }

/-- R12. The distance between two cores in heat-tree hops. -/
def treeHops (a b : Nat) : Nat := if a = b then 0 else if dieOfCore a = dieOfCore b then 2 else 4

/-- R273. A core's cost for a heat. PINB's bytes are rounded down to units of 64 KiB, which is the model's choice (log 34). -/
def State.bidCost (s : State) (h : Heat) (core : Nat) : Int :=
  let k := s.core core
  let e := h.entry
  let res := if e.key = 0 then 0 else ((List.range 32).filter (fun u => (tabGet {} k.tags u).key == e.key)).length
  let qd := if h.det then 0 else k.inbox.length
  let load := if h.det then 0 else (s.squads.filter (fun x => x.2.isResident && x.2.core == core)).length
  let asid := ((tabFind s.squads h.squad).map (fun sq => (s.regionOf sq).asid)).getD 0
  let bytes := ((s.pins.find? (fun p => p.die == dieOfCore core && p.asid == asid)).map (·.bytes)).getD 0
  let pinb := if h.det then 0 else min 255 (bytes / 65536)
  let w (x : Byte) (n : Nat) : Int := x.toInt * n
  let sum := e.c0.toInt + w e.wRes res + w e.wQd qd + w e.wLoad load + w e.wDist (treeHops core h.core) + w e.wPinb pinb
  min (max sum (-32768)) 32767

/-- R276. Is a heat in the heat table? One that runs again has kept its place, and one leaves as its award enters an inbox or its result is
sent, which is the model's choice (log 34). -/
def Heat.active (h : Heat) : Bool :=
  match h.stage with
  | .queued => !h.withdrawn.isEmpty
  | .window _ => true
  | .award _ => true
  | .result _ _ => false

/-- R276. The order of bids: least cost, then least distance from the tendering core modulo 384. -/
def betterBid (tender : Nat) (a b : Nat × Int) : Bool :=
  decide (a.2 < b.2) || (a.2 == b.2 && decide ((a.1 + 384 - tender) % 384 < (b.1 + 384 - tender) % 384))

/-- R276. The winner among the bids received. -/
def winner (tender : Nat) (bids : List (Nat × Int)) : Option Nat :=
  match bids with
  | [] => none
  | b :: r => some (r.foldl (fun acc x => if betterBid tender x acc then x else acc) b).1

/-- R12, R278. The clocks of a message between the root and a core, two hops of 6 clk; and those from the broadcast's arrival at a core
to its bid's at the root. -/
def heatLeg : Nat := 12
def bidLeg : Nat := 2 + heatLeg

/-- R276, R278. The root decides, in a clock of its own; the award or the result is on its way. -/
def Heat.decide_ (h : Heat) (clk : Nat) : Heat :=
  match winner h.core h.bids with
  | some c => { h with stage := .award c, sent := [], due := clk + heatLeg }
  | none => { h with stage := .result 0 0, sent := [], due := clk + heatLeg }

/-- Change a heat. -/
def State.putHeat (s : State) (id : Nat) (h : Heat) : State := { s with heats := tabIns s.heats id h }

/-- The root's own counter (R276): the clock of X-die 0. -/
def State.rootClk (s : State) : Nat := s.clockOfDie 8

/-- R276. The broadcast of a heat. -/
def State.broadcast (s : State) (id : Nat) (h : Heat) : State :=
  let e := s.classOf h.rcb h.cls
  let bidders := (List.range 384).filter (fun c => h.coreMask.getLsbD c && e.servers.getLsbD c && !h.withdrawn.contains c)
  if bidders.isEmpty then s.putHeat id { h with stage := .result 0 0, bids := [], due := s.rootClk + heatLeg }
  else s.putHeat id { h with stage := .window (s.rootClk + (if e.window = 0 then 16 else e.window)), bidders := bidders, sent := [],
                             bids := [], entry := e, due := s.rootClk + heatLeg }

/-- R275, R276. The clause of the TENDER that waits for a heat, on the lane of its squad. -/
def State.tenderExec (s : State) (id : Nat) (h : Heat) : Option (Squad × Exec) :=
  match tabFind s.squads h.squad with
  | none => none
  | some sq => match (s.lane sq.laneOf).cur with
    | none => none
    | some e => if sq.isResident && e.squad == h.squad && e.hold == some (.heat id) then some (sq, e) else none

/-- R276. The trap of the third withdrawal. -/
def State.withdrawn (s : State) (id : Nat) (h : Heat) : State :=
  let s1 : State := { s with heats := tabDel s.heats id }
  let xaddr := h.withdrawn.getD 0 0 + h.withdrawn.getD 1 0 * 2 ^ 16 + h.withdrawn.getD 2 0 * 2 ^ 32
  match s.tenderExec id h with
  | some x => s1.trapWord h.squad x.1 x.2 causeWithdrawn (BitVec.ofNat 64 xaddr) 0
  | none => s1

/-- R276, R277. An award reaches a core. -/
def State.award (s : State) (id : Nat) (h : Heat) (core : Nat) : State :=
  let k := s.core core
  if k.inbox.length < 16 then
    let s1 := s.modCore core (fun c => { c with inbox := c.inbox ++ [{ cls := h.cls, task := h.task, core := h.core, sname := h.sname }] })
    (s1.coreEvent core 0x13 1).putHeat id
      { h with stage := .result (tabGet 0 k.servers h.cls) core, due := s.rootClk + 2 * heatLeg }
  else if h.det then s
  else
    let h1 : Heat := { h with withdrawn := h.withdrawn ++ [core], stage := .queued, due := s.rootClk + heatLeg }
    let s1 := s.coreEvent core 0x14 1
    if 3 ≤ h1.withdrawn.length then s1.withdrawn id h1 else s1.putHeat id h1

/-- R280. Saved inbox entries that wait for room enter a core's inbox. -/
def State.refillInbox (s : State) (core : Nat) : State :=
  let w := tabGet [] s.inboxWait core
  let n := 16 - (s.core core).inbox.length
  { (s.modCore core (fun k => { k with inbox := k.inbox ++ w.take n })) with inboxWait := tabPut [] s.inboxWait core (w.drop n) }

/-- R266. Sends a named store of the enabled threads' values to a register of a named squad. -/
def execStn (g : BitVec 4) (n : BitVec 1) (d a b : BitVec 6) (s : State) : Host.Outcome State Fault Refusal :=
  s.stnWord g n d a b none false

/-- R266. Named store that first performs the release half of FENCE.POD. -/
def execStnRel (g : BitVec 4) (n : BitVec 1) (d a b : BitVec 6) (s : State) : Host.Outcome State Fault Refusal :=
  s.stnWord g n d a b none true

/-- R266. Named store that names a completion flag. -/
def execStnF (g : BitVec 4) (n : BitVec 1) (d a b : BitVec 6) (f : BitVec 4) (s : State) : Host.Outcome State Fault Refusal :=
  s.stnWord g n d a b (some f.toNat) false

/-- R264. Allocates a directory entry and gives the squad a name. -/
def execNameget (d : BitVec 6) (s : State) : Host.Outcome State Fault Refusal :=
  s.word (fun q sq _ =>
    if sq.sname ≠ 0 then (s.writeS q d.toNat (sq.sname.setWidth 64)).charge sq 1
    else match (if s.nameRoom (s.regionOf sq) then s.freeEntry 16384 0 else none) with
      | none => (s.writeS q d.toNat 0).charge sq 1
      | some i =>
        let gen := (s.dirEntry i).gen % 63 + 1
        let name := s.nameOf i gen
        let s1 := s.putDir i (sq.dirPlace { gen := gen })
        ((s1.modSquad q (fun x => { x with sname := name })).writeS q d.toNat (name.setWidth 64)).charge sq 1)

/-- R265. Retires the squad's name and ends its server registrations. -/
def execNamerel (s : State) : Host.Outcome State Fault Refusal :=
  s.word (fun q sq _ =>
    ((((s.endServers (s.regionOf sq).rcb sq.core sq.sname).retireName sq.sname).modSquad q (fun x => { x with sname := 0 }))).charge
      sq 1)

/-- R275. Offers a 64-byte task to the servers of a class through a heat. -/
def execTender (d a : BitVec 6) (c : BitVec 4) (s : State) : Host.Outcome State Fault Refusal :=
  s.word (fun q sq e =>
    let off := (sq.readS a.toNat).toNat
    s.checked q sq e (s.checkTask sq false off) (fun _ =>
      if (s.core sq.core).banksOf q then s.holdWord .retry
      else s.onBanks sq.core (bytes64 ((s.block sq.blockOf).base + off)) (fun s0 =>
      let g := s.regionOf sq
      let r := s0.newId
      let h : Heat := { core := sq.core, squad := q, sname := sq.sname, dest := d.toNat, cls := c.toNat,
                        task := (s.core sq.core).scratchRead ((s.block sq.blockOf).base + off) 64, rcb := g.rcb, det := g.det,
                        coreMask := g.coreMask, due := s.rootClk + heatLeg }
      ((r.2.putHeat r.1 h).charge sq 1).holdWord (.heat r.1))))

/-- R274. Registers the squad as the server of a class on its core. -/
def execServe (c : BitVec 4) (s : State) : Host.Outcome State Fault Refusal :=
  s.word (fun q sq e =>
    if sq.sname = 0 then s.trapWord q sq e causeIllegal 0 11
    else
      let rcb := (s.regionOf sq).rcb
      let x := s.classOf rcb c.toNat
      let s1 := s.modCore sq.core (fun k => { k with servers := tabPut 0 k.servers c.toNat sq.sname })
      { s1 with classes := tabPut {} s1.classes (classKey rcb c.toNat) { x with servers := x.servers ||| serverBit sq.core } }.charge
        sq 1)

/-- R279. Moves the oldest inbox task of a class into scratch. -/
def execTake (d a : BitVec 6) (c : BitVec 4) (s : State) : Host.Outcome State Fault Refusal :=
  s.word (fun q sq e =>
    let off := (sq.readS a.toNat).toNat
    s.checked q sq e (s.checkTask sq true off) (fun _ =>
      if (s.core sq.core).banksOf q then s.holdWord .retry
      else match (s.core sq.core).inbox.find? (fun x => x.cls == c.toNat) with
      | none => (s.writeS q d.toNat 0).charge sq 1
      | some x => s.onBanks sq.core (bytes64 ((s.block sq.blockOf).base + off)) (fun s0 =>
        let s1 := s0.modCore sq.core (fun k =>
          { k.scratchWrite ((s.block sq.blockOf).base + off) x.task with inbox := k.inbox.erase x })
        ((s1.writeS q d.toNat (BitVec.ofNat 64 (2 ^ 48 + x.core * 2 ^ 32 + x.sname.toNat))).refillInbox sq.core).charge sq 1)))

/-- R203, R212, R261, R267. A named store reaches its entry's home slice and is forwarded, written into the saved image, queued or
dropped; one whose name is none is dropped before. The release half of STN.REL comes first. -/
def execStnDelivery (k : Nat) (s : State) : Host.Outcome State Fault Refusal :=
  .next (match s.stns[k]? with
    | none => s
    | some d =>
      let free := match d.rel with
        | some r => s.released d.squad d.core 3 r
        | none => true
      let release (f : State → State) : State := s.afterRelease d.core (if d.rel.isSome then 3 else 0) f
      if !free then s
      else if d.dead then release (fun s1 => ({ s1 with stns := s1.stns.eraseIdx k }.stnAccepted d).dropDelivery d)
      else if d.at_ ≠ .sent ∨ (s.stns.take k).any (fun x => x.sameStream d && x.at_ == .sent && !x.dead) then s
      else release (fun s1 => if d.mine && nameDev d.name ≠ s.own then s1.sendNamed k d else s1.deliver k d))

/-- R69. A delivery writes the target register and lowers its hold count, acquiring when it reaches zero. -/
def execStnArrival (k : Nat) (s : State) : Host.Outcome State Fault Refusal :=
  .next (match s.stns[k]? with
    | none => s
    | some d => match d.at_ with
      | .sent => s
      | .forwarded c l i =>
        if (s.stns.take k).any (fun x => x.sameStream d) then s
        else
          let s1 : State := { s with stns := s.stns.eraseIdx k }
          match s.squads.find? (fun e => e.2.place == .resident c l i && e.2.sname == d.name && !e.2.exiting) with
          | some e => s1.arrive e.1 e.2 d
          | none => s1.dropDelivery d)

/-- R268. An unreachable delivery returns to the sender, which drops it and counts it dead-lettered. -/
def execStnRefusal (k : Nat) (s : State) : Host.Outcome State Fault Refusal :=
  .next (match s.pod[k]? with
    | none => s
    | some m => match m.kind with
      | .named q _ _ _ _ flag =>
        if m.mine && (m.sent || (List.range 16).all (fun l => (tabGet {} s.links l).st != .up)) then
          let s1 := { s with pod := s.pod.eraseIdx k }.countDead
          match flag with
          | some f => s1.modSquad q (fun sq => sq.flagDone f true)
          | none => s1
        else s
      | _ => s)

/-- R276, R278. A tender reaches the heat root, which broadcasts the class and opens the window. -/
def execHeatBroadcast (k : Nat) (s : State) : Host.Outcome State Fault Refusal :=
  .next (match tabFind s.heats k with
    | none => s
    | some h =>
      if h.stage == .queued && decide (h.due ≤ s.rootClk) && (h.active || decide ((s.heats.filter (fun x => x.2.active)).length < 16)) then s.broadcast k h else s)

/-- R273, R278. A bidding core computes its cost when the tender reaches it, and sends its bid. -/
def execHeatBid (h core : Nat) (s : State) : Host.Outcome State Fault Refusal :=
  .next (match tabFind s.heats h with
    | none => s
    | some x =>
      if decide (x.due ≤ s.rootClk) && x.bidders.contains core && !(x.sent ++ x.bids).any (fun b => b.1 == core) && (match x.stage with
        | .window _ => true
        | _ => false) then s.putHeat h { x with sent := x.sent ++ [(core, s.bidCost x core)] }
      else s)

/-- R278. The root's count at which the bids of a heat whose window is open reach it. -/
def Heat.bidsAt (h : Heat) : Nat := h.due + bidLeg

/-- R276, R278. A bid reaches the root. It counts if it arrives in the window; in a DET region the last bid closes the window. -/
def execHeatBidReceive (h core : Nat) (s : State) : Host.Outcome State Fault Refusal :=
  .next (match tabFind s.heats h with
    | none => s
    | some x => match x.stage, x.sent.find? (fun b => b.1 == core) with
      | .window closes, some b =>
        let y : Heat := { x with sent := x.sent.erase b, bids := x.bids ++ [b] }
        if s.rootClk < x.bidsAt then s
        else if x.det then s.putHeat h (if x.bidders.all (fun c => y.bids.any (fun z => z.1 == c)) then y.decide_ s.rootClk else y)
        else if x.bidsAt ≤ closes then s.putHeat h y
        else s
      | _, _ => s)

/-- R276, R278. The bid window expires: the root decides in its last clock, when every bid that arrives in the window is there. -/
def execHeatWindowClose (h : Nat) (s : State) : Host.Outcome State Fault Refusal :=
  .next (match tabFind s.heats h with
    | none => s
    | some x => match x.stage with
      | .window closes =>
        let all := x.bidders.all (fun c => x.bids.any (fun z => z.1 == c))
        if !x.det && decide (closes ≤ s.rootClk) && (decide (closes < x.bidsAt) || all) then s.putHeat h (x.decide_ closes) else s
      | _ => s)

/-- R276, R278. An award reaches the winner's inbox and is taken, or the winner withdraws. -/
def execHeatAward (h : Nat) (s : State) : Host.Outcome State Fault Refusal :=
  .next (match tabFind s.heats h with
    | none => s
    | some x => match x.stage with
      | .award core => if x.due ≤ s.rootClk then s.award h x core else s
      | _ => s)

/-- R275, R278. The heat's result reaches the tendering squad and is written to sd. -/
def execHeatResult (h : Nat) (s : State) : Host.Outcome State Fault Refusal :=
  .next (match tabFind s.heats h with
    | none => s
    | some x => match x.stage with
      | .result name core =>
        if s.rootClk < x.due then s
        else
        let s1 : State := { s with heats := tabDel s.heats h }
        match s.tenderExec h x with
        | some t => (s1.writeS x.squad x.dest (BitVec.ofNat 64 (name.toNat + core * 2 ^ 32))).endClause t.1.laneOf { t.2 with hold := none }
        | none => s1
      | _ => s)

end Sys2Proof.Machine
end

