-- ==== Sys2Proof/Machine/Retire.lean ====
section
/-!
DEFINITION. Barriers, the commit token in transit, and the retirement of squads (R98, R215, R297, R300 to R303).
-/
namespace Sys2Proof.Machine

/-- R294. The cluster grid of a launch. -/
def Launch.gridC (l : Launch) : Nat × Nat × Nat := (l.gx / l.cx, l.gy / l.cy, l.gz / l.cz)

/-- R294. The number of clusters. -/
def Launch.clusters (l : Launch) : Nat := l.gridC.1 * l.gridC.2.1 * l.gridC.2.2

/-- R297. One level of the curve: fuel levels are left, s is the side of the square so far. -/
def hilbertFrom (fuel s x y t : Nat) : Nat × Nat :=
  match fuel with
  | 0 => (x, y)
  | fuel + 1 =>
    let rx := t / 2 % 2
    let ry := (t % 2 + rx) % 2
    let p := if ry = 0 then (if rx = 1 then (s - 1 - y, s - 1 - x) else (y, x)) else (x, y)
    hilbertFrom fuel (2 * s) (p.1 + s * rx) (p.2 + s * ry) (t / 4)

/-- R297. The least power of two at least as large as n, as an exponent. -/
def log2Up (n : Nat) : Nat := if n ≤ 1 then 0 else Nat.log2 (n - 1) + 1

/-- R297. The clusters of a launch in curve order, by their linear index. -/
def Launch.curve (l : Launch) : List Nat :=
  let g := l.gridC
  let k := log2Up (max g.1 g.2.1)
  let plane := (List.range (2 ^ k * 2 ^ k)).filterMap (fun d =>
    let p := hilbertFrom k 1 0 0 d
    if p.1 < g.1 ∧ p.2 < g.2.1 then some (p.1 + g.1 * p.2) else none)
  (List.range g.2.2).flatMap (fun z => plane.map (fun i => i + g.1 * g.2.1 * z))

/-- R295, R297. The cluster placed as number k of a launch. -/
def Launch.nthCluster (l : Launch) (k : Nat) : Nat := if l.region.det then l.curve.getD k 0 else k

/-- The squads of a launch, resident, saved or retired. -/
def State.squadsOf (s : State) (l : Nat) : List (Nat × Squad) := s.squads.filter (fun e => e.2.launch == l)

/-- R297. How many clusters of a launch count as retired, in placement order. -/
def State.retiredPrefix (s : State) (id : Nat) (l : Launch) : Nat :=
  let sqs := s.squadsOf id
  ((List.range l.placed).takeWhile (fun k =>
    let c := l.nthCluster k
    (sqs.filter (fun e => e.2.cluster == c)).all (fun e => e.2.place == .retired))).length

/-- R13, R307. A block ends: save-area records that it holds for a pre-emption under way are free again. -/
def State.endBlock (s : State) (key : Nat) : State :=
  match tabFind s.blocks key with
  | none => s
  | some b =>
    let s1 := s.freeRecords ((tabFind s.launches b.launch).getD {}).region b.records
    { s1 with blocks := tabDel s1.blocks key }

/-- R98, R297, R303. A squad retires: its slot is free, its token moves on, its block ends with its last squad. -/
def State.retireSquad (s : State) (q : Nat) (sq : Squad) : State :=
  let s1 := s.modSquad q (fun x => { x with place := .retired, exiting := false, nextWait := none, moreWaits := [], released := true })
  let s2 := if s.holdsToken sq then s1.sendToken sq.launch else s1
  let bs := s2.squads.filter (fun e => e.2.blockOf == sq.blockOf)
  let s3 := if bs.all (fun e => e.2.place == .retired) then s2.endBlock sq.blockOf else s2
  match tabFind s3.launches sq.launch with
  | none => s3
  | some l => if l.region.det then s3.modLaunch sq.launch (fun x => { x with retiredClusters := s3.retiredPrefix sq.launch l }) else s3

/-- R98. Are a squad's counters zero? -/
def Squad.quiet (sq : Squad) : Bool := sq.ocLd == 0 && sq.ocSt == 0 && sq.ocCp == 0 && sq.ocTl == 0

/-- R300. The participants that a barrier of a block waits for. -/
def State.barrierCount (s : State) (b : Barrier) (key : Nat) : Nat :=
  if b.barc then b.count
  else (s.squads.filter (fun e => e.2.blockOf == key && !e.2.exiting && e.2.place != .retired && e.2.place != .waiting)).length

/-- R302. Has what a participant issued before its arrival been performed at CORE and completed? -/
def State.settled (s : State) (q : Nat) (sq : Squad) : Bool :=
  !(s.loads.any (fun o => o.2.squad == q)) && !(s.figLoads.any (fun f => f.squad == q && f.image.isSome)) &&
  !((s.core sq.core).held.any (fun e => e.squad == q)) && !(s.core sq.core).banksOf q

/-- R301. The holder of the epilogue role. -/
def State.epilogue (s : State) (det : Bool) (arrivals : List Nat) : Nat :=
  let lid (q : Nat) : Nat := ((tabFind s.squads q).getD {}).lid
  if det then arrivals.foldl (fun acc q => if lid acc < lid q then q else acc) (arrivals.headD 0)
  else arrivals.getLastD 0

/-- R300, R301. A barrier completes. -/
def State.completeBarrier (s : State) (key n : Nat) (b : Barrier) (det : Bool) : State :=
  let h := s.epilogue det b.arrivals
  let s1 := b.arrivals.foldl (fun acc q => acc.modSquad q (fun x => { x with arrived := none, barRole := some (q == h) })) s
  s1.modBlock key (fun x => { x with barriers := tabDel x.barriers n })

/-- R300. Arrivals equal the count: the epilogue role is written and the arrivals' clauses issue. -/
def execBarrierComplete (l b n : Nat) (s : State) : Host.Outcome State Fault Refusal :=
  .next (
    let key := blockKey l b
    match tabFind s.blocks key with
    | none => s
    | some blk =>
      let x := tabGet {} blk.barriers n
      let ps := x.arrivals.map (fun q => (q, (tabFind s.squads q).getD {}))
      if !x.arrivals.isEmpty && x.arrivals.length == s.barrierCount x key && ps.all (fun p => s.settled p.1 p.2) then
        s.completeBarrier key n x ((tabFind s.launches l).getD {}).region.det
      else s)

/-- R303. The commit token arrives at the next live squad over the chairlift. -/
def execTokenArrival (l : Nat) (s : State) : Host.Outcome State Fault Refusal :=
  .next (match tabFind s.launches l with
    | none => s
    | some x =>
      if x.tokenHere then s
      else match s.squadOfLid l x.tokenAt with
        | none => s
        | some e =>
          if e.2.place == .retired then s.sendToken l
          else if e.2.isResident then s.modLaunch l (fun y => { y with tokenHere := true })
          else s)

/-- R98. Once its last clause is over and its outstanding operations have taken effect, a squad retires: its token moves on and its lane
slot is free. -/
def execSquadRetire (q : Nat) (s : State) : Host.Outcome State Fault Refusal :=
  .next (match tabFind s.squads q with
    | none => s
    | some sq =>
      if !sq.exiting || !sq.quiet || ((s.lane sq.laneOf).cur.map (·.squad)) == some q then s
      else
        let r := match sq.nextWait with
          | some (.lnext _ (some r)) => r
          | _ => s.nextId
        if s.released q sq.core 2 r then s.afterRelease sq.core 2 (fun t => t.retireSquad q sq)
        else s.modSquad q (fun x => { x with nextWait := some (.lnext 0 (some r)) }))

end Sys2Proof.Machine
end

