-- ==== Sys2Proof/Machine/Place.lean ====
section
/-!
DEFINITION. Where clusters and blocks go: budgets, dies, groups, cores, lane slots, scratch, and the change of a core's region
(R15, R150, R294 to R297).
-/
namespace Sys2Proof.Machine

/-- R150. The scratch of a core, and what an allocation takes of it. -/
def scratchTotal : Nat := 0x200000
def scratchTakes (n : Nat) : Nat := (n + 511) / 512 * 512

/-- The squads resident on a core. -/
def State.residents (s : State) (core : Nat) : List (Nat × Squad) := s.squads.filter (fun e => e.2.isResident && e.2.core == core)

/-- The blocks resident on a core. -/
def State.blocksOn (s : State) (core : Nat) : List (Nat × Block) := s.blocks.filter (fun e => e.2.core == some core)

/-- R150. The allocations of a core that take scratch: where each starts and ends. -/
def State.allocs (s : State) (core : Nat) : List (Nat × Nat) :=
  ((s.blocksOn core).filter (fun e => e.2.size != 0)).map (fun e => (e.2.base, e.2.base + scratchTakes e.2.size))

/-- R150. The lowest base, a multiple of 512, at which an allocation of n bytes lies within the store and overlaps none of a core's: a
candidate is 0 or the end of an allocation. An allocation of no bytes stands at 0 (log 36). -/
def scratchGap (as_ : List (Nat × Nat)) (n : Nat) : Option Nat :=
  let ok (b : Nat) : Bool := decide (b + scratchTakes n ≤ scratchTotal) &&
    as_.all (fun e => decide (b + scratchTakes n ≤ e.1) || decide (e.2 ≤ b))
  if n = 0 then some 0 else ((0 :: as_.map (·.2)).filter ok).min?

/-- R150. Where an allocation of n bytes goes on a core that has room for it. -/
def State.scratchBase (s : State) (core n : Nat) : Nat := (scratchGap (s.allocs core) n).getD 0

/-- R295. The free lane slots of a core in the order in which a block's squads take them: by slot, then by lane. -/
def State.freeSlots (s : State) (core : Nat) : List (Nat × Nat) :=
  let used := (s.residents core).map (fun e => (e.2.slot, e.2.laneOf % 64))
  ((List.range 4).flatMap (fun i => (List.range 64).map (fun l => (i, l)))).filter (fun p => !used.contains p)

/-- R283, R295. The squads resident under a region. -/
def State.residentsUnder (s : State) (rcb : Nat) : Nat :=
  (s.squads.filter (fun e => e.2.isResident && (s.regionOf e.2).within rcb)).length

/-- R295. Do the lane-slot budgets of a region and of those above it allow n more squads? -/
def State.laneRoom (s : State) (g : Region) (n : Nat) : Bool :=
  g.path.all (fun e => decide (s.residentsUnder e.1 + n ≤ e.2.1))

/-- R296. May a core take a block of a region: empty or holding that region's squads alone, and idle if it passes? -/
def State.coreTakes (s : State) (core : Nat) (g : Region) : Bool :=
  let k := s.core core
  let passes := (k.region.map (·.rcb)) != some g.rcb
  (s.residents core).all (fun e => (s.regionOf e.2).rcb == g.rcb) &&
  (!passes || (k.copies.isEmpty && k.tiles.isEmpty && k.board.isEmpty && k.bindings.isEmpty && k.inbox.isEmpty && (tabGet [] s.inboxWait core).isEmpty))

/-- R295. A core, how many of its lane slots are free, and the allocations of its scratch. -/
structure Room where
  core : Nat
  slots : Nat
  allocs : List (Nat × Nat)
  deriving DecidableEq, Repr

/-- R295. The core for a block: the most free lane slots, then the lowest number, among those it fits. -/
def pickCore (rs : List Room) (squads bytes : Nat) : Option Room :=
  rs.foldl (fun (acc : Option Room) r =>
    if r.slots < squads ∨ scratchGap r.allocs bytes = none then acc
    else match acc with
      | none => some r
      | some a => if a.slots < r.slots then some r else some a) none

/-- R295. Put blocks, each with its squads and scratch bytes, onto a group's cores, one after another. -/
def placeBlocks (rs : List Room) (needs : List (Nat × Nat)) : Option (List Nat) :=
  match needs with
  | [] => some []
  | n :: t => match pickCore rs n.1 n.2 with
    | none => none
    | some r =>
      let b := (scratchGap r.allocs n.2).getD 0
      let as_ := if n.2 = 0 then r.allocs else (b, b + scratchTakes n.2) :: r.allocs
      let rs1 := rs.map (fun x => if x.core = r.core then { x with slots := x.slots - n.1, allocs := as_ } else x)
      (placeBlocks rs1 t).map (fun l => r.core :: l)

/-- R295. The cores of an aligned group of eight that may take blocks of a region. -/
def State.groupRoom (s : State) (g : Region) (group : Nat) : List Room :=
  ((List.range 8).map (fun i => 8 * group + i)).filterMap (fun c =>
    if g.coreMask.getLsbD c && s.coreTakes c g then
      some { core := c, slots := (s.freeSlots c).length, allocs := s.allocs c }
    else none)

/-- R295. Where blocks fit on a die: the first group. -/
def State.fitDie (s : State) (g : Region) (die : Nat) (needs : List (Nat × Nat)) : Option (List Nat) :=
  ((List.range 6).map (fun i => 6 * die + i)).findSome? (fun grp => placeBlocks (s.groupRoom g grp) needs)

/-- Does a die hold a core of a region's mask? -/
def Region.onDie (g : Region) (die : Nat) : Bool := (List.range 48).any (fun i => g.coreMask.getLsbD (48 * die + i))

/-- R297. The eligible dies of a region. -/
def Region.dies (g : Region) : List Nat := (List.range 8).filter g.onDie

/-- R297. The die of position k on the curve of C clusters. -/
def Region.dieFor (g : Region) (clusters k : Nat) : Nat :=
  let e := g.dies.length
  g.dies.getD (k / max 1 ((clusters + e - 1) / max 1 e)) 0

/-- R295, R297. The dies that cluster k of a launch may go to, in order. -/
def State.dieOrder (s : State) (l : Launch) (k : Nat) : List Nat :=
  if l.region.det then [l.region.dieFor l.clusters k]
  else ((List.range 8).map (fun i => (s.rotation + i) % 8)).filter l.region.onDie

/-- R295. Where a cluster fits: its die and the cores of its blocks. -/
def State.fit (s : State) (l : Launch) (k : Nat) (needs : List (Nat × Nat)) : Option (Nat × List Nat) :=
  if s.laneRoom l.region ((needs.map (·.1)).foldl (· + ·) 0) then
    (s.dieOrder l k).findSome? (fun d => (s.fitDie l.region d needs).map (fun cs => (d, cs)))
  else none

/-- R149, R172, R238, R296. A core passes to a region, or keeps the one it has. Its summary is read from the region's figure table at the
homes of the slots' lines; without a table every slot reads invalid (log 63). -/
def State.takeRegion (s : State) (core : Nat) (g : Region) : State :=
  if ((s.core core).region.map (·.rcb)) = some g.rcb then s.modCore core (fun k => { k with region := some g })
  else
    let sums : Tab Byte := (List.range 64).foldl (fun m i => tabPut 0 m i (if g.figTable = 0 then 0 else s.readByte (g.figTable + 128 * i))) []
    let busy := (s.figLoads.filter (fun f => f.asid == g.asid)).foldl (fun (b : BitVec 64) f => b ||| BitVec.ofNat 64 (2 ^ f.slot)) 0
    let t := if g.figTable = 0 then s else s.ownTouch g.figTable 8192 false
    t.modCore core (fun k => { k with region := some g, acc := [], wb := [], badAcc := [], badWb := [], epoch := k.epoch + 1, locks := [], tags := [],
                                      summary := sums, busy := busy })

/-- R60, R61. The mode word at placement: DET of the region and GP of the lane slot. -/
def modeAt (det : Bool) (rm slot lane : Nat) : Word := BitVec.ofNat 32 (rm + (if det then 8 else 0) + (slot * 64 + lane) * 256)

/-- R294. The blocks of cluster c of a launch, by their coordinates. -/
def Launch.blocksOf (l : Launch) (c : Nat) : List (Nat × Nat × Nat) :=
  let g := l.gridC
  let x := c % g.1
  let y := c / g.1 % g.2.1
  let z := c / (g.1 * g.2.1)
  (List.range l.cz).flatMap (fun k => (List.range l.cy).flatMap (fun j => (List.range l.cx).map (fun i =>
    (x * l.cx + i, y * l.cy + j, z * l.cz + k))))

/-- R294. The linear index of a block. -/
def Launch.blockIndex (l : Launch) (b : Nat × Nat × Nat) : Nat := b.1 + l.gx * (b.2.1 + l.gy * b.2.2)

/-- R55, R73. Are the squads of a region management firmware? The image says which regions are (log 62). -/
def State.firmware (s : State) (g : Region) : Bool := s.module.config.firmware.contains g.rcb

/-- R14, R55, R61, R73. A squad as placement creates it; one of management firmware is in privileged state. -/
def newSquad (mgmt : Bool) (id : Nat) (l : Launch) (c : Nat) (b : Nat × Nat × Nat) (qid core lane slot : Nat) : Squad :=
  { launch := id, block := l.blockIndex b, qid := qid, bx := b.1, byy := b.2.1, bz := b.2.2, cluster := c,
    lid := l.blockIndex b * l.squadsPer + qid, place := .resident core lane slot,
    vpc := threads.foldl (fun acc t => tabPut exited acc t l.entry) [], mode := modeAt l.region.det 0 slot lane, priv := mgmt,
    mgmt := mgmt }

/-- R13, R295. Put one block on a core: its allocation, reading zero, and its squads. -/
def State.putBlock1 (s : State) (id : Nat) (l : Launch) (c : Nat) (b : Nat × Nat × Nat) (core : Nat) : State :=
  let s1 := s.takeRegion core l.region
  let base := s1.scratchBase core l.scratch
  let blk : Block := { launch := id, index := l.blockIndex b, core := some core, base := base, size := l.scratch }
  let slots := s1.freeSlots core
  let other (a : Nat) : Bool := decide (a < base) || decide (base + l.scratch ≤ a)
  let s2 := s1.modCore core (fun k => { k with
    scratch := k.scratch.filter (fun e => other e.1), badScratch := k.badScratch.filter (fun e => other e.1) })
  let s3 : State := { s2 with blocks := tabIns s2.blocks (blockKey id blk.index) blk }
  (List.range l.squadsPer).foldl (fun acc i =>
    let p := slots.getD i (0, 0)
    let r := acc.newId
    { r.2 with squads := tabIns r.2.squads r.1 (newSquad (s.firmware l.region) id l c b i core p.2 p.1) }) s3

/-- R306. Is a block of a region with DET asked to leave, saved, or being restored? Its launch is one unit, and takes no new block
meanwhile. -/
def State.unitAway (s : State) (g : Region) : Bool :=
  g.det && s.blocks.any (fun e => e.2.phase != .running && ((tabFind s.launches e.2.launch).map (·.region.rcb)) == some g.rcb)

/-- R289, R297, R306. May a launch's clusters be placed: its predecessors as its edges ask, and in a region with DET alone and its unit
whole? The next launch of such a region is the next in the order of dispatch, of whatever queue, which is the model's choice (log 76). -/
def State.mayPlace (s : State) (id : Nat) (l : Launch) : Bool :=
  l.preds.all (fun p => match tabFind s.launches p.1 with
    | none => true
    | some x => p.2 && x.placed == x.clusters) &&
  (!l.region.det || !(s.launches.any (fun e => e.2.region.rcb == l.region.rcb && decide (e.1 < id)))) && !s.unitAway l.region && !l.preempted

/-- R295. The rotation pointer moves past the die of a cluster of a region without DET. -/
def State.turnRotation (s : State) (l : Launch) (die : Nat) : State :=
  if l.region.det then s else { s with rotation := (die + 1) % 8 }

/-- R295. Place the next cluster of a launch, if it fits. -/
def State.placeCluster (s : State) (id : Nat) (l : Launch) : State :=
  let c := l.nthCluster l.placed
  let bs := l.blocksOf c
  match s.fit l l.placed (bs.map (fun _ => (l.squadsPer, l.scratch))) with
  | none => s
  | some f =>
    let s1 := (bs.zip f.2).foldl (fun acc p => acc.putBlock1 id l c p.1 p.2) s
    (s1.modLaunch id (fun x => { x with placed := x.placed + 1 })).turnRotation l f.1

end Sys2Proof.Machine
end

