-- ==== Sys2Proof/Machine/Context.lean ====
section
/-!
DEFINITION. Pre-emption: its units, the halt, the context save and the restore (R141, R187, R208, R263, R267, R270, R280,
R305 to R308).
-/
namespace Sys2Proof.Machine

/-- R306. The unit that a block belongs to, by the keys of its blocks. -/
def State.unitOf (s : State) (l b : Nat) : List Nat :=
  match tabFind s.launches l with
  | none => []
  | some x =>
    if x.region.det then
      (s.blocks.filter (fun e => ((tabFind s.launches e.2.launch).map (·.region.rcb)) == some x.region.rcb)).map (·.1)
    else
      let cluster := ((s.squads.find? (fun e => e.2.launch == l && e.2.block == b)).map (·.2.cluster)).getD 0
      let mates := s.squads.filter (fun e => e.2.launch == l && e.2.cluster == cluster)
      (s.blocks.filter (fun e => e.2.launch == l && mates.any (fun q => q.2.block == e.2.index))).map (·.1)

/-- The blocks of a unit. -/
def State.unitBlocks (s : State) (ks : List Nat) : List (Nat × Block) := s.blocks.filter (fun e => ks.contains e.1)

/-- The squads of a unit that have not retired. -/
def State.unitSquads (s : State) (ks : List Nat) : List (Nat × Squad) :=
  s.squads.filter (fun e => ks.contains e.2.blockOf && e.2.place != .retired)

/-- R151. The accumulator tiles of a core that hold anything but zero. -/
def CoreS.tilesWritten (k : CoreS) : List Nat := (k.acc.map (fun e => e.1 / 32768)).eraseDups

/-- R307. How many save-area records a block takes (log 21). -/
def State.recordsFor (s : State) (blk : Block) : Nat :=
  let sqs := (s.squads.filter (fun e => e.2.blockOf == blockKey blk.launch blk.index && e.2.place != .retired)).length
  let tiles := ((blk.core.map (fun c => (s.core c).tilesWritten.length)).getD 0)
  sqs + (blk.size + recordSize - 1) / recordSize + 1 + 4 * tiles

/-- R307. The lowest n free records of a region's save area from record r up. -/
def State.findRecords (s : State) (g : Region) (fuel r n : Nat) : Option (List Nat) :=
  match fuel with
  | 0 => if n = 0 then some [] else none
  | fuel + 1 =>
    if n = 0 then some []
    else if s.recordUsed g r then s.findRecords g fuel (r + 1) n
    else (s.findRecords g fuel (r + 1) (n - 1)).map (fun l => r :: l)

/-- R307. Take records for the blocks of a unit, all or none. -/
def State.takeRecords (s : State) (bs : List (Nat × Block)) : Option State :=
  match bs with
  | [] => some s
  | b :: t =>
    let g := ((tabFind s.launches b.2.launch).getD {}).region
    match s.findRecords g (g.saveSize / recordSize - 1) 1 (s.recordsFor b.2) with
    | none => none
    | some rs =>
      let s1 := rs.foldl (fun acc r => acc.markRecord g r true) s
      (s1.modBlock b.1 (fun x => { x with records := rs })).takeRecords t

/-- R307. No record is free: the unit runs on, and a record of cause 0x23 is posted. Its source is left open (log 3). -/
def State.noRecord (s : State) (bs : List (Nat × Block)) : State :=
  let b := (bs.headD (0, {})).2
  let g := ((tabFind s.launches b.launch).getD {}).region
  let c := b.core.getD 0
  let r := s.free
  r.2.postRegion g (dieOfCore c) { cause := 0x23, source := r.1.toNat % 7, cores := coreBit c, die := dieOfCore c }

/-- R306. One block of each unit that some blocks belong to, by launch and index. -/
def State.unitsOf (s : State) (bs : List (Nat × Block)) : List (Nat × Nat) :=
  bs.foldl (fun acc e => if acc.any (fun u => (s.unitOf u.1 u.2).contains e.1) then acc else acc ++ [(e.2.launch, e.2.index)]) []

/-- R305, R306. A pre-emption reaches the cores of a unit: its lanes start no further clause for it. A unit that is being restored is
asked once that is done. -/
def State.askUnit (s : State) (l b : Nat) : State :=
  let ks := s.unitOf l b
  let bs := s.unitBlocks ks
  if bs.isEmpty then s
  else if bs.all (fun e => e.2.phase == .restoring) then ks.foldl (fun acc k => acc.modBlock k (fun x => { x with wanted := true })) s
  else if bs.any (fun e => e.2.phase != .running) then s
  else match s.takeRecords bs with
    | none => s.noRecord bs
    | some s1 =>
      let s2 := ks.foldl (fun acc k => acc.modBlock k (fun x => { x with phase := .asked })) s1
      (s.unitSquads ks).foldl (fun acc e => acc.modSquad e.1 (fun x => { x with halted := true })) s2

/-- R275. Has the award of a heat entered an inbox? -/
def State.heatEntered (s : State) (h : Nat) : Bool :=
  match tabFind s.heats h with
  | none => false
  | some x => match x.stage with
    | .result _ _ => !x.bids.isEmpty
    | .queued => false
    | .window _ => false
    | .award _ => false

/-- R305 step 1. A word of a halted squad that waits inside its clause stops the clause before it. -/
def State.stopHeld (s : State) (q : Nat) (sq : Squad) : State :=
  match (s.lane sq.laneOf).cur with
  | none => s
  | some e =>
    if e.squad ≠ q then s
    else
      let stop (x : State) : State := (x.freeLane sq.laneOf true).modSquad q (fun y =>
        { y with remainder := some { addr := e.clause.addr, index := e.idx, mask := e.mask, jump := e.jump }, fetched := none })
      match e.hold with
      | some (.read _) => s
      | some (.heat h) => if s.heatEntered h then s else stop { s with heats := tabDel s.heats h }
      | some (.slot _) => stop s
      | some .copyQueue => stop s
      | some .tileQueue => stop s
      | some .retry => s
      | some (.issue _) => s
      | some .barrier => s
      | some .lock => stop s
      | none => s

/-- R141, R208, R249, R305 steps 2 and 3. May the context of a squad be saved? -/
def State.squadIdle (s : State) (q : Nat) (sq : Squad) : Bool :=
  let k := s.core sq.core
  let inClause := ((s.lane sq.laneOf).cur.map (·.squad)) == some q
  let transit := match tabFind s.launches sq.launch with
    | some l => !l.tokenHere && l.tokenAt == sq.lid
    | none => false
  !inClause && !sq.exiting && sq.nextWait.isNone && sq.ocLd == 0 && sq.ocSt == 0 && !transit &&
  !(s.flagOps.any (fun f => f.2.squad == q)) && !(k.tiles.any (fun t => t.squad == q && t.kind != .mma)) &&
  !(k.copies.any (fun c => c.squad == q && c.ended)) && !(k.tiles.any (fun t => t.squad == q && t.ended))

/-- R270. The save begins: the names go MOVING. -/
def State.moveNames (s : State) (sqs : List (Nat × Squad)) : State :=
  sqs.foldl (fun acc e =>
    if e.2.sname = 0 then acc
    else
      let i := nameIndex e.2.sname
      acc.putDir i { (acc.dirEntry i) with st := dirMoving, core := 0, lane := 0, slot := 0, save := e.2.saveAt }) s

/-- R262, R307. Each squad of a block takes one of the block's records. -/
def State.assignRecords (s : State) (bs : List (Nat × Block)) : State :=
  bs.foldl (fun acc e =>
    let g := ((tabFind acc.launches e.2.launch).getD {}).region
    ((acc.unitSquads [e.1]).zip e.2.records).foldl (fun acc p =>
      acc.modSquad p.1.1 (fun x => { x with saveAt := g.saveBase + recordSize * p.2 })) acc) s

/-- R270. Have all deliveries forwarded to a squad been applied? -/
def State.arrivalsDone (s : State) (sq : Squad) : Bool :=
  match sq.place with
  | .resident c l i => !(s.stns.any (fun d => d.at_ == .forwarded c l i))
  | .waiting => true
  | .saved => true
  | .retired => true

/-- R307. The architectural part of a squad's record. -/
def State.saveRecord (s : State) (q : Nat) (sq : Squad) (a : Nat) : State :=
  let ext := s.holdsLock q sq
  let regs (lo n : Nat) : List Byte := (List.range n).flatMap (fun r => threads.flatMap (fun t => leBytes 8 (s.readV sq (lo + r) t).toNat))
  let s1 := s.ownStore a (regs 0 32)
  let s2 := if ext then s1.ownStore (a + 0x2000) (regs 32 32) else s1
  let s3 := s2.ownStore (a + 0x4000) ((List.range 64).flatMap (fun r => leBytes 8 (sq.readS r).toNat))
  let s4 := s3.ownStore (a + 0x4200) ((List.range 128).flatMap (fun p => threads.map (fun t => sq.readP p t)))
  let s5 := s4.ownStore (a + 0x5200) (threads.flatMap (fun t => leBytes 4 (sq.readVpc t).toNat))
  let s6 := s5.ownStore (a + 0x5280) (threads.flatMap (fun t => leBytes 4 (tabGet 0 sq.xvpc t).toNat))
  let s7 := s6.ownStore (a + 0x5300) (threads.flatMap (fun t => leBytes 4 (sq.readGen t).toNat))
  let s8 := s7.ownStore (a + 0x5380) ((List.range (if ext then 64 else 32)).map (fun r => (s.readHold sq r).setWidth 8))
  let r := s8.free
  r.2.ownStore (a + 0x53C0) ((List.range (recordSize - 0x53C0)).map (Config.ownByte s.fresh))

/-- R267. Apply a move queue to a saved image, in arrival order. -/
def State.movesToImage (s : State) (sq : Squad) (i a : Nat) : State :=
  (tabGet [] s.moves i).foldl (fun acc d => acc.applySaved sq a d) { s with moves := tabDel s.moves i }

/-- R187. Write the progress of a stopped TILE.MMA; the limb pass of a C16 tile is left open (log 3). -/
def State.saveProgress (s : State) (core : Nat) (o : TileOp) : State :=
  if o.kind == .mma && o.started then
    let r := s.free
    let limb := if tpC16 o.image then r.1.toNat % 4 else 0
    (r.2.modCore core (fun k => k.scratchWrite (o.at_ + 0x1C) (leBytes 4 (o.k % 65536 + limb * 65536)))).useBanks core o.progressPlaces
  else s

/-- R150, R187. The progress fields that a save of some squads writes on a core. -/
def State.progressOf (s : State) (qs : List Nat) (core : Nat) : List Nat :=
  ((s.core core).tiles.filter (fun o => qs.contains o.squad && o.kind == .mma && o.started)).flatMap TileOp.progressPlaces

/-- R187, R311. The CPINs of a squad's block before an operation that still write the weight buffer, in their queue or saved with it. -/
def State.wbWriters (s : State) (q core ord : Nat) : List Nat :=
  let block (x : Nat) : Nat := (tabFind s.squads x |>.getD {}).blockOf
  (((s.core core).copies ++ s.savedCopies).filter (fun c =>
    c.kind == .cpin && recSide c.image != 0 && decide (c.ord < ord) && block c.squad == block q)).map (·.id)

/-- R187. A squad's copies and tiles leave the core; the weight buffer as CPWB and tiles still read it goes with them, what an earlier
save has kept for them before what the core holds. -/
def State.saveEngines (s : State) (q core : Nat) : State :=
  let k := s.core core
  let cs := k.copies.filter (fun c => c.squad == q)
  let ts := k.tiles.filter (fun c => c.squad == q)
  let ops := cs.map (·.id) ++ ts.map (·.id)
  let s1 := ts.foldl (fun acc o => acc.saveProgress core o) s
  { (s1.modCore core (fun c => { c with
      copies := c.copies.filter (fun x => x.squad != q), tiles := c.tiles.filter (fun x => x.squad != q),
      bindings := c.bindings.filter (fun b => !ops.contains b.op), board := c.board.filter (fun b => !ops.contains b.op) })) with
    savedCopies := s1.savedCopies ++ cs.map (fun c => match c.wbSaved with
      | some _ => { c with started := false }
      | none => { c with started := false, epoch := k.epoch, epochCore := core,
                         wbSaved := if c.kind == .cpwb then some k.wb else none, wbFrom := s.wbWriters q core c.ord })
    savedTiles := s1.savedTiles ++ ts.map (fun o => match o.wbSaved with
      | some _ => { o with started := false }
      | none => { o with started := false, wbSaved := some k.wb, wbFrom := s.wbWriters q core o.ord }) }

/-- R68, R208, R263, R274, R307. Save one squad into its record; its name goes PARKED and its lane slot is free. -/
def State.saveSquad (s : State) (q a : Nat) : State :=
  match tabFind s.squads q with
  | none => s
  | some sq =>
    let p := s.pair sq.pairOf
    let ext := if s.holdsLock q sq then some (p.v, p.hold) else none
    let k := s.core sq.core
    let served := k.servedBy sq.sname
    let s1 := (s.saveRecord q sq a).saveEngines q sq.core
    let s2 := s1.endServers (s1.regionOf sq).rcb sq.core sq.sname
    let s3 := s2.modPair sq.pairOf (releaseLocks [q])
    let sq1 : Squad := { sq with place := .saved, saveAt := a, savedExt := ext, fetched := none,
                                 wcbWait := sq.wcbWait ++ k.wcb.map (fun w => (sq.core, w.id)), serves := BitVec.ofNat 16 (served.foldl (fun acc c => acc + 2 ^ c) 0) }
    let s4 := s3.modSquad q (fun _ => sq1)
    if sq.sname = 0 then s4
    else
      let i := nameIndex sq.sname
      let s5 := s4.movesToImage sq1 i a
      s5.putDir i { (s5.dirEntry i) with st := dirParked, queued := 0, core := 0, lane := 0, slot := 0, save := a }

/-- R307. Save one block: its squads, its scratch and its core's written accumulator tiles. The bytes of the further records
are in the device's own format. -/
def State.saveBlock (s : State) (key : Nat) (blk : Block) : State :=
  let g := ((tabFind s.launches blk.launch).getD {}).region
  let core := blk.core.getD 0
  let at_ (r : Nat) : Nat := g.saveBase + recordSize * r
  let sqs := s.unitSquads [key]
  let s1 := (sqs.zip blk.records).foldl (fun acc p => acc.saveSquad p.1.1 (at_ p.2)) s
  let rest := blk.records.drop sqs.length
  let s2 := rest.foldl (fun acc r => (acc.free).2.ownStore (at_ r) ((List.range recordSize).map (Config.ownByte acc.fresh))) s1
  let k := s2.core core
  let mine (a : Nat) : Bool := decide (blk.base ≤ a) && decide (a < blk.base + blk.size)
  s2.modBlock key (fun x => { x with core := none, phase := .saved, savedAcc := k.acc, savedBadAcc := k.badAcc,
                                     savedScratch := (k.scratch.filter (fun e => mine e.1)).map (fun e => (e.1 - blk.base, e.2)),
                                     savedBad := (k.badScratch.filter (fun e => mine e.1)).map (fun e => (e.1 - blk.base, e.2)) })

/-- R280. When the last squad of the region has left a core, its inbox entries are saved with the unit. -/
def State.saveInbox (s : State) (key core : Nat) : State :=
  if (s.residents core).isEmpty then
    { (s.modCore core (fun k => { k with inbox := [] })) with
      savedInbox := tabPut [] s.savedInbox key (tabGet [] s.savedInbox key ++ (s.core core).inbox ++ tabGet [] s.inboxWait core)
      inboxWait := tabDel s.inboxWait core }
  else s

/-- R150, R280, R305. Save a unit, once its cores' combining-buffer entries are applied and the banks of its progress fields are free. The
inboxes of several cores follow each other in the order of the unit's blocks, which is the model's choice (log 74). -/
def State.saveUnit (s : State) (ks : List Nat) : State :=
  let bs := s.unitBlocks ks
  let cores := (bs.map (fun e => e.2.core.getD 0)).eraseDups
  let s1 := cores.foldl (fun acc c => acc.releaseApply c 2) s
  let qs := (s.unitSquads ks).map (·.1)
  let busy := cores.filter (fun c => !(s1.core c).banksFree (s1.progressOf qs c))
  if cores.any (fun c => s1.combining.any (fun e => e.cores.contains c)) then s1
  else if !busy.isEmpty then busy.foldl State.bankRefuse s1
  else
    let s2 := bs.foldl (fun acc e => acc.saveBlock e.1 e.2) s1
    cores.foldl (fun acc c => acc.saveInbox (ks.headD 0) c) s2

/-- R305. One step of a context save: words that wait stop; then the names go MOVING; then the contexts are written. -/
def State.contextSave (s : State) (l b : Nat) : State :=
  let ks := s.unitOf l b
  let bs := s.unitBlocks ks
  if bs.isEmpty then s
  else if bs.all (fun e => e.2.phase == .asked) then
    let s1 := (s.unitSquads ks).foldl (fun acc e => acc.stopHeld e.1 e.2) s
    let sqs := s1.unitSquads ks
    if sqs.all (fun e => s1.squadIdle e.1 e.2) then
      let s2 := s1.assignRecords bs
      ks.foldl (fun acc k => acc.modBlock k (fun x => { x with phase := .saving, upto := s1.nextId })) (s2.moveNames (s2.unitSquads ks))
    else s1
  else if bs.all (fun e => e.2.phase == .saving) then
    let upto := ((bs.headD (0, {})).2).upto
    if (s.unitSquads ks).all (fun e => s.arrivalsDone e.2 && s.released e.1 e.2.core 2 upto) then s.saveUnit ks else s
  else s

/-- R187, R311. A saved copy on its new core: its base, and a CPIN into a weight buffer that is not the one it was saved from, by core
and epoch, starts over. -/
def CopyOp.resume (c : CopyOp) (core base : Nat) (epoch : Word) : CopyOp :=
  let c1 := { c with base := base }
  if c.epochCore = core ∧ c.epoch = epoch then c1
  else if c.kind == .cpin && recSide c.image != 0 then
    { c1 with epoch := epoch, epochCore := core, row := 0, gen := copyGen c.image, under := 0, slab := 0, next := 0, units := 0 }
  else c1

/-- R187. A saved tile on its new core. -/
def TileOp.resume (o : TileOp) (base : Nat) : TileOp := { o with base := base, at_ := o.at_ + base - o.base }

/-- R175, R187. The parked operations of a unit's squads take their places on their new cores: after everything there, in their old order
across the unit (log 64). -/
def State.renumber (s : State) (qs : List Nat) : State :=
  let ords := (s.savedCopies.filter (fun c => qs.contains c.squad)).map (·.ord) ++ (s.savedTiles.filter (fun c => qs.contains c.squad)).map (·.ord)
  let new (o : Nat) : Nat := s.nextId + (ords.filter (fun x => decide (x < o))).length
  { s with
    savedCopies := s.savedCopies.map (fun c => if qs.contains c.squad then { c with ord := new c.ord } else c)
    savedTiles := s.savedTiles.map (fun c => if qs.contains c.squad then { c with ord := new c.ord } else c)
    nextId := s.nextId + ords.length }

/-- R175. An operation at its place in a queue. -/
def insertCopy (l : List CopyOp) (c : CopyOp) : List CopyOp :=
  l.filter (fun x => decide (x.ord < c.ord)) ++ c :: l.filter (fun x => decide (c.ord ≤ x.ord))
def insertTile (l : List TileOp) (o : TileOp) : List TileOp :=
  l.filter (fun x => decide (x.ord < o.ord)) ++ o :: l.filter (fun x => decide (o.ord ≤ x.ord))

/-- R175, R187. A squad's parked operations enter the queues, the bindings and the scoreboard of its new core. -/
def State.restoreEngines (s : State) (q core base : Nat) : State :=
  let e := (s.core core).epoch
  let cs := (s.savedCopies.filter (fun c => c.squad == q)).map (fun c => c.resume core base e)
  let ts := (s.savedTiles.filter (fun c => c.squad == q)).map (fun c => c.resume base)
  { (s.modCore core (fun k => { k with
      copies := cs.foldl insertCopy k.copies, tiles := ts.foldl insertTile k.tiles,
      bindings := k.bindings ++ cs.flatMap CopyOp.binds ++ ts.flatMap TileOp.binds, board := k.board ++ cs.flatMap CopyOp.boards })) with
    savedCopies := s.savedCopies.filter (fun c => c.squad != q)
    savedTiles := s.savedTiles.filter (fun c => c.squad != q)
    redx := s.redx.map (fun r => if r.squad = q then { r with core := core } else r) }

/-- R307. The n-th k-byte value of a record. -/
def State.recVal (s : State) (a k n : Nat) : Nat := s.readLe (a + k * n) k

/-- R16, R60, R307. The registers of a squad, read back from its record. -/
def State.loadRecord (s : State) (sq : Squad) (core lane slot : Nat) : Squad :=
  let a := sq.saveAt
  let regs (at_ : Nat) : Tab Reg := tabPuts 0 [] ((List.range 1024).map (fun i => (i, BitVec.ofNat 64 (s.recVal at_ 8 i))))
  let holds (lo n : Nat) : Tab (BitVec 6) := tabPuts 0 [] ((List.range n).map (fun i => (lo + i, BitVec.ofNat 6 (s.recVal (a + 0x5380) 1 (lo + i)))))
  { sq with
    place := .resident core lane slot
    v := regs a
    savedExt := sq.savedExt.map (fun _ => ((regs (a + 0x2000)).map (fun e => (e.1 + 1024, e.2)), holds 32 32))
    hold := holds 0 32
    sc := tabPuts 0 [] ((List.range 63).map (fun i => (i + 1, BitVec.ofNat 64 (s.recVal (a + 0x4000) 8 (i + 1)))))
    pr := tabPuts 0 [] ((List.range 4064).map (fun i => (i + 32, BitVec.ofNat 8 (s.recVal (a + 0x4200) 1 (i + 32)))))
    vpc := tabPuts exited [] (threads.map (fun t => (t, BitVec.ofNat 32 (s.recVal (a + 0x5200) 4 t))))
    xvpc := tabPuts 0 [] (threads.map (fun t => (t, BitVec.ofNat 32 (s.recVal (a + 0x5280) 4 t))))
    gen := tabPuts 0 [] (threads.map (fun t => (t, BitVec.ofNat 32 (s.recVal (a + 0x5300) 4 t))))
    mode := modeAt sq.det (sq.mode.toNat % 8) slot lane }

/-- R274. The classes a squad serves are registered on its new core. -/
def State.restoreServers (s : State) (sq : Squad) (core : Nat) : State :=
  let rcb := (s.regionOf sq).rcb
  ((List.range 16).filter (fun c => sq.serves.getLsbD c)).foldl (fun acc c =>
    let x := acc.classOf rcb c
    { (acc.modCore core (fun k => { k with servers := tabPut 0 k.servers c sq.sname })) with
      classes := tabPut {} acc.classes (classKey rcb c) { x with servers := x.servers ||| serverBit core } }) s

/-- R9, R296, R306. Restore one block onto a core: its records are read at their homes, then its allocation, accumulator tiles and squads,
whose names go MOVING. -/
def State.restoreBlock (s : State) (key : Nat) (blk : Block) (core : Nat) : State :=
  let l := (tabFind s.launches blk.launch).getD {}
  let s0 := s.takeRegion core l.region
  let s1 := blk.records.foldl (fun acc r => acc.ownTouch (l.region.saveBase + recordSize * r) recordSize false) s0
  let base := s1.scratchBase core blk.size
  let slots := s1.freeSlots core
  let tiles := (blk.savedAcc.map (fun e => e.1 / 32768)).eraseDups
  let other (a : Nat) : Bool := decide (a < base) || decide (base + blk.size ≤ a)
  let s2 := s1.modCore core (fun k => { k with
    scratch := tabPuts 0 (k.scratch.filter (fun e => other e.1)) (blk.savedScratch.map (fun e => (base + e.1, e.2)))
    badScratch := tabPuts false (k.badScratch.filter (fun e => other e.1)) (blk.savedBad.map (fun e => (base + e.1, e.2)))
    acc := tabPuts 0 (k.acc.filter (fun e => !tiles.contains (e.1 / 32768))) blk.savedAcc
    badAcc := tabPuts false (k.badAcc.filter (fun e => !tiles.contains (e.1 / 32768))) blk.savedBadAcc })
  let s3 := s2.modBlock key (fun x => { x with core := some core, base := base, phase := .restoring, savedScratch := [], savedAcc := [], savedBad := [], savedBadAcc := [] })
  let sqs := s3.unitSquads [key]
  (sqs.zip slots).foldl (fun acc p =>
    let sq := acc.loadRecord p.1.2 core p.2.2 p.2.1
    let sq1 : Squad := { sq with wcbWait := sq.wcbWait.filter (fun w => w.1 != core) }
    let s4 := ((acc.modSquad p.1.1 (fun _ => sq1)).restoreEngines p.1.1 core base).moveNames [(p.1.1, sq1)]
    s4.restoreServers sq1 core) s3

/-- R306. Restore the clusters of a unit one after another, all or none. -/
def State.restoreClusters (s : State) (gs : List (List (Nat × Block))) : Option State :=
  match gs with
  | [] => some s
  | g :: t =>
    let l := (tabFind s.launches (g.headD (0, {})).2.launch).getD {}
    let c := ((s.squads.find? (fun e => e.2.blockOf == (g.headD (0, {})).1)).map (·.2.cluster)).getD 0
    let k := if l.region.det then l.curve.idxOf c else c
    match s.fit l k (g.map (fun e => ((s.unitSquads [e.1]).length, e.2.size))) with
    | none => none
    | some f => (((g.zip f.2).foldl (fun acc p => acc.restoreBlock p.1.1 p.1.2 p.2) s).turnRotation l f.1).restoreClusters t

/-- R295, R297. Clusters of launches, by launch and linear index, in the order of their placement: those of a DET launch on its curve. -/
def State.placementOrder (s : State) (cs : List (Nat × Nat)) : List (Nat × Nat) :=
  ((cs.map (·.1)).eraseDups).flatMap (fun n =>
    let l := (tabFind s.launches n).getD {}
    let mine := cs.filter (fun c => c.1 == n)
    if l.region.det then (l.curve.map (fun c => (n, c))).filter mine.contains else mine)

/-- R306. The clusters of a unit, in the order in which they are placed. -/
def State.unitClusters (s : State) (ks : List Nat) : List (List (Nat × Block)) :=
  let bs := s.unitBlocks ks
  let of (e : Nat × Block) : Nat × Nat := (e.2.launch, ((s.squads.find? (fun q => q.2.blockOf == e.1)).map (·.2.cluster)).getD 0)
  (s.placementOrder ((bs.map of).eraseDups)).map (fun c => bs.filter (fun e => of e == c))

/-- R68. May a resumed holder retake its pair lock: free, with no clause in execution on the lane, whose XLOCK may still be to run? -/
def State.lockFree (s : State) (sq : Squad) : Bool := (s.pair sq.pairOf).owner.isNone && (s.lane sq.laneOf).cur.isNone

/-- R68, R208, R267, R270. The last part of a squad's restore: the pair lock retaken, the move queue applied, the name LIVE,
the acquire; none while a lock to retake is not free. -/
def State.finishSquad (s : State) (q : Nat) (sq : Squad) : State :=
  if sq.saveAt = 0 ∨ (sq.savedExt.isSome ∧ s.lockFree sq = false) then s
  else
    let s1 := match sq.savedExt with
      | some x => s.modPair sq.pairOf (fun _ => { v := x.1, hold := x.2, owner := some q, last := some q })
      | none => s
    let s2 := s1.modSquad q (fun x => { x with savedExt := none, saveAt := 0, halted := false, serves := 0 })
    let s3 := if sq.sname = 0 then s2
      else
        let i := nameIndex sq.sname
        let s4 := (tabGet [] s2.moves i).foldl (fun acc d => match tabFind acc.squads q with
          | some y => acc.arrive q y d
          | none => acc) { s2 with moves := tabDel s2.moves i }
        s4.putDir i (sq.dirPlace { gen := nameGen sq.sname })
    s3.acquire sq.core

/-- R280. A unit's saved inbox entries enter the inbox of the core of its first block. -/
def State.restoreInbox (s : State) (key core : Nat) : State :=
  let w := tabGet [] s.savedInbox key
  { s with savedInbox := tabDel s.savedInbox key
           inboxWait := tabPut [] s.inboxWait core (tabGet [] s.inboxWait core ++ w) }.refillInbox core

/-- R293, R306. One step of a restore: the unit is placed and its contexts loaded; then its squads finish, each when it can. A unit
that was asked for again in the meantime is asked to leave at once. -/
def State.contextRestore (s : State) (l b : Nat) : State :=
  let ks := s.unitOf l b
  let bs := s.unitBlocks ks
  if bs.isEmpty then s
  else if bs.all (fun e => e.2.phase == .saved) then
    if ((tabFind s.launches l).getD {}).preempted then s
    else match (s.renumber ((s.unitSquads ks).map (·.1))).restoreClusters (s.unitClusters ks) with
      | none => s
      | some s1 =>
        let key := ks.headD 0
        s1.restoreInbox key ((s1.block key).core.getD 0)
  else if bs.all (fun e => e.2.phase == .restoring) then
    let s1 := (s.unitSquads ks).foldl (fun acc e => acc.finishSquad e.1 e.2) s
    if (s1.unitSquads ks).all (fun e => e.2.saveAt == 0) then
      let s2 := bs.foldl (fun acc e =>
        (acc.freeRecords ((tabFind acc.launches e.2.launch).getD {}).region e.2.records).modBlock e.1 (fun x =>
          { x with phase := .running, records := [], wanted := false })) s1
      if bs.any (fun e => e.2.wanted) then s2.askUnit l b else s2
    else s1
  else s

/-- R305. A pre-emption request stops issue for the unit's squads and stops its engines at boundaries. -/
def execPreemptionRequest (l b : Nat) (s : State) : Host.Outcome State Fault Refusal :=
  .next (s.askUnit l b)

/-- R305. A halted unit's contexts are written to the save area, and its names go PARKED. -/
def execContextSave (l b : Nat) (s : State) : Host.Outcome State Fault Refusal :=
  .next (s.contextSave l b)

/-- R306. A saved unit is restored whole onto cores, its names go LIVE, and it acquires before its first clause. -/
def execContextRestore (l b : Nat) (s : State) : Host.Outcome State Fault Refusal :=
  .next (s.contextRestore l b)

end Sys2Proof.Machine
end

