-- ==== Sys2Proof/Machine/QueueOps.lean ====
section
/-!
DEFINITION. What the queue scheduler and its slots do: region resolution, descriptors, packets and their checks, memory reached
on a queue's behalf, binding and unbinding (R282, R283, R285 to R293, R321).
-/
namespace Sys2Proof.Machine

/-- R282. A region control block as memory holds it. -/
structure Rcb where
  addr : Nat := 0
  parent : Nat := 0
  root : Nat := 0
  asid : Nat := 0
  priority : Nat := 0
  det : Bool := false
  domain : Bool := false
  svc : Nat := 0
  deadline : Nat := 0
  codeBase : Nat := 0
  codeSize : Nat := 0
  handler : Nat := 0
  saveBase : Nat := 0
  saveSize : Nat := 0
  pinQuota : Nat := 0
  lanes : Nat := 0
  names : Nat := 0
  coreMask : BitVec 384 := 0
  faultQueue : Nat := 0
  figTable : Nat := 0
  paramWin : Nat := 0
  deriving DecidableEq, Repr

/-- R282. Read a region control block. -/
def State.readRcb (s : State) (a : Nat) : Rcb :=
  { addr := a, parent := s.readPa a, root := s.readPa (a + 0x08), asid := s.readLe (a + 0x10) 2,
    priority := s.readLe (a + 0x12) 1, det := bitOf (s.readLe (a + 0x13) 1) 0, domain := bitOf (s.readLe (a + 0x13) 1) 1,
    svc := s.readLe (a + 0x14) 1, deadline := s.readLe (a + 0x16) 2, codeBase := s.readLe (a + 0x18) 8,
    codeSize := s.readLe (a + 0x20) 4, handler := s.readLe (a + 0x24) 4, saveBase := s.readPa (a + 0x28),
    saveSize := s.readLe (a + 0x30) 8, pinQuota := s.readLe (a + 0x38) 8, lanes := s.readLe (a + 0x40) 4,
    names := s.readLe (a + 0x44) 2, coreMask := BitVec.ofNat 384 (s.readLe (a + 0x48) 48), faultQueue := s.readPa (a + 0x78),
    figTable := s.readPa (a + 0x80), paramWin := s.readLe (a + 0x88) 8 }

/-- R283. A zero field takes the parent's value. -/
def inherit (own parent : Nat) : Nat := if own = 0 then parent else own

/-- R283. A budget resolves to the lesser of its own value and the parent's. -/
def capped (own parent : Nat) : Nat := if own = 0 then parent else min own parent

/-- R283. The defaults of a root. -/
def rootDefaults : Region := { path := [(0, 98304, 16384)], priority := 8, svc := 2, deadline := 1023, pinQuota := 0,
                               coreMask := BitVec.allOnes 384, paramWin := 0xF000000000 }

/-- R283. The lane-slot and named-squad budgets that a region's children see. -/
def Region.budgets (g : Region) : Nat × Nat :=
  match g.path with
  | [] => (98304, 16384)
  | e :: _ => e.2

/-- R283, R284. A control block resolved under its parent's resolved fields. -/
def Rcb.under (r : Rcb) (p : Region) (isRoot : Bool) : Region :=
  let b := (capped r.lanes p.budgets.1, capped r.names p.budgets.2)
  let mask := if r.coreMask = 0 then p.coreMask else r.coreMask &&& p.coreMask
  { rcb := r.addr, path := (r.addr, b.1, b.2) :: (if isRoot then [] else p.path), root := inherit r.root p.root,
    asid := inherit r.asid p.asid, priority := inherit r.priority p.priority, det := r.det || p.det,
    domain := if r.domain || isRoot then r.addr else p.domain, svc := if r.svc = 0 then p.svc else r.svc - 1,
    deadline := inherit r.deadline p.deadline, codeBase := inherit r.codeBase p.codeBase, codeSize := inherit r.codeSize p.codeSize,
    handler := inherit r.handler p.handler, saveBase := inherit r.saveBase p.saveBase, saveSize := inherit r.saveSize p.saveSize,
    pinQuota := if isRoot then r.pinQuota else capped r.pinQuota p.pinQuota, coreMask := mask,
    faultQueue := inherit r.faultQueue p.faultQueue, figTable := inherit r.figTable p.figTable,
    paramWin := inherit r.paramWin p.paramWin }

/-- R283. The control blocks from a region to its root, with fuel. -/
def State.rcbChain (s : State) (fuel a : Nat) : Option (List Rcb) :=
  match fuel with
  | 0 => none
  | fuel + 1 =>
    let r := s.readRcb a
    if r.parent = 0 then some [r] else (s.rcbChain fuel r.parent).map (fun l => r :: l)

/-- R283. Resolve a chain, its root last. -/
def resolveChain : List Rcb → Region
  | [] => rootDefaults
  | [r] => r.under rootDefaults true
  | r :: t => r.under (resolveChain t) false

/-- R283. A root leaves none of these at zero: a code segment is at zero when its size is, the save area when its base is
(log 29). -/
def Rcb.complete (r : Rcb) : Bool :=
  r.root != 0 && r.asid != 0 && r.codeSize != 0 && r.saveBase != 0 && r.faultQueue != 0

/-- R283. The resolved fields of a region of a function, by the address of its control block, of which 52 bits count (log 58); none when
its root is incomplete. -/
def State.resolve (s : State) (a fn : Nat) : Option Region :=
  match s.rcbChain 4096 (a % 2 ^ 52) with
  | none => none
  | some l => if (l.getLast?.map Rcb.complete).getD false then some { resolveChain l with fn := fn } else none

/-- R285. A queue descriptor. -/
structure QDesc where
  ring : Nat := 0
  logN : Nat := 0
  owner : Nat := 0
  enabled : Bool := false
  status : Nat := 0
  slice : Nat := 0
  wr : Nat := 0
  rd : Nat := 0
  rcb : Nat := 0
  deriving DecidableEq, Repr

/-- R285. Read descriptor q. -/
def State.qdesc (s : State) (q : Nat) : QDesc :=
  let d := s.queueDesc q
  { ring := s.readLe d 8, logN := s.readLe (d + 8) 1, owner := s.readLe (d + 9) 1, enabled := bitOf (s.readLe (d + 0x0A) 1) 0,
    status := s.readLe (d + 0x0B) 1, slice := s.readLe (d + 0x0C) 4, wr := s.readLe (d + 0x10) 4, rd := s.readLe (d + 0x14) 4,
    rcb := s.readPa (d + 0x18) }

/-- R283, R285. The resolved region of a queue. -/
def State.queueRegion (s : State) (q : Nat) : Option Region := let d := s.qdesc q; s.resolve d.rcb d.owner

/-- The launches of a queue. -/
def State.launchesOf (s : State) (q : Nat) : List (Nat × Launch) := s.launches.filter (fun e => e.2.queue == q)

/-- The slot a queue is bound to. -/
def State.slotOf (s : State) (q : Nat) : Option (Nat × Slot) := s.slots.find? (fun e => e.2.st == .run && e.2.queue == q)

/-- R335. Do queues run: bring-up is over and the module is not halted? -/
def State.running (s : State) : Bool := s.module.power == .active || s.module.power == .throttled

/-- R285. Is a queue runnable? -/
def State.runnable (s : State) (q : Nat) : Bool :=
  let d := s.qdesc q
  s.running && d.enabled && d.status == 0 && (d.rd != d.wr || !(s.launchesOf q).isEmpty) && (s.queueRun q).waiting.isNone

/-- R287. The page of an address reached on a queue's behalf: mapped, resident, well formed, permitted. -/
def State.devPage (s : State) (g : Region) (write : Bool) (va : Nat) : Option Page :=
  if 2 ^ 56 ≤ va then none
  else match s.walk g.root va with
    | .page p => if (if write then p.w else p.r) then some p else none
    | .absent => none
    | .malformed => none

/-- R287. The place of an n-byte value that does not cross a page; none when it cannot be reached or its line is poisoned. -/
def State.devPlace (s : State) (g : Region) (write : Bool) (va : Nat) : Option (Page × Nat) :=
  match s.devPage g write va with
  | none => none
  | some p => if !p.host && s.isPoisoned (p.pa va) then none else some (p, p.pa va)

/-- R287. The bytes from a virtual address; none when one of them cannot be read. -/
def State.devBytes (s : State) (g : Region) (va n : Nat) : Option (List Byte) :=
  match n with
  | 0 => some []
  | n + 1 => match s.devPlace g false va with
    | none => none
    | some p => (s.devBytes g (va + 1) n).map (fun l => s.homeByte p.1.host p.2 :: l)

/-- The lines of HBM that n bytes from a virtual address lie on, by their addresses divided by 128, with their homes. -/
def State.devLines (s : State) (g : Region) (va n : Nat) : List (Nat × Nat) :=
  ((List.range ((va + n + 127) / 128 - va / 128)).map (fun i => 128 * (va / 128 + i))).filterMap (fun a =>
    match s.devPage g false a with
    | none => none
    | some p => if p.host then none else some (p.pa a / 128, p.home))

/-- R211, R287. Read n bytes on a queue's behalf at their homes, and go on with them. -/
def State.devRead (s : State) (g : Region) (va n : Nat) (f : State → Option (List Byte) → State) : State :=
  let ls := s.devLines g va n
  s.serveLines (ls.map (·.1)) (fun s1 =>
    let s2 := ls.foldl (fun acc l => acc.touchHome g.sliceAsker false (l.1 * 128) l.2 false) s1
    f s2 (s2.devBytes g va n))

/-- R288, R290. Write an 8-byte word at its home slice, at DEV scope. -/
def State.devWrite (s : State) (g : Region) (p : Page × Nat) (v : Nat) : State :=
  (s.touchHome g.sliceAsker p.1.host p.2 p.1.home true).homeStore p.1.host p.2 (leBytes 8 v)

/-- R290. Queues that wait on a word are due for another read. -/
def State.signalled (s : State) (pa : Nat) : State :=
  { s with queues := s.queues.map (fun (e : Nat × QueueRun) => match e.2.waiting with
      | some w => if w.1 = pa then (e.1, { e.2 with due := true }) else e
      | none => e) }

/-- R285. A queue's read index moves to a packet. -/
def State.setRead (s : State) (q rd : Nat) : State := s.ownStore (s.queueDesc q + 0x14) (leBytes 4 rd)

/-- R292. A slot frees when its queue is not runnable any more. -/
def State.settleQueue (s : State) (q : Nat) : State :=
  match s.slotOf q with
  | none => s
  | some _ => if s.runnable q then s else s.unbind q

/-- R289. A slot has finished its packet: the read index moves on. -/
def State.advanceSlot (s : State) (i : Nat) (sl : Slot) : State :=
  let next := (sl.next + 1) % 2 ^ 32
  let s1 := { s with slots := tabIns s.slots i { sl with next := next, busy := [], graph := none } }.setRead sl.queue next
  s1.settleQueue sl.queue

/-- R285, R293. May a slot begin a packet? -/
def State.mayBegin (s : State) (sl : Slot) : Bool :=
  let d := s.qdesc sl.queue
  let held := s.blocks.any (fun e => e.2.phase != .running && ((tabFind s.launches e.2.launch).map (·.queue)) == some sl.queue)
  sl.st == .run && sl.busy.isEmpty && sl.graph.isNone && d.enabled && d.status == 0 && sl.next != d.wr && !held && s.running

/-- R285. The packet a slot begins, read at its home: its queue's region, and its 64 bytes unless they cannot be read. -/
def State.withPacket (s : State) (sl : Slot) (f : State → Option Region → Option (List Byte) → State) : State :=
  if s.mayBegin sl then
    let d := s.qdesc sl.queue
    match s.resolve d.rcb d.owner with
    | none => f s none none
    | some g => s.devRead g (d.ring + 64 * (sl.next % 2 ^ d.logN)) 64 (fun t p => f t (some g) p)
  else s

/-- R287. The first status of a list whose condition holds. -/
def firstStatus (l : List (Nat × Bool)) : Option Nat := (l.find? (·.2)).map (·.1)

/-- R287. The fields of a packet's header. -/
def pkType (p : List Byte) : Nat := fld p 0 1
def pkEdge (p : List Byte) : Nat := fld p 1 1 % 4
def pkId (p : List Byte) : Nat := fld p 4 4

/-- R287. Is a reserved field of the header non-zero? -/
def pkReserved (p : List Byte) : Bool := decide (4 ≤ fld p 1 1) || fld p 2 2 != 0

/-- Are the bytes of a packet from one place up to another zero? -/
def zeroFrom (p : List Byte) (a b : Nat) : Bool := ((p.drop a).take (b - a)).all (· == 0)

/-- R285. The failing packet id that a descriptor holds, which stays where no packet could be read (log 61). -/
def State.lastFailed (s : State) (q : Nat) : Nat := s.readLe (s.queueDesc q + 0x20) 4

/-- R287. A packet whose type belongs to another event, or that cannot be read, as the LAUNCH event sees it: the status. -/
def unreadStatus (g : Option Region) (p : Option (List Byte)) : Option Nat :=
  match g, p with
  | none, _ => some 4
  | some _, none => some 6
  | some _, some b => if pkType b = 0 ∨ 5 < pkType b then some 1 else none

/-- R288. The launch that an image describes, in a region. -/
def imageLaunch (p : List Byte) (q : Nat) (g : Region) : Launch :=
  { region := g, queue := q, packetId := pkId p, entry := BitVec.ofNat 32 (fld p 0x08 4), gx := fld p 0x0C 4, gy := fld p 0x10 4,
    gz := fld p 0x14 4, cx := fld p 0x18 1, cy := fld p 0x19 1, cz := fld p 0x1A 1, squadsPer := fld p 0x1B 1,
    scratch := fld p 0x1C 4, signal := fld p 0x28 8, value := fld p 0x30 8 }

/-- R288. Is a field of a launch image out of range? -/
def imageRange (p : List Byte) (code : Option Nat) (edge : Bool) : Bool :=
  let g (i : Nat) : Nat := fld p (0x0C + 4 * i) 4
  let c (i : Nat) : Nat := fld p (0x18 + i) 1
  let badDim (i : Nat) : Bool := g i == 0 || c i == 0 || g i % c i != 0
  (edge && pkEdge p == 3) || fld p 0x08 4 % 4 != 0 || (code.map (fun n => decide (n ≤ fld p 0x08 4))).getD false ||
  badDim 0 || badDim 1 || badDim 2 || decide (8 < c 0 * c 1 * c 2) || fld p 0x1B 1 == 0 || decide (16 < fld p 0x1B 1) ||
  fld p 0x1C 4 % 256 != 0 || decide (scratchTotal < fld p 0x1C 4) || fld p 0x20 8 % 256 != 0 || fld p 0x28 8 % 8 != 0

/-- R287. Does one cluster of a launch need more than its region's resolved budget allows? -/
def Launch.tooLarge (l : Launch) : Bool :=
  let n := l.cx * l.cy * l.cz
  let per := min (256 / max 1 l.squadsPer) (if l.scratch = 0 then 256 else scratchTotal / scratchTakes l.scratch)
  let group (i : Nat) : Bool := decide (n ≤ per * ((List.range 8).filter (fun j => l.region.coreMask.getLsbD (8 * i + j))).length)
  decide (l.region.budgets.1 < n * l.squadsPer) || !((List.range 48).any group)

/-- R287. The status of a launch image of a queue whose region is g, or the launch. -/
def State.checkImage (s : State) (q : Nat) (g : Region) (p : List Byte) (edge : Bool) : Except Nat Launch :=
  let r := s.resolve (fld p 0x20 8) g.fn
  let st := firstStatus [
    (1, pkType p != 1),
    (2, pkReserved p || !zeroFrom p 0x38 64),
    (3, imageRange p (r.map (·.codeSize)) edge),
    (4, !((r.map (fun x => x.within g.rcb)).getD false)),
    (5, (r.map (fun x => (imageLaunch p q x).tooLarge)).getD false)]
  match st, r with
  | some n, _ => .error n
  | none, some x => .ok (imageLaunch p q x)
  | none, none => .error 4

/-- R283, R288. A launch enters the launch table. -/
def State.addLaunch (s : State) (l : Launch) : Nat × State :=
  let r := s.newId
  (r.1, { r.2 with launches := tabIns r.2.launches r.1 l, roots := tabPut 0 r.2.roots l.region.asid l.region.root })

/-- R289. The predecessors that an edge names: the launches of the latest earlier packet that has any, a LAUNCH's one or every node of a
GRAPH, for a LAUNCH and for a GRAPH alike. The rule reads two ways there, and this is the model's choice (log 76). -/
def State.edgePreds (s : State) (q edge : Nat) : List (Nat × Bool) :=
  if edge = 0 then [] else (s.queueRun q).latest.map (fun l => (l, edge == 2))

/-- R288, R289. A slot begins a LAUNCH. -/
def State.beginLaunch (s : State) (i : Nat) (sl : Slot) (l : Launch) (edge : Nat) : State :=
  if 256 ≤ s.launches.length then s
  else
    let r := s.addLaunch { l with preds := s.edgePreds sl.queue edge }
    { r.2 with slots := tabIns r.2.slots i { sl with busy := [r.1] } }.modQueue sl.queue (fun x => { x with latest := [r.1] })

/-- R289, R291. The slot's packet is finished when every launch of it has been placed in full and no node is left. -/
def State.slotDone (s : State) (i : Nat) (sl : Slot) : State :=
  let open_ := sl.busy.filter (fun l => match tabFind s.launches l with
    | some x => decide (x.placed < x.clusters)
    | none => false)
  let left := match sl.graph with
    | some g => match tabFind s.graphs g with
      | some x => decide (x.nodes.length < x.count)
      | none => false
    | none => false
  if open_.isEmpty && !left && (!sl.busy.isEmpty || sl.graph.isSome) then s.advanceSlot i sl else s

/-- R289. A cluster of a launch has been placed whose queue has lost its slot meanwhile: with the last one of the packet the read
index moves on all the same, unless the queue has a status (R287). -/
def State.placedUnbound (s : State) (x : Launch) : State :=
  let open_ := (s.launchesOf x.queue).any (fun e => decide (e.2.placed < e.2.clusters))
  let left := s.graphs.any (fun e => e.2.queue == x.queue && decide (e.2.nodes.length < e.2.count))
  let d := s.qdesc x.queue
  if open_ || left || d.status != 0 then s else s.setRead x.queue ((d.rd + 1) % 2 ^ 32)

/-- R291, R53. An edge record: from, to, EARLY; none when it breaks R54. -/
def edgeOf (bs : List Byte) (count : Nat) : Option (Nat × Nat × Bool) :=
  let a := fld bs 0 2
  let b := fld bs 2 2
  if fld bs 4 1 > 1 ∨ fld bs 5 3 ≠ 0 ∨ b ≤ a ∨ count ≤ b then none else some (a, b, fld bs 4 1 == 1)

/-- R291. How many nodes, and how many edges, of a GRAPH packet are looked at: none where the count is out of range (log 61). -/
def graphNodes (p : List Byte) : Nat := if 4096 < fld p 0x10 4 then 0 else fld p 0x10 4
def graphEdges (p : List Byte) : Nat := if 65535 < fld p 0x14 4 then 0 else fld p 0x14 4

/-- R287. The status of a node of a graph as it is read, if it has one. -/
def State.nodeStatus (s : State) (q : Nat) (g : Region) (b : Option (List Byte)) : Option Nat :=
  match b with
  | none => some 6
  | some n => match s.checkImage q g n false with
    | .error e => some e
    | .ok _ => none

/-- R54, R287. The status of an edge of a graph as it is read, if it has one. -/
def edgeStatus (count : Nat) (b : Option (List Byte)) : Option Nat :=
  match b with
  | none => some 6
  | some r => if (edgeOf r count).isNone then some 3 else none

/-- R287, R291. The status of a GRAPH packet, the lowest of all that it meets, or its graph. -/
def State.checkGraph (s : State) (q : Nat) (g : Region) (p : List Byte) : Except Nat GraphRun :=
  let count := fld p 0x10 4
  let nodes := (List.range (graphNodes p)).map (fun i => s.devBytes g (fld p 0x08 8 + 64 * i) 64)
  let edges := (List.range (graphEdges p)).map (fun i => s.devBytes g (fld p 0x18 8 + 8 * i) 8)
  let all := (if pkReserved p || !zeroFrom p 0x30 64 then [2] else []) ++
    (if pkEdge p == 3 || count == 0 || decide (4096 < count) || decide (65535 < fld p 0x14 4) || fld p 0x20 8 % 8 != 0 then [3] else []) ++
    nodes.filterMap (s.nodeStatus q g) ++ edges.filterMap (edgeStatus count)
  if all.isEmpty then
    .ok { queue := q, packetId := pkId p, nodeVa := fld p 0x08 8, count := count, edges := edges.filterMap (fun e => e.bind (edgeOf · count)),
          preds := s.edgePreds q (pkEdge p), signal := fld p 0x20 8, value := fld p 0x28 8 }
  else .error (all.foldl min 8)

/-- R211, R291. The lines that the arrays of a GRAPH packet lie on, with their homes. -/
def State.graphLines (s : State) (g : Region) (p : List Byte) : List (Nat × Nat) :=
  s.devLines g (fld p 0x08 8) (64 * graphNodes p) ++ s.devLines g (fld p 0x18 8) (8 * graphEdges p)

/-- R291. A slot begins a GRAPH packet. -/
def State.beginGraph (s : State) (i : Nat) (sl : Slot) (g : Region) (p : List Byte) : State :=
  let ls := s.graphLines g p
  s.serveLines (ls.map (·.1)) (fun s0 =>
    let s1 := ls.foldl (fun acc l => acc.touchHome g.sliceAsker false (l.1 * 128) l.2 false) s0
    match s1.checkGraph sl.queue g p with
    | .error n => s1.queueStatus sl.queue n (pkId p)
    | .ok gr =>
      let r := s1.newId
      { r.2 with graphs := tabIns r.2.graphs r.1 gr, slots := tabIns r.2.slots i { sl with graph := some r.1 } })

/-- R291. The next node of a graph is dispatched, when the launch table has room. -/
def State.nextNode (s : State) (i : Nat) (sl : Slot) (gid : Nat) (gr : GraphRun) : State :=
  let j := gr.nodes.length
  if gr.count ≤ j then s.slotDone i sl
  else if 256 ≤ s.launches.length then s
  else match s.queueRegion sl.queue with
    | none => s.queueStatus sl.queue 4 gr.packetId
    | some g => s.devRead g (gr.nodeVa + 64 * j) 64 (fun s1 b => match b with
      | none => s1.queueStatus sl.queue 6 gr.packetId
      | some p => match s1.checkImage sl.queue g p false with
        | .error n => s1.queueStatus sl.queue n gr.packetId
        | .ok l =>
          let ins := gr.edges.filter (fun e => e.2.1 == j)
          let preds := if ins.isEmpty then gr.preds else ins.map (fun e => (gr.nodes.getD e.1 0, e.2.2))
          let r := s1.addLaunch { l with preds := preds, graph := some gid, packetId := gr.packetId }
          let nodes := gr.nodes ++ [r.1]
          { r.2 with graphs := tabIns r.2.graphs gid { gr with nodes := nodes }
                     slots := tabIns r.2.slots i { sl with busy := sl.busy ++ [r.1] } }.modQueue sl.queue (fun x => { x with latest := nodes }))

/-- R288, R291. Write a completion signal; a signal that cannot be written stops the queue with status 6. -/
def State.complete (s : State) (q packetId : Nat) (g : Region) (signal value : Nat) : State :=
  if signal = 0 then s
  else match s.devPlace g true signal with
    | none => s.queueStatus q 6 packetId
    | some p => (s.devWrite g p value).signalled p.2

/-- R288. Has every squad of a launch retired, all its clusters placed? -/
def State.launchOver (s : State) (id : Nat) (l : Launch) : Bool :=
  l.placed == l.clusters && (s.squadsOf id).all (fun e => e.2.place == .retired)

/-- R291. The last node of a graph has retired: its signal is written, in the last node's region (log 61), and the graph is over. -/
def State.graphDone (s : State) (gid : Nat) (g : Region) : State :=
  match tabFind s.graphs gid with
  | none => s
  | some gr =>
    if gr.nodes.length = gr.count ∧ gr.nodes.all (fun n => (tabFind s.launches n).isNone) then
      { s with graphs := tabDel s.graphs gid }.complete gr.queue gr.packetId g gr.signal gr.value
    else s

/-- R288, R291, R292. A launch retires. -/
def State.retireLaunch (s : State) (id : Nat) (l : Launch) : State :=
  let s1 := s.complete l.queue l.packetId l.region l.signal l.value
  let s2 : State := { s1 with launches := tabDel s1.launches id, squads := s1.squads.filter (fun e => e.2.launch != id),
                              blocks := s1.blocks.filter (fun e => e.2.launch != id) }
  let s3 := match l.graph with
    | some gid => s2.graphDone gid l.region
    | none => s2
  s3.settleQueue l.queue

/-- R211. The lines that the signals of a launch, and of its graph, lie on. -/
def State.signalLines (s : State) (l : Launch) : List Nat :=
  let gr := (l.graph.bind (tabFind s.graphs)).map (·.signal)
  ([l.signal] ++ gr.toList).filterMap (fun va => if va = 0 then none else match s.devPage l.region true va with
    | some p => if p.host then none else some (p.pa va / 128)
    | none => none)

/-- R290. Does a condition of WAITSIG hold? -/
def sigHolds (cond word value : Nat) : Bool :=
  match cond with
  | 0 => word == value
  | 1 => decide (value ≤ word)
  | _ => word != value

/-- R292. The priority of a queue: that of its region, or the root default. -/
def State.queuePriority (s : State) (q : Nat) : Nat := ((s.queueRegion q).map (·.priority)).getD 8

/-- R292. How long ago a queue was unbound, in scheduler ticks. -/
def State.unboundFor (s : State) (q : Nat) : Nat := (s.schedClk - BitVec.ofNat 32 (s.queueRun q).unboundAt).toNat

/-- R281, R285. The queues whose descriptor's enable byte is not zero; every other queue is disabled. -/
def State.touchedQueues (s : State) : List Nat :=
  let base := s.queueDesc 0
  s.hbm.filterMap (fun e =>
    let o := e.1 - base
    if base ≤ e.1 ∧ o % 64 = 0x0A ∧ o / 64 < 65536 then some (o / 64) else none)

/-- R292. The runnable, unbound queues. -/
def State.candidates (s : State) : List Nat := s.touchedQueues.filter (fun q => s.runnable q && (s.slotOf q).isNone)

/-- R292. The queue to bind: the highest priority, then the one unbound longest, then the lowest id. -/
def State.pickQueue (s : State) (qs : List Nat) : Option Nat :=
  qs.foldl (fun (acc : Option Nat) q => match acc with
    | none => some q
    | some a =>
      if s.queuePriority a < s.queuePriority q then some q
      else if s.queuePriority a = s.queuePriority q ∧ s.unboundFor a < s.unboundFor q then some q
      else some a) none

/-- R285, R293. The time slice of a queue, in scheduler ticks. -/
def QDesc.ticks (d : QDesc) : Nat := if d.slice = 0 then 10000 else d.slice

/-- R292, R293. Bind a queue to a slot; its launches may be placed and restored again. -/
def State.bind (s : State) (i q : Nat) : State :=
  let d := s.qdesc q
  let mine := (s.launchesOf q).map (·.1)
  let open_ := (s.launchesOf q).filter (fun e => decide (e.2.placed < e.2.clusters))
  let gr := s.graphs.find? (fun e => e.2.queue == q && decide (e.2.nodes.length < e.2.count))
  let sl : Slot := { st := .run, queue := q, next := d.rd, busy := open_.map (·.1), graph := gr.map (·.1), slice := d.ticks,
                     boundAt := s.schedClk.toNat }
  { s with slots := tabIns s.slots i sl
           launches := s.launches.map (fun (e : Nat × Launch) => if mine.contains e.1 then (e.1, { e.2 with preempted := false }) else e) }

/-- R293. Pre-empt a slot: a request for every unit of its queue's launches, and the queue is unbound. -/
def State.preemptSlot (s : State) (q : Nat) : State :=
  let ls := (s.launchesOf q).map (·.1)
  let s1 : State := { s with launches := s.launches.map (fun (e : Nat × Launch) =>
    if ls.contains e.1 then (e.1, { e.2 with preempted := true }) else e) }
  let bs := s1.blocks.filter (fun e => ls.contains e.2.launch)
  ((s1.unitsOf bs).foldl (fun acc u => acc.askUnit u.1 u.2) s1).unbind q

/-- R293. The bound slot of lowest priority, and among those the one bound longest. -/
def State.weakest (s : State) : Option (Nat × Slot) :=
  (s.slots.filter (fun e => e.2.st == .run)).foldl (fun (acc : Option (Nat × Slot)) e => match acc with
    | none => some e
    | some a =>
      let pa := s.queuePriority a.2.queue
      let pe := s.queuePriority e.2.queue
      let age (x : Slot) : Nat := (s.schedClk - BitVec.ofNat 32 x.boundAt).toNat
      if pe < pa then some e else if pe = pa ∧ age a.2 < age e.2 then some e else some a) none

/-- R281, R292. The lowest slot that no queue holds, which is the model's choice (log 72); a slot in WAITSIG is free for another. -/
def State.freeSlot (s : State) : Option Nat :=
  (List.range 64).find? (fun i => match tabFind s.slots i with
    | none => true
    | some x => x.st != .run)

/-- R292. Slots whose queue is not runnable any more are freed: software may have disabled it. -/
def State.settleSlots (s : State) : State := (s.slots.filter (fun e => e.2.st == .run)).foldl (fun acc e => acc.settleQueue e.2.queue) s

/-- R292, R293. The scheduler fills a free slot, or pre-empts the weakest bound queue for a stronger one. -/
def State.fillSlot (s : State) : State :=
  match s.pickQueue s.candidates with
  | none => s
  | some q => match s.freeSlot with
    | some i => s.bind i q
    | none => match s.weakest with
      | none => s
      | some w => if s.queuePriority w.2.queue < s.queuePriority q then s.preemptSlot w.2.queue else s

/-- R292, R293. The scheduler acts. -/
def State.schedule (s : State) : State := s.settleSlots.fillSlot

/-- R237. The page action of a PREFETCH on one range; what lies at or beyond 2^56 is skipped, and a record that finds its ring full takes an
entry of C-die 0's stage, as any other record, and is tried again: both are the model's choice (log 61). -/
def State.prefetchPage (s : State) (g : Region) (a n : Nat) (pages : List Nat) : State :=
  match pages.find? (fun p => decide (4096 * p < 2 ^ 56) && s.walk g.root (4096 * p) == .absent) with
  | none => s
  | some p =>
    s.postRegion g 0 { addr := 4096 * p, cause := causePage, kinds := 16, source := 3, range := a + n - max a (4096 * p) }

/-- R237. Warm a line of a range; it is fetched as PREF does without L1. -/
def State.warmLine (s : State) (g : Region) (va : Nat) : State :=
  match s.devPage g false va with
  | none => s
  | some p => if p.host then s else s.fetch { by_ := g.sliceAsker, pa := p.pa va, home := p.home, scope := p.scope }

/-- R237. A PREFETCH acts on one range. -/
def State.prefetchRange (s : State) (g : Region) (action a n : Nat) : State :=
  let pages := (List.range ((a + n + 4095) / 4096 - a / 4096)).map (fun i => a / 4096 + i)
  let lines := (List.range ((a + n + 127) / 128 - a / 128)).map (fun i => 128 * (a / 128 + i))
  let s1 := if bitOf action 0 then s.prefetchPage g a n pages else s
  if bitOf action 1 then lines.foldl (fun acc l => acc.warmLine g l) s1 else s1

/-- R237, R287. The status of a PREFETCH. -/
def checkPrefetch (p : List Byte) : Option Nat :=
  let n := fld p 9 1
  firstStatus [
    (2, pkReserved p || decide (4 ≤ fld p 8 1) || !zeroFrom p 0x0A 0x10),
    (3, pkEdge p == 3 || n == 0 || decide (3 < n) ||
        (List.range n).any (fun i => fld p (0x18 + 16 * i) 8 == 0 || decide (2 ^ 30 < fld p (0x18 + 16 * i) 8)))]

/-- R287, R290. The status of a SIGNAL or WAITSIG before its word is reached: `top` is the highest operation or condition. -/
def checkSignal (p : List Byte) (top : Nat) (irq : Bool) : Option Nat :=
  firstStatus [
    (2, pkReserved p || (if irq then decide (2 ≤ fld p 0x19 1) else fld p 0x19 1 != 0) || !zeroFrom p 0x1A 64),
    (3, pkEdge p == 3 || decide (top < fld p 0x18 1) || fld p 8 8 % 8 != 0)]

/-- R286. Why a doorbell write is refused: another offset of the page, reserved bits, or the wrong owner. -/
def State.doorbellCase (s : State) (fn off : Nat) (v : Reg) : Option Nat :=
  if off ≠ 0 then some 0
  else if v.toNat / 65536 % 65536 ≠ 0 then some 1
  else if (s.qdesc (v.toNat % 65536)).owner ≠ fn then some 2
  else none

/-- R286. An accepted doorbell: the write index, or an overrun. -/
def State.doorbell (s : State) (v : Reg) : State :=
  let q := v.toNat % 65536
  let d := s.qdesc q
  let wr := v.toNat / 2 ^ 32
  if 2 ^ d.logN < (wr + 2 ^ 32 - d.rd) % 2 ^ 32 then s.queueStatus q 7 (s.lastFailed q)
  else s.ownStore (s.queueDesc q + 0x10) (leBytes 4 wr)

end Sys2Proof.Machine
end

