-- ==== Sys2Proof/Machine/Queues.lean ====
section
/-!
DEFINITION. The steps of the queue scheduler, its slots, and placement (R237, R286 to R297).
-/
namespace Sys2Proof.Machine

/-- The slot of a number that is bound. -/
def State.slotAt (s : State) (i : Nat) : Option Slot := (tabFind s.slots i).filter (fun x => x.st == .run)

/-- R287. A slot begins a packet of a type: it acts on the packet, or stops the queue with the status of a check. -/
def State.packetOf (s : State) (i type : Nat) (f : State → Slot → Region → List Byte → State) : State :=
  match s.slotAt i with
  | none => s
  | some sl => s.withPacket sl (fun t g p => match g, p with
    | some g, some p => if pkType p = type then f t sl g p else s
    | _, _ => s)

/-- R290. A SIGNAL acts on its word as one atomic action. -/
def State.signalWord (s : State) (i : Nat) (sl : Slot) (g : Region) (p : List Byte) : State :=
  match s.devPlace g true (fld p 8 8) with
  | none => s.queueStatus sl.queue 6 (pkId p)
  | some w => s.serveAt w.1.host w.2 (fun s0 =>
    let old := leVal (s0.homeBytes w.1.host w.2 8)
    let v := if fld p 0x18 1 = 0 then fld p 0x10 8 else (old + fld p 0x10 8) % 2 ^ 64
    let s1 := (s0.devWrite g w v).signalled w.2
    let d := s.queueDesc sl.queue
    let s2 := if bitOf (fld p 0x19 1) 0 then s1.interrupt (s.readLe (d + 0x09) 1) (s.readLe (d + 0x24) 2) else s1
    s2.advanceSlot i sl)

/-- R290. A WAITSIG reads its word: it completes, or its queue leaves the slot and waits. -/
def State.waitWord (s : State) (i : Nat) (sl : Slot) (g : Region) (p : List Byte) : State :=
  if (s.queueRun sl.queue).passed then
    (s.modQueue sl.queue (fun x => { x with passed := false })).advanceSlot i sl
  else s.devRead g (fld p 8 8) 8 (fun s1 b => match b, s1.devPlace g false (fld p 8 8) with
    | some bs, some w =>
      if sigHolds (fld p 0x18 1) (leVal bs) (fld p 0x10 8) then s1.advanceSlot i sl
      else { s1 with slots := tabIns s1.slots i { sl with st := .waitsig } }.modQueue sl.queue (fun x =>
        { x with waiting := some (w.2, s1.schedClk.toNat), due := false, unboundAt := s1.schedClk.toNat })
    | _, _ => s1.queueStatus sl.queue 6 (pkId p))

/-- R290. The scheduler reads the word of a waiting queue again. -/
def State.recheck (s : State) (q : Nat) : State :=
  match (s.queueRun q).waiting, s.queueRegion q with
  | some w, some g =>
    let d := s.qdesc q
    let run := s.queueRun q
    if !run.due && decide ((s.schedClk - BitVec.ofNat 32 w.2).toNat < 4096) then s
    else s.devRead g (d.ring + 64 * (d.rd % 2 ^ d.logN)) 64 (fun s1 p => match p with
      | none => (s1.modQueue q (fun x => { x with waiting := none })).queueStatus q 6 (s1.lastFailed q)
      | some p => s1.devRead g (fld p 8 8) 8 (fun s2 b => match b, s2.devPlace g false (fld p 8 8) with
        | some bs, some a =>
          if sigHolds (fld p 0x18 1) (leVal bs) (fld p 0x10 8) then
            s2.modQueue q (fun x => { x with waiting := none, due := false, passed := true })
          else s2.modQueue q (fun x => { x with waiting := some (a.2, s2.schedClk.toNat), due := false })
        | _, _ => (s2.modQueue q (fun x => { x with waiting := none })).queueStatus q 6 (pkId p)))
  | _, _ => s

/-- R292. The scheduler binds the highest-priority runnable queue to a free slot, pre-empting a lower one. -/
def execSchedulerBind (s : State) : Host.Outcome State Fault Refusal :=
  .next s.schedule

/-- R293. A slot's time slice reaches zero, and the slot is pre-empted or its counter restarted. -/
def execSliceExpiry (slot : Nat) (s : State) : Host.Outcome State Fault Refusal :=
  .next (match s.slotAt slot with
    | none => s
    | some sl =>
      if sl.slice ≠ 0 then s
      else if s.candidates.any (fun q => decide (s.queuePriority sl.queue ≤ s.queuePriority q)) then s.preemptSlot sl.queue
      else { s with slots := tabIns s.slots slot { sl with slice := (s.qdesc sl.queue).ticks } })

/-- R288. A slot begins a LAUNCH packet and places its clusters per its edge. -/
def execLaunchPacket (slot : Nat) (s : State) : Host.Outcome State Fault Refusal :=
  .next (match s.slotAt slot with
    | none => s
    | some sl => s.withPacket sl (fun t g p => match unreadStatus g p with
      | some n => t.queueStatus sl.queue n ((p.map pkId).getD (s.lastFailed sl.queue))
      | none => match g, p with
        | some x, some b =>
          if pkType b ≠ 1 then s
          else match t.checkImage sl.queue x b true with
            | .error n => t.queueStatus sl.queue n (pkId b)
            | .ok l => t.beginLaunch slot sl l (pkEdge b)
        | _, _ => s))

/-- R237. A PREFETCH packet pages or warms its ranges and completes at once. -/
def execPrefetchPacket (slot : Nat) (s : State) : Host.Outcome State Fault Refusal :=
  .next (s.packetOf slot 2 (fun s sl g p => match checkPrefetch p with
    | some n => s.queueStatus sl.queue n (pkId p)
    | none =>
      ((List.range (fld p 9 1)).foldl (fun acc i => acc.prefetchRange g (fld p 8 1) (fld p (0x10 + 16 * i) 8) (fld p (0x18 + 16 * i) 8))
        s).advanceSlot slot sl))

/-- R290. After earlier launches retire, a SIGNAL writes or adds to a signal word atomically. -/
def execSignalPacket (slot : Nat) (s : State) : Host.Outcome State Fault Refusal :=
  .next (s.packetOf slot 3 (fun s sl g p =>
    if !(s.launchesOf sl.queue).isEmpty then s
    else match checkSignal p 1 true with
      | some n => s.queueStatus sl.queue n (pkId p)
      | none => s.signalWord slot sl g p))

/-- R290. A WAITSIG reads a signal word and completes, or takes the queue out of its slot. -/
def execWaitsigPacket (slot : Nat) (s : State) : Host.Outcome State Fault Refusal :=
  .next (s.packetOf slot 4 (fun s sl g p => match checkSignal p 2 false with
    | some n => s.queueStatus sl.queue n (pkId p)
    | none => s.waitWord slot sl g p))

/-- R290. The scheduler rereads a waiting signal word after a matching write, or every 4,096 ticks. -/
def execWaitsigRecheck (queue : Nat) (s : State) : Host.Outcome State Fault Refusal :=
  .next (s.recheck queue)

/-- R291. A GRAPH packet places its nodes against their own predecessors. -/
def execGraphPacket (slot : Nat) (s : State) : Host.Outcome State Fault Refusal :=
  .next (match (s.slotAt slot).bind (fun sl => sl.graph.map (fun g => (sl, g))) with
    | some x => match tabFind s.graphs x.2 with
      | some gr => s.nextNode slot x.1 x.2 gr
      | none => s
    | none => s.packetOf slot 5 (fun t sl g p => t.beginGraph slot sl g p))

/-- R295. Placement puts a whole cluster onto cores within the region's budgets and mask. -/
def execPlacement (l : Nat) (s : State) : Host.Outcome State Fault Refusal :=
  .next (match tabFind s.launches l with
    | none => s
    | some x =>
      if x.placed < x.clusters ∧ s.mayPlace l x ∧ s.running then
        let s1 := s.placeCluster l x
        match s1.slotOf x.queue with
        | some e => s1.slotDone e.1 e.2
        | none => s1.placedUnbound x
      else s)

/-- R288. When every squad has retired, the completion value is written and the launch leaves the table. -/
def execLaunchRetire (l : Nat) (s : State) : Host.Outcome State Fault Refusal :=
  .next (match tabFind s.launches l with
    | none => s
    | some x => if s.launchOver l x then s.serveLines (s.signalLines x) (fun t => t.retireLaunch l x) else s)

end Sys2Proof.Machine
end

