-- ==== Sys2Proof/Machine/SysOps.lean ====
section
/-!
DEFINITION. The SYS instructions that act on tables, keys and fault records, and the gathering of faults
(R227, R228, R230 to R235, R272, R309, R318).
-/
namespace Sys2Proof.Machine

/-- R157, R202. The waiting elements of a word's read are performed, as a load's are. -/
def State.readElems (s : State) (op : Nat) : State :=
  match tabFind s.loads op with
  | none => s
  | some o => (o.elems.filter (fun l => l.st == .waiting)).foldl (fun acc l => acc.performLoad op o l) s

/-- R158. A word's read from address a is over: the word goes on with its bytes, or POISON waits for the next header. -/
def State.readOver (s : State) (q : Nat) (sq : Squad) (a op : Nat) (o : LoadOp) (f : State → List Byte → State) : State :=
  let s1 : State := { s with loads := tabDel s.loads op }
  let bad := (o.elems.foldl LoadOp.noteBad o).bad
  if bad.isSome then (s1.modSquad q (fun x => x.notePoison (bad.map (fun b => (b.1, a, b.2.2))))).charge sq 1
  else f s1 o.image

/-- R157, R202, R323. A word reads n elements of some bytes of GLOBAL from an aligned address as one load: its checks, then its elements as a
load's are performed. While one must wait the lane tries the word again; a read that reaches the host, which may refuse it, stands
as an operation of its own meanwhile. -/
def State.sysRead (s : State) (q : Nat) (sq : Squad) (e : Exec) (a n size align : Nat) (f : State → List Byte → State) : State :=
  match e.hold with
  | some (.read op) =>
    let s1 := s.readElems op
    match tabFind s1.loads op with
    | none => s1
    | some o =>
      if o.elems.any (fun l => l.st == .waiting) then s1
      else (s1.modLane s1.focus (fun l => { l with cur := l.cur.map (fun x => { x with hold := none }) })).readOver q sq a op o f
  | _ =>
    if a % align ≠ 0 then s.trapWord q sq e causeIllegal (BitVec.ofNat 64 a) 1
    else
      let g := s.regionOf sq
      let els := (List.range n).map (fun i => (i, a + size * i))
      let s1 := s.startWalks sq.core g els
      s1.checked q sq e ((s.checkGlobal sq.core g { r := true } true els).atElement a) (fun ls =>
        let r := s1.newId
        let o : LoadOp := { squad := q, core := sq.core, dest := 0, size := size, kind := .record, asid := g.asid, region := g, elems := ls }
        let s2 : State := { r.2 with loads := tabIns r.2.loads r.1 o }
        if ls.any (fun l => l.host) then s2.holdWord (.read r.1)
        else
          let s3 := s2.readElems r.1
          let o3 := (tabFind s3.loads r.1).getD o
          if o3.elems.any (fun l => l.st == .waiting) then s1.holdWord .retry else s3.readOver q sq a r.1 o3 f)

/-- R227. Does a TLB entry's page contain an address? -/
def pageHas (page size : Nat) (va : Option Nat) : Bool :=
  match va with
  | none => true
  | some v => v / size == page

/-- R227, R228. A TLBINV's entries leave every TLB; walks in flight go stale. -/
def State.dropTlb (s : State) (asid : Nat) (va : Option Nat) : State :=
  { s with
    cores := s.cores.map (fun (c : Nat × CoreS) => (c.1, { c.2 with tlb := c.2.tlb.filter (fun e => !(e.asid == asid && pageHas e.page e.size va)) }))
    walks := s.walks.map (fun w => if w.asid = asid then { w with stale := true } else w) }

/-- R227, R230. Invalidate a TLBINV's entries in every core; unpin an address space's lines. -/
def State.invalidate (s : State) (asid : Nat) (va : Option Nat) : State :=
  let s1 := s.dropTlb asid va
  if va.isSome then s1
  else { s1 with
    l2 := s1.l2.map (fun (e : Nat × L2Line) => if e.2.pinned && e.2.asid == asid then (e.1, { e.2 with pinned := false }) else e)
    pins := s1.pins.filter (fun p => p.asid != asid) }

/-- R227. Has every element translated by an invalidated entry before an operation been performed or accepted, and every walk
of the address space begun before finished? -/
def State.translatedDone (s : State) (asid : Nat) (va : Option Nat) (upto : Nat) : Bool :=
  !(s.walks.any (fun w => w.asid == asid && w.stale)) &&
  !(s.loads.any (fun o => decide (o.1 < upto) && o.2.global && o.2.asid == asid &&
      o.2.elems.any (fun l => l.st == .waiting && pageHas (l.va / l.psize) l.psize va))) &&
  !(s.cores.any (fun c => (c.2.path ++ c.2.held ++ c.2.leaving).any (fun e => decide (e.op < upto) && e.asid == asid &&
      pageHas (e.va / e.psize) e.psize va)))

/-- R272. The class table entry that 16 bytes describe; none when a reserved byte is non-zero or the window lies outside. -/
def classEntryOf (bs : List Byte) (servers : BitVec 384) : Option ClassEntry :=
  let w := fld bs 0x0A 2
  let b (i : Nat) : Byte := bs.getD i 0
  if b 7 ≠ 0 ∨ fld bs 0x0C 4 ≠ 0 ∨ (w ≠ 0 ∧ (w < 16 ∨ 1024 < w)) then none
  else some { c0 := BitVec.ofNat 16 (fld bs 0 2), wRes := b 2, wQd := b 3, wLoad := b 4, wDist := b 5, wPinb := b 6,
              key := BitVec.ofNat 16 (fld bs 8 2), window := w, servers := servers }

/-- A link's state, and the state with one link changed. -/
def State.link (s : State) (l : Nat) : LinkS := tabGet {} s.links l
def State.modLink (s : State) (l : Nat) (f : LinkS → LinkS) : State := { s with links := tabPut {} s.links l (f (s.link l)) }

/-- R312. The active and the idle transmit slot. -/
def LinkS.tx (l : LinkS) : KeySlot := if l.txActive then l.tx1 else l.tx0
def LinkS.txIdle (l : LinkS) : KeySlot := if l.txActive then l.tx0 else l.tx1

/-- The idle transmit slot, and the idle receive slot, replaced. -/
def LinkS.withTxIdle (l : LinkS) (k : KeySlot) : LinkS := if l.txActive then { l with tx0 := k } else { l with tx1 := k }
def LinkS.withRxIdle (l : LinkS) (k : KeySlot) : LinkS := if l.rxActive then { l with rx0 := k } else { l with rx1 := k }

/-- R318. A key record enters the idle slots of a link. -/
def LinkS.load (l : LinkS) (bs : List Byte) (addr : Nat) : LinkS :=
  let tx : KeySlot := { key := BitVec.ofNat 256 (fld bs 0 32), salt := BitVec.ofNat 48 (fld bs 0x40 6),
                        last := BitVec.ofNat 48 (fld bs 0x4C 6), valid := true }
  let rx : KeySlot := { key := BitVec.ofNat 256 (fld bs 0x20 32), salt := BitVec.ofNat 48 (fld bs 0x46 6), valid := true }
  { (l.withTxIdle tx).withRxIdle rx with keyAddr := some addr }

/-- R231, R232. The same key in a filter and in a stage. -/
def StageEntry.matches_ (e : StageEntry) (die asid fq page : Nat) : Bool :=
  e.die == die && e.asid == asid && e.fq == fq && e.page == page && e.record.isNone

/-- R232. Forward a filter entry's news to the die stage; none when it has no news, or no entry is free. -/
def State.forward (s : State) (die core : Nat) (f : FilterEntry) : Option State :=
  let news := match f.sent with
    | none => true
    | some x => x.1 != f.kinds || x.2 != f.waiters
  let told (x : State) : State := x.modCore core (fun c => { c with filter := c.filter.map (fun y =>
    if y.asid == f.asid && y.fq == f.fq && y.page == f.page then { y with sent := some (f.kinds, f.waiters) } else y) })
  let bit : BitVec 48 := BitVec.ofNat 48 (coreBit core)
  if !news then none
  else if s.stage.any (fun e => e.matches_ die f.asid f.fq f.page) then
    some (told { s with stage := s.stage.map (fun e =>
      if e.matches_ die f.asid f.fq f.page then
        { e with kinds := e.kinds ||| f.kinds, waiters := (e.waiters ++ f.waiters).eraseDups, cores := e.cores ||| bit } else e) })
  else if s.stageCount die < 256 then
    some (told { s with stage := s.stage ++ [{ die := die, fn := f.fn, asid := f.asid, fq := f.fq, page := f.page, rcb := f.rcb,
                                               kinds := f.kinds, waiters := f.waiters, cores := bit, born := s.clockOfDie die }] })
  else none

/-- R232. The filter entries of a die's cores. -/
def State.dieFilters (s : State) (die : Nat) : List (Nat × FilterEntry) :=
  (s.cores.filter (fun c => dieOfCore c.1 == die)).flatMap (fun c => c.2.filter.map (fun f => (c.1, f)))

/-- R234. The record of a page entry. -/
def StageEntry.rec_ (e : StageEntry) : FaultRec :=
  { addr := e.page * 4096, asid := e.asid, cause := causePage, kinds := e.kinds.toNat, source := 3, waiters := e.waiters.length,
    cores := e.cores.toNat, die := e.die, rcb := e.rcb }

/-- R231, R232. Is a filter entry of a core one of a stage entry's? -/
def StageEntry.owns (e : StageEntry) (core : Nat) (f : FilterEntry) : Bool :=
  e.record.isNone && dieOfCore core == e.die && f.asid == e.asid && f.fq == e.fq && f.page == e.page

/-- R232, R235. A stage entry is freed, with its filter entries on the die; one that a party has joined since is told to the stage anew,
unless its waiters are released now. -/
def State.freeStage (s : State) (e : StageEntry) (released : Bool) : State :=
  { s with
    stage := s.stage.erase e
    cores := s.cores.map (fun (c : Nat × CoreS) => (c.1, { c.2 with filter := c.2.filter.filterMap (fun f =>
      if !e.owns c.1 f then some f
      else if released || f.waiters.isEmpty then none
      else some { f with sent := none }) })) }

/-- R235. The parties that wait for a stage entry's page on its die. -/
def State.waitersOf (s : State) (e : StageEntry) : List Nat :=
  (e.waiters ++ s.cores.flatMap (fun c => (c.2.filter.filter (e.owns c.1)).flatMap (·.waiters))).eraseDups

/-- R232 to R234. Post a stage entry, or count it once and wait while its ring is full. -/
def State.postStage (s : State) (e : StageEntry) : State :=
  let put (x : State) (y : StageEntry) : State := { x with stage := x.stage.map (fun z => if z = e then y else z) }
  if s.ringFull e.fq then
    let s1 := if e.overflowed then s else s.countOverflow e.fq
    put s1 { e with overflowed := true, tried := s.clockOfDie e.die }
  else match e.record with
    | some bs => (s.freeStage e false).postAt e.fq e.fn (fld bs 0x0A 1) bs
    | none =>
      if e.waiters.isEmpty then (s.freeStage e false).postAt e.fq e.fn causePage e.rec_.bytes
      else (put s { e with posted := true, overflowed := false }).postAt e.fq e.fn causePage e.rec_.bytes

/-- The entries of a die's stage. -/
def State.stageOf (s : State) (die : Nat) : List StageEntry := s.stage.filter (fun e => e.die == die)

/-- R231. Does a party still wait for some page? -/
def State.stillWaits (s : State) (party : Nat) : Bool :=
  s.stage.any (fun e => e.waiters.contains party) ||
  s.cores.any (fun c => c.2.filter.any (fun f => f.waiters.contains party) || c.2.filterWait.any (fun w => w.party == party))

/-- R231, R235. A party is released from a page: a squad when none of its pages is left, a copy when it waits nowhere else. -/
def State.releaseParty (s : State) (page party : Nat) : State :=
  if party % 2 = 0 then
    s.modSquad (party / 2) (fun sq =>
      let left := (sq.parked.getD []).filter (fun p => p != page)
      { sq with parked := if sq.parked.isSome && left.isEmpty then none else sq.parked.map (fun _ => left) })
  else if s.stillWaits party then s
  else
    let free (c : CopyOp) : CopyOp := if c.id = party / 2 then { c with parked := false } else c
    { s with cores := s.cores.map (fun (c : Nat × CoreS) => (c.1, { c.2 with copies := c.2.copies.map free }))
             savedCopies := s.savedCopies.map free
             redx := s.redx.map (fun r => if r.id = party / 2 then { r with parked := false } else r) }

/-- R235. A release acts on its record's die. -/
def State.releaseRecord (s : State) (bs : List Byte) : State :=
  let page := fld bs 0 8 / 4096
  let die := bits (fld bs 0x10 8) 50 48
  let hit (e : StageEntry) : Bool :=
    e.die == die && e.posted && e.record.isNone && e.asid == fld bs 8 2 && e.page == page && e.rcb == fld bs 0x20 8
  if fld bs 0x0A 1 ≠ causePage then s
  else match s.stage.find? hit with
    | none => s
    | some e => (s.waitersOf e).foldl (fun acc p => acc.releaseParty page p) (s.freeStage e true)

/-- R227. Releases, then invalidates a page or a whole address space in every TLB of the device. -/
def execTlbinv (m : BitVec 1) (a b : BitVec 6) (s : State) : Host.Outcome State Fault Refusal :=
  s.sysWord (fun q sq _ =>
    let asid := (sq.readS b.toNat).toNat % 65536
    let va := if m = 1 then none else some ((sq.readS a.toNat).toNat % 2 ^ 56)
    (s.modSquad q (fun x => x.await (.tlbinv asid va s.nextId none))).charge sq 1)

/-- R318. Loads link keys into the idle transmit and receive slots. -/
def execLkeyld (a : BitVec 6) (l : BitVec 4) (s : State) : Host.Outcome State Fault Refusal :=
  s.sysWord (fun q sq e =>
    let at_ := (sq.readS a.toNat).toNat
    s.sysRead q sq e at_ 16 8 64 (fun s1 bs =>
      if !zeroFrom bs 0x52 128 then s1.trapWord q sq e causeIllegal 0 3
      else (s1.modLink l.toNat (fun k => k.load bs at_)).charge sq 1))

/-- R318. Sends a marker and switches the link to the new key slot. -/
def execLkeyarm (a : BitVec 6) (l : BitVec 4) (s : State) : Host.Outcome State Fault Refusal :=
  s.sysWord (fun q sq e =>
    let k := s.link l.toNat
    if !k.txIdle.valid || k.keyAddr != some (sq.readS a.toNat).toNat then s.trapWord q sq e causeIllegal 0 3
    else ((s.modLink l.toNat (fun x => { x with armed := x.armed ++ [q] })).modSquad q (fun x =>
      x.await (.marker l.toNat))).charge sq 1)

/-- R272. Loads a class table entry of bid formula weights. -/
def execBidf (a : BitVec 6) (c : BitVec 4) (s : State) : Host.Outcome State Fault Refusal :=
  s.sysWord (fun q sq e =>
    let rcb := (s.regionOf sq).rcb
    s.sysRead q sq e (sq.readS a.toNat).toNat 1 16 16 (fun s1 bs =>
      match classEntryOf bs (s1.classOf rcb c.toNat).servers with
      | none => s1.trapWord q sq e causeIllegal 0 3
      | some x => { s1 with classes := tabPut {} s1.classes (classKey rcb c.toNat) x }.charge sq 1))

/-- R309. Reads a fault record and sends its release to the record's C-die. -/
def execReplay (a : BitVec 6) (s : State) : Host.Outcome State Fault Refusal :=
  s.sysWord (fun q sq e =>
    s.sysRead q sq e (sq.readS a.toNat).toNat 8 8 64 (fun s1 bs =>
      let r := s1.newId
      let s2 : State := { r.2 with releases := r.2.releases ++ [{ id := r.1, squad := some q, record := bs }] }
      (s2.modSquad q (fun x => x.await (.replay r.1))).charge sq 1))

/-- R227, R228. Outstanding walks and elements translated by invalidated entries have finished, and TLBINV completes: what a walk has
installed since is gone too. -/
def execTlbinvComplete (q : Nat) (s : State) : Host.Outcome State Fault Refusal :=
  .next (match tabFind s.squads q with
    | none => s
    | some sq => match sq.nextWait with
      | some (.tlbinv asid va upto none) =>
        if s.released q sq.core 2 upto then
          s.afterRelease sq.core 2 (fun t => (t.invalidate asid va).modSquad q (fun x =>
            { x with nextWait := some (.tlbinv asid va upto (some s.nextId)) }))
        else s
      | some (.tlbinv asid va _ (some n)) => if s.translatedDone asid va n then (s.dropTlb asid va).clearWait q else s
      | _ => s)

/-- R231. A parked party's waiting page enters the fault filter: the first, in parking order, that an entry or a free one takes. -/
def execFaultFilterAdmit (core : Nat) (s : State) : Host.Outcome State Fault Refusal :=
  .next (((s.core core).filterWait.findSome? (fun w =>
    (s.modCore core (fun k => { k with filterWait := k.filterWait.erase w })).filterEnter core w true)).getD s)

/-- R232. A forwarded filter entry merges into the die fault stage, or waits when the stage is full. -/
def execFaultStageForward (die : Nat) (s : State) : Host.Outcome State Fault Refusal :=
  .next (((s.dieFilters die).findSome? (fun x => s.forward die x.1 x.2)).getD s)

/-- R232. A die stage entry is posted as a page record 64 die clk after its creation. -/
def execFaultStagePost (die k : Nat) (s : State) : Host.Outcome State Fault Refusal :=
  .next (match (s.stageOf die)[k]? with
    | none => s
    | some e =>
      if e.record.isNone && !e.posted && !e.overflowed && decide (64 ≤ s.clockOfDie die - e.born) then s.postStage e else s)

/-- R233. An unposted record retries a full ring every 4,096 die clk. -/
def execFaultPostRetry (die k : Nat) (s : State) : Host.Outcome State Fault Refusal :=
  .next (match (s.stageOf die)[k]? with
    | none => s
    | some e => if e.overflowed && !e.posted && decide (4096 ≤ s.clockOfDie die - e.tried) then s.postStage e else s)

/-- R235. The die stage releases a page entry's waiters and frees the entry. -/
def execReplayRelease (k : Nat) (s : State) : Host.Outcome State Fault Refusal :=
  .next (match s.releases[k]? with
    | none => s
    | some r =>
      let s1 := { s with releases := s.releases.eraseIdx k }.releaseRecord r.record
      match r.squad with
      | some q => s1.modSquad q (fun x => x.waitedFor (.replay r.id))
      | none => s1)

end Sys2Proof.Machine
end

