-- ==== Sys2Proof/Machine/Fabric.lean ====
section
/-!
DEFINITION. The fabric: MCAST and REDX, packets at their destinations, links, flits and keys
(R164, R207, R213, R250, R313 to R320).
-/
namespace Sys2Proof.Machine

/-- R316. Is some link UP? -/
def State.linkUp (s : State) : Bool := (List.range 16).any (fun l => (s.link l).st == .up)

/-- R319. Change a copy, wherever it stands. -/
def State.modCopy (s : State) (op : Nat) (f : CopyOp → CopyOp) : State :=
  let g (c : CopyOp) : CopyOp := if c.id = op then f c else c
  { s with cores := s.cores.map (fun (c : Nat × CoreS) => (c.1, { c.2 with copies := c.2.copies.map g }))
           savedCopies := s.savedCopies.map g }

/-- R213, R319. A destination has applied or refused a line of a multicast. -/
def State.lineDone (s : State) (op n : Nat) (err : Bool) : State :=
  s.modCopy op (fun c => { c with pending := c.pending - n, err := c.err || err })

/-- R313. Inbound named stores whose turn has come go on to the directory. -/
def State.podPump (s : State) (fuel : Nat) : State :=
  match fuel with
  | 0 => s
  | fuel + 1 =>
    match s.pod.find? (fun m => !m.mine && m.seq == some (tabGet 0 s.rxSeq (pairOfDevices m.src m.dst)) && (match m.kind with
      | .named _ _ _ _ _ _ => true
      | _ => false)) with
    | none => s
    | some m => match m.kind with
      | .named _ name reg mask vals _ =>
        let r := s.newId
        let d : Delivery := { id := r.1, squad := m.src, core := 0, name := name, reg := reg, mask := mask, vals := vals, mine := false }
        { r.2 with stns := r.2.stns ++ [d]
                   pod := r.2.pod.filter (fun x => x.id != m.id)
                   rxSeq := tabPut 0 r.2.rxSeq (pairOfDevices m.src m.dst)
                     (tabGet 0 r.2.rxSeq (pairOfDevices m.src m.dst) + 1) }.podPump fuel
      | _ => s

/-- R207, R313. Packet k of the pod traffic, when it has arrived and its turn in its pair has come. -/
def State.podTurn (s : State) (k : Nat) : Option PodMsg :=
  match s.pod[k]? with
  | none => none
  | some m =>
    let first := if m.mine then !((s.pod.take k).any (fun x => x.mine && x.dst == m.dst))
      else m.seq == some (tabGet 0 s.rxSeq (pairOfDevices m.src m.dst))
    if m.sent && first then some m else none

/-- R207, R313. A packet has been applied or refused. -/
def State.podGone (s : State) (m : PodMsg) : State :=
  let s1 : State := { s with pod := s.pod.filter (fun x => x.id != m.id) }
  if m.dst = s.own then
    let k := pairOfDevices m.src m.dst
    { s1 with rxSeq := tabPut 0 s1.rxSeq k (tabGet 0 s1.rxSeq k + 1) }.podPump s1.pod.length
  else s1

/-- R164. A packet of another device is answered. -/
def State.podReply (s : State) (m : PodMsg) (v : ElemState) : State :=
  if m.mine then s
  else s.podSend { id := 0, src := s.own, dst := m.src, off := m.off, kind := .reply v }

/-- R151. The POD address of a packet. -/
def PodMsg.addr (m : PodMsg) : Nat := m.dst * 2 ^ 48 + m.off

/-- R319. The devices that a destination string names. -/
def destinations (leaf port : Reg) : List Nat :=
  ((List.range 64).filter (fun l => leaf.getLsbD l)).flatMap (fun l =>
    ((List.range 64).filter (fun p => port.getLsbD p)).map (fun p => 64 * l + p))

/-- R131. A packet has left the device, or never will: with the last one of a NORET FIG, oc.st of its squad falls. -/
def State.figGone (s : State) (m : PodMsg) : State :=
  match m.counted with
  | none => s
  | some c =>
    let s1 : State := { s with pod := s.pod.map (fun x => if x.id = m.id then { x with counted := none } else x) }
    if s1.pod.any (fun x => x.counted == m.counted) then s1 else s1.modSquad c.2 (fun sq => { sq with ocSt := sq.ocSt - 1 })

/-- R164, R250, R319. A packet of this device is refused: its record in the issuing region's fault queue, and what the sender is
told; a multicast line that never left, as by each of its destinations. A packet of another device is answered instead. -/
def State.podRefuse (s : State) (m : PodMsg) : State :=
  let r : FaultRec := refusedStore m.addr m.core m.sname m.code
  let die := dieOfCore m.core
  if !m.mine then s.podReply m (.bad 2)
  else match m.kind with
  | .write _ => s.postRegion m.region die r
  | .load op t _ => s.setElem op t (.bad 2)
  | .figure _ _ _ back flagOp =>
    let s1 := (s.figGone m).postRegion m.region die { r with cause := 0x22, detail := 4 }
    let s2 := match back with
      | some b => s1.setElem b.1 b.2 .skip
      | none => s1
    match flagOp with
    | some op => s2.flagOpDone op true
    | none => s2
  | .cast op leaf port _ =>
    let ds := destinations leaf port
    (ds.foldl (fun acc d => acc.postRegion m.region die (refusedStore (d * 2 ^ 48 + m.off) m.core m.sname m.code)) s).lineDone
      op ds.length true
  | .line op _ => (s.postRegion m.region die r).lineDone op 1 true
  | .named _ _ _ _ _ _ => s
  | .reply _ => s

/-- R322. The window that a packet meets: as it stood when the packet arrived. -/
def State.windowFor (s : State) (m : PodMsg) : ExportWindow := m.window.getD s.window

/-- R314. The place of an offset of an exported window, when a page's property holds there. -/
def State.windowPlace (s : State) (w : ExportWindow) (ok : Page → Bool) (off : Nat) : Option (Bool × Nat × Page) :=
  let va := w.base + off
  match tabFind s.roots w.asid with
  | none => none
  | some root =>
    if w.enable && decide (off < w.size) && decide (va < 2 ^ 56) then
      match s.walk root va with
      | .page p => if ok p then some (p.host, p.pa va, p) else none
      | .absent => none
      | .malformed => none
    else none

/-- R154, R314. What a POD load and a POD write need of their page. -/
def podReads (p : Page) : Bool := p.r
def podWrites (p : Page) : Bool := p.w && !p.det
def podFigures (p : Page) : Bool := p.f && !p.host && !p.det

/-- R229, R283. The pinning quota of an address space: that of a launch in it, or 0 (log 57). -/
def State.quotaOf (s : State) (asid : Nat) : Nat :=
  ((s.launches.find? (fun l => l.2.region.asid == asid)).map (fun l => l.2.region.pinQuota)).getD 0

/-- R229, R314, R326, R327. For whom the homes serve a POD access: the window's address space (log 57), with the class, the budget and
the core of a packet of this device's own. -/
def State.windowAsker (s : State) (m : PodMsg) : Asker :=
  let g : Asker := if m.mine then m.region.asker m.core else {}
  let asid := (s.windowFor m).asid
  { g with asid := asid, quota := s.quotaOf asid }

/-- R152, R207, R211, R251, R252. The homes of the places of a POD access serve it, or it waits for a granule. -/
def State.windowServe (s : State) (m : PodMsg) (ps : List (Bool × Nat × Page)) (write : Bool) (f : State → State) : State :=
  let ls := linesOf ps
  s.serveLines (ls.map (·.1)) (fun s1 => f (s1.touchLines (s1.windowAsker m) ls write))

/-- R207, R331. Bytes written through the window as one update; a whole line clears its poison. -/
def State.windowStore (s : State) (ps : List (Bool × Nat × Page)) (bs : List Byte) : State :=
  let ls := linesOf ps
  let s1 := (ps.zip bs).foldl (fun acc x =>
    if x.1.1 then { acc with host := tabPut 0 acc.host x.1.2.1 x.2 } else acc.writeByte x.1.2.1 x.2) s
  let whole (l : Nat) : Bool := (List.range 128).all (fun i => ps.any (fun p => !p.1 && p.2.1 == l * 128 + i))
  ls.foldl (fun acc l => if whole l.1 then { acc with poisoned := tabPut false acc.poisoned l.1 false } else acc) s1

/-- R164, R207. Write bytes at offsets of the window, or refuse them all. -/
def State.podStore (s : State) (m : PodMsg) (data : Tab Byte) : State :=
  match data.mapM (fun x => s.windowPlace (s.windowFor m) podWrites (m.off + x.1)) with
  | none => (s.podRefuse m).podGone m
  | some ps => s.windowServe m ps true (fun t => ((t.windowStore ps (data.map (·.2))).podReply m (.ready 0)).podGone m)

/-- R207, R213, R319. A line of a multicast is applied at this device, or refused. -/
def State.podLine (s : State) (m : PodMsg) (op : Nat) (bs : List Byte) : State :=
  match (List.range 128).mapM (fun i => s.windowPlace (s.windowFor m) podWrites (m.off + i)) with
  | none => (s.podRefuse m).podGone m
  | some ps => s.windowServe m ps true (fun t =>
      let s1 := (t.windowStore ps bs).podReply m (.ready 0)
      (if m.mine then s1.lineDone op 1 false else s1).podGone m)

/-- R164. A load is served through the window, or refused. -/
def State.podFetch (s : State) (m : PodMsg) (op t size : Nat) : State :=
  match (List.range size).mapM (fun i => s.windowPlace (s.windowFor m) podReads (m.off + i)) with
  | none => (s.podRefuse m).podGone m
  | some ps => s.windowServe m ps false (fun s1 =>
      let bad := ps.any (fun p => !p.1 && s1.isPoisoned p.2.1)
      let v : Reg := BitVec.ofNat 64 (leVal (ps.map (fun p => s1.homeByte p.1 p.2.1)))
      let a : ElemState := if bad then .bad 1 else .ready v
      (if m.mine then s1.setElem op t a else s1.podReply m a).podGone m)

/-- R251. A TILE figure of another device, at its channel: the granule is written back and read there in one step. -/
def State.tileAtChannel (s : State) (w : Asker) (base : Nat) : State :=
  let s1 := ((s.flushGranule w base).askChannel w (base / 128) false).askChannel w (base / 128 + 1) false
  (s1.readLine false (base / 128)).readLine false (base / 128 + 1)

/-- R242, R250, R254. The answer to a figure request of another device: its returned value, or its fault. -/
def State.figAnswer (s : State) (q : FigReq) : ElemState :=
  let G := figGranule (figFlags q.img)
  let base := q.pa / G * G
  if s.granulePoisoned base G then .skip
  else match figRun q.img (s.readBytes base G) (q.pa - base) q.operand with
    | .ok r => .ready (BitVec.ofNat 64 r.ret)
    | .fault _ => .skip

/-- R250, R251. A figure request is executed through the window, or refused. -/
def State.podFigure (s : State) (m : PodMsg) (img : List Byte) (x : Nat) (back : Option (Nat × Nat)) (flagOp : Option Nat) : State :=
  match (List.range (figBytes (figFlags img))).mapM (fun i => s.windowPlace (s.windowFor m) podFigures (m.off + i)) with
  | none => (s.podRefuse m).podGone m
  | some [] => s
  | some (p :: _) =>
    let pa := p.2.1
    let G := figGranule (figFlags img)
    let base := pa / G * G
    let w := s.windowAsker m
    let reach (t : State) : State := if figTile (figFlags img) then t.tileAtChannel w base else t.touchHome w false pa p.2.2.home false
    s.serveLines ((List.range (G / 128)).map (fun i => base / 128 + i)) (fun t =>
      let s1 := reach t
      let q : FigReq := { pa := pa, va := m.addr, img := img, operand := x, core := m.core, back := back, flagOp := flagOp,
                          by_ := w, region := m.region, sname := m.sname, code := m.code }
      ((s1.figExecute q).podReply m (s1.figAnswer q)).podGone m)

/-- R250, R254. A figure has been executed at another device: it wrote, or it met a fault there (log 26). -/
def State.farFigure (s : State) (m : PodMsg) (img : List Byte) (v : Reg) (back : Option (Nat × Nat)) (flagOp : Option Nat) : State :=
  let r := s.free
  let d := r.1.toNat % 4
  let q : FigReq := { pa := m.off, va := m.addr, img := img, operand := 0, core := m.core, back := back, flagOp := flagOp,
                      region := m.region, sname := m.sname, code := m.code }
  if d = 0 then r.2.figReturn q (.ready (BitVec.ofNat 64 (v.toNat % 2 ^ figW (figFlags img)))) false
  else if figDrop (figFlags img) then r.2.figReturn q .skip false
  else (r.2.postRegion m.region (dieOfCore m.core) (q.record d)).figReturn q .skip true

/-- R129, R266. A named store has reached another device: it was applied or dropped there (log 26). -/
def State.farNamed (s : State) (q : Nat) (flag : Option Nat) : State :=
  match flag with
  | none => s
  | some f =>
    let r := s.free
    r.2.modSquad q (fun sq => sq.flagDone f (r.1.getLsbD 0))

/-- R315. A field of a flit's header. -/
def flitField (bs : List Byte) (at_ n : Nat) : Nat := leVal ((bs.drop at_).take n)

/-- R315. A flit's header: type, key slot, link sequence number, and the number acknowledged or refused. -/
def flitHeader (type : Nat) (slot : Bool) (seq arg : BitVec 16) : List Byte :=
  leBytes 2 (type + (if slot then 16 else 0)) ++ leBytes 2 seq.toNat ++ leBytes 2 arg.toNat ++ leBytes 6 0

/-- R315. The whole header of a flit without ciphertext: its CRC-32 is over bytes 0 to 11. -/
def plainFlit (type : Nat) (seq arg : BitVec 16) : List Byte :=
  let h := flitHeader type false seq arg
  h ++ leBytes 4 (Config.crc32 h).toNat ++ List.replicate 240 0

/-- R315. The initialisation vector: salt above, invocation count below. -/
def KeySlot.iv (k : KeySlot) : BitVec 96 := k.salt ++ k.count

/-- R312. The active transmit slot replaced. -/
def LinkS.withTx (l : LinkS) (k : KeySlot) : LinkS := if l.txActive then { l with tx1 := k } else { l with tx0 := k }

/-- R315. The 224 bytes of plaintext that a flit holds. -/
def flitPlain (payload : List Byte) : List Byte := (List.range 224).map (fun i => payload.getD i 0)

/-- R315. Send a data or marker flit under the active slot's next invocation; the transmitter keeps it. -/
def State.sendFlit (s : State) (l type : Nat) (packets : List Nat) : State :=
  let k := s.link l
  let h := flitHeader type k.txActive k.seq 0 ++ leBytes 4 0
  let bytes := h ++ gcmSeal k.tx.key k.tx.iv h (flitPlain (Config.payload s.fresh))
  let s1 : State := { s with fresh := s.fresh + 1 }
  (s1.modLink l (fun x => { x.withTx { x.tx with count := x.tx.count + 1 } with
    seq := x.seq + 1, replay := x.replay ++ [{ seq := x.seq.toNat, bytes := bytes, packets := packets }] })).send (.flit l bytes)

/-- R315. May a link send a data or marker flit: is there room in its replay buffer? -/
def LinkS.room (l : LinkS) : Bool := decide (l.replay.length < 128)

/-- R127, R317, R318. Send a marker, erase the old transmit slot, whose invocation counter stands, and make the other one active. -/
def State.sendMarker (s : State) (l : Nat) : State :=
  let who := (s.link l).armed
  let s1 := (s.sendFlit l 2 []).modLink l (fun x =>
    { x.withTx { count := x.tx.count } with txActive := !x.txActive, armed := [], stalled := false })
  who.foldl (fun acc q =>
    acc.modSquad q (fun sq => sq.waitedFor (.marker l))) s1

/-- R319. A multicast packet at its leaf switch: a branch for each named port of the own leaf, one up to a spine for the others. -/
def castBranches (dev : Nat) (m : PodMsg) (op : Nat) (leaf port : Reg) (data : List Byte) : List Branch :=
  let own := dev / 64
  let b (g : BranchTo) : Branch := { op := op, core := m.core, off := m.off, data := data, port := port, goes := g,
                                     region := m.region, sname := m.sname, code := m.code }
  let others : Reg := leaf &&& ~~~ BitVec.ofNat 64 (2 ^ own)
  (if leaf.getLsbD own then ((List.range 64).filter (fun p => port.getLsbD p)).map (fun p => b (.device (64 * own + p))) else []) ++
  (if others = 0 then [] else [b (.spine others)])

/-- R313, R319. A packet leaves over a link. -/
def State.leave (s : State) (m : PodMsg) : State :=
  let s0 := s.figGone m
  let s1 := if m.dst = leafSwitch then s0 else s0.podNumber { m with counted := none }
  { s1 with pod := s1.pod.map (fun x => if x.id = m.id then { x with sent := true } else x) }

/-- R200, R204, R250. The bytes that a packet may access at its destination, a figure all that its program may; none for one whose order is
that of R207 alone. -/
def PodMsg.reach (m : PodMsg) : Option (List Nat) :=
  match m.kind with
  | .write data => some (data.map (fun x => m.off + x.1))
  | .load _ _ n => some ((List.range n).map (fun i => m.off + i))
  | .figure _ img _ _ _ => some (figReach img m.off)
  | _ => none

/-- R207, R211, R251. Must a packet stay behind an earlier one of the same destination whatever its bytes: a write behind a write, a
figure behind a store to a line of its granule? -/
def PodMsg.behind (m x : PodMsg) : Bool :=
  match m.kind, x.kind with
  | .write _, .write _ => true
  | .figure _ img _ _ _, .write _ => let G := figGranule (figFlags img); m.off / G == x.off / G
  | _, _ => false

/-- R204, R207, R211. May a packet leave before an earlier one of the same destination: loads, writes and figures of different
bytes, except that writes keep their order and a figure follows the stores to its lines. -/
def PodMsg.passes (m x : PodMsg) : Bool :=
  match m.reach, x.reach with
  | some a, some b => !m.behind x && !a.any b.contains
  | _, _ => false

/-- R204, R207, R313. The packet that leaves next: the oldest, or in its place one of the same device that may pass what stands before
it there; which one is left open. -/
def State.nextPacket (s : State) : Option (PodMsg × State) :=
  match s.pod.filter (fun m => m.mine && !m.sent) with
  | [] => none
  | m :: rest =>
    let us := m :: rest.filter (fun x => x.dst == m.dst)
    let may := (List.range us.length).filterMap (fun i => match us[i]? with
      | some x => if (us.take i).all x.passes then some x else none
      | none => none)
    if may.length ≤ 1 || m.seq.isSome then some (m, s)
    else
      let r := s.free
      some (may.getD (r.1.toNat % may.length) m, r.2)

/-- R234, R324. A record for the management controller, and its interrupt. -/
def State.mgmtPost (s : State) (r : FaultRec) : State := (s.send (.mgmtRecord r.bytes)).send .mgmtIrq

/-- R316. A link goes DOWN: the packets of its replay buffer are sent again over other links, and the controller is told. -/
def State.linkDown (s : State) (l : Nat) : State :=
  let again := (s.link l).replay.flatMap (·.packets)
  let s1 : State := { s with pod := s.pod.map (fun m => if again.contains m.id then { m with sent := false } else m) }
  let r : FaultRec := { addr := l, cause := 0x25, source := 6 }
  (s1.modLink l (fun x => { x with st := .down, replay := [], discarding := false, fails := 0 })).mgmtPost r

/-- R315. The flits up to the acknowledged number leave the replay buffer. -/
def LinkS.ack (l : LinkS) (seq : Nat) : LinkS :=
  if l.replay.any (fun f => f.seq == seq) then
    { l with replay := (l.replay.dropWhile (fun f => f.seq != seq)).drop 1 } else l

/-- R316. A NAK: the stored flits from that number onward are sent again; a flit refused three times in a row takes the link
down. -/
def State.nak (s : State) (l seq : Nat) : State :=
  let k := s.link l
  match k.replay.find? (fun f => f.seq == seq) with
  | none => s
  | some f =>
    if 2 ≤ f.naks then s.linkDown l
    else
      let s1 := s.modLink l (fun x => { x with replay := x.replay.map (fun y => if y.seq = seq then { y with naks := y.naks + 1 } else y) })
      (k.replay.dropWhile (fun y => y.seq != seq)).foldl (fun acc y => acc.send (.flit l y.bytes)) s1

/-- R312. The receive slot that a header names, and that slot replaced. -/
def LinkS.rx (l : LinkS) (slot : Bool) : KeySlot := if slot then l.rx1 else l.rx0
def LinkS.withRx (l : LinkS) (slot : Bool) (k : KeySlot) : LinkS := if slot then { l with rx1 := k } else { l with rx0 := k }

/-- What a packet from another device carries (log 24); an answer is a packet of its pair too. -/
def wireKind (p : WirePacket) : PodKind :=
  let data : Tab Byte := p.data.foldl (fun m x => tabIns m (x.1 % 128) (BitVec.ofNat 8 x.2)) []
  match p.kind with
  | 0 => .write data
  | 1 => .load 0 0 p.size
  | 2 => .figure 0 p.image p.operand none none
  | 3 => .line 0 ((List.range 128).map (fun i => tabGet 0 data i))
  | 4 => .named p.src p.name p.reg p.mask (p.data.foldl (fun m x => tabIns m (x.1 % 32) (BitVec.ofNat 64 x.2)) []) none
  | _ => .reply (.ready 0)

/-- R313, R316. A packet arrives from another device: a duplicate is dropped by its sequence number, one that is early is held. -/
def State.arrivePacket (s : State) (p : WirePacket) : State :=
  let k := pairOfDevices p.src s.own
  let old := (p.seq - tabGet 0 s.rxSeq k).getLsbD 31 || s.pod.any (fun m => !m.mine && m.src == p.src && m.seq == some p.seq)
  if old then s
  else
    let r := s.newId
    let m : PodMsg := { id := r.1, src := p.src, dst := s.own, off := p.off, kind := wireKind p, mine := false, sent := true,
                        seq := some p.seq, window := some s.window }
    { r.2 with pod := r.2.pod ++ [m] }.podPump (r.2.pod.length + 1)

/-- R316. A flit fails: it and every later one are discarded, a NAK goes out, and its third failure in a row takes the link
down. -/
def State.flitFails (s : State) (l : Nat) (seq : BitVec 16) : State :=
  let s1 := (s.modLink l (fun x => { x with authFails := x.authFails + 1, discarding := true, fails := x.fails + 1 })).send
    (.flit l (plainFlit 4 0 seq))
  if 3 ≤ (s1.link l).fails then s1.linkDown l else s1

/-- R315, R316. Open a data or marker flit, of 16, 224 and 16 bytes, with the receive slot that its header names. -/
def LinkS.open_ (k : LinkS) (bs : List Byte) : Option (List Byte) :=
  let x := k.rx (bitOf (flitField bs 0 1) 4)
  if x.valid then gcmOpen 224 x.key x.iv (bs.take 16) (bs.drop 16) else none

/-- R316, R317. A data or marker flit has been authenticated. -/
def State.flitGood (s : State) (l type : Nat) (slot : Bool) (seq : BitVec 16) (plain : List Byte) : State :=
  let s1 := (s.modLink l (fun x =>
    let y := x.withRx slot { x.rx slot with count := (x.rx slot).count + 1 }
    { y with rxSeq := x.rxSeq + 1, discarding := false, fails := 0 })).send (.flit l (plainFlit 3 0 seq))
  if type = 2 then s1.modLink l (fun x => { x.withRx x.rxActive {} with rxActive := !x.rxActive })
  else (Config.packets plain).foldl State.arrivePacket s1

/-- R319. The next branches of a multicast packet. -/
def Branch.split (b : Branch) : List Branch :=
  match b.goes with
  | .spine leaves => ((List.range 64).filter (fun l => leaves.getLsbD l)).map (fun l => { b with goes := .leaf l })
  | .leaf l => ((List.range 64).filter (fun p => b.port.getLsbD p)).map (fun p => { b with goes := .device (64 * l + p) })
  | .device _ => []

/-- R320. The fields of a REDX descriptor. -/
def redxLen (r : List Byte) : Nat := fld r 0x10 4
def redxLeaf (r : List Byte) : Reg := BitVec.ofNat 64 (fld r 0x18 8)
def redxPort (r : List Byte) : Reg := BitVec.ofNat 64 (fld r 0x20 8)

/-- R319. Does a destination string name a device? -/
def names (leaf port : Reg) (d : Nat) : Bool := leaf.getLsbD (d / 64) && port.getLsbD (d % 64)

/-- R320. Is a REDX descriptor in range? -/
def redxOk (dev off : Nat) (r : List Byte) : Bool :=
  off % 64 == 0 && fld r 0 8 % 4 == 0 && fld r 8 8 % 4 == 0 && redxLen r % 4 == 0 && decide (4 ≤ redxLen r) &&
  decide (redxLen r ≤ 65536) && names (redxLeaf r) (redxPort r) dev

/-- R319. Is an MCAST descriptor in range? -/
def castOk (off : Nat) (r : List Byte) (leaf port : Reg) : Bool :=
  off % 64 == 0 && leaf != 0 && port != 0 && fld r 0 8 % 128 == 0 && fld r 8 8 % 128 == 0 && fld r 0x10 4 % 128 == 0 &&
  decide (128 ≤ fld r 0x10 4) && decide (fld r 0x10 4 ≤ 0x1000000)

/-- R118, R320. Two elements combined: SUM.F32, SUM.BF16, MIN.F32, MAX.F32. -/
def redxCombine (op a b : Nat) : Nat :=
  match op with
  | 0 => faddRne .f32 a b
  | 1 => faddRne .bf16 (a % 65536) (b % 65536) + 65536 * faddRne .bf16 (a / 65536) (b / 65536)
  | 2 => fminmax .f32 false a b
  | _ => fminmax .f32 true a b

/-- R320. Values combined in order. -/
def redxFold (op : Nat) (xs : List Nat) : Nat :=
  match xs with
  | [] => 0
  | x :: r => r.foldl (redxCombine op) x

/-- R320. Element j of a result: each leaf in ascending port order, then the leaves in ascending order. -/
def redxElem (op : Nat) (leaf port : Reg) (v : Nat → List Byte) (j : Nat) : Nat :=
  redxFold op (((List.range 64).filter (fun l => leaf.getLsbD l)).map (fun l =>
    redxFold op (((List.range 64).filter (fun p => port.getLsbD p)).map (fun p => leVal (((v (64 * l + p)).drop (4 * j)).take 4)))))

/-- R320. A REDX as a copy, for reading and writing memory. -/
def RedxOp.asCopy (r : RedxOp) : CopyOp :=
  { id := r.id, squad := r.squad, kind := .mcast, flag := r.flag, image := r.image, base := 0, size := 0, region := r.region,
    sname := r.sname, code := r.code, sec := r.sec }

/-- A reduction replaced. -/
def State.putRedx (s : State) (r : RedxOp) : State := { s with redx := s.redx.map (fun x => if x.id = r.id then r else x) }

/-- R185, R320. A reduction meets a fault in reading or writing memory. -/
def State.redxFault (s : State) (core : Nat) (r : RedxOp) (f : RowFault) : State :=
  match f with
  | .later => s
  | .bank => s
  | .error cause addr detail =>
    (s.postRegion r.region (dieOfCore core) (r.asCopy.record core cause addr detail)).putRedx { r with err := true }
  | .park pages kinds =>
    let w (p : Nat) : FilterWait := { party := 2 * r.id + 1, asid := r.region.asid, fq := r.region.faultQueue, rcb := r.region.rcb,
                                      fn := r.region.fn, page := p, kinds := BitVec.ofNat 8 (kinds.headD 0) }
    (s.modCore core (fun k => { k with filterWait := k.filterWait ++ pages.map w })).putRedx { r with parked := true }

/-- R320. The spine combines the members' contributions, or finds that they disagree; a group of one has no other member. -/
def State.redxSpine (s : State) (core : Nat) (r : RedxOp) : State :=
  let n := redxLen r.image
  match s.rowRead core r.asCopy ((List.range n).map (fun i => (fld r.image 0 8 + i) % 2 ^ 64)) with
  | (s1, .error f) => s1.redxFault core r f
  | (s1, .ok own) =>
    let at_ := s1.fresh
    let s2 : State := { s1 with fresh := at_ + 1 }
    if destCount (redxLeaf r.image) (redxPort r.image) = 1 || Config.peersAgree at_ then
      let v (d : Nat) : List Byte := if d = s.own then own else Config.peerVector at_ d
      s2.putRedx { r with result := some ((List.range (n / 4)).flatMap (fun j =>
        leBytes 4 (redxElem r.op (redxLeaf r.image) (redxPort r.image) v j))) }
    else
      (s2.postRegion r.region (dieOfCore core)
        { addr := 0, cause := 0x26, source := 4, cores := coreBit core, die := dieOfCore core, sname := r.sname.toNat,
          code := r.code.toNat }).putRedx { r with err := true }

/-- R129, R320. A reduction is over. -/
def State.redxDone (s : State) (r : RedxOp) : State :=
  { s with redx := s.redx.filter (fun x => x.id != r.id) }.modSquad r.squad (fun sq =>
    { sq.flagDone r.flag r.err with ocCp := sq.ocCp - 1 })

/-- R320. The reduction at a place, with its squad's core while that is resident. -/
def State.redxAt (s : State) (k : Nat) : Option (RedxOp × Nat) :=
  match s.redx[k]? with
  | none => none
  | some r => match tabFind s.squads r.squad with
    | none => none
    | some sq => if sq.isResident && !r.parked then some (r, sq.core) else none

/-- R319. Queues a copy of a GLOBAL range to every device of a destination string. -/
def execMcast (d a : BitVec 6) (f : BitVec 4) (s : State) : Host.Outcome State Fault Refusal :=
  s.word (fun q sq e =>
    let off := (sq.readS d.toNat).toNat
    let leaf := sq.readS a.toNat
    let port := sq.readS (a.toNat + 1)
    if (s.core sq.core).banksOf q then s.holdWord .retry
    else s.checked q sq e (s.imageAt q sq off 64) (fun r =>
      if !zeroFrom r 0x14 64 then s.trapWord q sq e causeIllegal 0 1
      else if !castOk off r leaf port then s.trapWord q sq e causeIllegal 0 3
      else if 16 ≤ (s.core sq.core).copies.length then s.holdWord .copyQueue
      else
        s.onBanks sq.core (bytes64 ((s.block sq.blockOf).base + off)) (fun s0 =>
        let n := s0.newId
        let c : CopyOp := { id := n.1, ord := n.1, squad := q, kind := .mcast, flag := f.toNat, image := r, base := (s.block sq.blockOf).base,
                            size := (s.block sq.blockOf).size, region := s.regionOf sq, sname := sq.sname,
                            code := wordAddr e.clause.addr e.idx, sec := s.inSection sq,
                            leaf := leaf, port := port }
        (n.2.enterCopy q sq.core c).charge sq 1)))

/-- R320. Contributes a vector to a switch reduction among a group of devices. -/
def execRedx (d : BitVec 6) (o : BitVec 3) (f : BitVec 4) (s : State) : Host.Outcome State Fault Refusal :=
  s.word (fun q sq e =>
    let off := (sq.readS d.toNat).toNat
    if (s.core sq.core).banksOf q then s.holdWord .retry
    else s.checked q sq e (s.imageAt q sq off 64) (fun r =>
      if !(zeroFrom r 0x16 0x18 && zeroFrom r 0x28 64) then s.trapWord q sq e causeIllegal 0 1
      else if !redxOk s.own off r then s.trapWord q sq e causeIllegal 0 3
      else
        s.onBanks sq.core (bytes64 ((s.block sq.blockOf).base + off)) (fun s0 =>
        let n := s0.newId
        let x : RedxOp := { id := n.1, squad := q, core := sq.core, flag := f.toNat, op := o.toNat, image := r,
                            region := s.regionOf sq, sname := sq.sname, code := wordAddr e.clause.addr e.idx, sec := s.inSection sq }
        let s1 : State := { n.2 with redx := n.2.redx ++ [x] }
        (s1.modSquad q (fun y => { y.flagIssue f.toNat with ocCp := y.ocCp + 1 })).charge sq 1)))

/-- R207. A destination applies a drained POD write in per-source sequence order. -/
def execPodWriteApply (k : Nat) (s : State) : Host.Outcome State Fault Refusal :=
  .next (match s.podTurn k with
    | none => s
    | some m => match m.kind with
      | .write data => if m.dst = s.own then s.podStore m data else s.podGone m
      | .figure _ img x none flagOp =>
        if m.dst = s.own then s.podFigure m img x none flagOp else (s.farFigure m img 0 none flagOp).podGone m
      | .named q _ _ _ _ flag => if m.mine then (s.farNamed q flag).podGone m else s
      | .reply _ => s.podGone m
      | _ => s)

/-- R158, R164. A destination checks a POD load against its window, translates it and serves or refuses it; what another device
returns is `data`, none where it returns poisoned. -/
def execPodLoadServe (k : Nat) (data : Option (BitVec 64)) (s : State) : Host.Outcome State Fault Refusal :=
  .next (match s.podTurn k with
    | none => s
    | some m => match m.kind with
      | .load op t size =>
        if m.dst = s.own then s.podFetch m op t size
        else
          let a : ElemState := match data with
            | some v => .ready (BitVec.ofNat 64 (v.toNat % 2 ^ (8 * size)))
            | none => .bad 1
          (s.setElem op t a).podGone m
      | .figure _ img x (some b) flagOp =>
        if m.dst = s.own then s.podFigure m img x (some b) flagOp else (s.farFigure m img (data.getD 0) (some b) flagOp).podGone m
      | _ => s)

/-- R313. A refusal from a switch or a destination returns to the sender. -/
def execPodRefusal (k : Nat) (s : State) : Host.Outcome State Fault Refusal :=
  .next (match s.pod[k]? with
    | none => s
    | some m =>
      let named := match m.kind with
        | .named _ _ _ _ _ _ => true
        | _ => false
      let lost := !m.sent && !s.linkUp
      let far := (s.podTurn k).isSome && m.dst != s.own && m.dst != leafSwitch
      if m.mine && !named && (lost || far) then
        let s1 := s.podRefuse m
        { s1 with pod := s1.pod.filter (fun x => x.id != m.id) }
      else s)

/-- R318. At each flit boundary a link transmitter sends its next flit (data, marker or idle), encrypting it under the active slot and advancing that slot's invocation count. -/
def execFlitBoundary (link : Nat) (s : State) : Host.Outcome State Fault Refusal :=
  let k := s.link link
  let idle := s.send (.flit link (plainFlit 0 0 0))
  .next (if k.st ≠ .up then s
    else if !k.room then idle
    else if !k.armed.isEmpty then s.sendMarker link
    else if !k.tx.valid || k.tx.count == k.tx.last then idle
    else match s.nextPacket with
      | none => idle
      | some x => (x.2.sendFlit link 1 [x.1.id]).leave x.1)

/-- R317. The invocation count reaches L − 1: a marker switches slots, or the link stalls and KEYEXHAUST is posted. -/
def execKeyLimitReached (link : Nat) (s : State) : Host.Outcome State Fault Refusal :=
  let k := s.link link
  .next (if k.st ≠ .up || !k.tx.valid || k.tx.count != k.tx.last then s
    else if k.txIdle.valid then (if k.room then s.sendMarker link else s)
    else if k.stalled then s
    else
      let r : FaultRec := { addr := link, cause := causeKeyexhaust, source := 6 }
      (s.modLink link (fun x => { x with stalled := true })).mgmtPost r)

/-- R316. A receiver authenticates a flit; a failure NAKs it, and a third failure takes the link DOWN. -/
def execFlitReceive (link : Nat) (flit : List (BitVec 8)) (s : State) : Host.Outcome State Fault Refusal :=
  let k := s.link link
  let type := flitField flit 0 1 % 16
  let seq : BitVec 16 := BitVec.ofNat 16 (flitField flit 2 2)
  let arg := flitField flit 4 2
  .next (if k.st ≠ .up || type == 0 then s
    else if type = 3 then s.modLink link (fun x => x.ack arg)
    else if type = 4 then s.nak link arg
    else if k.discarding && seq != k.rxSeq then s
    else if 5 ≤ type then s.flitFails link seq
    else match k.open_ flit with
      | none => s.flitFails link seq
      | some plain => if seq = k.rxSeq then s.flitGood link type (bitOf (flitField flit 0 1) 4) seq plain else s)

/-- R316. A NAK makes the transmitter resend its stored flits from the refused number. -/
def execNakReceive (link seq : Nat) (s : State) : Host.Outcome State Fault Refusal :=
  .next (if (s.link link).st = .up then s.nak link seq else s)

/-- R315. An ACK frees the acknowledged flits from the replay buffer. -/
def execAckReceive (link seq : Nat) (s : State) : Host.Outcome State Fault Refusal :=
  .next (if (s.link link).st = .up then s.modLink link (fun x => x.ack seq) else s)

/-- R312. Training completes and the link becomes UP. -/
def execLinkTrained (link : Nat) (s : State) : Host.Outcome State Fault Refusal :=
  .next (if (s.link link).st = .training then s.modLink link (fun x => { x with st := .up }) else s)

/-- R319. Branch k of a multicast packet has space at its output port: it goes on, at last to its device. -/
def State.sendBranch (s : State) (k : Nat) (b : Branch) : State :=
  let s1 : State := { s with branches := s.branches.eraseIdx k ++ b.split }
  match b.goes with
  | .device d =>
    let r := s1.newId
    let m : PodMsg := { id := r.1, src := s.own, dst := d, core := b.core, off := b.off, kind := .line b.op b.data, sent := true,
                        region := b.region, sname := b.sname, code := b.code }
    { r.2 with pod := r.2.pod ++ [m] }.podNumber m
  | .spine _ => s1
  | .leaf _ => s1

/-- R319. The leaf switch of the device has received a multicast packet, which is on its links no longer. -/
def State.atLeaf (s : State) (m : PodMsg) : State :=
  match m.kind with
  | .cast op leaf port data =>
    { s with pod := s.pod.filter (fun x => x.id != m.id), branches := s.branches ++ castBranches s.own m op leaf port data }
  | _ => s

/-- R319. A switch receives a multicast packet and sends its branches as ports free: branch k, or one of the packets on their way to the
leaf switch, which come after the branches. -/
def execMcastSwitchBranch (k : Nat) (s : State) : Host.Outcome State Fault Refusal :=
  .next (match s.branches[k]? with
    | some b => s.sendBranch k b
    | none => match (s.pod.filter (fun m => m.dst == leafSwitch && m.sent))[k - s.branches.length]? with
      | some m => s.atLeaf m
      | none => s)

/-- R319. A destination applies or refuses one multicast line. -/
def execMcastLineApply (k dev : Nat) (s : State) : Host.Outcome State Fault Refusal :=
  .next (match s.podTurn k with
    | none => s
    | some m => match m.kind with
      | .line op bs =>
        if m.dst ≠ dev then s
        else if dev = s.own then s.podLine m op bs
        else (s.lineDone op 1 false).podGone m
      | _ => s)

/-- R320. The group of a reduction, and the reduction unit of a group: spine (group >> 4) mod 64 of plane group mod 16. -/
def RedxOp.group (r : RedxOp) : Nat := fld r.image 0x14 2
def redxUnit (group : Nat) : Nat × Nat := (group % 16, group / 16 % 64)

/-- R320. A reduction that is not combined yet. -/
def RedxOp.open_ (r : RedxOp) : Bool := r.result.isNone && !r.err

/-- R320. May reduction k be combined: the first of its group, among the 256 that its unit holds (log 25)? -/
def State.redxHeld (s : State) (k : Nat) (r : RedxOp) : Bool :=
  let before := (s.redx.take k).filter RedxOp.open_
  r.open_ && !before.any (fun y => y.group == r.group) &&
  decide ((before.filter (fun y => redxUnit y.group == redxUnit r.group)).length < 256)

/-- R320. The group's spine combines the members' contributions in fixed order. -/
def execRedxSpineCombine (k : Nat) (s : State) : Host.Outcome State Fault Refusal :=
  .next (match s.redxAt k with
    | none => s
    | some x => if s.redxHeld k x.1 then s.redxSpine x.2 x.1 else s)

/-- R320. The reduction result is written at each member, completing its flag. -/
def execRedxResultWrite (k : Nat) (s : State) : Host.Outcome State Fault Refusal :=
  .next (match s.redxAt k with
    | none => s
    | some x =>
      if x.1.err then s.redxDone x.1
      else match x.1.result with
        | none => s
        | some bs =>
          match s.rowWrite x.2 x.1.asCopy ((List.range bs.length).map (fun i => ((fld x.1.image 8 8 + i) % 2 ^ 64, bs.getD i 0))) with
          | (s1, .error f) => s1.redxFault x.2 x.1 f
          | (s1, .ok ()) => s1.redxDone x.1)

end Sys2Proof.Machine
end

