-- ==== Sys2Proof/Machine/HostLink.lean ====
section
/-!
DEFINITION. The host link: the registers of the functions' BARs, reads and writes of them, and refused accesses
(R147, R286, R312, R321 to R324, R330, R332, R336).
-/
namespace Sys2Proof.Machine

/-- R321, R333. Does a function's BAR exist for the host: BAR0 of each function, BAR2 of the physical function; while bring-up
has not completed, the physical function's BAR0 alone? -/
def State.hostSees (s : State) (fn bar : Nat) : Bool :=
  decide (fn ≤ 64) && (bar == 0 || (bar == 2 && fn == 0)) && (s.module.booted || (fn == 0 && bar == 0))

/-- R321. A refused access is logged, by its kind and case. -/
def State.refuseHost (s : State) (fn off kind case : Nat) : State := if fn ≤ 64 then s.logFn fn off kind case fn else s

/-- R321, R324. A write to an MSI-X table entry. Unmasking a pending vector sends its message. -/
def State.writeVector (s : State) (fn off : Nat) (v : Reg) : State :=
  let k := 256 * fn + (off - 0x3000) / 16
  let x := tabGet {} s.msix k
  if off % 16 = 0 then { s with msix := tabPut {} s.msix k { x with addr := v } }
  else
    let masked := v.getLsbD 32
    let go := !masked && x.pending
    let s1 : State := { s with msix := tabPut {} s.msix k { x with data := v.setWidth 32, masked := masked, pending := x.pending && !go } }
    if go then s1.send (.msix fn ((off - 0x3000) / 16)) else s1

/-- R321. A write of a function's error-log count: 0 clears it. -/
def State.clearFnLog (s : State) (fn : Nat) (v : Reg) : State :=
  if v = 0 then { s with fnLogs := tabPut {} s.fnLogs fn { tabGet {} s.fnLogs fn with count := 0 } } else s

/-- R321. The offsets of the MSI-X table and of the pending-bit array of a function. -/
def inVectors (fn off : Nat) : Bool := decide (0x3000 ≤ off) && decide (off < 0x3000 + 16 * vectorsOf fn)
def inPending (fn off : Nat) : Bool := decide (0x3800 ≤ off) && decide (off < 0x3800 + vectorsOf fn / 8)

/-- R5, R321. Why a write of 8 bytes to a function's BAR0 is refused: kind and case. -/
def State.badBar0 (s : State) (fn off : Nat) (v : Reg) : Option (Nat × Nat) :=
  if off < 0x1000 then (s.doorbellCase fn off v).map (fun c => (2, c))
  else if off = 0x1000 ∨ off = 0x1008 ∨ (0x2000 ≤ off ∧ off ≤ 0x2100) then none
  else if inVectors fn off then (if off % 16 = 8 ∧ v.toNat / 2 ^ 33 ≠ 0 then some (1, 1) else none)
  else if inPending fn off then none
  else some (1, 0)

/-- R321. A write to a function's BAR0. -/
def State.writeBar0 (s : State) (fn off : Nat) (v : Reg) : State :=
  if off < 0x1000 then s.doorbell v
  else if off = 0x2100 then s.clearFnLog fn v
  else if inVectors fn off then s.writeVector fn off v
  else s

/-- R322. KILL: a region's fault domain is killed. -/
def State.hostKill (s : State) (v : Reg) : State :=
  let a := v.toNat % 2 ^ 52
  match s.resolve a 0 with
  | none => s
  | some g => s.killDomain g.domain a 0

/-- R235, R322. REPLAY: the release of a fault record at a physical address. -/
def State.hostReplay (s : State) (v : Reg) : State :=
  let r := s.newId
  { r.2 with releases := r.2.releases ++ [{ id := r.1, record := r.2.readBytes (v.toNat % 2 ^ 52) 64 }] }

/-- R293, R322. PREEMPT: a queue's slot, when it is bound. -/
def State.hostPreempt (s : State) (v : Reg) : State :=
  if (s.slotOf v.toNat).isSome then s.preemptSlot v.toNat else s

/-- R322. The export window's registers. -/
def State.writeWindow (s : State) (off : Nat) (v : Reg) : State :=
  if off = 0x80020 then { s with window := { s.window with asid := v.toNat % 65536, enable := v.getLsbD 16 } }
  else if off = 0x80028 then { s with window := { s.window with base := v.toNat } }
  else { s with window := { s.window with size := v.toNat } }

/-- R147, R322. A die event counter's source select, as EVSEL's: source, enable, clear. -/
def State.dieSelect (s : State) (off : Nat) (v : Reg) : State :=
  let k := 64 * ((off - 0x50000) / 0x400) + off % 0x200 / 8
  let old := tabGet ({} : EventCounter) s.dieEvents k
  let new : EventCounter := { count := if v.getLsbD 9 then 0 else old.count, source := v.setWidth 8, en := v.getLsbD 8 }
  { s with dieEvents := tabPut {} s.dieEvents k new }

/-- R330. A channel's groomer threshold and period. -/
def State.writeGroomer (s : State) (off : Nat) (v : Reg) : State :=
  s.modChannel ((off - 0x82000) / 8) (fun c => { c with threshold := v.setWidth 7, period := BitVec.ofNat 32 (v.toNat / 2 ^ 32) })

/-- R332. A write of 0 to a channel's error count empties its table. -/
def State.clearErrors (s : State) (off : Nat) (v : Reg) : State :=
  if v.setWidth 32 = (0 : Word) then s.modChannel ((off - 0x84000) / 4) (fun c => { c with errors := [], errCount := 0 }) else s

/-- R336. A write to the mailbox: the command, or the buffer. It is ignored while the status is busy. -/
def State.writeMailbox (s : State) (off : Nat) (v : Reg) : State :=
  let m := s.module
  if m.status = 1 then s
  else if off = 0x81000 then
    let c : Byte := v.setWidth 8
    { s with module := { m with command := c, status := if c = 0 ∨ 4 < c.toNat then 2 else 1 } }
  else if off = 0x81008 then s
  else { s with module := { m with buffer := (leBytes 8 v.toNat).zipIdx.foldl (fun b x => tabPut 0 b (off - 0x81100 + x.2) x.1) m.buffer } }

/-- R322. Is an offset of BAR2 a source select of a die counter, and is one a count? -/
def isSelect (off : Nat) : Bool :=
  decide (0x50000 ≤ off) && decide (off < 0x50000 + 0x400 * 10) && decide (0x200 ≤ off % 0x400) && off % 8 == 0

/-- R322, R330, R336. The offsets of BAR2's other registers. -/
def isWindow (off : Nat) : Bool := off == 0x80020 || off == 0x80028 || off == 0x80030
def isMailbox (off : Nat) : Bool := off == 0x81000 || off == 0x81008 || (decide (0x81100 ≤ off) && decide (off < 0x81200))
def isGroomer (off : Nat) : Bool := decide (0x82000 ≤ off) && decide (off < 0x83000)
def isErrors (off : Nat) : Bool := decide (0x84000 ≤ off) && decide (off < 0x84800)

/-- R330. Does a groomer write leave its range? -/
def groomerRange (v : Reg) : Bool := v.toNat % 128 == 0 || decide (64 < v.toNat % 128) || v.toNat / 2 ^ 32 == 0

/-- R5, R321, R322, R330, R336. Why a write to BAR2 is refused: kind and case. -/
def State.badBar2 (s : State) (off : Nat) (v : Reg) : Option (Nat × Nat) :=
  let reserved (b : Bool) : Option (Nat × Nat) := if b then some (1, 1) else none
  if off < 0x80000 ∨ off = 0x80000 ∨ off = 0x80008 then none
  else if off = 0x80010 then reserved (decide (2 ^ 16 ≤ v.toNat))
  else if isWindow off then reserved (off == 0x80020 && decide (2 ^ 17 ≤ v.toNat))
  else if isMailbox off then
    (if s.module.status = 1 then none else reserved ((off == 0x81000 && decide (2 ^ 16 ≤ v.toNat)) || (off == 0x81008 && v != 0)))
  else if isGroomer off then
    (if v.toNat / 128 % 2 ^ 25 ≠ 0 then some (1, 1) else if groomerRange v then some (1, 2) else none)
  else if isErrors off then none
  else some (1, 0)

/-- R312, R322. A write to the physical function's BAR2. -/
def State.writeBar2 (s : State) (off : Nat) (v : Reg) : State :=
  if isSelect off then s.dieSelect off v
  else if off < 0x80000 then s
  else if off = 0x80000 then s.hostKill v
  else if off = 0x80008 then s.hostReplay v
  else if off = 0x80010 then s.hostPreempt v
  else if isWindow off then s.writeWindow off v
  else if isMailbox off then s.writeMailbox off v
  else if isGroomer off then s.writeGroomer off v
  else if isErrors off then s.clearErrors off v
  else s

/-- R321. The first and last queues whose descriptors name a function; the queue ids are 16 bits wide. -/
def State.queuesOf (s : State) (fn : Nat) : List Nat := (List.range 65536).filter (fun q => (s.qdesc q).owner == fn)

/-- R321. The bytes of a function's error log. -/
def FunctionLog.bytes (l : FunctionLog) : List Byte := l.entries.flatMap id

/-- R5, R321. The 8 bytes at an aligned offset of a function's BAR0, reserved bits zero; `x` stands for what the manual leaves open. -/
def State.readBar0 (s : State) (fn off : Nat) (x : Nat) : Option Nat :=
  let l := tabGet {} s.fnLogs fn
  let pba := (List.range 64).foldl (fun acc i => if (tabGet {} s.msix (256 * fn + (off - 0x3800) * 8 + i)).pending then acc + 2 ^ i else acc) 0
  let vec := tabGet {} s.msix (256 * fn + (off - 0x3000) / 16)
  if off < 0x1000 then some (x % 2 ^ 16 + x / 2 ^ 32 * 2 ^ 32)
  else if off = 0x1000 then
    some (if s.module.booted = false then 2 ^ 31 + fn * 2 ^ 12 else s.own + fn * 2 ^ 12)
  else if off = 0x1008 then
    match s.queuesOf fn with
    | [] => some x
    | q :: r => some (q + 2 ^ 16 * (r.getLast?.getD q))
  else if 0x2000 ≤ off ∧ off < 0x2100 then some (fld l.bytes (off - 0x2000) 8)
  else if off = 0x2100 then some l.count.toNat
  else if inPending fn off then some pba
  else if inVectors fn off then
    some (if off % 16 = 0 then vec.addr.toNat else vec.data.toNat + (if vec.masked then 2 ^ 32 else 0))
  else none

/-- R332. The 16 bytes of an error-log entry. -/
def ErrEntry.bytes (e : ErrEntry) : List Byte :=
  leBytes 8 e.addr ++ leBytes 1 (if e.bad then 1 else 0) ++ leBytes 1 (if e.groomer then 1 else 0) ++ leBytes 2 e.times ++
  leBytes 4 e.at_.toNat

/-- R312, R322. The 8 bytes at an aligned offset below 0x8_0000 of BAR2: counters, selects and error log tables. -/
def State.readCounters (s : State) (off : Nat) : Option Nat :=
  let sl := off / 16
  let ch := (off - 0x30000) / 8
  let k := s.link ((off - 0x41000) / 32)
  let n := 64 * ((off - 0x50000) / 0x400) + off % 0x200 / 8
  let c := tabGet ({} : EventCounter) s.dieEvents n
  if off < 0x3000 then
    some (if off % 16 = 0 then (tabGet 0 s.pinOverflow sl).toNat else (tabGet 0 s.sliceDrops sl).toNat)
  else if 0x30000 ≤ off ∧ off < 0x31000 then some (tabGet 0 s.channelDrops ch).toNat
  else if off = 0x40000 then some s.deadLetter.toNat
  else if 0x41000 ≤ off ∧ off < 0x41200 then
    match off % 32 with
    | 0 => some k.authFails.toNat
    | 8 => some k.tx0.count.toNat
    | 16 => some k.tx1.count.toNat
    | _ => none
  else if 0x50000 ≤ off ∧ off < 0x52800 then
    some (if off % 0x400 < 0x200 then c.count.toNat else c.source.toNat + (if c.en then 256 else 0))
  else if 0x60000 ≤ off ∧ off < 0x80000 then
    some (fld ((s.channel ((off - 0x60000) / 256)).errors.flatMap ErrEntry.bytes) (off % 256) 8)
  else none

/-- R5, R312, R322, R330, R332, R336. The 8 bytes at an aligned offset of BAR2, reserved bits zero; `x` stands for what the manual leaves open. -/
def State.readBar2 (s : State) (off : Nat) (x : Nat) : Option Nat :=
  let m := s.module
  let g := s.channel ((off - 0x82000) / 8)
  let e (i : Nat) : Nat := (s.channel ((off - 0x84000) / 4 + i)).errCount.toNat
  if off < 0x80000 then s.readCounters off
  else if off = 0x80000 ∨ off = 0x80008 then some x
  else if off = 0x80010 then some (x % 2 ^ 16)
  else if off = 0x80020 then some (s.window.asid + (if s.window.enable then 65536 else 0))
  else if off = 0x80028 then some s.window.base
  else if off = 0x80030 then some s.window.size
  else if off = 0x81000 then some (m.command.toNat + 256 * m.status.toNat)
  else if off = 0x81008 then some 0
  else if isMailbox off then some (leVal ((List.range 8).map (fun i => tabGet 0 m.buffer (off - 0x81100 + i))))
  else if isGroomer off then some (g.threshold.toNat + 2 ^ 32 * g.period.toNat)
  else if isErrors off then some (e 0 + 2 ^ 32 * e 1)
  else none

/-- R321, R322, R332. The size and the start of the register that holds a byte of a BAR: 4 bytes for a channel's error count. -/
def grainOf (bar a : Nat) : Nat := if bar = 2 ∧ isErrors a = true then 4 else 8
def registerOf (bar a : Nat) : Nat := a / grainOf bar a * grainOf bar a

/-- The registers that a host write of some bytes touches, each with its value: a byte that the request leaves out is as it reads,
with `x` for what the manual leaves open (log 45). -/
def State.writePieces (s : State) (fn bar off : Nat) (data : List Byte) (x : Nat) : List (Nat × Reg) :=
  let word (p : Nat) : Nat := (if bar = 0 then s.readBar0 fn (p / 8 * 8) x else s.readBar2 (p / 8 * 8) x).getD 0
  let byte (a : Nat) : Byte := if off ≤ a ∧ a < off + data.length then data.getD (a - off) 0
    else BitVec.ofNat 8 (word a / 2 ^ (8 * (a % 8)))
  (((List.range data.length).map (fun i => registerOf bar (off + i))).eraseDups).map (fun p =>
    (p, BitVec.ofNat 64 (leVal ((List.range (grainOf bar p)).map (fun i => byte (p + i))))))

/-- R286. Does a request write part of the doorbell? -/
def partDoorbell (bar off n : Nat) : Bool := bar == 0 && decide (off < 8) && (off != 0 || decide (n < 8))

/-- R286, R321, R322. A host write of 1 to 512 bytes to a function's BAR: refused whole when one of its registers refuses, and else the
registers are written in ascending order. -/
def State.hostWrite (s : State) (fn bar off : Nat) (data : List Byte) (x : Nat) : State :=
  let ps := s.writePieces fn bar off data x
  let bad (p : Nat × Reg) : Option (Nat × Nat × Nat) :=
    (if bar = 0 then s.badBar0 fn p.1 p.2 else s.badBar2 p.1 p.2).map (fun b => (p.1, b))
  if data.isEmpty || decide (512 < data.length) then s
  else if !s.hostSees fn bar then s.refuseHost fn off 1 3
  else if partDoorbell bar off data.length then s.refuseHost fn off 2 0
  else match ps.findSome? bad with
    | some b => s.refuseHost fn b.1 b.2.1 b.2.2
    | none => ps.foldl (fun acc p => if bar = 0 then acc.writeBar0 fn p.1 p.2 else acc.writeBar2 p.1 p.2) s

/-- A host write of 8 bytes, or of 4 at a channel's error count, at an aligned offset. -/
def State.hostWord (s : State) (fn bar off : Nat) (v : Reg) : State := s.hostWrite fn bar off (leBytes (grainOf bar off) v.toNat) 0

/-- R321. The bytes of a host read, or none where some byte lies outside the function's assignment. -/
def State.readBar (s : State) (fn bar off len x : Nat) : Option (List Byte) :=
  if s.hostSees fn bar && decide (1 ≤ len) && decide (len ≤ 512) then
    (List.range len).mapM (fun i =>
      let a := off + i
      (if bar = 0 then s.readBar0 fn (a / 8 * 8) x else s.readBar2 (a / 8 * 8) x).map (fun w => BitVec.ofNat 8 (w / 2 ^ (8 * (a % 8)))))
  else none

/-- R323. The owning function logs a refused access to a HOST page. -/
def State.logDma (s : State) (g : Region) (addr : Nat) : State := s.logFn g.fn addr 4 0 g.fn

/-- R323. The host refuses a load element. -/
def State.refuseLoad (s : State) (op t : Nat) : State :=
  match tabFind s.loads op with
  | none => s
  | some o => match o.elems.find? (fun l => l.thread == t) with
    | none => s
    | some l =>
      if l.host && l.st == .waiting && o.kind.global then
        ((s.setElem op t (if o.kind == .nf then .skip else .bad 3)).retryHeld o.core).logDma o.region l.pa
      else s

/-- R323. The host refuses a store: it is discarded and recorded. -/
def State.refuseStore (s : State) (core k : Nat) : State :=
  match s.mayAccept core k with
  | none => s
  | some e =>
    if e.host && e.isStore then
      let s1 := (s.leavePath core k e).storeDone core e.op e.squad
      (s1.postRegion e.region (dieOfCore core) (refusedStore e.va core e.sname e.code)).logDma e.region e.pa
    else s

/-- R185, R323. The host refuses what a copy reads (POISON with detail 3) or writes (cause 0x21), at a virtual address. -/
def State.refuseCopy (s : State) (op va : Nat) : State :=
  match s.cores.findSome? (fun c => (c.2.copy op).map (fun x => (c.1, x))) with
  | none => s
  | some x =>
    let c := x.2
    match s.translateIn x.1 c.region va with
    | .page p =>
      if p.host && c.started && !c.parked && !c.ended && c.rowVas.contains va then
        let reads := c.kind == .cpin || c.kind == .mcast
        (s.copyError x.1 c (if reads then causePoison else 0x21) va (if reads then 3 else 0)).logDma c.region (p.pa va)
      else s
    | .absent => s
    | .malformed => s

/-- R185, R320, R323. The host refuses what a reduction reads (POISON with detail 3) or writes (cause 0x21), at a virtual address. -/
def State.refuseRedx (s : State) (op va : Nat) : State :=
  match s.redx.find? (fun r => r.id == op) with
  | none => s
  | some r => match s.redxAt (s.redx.idxOf r) with
    | none => s
    | some x =>
      let reads := r.result.isNone
      let base := fld r.image (if reads then 0 else 8) 8
      match s.translateIn x.2 r.region va with
      | .page p =>
        if p.host && !r.err && (List.range (redxLen r.image)).any (fun i => (base + i) % 2 ^ 64 == va) then
          (s.redxFault x.2 r (.error (if reads then causePoison else 0x21) va (if reads then 3 else 0))).logDma r.region (p.pa va)
        else s
      | .absent => s
      | .malformed => s

/-- R286. A doorbell write updates a queue's write index, or is discarded, or sets overrun status. -/
def execDoorbell (fn off : Nat) (v : BitVec 64) (s : State) : Host.Outcome State Fault Refusal :=
  .next (if off < 0x1000 then s.hostWord fn 0 off v else s)

/-- R323. The host refuses an access to a HOST page: load elements poison, stores are recorded, copies end with error. -/
def execHostRefusal (kind op t : Nat) (s : State) : Host.Outcome State Fault Refusal :=
  .next (match kind with
    | 0 => s.refuseLoad op t
    | 1 => s.refuseStore op t
    | 2 => s.refuseCopy op t
    | 3 => s.refuseRedx op t
    | _ => s)

/-- R322. A write of an RCB address to BAR2 KILL kills that region's fault domain. -/
def execHostKill (fn : Nat) (v : BitVec 64) (s : State) : Host.Outcome State Fault Refusal :=
  .next (s.hostWord fn 2 0x80000 v)

/-- R322. A write of a fault-record address to BAR2 REPLAY acts as REPLAY. -/
def execHostReplay (fn : Nat) (v : BitVec 64) (s : State) : Host.Outcome State Fault Refusal :=
  .next (s.hostWord fn 2 0x80008 v)

/-- R322. A write of a queue id to BAR2 PREEMPT pre-empts that queue's slot. -/
def execHostPreempt (fn : Nat) (v : BitVec 64) (s : State) : Host.Outcome State Fault Refusal :=
  .next (s.hostWord fn 2 0x80010 v)

/-- R322. A write sets the export window's address space, enable, base or size. -/
def execExportWindowWrite (fn off : Nat) (v : BitVec 64) (s : State) : Host.Outcome State Fault Refusal :=
  .next (if isWindow off then s.hostWord fn 2 off v else s)

/-- R322. A host write selects the source of a die event counter. -/
def execDieEventSelect (fn off : Nat) (v : BitVec 64) (s : State) : Host.Outcome State Fault Refusal :=
  .next (if isSelect off then s.hostWord fn 2 off v else s)

/-- R330. A write sets a channel's groomer threshold and period, or is discarded and logged. -/
def execGroomerConfigWrite (fn off : Nat) (v : BitVec 64) (s : State) : Host.Outcome State Fault Refusal :=
  .next (if isGroomer off then s.hostWord fn 2 off v else s)

/-- R332. A write of 0 to a channel's error count empties its error log. -/
def execChannelErrorLogClear (fn off : Nat) (v : BitVec 64) (s : State) : Host.Outcome State Fault Refusal :=
  .next (if isErrors off then s.hostWord fn 2 off v else s)

/-- R321. A write of 0 to a function's error count clears it. -/
def execFunctionErrorLogClear (fn : Nat) (v : BitVec 64) (s : State) : Host.Outcome State Fault Refusal :=
  .next (s.hostWord fn 0 0x2100 v)

/-- R321. A host write to any other function register, such as the MSI-X table. -/
def execRegisterWrite (fn bar off : Nat) (data : List (BitVec 8)) (s : State) : Host.Outcome State Fault Refusal :=
  let r := s.free
  .next (r.2.hostWrite fn bar off data r.1.toNat)

/-- R321. A host memory read request to a function's BAR returns the register's value, or, outside the function's assignment, an Unsupported Request completion that is logged in that function's error log. -/
def execMemoryReadRequest (fn bar off len : Nat) (s : State) : Host.Outcome State Fault Refusal :=
  let r := s.free
  .next (match r.2.readBar fn bar off len r.1.toNat with
    | some bs => r.2.send (.readReply fn (some bs))
    | none => (r.2.refuseHost fn off 0 0).send (.readReply fn none))

end Sys2Proof.Machine
end

