-- ==== Sys2Proof/Machine/Channels.lean ====
section
/-!
DEFINITION. The memory channels, the groomer, bring-up, attestation, power and the management mailbox (R325 to R336).
-/
namespace Sys2Proof.Machine

/-- R326. The deadline of a request that arrives now. -/
def ChannelS.deadline (c : ChannelS) (budget : Nat) : Word := c.clk + BitVec.ofNat 32 (16 * budget)

/-- R326. Is deadline a earlier than b: by the sign of their 32-bit difference? -/
def earlier (a b : Word) : Bool := (a - b).getLsbD 31

/-- R327, R329. The lines of a channel that a request reads or writes. -/
def ChanReq.lines (r : ChanReq) (chan : Nat) : List Nat :=
  match r.row with
  | none => [r.line]
  | some n => Config.linesOfRow chan n

/-- R327. May a request issue: no earlier one on a line of it? -/
def mayIssue (chan : Nat) (q : List ChanReq) (k : Nat) : Bool :=
  match q[k]? with
  | none => false
  | some r => !((q.take k).any (fun x => (x.lines chan).any (fun l => (r.lines chan).contains l)))

/-- R327. Among the places of a queue that satisfy a condition, the one of earliest deadline; the first on equal deadlines. -/
def bestOf (chan : Nat) (q : List ChanReq) (p : ChanReq → Bool) : Option Nat :=
  (List.range q.length).foldl (fun acc k =>
    match q[k]? with
    | none => acc
    | some r =>
      if !(p r && mayIssue chan q k) then acc
      else match acc with
        | none => some k
        | some j => match q[j]? with
          | none => some k
          | some b => if earlier r.deadline b.deadline then some k else acc) none

/-- R327. The request that a channel picks. -/
def ChannelS.pick (c : ChannelS) (chan : Nat) : Option Nat :=
  match if 63 ≤ c.since3 then bestOf chan c.queue (fun r => r.cls == 3) else none with
  | some k => some k
  | none => (List.range 4).findSome? (fun n => bestOf chan c.queue (fun r => r.cls == n))

/-- R328. A bank's row buffers after a request to a row: its buffer is the most recently used; a fifth row takes the least
recently used buffer, whose dirty row is written back. -/
def openRow (bs : List RowBuf) (row : Nat) (write : Bool) : List RowBuf :=
  match bs.find? (fun b => b.row == row) with
  | some b => { b with dirty := b.dirty || write } :: bs.filter (fun x => x.row != row)
  | none => { row := row, dirty := write } :: bs.take 3

/-- R144, R327. A request served after its deadline counts in its class and in its core; a slice's own and the groomer's count nowhere. -/
def State.missed (s : State) (core : Option Nat) (cls : Nat) : State :=
  match core with
  | none => s
  | some c =>
    (s.modCore c (fun k => { k with missed := tabPut 0 k.missed cls (tabGet 0 k.missed cls + 1) })).coreEvent c 0x10 1

/-- R329. The elapsed clocks and the period of a pass, and how far the pass stands: is progress at least E / P of the rows? -/
def ChannelS.pass (c : ChannelS) : Nat := c.passPeriod.toNat * 2 ^ 20
def ChannelS.onTime (c : ChannelS) : Bool := decide (c.elapsed * Config.rowsPerChannel ≤ c.progress * c.pass)

/-- R329. The groomer's level. -/
def ChannelS.groomLevel (c : ChannelS) : Nat := if c.level = 1 || decide (c.pass ≤ c.elapsed) then 1 else if c.onTime then 3 else 2

/-- R329. May the groomer issue: below the threshold, or at level 1? -/
def ChannelS.mayGroom (c : ChannelS) : Bool := c.groomLevel == 1 || decide (c.queue.length < c.threshold.toNat)

/-- R329. A row has been read: the next one, or the next pass. -/
def ChannelS.nextRow (c : ChannelS) : ChannelS :=
  if c.progress + 1 < Config.rowsPerChannel then { c with progress := c.progress + 1, level := c.groomLevel }
  else { c with progress := 0, elapsed := 0, level := 3, passPeriod := c.period }

/-- R328. A request to a line of a channel finds its row open, or opens it. -/
def ChannelS.opened (c : ChannelS) (line : Nat) (write : Bool) : ChannelS :=
  let at_ := Config.rowOf line
  { c with rows := tabPut [] c.rows at_.1 (openRow (tabGet [] c.rows at_.1) at_.2 write) }

/-- R327 to R329. A channel issues its request at a place: the groomer's reads its row, and the next one comes. -/
def State.issueChannel (s : State) (ch k : Nat) (r : ChanReq) : State :=
  let c := s.channel ch
  let s1 := s.modChannel ch (fun x =>
    { ((r.lines ch).take 1).foldl (fun acc l => acc.opened l r.write) x with
      queue := x.queue.eraseIdx k, since3 := if r.cls = 3 then 0 else x.since3 + 1 })
  let s2 := if r.row.isNone then s1 else ((r.lines ch).foldl (fun acc l => acc.readLine true l) s1).modChannel ch ChannelS.nextRow
  if earlier r.deadline c.clk then s2.missed r.core r.cls else s2

/-- R326. A request enters a channel's queue and takes its deadline. -/
def ChannelS.arrive (c : ChannelS) (r : ChanReq) : ChannelS := { c with queue := c.queue ++ [{ r with deadline := c.deadline r.budget }] }

/-- R10, R326. The first request on its way that has a class, a budget, a line and a core, when it is a channel's and none to its line
comes before it. -/
def State.dueAt (s : State) (chan cls budget line : Nat) (core : Option Nat) : Option (Nat × ChanReq) :=
  match (s.toChannel.zipIdx.find? (fun x => x.1.line == line)) with
  | none => none
  | some x =>
    if x.1.cls = cls ∧ x.1.budget = budget ∧ x.1.core = core ∧ channelOf (128 * line) = chan then some (x.2, x.1) else none

/-- R325, R329. One clk of a channel. -/
def ChannelS.clock (c : ChannelS) : ChannelS := { c with clk := c.clk + 1, elapsed := c.elapsed + 1 }

/-- R18, R333. What an image sets. -/
def imageConfig (image : List Byte) : ImageConfig :=
  { deviceId := Config.imageDevice image, directory := Config.imageDirectory image, queueTable := Config.imageQueueTable image,
    threshold := Config.imageThreshold image, period := Config.imagePeriod image, links := Config.imageLinks image,
    firmware := Config.imageFirmware image }

/-- R333. A channel after bring-up, with the image's groomer settings. -/
def imageChannel (c : ImageConfig) : ChannelS := { threshold := c.threshold, period := c.period, passPeriod := c.period }

/-- R333. The module at power-on: its reset state, in bring-up. What stands outside it, the sensors and the model's own counters stay
(log 48). -/
def State.powered (s : State) : State :=
  { State.reset with
    agenda := s.agenda
    outbox := s.outbox
    fresh := s.fresh
    nextId := s.nextId
    host := s.host
    module := { temps := s.module.temps, supply := s.module.supply } }

/-- R333. The machine that a good image brings up: measured, configured, memory zero, links trained. -/
def State.boot (s : State) (image : List Byte) : State :=
  { s.powered with
    channels := (List.range 512).foldl (fun m c => tabPut {} m c (imageChannel (imageConfig image))) []
    links := (List.range 16).foldl (fun m l => tabPut {} m l { st := .up }) []
    module := { s.powered.module with power := .active, booted := true, measurement := sha384 image, config := imageConfig image } }

/-- R336. The n bytes of the mailbox buffer. -/
def ModuleS.bytes (m : ModuleS) (n : Nat) : List Byte := (List.range n).map (fun i => tabGet 0 m.buffer i)

/-- R336. A command ends with a status, and with bytes in the buffer. -/
def State.mailDone (s : State) (status : Byte) (bs : List Byte) : State :=
  { s with module := { s.module with
      status := status, buffer := bs.zipIdx.foldl (fun b x => tabPut 0 b x.2 x.1) s.module.buffer } }

/-- R336. Run a command when it is the one in the mailbox and the status is busy. -/
def State.mailbox (s : State) (c : Byte) (f : State) : State := if s.module.status = 1 ∧ s.module.command = c then f else s

/-- R334. The first 160 bytes of an attestation report. -/
def State.report (s : State) : List Byte :=
  s.module.bytes 32 ++ (s.module.measurement ++ List.replicate 48 0).take 48 ++ leBytes 2 s.own ++ List.replicate 14 0 ++
  sha384 Config.certificate ++ List.replicate 16 0

/-- R336. The code of a power state; the manual gives those of ACTIVE and HALTED (log 27). -/
def Power.code : Power → Byte
  | .bringup => Config.powerCode 0
  | .active => 0
  | .throttled => Config.powerCode 1
  | .halted => 3

/-- R312. The code of a link state. -/
def LinkState.code : LinkState → Nat
  | .down => 0
  | .training => 1
  | .up => 2

/-- R312, R336. A link is reset: it trains again, and the packets of its replay buffer are sent again (log 28). -/
def State.resetLink (s : State) (l : Nat) : State :=
  let again := (s.link l).replay.flatMap (·.packets)
  let s1 : State := { s with pod := s.pod.map (fun m => if again.contains m.id then { m with sent := false } else m) }
  s1.modLink l (fun x => { x with st := .training, replay := [], seq := 0, rxSeq := 0, discarding := false, fails := 0 })

/-- R335, R336. The module enters ACTIVE or HALTED; ACTIVE is full operation. -/
def State.powerTo (s : State) (p : Power) : State :=
  { s with module := { s.module with power := p, slower := if p = .active then 0 else s.module.slower } }

/-- R335. The hottest die, and whether every die is below a temperature in 0.1 degrees. -/
def ModuleS.someAt (m : ModuleS) (t : Nat) : Bool := m.temps.any (fun e => decide (t ≤ e.2))

/-- R284, R335. Every fault domain is killed. -/
def State.killAll (s : State) : State :=
  s.launches.foldl (fun acc l => acc.killDomain l.2.region.domain l.2.region.rcb 0) s

/-- R326. A request reaches a channel queue and takes its deadline. Core 384 stands for a slice's own request. -/
def execChannelRequestArrival (chan cls budget line core : Nat) (s : State) : Host.Outcome State Fault Refusal :=
  .next (match s.dueAt chan cls budget line (if core < 384 then some core else none) with
    | none => s
    | some x =>
      if 64 ≤ (s.channel chan).queue.length then s
      else { s with toChannel := s.toChannel.eraseIdx x.1 }.modChannel chan (fun c => c.arrive x.2))

/-- R327. The channel picks and serves one request by class and deadline, counting a miss when it is late. -/
def execChannelIssue (chan : Nat) (s : State) : Host.Outcome State Fault Refusal :=
  .next (match (s.channel chan).pick chan with
    | none => s
    | some k => match (s.channel chan).queue[k]? with
      | none => s
      | some r => s.issueChannel chan k r)

/-- R328. A bank refresh writes back the bank's dirty row buffers. -/
def execBankRefresh (chan bank : Nat) (s : State) : Host.Outcome State Fault Refusal :=
  .next (s.modChannel chan (fun c => { c with rows := tabDel c.rows bank }))

/-- R329. The groomer asks for the next row when its level allows: a request of its level's class; the channel reads and corrects the row
as it issues it. -/
def execGroomerRead (chan : Nat) (s : State) : Host.Outcome State Fault Refusal :=
  let c := s.channel chan
  .next (if c.mayGroom && decide (c.queue.length < 64) && c.queue.all (fun r => r.row.isNone) then
      s.modChannel chan (fun x => x.arrive { cls := x.groomLevel, budget := 1023, line := 0, row := some x.progress })
    else s)

/-- R329. The pass's elapsed time reaches the period, and the groomer escalates to level 1. -/
def execGroomerPeriodExpiry (chan : Nat) (s : State) : Host.Outcome State Fault Refusal :=
  let c := s.channel chan
  .next (if decide (c.pass ≤ c.elapsed) then s.modChannel chan (fun x => { x with level := 1 }) else s)

/-- R334. Mailbox command 1 returns a signed attestation report for a nonce. -/
def execMailboxAttest (s : State) : Host.Outcome State Fault Refusal :=
  .next (s.mailbox 1 (s.mailDone 0 (s.report ++ (Config.sign s.report ++ List.replicate 96 0).take 96)))

/-- R333, R336. Mailbox command 2 requests the ACTIVE or HALTED power state; a module that bring-up has not brought up does not become
ACTIVE (log 27). -/
def execMailboxPower (s : State) : Host.Outcome State Fault Refusal :=
  let p := (tabGet 0 s.module.buffer 0).toNat
  let run := if s.module.power = .halted ∧ s.module.booted = true then s.powerTo .active else s
  .next (s.mailbox 2 (if p = 0 then run.mailDone 0 [run.module.power.code]
    else if p = 3 ∧ s.launches.isEmpty then (s.powerTo .halted).mailDone 0 [3]
    else s.mailDone 3 []))

/-- R336. Mailbox command 3 returns die temperatures and the supply voltage. -/
def execMailboxSensors (s : State) : Host.Outcome State Fault Refusal :=
  .next (s.mailbox 3 (s.mailDone 0 ((List.range 18).flatMap (fun d => leBytes 2 (tabGet 0 s.module.temps d)) ++ leBytes 2 s.module.supply)))

/-- R336. Mailbox command 4 resets a link and returns its state. -/
def execMailboxLinkreset (s : State) : Host.Outcome State Fault Refusal :=
  let l := (tabGet 0 s.module.buffer 0).toNat
  .next (s.mailbox 4 (if 16 ≤ l then s.mailDone 3 []
    else
      let s1 := s.resetLink l
      s1.mailDone 0 (leBytes 1 (s1.link l).st.code)))

/-- R333. The boot ROM verifies, measures and applies the firmware, trains memory and links, and enters ACTIVE; a bad signature stops it
before that. -/
def execPowerOn (image : List (BitVec 8)) (s : State) : Host.Outcome State Fault Refusal :=
  .next (if Config.imageGood image then s.boot image else s.powered)

/-- R335. A die at 105 °C or a supply below 48 V puts the module into THROTTLED. -/
def execThrottleEntry (s : State) : Host.Outcome State Fault Refusal :=
  let m := s.module
  .next (if (m.power == .active || m.power == .throttled) && (m.someAt 1050 || decide (m.supply < 48000)) then
      { s with module := { m with power := .throttled, slower := min 6 (m.slower + 1) } }
    else s)

/-- R335. Temperatures below 100 °C and a supply of at least 48 V return the module to ACTIVE. -/
def execThrottleExit (s : State) : Host.Outcome State Fault Refusal :=
  let m := s.module
  .next (if m.power == .throttled && !m.someAt 1000 && decide (48000 ≤ m.supply) then
      { s with module := { m with power := .active, slower := 0 } }
    else s)

/-- R335. A die at 115 °C or a supply below 46 V halts the module, kills every fault domain and posts 0x27. -/
def execModuleHalt (s : State) : Host.Outcome State Fault Refusal :=
  let m := s.module
  let r : FaultRec := { cause := 0x27, source := 6 }
  .next (if m.power != .halted && (m.someAt 1150 || decide (m.supply < 46000)) then
      ((s.powerTo .halted).killAll).send (.mgmtRecord r.bytes)
    else s)

end Sys2Proof.Machine
end

