-- ==== Sys2Proof/Machine/Issue.lean ====
section
/-!
DEFINITION. Fetching, checking and issuing clauses (R21 to R27, R44, R62 to R64, R97, R131 to R134, R140, R188, R300, R340).
-/
namespace Sys2Proof.Machine

/-- R23. Where in its clause a word may stand. -/
inductive WordPlace where
  | any | first | last | only
  deriving DecidableEq, Repr

/-- R131. The counter that a word counts in: a FIG's depends on its slot. -/
inductive CountUse where
  | none | ld | st | cp | tl
  | fig (slot : Nat)
  deriving DecidableEq, Repr

/-- R130. The flag that a word names: in the word, or in its parameter block. -/
inductive FlagUse where
  | none
  | named (n : Nat)
  | block
  deriving DecidableEq, Repr

/-- R63, R174. The scratch that a word reaches: elements of an M-format access, bytes at a scaled scalar address, 64 bytes at a
scalar's value. A REG-space access reaches none, and an LDR waits for no hold (R162). -/
inductive ScratchUse where
  | none
  | elems (g : BitVec 4) (n : BitVec 1) (b : BitVec 6) (x : BitVec 1) (o : BitVec 6) (size : Nat)
  | scaled (b o : BitVec 6) (size : Nat)
  | at_ (a : BitVec 6)
  deriving DecidableEq, Repr

/-- R63. What a waiting instruction waits for. -/
inductive WaitUse where
  | none
  | limits (l b c : BitVec 5) (t : BitVec 4)
  | barrier (n : BitVec 4) (count : Option (BitVec 6))
  | token
  | preds (early : Bool)
  | lock
  deriving DecidableEq, Repr

/-- What the lane looks at in a word before its clause issues. -/
structure Use where
  /-- The vector registers that it reads (R69). -/
  reads : List Nat := []
  cnt : CountUse := .none
  flag : FlagUse := .none
  pos : WordPlace := .any
  scr : ScratchUse := .none
  wait : WaitUse := .none
  deriving DecidableEq, Repr

/-- R23, R63, R130, R131. What the lane looks at in each instruction. -/
def useOf : Instr → Use
  | .clauseFetch _ => {}
  | .clauseIssue _ => {}
  | .add _ _ _ m _ a b => { reads := a.toNat :: regsB m b }
  | .sub _ _ _ m _ a b => { reads := a.toNat :: regsB m b }
  | .mul _ _ _ m _ a b => { reads := a.toNat :: regsB m b }
  | .mulhI _ _ _ m _ a b => { reads := a.toNat :: regsB m b }
  | .mulhN _ _ _ m _ a b => { reads := a.toNat :: regsB m b }
  | .addISat _ _ _ m _ a b => { reads := a.toNat :: regsB m b }
  | .addNSat _ _ _ m _ a b => { reads := a.toNat :: regsB m b }
  | .subISat _ _ _ m _ a b => { reads := a.toNat :: regsB m b }
  | .subNSat _ _ _ m _ a b => { reads := a.toNat :: regsB m b }
  | .avgI _ _ _ m _ a b => { reads := a.toNat :: regsB m b }
  | .avgN _ _ _ m _ a b => { reads := a.toNat :: regsB m b }
  | .minI _ _ _ m _ a b => { reads := a.toNat :: regsB m b }
  | .minN _ _ _ m _ a b => { reads := a.toNat :: regsB m b }
  | .maxI _ _ _ m _ a b => { reads := a.toNat :: regsB m b }
  | .maxN _ _ _ m _ a b => { reads := a.toNat :: regsB m b }
  | .shl _ _ _ m _ a b => { reads := a.toNat :: regsB m b }
  | .shrN _ _ _ m _ a b => { reads := a.toNat :: regsB m b }
  | .shrI _ _ _ m _ a b => { reads := a.toNat :: regsB m b }
  | .cmpeq _ _ _ _ a b => { reads := [a.toNat, b.toNat] }
  | .cmpltI _ _ _ _ a b => { reads := [a.toNat, b.toNat] }
  | .cmpltN _ _ _ _ a b => { reads := [a.toNat, b.toNat] }
  | .cmpleI _ _ _ _ a b => { reads := [a.toNat, b.toNat] }
  | .cmpleN _ _ _ _ a b => { reads := [a.toNat, b.toNat] }
  | .cmpne _ _ _ _ a b => { reads := [a.toNat, b.toNat] }
  | .and _ _ m _ a b => { reads := a.toNat :: regsB m b }
  | .or _ _ m _ a b => { reads := a.toNat :: regsB m b }
  | .xor _ _ m _ a b => { reads := a.toNat :: regsB m b }
  | .andn _ _ m _ a b => { reads := a.toNat :: regsB m b }
  | .not _ _ _ a => { reads := [a.toNat] }
  | .mov _ _ m _ b => { reads := regsB m b }
  | .sel _ _ m _ a b => { reads := a.toNat :: regsB m b }
  | .movl _ _ _ _ _ => {}
  | .popc _ _ _ a => { reads := [a.toNat] }
  | .clz _ _ _ a => { reads := [a.toNat] }
  | .ctz _ _ _ a => { reads := [a.toNat] }
  | .brev _ _ _ a => { reads := [a.toNat] }
  | .bfxN _ _ m _ a b => { reads := a.toNat :: regsB m b }
  | .bfxI _ _ m _ a b => { reads := a.toNat :: regsB m b }
  | .bfi _ _ m d a b => { reads := a.toNat :: regsB m b ++ [d.toNat] }
  | .rot _ _ m _ a b => { reads := a.toNat :: regsB m b }
  | .abs _ _ _ _ a => { reads := [a.toNat] }
  | .pand _ _ _ _ _ => {}
  | .por _ _ _ _ _ => {}
  | .pxor _ _ _ _ _ => {}
  | .pandn _ _ _ _ _ => {}
  | .pnot _ _ _ _ => {}
  | .xread _ _ _ _ a _ _ _ => { reads := [a.toNat] }
  | .xshuf _ _ _ _ a x => { reads := [a.toNat, x.toNat] }
  | .xbcast _ _ _ _ a _ => { reads := [a.toNat] }
  | .redand _ _ _ a _ => { reads := [a.toNat] }
  | .redor _ _ _ a _ => { reads := [a.toNat] }
  | .redfadd _ _ _ a _ => { reads := [a.toNat] }
  | .redfmax _ _ _ a _ => { reads := [a.toNat] }
  | .fadd _ _ _ m _ a b => { reads := a.toNat :: regsB m b }
  | .fsub _ _ _ m _ a b => { reads := a.toNat :: regsB m b }
  | .fmul _ _ _ m _ a b => { reads := a.toNat :: regsB m b }
  | .fma _ _ _ m d a b => { reads := a.toNat :: regsB m b ++ [d.toNat] }
  | .fmin _ _ _ m _ a b => { reads := a.toNat :: regsB m b }
  | .fmax _ _ _ m _ a b => { reads := a.toNat :: regsB m b }
  | .fabs _ _ _ _ a => { reads := [a.toNat] }
  | .fneg _ _ _ _ a => { reads := [a.toNat] }
  | .fcmpeq _ _ _ _ a b => { reads := [a.toNat, b.toNat] }
  | .fcmplt _ _ _ _ a b => { reads := [a.toNat, b.toNat] }
  | .fcmple _ _ _ _ a b => { reads := [a.toNat, b.toNat] }
  | .fcmpun _ _ _ _ a b => { reads := [a.toNat, b.toNat] }
  | .cvt _ _ _ _ a _ _ => { reads := [a.toNat] }
  | .cvtSat _ _ _ _ a _ _ => { reads := [a.toNat] }
  | .redadd _ _ _ _ a _ => { reads := [a.toNat] }
  | .redminI _ _ _ _ a _ => { reads := [a.toNat] }
  | .redminN _ _ _ _ a _ => { reads := [a.toNat] }
  | .redmaxI _ _ _ _ a _ => { reads := [a.toNat] }
  | .redmaxN _ _ _ _ a _ => { reads := [a.toNat] }
  | .scanadd _ _ _ _ a _ => { reads := [a.toNat] }
  | .scanmaxI _ _ _ _ a _ => { reads := [a.toNat] }
  | .scanmaxN _ _ _ _ a _ => { reads := [a.toNat] }
  | .addScalar _ _ _ => {}
  | .subScalar _ _ _ => {}
  | .mulScalar _ _ _ => {}
  | .andScalar _ _ _ => {}
  | .orScalar _ _ _ => {}
  | .xorScalar _ _ _ => {}
  | .shlScalar _ _ _ => {}
  | .shrNScalar _ _ _ => {}
  | .shrIScalar _ _ _ => {}
  | .minIScalar _ _ _ => {}
  | .maxIScalar _ _ _ => {}
  | .minNScalar _ _ _ => {}
  | .maxNScalar _ _ _ => {}
  | .movlScalar _ _ _ => {}
  | .cmpeqScalar _ _ _ => {}
  | .cmpltScalar _ _ _ => {}
  | .rcp _ _ _ _ a => { reads := [a.toNat] }
  | .rsq _ _ _ _ a => { reads := [a.toNat] }
  | .sqrt _ _ _ _ a => { reads := [a.toNat] }
  | .exp2 _ _ _ _ a => { reads := [a.toNat] }
  | .log2 _ _ _ _ a => { reads := [a.toNat] }
  | .sin _ _ _ _ a => { reads := [a.toNat] }
  | .cos _ _ _ _ a => { reads := [a.toNat] }
  | .tanh _ _ _ _ a => { reads := [a.toNat] }
  | .ldgN _ _ _ _ _ x o => { reads := regsX x o, cnt := .ld }
  | .ldgI _ _ _ _ _ x o => { reads := regsX x o, cnt := .ld }
  | .stg _ _ _ t _ x o => { reads := t.toNat :: regsX x o, cnt := .st }
  | .ldgNf _ _ _ _ _ x o => { reads := regsX x o, cnt := .ld }
  | .ldsN w g n _ b x o => { reads := regsX x o, cnt := .ld, scr := .elems g n b x o (2 ^ w.toNat) }
  | .ldsI w g n _ b x o => { reads := regsX x o, cnt := .ld, scr := .elems g n b x o (2 ^ w.toNat) }
  | .sts w g n t b x o => { reads := t.toNat :: regsX x o, cnt := .st, scr := .elems g n b x o (2 ^ w.toNat) }
  | .ldr _ _ _ _ x o => { reads := regsX x o, cnt := .ld }
  | .str _ _ t _ x o => { reads := t.toNat :: regsX x o, cnt := .st }
  | .lda _ _ _ _ x o => { reads := regsX x o, cnt := .ld }
  | .sta _ _ t _ x o => { reads := t.toNat :: regsX x o, cnt := .st }
  | .ldp _ _ _ _ _ x o => { reads := regsX x o, cnt := .ld }
  | .stp _ _ _ t _ x o => { reads := t.toNat :: regsX x o, cnt := .st }
  | .ldgScalar _ _ _ => { cnt := .ld }
  | .stgScalar _ _ _ => { cnt := .st }
  | .ldsScalar _ b o => { cnt := .ld, scr := .scaled b o 8 }
  | .stsScalar _ b o => { cnt := .st, scr := .scaled b o 8 }
  | .atomgAdd _ _ _ t _ x o => { reads := t.toNat :: regsX x o, cnt := .ld }
  | .atomgMinI _ _ _ t _ x o => { reads := t.toNat :: regsX x o, cnt := .ld }
  | .atomgMinN _ _ _ t _ x o => { reads := t.toNat :: regsX x o, cnt := .ld }
  | .atomgMaxI _ _ _ t _ x o => { reads := t.toNat :: regsX x o, cnt := .ld }
  | .atomgMaxN _ _ _ t _ x o => { reads := t.toNat :: regsX x o, cnt := .ld }
  | .atomgAnd _ _ _ t _ x o => { reads := t.toNat :: regsX x o, cnt := .ld }
  | .atomgOr _ _ _ t _ x o => { reads := t.toNat :: regsX x o, cnt := .ld }
  | .atomgXor _ _ _ t _ x o => { reads := t.toNat :: regsX x o, cnt := .ld }
  | .atomgXchg _ _ _ t _ x o => { reads := t.toNat :: regsX x o, cnt := .ld }
  | .atomgCas _ _ _ t _ x o => { reads := t.toNat :: (t.toNat + 1) :: regsX x o, cnt := .ld }
  | .atomgAddBf16x2 _ _ t _ x o => { reads := t.toNat :: regsX x o, cnt := .ld }
  | .atomgAddF32 _ _ t _ x o => { reads := t.toNat :: regsX x o, cnt := .ld }
  | .atomgGrab _ _ _ => { cnt := .ld }
  | .atomsAdd v g n t b x o => { reads := t.toNat :: regsX x o, cnt := .ld, scr := .elems g n b x o (atomW v.toNat / 8) }
  | .atomsMinI v g n t b x o => { reads := t.toNat :: regsX x o, cnt := .ld, scr := .elems g n b x o (atomW v.toNat / 8) }
  | .atomsMinN v g n t b x o => { reads := t.toNat :: regsX x o, cnt := .ld, scr := .elems g n b x o (atomW v.toNat / 8) }
  | .atomsMaxI v g n t b x o => { reads := t.toNat :: regsX x o, cnt := .ld, scr := .elems g n b x o (atomW v.toNat / 8) }
  | .atomsMaxN v g n t b x o => { reads := t.toNat :: regsX x o, cnt := .ld, scr := .elems g n b x o (atomW v.toNat / 8) }
  | .atomsAnd v g n t b x o => { reads := t.toNat :: regsX x o, cnt := .ld, scr := .elems g n b x o (atomW v.toNat / 8) }
  | .atomsOr v g n t b x o => { reads := t.toNat :: regsX x o, cnt := .ld, scr := .elems g n b x o (atomW v.toNat / 8) }
  | .atomsXor v g n t b x o => { reads := t.toNat :: regsX x o, cnt := .ld, scr := .elems g n b x o (atomW v.toNat / 8) }
  | .atomsXchg v g n t b x o => { reads := t.toNat :: regsX x o, cnt := .ld, scr := .elems g n b x o (atomW v.toNat / 8) }
  | .atomsCas v g n t b x o => { reads := t.toNat :: (t.toNat + 1) :: regsX x o, cnt := .ld, scr := .elems g n b x o (atomW v.toNat / 8) }
  | .fence _ => { pos := .last }
  | .pref _ _ _ x o => { reads := regsX x o }
  | .reqpage _ _ _ x o => { reads := regsX x o }
  | .l1inv _ _ _ x o => { reads := regsX x o }
  | .l1inva => {}
  | .tileMma b o => { cnt := .tl, flag := .block, scr := .scaled b o 64 }
  | .tileZero _ f => { cnt := .tl, flag := .named f.toNat }
  | .tileMov _ _ f => { cnt := .tl, flag := .named f.toNat }
  | .tileAdd _ _ f => { cnt := .tl, flag := .named f.toNat }
  | .tileScale _ _ f => { cnt := .tl, flag := .named f.toNat }
  | .tileQuery _ => {}
  | .cpin f b x o => { cnt := .cp, flag := .named f.toNat, scr := if x = 1 then .none else .scaled b o 64 }
  | .cpout f b x o => { cnt := .cp, flag := .named f.toNat, scr := if x = 1 then .none else .scaled b o 64 }
  | .cpwb f b x o => { cnt := .cp, flag := .named f.toNat, scr := if x = 1 then .none else .scaled b o 64 }
  | .lock _ _ _ => {}
  | .unlock _ _ _ => {}
  | .wkey _ => {}
  | .fig _ _ t _ x o k f e => { reads := t.toNat :: regsX x o, cnt := .fig k.toNat, flag := if e = 1 then .named f.toNat else .none }
  | .figld _ _ _ _ => { cnt := .ld }
  | .figunld _ => {}
  | .stn _ _ _ a _ => { reads := [a.toNat], cnt := .st }
  | .stnRel _ _ _ a _ => { reads := [a.toNat], cnt := .st }
  | .stnF _ _ _ a _ f => { reads := [a.toNat], cnt := .st, flag := .named f.toNat }
  | .nameget _ => {}
  | .namerel => {}
  | .tender _ a _ => { pos := .only, scr := .at_ a }
  | .serve _ => {}
  | .take _ a _ => { scr := .at_ a }
  | .mcast d _ f => { cnt := .cp, flag := .named f.toNat, scr := .at_ d }
  | .redx d _ f => { cnt := .cp, flag := .named f.toNat, scr := .at_ d }
  | .nop _ _ => {}
  | .bra _ _ _ => {}
  | .brx _ _ a => { reads := [a.toNat] }
  | .call _ _ _ => {}
  | .ret _ _ a => { reads := [a.toNat] }
  | .exit _ _ => {}
  | .yield => {}
  | .bar _ b => { pos := .first, wait := .barrier b none }
  | .barc _ a b => { pos := .first, wait := .barrier b (some a) }
  | .commit => { pos := .first, wait := .token }
  | .pass => { pos := .last }
  | .elect _ _ _ => {}
  | .trap _ _ _ => {}
  | .loop _ _ _ => {}
  | .wait l b c t => { pos := .first, wait := .limits l b c t }
  | .flagset _ => {}
  | .flagclr _ => {}
  | .xlock => { wait := .lock }
  | .xunlock => {}
  | .arm _ _ => {}
  | .getid _ _ _ _ => {}
  | .setmode _ _ => {}
  | .lnext => { pos := .last }
  | .waitpred => { pos := .first, wait := .preds true }
  | .waitdone => { pos := .first, wait := .preds false }
  | .csrrd _ _ => {}
  | .csrwr _ _ => {}
  | .rft => {}
  | .tlbinv _ _ _ => { pos := .last }
  | .lkeyld _ _ => {}
  | .lkeyarm _ _ => {}
  | .bidf _ _ => {}
  | .halt => {}
  | .replay _ => {}
  | .evrd _ _ => {}
  | .evsel _ _ => {}
  | .loadCompletion _ _ => {}
  | .storeAccept _ _ => {}
  | .loadAtHome _ _ => {}
  | .atomicAtHome _ _ => {}
  | .l1LineExpiry _ _ => {}
  | .pageWalkComplete _ _ _ => {}
  | .fenceComplete _ => {}
  | .tlbinvComplete _ => {}
  | .lnextRelease _ => {}
  | .faultFilterAdmit _ => {}
  | .faultStageForward _ => {}
  | .faultStagePost _ _ => {}
  | .faultPostRetry _ _ => {}
  | .replayRelease _ => {}
  | .engineWordEnqueue _ => {}
  | .copyStart _ _ => {}
  | .copyRow _ _ => {}
  | .copyRetire _ _ => {}
  | .tileStart _ => {}
  | .tileKblock _ => {}
  | .tileComplete _ => {}
  | .tileOpComplete _ => {}
  | .figSlotClear _ => {}
  | .definitionCacheFill _ _ _ => {}
  | .figureExecute _ _ => {}
  | .figureCombine _ _ => {}
  | .combineEntryAge _ _ => {}
  | .tileFigureChannel _ => {}
  | .figldApply _ => {}
  | .figunldApply _ => {}
  | .wcbAgeDrain _ _ => {}
  | .podWriteApply _ => {}
  | .podLoadServe _ _ => {}
  | .podRefusal _ => {}
  | .hostRefusal _ _ _ => {}
  | .stnDelivery _ => {}
  | .stnArrival _ => {}
  | .stnRefusal _ => {}
  | .heatBroadcast _ => {}
  | .heatBid _ _ => {}
  | .heatBidReceive _ _ => {}
  | .heatWindowClose _ => {}
  | .heatAward _ => {}
  | .heatResult _ => {}
  | .tokenArrival _ => {}
  | .barrierComplete _ _ _ => {}
  | .squadRetire _ => {}
  | .launchRetire _ => {}
  | .placement _ => {}
  | .preemptionRequest _ _ => {}
  | .contextSave _ _ => {}
  | .contextRestore _ _ => {}
  | .doorbell _ _ _ => {}
  | .schedulerBind => {}
  | .sliceExpiry _ => {}
  | .launchPacket _ => {}
  | .prefetchPacket _ => {}
  | .signalPacket _ => {}
  | .waitsigPacket _ => {}
  | .waitsigRecheck _ => {}
  | .graphPacket _ => {}
  | .hostKill _ _ => {}
  | .hostReplay _ _ => {}
  | .hostPreempt _ _ => {}
  | .exportWindowWrite _ _ _ => {}
  | .dieEventSelect _ _ _ => {}
  | .groomerConfigWrite _ _ _ => {}
  | .channelErrorLogClear _ _ _ => {}
  | .functionErrorLogClear _ _ => {}
  | .mailboxAttest => {}
  | .mailboxPower => {}
  | .mailboxSensors => {}
  | .mailboxLinkreset => {}
  | .registerWrite _ _ _ _ => {}
  | .channelRequestArrival _ _ _ _ _ => {}
  | .channelIssue _ => {}
  | .bankRefresh _ _ => {}
  | .groomerRead _ => {}
  | .groomerPeriodExpiry _ => {}
  | .flitReceive _ _ => {}
  | .nakReceive _ _ => {}
  | .ackReceive _ _ => {}
  | .keyLimitReached _ => {}
  | .linkTrained _ => {}
  | .mcastSwitchBranch _ => {}
  | .mcastLineApply _ _ => {}
  | .redxSpineCombine _ => {}
  | .redxResultWrite _ => {}
  | .powerOn _ => {}
  | .throttleEntry => {}
  | .throttleExit => {}
  | .moduleHalt => {}
  | .memoryReadRequest _ _ _ _ => {}
  | .flitBoundary _ => {}
/-- R23. Does a word stand where it may? -/
def placeOk (p : WordPlace) (first last : Bool) : Bool :=
  match p with
  | .any => true
  | .first => first
  | .last => last
  | .only => first && last

/-- R22, R23. Is a literal at fault, and not the L-format word that takes it? -/
def litAtFault (cls w : Nat) : Bool :=
  match decode cls w (some 0) with
  | .ok x => x.isLong
  | .error _ => false

/-- R22, R23. The instructions of words, the first at index i, each with its index; or the index of the first word that is
none or stands where it may not, or of a literal that is not as it must be. -/
def decodeWords (cls i : Nat) (ws : List Word) : Except Nat (List (Nat × Instr)) :=
  match ws with
  | [] => .ok []
  | [w] => match decode cls w.toNat none with
    | .error _ => .error i
    | .ok x => if placeOk (useOf x).pos (i == 1) true then .ok [(i, x)] else .error i
  | w :: l :: r => match decode cls w.toNat (some l.toNat) with
    | .error _ => .error (if litAtFault cls w.toNat then i + 1 else i)
    | .ok x =>
      let long := x.isLong
      if !placeOk (useOf x).pos (i == 1) (long && r.isEmpty) then .error i
      else match (if long then decodeWords cls (i + 2) r else decodeWords cls (i + 1) (l :: r)) with
        | .error k => .error k
        | .ok xs => .ok ((i, x) :: xs)

/-- R22, R23. The instructions of a clause, each with the index of its word. -/
def Clause.instrs (c : Clause) : Except Nat (List (Nat × Instr)) := decodeWords (hdrClass c.hdr) 1 c.words

/-- R76. The uses of the words that are left of a clause from an index on. -/
def Clause.uses (c : Clause) (i : Nat) : List Use :=
  match c.instrs with
  | .ok l => (l.filter (fun x => decide (i ≤ x.1))).map (fun x => useOf x.2)
  | .error _ => []

/-- R22. The instruction that begins at an index of a clause; none at a literal. -/
def Clause.instrAt (c : Clause) (i : Nat) : Option Instr :=
  match c.instrs with
  | .ok l => (l.find? (fun x => x.1 == i)).map (·.2)
  | .error _ => none

/-- R62, R76. Where a squad goes on: header address, index of the first word, participating threads; those of a remainder are the
threads of its mask. -/
def Squad.nextStart (sq : Squad) : Option (Word × Nat × Word) :=
  match sq.remainder with
  | none => sq.issueAddr.map (fun a => (a, 1, sq.atAddr a))
  | some r => some (r.addr, r.index, r.mask)

/-- R97, R224. Why a word of code cannot be fetched. -/
inductive CodeFault where
  | prot (xaddr detail : Nat)
  | absent (page : Nat)
  deriving DecidableEq, Repr

/-- R97, R224. The word at a code address. -/
def State.codeWord (s : State) (core : Nat) (g : Region) (header : Bool) (a : Nat) : Except CodeFault Word :=
  let va := g.codeBase + a
  if g.codeSize ≤ a then .error (.prot (if header then a else g.codeSize) 1)
  else if 2 ^ 56 ≤ va then .error (.prot va 5)
  else match s.translateIn core g va with
    | .absent => .error (.absent (va / 4096))
    | .malformed => .error (.prot va 7)
    | .page p => if p.x then .ok (BitVec.ofNat 32 (leVal (s.homeBytes p.host (p.pa va) 4))) else .error (.prot va 8)

/-- R137, R140. Does an address lie in the body of an active loop? -/
def Squad.inLoop (sq : Squad) (a : Nat) : Bool := sq.loops.any (fun l => l.2.active && l.2.inside a)

/-- R140. The word that the loop buffer gives for an address: in a pass after a loop's first. -/
def Squad.buffered (sq : Squad) (a : Nat) : Option Word :=
  if sq.loops.any (fun l => l.2.active && l.2.inside a && l.2.again) then tabFind sq.loopBuf a else none

/-- R97, R140, R224. The word at a code address: from the loop buffer, or fetched. -/
def State.nextWord (s : State) (sq : Squad) (g : Region) (header : Bool) (a : Nat) : Except CodeFault Word :=
  match sq.buffered a with
  | some w => .ok w
  | none => s.codeWord sq.core g header a

/-- The words at code addresses, in address order. -/
def State.nextWords (s : State) (sq : Squad) (g : Region) (as_ : List Nat) : Except CodeFault (List Word) :=
  match as_ with
  | [] => .ok []
  | a :: r => match s.nextWord sq g false a with
    | .error f => .error f
    | .ok w => match s.nextWords sq g r with
      | .error f => .error f
      | .ok ws => .ok (w :: ws)

/-- R340 stage 1. The clause at an address; a fault comes with the header's class. -/
def State.fetchClause (s : State) (sq : Squad) (g : Region) (a : Word) : Except (Nat × CodeFault) Clause :=
  match s.nextWord sq g true a.toNat with
  | .error f => .error (0, f)
  | .ok h => match s.nextWords sq g ((List.range (hdrCount h)).map (fun i => a.toNat + 4 * (i + 1))) with
    | .error f => .error (hdrClass h, f)
    | .ok ws => .ok { addr := a, hdr := h, words := ws }

/-- R97, R226. The code addresses of a clause that its squad's next fetch reads from memory, as far as its header tells. -/
def State.codeReads (s : State) (sq : Squad) (g : Region) (a : Word) : List Nat :=
  let n := match s.nextWord sq g true a.toNat with
    | .ok h => hdrCount h
    | .error _ => 0
  ((List.range (n + 1)).map (fun i => a.toNat + 4 * i)).filter (fun x => decide (x < g.codeSize) && (sq.buffered x).isNone)

/-- R220, R226, R331. A fetch goes to memory: a page that the TLB lacks starts a walk, and the lines are read at their homes, before
which their combining-buffer entries are applied. Nothing is fetched while a granule is held (R211, R251). -/
def State.readCode (s : State) (sq : Squad) (a : Word) (f : State → State) : State :=
  let g := s.regionOf sq
  let vas := (s.codeReads sq g a).map (fun x => g.codeBase + x)
  let s1 := s.startWalks sq.core g (vas.map (fun v => (0, v)))
  let ls := ((vas.map (fun v => v / 128 * 128)).eraseDups).filterMap (fun v => match s.translateIn sq.core g v with
    | .page p => if p.host then none else some (p.pa v / 128, p.home)
    | .absent => none
    | .malformed => none)
  s1.serveLines (ls.map (·.1)) (fun t => f (ls.foldl (fun acc l => acc.touchHome (g.asker sq.core) false (l.1 * 128) l.2 false) t))

/-- R44. Does a clause begin inside the body of an active loop and end beyond its last word? -/
def Squad.overrun (sq : Squad) (c : Clause) : Bool :=
  let a := c.addr.toNat
  sq.loops.any (fun l => l.2.active && l.2.inside a && decide (l.2.endN < a + 4 * (hdrCount c.hdr + 1)))

/-- R23, R44, R340 stage 3. The clause check: the index of the lowest offending word, 0 for the header. -/
def Squad.clauseCheck (sq : Squad) (c : Clause) : Option Nat :=
  if hdrCount c.hdr = 0 ∨ c.hdr.toNat % 4096 ≠ 0 ∨ sq.overrun c then some 0
  else match c.instrs with
    | .error k => some k
    | .ok _ => none

/-- R340. What comes of a squad's next clause. -/
inductive Taken where
  /-- No thread is live. -/
  | nothing
  | trap (mask : Word) (cause cls : Nat) (xpc : Word) (xaddr : Reg) (detail : Nat)
  | park (page : Nat)
  | ok (c : Clause) (index : Nat) (mask : Word)
  deriving DecidableEq, Repr

/-- R340. The four stages. A clause already fetched has passed the first; POISON waits for the end of a remainder. -/
def State.take (s : State) (sq : Squad) : Taken :=
  match sq.nextStart with
  | none => .nothing
  | some (a, i, m) =>
    match (match sq.fetched with
      | some c => if c.addr = a then Except.ok c else s.fetchClause sq (s.regionOf sq) a
      | none => s.fetchClause sq (s.regionOf sq) a) with
    | .error (cls, .prot xaddr d) => .trap m causeProt cls a (BitVec.ofNat 64 xaddr) d
    | .error (_, .absent page) => .park page
    | .ok c =>
      let cls := hdrClass c.hdr
      match if sq.remainder.isNone then sq.poison else none with
      | some p => .trap m causePoison cls a p.1 p.2.toNat
      | none => match sq.clauseCheck c with
        | some k => .trap m causeIllegal cls (wordAddr a k) 0 0
        | none => if cls = 7 && !sq.priv then .trap m causePriv cls a 0 0 else .ok c i m

/-- R63. The core bytes of scratch that a word reaches, as pieces of a size. -/
def State.scratchOf (s : State) (sq : Squad) (m : Word) (u : Use) : List (Nat × Nat) :=
  let base := (s.block sq.blockOf).base
  let act (g : BitVec 4) (n : BitVec 1) : List Nat := threads.filter (fun t => inMask m t && (sq.guard g n t).getLsbD 0)
  match u.scr with
  | .none => []
  | .elems g n b x o size => (act g n).map (fun t => (base + s.addrM sq b.toNat x.toNat o size t, size))
  | .scaled b o size => [(base + sq.addrScalar b.toNat o size, size)]
  | .at_ a => [(base + (sq.readS a.toNat).toNat, 64)]

/-- R129, R194. The flag that a word names, as it stands at the header. -/
def State.flagOf (s : State) (sq : Squad) (u : Use) : Option Nat :=
  match u.flag with
  | .none => none
  | .named n => some n
  | .block => match s.scratchOf sq 0 u with
    | [] => none
    | x :: _ => some (tpFlag ((s.core sq.core).scratchRead x.1 64))

/-- R131. Does a word count in a counter? -/
def State.countsIn (s : State) (sq : Squad) (k : CountUse) (u : Use) : Bool :=
  match u.cnt with
  | .fig slot => k == (if figRet ((s.core sq.core).slotFlags slot) then .ld else .st)
  | .none => false
  | .ld => k == .ld
  | .st => k == .st
  | .cp => k == .cp
  | .tl => k == .tl

/-- R132. Is there room in every counter for the counted words? -/
def State.room (s : State) (sq : Squad) (us : List Use) : Bool :=
  let n (k : CountUse) : Nat := (us.filter (s.countsIn sq k)).length
  decide (sq.ocLd.toNat + n .ld ≤ 63) && decide (sq.ocSt.toNat + n .st ≤ 63) && decide (sq.ocCp.toNat + n .cp ≤ 31) &&
  decide (sq.ocTl.toNat + n .tl ≤ 15) &&
  (List.range 12).all (fun f => decide (sq.flagP_ f + (us.filter (fun u => s.flagOf sq u == some f)).length ≤ 15))

/-- R63, R188. Does a word reach a range that stands in the range scoreboard? -/
def CoreS.boarded (k : CoreS) (xs : List (Nat × Nat)) : Bool :=
  xs.any (fun x => k.board.any (fun b => decide (b.lo < x.1 + x.2) && decide (x.1 ≤ b.hi)))

/-- R214. Is a predecessor launch retired, or, along an EARLY edge, every squad of it released or retired? -/
def State.predMet (s : State) (early : Bool) (p : Nat × Bool) : Bool :=
  match tabFind s.launches p.1 with
  | none => true
  | some l =>
    let sqs := s.squadsOf p.1
    early && p.2 && sqs.length == l.squadCount && sqs.all (fun e => e.2.released || e.2.place == .retired)

/-- R300. The count that a barrier word names; none when it raises ILLEGAL at its word. -/
def Squad.barCount (sq : Squad) (c : Option (BitVec 6)) : Option (Bool × Nat) :=
  match c with
  | none => some (false, 0)
  | some a =>
    let n := (sq.readS a.toNat).toNat
    if n = 0 ∨ 16 < n then none else some (true, n)

/-- R63. Is a waiting instruction satisfied? A barrier word that will raise ILLEGAL does not wait. -/
def State.waitMet (s : State) (q : Nat) (sq : Squad) (w : WaitUse) : Bool :=
  match w with
  | .none => true
  | .limits l b c t => decide (sq.ocLd.toNat ≤ l.toNat) && decide (sq.ocSt.toNat ≤ b.toNat) && decide (sq.ocCp.toNat ≤ c.toNat) &&
      decide (sq.ocTl.toNat ≤ t.toNat)
  | .barrier n c =>
    sq.barRole.isSome || (match sq.barCount c with
      | none => true
      | some x => (s.barrierOf sq n.toNat).clash x.1 x.2)
  | .token => s.holdsToken sq
  | .preds early => match tabFind s.launches sq.launch with
    | none => true
    | some l => l.preds.all (s.predMet early)
  | .lock => (s.pair sq.pairOf).owner.isNone || (s.pair sq.pairOf).owner == some q

/-- R208. Have the write-combining entries that a restored squad waits for drained and been applied? -/
def State.wcbDrained (s : State) (sq : Squad) : Bool :=
  sq.wcbWait.all (fun x => !(s.cores.any (fun c => c.2.wcb.any (fun w => w.id == x.2))) && !(s.pod.any (fun m => m.entry == x.2)))

/-- R63. The conditions of readiness but that of the waiting instruction. -/
def State.otherwiseReady (s : State) (sq : Squad) (c : Clause) (i : Nat) (m : Word) : Bool :=
  let us := c.uses i
  sq.nextWait.isNone && s.wcbDrained sq && (hdrWait c.hdr &&& ~~~ sq.flagF) == 0 &&
  us.all (fun u => u.reads.all (fun r => s.readHold sq r == 0)) &&
  !(us.any (fun u => (s.core sq.core).boarded (s.scratchOf sq m u))) && s.room sq us

/-- R63. Is a squad ready to issue a clause? -/
def State.ready (s : State) (q : Nat) (sq : Squad) (c : Clause) (i : Nat) (m : Word) : Bool :=
  s.otherwiseReady sq c i m && (c.uses i).all (fun u => s.waitMet q sq u.wait)

/-- R63, R305, R335. May the lane take a squad's next clause: resident, running, neither parked nor halted nor in a clause? -/
def State.mayTake (s : State) (q : Nat) (sq : Squad) : Bool :=
  s.running && sq.isResident && sq.parked.isNone && !sq.halted && !sq.exiting && sq.saveAt == 0 &&
  ((s.lane sq.laneOf).cur.map (·.squad)) != some q

/-- R64, R340. Does a squad count as ready: it is, or its next clause traps or parks? -/
def State.counts (s : State) (q : Nat) (sq : Squad) : Bool :=
  s.mayTake q sq && (match s.take sq with
    | .nothing => false
    | .trap _ _ _ _ _ _ => true
    | .park _ => true
    | .ok c i m => sq.fetched.isSome && s.ready q sq c i m)

/-- The squad in a slot of a lane. -/
def State.inSlot (s : State) (lane slot : Nat) : Option (Nat × Squad) :=
  s.squads.find? (fun e => e.2.isResident && e.2.laneOf == lane && e.2.slot == slot)

/-- R64. The squad that a free lane takes next. -/
def State.choice (s : State) (lane : Nat) : Option (Nat × Squad) :=
  let l := s.lane lane
  let ok (slot : Nat) : Option (Nat × Squad) := (s.inSlot lane slot).filter (fun e => s.counts e.1 e.2)
  match if l.turns = 1 ∧ l.ended = false then (ok l.last).filter (fun e => e.1 == l.who) else none with
  | some e => some e
  | none => [1, 2, 3, 4].findSome? (fun k => ok ((l.last + k) % 4))

/-- R64. A lane begins a clause of the squad in a slot: the first of its turn, or the second when that squad began its turn there. -/
def Lane.begin_ (l : Lane) (q slot : Nat) : Lane :=
  { l with last := slot, who := q, turns := if l.who = q ∧ l.last = slot ∧ l.turns = 1 ∧ l.ended = false then 2 else 1, ended := false }

/-- R300. An arrival of a squad that traps at its header is undone. -/
def State.withdrawArrival (s : State) (q : Nat) (sq : Squad) : State :=
  match sq.arrived with
  | none => s
  | some n =>
    let b := s.barrierOf sq n
    let rest := b.arrivals.filter (fun x => x != q)
    (s.modBlock sq.blockOf (fun k => { k with barriers := tabPut {} k.barriers n (if rest.isEmpty then {} else { b with arrivals := rest }) })).modSquad q
      (fun x => { x with arrived := none })

/-- R157, R224, R231. A squad parks at a header. -/
def State.parkHeader (s : State) (q : Nat) (sq : Squad) (page : Nat) : State :=
  let g := s.regionOf sq
  (s.modSquad q (fun x => { x with parked := some [page], fetched := none })).modCore sq.core (fun k => { k with
    filterWait := k.filterWait ++ [{ party := 2 * q, asid := g.asid, fq := g.faultQueue, rcb := g.rcb, fn := g.fn, page := page, kinds := 4 }] })

/-- R340. The lane takes a squad's trap or parking at its header, on its turn. -/
def State.takeFault (s : State) (q : Nat) (sq : Squad) : State :=
  let s1 := s.modLane sq.laneOf (fun l => l.begin_ q sq.slot)
  match s.take sq with
  | .trap m cause cls xpc xaddr d =>
    let s2 := s1.withdrawArrival q sq
    let clear (x : Squad) : Squad := if cause = causePoison then { x with poison := none } else x
    (s2.modSquad q clear).trapHeader q (clear { sq with arrived := none }) m cause cls xpc xaddr d
  | .park page => (s1.freeLane sq.laneOf true).parkHeader q sq page
  | .nothing => s
  | .ok _ _ _ => s

/-- R300. A squad whose barrier clause is otherwise ready arrives. -/
def State.arriveAt (s : State) (q : Nat) (sq : Squad) : State :=
  match s.take sq with
  | .ok c i m => match ((c.uses i).headD {}).wait with
    | .barrier n cnt => match sq.barCount cnt with
      | none => s
      | some x =>
        let b := s.barrierOf sq n.toNat
        if sq.fetched.isSome && sq.arrived.isNone && sq.barRole.isNone && !b.full && !(b.clash x.1 x.2) && s.otherwiseReady sq c i m then
          (s.modBlock sq.blockOf (fun k => { k with
            barriers := tabPut {} k.barriers n.toNat { count := x.2, barc := x.1, arrivals := b.arrivals ++ [q] } })).modSquad q
            (fun y => { y with arrived := some n.toNat })
        else s
    | _ => s
  | _ => s

/-- R300. The arrivals of a lane's squads, in slot order. -/
def State.arrivals (s : State) (lane : Nat) : State :=
  [0, 1, 2, 3].foldl (fun acc slot => match acc.inSlot lane slot with
    | none => acc
    | some e => if acc.mayTake e.1 e.2 then acc.arriveAt e.1 e.2 else acc) s

/-- R140. The words of a clause that lie in the bodies of active loops, by address. -/
def Squad.loopWords (sq : Squad) (c : Clause) : List (Nat × Word) :=
  ((c.hdr :: c.words).zipIdx.map (fun w => (c.addr.toNat + 4 * w.2, w.1))).filter (fun w => sq.inLoop w.1)

/-- R140. The words of an active loop's body that the loop buffer lacks: they enter it, as they stand in memory, when a clause of the
body issues. -/
def State.bodyWords (s : State) (sq : Squad) : List (Nat × Word) :=
  let g := s.regionOf sq
  (((sq.loops.filter (fun l => l.2.active)).flatMap (fun l => (List.range l.2.len.toNat).map (fun i => l.2.start.toNat + 4 * i))).eraseDups).filterMap
    (fun a => if (tabFind sq.loopBuf a).isSome then none else match s.codeWord sq.core g false a with
      | .ok w => some (a, w)
      | .error _ => none)

/-- R140. The loop buffer after a clause issues: the words of active loops' bodies, those of the clause as it issued. -/
def State.buffer (s : State) (sq : Squad) (c : Clause) : Tab Word :=
  let kept := sq.loopBuf.filter (fun e => sq.inLoop e.1)
  if sq.inLoop c.addr.toNat then
    (sq.loopWords c).foldl (fun m w => tabIns m w.1 w.2) ((s.bodyWords sq).foldl (fun m w => tabIns m w.1 w.2) kept)
  else kept

/-- R300. Does a clause issue although its barrier is of another kind or count? Its word raises ILLEGAL. -/
def State.clashes (s : State) (sq : Squad) (us : List Use) : Bool :=
  match (us.headD {}).wait with
  | .barrier n c => sq.barRole.isNone && (match sq.barCount c with
    | none => false
    | some x => (s.barrierOf sq n.toNat).clash x.1 x.2)
  | _ => false

/-- R25, R63. A clause issues. -/
def State.issue (s : State) (q : Nat) (sq : Squad) (c : Clause) (i : Nat) (m : Word) : State :=
  let s1 := s.modSquad q (fun x => { x with fetched := none, remainder := none, wcbWait := [], loopBuf := s.buffer sq c })
  let s2 := s1.modLane sq.laneOf (fun l =>
    { l.begin_ q sq.slot with cur := some {
        squad := q, clause := c, idx := i, mask := m, jump := sq.remainder.bind (·.jump), clash := s.clashes sq (c.uses i),
        first := i, counts := (s.core sq.core).events } })
  s2.coreEvent sq.core 0x02 1

/-- R340. What comes of a squad's next clause: it is fetched; its trap or parking is taken when its lane, free, would give it its
turn. -/
def State.clauseTaken (s : State) (q : Nat) (sq : Squad) : State :=
  match s.take sq with
  | .nothing => s
  | .ok c _ _ => s.modSquad q (fun x => { x with fetched := some c })
  | .trap _ _ _ _ _ _ =>
    if (s.lane sq.laneOf).cur.isNone && ((s.choice sq.laneOf).map (·.1)) == some q then s.takeFault q sq else s
  | .park _ =>
    if (s.lane sq.laneOf).cur.isNone && ((s.choice sq.laneOf).map (·.1)) == some q then s.takeFault q sq else s

/-- R340. A squad's next clause goes through the four stages. -/
def State.clauseFetch (s : State) (q : Nat) : State :=
  match tabFind s.squads q with
  | none => s
  | some sq =>
    if !s.mayTake q sq then s
    else match sq.nextStart with
      | none => s
      | some (a, _, _) =>
        if (sq.fetched.map (·.addr)) == some a then s.clauseTaken q sq
        else s.readCode sq a (fun t => t.clauseTaken q ((tabFind t.squads q).getD sq))

/-- R63, R64, R300. A lane records its squads' arrivals at barriers and, when it is free, begins the clause of the squad whose
turn it is. -/
def State.clauseIssue (s : State) (lane : Nat) : State :=
  let s1 := s.arrivals lane
  if (s1.lane lane).cur.isSome then s1
  else match s1.choice lane with
    | none => s1
    | some e => match s1.take e.2 with
      | .ok c i m => s1.issue e.1 e.2 c i m
      | .nothing => s1
      | .trap _ _ _ _ _ _ => s1
      | .park _ => s1

/-- R340. When a squad's previous clause has ended, its lane fetches the clause at the issue address and then, in order, raises any pending POISON, makes the clause check and makes the SYS privilege check; it may trap or park at the header. -/
def execClauseFetch (q : Nat) (s : State) : Host.Outcome State Fault Refusal :=
  .next (s.clauseFetch q)

/-- R63. A lane that is free to start a clause picks a ready squad in rotating slot order and issues that squad's fetched clause to its participating threads. -/
def execClauseIssue (lane : Nat) (s : State) : Host.Outcome State Fault Refusal :=
  .next (s.clauseIssue lane)

end Sys2Proof.Machine
end

