-- ==== Sys2Proof/Machine/Special.lean ====
section
/-!
DEFINITION. The special functions (R38, R119, R120).
Each exact value is computed in fixed point to far more bits than any format keeps. F16 and BF16 results are that value
rounded RNE. An F32 result is the unpublished value of Config where it lies within the bound, else the RNE value.
-/
namespace Sys2Proof.Machine

/-- Bits after the point in the fixed-point work. -/
def fixP : Nat := 320

/-- Integer square root, bit by bit from bit b-1 down. -/
def isqrtFrom (n : Nat) (b r : Nat) : Nat :=
  match b with
  | 0 => r
  | b + 1 => isqrtFrom n b (if (r + 2 ^ b) * (r + 2 ^ b) ≤ n then r + 2 ^ b else r)

/-- The integer square root. -/
def isqrt (n : Nat) : Nat := isqrtFrom n (Nat.log2 n / 2 + 1) 0

/-- The sum of term * z^k / (start ... ) with the Taylor step term := term * z / 2^P / n, for `fuel` terms. -/
def expTerms (z : Nat) (fuel n term : Nat) : Nat :=
  match fuel with
  | 0 => term
  | fuel + 1 => term + expTerms z fuel (n + 1) (term * z / 2 ^ fixP / n)

/-- exp z in fixed point, 0 ≤ z < 1. -/
def expFix (z : Nat) : Nat := expTerms z 90 1 (2 ^ fixP)

/-- Alternating (or not) series with step term := term * z2 / 2^P / (n * (n + 1)). -/
def oddTerms (alt : Bool) (z2 : Nat) (fuel n term : Nat) : Int :=
  match fuel with
  | 0 => term
  | fuel + 1 =>
    let rest := oddTerms alt z2 fuel (n + 2) (term * z2 / 2 ^ fixP / (n * (n + 1)))
    if alt then (term : Int) - rest else (term : Int) + rest

/-- atan(1/k) in fixed point, as the alternating sum of 1 / (n * k^n). -/
def atanInv (k : Nat) (fuel n pw : Nat) : Int :=
  match fuel with
  | 0 => 0
  | fuel + 1 => ((pw / n : Nat) : Int) - atanInv k fuel (n + 2) (pw / (k * k))

/-- Pi in fixed point. -/
def piFix : Nat := (16 * atanInv 5 80 1 (2 ^ fixP / 5) - 4 * atanInv 239 40 1 (2 ^ fixP / 239)).toNat

/-- The sum of 1 / (n * 3^n) over odd n, doubled: ln 2 in fixed point. -/
def atanhTerms (z2 : Nat) (fuel n pw : Nat) : Nat :=
  match fuel with
  | 0 => 0
  | fuel + 1 => pw / n + atanhTerms z2 fuel (n + 2) (pw * z2 / 2 ^ fixP)

/-- ln of y = num/den, 1 ≤ y ≤ 2, in fixed point. -/
def lnFix (num den : Nat) : Nat :=
  let z := (num - den) * 2 ^ fixP / (num + den)
  2 * atanhTerms (z * z / 2 ^ fixP) 110 1 z

/-- ln 2 in fixed point. -/
def ln2Fix : Nat := lnFix 2 1

/-- sin(pi r) for 0 ≤ r ≤ 1/2, r in fixed point. -/
def sinPiFix (r : Nat) : Nat :=
  let z := piFix * r / 2 ^ fixP
  (oddTerms true (z * z / 2 ^ fixP) 60 2 z).toNat

/-- An approximated result: an exact datum, or a magnitude N * 2^e known to lie within a few units of N. -/
inductive Approx where
  | exact (v : FVal)
  | near (neg : Bool) (n : Nat) (e : Int)
  deriving DecidableEq, Repr

/-- R120. RCP. -/
def rcpApprox : FVal → Approx
  | .nan _ => .exact (.nan false)
  | .inf s => .exact (.fin s 0 0)
  | .fin s m e =>
    if m = 0 then .exact (.inf s)
    else
      let k := Nat.log2 m
      if m = 2 ^ k then .exact (.fin s 1 (-(e + k)))
      else .near s (2 ^ (fixP + k) / m) (-(e + k) - fixP)

/-- A magnitude with an even exponent. -/
def evenExp (m : Nat) (e : Int) : Nat × Int := if e % 2 = 0 then (m, e) else (2 * m, e - 1)

/-- R120. RSQ. -/
def rsqApprox : FVal → Approx
  | .nan _ => .exact (.nan false)
  | .inf s => if s then .exact (.nan false) else .exact (.fin false 0 0)
  | .fin s m e =>
    if m = 0 then .exact (.inf s)
    else if s then .exact (.nan false)
    else
      let p := evenExp m e
      let k := Nat.log2 p.1
      if p.1 = 2 ^ k ∧ k % 2 = 0 then .exact (.fin false 1 (-(p.2 + k) / 2))
      else .near false (isqrt (2 ^ (2 * fixP) / p.1)) (-(p.2 / 2) - fixP)

/-- R120. SQRT. -/
def sqrtApprox : FVal → Approx
  | .nan _ => .exact (.nan false)
  | .inf s => if s then .exact (.nan false) else .exact (.inf false)
  | .fin s m e =>
    if m = 0 then .exact (.fin s 0 0)
    else if s then .exact (.nan false)
    else
      let p := evenExp m e
      let r := isqrt p.1
      if r * r = p.1 then .exact (.fin false r (p.2 / 2))
      else .near false (isqrt (p.1 * 2 ^ (2 * fixP))) (p.2 / 2 - fixP)

/-- The floor of (-1)^s * m * 2^e and its fraction in fixed point. -/
def floorFrac (s : Bool) (m : Nat) (e : Int) : Int × Nat :=
  let v : Int := scaledInt s m e (min e 0)
  let d : Int := 2 ^ (-(min e 0)).toNat
  let fl := v / d
  (fl, ((v - fl * d) * 2 ^ fixP / d).toNat)

/-- R120. EXP2. A result below 2^-600 stands for every smaller one: each lies as near to the same values of a format. -/
def exp2Approx : FVal → Approx
  | .nan _ => .exact (.nan false)
  | .inf s => if s then .exact (.fin false 0 0) else .exact (.inf false)
  | .fin s m e =>
    if m = 0 then .exact (.fin false 1 0)
    else
      let whole := decide (0 ≤ e ∨ m % 2 ^ (-e).toNat = 0)
      if (Nat.log2 m : Int) + e ≥ 9 && (!s || whole) then
        (if s then .exact (.fin false 0 0) else .exact (.inf false))
      else
        let p := floorFrac s m e
        if whole then
          (if p.1 < -149 then .exact (.fin false 0 0) else .exact (.fin false 1 p.1))
        else .near false (expFix (p.2 * ln2Fix / 2 ^ fixP)) (max p.1 (-600) - fixP)

/-- R120. LOG2. -/
def log2Approx : FVal → Approx
  | .nan _ => .exact (.nan false)
  | .inf s => if s then .exact (.nan false) else .exact (.inf false)
  | .fin s m e =>
    if m = 0 then .exact (.inf true)
    else if s then .exact (.nan false)
    else
      let k := Nat.log2 m
      let top : Int := (k : Int) + e
      if m = 2 ^ k then .exact (.fin (decide (top < 0)) top.natAbs 0)
      else
        let v : Int := top * 2 ^ fixP + ((lnFix m (2 ^ k) * 2 ^ fixP / ln2Fix : Nat) : Int)
        .near (decide (v < 0)) v.natAbs (-(fixP : Int))

/-- sin(pi r) for 0 ≤ r < 2 in fixed point: sign and magnitude. -/
def sinPiTurn (r : Nat) : Bool × Nat :=
  let one := 2 ^ fixP
  let neg := decide (one ≤ r)
  let r1 := if one ≤ r then r - one else r
  let r2 := if 2 * r1 > one then one - r1 else r1
  (neg, r2)

/-- A magnitude m * 2^e modulo 2, in fixed point. -/
def mod2Fix (m : Nat) (e : Int) : Nat :=
  if e ≥ 1 then 0
  else
    let d := (-e).toNat
    m % 2 ^ (d + 1) * 2 ^ fixP / 2 ^ d

/-- R120. SIN and COS of pi x: the reduced argument's exact points are 0 and 1/2. -/
def sinCore (flip : Bool) (zeroSign : Bool) (r : Nat) : Approx :=
  let p := sinPiTurn r
  if p.2 = 0 then .exact (.fin zeroSign 0 0)
  else if 2 * p.2 = 2 ^ fixP then .exact (.fin (flip != p.1) 1 0)
  else .near (flip != p.1) (sinPiFix p.2) (-(fixP : Int))

/-- R120. SIN: a zero result has the sign of x. -/
def sinApprox : FVal → Approx
  | .nan _ => .exact (.nan false)
  | .inf _ => .exact (.nan false)
  | .fin s m e => if m = 0 then .exact (.fin s 0 0) else sinCore s s (mod2Fix m e)

/-- R120. COS: cos(pi x) = sin(pi (|x| + 1/2)), a zero result is +0. -/
def cosApprox : FVal → Approx
  | .nan _ => .exact (.nan false)
  | .inf _ => .exact (.nan false)
  | .fin _ m e => sinCore false false ((mod2Fix m e + 2 ^ (fixP - 1)) % 2 ^ (fixP + 1))

/-- R120. TANH, as sinh over cosh. -/
def tanhApprox : FVal → Approx
  | .nan _ => .exact (.nan false)
  | .inf s => .exact (.fin s 1 0)
  | .fin s m e =>
    if m = 0 then .exact (.fin s 0 0)
    else if scaledInt false m e (min e 0) ≥ 10 * 2 ^ (-(min e 0)).toNat then .exact (.fin s 1 0)
    else
      let z := if 0 ≤ e then m * 2 ^ (fixP + e.toNat) else m * 2 ^ fixP / 2 ^ (-e).toNat
      let z2 := z * z / 2 ^ fixP
      let sh := (oddTerms false z2 90 2 z).toNat
      let ch := (oddTerms false z2 90 1 (2 ^ fixP)).toNat
      .near s (sh * 2 ^ fixP / ch) (-(fixP : Int))

/-- R38. The function of number k. -/
def sfnApprox (k : Nat) (x : FVal) : Approx :=
  match k with
  | 0 => rcpApprox x
  | 1 => rsqApprox x
  | 2 => sqrtApprox x
  | 3 => exp2Approx x
  | 4 => log2Approx x
  | 5 => sinApprox x
  | 6 => cosApprox x
  | _ => tanhApprox x

/-- R119. The RNE value of an approximated result; the odd last bit marks it as inexact. -/
def approxRne (f : Fmt) : Approx → Nat
  | .exact v => arithResult f .rne v 0
  | .near neg n e => roundFin f .rne false neg (2 * n + 1) (e - 1) 0

/-- The value of an F32 pattern in units of 2^q; an infinity stands at 2^128, a NaN nowhere. -/
def f32Units (w : Nat) (q : Int) : Option Int :=
  match Fmt.f32.decode w with
  | .nan _ => none
  | .inf s => some (scaledInt s 1 128 q)
  | .fin s m e => some (scaledInt s m e q)

/-- R120. The F32 bound of function k around N * 2^e, in units of 2^e: ulps of the result, or an absolute bound. -/
def sfnBound (k : Nat) (x : FVal) (n : Nat) (e : Int) : Int :=
  let top := (Nat.log2 n : Int) + e
  let ulp : Int := max top (-126) - 23
  let inUnits (q : Int) : Int := if q < e then 0 else 2 ^ (q - e).toNat
  let nearOne : Bool := match x with
    | .fin false m f =>
      let t := (Nat.log2 m : Int) + f
      decide (t = 0) || decide (t = -1) || (decide (t = 1) && m == 2 ^ Nat.log2 m)
    | _ => false
  match k with
  | 0 => inUnits ulp
  | 1 => inUnits ulp
  | 4 => if nearOne then inUnits (-22) else 2 * inUnits ulp
  | 5 => max (2 * inUnits ulp) (inUnits (-24))
  | 6 => max (2 * inUnits ulp) (inUnits (-24))
  | _ => 2 * inUnits ulp

/-- R119, R120. Does the F32 pattern `c` lie within the bound of the approximated value? The slack of a few units of the
fixed point allows a little more, never less. -/
def withinBound (k : Nat) (x : FVal) (neg : Bool) (n : Nat) (e : Int) (c : Nat) : Bool :=
  let q := min e (-200)
  match f32Units c q with
  | none => false
  | some v =>
    let s : Int := 2 ^ (e - q).toNat
    let ex : Int := (if neg then -(n : Int) else n) * s
    decide ((v - ex).natAbs ≤ ((sfnBound k x n e + 4096) * s).toNat)

/-- R119. Special function `k` of a pattern of format `f`. SQRT is correctly rounded in every format. -/
def sfnResult (f : Fmt) (k : Nat) (w : Nat) : Nat :=
  let x := f.decode w
  match sfnApprox k x with
  | .exact v => arithResult f .rne v 0
  | .near neg n e =>
    let r := approxRne f (.near neg n e)
    if f = .f32 ∧ k ≠ 2 then
      let c := (Config.sfnF32 k (BitVec.ofNat 32 w)).toNat
      if withinBound k x neg n e c then c else r
    else r

end Sys2Proof.Machine
end

