-- ==== Sys2Proof/Machine/VecFloat.lean ====
section
/-!
DEFINITION. Floating-point vector instructions, conversions and special functions (R102 to R120).
-/
namespace Sys2Proof.Machine

/-- R35. The format of an FP format code; 3 never passes the clause check. -/
def fpFmt (f : BitVec 2) : Fmt :=
  match f.toNat with
  | 0 => .bf16
  | 1 => .f16
  | _ => .f32

/-- R107. The enabled sub-elements of a thread, ascending, each with the generator advanced when `rs` holds. -/
def elemUpdateGen (W k : Nat) (gb : Byte) (rs : Bool) (old : Reg) (g0 : Word) (f : Nat → Word → Nat) : Reg × Word :=
  (List.range k).foldl (fun acc j =>
    if elemOn W gb j then
      let g := if rs then genAdvance acc.2 else acc.2
      (subSet W acc.1 j (f j g), g)
    else acc) (old, g0)

/-- Write the generator words of several threads. -/
def State.writeGens (s : State) (q : Nat) (xs : List (Nat × Word)) : State :=
  xs.foldl (fun acc x => acc.writeGen q x.1 x.2) s

/-- R109, R110. An FP word that rounds by the mode word: `f` takes mode, a, b, d and the generator. -/
def State.fpArith (s : State) (fm : BitVec 2) (g : BitVec 4) (n m : BitVec 1) (d a b : BitVec 6)
    (f : Fmt → RMode → Nat → Nat → Nat → Word → Nat) : Host.Outcome State Fault Refusal :=
  let F := fpFmt fm
  s.wordV (a.toNat :: regsB m b ++ [d.toNat]) (fun q sq e =>
    let W := F.width
    let act := sq.activeE e g n W (64 / W)
    let rs := sq.rm == .rs
    let res := act.map (fun t =>
      let x := s.readV sq a.toNat t
      let y := s.srcB sq m b t
      let z := s.readV sq d.toNat t
      (t, elemUpdateGen W (64 / W) (sq.guard g n t) rs z (sq.readGen t)
        (fun j gw => f F sq.rm (subGet W x j) (subGet W y j) (subGet W z j) gw)))
    let s1 := s.writeVs q d.toNat (res.map (fun r => (r.1, r.2.1)))
    let s2 := if rs then s1.writeGens q (res.map (fun r => (r.1, r.2.2))) else s1
    s2.charge sq act.length)

/-- R112, R116. A conversion. -/
def State.convert (s : State) (dst : BitVec 4) (g : BitVec 4) (n : BitVec 1) (d a : BitVec 6) (src : BitVec 4)
    (r : BitVec 3) (sat : Bool) : Host.Outcome State Fault Refusal :=
  let ws := cvtWidth src.toNat
  let wd := cvtWidth dst.toNat
  let k := 64 / max ws wd
  s.wordV [a.toNat, d.toNat] (fun q sq e =>
    let mode := if r.toNat = 5 then sq.rm else rmodeOf r.toNat
    let rs := mode == .rs && cvtRounds dst.toNat src.toNat
    let act := sq.activeE e g n wd k
    let res := act.map (fun t =>
      let x := s.readV sq a.toNat t
      (t, elemUpdateGen wd k (sq.guard g n t) rs (s.readV sq d.toNat t) (sq.readGen t)
        (fun j gw => cvtElem dst.toNat src.toNat mode sat (subGet ws x j) gw)))
    let s1 := s.writeVs q d.toNat (res.map (fun x => (x.1, x.2.1)))
    let s2 := if rs then s1.writeGens q (res.map (fun x => (x.1, x.2.2))) else s1
    s2.charge sq act.length)

/-- R38, R119. Special function k. -/
def State.special (s : State) (k : Nat) (f : BitVec 2) (g : BitVec 4) (n : BitVec 1) (d a : BitVec 6) :
    Host.Outcome State Fault Refusal :=
  s.vecUnary (fpFmt f).width g n d a (sfnResult (fpFmt f) k)

/-- R110. Vector floating add, rounded by the mode word. -/
def execFadd (f : BitVec 2) (g : BitVec 4) (n m : BitVec 1) (d a b : BitVec 6) (s : State) : Host.Outcome State Fault Refusal :=
  s.fpArith f g n m d a b (fun F mode x y _ gw => fadd F mode x y gw)

/-- R110. Vector floating subtract. -/
def execFsub (f : BitVec 2) (g : BitVec 4) (n m : BitVec 1) (d a b : BitVec 6) (s : State) : Host.Outcome State Fault Refusal :=
  s.fpArith f g n m d a b (fun F mode x y _ gw => fsub F mode x y gw)

/-- R110. Vector floating multiply. -/
def execFmul (f : BitVec 2) (g : BitVec 4) (n m : BitVec 1) (d a b : BitVec 6) (s : State) : Host.Outcome State Fault Refusal :=
  s.fpArith f g n m d a b (fun F mode x y _ gw => fmul F mode x y gw)

/-- R110. Vector fused multiply-add into d, with one rounding. -/
def execFma (f : BitVec 2) (g : BitVec 4) (n m : BitVec 1) (d a b : BitVec 6) (s : State) : Host.Outcome State Fault Refusal :=
  s.fpArith f g n m d a b (fun F mode x y z gw => fma F mode x y z gw)

/-- R110. Vector floating minimum. -/
def execFmin (f : BitVec 2) (g : BitVec 4) (n m : BitVec 1) (d a b : BitVec 6) (s : State) : Host.Outcome State Fault Refusal :=
  s.vecBinary (fpFmt f).width g n m d a b (fminmax (fpFmt f) false)

/-- R110. Vector floating maximum. -/
def execFmax (f : BitVec 2) (g : BitVec 4) (n m : BitVec 1) (d a b : BitVec 6) (s : State) : Host.Outcome State Fault Refusal :=
  s.vecBinary (fpFmt f).width g n m d a b (fminmax (fpFmt f) true)

/-- R110. Clears the sign bit. -/
def execFabs (f : BitVec 2) (g : BitVec 4) (n : BitVec 1) (d a : BitVec 6) (s : State) : Host.Outcome State Fault Refusal :=
  s.vecUnary (fpFmt f).width g n d a (fabs (fpFmt f))

/-- R110. Inverts the sign bit. -/
def execFneg (f : BitVec 2) (g : BitVec 4) (n : BitVec 1) (d a : BitVec 6) (s : State) : Host.Outcome State Fault Refusal :=
  s.vecUnary (fpFmt f).width g n d a (fneg (fpFmt f))

/-- R111. Floating compare equal into a predicate. -/
def execFcmpeq (f : BitVec 2) (g : BitVec 4) (n : BitVec 1) (p : BitVec 7) (a b : BitVec 6) (s : State) : Host.Outcome State Fault Refusal :=
  s.vecCompare (fpFmt f).width g n p a b (fcmp (fpFmt f) 0)

/-- R111. Floating compare less-than into a predicate. -/
def execFcmplt (f : BitVec 2) (g : BitVec 4) (n : BitVec 1) (p : BitVec 7) (a b : BitVec 6) (s : State) : Host.Outcome State Fault Refusal :=
  s.vecCompare (fpFmt f).width g n p a b (fcmp (fpFmt f) 1)

/-- R111. Floating compare less-or-equal into a predicate. -/
def execFcmple (f : BitVec 2) (g : BitVec 4) (n : BitVec 1) (p : BitVec 7) (a b : BitVec 6) (s : State) : Host.Outcome State Fault Refusal :=
  s.vecCompare (fpFmt f).width g n p a b (fcmp (fpFmt f) 2)

/-- R111. Floating compare unordered into a predicate. -/
def execFcmpun (f : BitVec 2) (g : BitVec 4) (n : BitVec 1) (p : BitVec 7) (a b : BitVec 6) (s : State) : Host.Outcome State Fault Refusal :=
  s.vecCompare (fpFmt f).width g n p a b (fcmp (fpFmt f) 3)

/-- R112. Converts packed elements between formats. -/
def execCvt (c g : BitVec 4) (n : BitVec 1) (d a : BitVec 6) (b : BitVec 4) (r : BitVec 3) (s : State) : Host.Outcome State Fault Refusal :=
  s.convert c g n d a b r false

/-- R112. Saturating conversion between formats. -/
def execCvtSat (c g : BitVec 4) (n : BitVec 1) (d a : BitVec 6) (b : BitVec 4) (r : BitVec 3) (s : State) : Host.Outcome State Fault Refusal :=
  s.convert c g n d a b r true

/-- R120. Special-function reciprocal. -/
def execRcp (f : BitVec 2) (g : BitVec 4) (n : BitVec 1) (d a : BitVec 6) (s : State) : Host.Outcome State Fault Refusal :=
  s.special 0 f g n d a

/-- R120. Special-function reciprocal square root. -/
def execRsq (f : BitVec 2) (g : BitVec 4) (n : BitVec 1) (d a : BitVec 6) (s : State) : Host.Outcome State Fault Refusal :=
  s.special 1 f g n d a

/-- R120. Correctly rounded square root. -/
def execSqrt (f : BitVec 2) (g : BitVec 4) (n : BitVec 1) (d a : BitVec 6) (s : State) : Host.Outcome State Fault Refusal :=
  s.special 2 f g n d a

/-- R120. Special-function base-2 exponential. -/
def execExp2 (f : BitVec 2) (g : BitVec 4) (n : BitVec 1) (d a : BitVec 6) (s : State) : Host.Outcome State Fault Refusal :=
  s.special 3 f g n d a

/-- R120. Special-function base-2 logarithm. -/
def execLog2 (f : BitVec 2) (g : BitVec 4) (n : BitVec 1) (d a : BitVec 6) (s : State) : Host.Outcome State Fault Refusal :=
  s.special 4 f g n d a

/-- R120. sin(πx). -/
def execSin (f : BitVec 2) (g : BitVec 4) (n : BitVec 1) (d a : BitVec 6) (s : State) : Host.Outcome State Fault Refusal :=
  s.special 5 f g n d a

/-- R120. cos(πx). -/
def execCos (f : BitVec 2) (g : BitVec 4) (n : BitVec 1) (d a : BitVec 6) (s : State) : Host.Outcome State Fault Refusal :=
  s.special 6 f g n d a

/-- R120. Hyperbolic tangent. -/
def execTanh (f : BitVec 2) (g : BitVec 4) (n : BitVec 1) (d a : BitVec 6) (s : State) : Host.Outcome State Fault Refusal :=
  s.special 7 f g n d a

end Sys2Proof.Machine
end

