-- ==== Sys2Proof/Machine/VecCross.lean ====
section
/-!
DEFINITION. Cross-thread reads, reductions and scans (R90 to R93, R117).
-/
namespace Sys2Proof.Machine

/-- R90. A cross-thread read: each active thread reads the thread that `named` gives; `recv` is the value received. -/
def State.crossRead (s : State) (rs : List Nat) (g : BitVec 4) (n : BitVec 1) (p : BitVec 7) (d a : BitVec 6)
    (named : Squad → Nat → Nat) (recv : Reg → Reg) : Host.Outcome State Fault Refusal :=
  s.wordV rs (fun q sq e =>
    let act := sq.activeT e g n
    let ok (t : Nat) : Bool := sq.enabledT e g n (named sq t)
    let vals := act.map (fun t =>
      (t, if ok t then recv (s.readV sq a.toNat (named sq t)) else s.readV sq a.toNat t))
    let s1 := s.writeVs q d.toNat vals
    (s1.writePs q p.toNat (act.map (fun t => (t, predByte (ok t))))).charge sq act.length)

/-- R92. The combination of sub-element j over threads, in ascending order, the first taken unchanged. -/
def combine (f : Nat → Nat → Nat) (idn : Nat) : List Nat → Nat
  | [] => idn
  | x :: r => r.foldl f x

/-- R92. A reduction: each sub-element of the scalar d, and the validity predicate in all threads. -/
def State.reduce (s : State) (W : Nat) (g : BitVec 4) (n : BitVec 1) (d a b : BitVec 6) (f : Nat → Nat → Nat) (idn : Nat) :
    Host.Outcome State Fault Refusal :=
  s.wordV [a.toNat] (fun q sq e =>
    let act := sq.activeT e g n
    let val := (List.range (64 / W)).foldl (fun acc j =>
      subSet W acc j (combine f idn (act.map (fun t => subGet W (s.readV sq a.toNat t) j)))) (0 : Reg)
    let s1 := s.writeS q d.toNat val
    (s1.writePAll q b.toNat (predByte (!act.isEmpty))).charge sq act.length)

/-- R92. A scan, inclusive and ascending. -/
def State.scan (s : State) (W : Nat) (g : BitVec 4) (n : BitVec 1) (d a b : BitVec 6) (f : Nat → Nat → Nat) :
    Host.Outcome State Fault Refusal :=
  s.wordV [a.toNat, d.toNat] (fun q sq e =>
    let act := sq.activeT e g n
    let vals := act.map (fun t =>
      (t, (List.range (64 / W)).foldl (fun acc j =>
        subSet W acc j (combine f 0 ((act.filter (fun u => decide (u ≤ t))).map (fun u => subGet W (s.readV sq a.toNat u) j))))
        (0 : Reg)))
    let s1 := s.writeVs q d.toNat vals
    (s1.writePAll q b.toNat (predByte (!act.isEmpty))).charge sq act.length)

/-- R91. Sub-element j of width W copied into every sub-element. -/
def splat (W : Nat) (j : Nat) (x : Reg) : Reg :=
  (List.range (64 / W)).foldl (fun acc i => subSet W acc i (subGet W x j)) 0

/-- R91. Each active thread reads one sub-element of a named thread's register. -/
def execXread (g : BitVec 4) (n : BitVec 1) (p : BitVec 7) (d a : BitVec 6) (t : BitVec 5) (j : BitVec 3) (w : BitVec 2) (s : State) : Host.Outcome State Fault Refusal :=
  s.crossRead [a.toNat, d.toNat] g n p d a (fun _ _ => t.toNat) (splat (widthOf w) j.toNat)

/-- R91. Each active thread reads the register of the thread named by its own index register. -/
def execXshuf (g : BitVec 4) (n : BitVec 1) (p : BitVec 7) (d a x : BitVec 6) (s : State) : Host.Outcome State Fault Refusal :=
  s.crossRead [a.toNat, x.toNat, d.toNat] g n p d a (fun sq t => (s.readV sq x.toNat t).toNat % 32) (fun v => v)

/-- R91. Each active thread reads the register of one literal thread. -/
def execXbcast (g : BitVec 4) (n : BitVec 1) (p : BitVec 7) (d a : BitVec 6) (t : BitVec 5) (s : State) : Host.Outcome State Fault Refusal :=
  s.crossRead [a.toNat, d.toNat] g n p d a (fun _ _ => t.toNat) (fun v => v)

/-- R93. 64-bit AND reduction over the active threads into a scalar. -/
def execRedand (g : BitVec 4) (n : BitVec 1) (d a b : BitVec 6) (s : State) : Host.Outcome State Fault Refusal :=
  s.reduce 64 g n d a b (fun x y => x &&& y) (2 ^ 64 - 1)

/-- R93. 64-bit OR reduction into a scalar. -/
def execRedor (g : BitVec 4) (n : BitVec 1) (d a b : BitVec 6) (s : State) : Host.Outcome State Fault Refusal :=
  s.reduce 64 g n d a b (fun x y => x ||| y) 0

/-- R117. Ordered RNE F32 sum reduction into a scalar. -/
def execRedfadd (g : BitVec 4) (n : BitVec 1) (d a b : BitVec 6) (s : State) : Host.Outcome State Fault Refusal :=
  s.reduce 32 g n d a b (faddRne .f32) 0x80000000

/-- R117. Ordered F32 maximum reduction into a scalar. -/
def execRedfmax (g : BitVec 4) (n : BitVec 1) (d a b : BitVec 6) (s : State) : Host.Outcome State Fault Refusal :=
  s.reduce 32 g n d a b (fminmax .f32 true) 0xFF800000

/-- R93. Integer sum reduction into a scalar. -/
def execRedadd (w : BitVec 2) (g : BitVec 4) (n : BitVec 1) (d a b : BitVec 6) (s : State) : Host.Outcome State Fault Refusal :=
  s.reduce (widthOf w) g n d a b (fun x y => (x + y) % 2 ^ widthOf w) 0

/-- R93. Signed minimum reduction into a scalar. -/
def execRedminI (w : BitVec 2) (g : BitVec 4) (n : BitVec 1) (d a b : BitVec 6) (s : State) : Host.Outcome State Fault Refusal :=
  s.reduce (widthOf w) g n d a b (pick (sx (widthOf w)) false) (2 ^ (widthOf w - 1) - 1)

/-- R93. Unsigned minimum reduction into a scalar. -/
def execRedminN (w : BitVec 2) (g : BitVec 4) (n : BitVec 1) (d a b : BitVec 6) (s : State) : Host.Outcome State Fault Refusal :=
  s.reduce (widthOf w) g n d a b (pick zx false) (2 ^ widthOf w - 1)

/-- R93. Signed maximum reduction into a scalar. -/
def execRedmaxI (w : BitVec 2) (g : BitVec 4) (n : BitVec 1) (d a b : BitVec 6) (s : State) : Host.Outcome State Fault Refusal :=
  s.reduce (widthOf w) g n d a b (pick (sx (widthOf w)) true) (2 ^ (widthOf w - 1))

/-- R93. Unsigned maximum reduction into a scalar. -/
def execRedmaxN (w : BitVec 2) (g : BitVec 4) (n : BitVec 1) (d a b : BitVec 6) (s : State) : Host.Outcome State Fault Refusal :=
  s.reduce (widthOf w) g n d a b (pick zx true) 0

/-- R93. Inclusive ascending sum scan. -/
def execScanadd (w : BitVec 2) (g : BitVec 4) (n : BitVec 1) (d a b : BitVec 6) (s : State) : Host.Outcome State Fault Refusal :=
  s.scan (widthOf w) g n d a b (fun x y => (x + y) % 2 ^ widthOf w)

/-- R93. Inclusive signed maximum scan. -/
def execScanmaxI (w : BitVec 2) (g : BitVec 4) (n : BitVec 1) (d a b : BitVec 6) (s : State) : Host.Outcome State Fault Refusal :=
  s.scan (widthOf w) g n d a b (pick (sx (widthOf w)) true)

/-- R93. Inclusive unsigned maximum scan. -/
def execScanmaxN (w : BitVec 2) (g : BitVec 4) (n : BitVec 1) (d a b : BitVec 6) (s : State) : Host.Outcome State Fault Refusal :=
  s.scan (widthOf w) g n d a b (pick zx true)

end Sys2Proof.Machine
end

