-- ==== Sys2Proof/Machine/Dispatch.lean ====
section
/-!
DEFINITION. The dispatcher: one arm for each row of the opcode table, one call of its meaning.
-/
namespace Sys2Proof.Machine

/-- One step of the instruction or device event `i`. -/
def exec (i : Instr) (s : State) : Host.Outcome State Fault Refusal :=
  match i with
  | .clauseFetch q => Sys2Proof.Machine.execClauseFetch q s
  | .clauseIssue lane => Sys2Proof.Machine.execClauseIssue lane s
  | .add w g n m d a b => Sys2Proof.Machine.execAdd w g n m d a b s
  | .sub w g n m d a b => Sys2Proof.Machine.execSub w g n m d a b s
  | .mul w g n m d a b => Sys2Proof.Machine.execMul w g n m d a b s
  | .mulhI w g n m d a b => Sys2Proof.Machine.execMulhI w g n m d a b s
  | .mulhN w g n m d a b => Sys2Proof.Machine.execMulhN w g n m d a b s
  | .addISat w g n m d a b => Sys2Proof.Machine.execAddISat w g n m d a b s
  | .addNSat w g n m d a b => Sys2Proof.Machine.execAddNSat w g n m d a b s
  | .subISat w g n m d a b => Sys2Proof.Machine.execSubISat w g n m d a b s
  | .subNSat w g n m d a b => Sys2Proof.Machine.execSubNSat w g n m d a b s
  | .avgI w g n m d a b => Sys2Proof.Machine.execAvgI w g n m d a b s
  | .avgN w g n m d a b => Sys2Proof.Machine.execAvgN w g n m d a b s
  | .minI w g n m d a b => Sys2Proof.Machine.execMinI w g n m d a b s
  | .minN w g n m d a b => Sys2Proof.Machine.execMinN w g n m d a b s
  | .maxI w g n m d a b => Sys2Proof.Machine.execMaxI w g n m d a b s
  | .maxN w g n m d a b => Sys2Proof.Machine.execMaxN w g n m d a b s
  | .shl w g n m d a b => Sys2Proof.Machine.execShl w g n m d a b s
  | .shrN w g n m d a b => Sys2Proof.Machine.execShrN w g n m d a b s
  | .shrI w g n m d a b => Sys2Proof.Machine.execShrI w g n m d a b s
  | .cmpeq w g n p a b => Sys2Proof.Machine.execCmpeq w g n p a b s
  | .cmpltI w g n p a b => Sys2Proof.Machine.execCmpltI w g n p a b s
  | .cmpltN w g n p a b => Sys2Proof.Machine.execCmpltN w g n p a b s
  | .cmpleI w g n p a b => Sys2Proof.Machine.execCmpleI w g n p a b s
  | .cmpleN w g n p a b => Sys2Proof.Machine.execCmpleN w g n p a b s
  | .cmpne w g n p a b => Sys2Proof.Machine.execCmpne w g n p a b s
  | .and g n m d a b => Sys2Proof.Machine.execAnd g n m d a b s
  | .or g n m d a b => Sys2Proof.Machine.execOr g n m d a b s
  | .xor g n m d a b => Sys2Proof.Machine.execXor g n m d a b s
  | .andn g n m d a b => Sys2Proof.Machine.execAndn g n m d a b s
  | .not g n d a => Sys2Proof.Machine.execNot g n d a s
  | .mov g n m d b => Sys2Proof.Machine.execMov g n m d b s
  | .sel g n m d a b => Sys2Proof.Machine.execSel g n m d a b s
  | .movl g n m d lit => Sys2Proof.Machine.execMovl g n m d lit s
  | .popc g n d a => Sys2Proof.Machine.execPopc g n d a s
  | .clz g n d a => Sys2Proof.Machine.execClz g n d a s
  | .ctz g n d a => Sys2Proof.Machine.execCtz g n d a s
  | .brev g n d a => Sys2Proof.Machine.execBrev g n d a s
  | .bfxN g n m d a b => Sys2Proof.Machine.execBfxN g n m d a b s
  | .bfxI g n m d a b => Sys2Proof.Machine.execBfxI g n m d a b s
  | .bfi g n m d a b => Sys2Proof.Machine.execBfi g n m d a b s
  | .rot g n m d a b => Sys2Proof.Machine.execRot g n m d a b s
  | .abs w g n d a => Sys2Proof.Machine.execAbs w g n d a s
  | .pand g n p a b => Sys2Proof.Machine.execPand g n p a b s
  | .por g n p a b => Sys2Proof.Machine.execPor g n p a b s
  | .pxor g n p a b => Sys2Proof.Machine.execPxor g n p a b s
  | .pandn g n p a b => Sys2Proof.Machine.execPandn g n p a b s
  | .pnot g n p a => Sys2Proof.Machine.execPnot g n p a s
  | .xread g n p d a t j w => Sys2Proof.Machine.execXread g n p d a t j w s
  | .xshuf g n p d a x => Sys2Proof.Machine.execXshuf g n p d a x s
  | .xbcast g n p d a t => Sys2Proof.Machine.execXbcast g n p d a t s
  | .redand g n d a b => Sys2Proof.Machine.execRedand g n d a b s
  | .redor g n d a b => Sys2Proof.Machine.execRedor g n d a b s
  | .redfadd g n d a b => Sys2Proof.Machine.execRedfadd g n d a b s
  | .redfmax g n d a b => Sys2Proof.Machine.execRedfmax g n d a b s
  | .fadd f g n m d a b => Sys2Proof.Machine.execFadd f g n m d a b s
  | .fsub f g n m d a b => Sys2Proof.Machine.execFsub f g n m d a b s
  | .fmul f g n m d a b => Sys2Proof.Machine.execFmul f g n m d a b s
  | .fma f g n m d a b => Sys2Proof.Machine.execFma f g n m d a b s
  | .fmin f g n m d a b => Sys2Proof.Machine.execFmin f g n m d a b s
  | .fmax f g n m d a b => Sys2Proof.Machine.execFmax f g n m d a b s
  | .fabs f g n d a => Sys2Proof.Machine.execFabs f g n d a s
  | .fneg f g n d a => Sys2Proof.Machine.execFneg f g n d a s
  | .fcmpeq f g n p a b => Sys2Proof.Machine.execFcmpeq f g n p a b s
  | .fcmplt f g n p a b => Sys2Proof.Machine.execFcmplt f g n p a b s
  | .fcmple f g n p a b => Sys2Proof.Machine.execFcmple f g n p a b s
  | .fcmpun f g n p a b => Sys2Proof.Machine.execFcmpun f g n p a b s
  | .cvt c g n d a b r => Sys2Proof.Machine.execCvt c g n d a b r s
  | .cvtSat c g n d a b r => Sys2Proof.Machine.execCvtSat c g n d a b r s
  | .redadd w g n d a b => Sys2Proof.Machine.execRedadd w g n d a b s
  | .redminI w g n d a b => Sys2Proof.Machine.execRedminI w g n d a b s
  | .redminN w g n d a b => Sys2Proof.Machine.execRedminN w g n d a b s
  | .redmaxI w g n d a b => Sys2Proof.Machine.execRedmaxI w g n d a b s
  | .redmaxN w g n d a b => Sys2Proof.Machine.execRedmaxN w g n d a b s
  | .scanadd w g n d a b => Sys2Proof.Machine.execScanadd w g n d a b s
  | .scanmaxI w g n d a b => Sys2Proof.Machine.execScanmaxI w g n d a b s
  | .scanmaxN w g n d a b => Sys2Proof.Machine.execScanmaxN w g n d a b s
  | .addScalar d a b => Sys2Proof.Machine.execAddScalar d a b s
  | .subScalar d a b => Sys2Proof.Machine.execSubScalar d a b s
  | .mulScalar d a b => Sys2Proof.Machine.execMulScalar d a b s
  | .andScalar d a b => Sys2Proof.Machine.execAndScalar d a b s
  | .orScalar d a b => Sys2Proof.Machine.execOrScalar d a b s
  | .xorScalar d a b => Sys2Proof.Machine.execXorScalar d a b s
  | .shlScalar d a b => Sys2Proof.Machine.execShlScalar d a b s
  | .shrNScalar d a b => Sys2Proof.Machine.execShrNScalar d a b s
  | .shrIScalar d a b => Sys2Proof.Machine.execShrIScalar d a b s
  | .minIScalar d a b => Sys2Proof.Machine.execMinIScalar d a b s
  | .maxIScalar d a b => Sys2Proof.Machine.execMaxIScalar d a b s
  | .minNScalar d a b => Sys2Proof.Machine.execMinNScalar d a b s
  | .maxNScalar d a b => Sys2Proof.Machine.execMaxNScalar d a b s
  | .movlScalar m d lit => Sys2Proof.Machine.execMovlScalar m d lit s
  | .cmpeqScalar p a b => Sys2Proof.Machine.execCmpeqScalar p a b s
  | .cmpltScalar p a b => Sys2Proof.Machine.execCmpltScalar p a b s
  | .rcp f g n d a => Sys2Proof.Machine.execRcp f g n d a s
  | .rsq f g n d a => Sys2Proof.Machine.execRsq f g n d a s
  | .sqrt f g n d a => Sys2Proof.Machine.execSqrt f g n d a s
  | .exp2 f g n d a => Sys2Proof.Machine.execExp2 f g n d a s
  | .log2 f g n d a => Sys2Proof.Machine.execLog2 f g n d a s
  | .sin f g n d a => Sys2Proof.Machine.execSin f g n d a s
  | .cos f g n d a => Sys2Proof.Machine.execCos f g n d a s
  | .tanh f g n d a => Sys2Proof.Machine.execTanh f g n d a s
  | .ldgN w g n t b x o => Sys2Proof.Machine.execLdgN w g n t b x o s
  | .ldgI w g n t b x o => Sys2Proof.Machine.execLdgI w g n t b x o s
  | .stg w g n t b x o => Sys2Proof.Machine.execStg w g n t b x o s
  | .ldgNf w g n t b x o => Sys2Proof.Machine.execLdgNf w g n t b x o s
  | .ldsN w g n t b x o => Sys2Proof.Machine.execLdsN w g n t b x o s
  | .ldsI w g n t b x o => Sys2Proof.Machine.execLdsI w g n t b x o s
  | .sts w g n t b x o => Sys2Proof.Machine.execSts w g n t b x o s
  | .ldr g n t b x o => Sys2Proof.Machine.execLdr g n t b x o s
  | .str g n t b x o => Sys2Proof.Machine.execStr g n t b x o s
  | .lda g n t b x o => Sys2Proof.Machine.execLda g n t b x o s
  | .sta g n t b x o => Sys2Proof.Machine.execSta g n t b x o s
  | .ldp w g n t b x o => Sys2Proof.Machine.execLdp w g n t b x o s
  | .stp w g n t b x o => Sys2Proof.Machine.execStp w g n t b x o s
  | .ldgScalar t b o => Sys2Proof.Machine.execLdgScalar t b o s
  | .stgScalar t b o => Sys2Proof.Machine.execStgScalar t b o s
  | .ldsScalar t b o => Sys2Proof.Machine.execLdsScalar t b o s
  | .stsScalar t b o => Sys2Proof.Machine.execStsScalar t b o s
  | .atomgAdd v g n t b x o => Sys2Proof.Machine.execAtomgAdd v g n t b x o s
  | .atomgMinI v g n t b x o => Sys2Proof.Machine.execAtomgMinI v g n t b x o s
  | .atomgMinN v g n t b x o => Sys2Proof.Machine.execAtomgMinN v g n t b x o s
  | .atomgMaxI v g n t b x o => Sys2Proof.Machine.execAtomgMaxI v g n t b x o s
  | .atomgMaxN v g n t b x o => Sys2Proof.Machine.execAtomgMaxN v g n t b x o s
  | .atomgAnd v g n t b x o => Sys2Proof.Machine.execAtomgAnd v g n t b x o s
  | .atomgOr v g n t b x o => Sys2Proof.Machine.execAtomgOr v g n t b x o s
  | .atomgXor v g n t b x o => Sys2Proof.Machine.execAtomgXor v g n t b x o s
  | .atomgXchg v g n t b x o => Sys2Proof.Machine.execAtomgXchg v g n t b x o s
  | .atomgCas v g n t b x o => Sys2Proof.Machine.execAtomgCas v g n t b x o s
  | .atomgAddBf16x2 g n t b x o => Sys2Proof.Machine.execAtomgAddBf16x2 g n t b x o s
  | .atomgAddF32 g n t b x o => Sys2Proof.Machine.execAtomgAddF32 g n t b x o s
  | .atomgGrab t b o => Sys2Proof.Machine.execAtomgGrab t b o s
  | .atomsAdd v g n t b x o => Sys2Proof.Machine.execAtomsAdd v g n t b x o s
  | .atomsMinI v g n t b x o => Sys2Proof.Machine.execAtomsMinI v g n t b x o s
  | .atomsMinN v g n t b x o => Sys2Proof.Machine.execAtomsMinN v g n t b x o s
  | .atomsMaxI v g n t b x o => Sys2Proof.Machine.execAtomsMaxI v g n t b x o s
  | .atomsMaxN v g n t b x o => Sys2Proof.Machine.execAtomsMaxN v g n t b x o s
  | .atomsAnd v g n t b x o => Sys2Proof.Machine.execAtomsAnd v g n t b x o s
  | .atomsOr v g n t b x o => Sys2Proof.Machine.execAtomsOr v g n t b x o s
  | .atomsXor v g n t b x o => Sys2Proof.Machine.execAtomsXor v g n t b x o s
  | .atomsXchg v g n t b x o => Sys2Proof.Machine.execAtomsXchg v g n t b x o s
  | .atomsCas v g n t b x o => Sys2Proof.Machine.execAtomsCas v g n t b x o s
  | .fence c => Sys2Proof.Machine.execFence c s
  | .pref g n b x o => Sys2Proof.Machine.execPref g n b x o s
  | .reqpage g n b x o => Sys2Proof.Machine.execReqpage g n b x o s
  | .l1inv g n b x o => Sys2Proof.Machine.execL1inv g n b x o s
  | .l1inva => Sys2Proof.Machine.execL1inva s
  | .tileMma b o => Sys2Proof.Machine.execTileMma b o s
  | .tileZero d f => Sys2Proof.Machine.execTileZero d f s
  | .tileMov d a f => Sys2Proof.Machine.execTileMov d a f s
  | .tileAdd d a f => Sys2Proof.Machine.execTileAdd d a f s
  | .tileScale d a f => Sys2Proof.Machine.execTileScale d a f s
  | .tileQuery d => Sys2Proof.Machine.execTileQuery d s
  | .cpin f b x o => Sys2Proof.Machine.execCpin f b x o s
  | .cpout f b x o => Sys2Proof.Machine.execCpout f b x o s
  | .cpwb f b x o => Sys2Proof.Machine.execCpwb f b x o s
  | .lock t b o => Sys2Proof.Machine.execLock t b o s
  | .unlock t b o => Sys2Proof.Machine.execUnlock t b o s
  | .wkey a => Sys2Proof.Machine.execWkey a s
  | .fig g n t b x o k f e => Sys2Proof.Machine.execFig g n t b x o k f e s
  | .figld t b o k => Sys2Proof.Machine.execFigld t b o k s
  | .figunld b => Sys2Proof.Machine.execFigunld b s
  | .stn g n d a b => Sys2Proof.Machine.execStn g n d a b s
  | .stnRel g n d a b => Sys2Proof.Machine.execStnRel g n d a b s
  | .stnF g n d a b f => Sys2Proof.Machine.execStnF g n d a b f s
  | .nameget d => Sys2Proof.Machine.execNameget d s
  | .namerel => Sys2Proof.Machine.execNamerel s
  | .tender d a c => Sys2Proof.Machine.execTender d a c s
  | .serve c => Sys2Proof.Machine.execServe c s
  | .take d a c => Sys2Proof.Machine.execTake d a c s
  | .mcast d a f => Sys2Proof.Machine.execMcast d a f s
  | .redx d o f => Sys2Proof.Machine.execRedx d o f s
  | .nop g n => Sys2Proof.Machine.execNop g n s
  | .bra g n f => Sys2Proof.Machine.execBra g n f s
  | .brx g n a => Sys2Proof.Machine.execBrx g n a s
  | .call g n f => Sys2Proof.Machine.execCall g n f s
  | .ret g n a => Sys2Proof.Machine.execRet g n a s
  | .exit g n => Sys2Proof.Machine.execExit g n s
  | .yield => Sys2Proof.Machine.execYield s
  | .bar p b => Sys2Proof.Machine.execBar p b s
  | .barc p a b => Sys2Proof.Machine.execBarc p a b s
  | .commit => Sys2Proof.Machine.execCommit s
  | .pass => Sys2Proof.Machine.execPass s
  | .elect g n p => Sys2Proof.Machine.execElect g n p s
  | .trap g n k => Sys2Proof.Machine.execTrap g n k s
  | .loop c l b => Sys2Proof.Machine.execLoop c l b s
  | .wait l b c t => Sys2Proof.Machine.execWait l b c t s
  | .flagset m => Sys2Proof.Machine.execFlagset m s
  | .flagclr m => Sys2Proof.Machine.execFlagclr m s
  | .xlock => Sys2Proof.Machine.execXlock s
  | .xunlock => Sys2Proof.Machine.execXunlock s
  | .arm d c => Sys2Proof.Machine.execArm d c s
  | .getid g n d k => Sys2Proof.Machine.execGetid g n d k s
  | .setmode a m => Sys2Proof.Machine.execSetmode a m s
  | .lnext => Sys2Proof.Machine.execLnext s
  | .waitpred => Sys2Proof.Machine.execWaitpred s
  | .waitdone => Sys2Proof.Machine.execWaitdone s
  | .csrrd d c => Sys2Proof.Machine.execCsrrd d c s
  | .csrwr b c => Sys2Proof.Machine.execCsrwr b c s
  | .rft => Sys2Proof.Machine.execRft s
  | .tlbinv m a b => Sys2Proof.Machine.execTlbinv m a b s
  | .lkeyld a l => Sys2Proof.Machine.execLkeyld a l s
  | .lkeyarm a l => Sys2Proof.Machine.execLkeyarm a l s
  | .bidf a c => Sys2Proof.Machine.execBidf a c s
  | .halt => Sys2Proof.Machine.execHalt s
  | .replay a => Sys2Proof.Machine.execReplay a s
  | .evrd d n => Sys2Proof.Machine.execEvrd d n s
  | .evsel a n => Sys2Proof.Machine.execEvsel a n s
  | .loadCompletion op t => Sys2Proof.Machine.execLoadCompletion op t s
  | .storeAccept core k => Sys2Proof.Machine.execStoreAccept core k s
  | .loadAtHome op t => Sys2Proof.Machine.execLoadAtHome op t s
  | .atomicAtHome core k => Sys2Proof.Machine.execAtomicAtHome core k s
  | .l1LineExpiry core line => Sys2Proof.Machine.execL1LineExpiry core line s
  | .pageWalkComplete core asid va => Sys2Proof.Machine.execPageWalkComplete core asid va s
  | .fenceComplete q => Sys2Proof.Machine.execFenceComplete q s
  | .tlbinvComplete q => Sys2Proof.Machine.execTlbinvComplete q s
  | .lnextRelease q => Sys2Proof.Machine.execLnextRelease q s
  | .faultFilterAdmit core => Sys2Proof.Machine.execFaultFilterAdmit core s
  | .faultStageForward die => Sys2Proof.Machine.execFaultStageForward die s
  | .faultStagePost die k => Sys2Proof.Machine.execFaultStagePost die k s
  | .faultPostRetry die k => Sys2Proof.Machine.execFaultPostRetry die k s
  | .replayRelease k => Sys2Proof.Machine.execReplayRelease k s
  | .engineWordEnqueue lane => Sys2Proof.Machine.execEngineWordEnqueue lane s
  | .copyStart core op => Sys2Proof.Machine.execCopyStart core op s
  | .copyRow core op => Sys2Proof.Machine.execCopyRow core op s
  | .copyRetire core op => Sys2Proof.Machine.execCopyRetire core op s
  | .tileStart core => Sys2Proof.Machine.execTileStart core s
  | .tileKblock core => Sys2Proof.Machine.execTileKblock core s
  | .tileComplete core => Sys2Proof.Machine.execTileComplete core s
  | .tileOpComplete core => Sys2Proof.Machine.execTileOpComplete core s
  | .figSlotClear lane => Sys2Proof.Machine.execFigSlotClear lane s
  | .definitionCacheFill slice asid k => Sys2Proof.Machine.execDefinitionCacheFill slice asid k s
  | .figureExecute core k => Sys2Proof.Machine.execFigureExecute core k s
  | .figureCombine core k => Sys2Proof.Machine.execFigureCombine core k s
  | .combineEntryAge slice k => Sys2Proof.Machine.execCombineEntryAge slice k s
  | .tileFigureChannel k => Sys2Proof.Machine.execTileFigureChannel k s
  | .figldApply k => Sys2Proof.Machine.execFigldApply k s
  | .figunldApply k => Sys2Proof.Machine.execFigunldApply k s
  | .wcbAgeDrain core k => Sys2Proof.Machine.execWcbAgeDrain core k s
  | .podWriteApply k => Sys2Proof.Machine.execPodWriteApply k s
  | .podLoadServe k data => Sys2Proof.Machine.execPodLoadServe k data s
  | .podRefusal k => Sys2Proof.Machine.execPodRefusal k s
  | .hostRefusal kind op t => Sys2Proof.Machine.execHostRefusal kind op t s
  | .stnDelivery k => Sys2Proof.Machine.execStnDelivery k s
  | .stnArrival k => Sys2Proof.Machine.execStnArrival k s
  | .stnRefusal k => Sys2Proof.Machine.execStnRefusal k s
  | .heatBroadcast k => Sys2Proof.Machine.execHeatBroadcast k s
  | .heatBid h core => Sys2Proof.Machine.execHeatBid h core s
  | .heatBidReceive h core => Sys2Proof.Machine.execHeatBidReceive h core s
  | .heatWindowClose h => Sys2Proof.Machine.execHeatWindowClose h s
  | .heatAward h => Sys2Proof.Machine.execHeatAward h s
  | .heatResult h => Sys2Proof.Machine.execHeatResult h s
  | .tokenArrival l => Sys2Proof.Machine.execTokenArrival l s
  | .barrierComplete l b n => Sys2Proof.Machine.execBarrierComplete l b n s
  | .squadRetire q => Sys2Proof.Machine.execSquadRetire q s
  | .launchRetire l => Sys2Proof.Machine.execLaunchRetire l s
  | .placement l => Sys2Proof.Machine.execPlacement l s
  | .preemptionRequest l b => Sys2Proof.Machine.execPreemptionRequest l b s
  | .contextSave l b => Sys2Proof.Machine.execContextSave l b s
  | .contextRestore l b => Sys2Proof.Machine.execContextRestore l b s
  | .doorbell fn off v => Sys2Proof.Machine.execDoorbell fn off v s
  | .schedulerBind => Sys2Proof.Machine.execSchedulerBind s
  | .sliceExpiry slot => Sys2Proof.Machine.execSliceExpiry slot s
  | .launchPacket slot => Sys2Proof.Machine.execLaunchPacket slot s
  | .prefetchPacket slot => Sys2Proof.Machine.execPrefetchPacket slot s
  | .signalPacket slot => Sys2Proof.Machine.execSignalPacket slot s
  | .waitsigPacket slot => Sys2Proof.Machine.execWaitsigPacket slot s
  | .waitsigRecheck queue => Sys2Proof.Machine.execWaitsigRecheck queue s
  | .graphPacket slot => Sys2Proof.Machine.execGraphPacket slot s
  | .hostKill fn v => Sys2Proof.Machine.execHostKill fn v s
  | .hostReplay fn v => Sys2Proof.Machine.execHostReplay fn v s
  | .hostPreempt fn v => Sys2Proof.Machine.execHostPreempt fn v s
  | .exportWindowWrite fn off v => Sys2Proof.Machine.execExportWindowWrite fn off v s
  | .dieEventSelect fn off v => Sys2Proof.Machine.execDieEventSelect fn off v s
  | .groomerConfigWrite fn off v => Sys2Proof.Machine.execGroomerConfigWrite fn off v s
  | .channelErrorLogClear fn off v => Sys2Proof.Machine.execChannelErrorLogClear fn off v s
  | .functionErrorLogClear fn v => Sys2Proof.Machine.execFunctionErrorLogClear fn v s
  | .mailboxAttest => Sys2Proof.Machine.execMailboxAttest s
  | .mailboxPower => Sys2Proof.Machine.execMailboxPower s
  | .mailboxSensors => Sys2Proof.Machine.execMailboxSensors s
  | .mailboxLinkreset => Sys2Proof.Machine.execMailboxLinkreset s
  | .registerWrite fn bar off data => Sys2Proof.Machine.execRegisterWrite fn bar off data s
  | .channelRequestArrival chan cls budget line core => Sys2Proof.Machine.execChannelRequestArrival chan cls budget line core s
  | .channelIssue chan => Sys2Proof.Machine.execChannelIssue chan s
  | .bankRefresh chan bank => Sys2Proof.Machine.execBankRefresh chan bank s
  | .groomerRead chan => Sys2Proof.Machine.execGroomerRead chan s
  | .groomerPeriodExpiry chan => Sys2Proof.Machine.execGroomerPeriodExpiry chan s
  | .flitReceive link flit => Sys2Proof.Machine.execFlitReceive link flit s
  | .nakReceive link seq => Sys2Proof.Machine.execNakReceive link seq s
  | .ackReceive link seq => Sys2Proof.Machine.execAckReceive link seq s
  | .keyLimitReached link => Sys2Proof.Machine.execKeyLimitReached link s
  | .linkTrained link => Sys2Proof.Machine.execLinkTrained link s
  | .mcastSwitchBranch k => Sys2Proof.Machine.execMcastSwitchBranch k s
  | .mcastLineApply k dev => Sys2Proof.Machine.execMcastLineApply k dev s
  | .redxSpineCombine k => Sys2Proof.Machine.execRedxSpineCombine k s
  | .redxResultWrite k => Sys2Proof.Machine.execRedxResultWrite k s
  | .powerOn image => Sys2Proof.Machine.execPowerOn image s
  | .throttleEntry => Sys2Proof.Machine.execThrottleEntry s
  | .throttleExit => Sys2Proof.Machine.execThrottleExit s
  | .moduleHalt => Sys2Proof.Machine.execModuleHalt s
  | .memoryReadRequest fn bar off len => Sys2Proof.Machine.execMemoryReadRequest fn bar off len s
  | .flitBoundary link => Sys2Proof.Machine.execFlitBoundary link s

end Sys2Proof.Machine
end

