-- ==== Sys2Proof/Machine/Turns.lean ====
section
/-!
DEFINITION. What a turn of the agenda does, and what a lane does on its own (R2, R20, R25, R143, R146, R293, R331, R335;
log 2).
-/
namespace Sys2Proof.Machine

/-- An outcome's next state changed. -/
def onNext (o : Host.Outcome State Fault Refusal) (f : State → State) : Host.Outcome State Fault Refusal :=
  match o with
  | .next s => .next (f s)
  | .fault r => .fault r
  | .refused r => .refused r

/-- R22. A remainder may begin at a literal, which is no instruction: the clause goes on behind it. A clause that does not decode is
not let issue by the clause check (R23). -/
def State.noWord (s : State) : State :=
  match s.current with
  | none => s
  | some (q, sq, e) => match e.clause.instrs with
    | .ok _ => s.advanceWord false
    | .error _ => s.trapWord q sq e causeIllegal 0 0

/-- R25. Run an instruction as the word in execution, and go on to the next word. -/
def State.runInstr (s : State) (i : Instr) : Host.Outcome State Fault Refusal :=
  onNext (exec i s) (fun t => t.advanceWord i.isLong)

/-- R157, R202. A word that waited to try again is tried again. -/
def State.retryWord (s : State) : State :=
  s.modLane s.focus (fun l => { l with cur := l.cur.map (fun e => { e with hold := none }) })

/-- R68, R157, R202. The word at which a clause waits is run again. -/
def State.tryAgain (s : State) (e : Exec) : Host.Outcome State Fault Refusal :=
  match e.clause.instrAt e.idx with
  | none => .next s.noWord
  | some i => s.retryWord.runInstr i

/-- R156, R201. The next element of an operation issues; with its last the word is over. -/
def State.issueNext (s : State) (op : Nat) (long : Bool) : State :=
  let core := s.focus / 64
  let s1 := s.issueElem core op
  if (s1.core core).leaving.any (fun x => x.op == op) then s1 else s1.retryWord.advanceWord long

/-- R25. The word at which a clause in execution stands. A word that waits for an event stays; a clause with no word left ends. -/
def State.runWord (s : State) (e : Exec) : Host.Outcome State Fault Refusal :=
  match e.hold with
  | some .retry => s.tryAgain e
  | some .lock => s.tryAgain e
  | some (.issue op) => .next (s.issueNext op (((e.clause.instrAt e.idx).map Instr.isLong).getD false))
  | some _ => .next s
  | none =>
    if e.clause.words.length < e.idx then .next (s.endClause s.focus e)
    else match e.clause.instrAt e.idx with
      | none => .next s.noWord
      | some i => s.runInstr i

/-- R63, R64, R340. A free lane: its four slots' next clauses are fetched, and one is issued. -/
def State.idleLane (s : State) : State :=
  let fetch (acc : State) (slot : Nat) : State :=
    match acc.inSlot s.focus slot with
    | none => acc
    | some e => acc.clauseFetch e.1
  ([0, 1, 2, 3].foldl fetch s).clauseIssue s.focus

/-- The lane in focus moves. -/
def State.laneStep (s : State) : Host.Outcome State Fault Refusal :=
  match (s.lane s.focus).cur with
  | none => .next s.idleLane
  | some e => s.runWord e

/-- R2, R7, R146, R150. One clock of a core: its banks are free again, and a full memory pipe is counted. -/
def State.tickCore (s : State) (c : Nat) : State :=
  let s1 := (s.modCore c (fun k => { k with clk := k.clk + 1, banksBusy := 0, bankRefused := false })).coreEvent c 0x01 1
  if 4096 ≤ s.outstanding c then s1.coreEvent c 0x0F 1 else s1

/-- R20. One clock of a die. -/
def State.tickDie (s : State) (d : Nat) : State := { s with dieClk := tabPut 0 s.dieClk d (tabGet 0 s.dieClk d + 1) }

/-- R293. One tick of the scheduler: the slice counters of the bound slots count down. -/
def State.tickScheduler (s : State) : State :=
  { s with
    schedClk := s.schedClk + 1
    slots := s.slots.map (fun e => (e.1, if e.2.st = .free then e.2 else { e.2 with slice := e.2.slice - 1 })) }

/-- The host writes bytes of its own memory. -/
def State.hostStore (s : State) (a : Nat) (bs : List Byte) : State :=
  { s with host := bs.zipIdx.foldl (fun m x => tabPut 0 m (a + x.2) x.1) s.host }

/-- R146. The source codes of a core that only timing makes: lane clocks with no ready squad, and the three held clause counts. -/
def timingCode (code : Nat) : Bool := [0x04, 0x0A, 0x0B, 0x0C].contains code

/-- R186. An error beyond correction strikes a byte of a core's scratch or weight buffer, or an element of its accumulator store. -/
def State.strikeCore (s : State) (c store a : Nat) : State :=
  s.modCore c (fun k => match store with
    | 0 => { k with badScratch := tabPut false k.badScratch (a % 0x200000) true }
    | 1 => { k with badWb := tabPut false k.badWb (a % 0x200000) true }
    | _ => { k with badAcc := tabPut false k.badAcc (a % 0x200000) true })

/-- R143, R146. Clocks of a core in which a bank refuses an access of its registers or its L1. -/
def State.bankConflicts (s : State) (c n : Nat) : State :=
  (s.modCore c (fun k => { k with mogul := k.mogul + BitVec.ofNat 48 n })).coreEvent c 0x05 n

/-- R331. An error strikes the 64-byte codeword of an address; a codeword beyond correction stays so. -/
def State.strike (s : State) (a kind : Nat) : State :=
  { s with struck := tabPut 0 s.struck (a / 64) (max (tabGet 0 s.struck (a / 64)) (min kind 2)) }

/-- R335. The sensors read the temperature of one of the 18 dies. -/
def State.measure (s : State) (d v : Nat) : State :=
  if d < 18 then { s with module := { s.module with temps := tabPut 0 s.module.temps d v } } else s

/-- One turn of the agenda, already taken from it. A turn that names an instruction word is none: words run on lanes. -/
def State.turn (s : State) (t : Turn) : Host.Outcome State Fault Refusal :=
  match t with
  | .lane k => { s with focus := k }.laneStep
  | .event i => if i.cls.isSome then .next s else exec i s
  | .coreClock c => .next (s.tickCore c)
  | .dieClock d => .next (s.tickDie d)
  | .channelClock c => .next (s.modChannel c ChannelS.clock)
  | .tick => .next s.tickScheduler
  | .hostWrite a bs => .next (s.hostStore a bs)
  | .temperature d v => .next (s.measure d v)
  | .supply v => .next { s with module := { s.module with supply := v } }
  | .bitError a kind => .next (s.strike a kind)
  | .timing c code n => .next (if timingCode code then s.coreEvent c code n else s)
  | .dieTiming d code n => .next (if code = 0x48 then s.dieEvent d code n else s)
  | .bank c k => .next (s.bankTurn c k)
  | .mogul c n => .next (s.bankConflicts c n)
  | .coreError c store a => .next (s.strikeCore c store a)

/-- The step: the first turn of the agenda, or the lane in focus when the agenda is empty (log 2). -/
def State.move (s : State) : Host.Outcome State Fault Refusal :=
  match s.agenda with
  | [] => s.laneStep
  | t :: r => { s with agenda := r }.turn t

/-- The region of the squad that `withFetchWord` places: code at virtual address 0, its handler at 0x100 of it (log 2). -/
def placedRegion : Region := { rcb := 0x10000, path := [(0x10000, 24576, 0)], root := 0x20000, codeSize := 0x10000, handler := 0x100,
                               domain := 0x10000 }

/-- The squad that `withFetchWord` places: squad 1, in slot 0 of lane 0 of core 0, all 32 threads at address 0, the first block and
logical id of launch 1, with the winner's role of a completed barrier. -/
def placedSquad (priv : Bool) : Squad :=
  { launch := 1, place := .resident 0 0 0, vpc := threads.map (fun t => (t, 0)), priv := priv, barRole := some true }

/-- The clause that holds one instruction: a header of its class and count, and its words. -/
def placedClause (cls : Nat) (ws : List Word) : Clause :=
  { addr := 0, hdr := BitVec.ofNat 32 (ws.length * 2 ^ 28 + cls * 2 ^ 25), words := ws }

/-- A running module in which lane 0 of core 0 stands at the only instruction of an issued clause (log 2). -/
def State.placed (s : State) (cls : Nat) (ws : List Word) : State :=
  { s with
    agenda := []
    focus := 0
    module := { s.module with power := .active, booted := true }
    squads := tabIns s.squads 1 (placedSquad (cls == 7))
    launches := tabIns s.launches 1 { region := placedRegion, tokenAt := 0, tokenHere := true, inSection := true, placed := 1 }
    blocks := tabIns s.blocks (blockKey 1 0) { launch := 1, core := some 0, size := 4096 }
    lanes := tabPut {} s.lanes 0 { last := 0, turns := 1, ended := false,
                                   cur := some { squad := 1, clause := placedClause cls ws, idx := 1, mask := BitVec.allOnes 32 } } }

/-- The class and the words of a table word: the instruction's, with its literal when it is long. -/
def tableWords (nbits w : Nat) : Nat × List Word :=
  let v := w % 2 ^ nbits
  let w0 := BitVec.ofNat 32 v
  let w1 := BitVec.ofNat 32 (v / 2 ^ 32)
  match decodeTableWord nbits w with
  | none => (0, [w0])
  | some i => (i.cls.getD 0, if i.isLong then [w0, w1] else [w0])

end Sys2Proof.Machine
end

