-- ==== Sys2Proof/Machine/Step.lean ====
section
/-!
DEFINITION. One step of the machine, and the state in which it is about to run a given instruction word.
-/
namespace Sys2Proof.Machine

/-- One step (log 2). -/
def step (s : State) : Host.Outcome State Fault Refusal := s.move

/-- `s` with the instruction of a table word as the only one of an issued clause, at which lane 0 of core 0 stands (log 2). -/
def State.withFetchWord (s : State) (nbits w : Nat) : State := s.placed (tableWords nbits w).1 (tableWords nbits w).2

end Sys2Proof.Machine
end

