-- ==== Sys2Proof/Safety.lean ====
section
/-!
DEFINITION. What statements about runs say: that the machine goes on, and what a word or an event leaves as it was.
-/
namespace Sys2Proof.Machine

/-- The state from which the step gives a next state. -/
def State.goes (s : State) : Prop := ∃ t, step s = .next t

/-- R9, R152. Two states alike but for what the homes of lines hold and count, what they ask of the channels, and what an error found there sends. -/
def State.HomesOnly (s t : State) : Prop :=
  t = { s with l2 := t.l2, msc := t.msc, pins := t.pins, pinOverflow := t.pinOverflow, dieEvents := t.dieEvents, toChannel := t.toChannel,
               channels := t.channels, struck := t.struck, poisoned := t.poisoned, outbox := t.outbox, fresh := t.fresh }

/-- R67. A word may name these vector registers: none lies in v32 to v63, or its squad holds the pair lock. -/
def State.mayName (s : State) (q : Nat) (sq : Squad) (rs : List Nat) : Prop := s.holdsLock q sq = true ∨ ∀ r ∈ rs, r < 32

/-- A word of squad `sq`, number `q`, ran and left it as `sq'`, at a charge of n thread-clocks (R30). Every other squad, every
other pair of lane slots, HBM and the rest of the machine are as they were; of its core and its die only the event counters
moved, as the charge moves them. -/
structure WordRan (s t : State) (q : Nat) (sq sq' : Squad) (n : Nat) : Prop where
  squad : tabFind t.squads q = some sq'
  others : ∀ p, p ≠ q → tabFind t.squads p = tabFind s.squads p
  pairs : ∀ k, k ≠ sq.pairOf → t.pair k = s.pair k
  cores : t.cores = (s.charge sq n).cores
  dies : t.dieEvents = (s.charge sq n).dieEvents
  memory : ∀ a, t.readByte a = s.readByte a
  rest : t = { s with squads := t.squads, pairs := t.pairs, cores := t.cores, dieEvents := t.dieEvents }

/-- A word that wrote only vector register d: every other vector register, and every other field of its squad and its pair,
is as it was. -/
structure VecRan (s t : State) (q : Nat) (sq sq' : Squad) (d n : Nat) : Prop where
  ran : WordRan s t q sq sq' n
  squad : sq' = { sq with v := sq'.v }
  pair : t.pair sq.pairOf = { s.pair sq.pairOf with v := (t.pair sq.pairOf).v }
  registers : ∀ r < 64, r ≠ d → ∀ th < 32, t.readV sq' r th = s.readV sq r th

/-- A word that wrote only predicate p: p0 keeps all ones, and every other predicate and field of its squad is as it was. -/
structure PredRan (s t : State) (q : Nat) (sq sq' : Squad) (p n : Nat) : Prop where
  ran : WordRan s t q sq sq' n
  squad : sq' = { sq with pr := sq'.pr }
  pair : t.pair sq.pairOf = s.pair sq.pairOf
  predicates : ∀ r < 128, r ≠ p ∨ r = 0 → ∀ th < 32, sq'.readP r th = sq.readP r th

/-- A word that wrote only scalar d: s0 still reads 0, and every other scalar and field of its squad is as it was. -/
structure ScalarRan (s t : State) (q : Nat) (sq sq' : Squad) (d : Nat) : Prop where
  ran : WordRan s t q sq sq' 1
  squad : sq' = { sq with sc := sq'.sc }
  pair : t.pair sq.pairOf = s.pair sq.pairOf
  scalars : ∀ r, r ≠ d ∨ r = 0 → sq'.readS r = sq.readS r

/-- A word that wrote, of registers, at most the vector registers `vs`, the predicates `ps` and the scalars `ss`, and the generator
words only when `gens` holds. -/
structure RegRan (s t : State) (q : Nat) (sq sq' : Squad) (vs ps ss : List Nat) (gens : Bool) (n : Nat) : Prop where
  ran : WordRan s t q sq sq' n
  squad : sq' = { sq with v := sq'.v, pr := sq'.pr, sc := sq'.sc, gen := sq'.gen }
  pair : t.pair sq.pairOf = { s.pair sq.pairOf with v := (t.pair sq.pairOf).v }
  registers : ∀ r < 64, r ∉ vs → ∀ th < 32, t.readV sq' r th = s.readV sq r th
  predicates : ∀ r < 128, r ∉ ps ∨ r = 0 → ∀ th < 32, sq'.readP r th = sq.readP r th
  scalars : ∀ r, r ∉ ss ∨ r = 0 → sq'.readS r = sq.readS r
  generators : gens = false → sq'.gen = sq.gen

/-- R107. A generator word after it advanced n times. -/
def genSteps : Nat → Word → Word
  | 0, g => g
  | n + 1, g => genAdvance (genSteps n g)

/-- R107. How many of the first j sub-elements of width W a guard byte enables. -/
def enabledBelow (W : Nat) (gb : Byte) (j : Nat) : Nat := (List.range j).countP (elemOn W gb)

/-- R29. Guard kind E: sub-element j of width W is enabled in a thread still in the clause. -/
def Squad.elementOn (sq : Squad) (e : Exec) (g : BitVec 4) (n : BitVec 1) (W th j : Nat) : Bool :=
  inMask e.mask th && elemOn W (sq.guard g n th) j

/-- The constructors of a V3 or VS word with a width: width, guard, its negation, M, d, a, b. -/
abbrev WordV3w := BitVec 2 → BitVec 4 → BitVec 1 → BitVec 1 → BitVec 6 → BitVec 6 → BitVec 6 → Instr

/-- The constructors of an untyped V3 or VS word: guard, its negation, M, d, a, b. -/
abbrev WordV3 := BitVec 4 → BitVec 1 → BitVec 1 → BitVec 6 → BitVec 6 → BitVec 6 → Instr

/-- R81. clampS of an exact value. -/
def clampSigned (W : Nat) (x : Int) : Int := min (max x (-(2 ^ (W - 1)))) (2 ^ (W - 1) - 1)

/-- R81. clampU of an exact value. -/
def clampUnsigned (W : Nat) (x : Int) : Int := min (max x 0) (2 ^ W - 1)

/-- R81, R82. What each typed integer word of two sources writes into an enabled sub-element, from the unsigned patterns of a_j
and b_j. -/
def arithmeticRows (W : Nat) : List (WordV3w × (Nat → Nat → Int)) := [
  (.add, fun x y => ((x : Int) + y) % 2 ^ W),
  (.sub, fun x y => ((x : Int) - y) % 2 ^ W),
  (.mul, fun x y => ((x : Int) * y) % 2 ^ W),
  (.mulhI, fun x y => (sx W x * sx W y / 2 ^ W) % 2 ^ W),
  (.mulhN, fun x y => (x : Int) * y / 2 ^ W),
  (.addISat, fun x y => clampSigned W (sx W x + sx W y) % 2 ^ W),
  (.addNSat, fun x y => clampUnsigned W ((x : Int) + y)),
  (.subISat, fun x y => clampSigned W (sx W x - sx W y) % 2 ^ W),
  (.subNSat, fun x y => clampUnsigned W ((x : Int) - y)),
  (.avgI, fun x y => ((sx W x + sx W y + 1) / 2) % 2 ^ W),
  (.avgN, fun x y => ((x : Int) + y + 1) / 2),
  (.minI, fun x y => if sx W x < sx W y then x else y),
  (.minN, fun x y => if x < y then x else y),
  (.maxI, fun x y => if sx W x < sx W y then y else x),
  (.maxN, fun x y => if x < y then y else x),
  (.shl, fun x y => if W ≤ y then 0 else ((x : Int) * 2 ^ y) % 2 ^ W),
  (.shrN, fun x y => if W ≤ y then 0 else (x : Int) / 2 ^ y),
  (.shrI, fun x y => if W ≤ y then (if sx W x < 0 then 2 ^ W - 1 else 0) else (sx W x / 2 ^ y) % 2 ^ W)]

/-- R84. What each untyped logic word of two sources writes into a bit of an enabled byte, from the same bits of a and b. -/
def logicRows : List (WordV3 × (Bool → Bool → Bool)) := [
  (.and, fun x y => x && y),
  (.or, fun x y => x || y),
  (.xor, fun x y => x != y),
  (.andn, fun x y => x && !y)]

/-- R83. The position of the bit field that b describes. -/
def fieldPos (b : Reg) : Nat := (b.extractLsb' 0 6).toNat

/-- R83. Its length, cut so that it never passes bit 63. -/
def fieldLen (b : Reg) : Nat := min (b.extractLsb' 8 6).toNat (64 - fieldPos b)

/-- The constructors of a typed compare: width, guard, its negation, pd, a, b. -/
abbrev WordPDw := BitVec 2 → BitVec 4 → BitVec 1 → BitVec 7 → BitVec 6 → BitVec 6 → Instr

/-- The constructors of an untyped word over predicates: guard, its negation, pd, a, b. -/
abbrev WordPD := BitVec 4 → BitVec 1 → BitVec 7 → BitVec 6 → BitVec 6 → Instr

/-- R86. The typed compares, from the unsigned patterns of a_j and b_j. -/
def compareRows (W : Nat) : List (WordPDw × (Nat → Nat → Bool)) := [
  (.cmpeq, fun x y => decide (x = y)),
  (.cmpltI, fun x y => decide (sx W x < sx W y)),
  (.cmpltN, fun x y => decide (x < y)),
  (.cmpleI, fun x y => decide (sx W x ≤ sx W y)),
  (.cmpleN, fun x y => decide (x ≤ y)),
  (.cmpne, fun x y => decide (x ≠ y))]

/-- R87. Predicate logic of two sources, bit by bit. -/
def predicateRows : List (WordPD × (Bool → Bool → Bool)) := [
  (.pand, fun x y => x && y),
  (.por, fun x y => x || y),
  (.pxor, fun x y => x != y),
  (.pandn, fun x y => x && !y)]

/-- R88. The scalar words of two sources, on 64-bit values. -/
def scalarRows : List ((BitVec 6 → BitVec 6 → BitVec 6 → Instr) × (Reg → Reg → Reg)) := [
  (.addScalar, fun x y => x + y),
  (.subScalar, fun x y => x - y),
  (.mulScalar, fun x y => x * y),
  (.andScalar, fun x y => x &&& y),
  (.orScalar, fun x y => x ||| y),
  (.xorScalar, fun x y => x ^^^ y),
  (.shlScalar, fun x y => x <<< y.toNat),
  (.shrNScalar, fun x y => x >>> y.toNat),
  (.shrIScalar, fun x y => x.sshiftRight y.toNat),
  (.minIScalar, fun x y => if x.toInt < y.toInt then x else y),
  (.maxIScalar, fun x y => if x.toInt < y.toInt then y else x),
  (.minNScalar, fun x y => if x.toNat < y.toNat then x else y),
  (.maxNScalar, fun x y => if x.toNat < y.toNat then y else x)]

/-- R102. The largest finite magnitude of a format. -/
def Fmt.top : Fmt → Nat
  | .f32 => 0x7F7FFFFF | .f16 => 0x7BFF | .bf16 => 0x7F7F | .e4m3 => 0x7E | .e5m2 => 0x7B | .e2m1 => 0x7 | .e8m0 => 0xFE

/-- R103, R106, R113. What stands for a magnitude beyond it: the infinity, the NaN of E4M3 and E8M0, and 6 in E2M1. -/
def Fmt.beyond : Fmt → Nat
  | .f32 => 0x7F800000 | .f16 => 0x7C00 | .bf16 => 0x7F80 | .e4m3 => 0x7F | .e5m2 => 0x7C | .e2m1 => 0x7 | .e8m0 => 0xFF

/-- R103, R113. The canonical NaN of a format; +0 in E2M1. -/
def Fmt.quiet : Fmt → Nat
  | .f32 => 0x7FC00000 | .f16 => 0x7E00 | .bf16 => 0x7FC0 | .e4m3 => 0x7F | .e5m2 => 0x7E | .e2m1 => 0 | .e8m0 => 0xFF

/-- R102. The binary places of a format's values: its smallest magnitude is 2 to minus this. -/
def Fmt.places : Fmt → Nat
  | .f32 => 149 | .f16 => 24 | .bf16 => 133 | .e4m3 => 9 | .e5m2 => 16 | .e2m1 => 1 | .e8m0 => 127

/-- R102, R103. The value of a finite pattern of any format, in units of its smallest magnitude; none for an infinity and for a NaN. -/
def Fmt.units (f : Fmt) (w : Nat) : Option Int :=
  let mag := w % 2 ^ (f.width - 1)
  let E := mag / 2 ^ f.man
  let M := mag % 2 ^ f.man
  if f = .e8m0 then (if w = 0xFF then none else some (2 ^ w))
  else if (f ∈ [Fmt.f32, .f16, .bf16, .e5m2] ∧ E = 2 ^ f.exp - 1) ∨ (f = .e4m3 ∧ mag = 0x7F) then none
  else
    let v : Int := if E = 0 then M else (2 ^ f.man + M) * 2 ^ (E - 1)
    some (if w / 2 ^ (f.width - 1) % 2 = 1 then -v else v)

/-- R102, R106. The magnitudes that a format would hold with unbounded exponents above, in units of its smallest one. -/
def Fmt.grid (f : Fmt) (n : Nat) : Prop := ∃ m k, m < 2 ^ (f.man + 1) ∧ n = m * 2 ^ k

/-- R106. The two neighbours of num / den among the magnitudes of a grid: the greatest not above it, and the next. -/
structure Between (grid : Nat → Prop) (num den t u : Nat) : Prop where
  low : grid t ∧ t * den ≤ num
  high : grid u ∧ num < u * den
  next : ∀ n, grid n → n ≤ t ∨ u ≤ n

/-- R106, R107. The neighbour of num / den that a mode chooses; `even` says whether a tie goes to the lower one, and g is the generator
word after its advance. -/
def chosen (mode : RMode) (neg even : Bool) (num den t u : Nat) (g : Word) : Nat :=
  if num = t * den then t
  else match mode with
  | .rne => if 2 * num < (t + u) * den ∨ (2 * num = (t + u) * den ∧ even = true) then t else u
  | .rtz => t
  | .rup => if neg then t else u
  | .rdn => if neg then u else t
  | .rs => if g.toNat < (num - t * den) * 2 ^ 32 / ((u - t) * den) then u else t

/-- R106, R107, R113. Pattern r of a format other than E8M0 is the value of sign `neg` and magnitude num / den, in units of its smallest
magnitude, rounded once; beyond the largest finite value it overflows as the mode has it, or saturates. -/
def Fmt.Delivers (f : Fmt) (mode : RMode) (sat neg : Bool) (num den : Nat) (g : Word) (r : Nat) : Prop :=
  ∃ t u, Between f.grid num den t u ∧
    let v := chosen mode neg (decide (t / (u - t) % 2 = 0)) num den t u g
    r < 2 ^ f.width ∧ (2 ^ (f.width - 1) ≤ r ↔ neg = true) ∧ ∀ top, f.units f.top = some top →
      (v ≤ top → f.units r = some (if neg then -(v : Int) else v)) ∧
      (top < v → r % 2 ^ (f.width - 1) = if sat || f == .e2m1 then f.top else match mode with
        | .rne => f.beyond
        | .rs => f.beyond
        | .rtz => f.top
        | .rup => if neg then f.top else f.beyond
        | .rdn => if neg then f.beyond else f.top)

/-- R37. The codes of the floating formats. -/
def floatCodes : List (Nat × Fmt) := [(0, .f32), (1, .f16), (2, .bf16), (3, .e4m3), (4, .e5m2), (5, .e2m1), (6, .e8m0)]

/-- R122. N is num / den rounded to the nearest integer, a tie to the even one. -/
def NearestEven (num den n : Nat) : Prop :=
  2 * num ≤ (2 * n + 1) * den ∧ (2 * n - 1) * den ≤ 2 * num ∧
  ((2 * num = (2 * n + 1) * den ∨ (0 < n ∧ 2 * num = (2 * n - 1) * den)) → n % 2 = 0)

/-- R103. Is a pattern of a format with an infinity a NaN? -/
def Fmt.nanPattern (f : Fmt) (w : Nat) : Bool := decide (f.infBits < w % 2 ^ (f.width - 1))

/-- R110. The order of patterns that are no NaN, with -0 below +0. -/
def Fmt.orderKey (f : Fmt) (w : Nat) : Int :=
  if w < 2 ^ (f.width - 1) then (w : Int) else -((w : Int) - 2 ^ (f.width - 1)) - 1

/-- R111. The order of patterns that are no NaN, with -0 equal to +0. -/
def Fmt.valueKey (f : Fmt) (w : Nat) : Int :=
  if w < 2 ^ (f.width - 1) then (w : Int) else -((w : Int) - 2 ^ (f.width - 1))

/-- R110. FMIN and FMAX: a NaN loses to a number, two NaNs give the canonical NaN. -/
def Fmt.lesser (f : Fmt) (x y : Nat) : Nat :=
  if f.nanPattern x && f.nanPattern y then f.nanBits
  else if f.nanPattern x then y
  else if f.nanPattern y then x
  else if f.orderKey x < f.orderKey y then x else y

/-- R110. As `lesser`, for the greater. -/
def Fmt.greater (f : Fmt) (x y : Nat) : Nat :=
  if f.nanPattern x && f.nanPattern y then f.nanBits
  else if f.nanPattern x then y
  else if f.nanPattern y then x
  else if f.orderKey x < f.orderKey y then y else x

/-- R110. The words that round by the mode word, as functions of the mode, a_j, b_j, d_j and the generator word. -/
def roundingRows (f : Fmt) : List (WordV3w × (RMode → Nat → Nat → Nat → Word → Nat)) := [
  (.fadd, fun mode x y _ g => Sys2Proof.Machine.fadd f mode x y g),
  (.fsub, fun mode x y _ g => Sys2Proof.Machine.fsub f mode x y g),
  (.fmul, fun mode x y _ g => Sys2Proof.Machine.fmul f mode x y g),
  (.fma, fun mode x y z g => Sys2Proof.Machine.fma f mode x y z g)]

/-- R111. The floating-point compares, from the patterns of a_j and b_j. -/
def floatCompareRows (f : Fmt) : List (WordPDw × (Nat → Nat → Bool)) := [
  (.fcmpeq, fun x y => !f.nanPattern x && !f.nanPattern y && decide (f.valueKey x = f.valueKey y)),
  (.fcmplt, fun x y => !f.nanPattern x && !f.nanPattern y && decide (f.valueKey x < f.valueKey y)),
  (.fcmple, fun x y => !f.nanPattern x && !f.nanPattern y && decide (f.valueKey x ≤ f.valueKey y)),
  (.fcmpun, fun x y => f.nanPattern x || f.nanPattern y)]

/-- R38. The special functions, with their numbers. -/
def specialRows : List ((BitVec 2 → BitVec 4 → BitVec 1 → BitVec 6 → BitVec 6 → Instr) × Nat) := [
  (.rcp, 0), (.rsq, 1), (.sqrt, 2), (.exp2, 3), (.log2, 4), (.sin, 5), (.cos, 6), (.tanh, 7)]

/-- The constructors of a typed reduction or scan: width, guard, its negation, d, a and the validity predicate. -/
abbrev WordRed := BitVec 2 → BitVec 4 → BitVec 1 → BitVec 6 → BitVec 6 → BitVec 6 → Instr

/-- R93. The typed reductions: what the result is of the values of the enabled threads. -/
def reductionRows (W : Nat) : List (WordRed × (List Nat → Nat → Prop)) := [
  (.redadd, fun L r => r = L.sum % 2 ^ W),
  (.redminN, fun L r => if L = [] then r = 2 ^ W - 1 else r ∈ L ∧ ∀ x ∈ L, r ≤ x),
  (.redmaxN, fun L r => if L = [] then r = 0 else r ∈ L ∧ ∀ x ∈ L, x ≤ r),
  (.redminI, fun L r => if L = [] then r = 2 ^ (W - 1) - 1 else r ∈ L ∧ ∀ x ∈ L, sx W r ≤ sx W x),
  (.redmaxI, fun L r => if L = [] then r = 2 ^ (W - 1) else r ∈ L ∧ ∀ x ∈ L, sx W x ≤ sx W r)]

/-- R93. The scans: what a thread receives of the values of the enabled threads up to it. -/
def scanRows (W : Nat) : List (WordRed × (List Nat → Nat → Prop)) := [
  (.scanadd, fun L r => r = L.sum % 2 ^ W),
  (.scanmaxN, fun L r => r ∈ L ∧ ∀ x ∈ L, x ≤ r),
  (.scanmaxI, fun L r => r ∈ L ∧ ∀ x ∈ L, sx W x ≤ sx W r)]

/-- The constructors of an M-format word: guard, its negation, data register, base, X, offset. -/
abbrev WordM := BitVec 4 → BitVec 1 → BitVec 6 → BitVec 6 → BitVec 1 → BitVec 6 → Instr

/-- R146. Event 0x08 of a core counted n times. -/
def State.countMisses (s : State) (core : Nat) : Nat → State
  | 0 => s
  | n + 1 => (s.countMisses core n).coreEvent core 0x08 1

/-- R146, R226. The walks `ws` of a core have started: each of its misses is counted, and nothing else has changed. -/
def State.withWalks (s : State) (core : Nat) (ws : List Walk) : State :=
  { s.countMisses core ws.length with walks := s.walks ++ ws }

/-- Squad `sq`, number `q`, issued one counted load, the operation `o`: its oc.ld rose by one, and beside the walks `ws` that its misses
started nothing else changed but what the clocks charged change. -/
structure LoadIssued (s t : State) (q : Nat) (sq : Squad) (o : LoadOp) (n : Nat) : Prop where
  squad : tabFind t.squads q = some { sq with ocLd := sq.ocLd + 1 }
  others : ∀ p, p ≠ q → tabFind t.squads p = tabFind s.squads p
  issued : tabFind t.loads s.nextId = some o
  loads : ∀ k, k ≠ s.nextId → tabFind t.loads k = tabFind s.loads k
  walks : ∃ ws, t.walks = s.walks ++ ws ∧ t.cores = ((s.withWalks sq.core ws).charge sq n).cores ∧
    t.dieEvents = ((s.withWalks sq.core ws).charge sq n).dieEvents
  memory : ∀ a, t.readByte a = s.readByte a
  rest : t = { s with squads := t.squads, loads := t.loads, walks := t.walks, cores := t.cores, dieEvents := t.dieEvents,
                      nextId := s.nextId + 1 }

/-- Squad `sq` acted on its core and on nothing else of the machine that a squad reads: no register of any squad, no other core and
no byte of HBM changed, and no counter of a squad. -/
structure CoreRan (s t : State) (sq : Squad) : Prop where
  squads : t.squads = s.squads
  pairs : t.pairs = s.pairs
  cores : ∀ c, c ≠ sq.core → t.core c = s.core c
  loads : t.loads = s.loads
  memory : ∀ a, t.readByte a = s.readByte a

/-- R156, R201. Squad `sq`, number `q`, became `sq'` as the elements `es` of its word began to issue, one at a time: the word stays in
execution, and no element has left yet. Beside that, the walks that its misses started and what the clocks charged change, nothing but
the loads changed. -/
structure ElementsIssue (s t : State) (q : Nat) (sq sq' : Squad) (e : Exec) (es : List PathEntry) (n : Nat) : Prop where
  squad : tabFind t.squads q = some sq'
  others : ∀ p, p ≠ q → tabFind t.squads p = tabFind s.squads p
  walks : ∃ ws, t.walks = s.walks ++ ws ∧ t.dieEvents = ((s.withWalks sq.core ws).charge sq n).dieEvents ∧
    t.core sq.core = { ((s.withWalks sq.core ws).charge sq n).core sq.core with leaving := (s.core sq.core).leaving ++ es }
  cores : ∀ c, c ≠ sq.core → t.core c = s.core c
  lane : (t.lane s.focus).cur = some { e with hold := some (.issue s.nextId) }
  lanes : ∀ k, k ≠ s.focus → t.lane k = s.lane k
  memory : ∀ a, t.readByte a = s.readByte a
  rest : t = { s with squads := t.squads, loads := t.loads, lanes := t.lanes, walks := t.walks, cores := t.cores,
                      dieEvents := t.dieEvents, nextId := s.nextId + 1 }

/-- R156, R204. Squad `sq`, number `q`, became `sq'` as the elements `bs` of its word set out, in order, for the banks of its core's rink,
which have performed none of them; beside that and the loads only what the clocks charged change has changed. -/
structure BankIssued (s t : State) (q : Nat) (sq sq' : Squad) (bs : List BankOp) (n : Nat) : Prop where
  squad : tabFind t.squads q = some sq'
  others : ∀ p, p ≠ q → tabFind t.squads p = tabFind s.squads p
  core : t.core sq.core = { (s.charge sq n).core sq.core with bank := (s.core sq.core).bank ++ bs }
  cores : ∀ c, c ≠ sq.core → t.core c = s.core c
  dies : t.dieEvents = (s.charge sq n).dieEvents
  memory : ∀ a, t.readByte a = s.readByte a
  rest : t = { s with squads := t.squads, loads := t.loads, cores := t.cores, dieEvents := t.dieEvents, nextId := s.nextId + 1 }

/-- R204, R205. An element waits to enter its core's store path: an earlier element of its squad that waits is on its line or, for a store,
is a store, or an earlier load of its squad has still to read one of its bytes, or one of its line when the store covers the line. -/
def State.waitsToEnter (s : State) (core : Nat) (e : PathEntry) : Prop :=
  (∃ h ∈ (s.core core).held, h.squad = e.squad ∧ (h.sharesLine e = true ∨ (h.isStore = true ∧ e.isStore = true))) ∨
  ∃ o ∈ s.loads, o.1 < e.op ∧ o.2.squad = e.squad ∧ o.2.global = true ∧ ∃ l ∈ o.2.elems, l.st = .waiting ∧ l.host = e.host ∧
    l.pa < e.from_ + e.span ∧ e.from_ < l.pa + o.2.size

/-- R155. Every M-format word of guard kind T outside POD, with the size of its element and the vector registers it names. -/
def accessRows (w : BitVec 2) (v : BitVec 1) (g : BitVec 4) (n : BitVec 1) (t b : BitVec 6) (x : BitVec 1) (o : BitVec 6) :
    List (Instr × Nat × List Nat) :=
  let plain : List WordM := [.ldgN w, .ldgI w, .ldgNf w, .ldsN w, .ldsI w, .stg w, .sts w]
  let atomics : List WordM := [.atomgAdd v, .atomgMinI v, .atomgMinN v, .atomgMaxI v, .atomgMaxN v, .atomgAnd v, .atomgOr v,
    .atomgXor v, .atomgXchg v, .atomsAdd v, .atomsMinI v, .atomsMinN v, .atomsMaxI v, .atomsMaxN v, .atomsAnd v, .atomsOr v,
    .atomsXor v, .atomsXchg v]
  plain.map (fun c => (c g n t b x o, 2 ^ w.toNat, t.toNat :: regsX x o)) ++
  atomics.map (fun c => (c g n t b x o, 4 * 2 ^ v.toNat, t.toNat :: regsX x o)) ++ [
    (.atomgCas v g n t b x o, 4 * 2 ^ v.toNat, t.toNat :: (t.toNat + 1) :: regsX x o),
    (.atomsCas v g n t b x o, 4 * 2 ^ v.toNat, t.toNat :: (t.toNat + 1) :: regsX x o),
    (.atomgAddBf16x2 g n t b x o, 4, t.toNat :: regsX x o),
    (.atomgAddF32 g n t b x o, 4, t.toNat :: regsX x o),
    (.ldr g n t b x o, 8, t.toNat :: regsX x o),
    (.str g n t b x o, 8, t.toNat :: regsX x o),
    (.lda g n t b x o, 4, t.toNat :: regsX x o),
    (.sta g n t b x o, 4, t.toNat :: regsX x o)]

/-- R166. The atomics of an operation with one operand, GLOBAL and SCRATCH, and what memory becomes from m and x of W bits. -/
def atomicRows (W : Nat) : List ((BitVec 1 → WordM) × (BitVec 1 → WordM) × Nat × (Nat → Nat → Nat)) := [
  (.atomgAdd, .atomsAdd, 0, fun m x => (m + x) % 2 ^ W),
  (.atomgMinI, .atomsMinI, 1, fun m x => if sx W x < sx W m then x else m),
  (.atomgMinN, .atomsMinN, 2, fun m x => if x < m then x else m),
  (.atomgMaxI, .atomsMaxI, 3, fun m x => if sx W m < sx W x then x else m),
  (.atomgMaxN, .atomsMaxN, 4, fun m x => if m < x then x else m),
  (.atomgAnd, .atomsAnd, 5, fun m x => m &&& x),
  (.atomgOr, .atomsOr, 6, fun m x => m ||| x),
  (.atomgXor, .atomsXor, 7, fun m x => m ^^^ x),
  (.atomgXchg, .atomsXchg, 8, fun _ x => x)]

/-- R157. Every element of an access translates to a resident page with the permissions it needs, at HBM where it must, below 2^56, and
no DET-shared page is written outside a commit section. -/
def State.granted (s : State) (sq : Squad) (need : Need) (els : List (Nat × Nat)) : Prop :=
  ∀ l ∈ els, l.2 < 2 ^ 56 ∧ ∃ p, s.translateIn sq.core (s.regionOf sq) l.2 = .page p ∧ (need.hbm → p.host = false) ∧
    (need.r → p.r = true) ∧ (need.w → p.w = true) ∧ (need.f → p.f = true) ∧ (need.w ∨ need.f → p.det = true → s.inSection sq = true)

/-- R157, R223, R224. An element whose address translates to r fails the fifth check with a detail: 5 beyond 2^56; then 4 at HOST where HBM is
needed; then 2, 3 and 9 for a missing R, W and F, in that order; a malformed entry lacks every permission, with detail 7 (log 30). -/
def FailsWith (n : Need) (va : Nat) (r : WalkResult) (d : Nat) : Prop :=
  (2 ^ 56 ≤ va ∧ d = 5) ∨ (va < 2 ^ 56 ∧ r = .malformed ∧ (n.r = true ∨ n.w = true ∨ n.f = true) ∧ d = 7) ∨
  (va < 2 ^ 56 ∧ ∃ p, r = .page p ∧
    ((n.hbm = true ∧ p.host = true ∧ d = 4) ∨
     (¬ (n.hbm = true ∧ p.host = true) ∧
       ((n.r = true ∧ p.r = false ∧ d = 2) ∨
        ((n.r = true → p.r = true) ∧ n.w = true ∧ p.w = false ∧ d = 3) ∨
        ((n.r = true → p.r = true) ∧ (n.w = true → p.w = true) ∧ n.f = true ∧ p.f = false ∧ d = 9)))))

/-- R234. The fields of a fault record, by offset, size and value: of a region's access at an address, with its cause, detail and source, the
cores and the die it names, the squad's name and the code address. -/
def recordFrom (g : Region) (addr cause detail source cores die : Nat) (sname code : Word) : List (Nat × Nat × Nat) := [
  (0, 8, addr % 2 ^ 64), (8, 2, g.asid % 2 ^ 16), (0x0A, 1, cause % 256), (0x0B, 1, detail % 256), (0x0C, 1, 0), (0x0D, 1, source), (0x0E, 2, 0),
  (0x10, 8, cores + 2 ^ 48 * (die % 8)), (0x18, 4, sname.toNat), (0x1C, 4, code.toNat), (0x20, 8, g.rcb % 2 ^ 64),
  (0x28, 8, 0), (0x30, 8, 0), (0x38, 8, 0)]

/-- R234. The fields of a fault record of an access by one core. -/
def recordOf (g : Region) (addr cause detail source core : Nat) (sname code : Word) : List (Nat × Nat × Nat) :=
  recordFrom g addr cause detail source (2 ^ (core % 48)) (dieOfCore core) sname code

/-- R233, R234. A record with the given fields went to the fault queue at h: into its ring at the tail, which rises (the ring's base counts with
52 bits, log 58), and nowhere else; with the ring full the queue's overflow count rises and a stage of the die that has room keeps the
record; a region without a fault queue gets none. -/
def State.Posted (s u : State) (h die : Nat) (fields : List (Nat × Nat × Nat)) : Prop :=
  let tail := s.readLe (h + 0x10) 4
  let at_ := s.readLe h 8 % 2 ^ 52 + 64 * (tail % 2 ^ s.readLe (h + 8) 4)
  let room : Prop := (tail + 2 ^ 32 - s.readLe (h + 0x14) 4) % 2 ^ 32 ≠ 2 ^ s.readLe (h + 8) 4
  (h = 0 → ∀ a, u.readByte a = s.readByte a) ∧
  (h ≠ 0 → room → (at_ + 64 ≤ h ∨ h + 64 ≤ at_) → (∀ f ∈ fields, u.readLe (at_ + f.1) f.2.1 = f.2.2) ∧
    u.readLe (h + 0x10) 4 = (tail + 1) % 2 ^ 32 ∧
    ∀ a, (a < at_ ∨ at_ + 64 ≤ a) → (a < h + 0x10 ∨ h + 0x14 ≤ a) → u.readByte a = s.readByte a) ∧
  (h ≠ 0 → ¬ room → u.readLe (h + 0x18) 4 = (s.readLe (h + 0x18) 4 + 1) % 2 ^ 32 ∧
    (∀ a, (a < h + 0x18 ∨ h + 0x1C ≤ a) → u.readByte a = s.readByte a) ∧
    (s.stageCount die < 256 → ∃ e bs, u.stage = s.stage ++ [e] ∧ e.die = die ∧ e.fq = h ∧ e.overflowed = true ∧ e.record = some bs ∧
      bs.length = 64 ∧ ∀ f ∈ fields, fld bs f.1 f.2.1 = f.2.2))

/-- R164, R165, R203, R212. The entries of a core's write-combining buffer left as packets, in order: each is one write to its device, with
its address, its bytes and their mask. -/
def LeftAsPackets (core : Nat) (es : List WcbEntry) (ms : List PodMsg) : Prop :=
  ms.map (fun m => (m.dst, m.off, m.kind, m.mine, m.core)) = es.map (fun w => (w.dev, 128 * w.line, PodKind.write w.data, true, core)) ∧
  ms.map (fun m => (m.region, m.sname, m.code)) = es.map (fun w => (w.region, w.sname, w.code))

/-- R151, R164. A byte stands in the entry of its line in a core's write-combining buffer. -/
def CombinedByte (ws : List WcbEntry) (dev line at_ : Nat) (b : Byte) : Prop :=
  ∃ y ∈ ws, y.dev = dev ∧ y.line = line ∧ tabFind y.data at_ = some b

/-- R165. A byte travels in one of some packets of a core, each the write of a drained entry. -/
def SentByte (core : Nat) (ms : List PodMsg) (dev line at_ : Nat) (b : Byte) : Prop :=
  ∃ m ∈ ms, ∃ d, m.kind = .write d ∧ m.mine = true ∧ m.core = core ∧ m.dst = dev ∧ m.off = 128 * line ∧ tabFind d at_ = some b

/-- The elements of a granted access, translated. -/
def State.translated (s : State) (sq : Squad) (els : List (Nat × Nat)) : List Elem :=
  els.map (fun l => elemOf l.1 l.2 (s.translateIn sq.core (s.regionOf sq) l.2))

/-- The operation of a load of squad `sq`, number `q`, whose addresses its region `r` translates. -/
def loadOf (q : Nat) (sq : Squad) (dest size : Nat) (kind : LoadKind) (r : Region) (elems : List Elem) : LoadOp :=
  { squad := q, core := sq.core, dest := dest, size := size, kind := kind, asid := r.asid, region := r, elems := elems }

/-- The operation of a load or atomic of SCRATCH. -/
def scratchLoadOf (q : Nat) (sq : Squad) (dest size : Nat) (kind : LoadKind) (els : List (Nat × Nat)) : LoadOp :=
  { squad := q, core := sq.core, dest := dest, size := size, kind := kind, scratch := true,
    elems := els.map (fun l => { thread := l.1, va := l.2 }) }

/-- The elements of a SCRATCH word on their way to their banks. -/
def bankOps (op q size base : Nat) (els : List (Nat × Nat)) (act : Nat → BankKind) : List BankOp :=
  els.map (fun l => { op := op, squad := q, thread := l.1, at_ := base + l.2, size := size, kind := act l.1 })

/-- R151. The operation of a load of the pod. -/
def podLoadOf (q : Nat) (sq : Squad) (dest size : Nat) (r : Region) (elems : List Elem) : LoadOp :=
  { squad := q, core := sq.core, dest := dest, size := size, kind := .given, region := r, elems := elems }

/-- R129. Squad `sq'` is `sq` after it issued an instruction that names flag f: P of f has risen, F of f is clear, and no other flag and
no E changed. -/
structure FlagIssued (sq sq' : Squad) (f : Nat) : Prop where
  pending : sq'.flagP_ f = sq.flagP_ f + 1
  others : ∀ m < 12, m ≠ f → sq'.flagP_ m = sq.flagP_ m
  set : ∀ m < 12, sq'.flagF.getLsbD m = (decide (m ≠ f) && sq.flagF.getLsbD m)

/-- R129, R131. Squad `sq`, number `q`, issued an engine's instruction that names flag f: in the squad only its flag and its two engine
counters moved; no other squad, no pair, no other core and no byte of HBM changed, and of its own core only the engine's queue and tables,
the banks in use and what the clock charged changes. -/
structure EngineIssued (s t : State) (q : Nat) (sq sq' : Squad) (f : Nat) : Prop where
  squad : tabFind t.squads q = some sq'
  same : sq' = { sq with flagF := sq'.flagF, flagP := sq'.flagP, ocCp := sq'.ocCp, ocTl := sq'.ocTl }
  flag : FlagIssued sq sq' f
  others : ∀ p, p ≠ q → tabFind t.squads p = tabFind s.squads p
  pairs : t.pairs = s.pairs
  cores : ∀ c, c ≠ sq.core → t.core c = s.core c
  core : t.core sq.core = { (s.charge sq 1).core sq.core with
    copies := (t.core sq.core).copies, tiles := (t.core sq.core).tiles, board := (t.core sq.core).board,
    bindings := (t.core sq.core).bindings, banksBusy := (t.core sq.core).banksBusy }
  memory : ∀ a, t.readByte a = s.readByte a
  next : t.nextId = s.nextId + 1

/-- R150. No bank of the 64 core bytes of scratch from an address has served an access in this clock. -/
def CoreS.idleBanks (k : CoreS) (a : Nat) : Prop := ∀ i < 64, k.banksBusy.getLsbD ((a + i) / 8 % 64) = false

/-- R174, R184, R204. The 64 bytes at a SCRATCH offset of a squad's block that a word takes as its image: inside the allocation, of no copy of
the squad in the scoreboard, with no element of the squad still on its way to a bank. -/
def State.imageThere (s : State) (q : Nat) (sq : Squad) (off : Nat) : Prop :=
  let k := s.core sq.core
  let at_ := (s.block sq.blockOf).base + off
  off + 64 ≤ (s.block sq.blockOf).size ∧ (∀ b ∈ k.bank, b.squad ≠ q) ∧
  ∀ i < 64, ∀ b ∈ k.board, b.lo ≤ at_ + i → at_ + i ≤ b.hi → ∀ c ∈ k.copies, c.id = b.op → c.squad ≠ q

/-- R150. As `imageThere`, and their banks are free. -/
def State.imageFree (s : State) (q : Nat) (sq : Squad) (off : Nat) : Prop :=
  s.imageThere q sq off ∧ (s.core sq.core).idleBanks ((s.block sq.blockOf).base + off)

/-- R150. The banks of some core bytes of scratch are free; and they are in use now, beside those that were. -/
def CoreS.placesFree (k : CoreS) (as_ : List Nat) : Prop := ∀ a ∈ as_, k.banksBusy.getLsbD (a / 8 % 64) = false
def CoreS.usesBanks (k k' : CoreS) (as_ : List Nat) : Prop :=
  ∀ j < 64, k'.banksBusy.getLsbD j = (k.banksBusy.getLsbD j || as_.any (fun a => a / 8 % 64 == j))

/-- R150. The banks of 64 core bytes from an address. -/
def banks64 (a j : Nat) : Bool := (List.range 64).any (fun i => (a + i) / 8 % 64 == j)

/-- The 64 bytes at a SCRATCH offset of a squad's block. -/
def State.image64 (s : State) (sq : Squad) (off : Nat) : List Byte :=
  (List.range 64).map (fun i => tabGet 0 (s.core sq.core).scratch ((s.block sq.blockOf).base + off + i))

/-- R129, R249. Squad `sq'` is `sq` with flag f issued, when the word names one. -/
def FlagMaybe (sq sq' : Squad) (f : Option Nat) : Prop :=
  match f with
  | some n => FlagIssued sq sq' n
  | none => sq'.flagP = sq.flagP ∧ sq'.flagF = sq.flagF

/-- A word whose enabled threads left its clause: their vpc are as `sq'` says, the clause goes on for the other threads, and of the rest
of the machine only the event counters of its core and die moved. -/
structure LeftClause (s t : State) (q : Nat) (sq sq' : Squad) (e : Exec) (gone : Nat → Bool) (n : Nat) : Prop where
  squad : tabFind t.squads q = some sq'
  others : ∀ p, p ≠ q → tabFind t.squads p = tabFind s.squads p
  mask : ∃ m, (t.lane s.focus).cur = some { e with mask := m } ∧ ∀ th < 32, inMask m th = (inMask e.mask th && !gone th)
  lanes : ∀ k, k ≠ s.focus → t.lane k = s.lane k
  cores : t.cores = (s.charge sq n).cores
  dies : t.dieEvents = (s.charge sq n).dieEvents
  memory : ∀ a, t.readByte a = s.readByte a
  rest : t = { s with squads := t.squads, lanes := t.lanes, cores := t.cores, dieEvents := t.dieEvents }

/-- R139. Loop n after a branch some enabled thread of which takes each target of a set. -/
def Squad.loopAfter (sq : Squad) (n : Nat) (target : Word → Prop) (l : Loop) : Prop :=
  let old := sq.loopN n
  ((sq.priv = false ∧ old.active = true ∧ ∃ a, target a ∧
      ¬ (old.start.toNat ≤ a.toNat ∧ a.toNat < old.start.toNat + 4 * old.len.toNat)) → l = { old with lc := 0, active := false }) ∧
  (¬ (sq.priv = false ∧ old.active = true ∧ ∃ a, target a ∧
      ¬ (old.start.toNat ≤ a.toNat ∧ a.toNat < old.start.toNat + 4 * old.len.toNat)) → l = old)

/-- R69, R71, R72, R136, R299. Squad `sq`, number `q`, has entered its handler from word `e.idx` of its clause: the trap registers are written,
the target that a LOOP gave the clause's end is kept,
the state is privileged, every live thread stands at the handler and the lane is free. Every other register and counter of the squad,
and everything else, is as it was. -/
structure TrapTaken (s t : State) (q : Nat) (sq : Squad) (e : Exec) (cause : Nat) (xaddr : Reg) (detail : Nat) : Prop where
  squad : ∃ sq', tabFind t.squads q = some sq' ∧ sq'.xcause = BitVec.ofNat 8 cause ∧
    sq'.xpc = e.clause.addr + BitVec.ofNat 32 (4 * e.idx) ∧ sq'.xaddr = xaddr ∧
    (sq'.xinfo.extractLsb' 0 4).toNat = e.idx % 16 ∧ (sq'.xinfo.extractLsb' 4 4).toNat = hdrClass e.clause.hdr ∧
    (sq'.xinfo.extractLsb' 8 8).toNat = detail % 256 ∧ sq'.xinfo.extractLsb' 16 16 = 0 ∧ sq'.xinfo.extractLsb' 32 32 = e.mask ∧
    (∀ th < 32, tabGet 0 sq'.xvpc th = sq.readVpc th) ∧ sq'.xjump = e.jump.map (fun a => (e.clause.addr, a)) ∧ sq'.priv = true ∧
    (∀ th < 32, sq'.readVpc th = if sq.readVpc th = exited then exited else BitVec.ofNat 32 (s.regionOf sq).handler) ∧
    sq' = { sq with xcause := sq'.xcause, xpc := sq'.xpc, xaddr := sq'.xaddr, xinfo := sq'.xinfo, xvpc := sq'.xvpc, xjump := sq'.xjump, priv := true,
                    vpc := sq'.vpc, fetched := none, remainder := none, arrived := none }
  others : ∀ p, p ≠ q → tabFind t.squads p = tabFind s.squads p
  lane : (t.lane sq.laneOf).cur = none
  rest : t = { s with squads := t.squads, lanes := t.lanes }

/-- R27. The SYS words but HALT. -/
def sysRows (d a b : BitVec 6) (c : BitVec 12) (n : BitVec 4) (m : BitVec 1) : List Instr :=
  [.csrrd d c, .csrwr b c, .rft, .tlbinv m a b, .lkeyld a n, .lkeyarm a n, .bidf a n, .replay a, .evrd d n, .evsel a n]

/-- No figure waits in a combining buffer or at a channel, and no error has struck HBM. -/
def State.calm (s : State) : Prop := s.combining = [] ∧ s.tileFigs = [] ∧ s.struck = []

/-- A fetch passed the homes of lines: beside event counters only the walks, the slices and the memory-side caches with what they sent to
the channels, the pin tables and the free values drawn changed. -/
structure Fetched (s t : State) (core : Nat) : Prop where
  cores : ∀ c, c ≠ core → t.core c = s.core c
  core : t.core core = { s.core core with events := (t.core core).events }
  rest : t = { s with walks := t.walks, cores := t.cores, dieEvents := t.dieEvents, l2 := t.l2, msc := t.msc, toChannel := t.toChannel,
                      pins := t.pins, pinOverflow := t.pinOverflow, fresh := t.fresh }

/-- No register of a squad or of a pair, no counter of a squad and no byte of HBM or of the host changed. -/
structure QuietOutside (s t : State) : Prop where
  squads : t.squads = s.squads
  pairs : t.pairs = s.pairs
  memory : ∀ a, t.readByte a = s.readByte a
  host : t.host = s.host

/-- As `QuietOutside`, but squad `q` became `sq'`. -/
structure SquadOnly (s t : State) (q : Nat) (sq' : Squad) : Prop where
  squad : tabFind t.squads q = some sq'
  others : ∀ p, p ≠ q → tabFind t.squads p = tabFind s.squads p
  pairs : t.pairs = s.pairs
  memory : ∀ a, t.readByte a = s.readByte a
  host : t.host = s.host

/-- R203. No load or figure load of squad `q` issued before operation `upto` is outstanding; for a scope beyond CORE no store, atomic or
figure element issued before it is left on its core, and for POD no fenced packet of its core. -/
structure State.releasedAt (s : State) (q core scope upto : Nat) : Prop where
  loads : ∀ o ∈ s.loads, o.2.squad = q → upto ≤ o.1
  figures : ∀ f ∈ s.figLoads, f.squad = q → upto ≤ f.id
  path : scope ≠ 0 → ∀ e ∈ (s.core core).path ++ (s.core core).held ++ (s.core core).leaving, upto ≤ e.op
  pod : scope = 3 → ∀ m ∈ s.pod, m.mine = true → m.core = core → m.kind.fenced = true → upto ≤ m.id

/-- R131, R158. Element t of load `op` returned to its squad `sq`, which became `sq'`: with no other element outstanding the load is over,
oc.ld falls by one and a POISON that the load met waits for the next header; else the element alone is done. -/
structure Returned (s u : State) (op t : Nat) (o : LoadOp) (sq sq' : Squad) : Prop where
  squad : tabFind u.squads o.squad = some sq'
  others : ∀ p, p ≠ o.squad → tabFind u.squads p = tabFind s.squads p
  same : sq' = { sq with v := sq'.v, sc := sq'.sc, pr := sq'.pr, ocLd := sq'.ocLd, poison := sq'.poison }
  last : (∀ l ∈ o.elems, l.thread ≠ t → l.st = .done) → tabFind u.loads op = none ∧ sq'.ocLd = sq.ocLd - 1
  more : (∃ l ∈ o.elems, l.thread ≠ t ∧ l.st ≠ .done) → sq'.ocLd = sq.ocLd ∧ sq'.poison = sq.poison ∧
    ∃ o', tabFind u.loads op = some o' ∧ o'.elems = o.elems.map (fun l => if l.thread = t then { l with st := .done } else l)
  loads : ∀ k, k ≠ op → tabFind u.loads k = tabFind s.loads k
  memory : ∀ a, u.readByte a = s.readByte a
  rest : u = { s with squads := u.squads, pairs := u.pairs, loads := u.loads }

/-- R200, R201. Entry e, at place k of a core's store path, left it for its home: it alone left the path, its counted store's oc.st falls
when none of its elements is left, and no other squad and no register changed. -/
structure LeftPath (s u : State) (core k : Nat) (e : PathEntry) : Prop where
  path : (u.core core).path = (s.core core).path.eraseIdx k
  held : (u.core core).held = (s.core core).held
  cores : ∀ c, c ≠ core → (u.core c).path = (s.core c).path ∧ (u.core c).scratch = (s.core c).scratch
  others : ∀ p, p ≠ e.squad → tabFind u.squads p = tabFind s.squads p
  pairs : u.pairs = s.pairs
  memory : ∀ a, (a < e.pa ∨ e.pa + e.size ≤ a) → u.readByte a = s.readByte a

/-- R129. Squad `sq'` is `sq` after an instruction that named flag f completed, with an error or not: P of f fell, F of f is set when P is 0,
E of f is set on an error, and no other flag changed. -/
structure FlagCompleted (sq sq' : Squad) (f : Nat) (err : Bool) : Prop where
  pending : sq'.flagP_ f = sq.flagP_ f - 1
  others : ∀ m < 12, m ≠ f → sq'.flagP_ m = sq.flagP_ m
  set : ∀ m < 12, sq'.flagF.getLsbD m = (sq.flagF.getLsbD m || (decide (m = f) && decide (sq.flagP_ f ≤ 1)))
  error : ∀ m < 12, sq'.flagE.getLsbD m = (sq.flagE.getLsbD m || (decide (m = f) && err))

/-- A step of an engine of a core: no squad, no pair, no other core and no byte of HBM or of the host changed. -/
structure EngineStep (s t : State) (core : Nat) : Prop where
  quiet : QuietOutside s t
  cores : ∀ c, c ≠ core → t.core c = s.core c
  loads : t.loads = s.loads

/-- R146, R150. A core's engine met a bank in use: the clock's refusal is counted once, and nothing else of the machine but event counters
has changed. -/
structure BankTurned (s t : State) (core : Nat) : Prop where
  step : EngineStep s t core
  core : t.core core = { s.core core with bankRefused := true, events := (t.core core).events,
                                          mogul := (s.core core).mogul + (if (s.core core).bankRefused then 0 else 1) }

/-- An engine's operation of squad `sq`, number `q`, is over: its flag and its engine counter moved, and its bindings and its range in the
scoreboard are gone. -/
structure EngineDone (s t : State) (core q : Nat) (sq sq' : Squad) (op f : Nat) (err : Bool) : Prop where
  squad : tabFind t.squads q = some sq'
  same : sq' = { sq with flagF := sq'.flagF, flagE := sq'.flagE, flagP := sq'.flagP, ocCp := sq'.ocCp, ocTl := sq'.ocTl,
                         underflow := sq'.underflow }
  flag : FlagCompleted sq sq' f err
  others : ∀ p, p ≠ q → tabFind t.squads p = tabFind s.squads p
  pairs : t.pairs = s.pairs
  memory : ∀ a, t.readByte a = s.readByte a
  cores : ∀ c, c ≠ core → t.core c = s.core c
  bindings : (t.core core).bindings = (s.core core).bindings.filter (fun b => b.op != op)

end Sys2Proof.Machine
end

