-- ==== Sys2Proof/Certificates/Slice0/Obligations.lean ====
section
/-!
DEFINITION. The statements for the provers.
-/
open Sys2Proof Sys2Proof.Machine

/-- R21, R22, R32 to R45. Decode and encode agree: of every well-formed instruction of every class, the words that the encoder
writes decode, in its class, to that instruction, every operand at every value. -/
def Obligations.DecodeEncode : Prop :=
  ∀ (i : Instr) (c : Nat), i.cls = some c → i.wellFormed = true →
    decode c (encodeWord i) (encodeLit i) = .ok i ∧ (encode i).length = (if i.isLong then 2 else 1) ∧
    encode i = BitVec.ofNat 32 (encodeWord i) :: (encodeLit i).toList.map (BitVec.ofNat 32) ∧ encodeWord i < 2 ^ 32 ∧
    ∀ l, encodeLit i = some l → l < 2 ^ 32

/-- R31 to R42. Words of the manual's own examples and rows decode to the instructions they stand for; an opcode that no row
lists, a reserved field that is not zero and a field beyond its range do not decode. -/
def Obligations.DecodedWords : Prop :=
  decode 1 0x02385187 none = .ok (.add 2 3 1 0 5 6 7) ∧
  decode 1 0x3904924C none = .ok (.maxN 1 0 0 1 9 9 12) ∧
  decode 1 0xC3028A84 none = .ok (.cvtSat 3 0 0 20 21 0 4) ∧
  decode 1 0x4E028083 none = .ok (.cmpltI 2 0 0 40 2 3) ∧
  decode 3 0x02110246 none = .ok (.ldgN 2 1 0 8 4 1 6) ∧
  decode 0 0x0127FFF0 none = .ok (.bra 2 0 0x7FFF0) ∧
  decode 1 0x6700A000 (some 0xFFFFFFFD) = .ok (.movl 0 0 0 10 0xFFFFFFFD) ∧
  decode 0 0x0E000401 none = .ok (.wait 0 2 0 1) ∧
  decode 7 0x07000000 none = .ok .halt ∧
  (∀ l i, decode 7 0x16000000 l ≠ .ok i) ∧
  (∀ l i, decode 1 0xFC040000 l ≠ .ok i) ∧
  (∀ l i, decode 1 0xB0000001 l ≠ .ok i)

/-- R22, R25. A step of a lane that stands at a word of a decoded clause, no literal, that decodes to a well-formed instruction
executes exactly that instruction, and then goes on to the next word of the clause, past its literal, or ends the clause. A
literal at which a remainder begins is passed, which is an inference (log 17). -/
def Obligations.StepRunsDecoded : Prop :=
  ∀ (s : State) (e : Exec) (i : Instr) (w : Word) (l : List (Nat × Instr)), s.agenda = [] → (s.lane s.focus).cur = some e → e.hold = none →
    e.clause.instrs = .ok l → 1 ≤ e.idx → e.idx ≤ e.clause.words.length →
    let literal : Prop := ∃ x ∈ l, x.2.isLong = true ∧ e.idx = x.1 + 1
    (literal → step s = .next s.noWord ∧ (s.current ≠ none → step s = .next (s.advanceWord false))) ∧
    (¬ literal → e.clause.words[e.idx - 1]? = some w →
    decode (hdrClass e.clause.hdr) w.toNat ((e.clause.words[e.idx]?).map (·.toNat)) = .ok i → i.wellFormed = true →
    step s = onNext (exec i s) (fun t => t.advanceWord i.isLong) ∧
    ∀ t e', exec i s = .next t → (t.lane t.focus).cur = some e' → e'.hold = none →
      e'.idx + (if i.isLong then 2 else 1) ≤ e'.clause.words.length →
      ∃ u, step s = .next u ∧ (u.lane t.focus).cur = some { e' with idx := e'.idx + (if i.isLong then 2 else 1) } ∧
        u.squads = t.squads ∧ (∀ a, u.readByte a = t.readByte a))

/-- R149. Memory keeps its canonical form: whatever the state, a step from memories in canonical form leaves them so. -/
def Obligations.StepKeepsMemoryForm : Prop :=
  ∀ (s t : State), s.memWf = true → step s = .next t → t.memWf = true

/-- R55, R127, R129, R149, R312, R325. The machine after reset: memory is in canonical form, and reads zero before bring-up, which
is the model's choice (log 11); no squad, no launch, no block and no operation is resident and scratch reads zero, which is the
model's choice where no reset value is given (log 10); every link is down, the export window is disabled, every queue slot free,
every counter 0 (event, missed-deadline, pin-overflow, figure-drop, dead-letter, authentication-failure and invocation counters)
and the module in bring-up. -/
def Obligations.ResetState : Prop :=
  let s := State.reset
  s.memWf = true ∧ (∀ a, s.readByte a = 0) ∧ s.squads = [] ∧ s.launches = [] ∧ s.blocks = [] ∧ s.loads = [] ∧ s.pod = [] ∧
  (∀ c, (s.core c).l1 = [] ∧ (s.core c).tlb = [] ∧ (s.core c).wcb = [] ∧ (s.core c).copies = [] ∧ (s.core c).tiles = [] ∧
    (s.core c).bindings = [] ∧ (s.core c).locks = [] ∧ (s.core c).epoch = 0 ∧ (s.core c).mogul = 0 ∧
    (∀ n, tabGet {} (s.core c).events n = { count := 0, source := 0, en := false }) ∧ (∀ y, tabGet 0 (s.core c).missed y = 0) ∧
    (∀ i, tabGet 0 (s.core c).scratch i = 0) ∧ (∀ i, tabGet 0 (s.core c).acc i = 0) ∧ ∀ i, tabGet 0 (s.core c).wb i = 0) ∧
  (∀ p r th, tabGet 0 (s.pair p).v (32 * r + th) = 0) ∧ (∀ p, (s.pair p).owner = none) ∧
  (∀ n, tabGet {} s.dieEvents n = { count := 0, source := 0, en := false }) ∧ (∀ n, tabGet 0 s.pinOverflow n = 0) ∧
  (∀ n, tabGet 0 s.sliceDrops n = 0 ∧ tabGet 0 s.channelDrops n = 0) ∧
  (∀ l, (s.link l).st = .down ∧ (s.link l).authFails = 0 ∧ (s.link l).tx0.count = 0 ∧ (s.link l).tx1.count = 0) ∧ s.window.enable = false ∧ (∀ n, (tabGet {} s.slots n).st = .free) ∧
  s.rotation = 0 ∧ s.deadLetter = 0 ∧ s.module.power = .bringup ∧ s.module.booted = false ∧
  (∀ c, (s.channel c).queue = [] ∧ (s.channel c).errCount = 0 ∧ (s.channel c).errors = [] ∧ (s.channel c).threshold = 8)

/-- R45. HALT: the opcode map lists it and the manual says nothing of what it does; the model stops there by name. -/
def Obligations.HaltStops : Prop :=
 ∀ s : State, exec .halt s = .refused .haltUndescribed

/-- R26, R67, R72. Each vector, branch and memory word, a line word's index register among them, FIG, GETID id.t, the named stores
and ARM, naming v32 to v63 as a source or destination, run by a squad that does not hold its pair lock, raises XSET at the word,
with the index of such a register in xaddr and none of its own effect. Which of several it reports is the model's choice (log 7). -/
def Obligations.ExtendedRegisters : Prop :=
  ∀ (s : State) (q : Nat) (sq : Squad) (e : Exec) (w f : BitVec 2) (v : BitVec 1) (g c u flag : BitVec 4)
    (n m x y : BitVec 1) (p : BitVec 7) (d a b slot : BitVec 6) (k : BitVec 5) (j r : BitVec 3) (lit : BitVec 32), s.current = some (q, sq, e) → s.holdsLock q sq = false →
    let raises (i : Instr) (rs : List Nat) : Prop :=
      (∃ r ∈ rs, 32 ≤ r) → ∃ r ∈ rs, 32 ≤ r ∧ exec i s = .next (s.trapWord q sq e 2 (BitVec.ofNat 64 r) 0)
    let three : List Nat := a.toNat :: d.toNat :: (if m = 0 then [b.toNat] else [])
    (∀ row ∈ arithmeticRows (widthOf w), raises (row.1 w g n m d a b) three) ∧
    (∀ row ∈ logicRows, raises (row.1 g n m d a b) three) ∧
    (∀ row ∈ compareRows (widthOf w), raises (row.1 w g n p a b) [a.toNat, b.toNat]) ∧
    (∀ row ∈ roundingRows .f32, raises (row.1 f g n m d a b) three) ∧
    (∀ row ∈ specialRows, raises (row.1 f g n d a) [a.toNat, d.toNat]) ∧
    (∀ i ∈ [Instr.sel g n m d a b, .bfxN g n m d a b, .bfxI g n m d a b, .bfi g n m d a b, .rot g n m d a b, .fmin f g n m d a b,
      .fmax f g n m d a b], raises i three) ∧
    (∀ i ∈ [Instr.abs w g n d a, .not g n d a, .popc g n d a, .clz g n d a, .ctz g n d a, .brev g n d a, .fabs f g n d a, .fneg f g n d a,
      .cvt c g n d a u r, .cvtSat c g n d a u r, .xread g n p d a k j w, .xbcast g n p d a k], raises i [a.toNat, d.toNat]) ∧
    raises (.xshuf g n p d a b) [a.toNat, b.toNat, d.toNat] ∧ raises (.mov g n m d b) (d.toNat :: (if m = 0 then [b.toNat] else [])) ∧
    (∀ i ∈ [Instr.movl g n m d lit, .getid g n d 0], raises i [d.toNat]) ∧ (∀ i ∈ [Instr.brx g n a, .ret g n a], raises i [a.toNat]) ∧
    (∀ row ∈ floatCompareRows (fpFmt f), raises (row.1 f g n p a b) [a.toNat, b.toNat]) ∧
    (∀ row ∈ reductionRows (widthOf w), raises (row.1 w g n d a b) [a.toNat]) ∧
    (∀ i ∈ [Instr.redand g n d a b, .redor g n d a b, .redfadd g n d a b, .redfmax g n d a b], raises i [a.toNat]) ∧
    (∀ i ∈ [Instr.ldp w g n d a x b, .stp w g n d a x b, .fig g n d a x b slot flag y], raises i (d.toNat :: regsX x b)) ∧
    (∀ row ∈ scanRows (widthOf w), raises (row.1 w g n d a b) [a.toNat, d.toNat]) ∧
    (∀ row ∈ accessRows w v g n a d x b, raises row.1 row.2.2) ∧
    (∀ i ∈ [Instr.pref g n a x b, .reqpage g n a x b, .l1inv g n a x b], raises i (regsX x b)) ∧
    (∀ i ∈ [Instr.stn g n d a b, .stnRel g n d a b, .stnF g n d a b c], raises i [a.toNat, d.toNat]) ∧
    (32 ≤ d.toNat → ∀ c : BitVec 6, exec (.arm d c) s = .next (s.trapWord q sq e 2 (BitVec.ofNat 64 d.toNat) 0))

/-- R81, R82. The typed integer words of two sources write, in every thread still in the clause, the sub-elements that the guard
enables, each from the sub-elements of a and b read before the word; nothing else of the squad's registers changes. R81. ABS
writes the absolute value of the signed sub-element, mod 2^W. -/
def Obligations.IntegerArithmetic : Prop :=
  (∀ (s : State) (q : Nat) (sq : Squad) (e : Exec) (w : BitVec 2) (g : BitVec 4) (n m : BitVec 1) (d a b : BitVec 6),
    s.current = some (q, sq, e) → s.mayName q sq (a.toNat :: regsB m b ++ [d.toNat]) →
    ∀ row ∈ arithmeticRows (widthOf w), ∃ t sq', exec (row.1 w g n m d a b) s = .next t ∧
      VecRan s t q sq sq' d.toNat (sq.activeE e g n (widthOf w) (64 / widthOf w)).length ∧
      ∀ th < 32, ∀ j < 64 / widthOf w, (subGet (widthOf w) (t.readV sq' d.toNat th) j : Int) =
        if sq.elementOn e g n (widthOf w) th j then
          row.2 (subGet (widthOf w) (s.readV sq a.toNat th) j) (subGet (widthOf w) (s.srcB sq m b th) j)
        else subGet (widthOf w) (s.readV sq d.toNat th) j) ∧
  (∀ (s : State) (q : Nat) (sq : Squad) (e : Exec) (w : BitVec 2) (g : BitVec 4) (n : BitVec 1) (d a : BitVec 6),
    s.current = some (q, sq, e) → s.mayName q sq [a.toNat, d.toNat] →
    ∃ t sq', exec (.abs w g n d a) s = .next t ∧
      VecRan s t q sq sq' d.toNat (sq.activeE e g n (widthOf w) (64 / widthOf w)).length ∧
      ∀ th < 32, ∀ j < 64 / widthOf w, (subGet (widthOf w) (t.readV sq' d.toNat th) j : Int) =
        if sq.elementOn e g n (widthOf w) th j then
          ((sx (widthOf w) (subGet (widthOf w) (s.readV sq a.toNat th) j)).natAbs : Int) % 2 ^ widthOf w
        else subGet (widthOf w) (s.readV sq d.toNat th) j)

/-- R84, R85. AND, OR, XOR, ANDN, NOT and MOV write the enabled bytes of d bit by bit; SEL writes every byte of every thread still
in the clause, from a where the selector's bit is on and from b elsewhere. R82, R83, R84. ROT, POPC, CLZ, CTZ, BREV, the bit-field
words and MOVL act on one 64-bit sub-element, in the threads still in the clause whose guard has bit 0 on. -/
def Obligations.LogicAndBitFields : Prop :=
  (∀ (s : State) (q : Nat) (sq : Squad) (e : Exec) (g : BitVec 4) (n m : BitVec 1) (d a b : BitVec 6),
    s.current = some (q, sq, e) → s.mayName q sq (a.toNat :: regsB m b ++ [d.toNat]) →
    (∀ row ∈ logicRows, ∃ t sq', exec (row.1 g n m d a b) s = .next t ∧
      VecRan s t q sq sq' d.toNat (sq.activeE e g n 8 8).length ∧
      ∀ th < 32, ∀ i < 64, (t.readV sq' d.toNat th).getLsbD i =
        if sq.elementOn e g n 8 th (i / 8) then row.2 ((s.readV sq a.toNat th).getLsbD i) ((s.srcB sq m b th).getLsbD i)
        else (s.readV sq d.toNat th).getLsbD i) ∧
    (∃ t sq', exec (.not g n d a) s = .next t ∧ VecRan s t q sq sq' d.toNat (sq.activeE e g n 8 8).length ∧
      ∀ th < 32, ∀ i < 64, (t.readV sq' d.toNat th).getLsbD i =
        if sq.elementOn e g n 8 th (i / 8) then !(s.readV sq a.toNat th).getLsbD i else (s.readV sq d.toNat th).getLsbD i) ∧
    (∃ t sq', exec (.mov g n m d b) s = .next t ∧ VecRan s t q sq sq' d.toNat (sq.activeE e g n 8 8).length ∧
      ∀ th < 32, ∀ i < 64, (t.readV sq' d.toNat th).getLsbD i =
        if sq.elementOn e g n 8 th (i / 8) then (s.srcB sq m b th).getLsbD i else (s.readV sq d.toNat th).getLsbD i) ∧
    ∃ t sq', exec (.sel g n m d a b) s = .next t ∧ VecRan s t q sq sq' d.toNat (maskThreads e.mask).length ∧
      ∀ th < 32, ∀ i < 64, (t.readV sq' d.toNat th).getLsbD i =
        if inMask e.mask th then
          (if (sq.guard g n th).getLsbD (i / 8) then (s.readV sq a.toNat th).getLsbD i else (s.srcB sq m b th).getLsbD i)
        else (s.readV sq d.toNat th).getLsbD i) ∧
  (∀ (s : State) (q : Nat) (sq : Squad) (e : Exec) (g : BitVec 4) (n m : BitVec 1) (d a b : BitVec 6) (lit : BitVec 32),
    s.current = some (q, sq, e) → s.mayName q sq (a.toNat :: regsB m b ++ [d.toNat]) →
    let writes (i : Instr) (val : Nat → Reg → Prop) : Prop :=
      ∃ t sq', exec i s = .next t ∧ VecRan s t q sq sq' d.toNat (sq.activeE e g n 64 1).length ∧
        ∀ th < 32, if sq.elementOn e g n 64 th 0 then val th (t.readV sq' d.toNat th)
          else t.readV sq' d.toNat th = s.readV sq d.toNat th
    let A (th : Nat) : Reg := s.readV sq a.toNat th
    let B (th : Nat) : Reg := s.srcB sq m b th
    let D (th : Nat) : Reg := s.readV sq d.toNat th
    writes (.rot g n m d a b) (fun th r => r = (A th).rotateLeft ((B th).extractLsb' 0 6).toNat) ∧
    writes (.popc g n d a) (fun th r => r.toNat = ((List.range 64).filter (fun i => (A th).getLsbD i)).length) ∧
    writes (.clz g n d a) (fun th r => if A th = 0 then r = 64 else
      r.toNat < 64 ∧ (A th).getLsbD (63 - r.toNat) ∧ ∀ i < 64, 63 - r.toNat < i → (A th).getLsbD i = false) ∧
    writes (.ctz g n d a) (fun th r => if A th = 0 then r = 64 else
      r.toNat < 64 ∧ (A th).getLsbD r.toNat ∧ ∀ i < r.toNat, (A th).getLsbD i = false) ∧
    writes (.brev g n d a) (fun th r => ∀ i < 64, r.getLsbD i = (A th).getLsbD (63 - i)) ∧
    writes (.bfxN g n m d a b) (fun th r => ∀ i < 64, r.getLsbD i =
      (decide (i < fieldLen (B th)) && (A th).getLsbD (fieldPos (B th) + i))) ∧
    writes (.bfxI g n m d a b) (fun th r => ∀ i < 64, r.getLsbD i =
      (decide (0 < fieldLen (B th)) && (A th).getLsbD (fieldPos (B th) + min i (fieldLen (B th) - 1)))) ∧
    writes (.bfi g n m d a b) (fun th r => ∀ i < 64, r.getLsbD i =
      if fieldPos (B th) ≤ i ∧ i < fieldPos (B th) + fieldLen (B th) then (A th).getLsbD (i - fieldPos (B th)) else (D th).getLsbD i) ∧
    writes (.movl g n m d lit) (fun _ r => r = if m = 1 then lit.zeroExtend 64 else lit.signExtend 64))

/-- R59, R86. A typed compare writes the result of each enabled sub-element into every bit of pd that covers it; p0 takes no
write. R87. Predicate logic writes bit k of pd, in a thread still in the clause, where bit k of the guard is on; p0 takes no
write. -/
def Obligations.PredicateWords : Prop :=
  (∀ (s : State) (q : Nat) (sq : Squad) (e : Exec) (w : BitVec 2) (g : BitVec 4) (n : BitVec 1) (p : BitVec 7) (a b : BitVec 6),
    s.current = some (q, sq, e) → s.mayName q sq [a.toNat, b.toNat] →
    ∀ row ∈ compareRows (widthOf w), ∃ t sq', exec (row.1 w g n p a b) s = .next t ∧
      PredRan s t q sq sq' p.toNat (sq.activeE e g n (widthOf w) (64 / widthOf w)).length ∧
      ∀ th < 32, ∀ i < 8, (sq'.readP p.toNat th).getLsbD i =
        if p ≠ 0 ∧ sq.elementOn e g n (widthOf w) th (8 * i / widthOf w) then
          row.2 (subGet (widthOf w) (s.readV sq a.toNat th) (8 * i / widthOf w))
            (subGet (widthOf w) (s.readV sq b.toNat th) (8 * i / widthOf w))
        else (sq.readP p.toNat th).getLsbD i) ∧
  (∀ (s : State) (q : Nat) (sq : Squad) (e : Exec) (g : BitVec 4) (n : BitVec 1) (p : BitVec 7) (a b : BitVec 6),
    s.current = some (q, sq, e) →
    let writes (i : Instr) (bit : Nat → Nat → Bool) : Prop :=
      ∃ t sq', exec i s = .next t ∧ PredRan s t q sq sq' p.toNat (sq.activeE e g n 8 8).length ∧
        ∀ th < 32, ∀ k < 8, (sq'.readP p.toNat th).getLsbD k =
          if p ≠ 0 ∧ sq.elementOn e g n 8 th k then bit th k else (sq.readP p.toNat th).getLsbD k
    (∀ row ∈ predicateRows, writes (row.1 g n p a b)
      (fun th k => row.2 ((sq.readP a.toNat th).getLsbD k) ((sq.readP b.toNat th).getLsbD k))) ∧
    writes (.pnot g n p a) (fun th k => !(sq.readP a.toNat th).getLsbD k))

/-- R58, R82, R88. A scalar word computes once on 64-bit values, whatever threads are in the clause, and costs one clock; a write
to s0 is ignored. R89. The scalar compares write 0xFF or 0x00 into pd in all 32 threads, in the clause or not; p0 takes no write. -/
def Obligations.ScalarWords : Prop :=
  (∀ (s : State) (q : Nat) (sq : Squad) (e : Exec) (d a b : BitVec 6) (m : BitVec 1) (lit : BitVec 32), s.current = some (q, sq, e) →
    (∀ row ∈ scalarRows, ∃ t sq', exec (row.1 d a b) s = .next t ∧ ScalarRan s t q sq sq' d.toNat ∧
      sq'.readS d.toNat = if d = 0 then 0 else row.2 (sq.readS a.toNat) (sq.readS b.toNat)) ∧
    ∃ t sq', exec (.movlScalar m d lit) s = .next t ∧ ScalarRan s t q sq sq' d.toNat ∧
      sq'.readS d.toNat = if d = 0 then 0 else if m = 1 then lit.zeroExtend 64 else lit.signExtend 64) ∧
  (∀ (s : State) (q : Nat) (sq : Squad) (e : Exec) (p : BitVec 7) (a b : BitVec 6), s.current = some (q, sq, e) →
    let writes (i : Instr) (c : Bool) : Prop :=
      ∃ t sq', exec i s = .next t ∧ PredRan s t q sq sq' p.toNat 1 ∧
        ∀ th < 32, sq'.readP p.toNat th = if p = 0 then 0xFF else if c then 0xFF else 0x00
    writes (.cmpeqScalar p a b) (decide (sq.readS a.toNat = sq.readS b.toNat)) ∧
    writes (.cmpltScalar p a b) (decide ((sq.readS a.toNat).toInt < (sq.readS b.toNat).toInt)))

/-- R107, R110. FADD, FSUB, FMUL and FMA write each enabled sub-element, rounded by the mode word; under RS each written
sub-element first advances its thread's generator, in ascending order, and under no other mode does the generator move. R103,
R106, R107, R109, R110. The values of the four rounding operations. A NaN operand, infinities of opposite sign in a sum and an
infinity times zero give the canonical NaN; another infinity gives an infinity. A finite result is the exact one rounded once by
the mode, RS by its generator word g, and overflows as the mode has it; the product and the sum of FMA round together. An exact
zero sum keeps the sign that both of its zeros have, and else is +0, or -0 under RDN; a zero product has the sign of its operands
together. -/
def Obligations.FloatArithmetic : Prop :=
  (∀ (s : State) (q : Nat) (sq : Squad) (e : Exec) (f : BitVec 2) (g : BitVec 4) (n m : BitVec 1) (d a b : BitVec 6),
    fpFormatOk f = true → s.current = some (q, sq, e) → s.mayName q sq (a.toNat :: regsB m b ++ [d.toNat]) →
    let F := fpFmt f
    let W := F.width
    let rs := decide (sq.rm = .rs)
    ∀ row ∈ roundingRows F, ∃ t sq', exec (row.1 f g n m d a b) s = .next t ∧
      RegRan s t q sq sq' [d.toNat] [] [] rs (sq.activeE e g n W (64 / W)).length ∧
      ∀ th < 32,
        (∀ j < 64 / W, subGet W (t.readV sq' d.toNat th) j =
          if sq.elementOn e g n W th j then
            row.2 sq.rm (subGet W (s.readV sq a.toNat th) j) (subGet W (s.srcB sq m b th) j) (subGet W (s.readV sq d.toNat th) j)
              (genSteps (if rs then enabledBelow W (sq.guard g n th) (j + 1) else 0) (sq.readGen th))
          else subGet W (s.readV sq d.toNat th) j) ∧
        sq'.readGen th = if inMask e.mask th then
          genSteps (if rs then enabledBelow W (sq.guard g n th) (64 / W) else 0) (sq.readGen th) else sq.readGen th) ∧
  (∀ (f : Fmt) (mode : RMode) (g : Word) (a b d : Nat), f ∈ [Fmt.f32, .f16, .bf16] →
    a < 2 ^ f.width → b < 2 ^ f.width → d < 2 ^ f.width →
    let half := 2 ^ (f.width - 1)
    let one : Int := 2 ^ f.places
    let neg (w : Nat) : Bool := decide (half ≤ w)
    let signed (n : Bool) (x : Nat) : Nat := if n then half + x else x
    let infinite (w : Nat) : Prop := w % half = f.beyond
    let nan (w : Nat) : Prop := f.beyond < w % half
    let zero (w : Nat) : Prop := f.units w = some 0
    let flip (w : Nat) : Nat := (w + half) % (2 * half)
    let exactly (v : Int) (den : Nat) (zeros sign : Bool) (r : Nat) : Prop :=
      (v ≠ 0 → f.Delivers mode false (decide (v < 0)) v.natAbs den g r) ∧
      (v = 0 → r = signed (if zeros then sign else decide (mode = .rdn)) 0)
    let sum (a b r : Nat) : Prop :=
      ((nan a ∨ nan b ∨ (infinite a ∧ infinite b ∧ neg a ≠ neg b)) → r = f.quiet) ∧
      (infinite a → ¬ nan b → (infinite b → neg a = neg b) → r = signed (neg a) f.beyond) ∧
      (infinite b → ¬ nan a → (infinite a → neg a = neg b) → r = signed (neg b) f.beyond) ∧
      ∀ x y, f.units a = some x → f.units b = some y → exactly (x + y) 1 (decide (x = 0) && neg a == neg b) (neg a) r
    let product : Bool := neg a != neg b
    sum a b (fadd f mode a b g) ∧ sum a (flip b) (fsub f mode a b g) ∧
    (let r := fmul f mode a b g
     ((nan a ∨ nan b ∨ (infinite a ∧ zero b) ∨ (zero a ∧ infinite b)) → r = f.quiet) ∧
     ((infinite a ∧ ¬ nan b ∧ ¬ zero b ∨ infinite b ∧ ¬ nan a ∧ ¬ zero a) → r = signed product f.beyond) ∧
     ∀ x y, f.units a = some x → f.units b = some y → f.Delivers mode false product (x * y).natAbs (2 ^ f.places) g r) ∧
    let r := fma f mode a b d g
    let huge : Prop := infinite a ∧ ¬ nan b ∧ ¬ zero b ∨ infinite b ∧ ¬ nan a ∧ ¬ zero a
    ((nan a ∨ nan b ∨ nan d ∨ (infinite a ∧ zero b) ∨ (zero a ∧ infinite b) ∨ (huge ∧ infinite d ∧ product ≠ neg d)) → r = f.quiet) ∧
    (huge → ¬ nan d → (infinite d → product = neg d) → r = signed product f.beyond) ∧
    (∀ x y, f.units a = some x → f.units b = some y → infinite d → r = signed (neg d) f.beyond) ∧
    ∀ x y z, f.units a = some x → f.units b = some y → f.units d = some z →
      exactly (x * y + z * one) (2 ^ f.places) (decide (x * y = 0 ∧ z = 0) && product == neg d) (neg d) r)

/-- R109, R110. FMIN and FMAX choose an operand, FABS and FNEG change the sign bit only; none of them rounds or moves a generator.
R86, R111. The floating-point compares write their result into every bit of pd that covers an enabled sub-element. -/
def Obligations.FloatOrder : Prop :=
  (∀ (s : State) (q : Nat) (sq : Squad) (e : Exec) (f : BitVec 2) (g : BitVec 4) (n m : BitVec 1) (d a b : BitVec 6),
    fpFormatOk f = true → s.current = some (q, sq, e) → s.mayName q sq (a.toNat :: regsB m b ++ [d.toNat]) →
    let F := fpFmt f
    let W := F.width
    let writes (i : Instr) (val : Nat → Nat → Nat) : Prop :=
      ∃ t sq', exec i s = .next t ∧ VecRan s t q sq sq' d.toNat (sq.activeE e g n W (64 / W)).length ∧
        ∀ th < 32, ∀ j < 64 / W, subGet W (t.readV sq' d.toNat th) j =
          if sq.elementOn e g n W th j then val th j else subGet W (s.readV sq d.toNat th) j
    let A (th j : Nat) : Nat := subGet W (s.readV sq a.toNat th) j
    let B (th j : Nat) : Nat := subGet W (s.srcB sq m b th) j
    writes (.fmin f g n m d a b) (fun th j => F.lesser (A th j) (B th j)) ∧
    writes (.fmax f g n m d a b) (fun th j => F.greater (A th j) (B th j)) ∧
    writes (.fabs f g n d a) (fun th j => A th j % 2 ^ (W - 1)) ∧
    writes (.fneg f g n d a) (fun th j => (A th j + 2 ^ (W - 1)) % 2 ^ W)) ∧
  (∀ (s : State) (q : Nat) (sq : Squad) (e : Exec) (f : BitVec 2) (g : BitVec 4) (n : BitVec 1) (p : BitVec 7) (a b : BitVec 6),
    fpFormatOk f = true → s.current = some (q, sq, e) → s.mayName q sq [a.toNat, b.toNat] →
    let F := fpFmt f
    let W := F.width
    ∀ row ∈ floatCompareRows F, ∃ t sq', exec (row.1 f g n p a b) s = .next t ∧
      PredRan s t q sq sq' p.toNat (sq.activeE e g n W (64 / W)).length ∧
      ∀ th < 32, ∀ i < 8, (sq'.readP p.toNat th).getLsbD i =
        if p ≠ 0 ∧ sq.elementOn e g n W th (8 * i / W) then
          row.2 (subGet W (s.readV sq a.toNat th) (8 * i / W)) (subGet W (s.readV sq b.toNat th) (8 * i / W))
        else (sq.readP p.toNat th).getLsbD i)

/-- R112, R116. CVT and CVT.SAT convert n = 64 / max of the widths elements of a thread, guarded by the byte in which a result
starts, keep the bits of d above them, and move the generator once for each written element under RS, unless both formats are
integers. R114. Conversions between integer formats: the value mod 2^W, or clamped to the type's range under SAT. Codes 7 to 11
are I4 to I64 and codes 12 to 15 are N8 to N64. R103, R106, R107, R113, R114, R115. What one element of a conversion from or to a
floating format is, code by code; g is its generator word after the advance. Into a floating format other than E8M0 a finite value
or an integer is rounded once and overflows as its mode has it, or saturates; an infinity stays one, or becomes the NaN of E4M3 or
6 of E2M1; a NaN keeps its sign. Into E8M0 a positive value is rounded to a power of two, a tie to the even code. Into an integer
format a value is rounded to an integer, and one that does not fit is clamped under SAT, else is 1 followed by zeros, or all ones
for an N type. -/
def Obligations.Conversions : Prop :=
  (∀ (s : State) (q : Nat) (sq : Squad) (e : Exec) (dst g : BitVec 4) (n : BitVec 1) (d a : BitVec 6) (src : BitVec 4)
    (r : BitVec 3) (sat : Bool), cvtOk dst src r = true → s.current = some (q, sq, e) → s.mayName q sq [a.toNat, d.toNat] →
    let mode := if r.toNat = 5 then sq.rm else rmodeOf r.toNat
    let rs := decide (mode = .rs) && cvtRounds dst.toNat src.toNat
    let wd := cvtWidth dst.toNat
    let ws := cvtWidth src.toNat
    let k := 64 / max ws wd
    ∃ t sq', exec (if sat then .cvtSat dst g n d a src r else .cvt dst g n d a src r) s = .next t ∧
      RegRan s t q sq sq' [d.toNat] [] [] rs (sq.activeE e g n wd k).length ∧
      ∀ th < 32,
        (∀ j < 64 / wd, subGet wd (t.readV sq' d.toNat th) j =
          if j < k ∧ sq.elementOn e g n wd th j then
            cvtElem dst.toNat src.toNat mode sat (subGet ws (s.readV sq a.toNat th) j)
              (genSteps (if rs then enabledBelow wd (sq.guard g n th) (j + 1) else 0) (sq.readGen th))
          else subGet wd (s.readV sq d.toNat th) j) ∧
        sq'.readGen th = if inMask e.mask th then
          genSteps (if rs then enabledBelow wd (sq.guard g n th) k else 0) (sq.readGen th) else sq.readGen th) ∧
  (∀ (dst src : BitVec 4) (mode : RMode) (w : Nat) (g : Word), 7 ≤ dst.toNat → 7 ≤ src.toNat → w < 2 ^ cvtWidth src.toNat →
    let signed (c : BitVec 4) : Bool := decide (c.toNat < 12)
    let W := cvtWidth dst.toNat
    let v : Int := if signed src then sx (cvtWidth src.toNat) w else w
    (cvtElem dst.toNat src.toNat mode false w g : Int) = v % 2 ^ W ∧
    (cvtElem dst.toNat src.toNat mode true w g : Int) =
      (if signed dst then clampSigned W v else clampUnsigned W v) % 2 ^ W) ∧
  (∀ (dst src : BitVec 4) (mode : RMode) (sat : Bool) (w : Nat) (g : Word), w < 2 ^ cvtWidth src.toNat →
    let r := cvtElem dst.toNat src.toNat mode sat w g
    let negative (s : Fmt) : Bool := decide (s ≠ .e8m0 ∧ 2 ^ (s.width - 1) ≤ w)
    let finite (neg : Bool) (num p : Nat) : Prop :=
      (∃ s v, (src.toNat, s) ∈ floatCodes ∧ s.units w = some v ∧ neg = negative s ∧ num = v.natAbs ∧ p = s.places) ∨
      (7 ≤ src.toNat ∧ p = 0 ∧ ∃ v : Int, v = (if src.toNat < 12 then sx (cvtWidth src.toNat) w else w) ∧ neg = decide (v < 0) ∧ num = v.natAbs)
    let infinite (neg : Bool) : Prop := ∃ s ∈ [Fmt.f32, .f16, .bf16, .e5m2], (src.toNat, s) ∈ floatCodes ∧
      w % 2 ^ (s.width - 1) = s.beyond ∧ neg = negative s
    let nan (neg : Bool) : Prop := ∃ s, (src.toNat, s) ∈ floatCodes ∧ s.units w = none ∧ neg = negative s ∧ ∀ n, ¬ infinite n
    (∀ f, (dst.toNat, f) ∈ floatCodes → f ≠ .e8m0 →
      let signed (neg : Bool) (x : Nat) : Nat := if neg then 2 ^ (f.width - 1) + x else x
      (∀ neg num p, finite neg num p → f.Delivers mode sat neg (num * 2 ^ f.places) (2 ^ p) g r) ∧
      (∀ neg, infinite neg → r = signed neg (if sat then f.top else f.beyond)) ∧
      (∀ neg, nan neg → r = if f = .e2m1 then 0 else signed neg f.quiet)) ∧
    (dst.toNat = 6 →
      (∀ neg num p, finite neg num p →
        ((neg = true ∨ num = 0) → r = if sat then 0x00 else 0xFF) ∧
        (neg = false → num ≠ 0 → ∃ t u, Between Fmt.e8m0.grid (num * 2 ^ 127) (2 ^ p) t u ∧
          let v := chosen mode false (decide (Nat.log2 t % 2 = 0)) (num * 2 ^ 127) (2 ^ p) t u g
          (v ≤ 2 ^ 254 → r ≤ 254 ∧ (v = 2 ^ r ∨ (v = 0 ∧ r = 0))) ∧
          (2 ^ 254 < v → r = if sat || mode == .rtz || mode == .rdn then 0xFE else 0xFF))) ∧
      (∀ neg, infinite neg → r = if neg then (if sat then 0x00 else 0xFF) else (if sat then 0xFE else 0xFF)) ∧
      ∀ neg, nan neg → r = 0xFF) ∧
    (7 ≤ dst.toNat → src.toNat < 7 →
      let W := cvtWidth dst.toNat
      let low : Int := if dst.toNat < 12 then -(2 ^ (W - 1)) else 0
      let high : Int := if dst.toNat < 12 then 2 ^ (W - 1) - 1 else 2 ^ W - 1
      let unfit : Int := if dst.toNat < 12 then 2 ^ (W - 1) else 2 ^ W - 1
      (∀ neg num p, finite neg num p → ∃ t, t * 2 ^ p ≤ num ∧ num < (t + 1) * 2 ^ p ∧
        let v := chosen mode neg (decide (t % 2 = 0)) num (2 ^ p) t (t + 1) g
        let k : Int := if neg then -(v : Int) else v
        (r : Int) = if low ≤ k ∧ k ≤ high then k % 2 ^ W else if sat then (if k < low then low else high) % 2 ^ W else unfit) ∧
      (∀ neg, infinite neg → (r : Int) = if sat then (if neg then low else high) % 2 ^ W else unfit) ∧
      ∀ neg, nan neg → (r : Int) = if sat then 0 else unfit))

/-- R119, R120. The special functions write each enabled sub-element and move no generator; a NaN gives the canonical NaN in every
format. `SpecialValues` says what they give. R119, R120. The results of RCP 0, RSQ 1, SQRT 2, EXP2 3, LOG2 4, SIN 5, COS 6 and
TANH 7 that are exact, or NaN, in the three formats, v standing for the operand in units of the format's smallest magnitude 2^-p;
and the bound of RCP, one ulp in F32 and half of one in F16 and BF16, and of SQRT, half an ulp in all three. Within its bound an
F32 result of the other seven is free (log 5); the bound of RSQ, EXP2, LOG2, SIN, COS and TANH is not stated here. -/
def Obligations.SpecialFunctions : Prop :=
  ((∀ (s : State) (q : Nat) (sq : Squad) (e : Exec) (f : BitVec 2) (g : BitVec 4) (n : BitVec 1) (d a : BitVec 6),
    fpFormatOk f = true → s.current = some (q, sq, e) → s.mayName q sq [a.toNat, d.toNat] →
    let F := fpFmt f
    let W := F.width
    ∀ row ∈ specialRows, ∃ t sq', exec (row.1 f g n d a) s = .next t ∧
      VecRan s t q sq sq' d.toNat (sq.activeE e g n W (64 / W)).length ∧
      ∀ th < 32, ∀ j < 64 / W, subGet W (t.readV sq' d.toNat th) j =
        if sq.elementOn e g n W th j then sfnResult F row.2 (subGet W (s.readV sq a.toNat th) j) % 2 ^ W
        else subGet W (s.readV sq d.toNat th) j) ∧
  (∀ f ∈ [Fmt.f32, .f16, .bf16], ∀ k < 8, ∀ w < 2 ^ f.width, f.nanPattern w = true → sfnResult f k w = f.quiet)) ∧
  (∀ f ∈ [Fmt.f32, .f16, .bf16], ∀ w < 2 ^ f.width,
    let p := f.places
    let r (k : Nat) : Nat := sfnResult f k w
    let minus : Nat := 2 ^ (f.width - 1)
    let neg : Bool := decide (minus ≤ w)
    let signed (x : Nat) : Nat := if neg then minus + x else x
    let inf := f.beyond
    let one := f.bias * 2 ^ f.man
    let ulp (n : Nat) : Nat := 2 ^ (max (Nat.log2 n) f.man - f.man)
    let nan (k : Nat) : Prop := r k = f.quiet
    -- y within half an ulp (h = 1) or one ulp (h = 2), each side doubled
    let h : Nat := if f = .f32 then 2 else 1
    (w % minus = inf → r 0 = signed 0 ∧ r 7 = signed one ∧ nan 5 ∧ nan 6 ∧
      (neg = false → r 1 = 0 ∧ r 2 = inf ∧ r 3 = inf ∧ r 4 = inf) ∧ (neg = true → nan 1 ∧ nan 2 ∧ r 3 = 0 ∧ nan 4)) ∧
    (w % minus = 0 → r 0 = signed inf ∧ r 1 = signed inf ∧ r 2 = w ∧ r 3 = one ∧ r 4 = minus + inf ∧ r 5 = w ∧ r 6 = one ∧ r 7 = w) ∧
    ∀ v : Int, f.units w = some v → v ≠ 0 →
      let a := v.natAbs
      let exact := 2 ^ (2 * p) / a
      (neg = true → nan 1 ∧ nan 2 ∧ nan 4) ∧
      ((∃ y : Nat, f.units (r 0) = some (if neg then -(y : Int) else y) ∧ 2 * y * a ≤ 2 * 2 ^ (2 * p) + h * ulp exact * a ∧
          2 * 2 ^ (2 * p) ≤ 2 * y * a + h * ulp exact * a ∧ (a ∣ 2 ^ (2 * p) → y = exact)) ∨
        (r 0 = signed inf ∧ ∀ top : Int, f.units f.top = some top → top < exact + ulp exact)) ∧
      (neg = false →
        (∀ n : Nat, n * n * a = 2 ^ (3 * p) → f.units (r 1) = some (n : Int)) ∧
        (∃ y : Nat, f.units (r 2) = some (y : Int) ∧ let u := ulp (Nat.sqrt (a * 2 ^ p))
          (2 * y - u) ^ 2 ≤ 4 * (a * 2 ^ p) ∧ 4 * (a * 2 ^ p) ≤ (2 * y + u) ^ 2 ∧ ∀ n, n * n = a * 2 ^ p → y = n) ∧
        ∀ n : Nat, a = 2 ^ n → f.units (r 4) = some (((n : Int) - p) * 2 ^ p)) ∧
      (∀ n : Int, v = n * 2 ^ p →
        (-(p : Int) ≤ n → n ≤ f.bias → f.units (r 3) = some (2 ^ (n + p).toNat)) ∧ (n < -(p : Int) → r 3 = 0) ∧ (f.bias < n → r 3 = inf) ∧
        r 5 = signed 0 ∧ r 6 = if n % 2 = 0 then one else minus + one) ∧
      (∀ n : Int, 2 * v = (2 * n + 1) * 2 ^ p → r 5 = (if n % 2 = 0 then one else minus + one) ∧ r 6 = 0) ∧
      (10 * 2 ^ p ≤ a → r 7 = signed one))

/-- R29, R90, R91. In each enabled thread a cross-thread read takes the value of the named thread, and pd 0xFF, when that thread
is enabled too; else the thread's own value, and pd 0x00. Threads that are not enabled keep both; p0 takes no write. -/
def Obligations.CrossThreadReads : Prop :=
  ∀ (s : State) (q : Nat) (sq : Squad) (e : Exec) (g : BitVec 4) (n : BitVec 1) (p : BitVec 7) (d a x : BitVec 6)
    (k : BitVec 5) (j : BitVec 3) (w : BitVec 2),
    s.current = some (q, sq, e) → s.mayName q sq [a.toNat, x.toNat, d.toNat] →
    let reads (i : Instr) (named : Nat → Nat) (recv : Nat → Reg → Prop) : Prop :=
      ∃ t sq', exec i s = .next t ∧ RegRan s t q sq sq' [d.toNat] [p.toNat] [] false (sq.activeT e g n).length ∧
        ∀ th < 32,
          (if sq.enabledT e g n th then
            (if sq.enabledT e g n (named th) then recv (named th) (t.readV sq' d.toNat th)
              else t.readV sq' d.toNat th = s.readV sq a.toNat th)
            else t.readV sq' d.toNat th = s.readV sq d.toNat th) ∧
          sq'.readP p.toNat th =
            if p ≠ 0 ∧ sq.enabledT e g n th then (if sq.enabledT e g n (named th) then 0xFF else 0x00) else sq.readP p.toNat th
    (j.toNat < 64 / widthOf w → reads (.xread g n p d a k j w) (fun _ => k.toNat) (fun m r =>
      ∀ i < 64 / widthOf w, subGet (widthOf w) r i = subGet (widthOf w) (s.readV sq a.toNat m) j.toNat)) ∧
    reads (.xshuf g n p d a x) (fun th => (s.readV sq x.toNat th).toNat % 32) (fun m r => r = s.readV sq a.toNat m) ∧
    reads (.xbcast g n p d a k) (fun _ => k.toNat) (fun m r => r = s.readV sq a.toNat m)

/-- R92, R93, R117. A reduction combines, sub-element by sub-element, the values of the enabled threads into scalar d, and writes
into predicate b of all 32 threads whether any thread was enabled; with none it writes the operation's identity. The F32
operations combine in ascending thread order, the first value taken unchanged. R92, R93. A scan writes into each enabled thread's
d the combination of the values of the enabled threads up to it. -/
def Obligations.ReductionsAndScans : Prop :=
  (∀ (s : State) (q : Nat) (sq : Squad) (e : Exec) (w : BitVec 2) (g : BitVec 4) (n : BitVec 1) (d a b : BitVec 6),
    s.current = some (q, sq, e) → s.mayName q sq [a.toNat] →
    let reduces (i : Instr) (W : Nat) (val : List Nat → Nat → Prop) : Prop :=
      ∃ t sq', exec i s = .next t ∧ RegRan s t q sq sq' [] [b.toNat] [d.toNat] false (sq.activeT e g n).length ∧
        (d ≠ 0 → ∀ j < 64 / W,
          val ((sq.activeT e g n).map (fun th => subGet W (s.readV sq a.toNat th) j)) (subGet W (sq'.readS d.toNat) j)) ∧
        ∀ th < 32, sq'.readP b.toNat th = if b = 0 then 0xFF else if sq.activeT e g n = [] then 0x00 else 0xFF
    (∀ row ∈ reductionRows (widthOf w), reduces (row.1 w g n d a b) (widthOf w) row.2) ∧
    reduces (.redand g n d a b) 64 (fun L r => ∀ i < 64, r.testBit i = L.all (fun x => x.testBit i)) ∧
    reduces (.redor g n d a b) 64 (fun L r => ∀ i < 64, r.testBit i = L.any (fun x => x.testBit i)) ∧
    reduces (.redfadd g n d a b) 32 (fun L r => match L with
      | [] => r = 0x80000000
      | x :: more => r = more.foldl (fun acc y => fadd .f32 .rne acc y 0) x) ∧
    reduces (.redfmax g n d a b) 32 (fun L r => match L with
      | [] => r = 0xFF800000
      | x :: more => r = more.foldl Fmt.f32.greater x)) ∧
  (∀ (s : State) (q : Nat) (sq : Squad) (e : Exec) (w : BitVec 2) (g : BitVec 4) (n : BitVec 1) (d a b : BitVec 6),
    s.current = some (q, sq, e) → s.mayName q sq [a.toNat, d.toNat] →
    ∀ row ∈ scanRows (widthOf w), ∃ t sq', exec (row.1 w g n d a b) s = .next t ∧
      RegRan s t q sq sq' [d.toNat] [b.toNat] [] false (sq.activeT e g n).length ∧
      (∀ th < 32, if sq.enabledT e g n th then
        ∀ j < 64 / widthOf w, row.2
          (((List.range (th + 1)).filter (sq.enabledT e g n)).map (fun u => subGet (widthOf w) (s.readV sq a.toNat u) j))
          (subGet (widthOf w) (t.readV sq' d.toNat th) j)
        else t.readV sq' d.toNat th = s.readV sq d.toNat th) ∧
      ∀ th < 32, sq'.readP b.toNat th = if b = 0 then 0xFF else if sq.activeT e g n = [] then 0x00 else 0xFF)

/-- R30, R131, R155, R157, R160, R164, R168. An access whose guard enables no thread changes nothing and costs one clock; one
whose elements are not all aligned raises ILLEGAL, detail 1, at the lowest-numbered thread's, and nothing is performed: an
M-format access, GLOBAL, SCRATCH, REG or ACC, a POD access, a scalar one and a record. An aligned POD access of an address at or
beyond 2^60 raises PROT, detail 6. R157, R160, R168, R223, R224. A GLOBAL access, of threads, of a scalar, of GRAB or of a FIG,
some element of which lies beyond 2^56, at a HOST page for an atomic or a figure, or in a page that is malformed or lacks a
permission, raises PROT at the lowest-numbered such thread, with the detail of the first condition that it fails; failing none, a
write of a DET-shared page outside a commit section raises DETSHARE; failing none, an absent page parks the squad. Nothing is
performed beside the walks that its misses start, each counted. R57, R151, R157, R162, R163, R189. An aligned SCRATCH or ACC
access some element of which ends beyond its block's allocation, or lies at or beyond 0x80_0000 of the accumulator store, raises
SBOUND at the lowest-numbered such thread's address; failing none, one that writes a byte of an engine's source, or reaches a byte
of its destination, raises BINDING, detail 0, at the lowest such byte of the lowest-numbered such thread. An LDR or STR of a
register 32 to 63 without the pair lock raises XSET with that register; failing none, one at or beyond 0x4000 raises SBOUND.
Nothing is performed. -/
def Obligations.AccessChecks : Prop :=
  (∀ (s : State) (q : Nat) (sq : Squad) (e : Exec) (w : BitVec 2) (v : BitVec 1) (g : BitVec 4) (n : BitVec 1) (t b : BitVec 6)
    (x : BitVec 1) (o : BitVec 6), s.current = some (q, sq, e) →
    let pod (size : Nat) : List (Nat × Nat) := (sq.activeT e g n).map (fun th => (th, s.addrPod sq b.toNat x.toNat o size th))
    let idle (i : Instr) : Prop := ∃ t', exec i s = .next t' ∧ WordRan s t' q sq sq 1 ∧ t'.pairs = s.pairs
    let first (i : Instr) (els : List (Nat × Nat)) (bad : Nat × Nat → Prop) (cause detail : Nat) : Prop :=
      ∀ before l after, els = before ++ l :: after → (∀ m ∈ before, ¬ bad m) → bad l →
        exec i s = .next (s.trapWord q sq e cause (BitVec.ofNat 64 l.2) detail)
    let aligned (i : Instr) (els : List (Nat × Nat)) (size : Nat) : Prop := first i els (fun l => l.2 % size ≠ 0) 1 1
    (∀ row ∈ accessRows w v g n t b x o, s.mayName q sq row.2.2 →
      let els := s.elementsM sq e g n b x o row.2.1
      (els = [] → idle row.1) ∧ aligned row.1 els row.2.1) ∧
    (s.mayName q sq (t.toNat :: regsX x o) → ∀ i ∈ [Instr.ldp w g n t b x o, .stp w g n t b x o],
      let els := pod (2 ^ w.toNat)
      (els = [] → idle i) ∧ aligned i els (2 ^ w.toNat) ∧
      ((∀ l ∈ els, l.2 % 2 ^ w.toNat = 0) → first i els (fun l => 2 ^ 60 ≤ l.2) 9 6)) ∧
    (∀ i ∈ [Instr.ldgScalar t b o, .stgScalar t b o, .ldsScalar t b o, .stsScalar t b o], aligned i [(0, sq.addrScalar b.toNat o 8)] 8) ∧
    aligned (.atomgGrab t b o) [(0, sq.addrScalar b.toNat o 16)] 16 ∧
    ∀ (k : BitVec 6) (f : BitVec 4) (y : BitVec 1), s.mayName q sq (t.toNat :: regsX x o) →
      let fl := (tabGet 0 (s.core sq.core).summary k.toNat).toNat
      let els := if figPod fl then pod (figBytes fl) else s.elementsM sq e g n b x o (figBytes fl)
      figValid fl = true → (s.core sq.core).busy.getLsbD k.toNat = false → aligned (.fig g n t b x o k f y) els (figBytes fl) ∧
        (figPod fl = true → (∀ l ∈ els, l.2 % figBytes fl = 0) → first (.fig g n t b x o k f y) els (fun l => 2 ^ 60 ≤ l.2) 9 6)) ∧
  (∀ (s : State) (q : Nat) (sq : Squad) (e : Exec) (w : BitVec 2) (v : BitVec 1) (g : BitVec 4) (n : BitVec 1) (t b : BitVec 6)
    (x : BitVec 1) (o : BitVec 6), s.current = some (q, sq, e) →
    let checks (i : Instr) (size : Nat) (need : Need) (els : List (Nat × Nat)) : Prop :=
      let tr (l : Nat × Nat) : WalkResult := s.translateIn sq.core (s.regionOf sq) l.2
      els ≠ [] → (∀ l ∈ els, l.2 % size = 0) →
      ∃ ws, let s1 := s.withWalks sq.core ws
        (∀ before l after d, els = before ++ l :: after → (∀ m ∈ before, ∀ c, ¬ FailsWith need m.2 (tr m) c) → FailsWith need l.2 (tr l) d →
          exec i s = .next (s1.trapWord q sq e 9 (BitVec.ofNat 64 l.2) d)) ∧
        ((∀ l ∈ els, ∀ c, ¬ FailsWith need l.2 (tr l) c) →
          (∀ before l after, els = before ++ l :: after → need.writes = true → s.inSection sq = false →
            (∀ m ∈ before, (tr m).pageIs Page.det = false) → (tr l).pageIs Page.det = true →
            exec i s = .next (s1.trapWord q sq e 5 (BitVec.ofNat 64 l.2) 0)) ∧
          ((need.writes = true → s.inSection sq = false → ∀ l ∈ els, (tr l).pageIs Page.det = false) →
            (∃ l ∈ els, tr l = .absent) →
            ∃ pages, (∀ p, p ∈ pages ↔ ∃ l ∈ els, tr l = .absent ∧ p = l.2 / 4096) ∧ pages.Nodup ∧
              exec i s = .next (s1.parkWord q sq e pages need.kinds)))
    let one := t.toNat :: regsX x o
    let size := 4 * 2 ^ v.toNat
    let both : Need := { r := true, w := true, hbm := true }
    let fl (k : BitVec 6) : Nat := (tabGet 0 (s.core sq.core).summary k.toNat).toNat
    (∀ row ∈ ([(.ldgN w g n t b x o, 2 ^ w.toNat, { r := true }, one), (.ldgI w g n t b x o, 2 ^ w.toNat, { r := true }, one),
        (.stg w g n t b x o, 2 ^ w.toNat, { w := true }, one), (.atomgAddBf16x2 g n t b x o, 4, both, one), (.atomgAddF32 g n t b x o, 4, both, one),
        (.atomgCas v g n t b x o, size, both, t.toNat :: (t.toNat + 1) :: regsX x o)] : List (Instr × Nat × Need × List Nat)) ++
        (atomicRows (8 * size)).map (fun c => (c.1 v g n t b x o, size, both, one)),
      s.mayName q sq row.2.2.2 → checks row.1 row.2.1 row.2.2.1 (s.elementsM sq e g n b x o row.2.1)) ∧
    checks (.ldgScalar t b o) 8 { r := true } [(0, sq.addrScalar b.toNat o 8)] ∧
    checks (.stgScalar t b o) 8 { w := true } [(0, sq.addrScalar b.toNat o 8)] ∧
    ((s.regionOf sq).det = false → checks (.atomgGrab t b o) 16 both [(0, sq.addrScalar b.toNat o 16)]) ∧
    ∀ (k : BitVec 6) (f : BitVec 4) (y : BitVec 1), s.mayName q sq one → figValid (fl k) = true → figPod (fl k) = false →
      (s.core sq.core).busy.getLsbD k.toNat = false →
      checks (.fig g n t b x o k f y) (figBytes (fl k)) { f := true, hbm := true } (s.elementsM sq e g n b x o (figBytes (fl k)))) ∧
  (∀ (s : State) (q : Nat) (sq : Squad) (e : Exec) (w : BitVec 2) (v : BitVec 1) (g : BitVec 4) (n : BitVec 1) (t b : BitVec 6)
    (x : BitVec 1) (o : BitVec 6), s.current = some (q, sq, e) →
    let k := s.core sq.core
    let blk := s.block sq.blockOf
    let bound (acc write : Bool) (a : Nat) : Prop := ∃ y ∈ k.bindings, y.acc = acc ∧ (y.excl = true ∨ write = true) ∧ y.lo ≤ a ∧ a ≤ y.hi
    let checks (i : Instr) (size : Nat) (els : List (Nat × Nat)) (acc write : Bool) : Prop :=
      let limit := if acc then 0x800000 else blk.size
      let byte (l : Nat × Nat) (j : Nat) : Nat := (if acc then 0 else blk.base) + l.2 + j
      els ≠ [] → (∀ l ∈ els, l.2 % size = 0) →
      (∀ before l after, els = before ++ l :: after → (∀ m ∈ before, m.2 + size ≤ limit) → limit < l.2 + size →
        exec i s = .next (s.trapWord q sq e 4 (BitVec.ofNat 64 l.2) 0)) ∧
      ((∀ l ∈ els, l.2 + size ≤ limit) → ∀ before l after j, els = before ++ l :: after → j < size →
        (∀ m ∈ before, ∀ h < size, ¬ bound acc write (byte m h)) → (∀ h < j, ¬ bound acc write (byte l h)) → bound acc write (byte l j) →
        exec i s = .next (s.trapWord q sq e 3 (BitVec.ofNat 64 (l.2 + j)) 0))
    let one := t.toNat :: regsX x o
    let size := 4 * 2 ^ v.toNat
    (∀ row ∈ ([(.ldsN w g n t b x o, 2 ^ w.toNat, false, false, one), (.ldsI w g n t b x o, 2 ^ w.toNat, false, false, one),
        (.sts w g n t b x o, 2 ^ w.toNat, false, true, one), (.lda g n t b x o, 4, true, false, one),
        (.sta g n t b x o, 4, true, true, one), (.atomsCas v g n t b x o, size, false, true, t.toNat :: (t.toNat + 1) :: regsX x o)] :
        List (Instr × Nat × Bool × Bool × List Nat)) ++
        (atomicRows (8 * size)).map (fun c => (c.2.1 v g n t b x o, size, false, true, one)),
      s.mayName q sq row.2.2.2.2 → checks row.1 row.2.1 (s.elementsM sq e g n b x o row.2.1) row.2.2.1 row.2.2.2.1) ∧
    checks (.ldsScalar t b o) 8 [(0, sq.addrScalar b.toNat o 8)] false false ∧
    checks (.stsScalar t b o) 8 [(0, sq.addrScalar b.toNat o 8)] false true ∧
    (s.mayName q sq one → let els := s.elementsM sq e g n b x o 8
      els ≠ [] → (∀ l ∈ els, l.2 % 8 = 0) →
      let upper (l : Nat × Nat) : Prop := 0x2000 ≤ l.2 ∧ l.2 < 0x4000 ∧ s.holdsLock q sq = false
      ∀ i ∈ [Instr.ldr g n t b x o, .str g n t b x o], ∀ before l after, els = before ++ l :: after →
        ((∀ m ∈ before, ¬ upper m) → upper l → exec i s = .next (s.trapWord q sq e 2 (BitVec.ofNat 64 (l.2 / 256)) 0)) ∧
        ((∀ m ∈ els, ¬ upper m) → (∀ m ∈ before, m.2 < 0x4000) → 0x4000 ≤ l.2 →
          exec i s = .next (s.trapWord q sq e 4 (BitVec.ofNat 64 l.2) 0))))

/-- R158, R159, R160, R161. A GLOBAL load whose elements are aligned and readable issues as one counted load of its enabled
threads' elements, which a LOAD_AT_HOME performs and a LOAD_COMPLETION writes, each marked when the youngest entry that covers one
of its bytes is an atomic or a figure; LDG.NF issues whatever its pages are, and marks the elements that are not resident and
readable. R131, R156, R159, R160, R201. A GLOBAL store whose elements are aligned and writable issues as one counted store whose
elements begin to issue in thread order; no byte of memory changes until a STORE_ACCEPT. R7, R152, R156, R201, R204, R205, R331. A
step of a lane whose word's elements issue: with 4,096 requests of its core outstanding nothing moves; else the next element,
together with the others of a store that covers its line, enters the core store path at its end, or waits to, when an earlier
element or load of its squad makes it wait. A store that enters updates its line's L1 copy, an atomic or a figure drops it. With
the last element the word is over; else it stays in execution. -/
def Obligations.GlobalAccess : Prop :=
  (∀ (s : State) (q : Nat) (sq : Squad) (e : Exec) (w : BitVec 2) (g : BitVec 4) (n : BitVec 1) (t b : BitVec 6) (x : BitVec 1)
    (o : BitVec 6), s.current = some (q, sq, e) →
    let els := s.elementsM sq e g n b x o (2 ^ w.toNat)
    let r := s.regionOf sq
    let one := [(0, sq.addrScalar b.toNat o 8)]
    let mark (size : Nat) (l : Elem) : Elem := (s.core sq.core).issued q size l
    (s.mayName q sq (t.toNat :: regsX x o) → els ≠ [] → (∀ l ∈ els, l.2 % 2 ^ w.toNat = 0) →
      (s.granted sq { r := true } els → ∀ row ∈ [(Instr.ldgN w, false), (.ldgI w, true)],
        ∃ t', exec (row.1 g n t b x o) s = .next t' ∧ LoadIssued s t' q sq
          (loadOf q sq t.toNat (2 ^ w.toNat) (.vec row.2) r ((s.translated sq els).map (mark (2 ^ w.toNat)))) els.length) ∧
      ∃ t', exec (.ldgNf w g n t b x o) s = .next t' ∧ LoadIssued s t' q sq
        (loadOf q sq t.toNat (2 ^ w.toNat) .nf r (els.map (fun l => mark (2 ^ w.toNat) (match s.translateIn sq.core r l.2 with
          | .page p => if l.2 < 2 ^ 56 ∧ p.r then elemOf l.1 l.2 (.page p) else { thread := l.1, va := l.2, st := .skip }
          | .absent => { thread := l.1, va := l.2, st := .skip }
          | .malformed => { thread := l.1, va := l.2, st := .skip })))) els.length) ∧
    (sq.addrScalar b.toNat o 8 % 8 = 0 → s.granted sq { r := true } one →
      ∃ t', exec (.ldgScalar t b o) s = .next t' ∧ LoadIssued s t' q sq
        (loadOf q sq t.toNat 8 .scalar r ((s.translated sq one).map (mark 8))) 1)) ∧
  (∀ (s : State) (q : Nat) (sq : Squad) (e : Exec) (w : BitVec 2) (g : BitVec 4) (n : BitVec 1) (t b : BitVec 6) (x : BitVec 1)
    (o : BitVec 6), s.current = some (q, sq, e) →
    let stores (i : Instr) (size : Nat) (els : List (Nat × Nat)) (val : Nat → Reg) : Prop :=
      els ≠ [] → (∀ l ∈ els, l.2 % size = 0) → s.granted sq { w := true } els →
      ∃ t', exec i s = .next t' ∧ t'.loads = s.loads ∧
        ElementsIssue s t' q sq { sq with ocSt := sq.ocSt + 1 } e ((s.translated sq els).map (fun l =>
          { l.entry s.nextId q sq (s.regionOf sq) (wordAddr e.clause.addr e.idx) size (.store (leBytes size (val l.thread).toNat)) with
            whole := coversLine size (s.translated sq els) l })) els.length
    (s.mayName q sq (t.toNat :: regsX x o) →
      stores (.stg w g n t b x o) (2 ^ w.toNat) (s.elementsM sq e g n b x o (2 ^ w.toNat)) (s.readV sq t.toNat)) ∧
    stores (.stgScalar t b o) 8 [(0, sq.addrScalar b.toNat o 8)] (fun _ => sq.readS t.toNat)) ∧
  (∀ (s : State) (op : Nat) (e : Exec) (x : PathEntry), s.agenda = [] → (s.lane s.focus).cur = some e → e.hold = some (.issue op) →
    let core := s.focus / 64
    let k := s.core core
    k.leaving.find? (fun y => y.op == op) = some x →
    let goes (rest : List PathEntry) (p : CoreS → Prop) : Prop := ∃ u : State, u = { s with cores := u.cores } ∧
      (∀ c, c ≠ core → u.core c = s.core c) ∧ (u.core core).leaving = rest ∧ p (u.core core) ∧
      u.core core = { k with leaving := rest, path := (u.core core).path, held := (u.core core).held, l1 := (u.core core).l1 } ∧
      ((∃ y ∈ rest, y.op = op) → step s = .next u) ∧
      ((∀ y ∈ rest, y.op ≠ op) → step s = .next
        ((u.modLane s.focus (fun l => { l with cur := some { e with hold := none } })).advanceWord
          (match e.clause.instrAt e.idx with | some i => i.isLong | none => false)))
    (4096 ≤ s.outstanding core → step s = .next s) ∧
    (s.outstanding core < 4096 → x.whole = false →
      (¬ s.waitsToEnter core x → goes (k.leaving.erase x) (fun c => c.path = k.path ++ [x] ∧ c.held = k.held ∧
        (x.host = true → c.l1 = k.l1) ∧
        (x.host = false → (∀ line, line ≠ x.lo / 128 → line ≠ (x.lo + x.len - 1) / 128 → line ≠ x.pa / 128 →
            tabFind c.l1 line = tabFind k.l1 line) ∧
          (x.isStore = true → tabFind c.l1 (x.pa / 128) = (tabFind k.l1 (x.pa / 128)).map (fun l =>
            { l with data := patch l.data (x.pa % 128) x.bytes })) ∧
          (x.isStore = false → tabFind c.l1 (x.lo / 128) = none)))) ∧
      (s.waitsToEnter core x → goes (k.leaving.erase x) (fun c => c.path = k.path ∧ c.held = k.held ++ [x] ∧
        (x.isStore = true → c.l1 = k.l1)))) ∧
    (s.outstanding core < 4096 → x.whole = true → x.gran = 0 →
      let es := k.leaving.filter (fun y => y.op == op && y.whole && y.onLine x.host x.pa)
      (∀ y ∈ es, y.squad = x.squad ∧ y.gran = 0 ∧ y.size ≤ 128 ∧ y.isStore = true) →
      (¬ s.waitsToEnter core x → goes (k.leaving.filter (fun y => !(y.op == op && y.whole && y.onLine x.host x.pa)))
        (fun c => c.path = k.path ++ es ∧ c.held = k.held)) ∧
      (s.waitsToEnter core x → goes (k.leaving.filter (fun y => !(y.op == op && y.whole && y.onLine x.host x.pa)))
        (fun c => c.path = k.path ∧ c.held = k.held ++ es))))

/-- R159, R160, R204. A SCRATCH load inside its block's allocation, at bytes no binding keeps from it, issues as one counted load
whose elements set out for the banks in thread order. R131, R156, R159, R160. A SCRATCH store inside its block's allocation, at
bytes that no binding covers, issues as one counted store whose elements set out for the banks in thread order. R143, R150, R156,
R166, R186, R204. A turn of an element on its way to its bank: while an earlier one of its squad is on its way, nothing; when its
bank, bits [8:3] of its byte, has served an access in this clock it is refused, and the clock counts once in the mogul counter;
else the bank performs it. A load's element takes the bytes, little-endian; a store's writes its own and no others, and oc.st
falls with the last; an atomic's does both in one step. A poisoned byte gives POISON, and a byte written is poisoned no longer,
which is the model's choice (log 60). -/
def Obligations.ScratchAccess : Prop :=
  (∀ (s : State) (q : Nat) (sq : Squad) (e : Exec) (w : BitVec 2) (g : BitVec 4) (n : BitVec 1) (t b : BitVec 6) (x : BitVec 1)
    (o : BitVec 6), s.current = some (q, sq, e) →
    let blk := s.block sq.blockOf
    let loads (i : Instr) (size : Nat) (els : List (Nat × Nat)) (kind : LoadKind) : Prop :=
      els ≠ [] → (∀ l ∈ els, l.2 % size = 0 ∧ l.2 + size ≤ blk.size ∧ ∀ j < size, ∀ y ∈ (s.core sq.core).bindings, y.acc = false →
        y.excl = true → ¬ (y.lo ≤ blk.base + l.2 + j ∧ blk.base + l.2 + j ≤ y.hi)) →
      ∃ t', exec i s = .next t' ∧
        BankIssued s t' q sq { sq with ocLd := sq.ocLd + 1 } (bankOps s.nextId q size blk.base els (fun _ => .read)) els.length ∧
        tabFind t'.loads s.nextId = some (scratchLoadOf q sq t.toNat size kind els) ∧
        ∀ k, k ≠ s.nextId → tabFind t'.loads k = tabFind s.loads k
    (s.mayName q sq (t.toNat :: regsX x o) → ∀ row ∈ [(Instr.ldsN w, false), (.ldsI w, true)],
      loads (row.1 g n t b x o) (2 ^ w.toNat) (s.elementsM sq e g n b x o (2 ^ w.toNat)) (.vec row.2)) ∧
    loads (.ldsScalar t b o) 8 [(0, sq.addrScalar b.toNat o 8)] .scalar) ∧
  (∀ (s : State) (q : Nat) (sq : Squad) (e : Exec) (w : BitVec 2) (g : BitVec 4) (n : BitVec 1) (t b : BitVec 6) (x : BitVec 1)
    (o : BitVec 6), s.current = some (q, sq, e) →
    let blk := s.block sq.blockOf
    let stores (i : Instr) (size : Nat) (els : List (Nat × Nat)) (val : Nat → Reg) : Prop :=
      els ≠ [] → (∀ l ∈ els, l.2 % size = 0 ∧ l.2 + size ≤ blk.size ∧ ∀ j < size, ∀ y ∈ (s.core sq.core).bindings, y.acc = false →
        ¬ (y.lo ≤ blk.base + l.2 + j ∧ blk.base + l.2 + j ≤ y.hi)) →
      ∃ t', exec i s = .next t' ∧ BankIssued s t' q sq { sq with ocSt := sq.ocSt + 1 }
          (bankOps s.nextId q size blk.base els (fun th => .write (leBytes size (val th).toNat))) els.length ∧ t'.loads = s.loads
    (s.mayName q sq (t.toNat :: regsX x o) →
      stores (.sts w g n t b x o) (2 ^ w.toNat) (s.elementsM sq e g n b x o (2 ^ w.toNat)) (s.readV sq t.toNat)) ∧
    stores (.stsScalar t b o) 8 [(0, sq.addrScalar b.toNat o 8)] (fun _ => sq.readS t.toNat)) ∧
  (∀ (s : State) (core n : Nat) (b : BankOp) (rest : List Turn), s.agenda = .bank core n :: rest → (s.core core).bank[n]? = some b →
    let k := s.core core
    let bank := b.at_ / 8 % 64
    let behind : Prop := ∃ x ∈ k.bank.take n, x.squad = b.squad
    let old := leVal ((List.range b.size).map (fun i => tabGet 0 k.scratch (b.at_ + i)))
    let poisoned : Prop := ∃ i < b.size, tabGet false k.badScratch (b.at_ + i) = true
    let serves (bs : List Byte) (st : Option ElemState) : Prop := ∃ u, step s = .next u ∧ u.pairs = s.pairs ∧
      (∀ c, c ≠ core → u.core c = s.core c) ∧ (∀ a, u.readByte a = s.readByte a) ∧
      u.loads = (match st with | none => s.loads | some x => tabMod s.loads b.op (fun o => o.setElem b.thread x)) ∧
      (u.core core).bank = k.bank.eraseIdx n ∧ (∀ j < 64, (u.core core).banksBusy.getLsbD j = (k.banksBusy.getLsbD j || decide (j = bank))) ∧
      u.core core = { k with bank := (u.core core).bank, banksBusy := (u.core core).banksBusy, scratch := (u.core core).scratch,
                             badScratch := (u.core core).badScratch } ∧
      (∀ a, tabGet 0 (u.core core).scratch a =
        if b.at_ ≤ a ∧ a < b.at_ + bs.length then bs.getD (a - b.at_) 0 else tabGet 0 k.scratch a) ∧
      (∀ a, b.at_ ≤ a → a < b.at_ + bs.length → tabGet false (u.core core).badScratch a = false) ∧
      (∀ p, p ≠ b.squad → tabFind u.squads p = tabFind s.squads p) ∧
      tabFind u.squads b.squad = if st = none ∧ (∀ x ∈ k.bank.eraseIdx n, x.op ≠ b.op)
        then (tabFind s.squads b.squad).map (fun sq => { sq with ocSt := sq.ocSt - 1 }) else tabFind s.squads b.squad
    (behind → step s = .next { s with agenda := rest }) ∧
    (¬ behind → k.banksBusy.getLsbD bank = true → ∃ u, step s = .next u ∧ u.squads = s.squads ∧ u.loads = s.loads ∧
      (∀ c, c ≠ core → u.core c = s.core c) ∧ (u.core core).mogul = (if k.bankRefused then k.mogul else k.mogul + 1) ∧
      u.core core = { k with bankRefused := true, events := (u.core core).events, mogul := (u.core core).mogul }) ∧
    (¬ behind → k.banksBusy.getLsbD bank = false → k.badScratch.all (·.2) = true → 0 < b.size →
      (∀ bs, b.kind = .write bs → serves bs none) ∧
      (b.kind = .read → ¬ poisoned → serves [] (some (.ready (BitVec.ofNat 64 old)))) ∧
      (b.kind = .read → poisoned → serves [] (some (.bad 1))) ∧
      (∀ v < 2, ∀ x y, let W := 32 * (v + 1)
        b.size = W / 8 →
        (∀ row ∈ atomicRows W, b.kind = .atomic row.2.2.1 v x y → ¬ poisoned →
          serves (leBytes b.size (row.2.2.2 old (x.toNat % 2 ^ W))) (some (.ready (BitVec.ofNat 64 old)))) ∧
        (b.kind = .atomic 9 v x y → ¬ poisoned → serves (leBytes b.size (if old = x.toNat % 2 ^ W then y.toNat % 2 ^ W else old))
          (some (.ready (BitVec.ofNat 64 old)))) ∧
        ∀ op, b.kind = .atomic op v x y → poisoned → serves [] (some (.bad 1)))))

/-- R57, R151, R162, R163. LDR and STR reach the squad's own v0 to v63, LDA and STA one element of the accumulator store per
thread, within their own word; v32 to v63 need the pair lock. An LDA of a poisoned element leaves its thread's destination and
notes a POISON for the next header; an STA clears the poison of what it writes, which is the model's choice (log 60). -/
def Obligations.RegisterAndAccumulatorAccess : Prop :=
  ∀ (s : State) (q : Nat) (sq : Squad) (e : Exec) (g : BitVec 4) (n : BitVec 1) (t b : BitVec 6) (x : BitVec 1) (o : BitVec 6),
    s.current = some (q, sq, e) → s.mayName q sq (t.toNat :: regsX x o) →
    let els (size : Nat) := s.elementsM sq e g n b x o size
    let reg (l : Nat × Nat) : Prop := l.2 % 8 = 0 ∧ l.2 < 0x4000 ∧ (l.2 < 0x2000 ∨ s.holdsLock q sq = true)
    let bad (l : Nat × Nat) : Bool := tabGet false (s.core sq.core).badAcc (l.2 / 4)
    let acc (write : Bool) (l : Nat × Nat) : Prop := l.2 % 4 = 0 ∧ l.2 < 0x800000 ∧
      ∀ i < 4, ∀ y ∈ (s.core sq.core).bindings, y.acc = true → (y.excl = true ∨ write = true) → ¬ (y.lo ≤ l.2 + i ∧ l.2 + i ≤ y.hi)
    (els 8 ≠ [] → (∀ l ∈ els 8, reg l) →
      (∃ t' sq', exec (.ldr g n t b x o) s = .next t' ∧ VecRan s t' q sq sq' t.toNat (els 8).length ∧
        ∀ th < 32, t'.readV sq' t.toNat th = if sq.enabledT e g n th then
          s.readV sq (s.addrM sq b.toNat x.toNat o 8 th / 256) (s.addrM sq b.toNat x.toNat o 8 th / 8 % 32)
          else s.readV sq t.toNat th) ∧
      ∃ t' sq', exec (.str g n t b x o) s = .next t' ∧
        RegRan s t' q sq sq' ((els 8).map (fun l => l.2 / 256)) [] [] false (els 8).length ∧
        (∀ l ∈ els 8, (∀ m ∈ els 8, l.1 < m.1 → m.2 ≠ l.2) →
          t'.readV sq' (l.2 / 256) (l.2 / 8 % 32) = s.readV sq t.toNat l.1) ∧
        ∀ r < 64, ∀ th < 32, (∀ l ∈ els 8, ¬ (l.2 / 256 = r ∧ l.2 / 8 % 32 = th)) → t'.readV sq' r th = s.readV sq r th) ∧
    (els 4 ≠ [] →
      ((∀ l ∈ els 4, acc false l) → (∀ l ∈ els 4, bad l = false) →
        ∃ t' sq', exec (.lda g n t b x o) s = .next t' ∧ VecRan s t' q sq sq' t.toNat (els 4).length ∧
          ∀ th < 32, t'.readV sq' t.toNat th = if sq.enabledT e g n th then
            (tabGet 0 (s.core sq.core).acc (s.addrM sq b.toNat x.toNat o 4 th / 4)).setWidth 64 else s.readV sq t.toNat th) ∧
      (∀ before l after, els 4 = before ++ l :: after → (∀ y ∈ els 4, acc false y) → (∀ y ∈ before, bad y = false) → bad l = true →
        sq.poison = none → ∃ t' sq', exec (.lda g n t b x o) s = .next t' ∧ tabFind t'.squads q = some sq' ∧
          sq' = { sq with v := sq'.v, poison := some (BitVec.ofNat 64 l.2, 1) } ∧
          ∀ th < 32, t'.readV sq' t.toNat th = if sq.enabledT e g n th && !bad (th, s.addrM sq b.toNat x.toNat o 4 th) then
            (tabGet 0 (s.core sq.core).acc (s.addrM sq b.toNat x.toNat o 4 th / 4)).setWidth 64 else s.readV sq t.toNat th) ∧
      ((∀ l ∈ els 4, acc true l) →
        ∃ t', exec (.sta g n t b x o) s = .next t' ∧ CoreRan s t' sq ∧
          t'.core sq.core = { (s.charge sq (els 4).length).core sq.core with
            acc := (t'.core sq.core).acc, badAcc := (t'.core sq.core).badAcc } ∧
          (∀ l ∈ els 4, tabGet false (t'.core sq.core).badAcc (l.2 / 4) = false) ∧
          (∀ l ∈ els 4, (∀ m ∈ els 4, l.1 < m.1 → m.2 ≠ l.2) →
            tabGet 0 (t'.core sq.core).acc (l.2 / 4) = (s.readV sq t.toNat l.1).setWidth 32) ∧
          ∀ i, (∀ l ∈ els 4, l.2 / 4 ≠ i) → tabGet 0 (t'.core sq.core).acc i = tabGet 0 (s.core sq.core).acc i))

/-- R151, R164, R165. LDP drains the entries of its core's write-combining buffer for its lines each as a packet with its address,
bytes and mask, and then sends one request per enabled thread, as one counted load; each byte of an STP stands in the entry of its
line, or has left in a packet for it, and is counted nowhere; every other byte of the buffer stands there still, or has left in a
packet, and no other byte appears. -/
def Obligations.PodAccess : Prop :=
  ∀ (s : State) (q : Nat) (sq : Squad) (e : Exec) (w : BitVec 2) (g : BitVec 4) (n : BitVec 1) (t b : BitVec 6) (x : BitVec 1)
    (o : BitVec 6), s.current = some (q, sq, e) → s.mayName q sq (t.toNat :: regsX x o) →
    let els := (sq.activeT e g n).map (fun th => (th, s.addrPod sq b.toNat x.toNat o (2 ^ w.toNat) th))
    let dev (a : Nat) := a / 2 ^ 48
    let off (a : Nat) := a % 2 ^ 48
    els ≠ [] → (∀ l ∈ els, l.2 % 2 ^ w.toNat = 0 ∧ l.2 < 2 ^ 60) →
    (∃ t' op ds ls, exec (.ldp w g n t b x o) s = .next t' ∧
      tabFind t'.squads q = some { sq with ocLd := sq.ocLd + 1 } ∧ (∀ p, p ≠ q → tabFind t'.squads p = tabFind s.squads p) ∧
      t'.pairs = s.pairs ∧ (∀ c, c ≠ sq.core → t'.core c = s.core c) ∧ (∀ a, t'.readByte a = s.readByte a) ∧
      tabFind t'.loads op = some (podLoadOf q sq t.toNat (2 ^ w.toNat) (s.regionOf sq)
        (els.map (fun l => { thread := l.1, va := l.2 }))) ∧
      s.nextId ≤ op ∧ (∀ k, k ≠ op → tabFind t'.loads k = tabFind s.loads k) ∧
      t'.pod = s.pod ++ ds ++ ls ∧ (∃ es : List WcbEntry, LeftAsPackets sq.core es ds ∧ es.Perm ((s.core sq.core).wcb.filter (fun y =>
        els.any (fun l => y.dev == dev l.2 && y.line == off l.2 / 128)))) ∧
      ls.map (fun m => (m.dst, m.off, m.kind)) = els.map (fun l => (dev l.2, off l.2, PodKind.load op l.1 (2 ^ w.toNat))) ∧
      (t'.core sq.core).wcb.Sublist (s.core sq.core).wcb ∧
      ∀ y ∈ (s.core sq.core).wcb, y ∈ (t'.core sq.core).wcb ↔ ∀ l ∈ els, ¬ (y.dev = dev l.2 ∧ y.line = off l.2 / 128)) ∧
    ∃ t' ds, exec (.stp w g n t b x o) s = .next t' ∧ CoreRan s t' sq ∧ t'.pod = s.pod ++ ds ∧
      t'.core sq.core = { (s.charge sq els.length).core sq.core with wcb := (t'.core sq.core).wcb } ∧
      (∀ m ∈ ds, m.mine = true ∧ m.core = sq.core ∧ ∃ d, m.kind = .write d) ∧
      let holds (d line i : Nat) (v : Byte) : Prop := CombinedByte (t'.core sq.core).wcb d line i v ∨ SentByte sq.core ds d line i v
      let writes (l : Nat × Nat) (d line i j : Nat) : Prop := j < 2 ^ w.toNat ∧ d = dev l.2 ∧ line = off l.2 / 128 ∧ i = off l.2 % 128 + j
      let byte (l : Nat × Nat) (j : Nat) : Byte := (s.readV sq t.toNat l.1).extractLsb' (8 * j) 8
      (∀ l ∈ els, ∀ d line i j, writes l d line i j → (∀ m ∈ els, l.1 < m.1 → ∀ h, ¬ writes m d line i h) → holds d line i (byte l j)) ∧
      (∀ d line i v, (∀ l ∈ els, ∀ j, ¬ writes l d line i j) → CombinedByte (s.core sq.core).wcb d line i v → holds d line i v) ∧
      ∀ d line i v, holds d line i v → CombinedByte (s.core sq.core).wcb d line i v ∨ ∃ l ∈ els, ∃ j, writes l d line i j ∧ v = byte l j

/-- R131, R156, R157, R166, R167, R168. A GLOBAL atomic whose elements are aligned and lie in HBM pages with R and W issues as one
counted load, an element for each enabled thread, which begin to issue in thread order. GRAB is one element of 16 bytes, and
raises DETSHARE in a DET region. No byte of memory changes until an ATOMIC_AT_HOME. R156, R166. A SCRATCH atomic inside its
block's allocation, at bytes that no binding covers, issues as one counted load whose elements set out for the banks in thread
order, each with its operation and operands. -/
def Obligations.AtomicWords : Prop :=
  (∀ (s : State) (q : Nat) (sq : Squad) (e : Exec) (v : BitVec 1) (g : BitVec 4) (n : BitVec 1) (t b : BitVec 6) (x : BitVec 1)
    (o : BitVec 6), s.current = some (q, sq, e) →
    let r := s.regionOf sq
    let issues (i : Instr) (size : Nat) (els : List (Nat × Nat)) (kind : LoadKind) (act : Nat → PathKind) : Prop :=
      els ≠ [] → (∀ l ∈ els, l.2 % size = 0) → s.granted sq { r := true, w := true, hbm := true } els →
      ∃ t', exec i s = .next t' ∧ tabFind t'.loads s.nextId = some (loadOf q sq t.toNat size kind r (s.translated sq els)) ∧
        (∀ k, k ≠ s.nextId → tabFind t'.loads k = tabFind s.loads k) ∧
        ElementsIssue s t' q sq { sq with ocLd := sq.ocLd + 1 } e ((s.translated sq els).map (fun l =>
          l.entry s.nextId q sq r (wordAddr e.clause.addr e.idx) size (act l.thread))) els.length
    let size := 4 * 2 ^ v.toNat
    (s.mayName q sq (t.toNat :: regsX x o) →
      (∀ row ∈ atomicRows (8 * size), issues (row.1 v g n t b x o) size (s.elementsM sq e g n b x o size) .given
        (fun th => .atomic row.2.2.1 v.toNat (s.readV sq t.toNat th) 0)) ∧
      issues (.atomgAddBf16x2 g n t b x o) 4 (s.elementsM sq e g n b x o 4) .given (fun th => .addBf16 (s.readV sq t.toNat th) none) ∧
      issues (.atomgAddF32 g n t b x o) 4 (s.elementsM sq e g n b x o 4) .given (fun th => .addF32 (s.readV sq t.toNat th))) ∧
    (s.mayName q sq (t.toNat :: (t.toNat + 1) :: regsX x o) →
      issues (.atomgCas v g n t b x o) size (s.elementsM sq e g n b x o size) .given
        (fun th => .atomic 9 v.toNat (s.readV sq t.toNat th) (s.readV sq (t.toNat + 1) th))) ∧
    (r.det = false → issues (.atomgGrab t b o) 16 [(0, sq.addrScalar b.toNat o 16)] .grab (fun _ => .grab)) ∧
    (r.det = true → sq.addrScalar b.toNat o 16 % 16 = 0 →
      exec (.atomgGrab t b o) s = .next (s.trapWord q sq e 5 (BitVec.ofNat 64 (sq.addrScalar b.toNat o 16)) 0))) ∧
  (∀ (s : State) (q : Nat) (sq : Squad) (e : Exec) (v : BitVec 1) (g : BitVec 4) (n : BitVec 1) (t b : BitVec 6) (x : BitVec 1)
    (o : BitVec 6), s.current = some (q, sq, e) →
    let size := 4 * 2 ^ v.toNat
    let els := s.elementsM sq e g n b x o size
    let blk := s.block sq.blockOf
    let issues (i : Instr) (act : Nat → BankKind) : Prop :=
      ∃ t', exec i s = .next t' ∧
        BankIssued s t' q sq { sq with ocLd := sq.ocLd + 1 } (bankOps s.nextId q size blk.base els act) els.length ∧
        tabFind t'.loads s.nextId = some (scratchLoadOf q sq t.toNat size .given els) ∧
        ∀ k, k ≠ s.nextId → tabFind t'.loads k = tabFind s.loads k
    els ≠ [] → (∀ l ∈ els, l.2 % size = 0 ∧ l.2 + size ≤ blk.size ∧
      ∀ j < size, ∀ y ∈ (s.core sq.core).bindings, y.acc = false → ¬ (y.lo ≤ blk.base + l.2 + j ∧ blk.base + l.2 + j ≤ y.hi)) →
    (s.mayName q sq (t.toNat :: regsX x o) → ∀ row ∈ atomicRows (8 * size), issues (row.2.1 v g n t b x o)
      (fun th => .atomic row.2.2.1 v.toNat (s.readV sq t.toNat th) 0)) ∧
    (s.mayName q sq (t.toNat :: (t.toNat + 1) :: regsX x o) → issues (.atomsCas v g n t b x o)
      (fun th => .atomic 9 v.toNat (s.readV sq t.toNat th) (s.readV sq (t.toNat + 1) th))))

/-- R169, R203. L1INV drops its lines from the core's L1 and L1INVA all of them; PREF brings each readable line of a CACHED or
PINNED page into L1 where there is room, or waits while its granule is held for a TILE figure; REQPAGE enters each absent page in
the fault filter where there is room; FENCE makes the squad's next clause wait, its POD form draining the core's write-combining
buffer first, each entry as a packet with its address, bytes and mask. -/
def Obligations.LineWords : Prop :=
  ∀ (s : State) (q : Nat) (sq : Squad) (e : Exec) (g : BitVec 4) (n : BitVec 1) (b : BitVec 6) (x : BitVec 1) (o : BitVec 6) (c : BitVec 2),
    s.current = some (q, sq, e) →
    let r := s.regionOf sq
    let lines := (s.elementsM sq e g n b x o 128).map (fun l => l.2 / 128 * 128)
    let page (va : Nat) (p : Page) : Prop := va < 2 ^ 56 ∧ s.translateIn sq.core r va = .page p
    (s.mayName q sq (regsX x o) →
      (∃ t, exec (.l1inv g n b x o) s = .next t ∧ CoreRan s t sq ∧
        (∀ va ∈ lines, ∀ p, page va p → p.host = false → tabFind (t.core sq.core).l1 (p.pa va / 128) = none) ∧
        ∀ line, (∀ va ∈ lines, ∀ p, page va p → p.host = false → p.pa va / 128 ≠ line) →
          tabFind (t.core sq.core).l1 line = tabFind (s.core sq.core).l1 line) ∧
      (s.combining = [] → s.struck = [] → (s.core sq.core).l1.length + lines.length ≤ 8192 →
        ∃ t, exec (.pref g n b x o) s = .next t ∧ CoreRan s t sq ∧
          ∀ va ∈ lines, ∀ p, page va p → p.r = true → p.host = false →
            (p.home ≤ 1 → s.granuleHeld (p.pa va) = false → s.isPoisoned (p.pa va) = false →
              (tabFind (t.core sq.core).l1 (p.pa va / 128)).isSome) ∧
            (s.granuleHeld (p.pa va) = true → ∃ y ∈ t.prefetches, y.pa = p.pa va ∧ y.l1 = some sq.core)) ∧
      ((s.core sq.core).filter.length + lines.length ≤ 64 →
        ∃ t, exec (.reqpage g n b x o) s = .next t ∧ CoreRan s t sq ∧
          ∀ va ∈ lines, va < 2 ^ 56 → s.translateIn sq.core r va = .absent → ∃ f ∈ (t.core sq.core).filter,
            f.asid = r.asid ∧ f.fq = r.faultQueue ∧ f.page = va / 4096 ∧ f.kinds.getLsbD 4 = true)) ∧
    (∃ t, exec .l1inva s = .next t ∧ CoreRan s t sq ∧ (t.core sq.core).l1 = []) ∧
    ∃ t, exec (.fence c) s = .next t ∧ tabFind t.squads q = some (sq.await (.fence c.toNat t.nextId)) ∧
      (∀ p, p ≠ q → tabFind t.squads p = tabFind s.squads p) ∧ t.pairs = s.pairs ∧ (∀ k, k ≠ sq.core → t.core k = s.core k) ∧
      (∀ a, t.readByte a = s.readByte a) ∧ (t.core sq.core).wcb = (if c = 3 then [] else (s.core sq.core).wcb) ∧
      ∃ ds, t.pod = s.pod ++ ds ∧ LeftAsPackets sq.core (if c = 3 then (s.core sq.core).wcb else []) ds

/-- R129, R131, R172, R173, R174, R184, R319. CPIN, CPOUT, CPWB and MCAST enter the core's copy queue when an entry is free, with
the record that eight scalars or 64 bytes of scratch give; with 16 entries in use the word waits, and while an element of the
squad is on its way to a bank a word that reads its image there waits (R204), as it does, refused and counted, while one of its
image's banks has served an access in the clock (R150, log 69). An image beyond the allocation raises SBOUND. R157, R177, R184,
R188, R191. A CPIN, CPOUT or CPWB whose record fails a check raises the first one's trap at its word and nothing is performed. A
record that overlaps a range of a copy of the squad in the scoreboard raises BINDING 6 at its lowest such byte; an undefined
field, ILLEGAL 1; a combination that is not allowed, ILLEGAL 2, and an alignment or extent out of range, ILLEGAL 3 (what the two
say of a CPOUT or CPWB record is log 37); a range beyond the allocation or ACC space, SBOUND at the lowest offset beyond it; a
range beyond the weight buffer, ILLEGAL 4 at its offset; and a CPIN that touches a locked range, BINDING 5 at the lowest such
byte. -/
def Obligations.CopyWords : Prop :=
  (∀ (s : State) (q : Nat) (sq : Squad) (e : Exec) (f : BitVec 4) (b o d a : BitVec 6), s.current = some (q, sq, e) →
    f.toNat < 12 → sq.flagP_ f.toNat < 15 →
    let k := s.core sq.core
    let blk := s.block sq.blockOf
    let scalars : List Byte := (List.range 64).map (fun i => (sq.readS (o.toNat + i / 8)).extractLsb' (8 * (i % 8)) 8)
    let enters (i : Instr) (kind : CopyKind) (r : List Byte) (used : Nat → Bool) : Prop :=
      (k.copies.length < 16 → ∃ t sq' c, exec i s = .next t ∧ EngineIssued s t q sq sq' f.toNat ∧
        sq'.ocCp = sq.ocCp + 1 ∧ sq'.ocTl = sq.ocTl ∧
        (∀ j < 64, (t.core sq.core).banksBusy.getLsbD j = (k.banksBusy.getLsbD j || used j)) ∧
        (t.core sq.core).copies = k.copies ++ [c] ∧ (t.core sq.core).tiles = k.tiles ∧
        (t.core sq.core).board = k.board ++ c.boards ∧ (t.core sq.core).bindings = k.bindings ++ c.binds ∧
        c.id = s.nextId ∧ c.ord = s.nextId ∧ c.squad = q ∧ c.kind = kind ∧ c.flag = f.toNat ∧ c.image = r ∧ c.base = blk.base ∧ c.size = blk.size ∧
        c.region = s.regionOf sq ∧ c.row = 0 ∧ c.started = false ∧ c.ended = false) ∧
      (16 ≤ k.copies.length → exec i s = .next (s.holdWord .copyQueue))
    let off := sq.addrScalar b.toNat o 64
    let dsc := (sq.readS d.toNat).toNat
    let outside (i : Instr) (y : Nat) : Prop := ((∃ z ∈ k.bank, z.squad = q) → exec i s = .next (s.holdWord .retry)) ∧
      ((∀ z ∈ k.bank, z.squad ≠ q) → blk.size < y + 64 → exec i s = .next (s.trapWord q sq e 4 (BitVec.ofNat 64 y) 0))
    let refused (i : Instr) (y : Nat) : Prop := k.copies.length < 16 → ¬ k.idleBanks (blk.base + y) →
      exec i s = .next ((s.bankRefuse sq.core).holdWord .retry)
    (∀ row ∈ [(Instr.cpin f b, CopyKind.cpin), (.cpout f b, .cpout), (.cpwb f b, .cpwb)],
      (copyCheck row.2 scalars blk.size k.locks = none → enters (row.1 1 o) row.2 scalars (fun _ => false)) ∧
      (s.imageThere q sq off → copyCheck row.2 (s.image64 sq off) blk.size k.locks = none →
        (k.idleBanks (blk.base + off) → enters (row.1 0 o) row.2 (s.image64 sq off) (banks64 (blk.base + off))) ∧ refused (row.1 0 o) off) ∧
      outside (row.1 0 o) off) ∧
    (s.imageThere q sq dsc → (∀ i < 64, 0x14 ≤ i → (s.image64 sq dsc).getD i 0 = 0) →
      castOk dsc (s.image64 sq dsc) (sq.readS a.toNat) (sq.readS (a.toNat + 1)) = true →
      (k.idleBanks (blk.base + dsc) → enters (.mcast d a f) .mcast (s.image64 sq dsc) (banks64 (blk.base + dsc))) ∧ refused (.mcast d a f) dsc) ∧
    outside (.mcast d a f) dsc) ∧
  (∀ (s : State) (q : Nat) (sq : Squad) (e : Exec) (f : BitVec 4) (b o : BitVec 6), s.current = some (q, sq, e) →
    let k := s.core sq.core
    let blk := s.block sq.blockOf
    let off := sq.addrScalar b.toNat o 64
    let scalars : List Byte := (List.range 64).map (fun i => (sq.readS (o.toNat + i / 8)).extractLsb' (8 * (i % 8)) 8)
    let raises (i : Instr) (cause x detail : Nat) : Prop := exec i s = .next (s.trapWord q sq e cause (BitVec.ofNat 64 x) detail)
    let boarded (y : Nat) : Prop := ∃ z ∈ k.board, z.lo ≤ y ∧ y ≤ z.hi ∧ ∃ c ∈ k.copies, c.id = z.op ∧ c.squad = q
    let fails (i : Instr) (kind : CopyKind) (r : List Byte) : Prop :=
      let fmt := Machine.fld r 0x38 1
      let code := Machine.fld r 0x39 1
      let mode := Machine.fld r 0x3A 1
      let side := mode % 4
      let kdim := mode / 4 % 4
      let wide : Prop := mode / 32 % 2 = 1
      let four : Prop := fmt = 5 ∨ fmt = 16
      let ext0 := Machine.fld r 0x10 2 + 1
      let src := Machine.fld r 0 8
      let step0 : Prop := Machine.fld r 0x18 4 = 0 ∨ Machine.fld r 0x18 4 = 1
      let bad1 : Prop := fmt ∉ [0, 1, 2, 3, 4, 5, 7, 8, 16, 31] ∨ 3 ≤ code ∨ 64 ≤ mode ∨ 16 ≤ Machine.fld r 0x3B 1 ∨ 6 ≤ Machine.fld r 0x3B 1 % 8
      let bad2 : Prop := match kind with
        | .cpin => side = 3 ∨ (fmt = 31 ∧ (kdim ≠ 0 ∨ code ≠ 0)) ∨ (fmt = 16 ∧ (code ≠ 2 ∨ kdim ≠ 0)) ∨ (code ≠ 0 ∧ fmt ∉ [3, 4, 5, 16]) ∨
            (wide ∧ fmt ∉ [0, 1]) ∨ (side = 2 ∧ (fmt = 2 ∨ wide) ∧ fmt ≠ 31)
        | .cpout => fmt = 16 ∨ (code ≠ 0 ∧ fmt ∉ [3, 4, 5])
        | .cpwb => side ≠ 0 ∨ fmt ≠ 31 ∨ code ≠ 0 ∨ mode / 16 % 2 = 1
        | .mcast => False
      let bad3 : Prop := match kind with
        | .cpin => (four ∧ ¬ step0) ∨ (fmt ≠ 31 ∧ Machine.fld r 8 8 % (if side = 2 then 4 else 32) ≠ 0)
        | .cpout => (four ∧ ¬ step0) ∨ (four ∧ ext0 % 2 ≠ 0) ∨ (side < 2 ∧ (src % 4 ≠ 0 ∨ 256 < src / 4 % 256 + ext0))
        | .cpwb => ¬ step0
        | .mcast => False
      let rs := copyScratch kind r
      let acc : Prop := kind = .cpout ∧ side < 2
      let past (a : Nat) : Prop := (∃ x ∈ rs, (blk.size : Int) ≤ x.2 ∧ (a : Int) = max x.1 blk.size) ∨
        (acc ∧ 0x800000 ≤ (outSpan r).2 ∧ a = max (outSpan r).1 0x800000)
      (bad1 → raises i 1 0 1) ∧ (¬ bad1 → bad2 → raises i 1 0 2) ∧ (¬ bad1 → ¬ bad2 → bad3 → raises i 1 0 3) ∧
      (¬ bad1 → ¬ bad2 → ¬ bad3 → blk.size ≤ 0x200000 → (∀ x ∈ rs, 0 ≤ x.1) →
        (∀ a, past a → (∀ c, past c → a ≤ c) → raises i 4 a 0) ∧
        ((∀ a, ¬ past a) → ∀ lo hi, copyWb kind r = some (lo, hi) →
          (0x200000 ≤ hi → raises i 1 lo 4) ∧
          (kind = .cpin → hi < 0x200000 → (∀ l ∈ k.locks, 0 < l.2) →
            let locked (x : Nat) : Prop := lo ≤ x ∧ x ≤ hi ∧ ∃ l ∈ k.locks, l.1 ≤ x ∧ x < l.1 + l.2
            ∀ x, locked x → (∀ y < x, ¬ locked y) → raises i 3 x 5)))
    ∀ row ∈ [(Instr.cpin f b, CopyKind.cpin), (.cpout f b, .cpout), (.cpwb f b, .cpwb)],
      fails (row.1 1 o) row.2 scalars ∧ (s.imageThere q sq off → fails (row.1 0 o) row.2 (s.image64 sq off)) ∧
      ((∀ z ∈ k.bank, z.squad ≠ q) → off + 64 ≤ blk.size → ∀ j < 64, boarded (blk.base + off + j) → (∀ h < j, ¬ boarded (blk.base + off + h)) →
        raises (row.1 0 o) 3 (off + j) 6))

/-- R129, R131, R172, R173, R194, R195. The TILE words enter the core's tile queue when an entry is free; with 16 in use the word
waits. TILE.MMA names the flag that its parameter block holds, and reads it after every element of the squad on its way to a bank
(R204), after every element of its core to one of its bytes (R210), and when its banks are free (R150, log 69). R157, R179, R184,
R188, R193. A TILE.MMA whose parameter block fails a check raises the first one's trap at its word: BINDING 6 for a block that
overlaps a range of a copy of the squad in the scoreboard, ILLEGAL 1 for an undefined field, ILLEGAL 2 for a zero-elided panel of
class C16, ILLEGAL 3 for an alignment, a row, a K-block or a progress field out of range, SBOUND at the lowest byte of A beyond
the allocation, and ILLEGAL 4 at the offset of a B that reaches beyond the weight buffer. -/
def Obligations.TileWords : Prop :=
  (∀ (s : State) (q : Nat) (sq : Squad) (e : Exec) (f : BitVec 4) (b o d a : BitVec 6), s.current = some (q, sq, e) →
    let k := s.core sq.core
    let off := sq.addrScalar b.toNat o 64
    let p := s.image64 sq off
    let enters (i : Instr) (flag : Nat) (kind : TileKind) (image : List Byte) : Prop :=
      flag < 12 → sq.flagP_ flag < 15 →
      (k.tiles.length < 16 → ∃ t sq' x, exec i s = .next t ∧ EngineIssued s t q sq sq' flag ∧
        sq'.ocTl = sq.ocTl + 1 ∧ sq'.ocCp = sq.ocCp ∧
        (t.core sq.core).tiles = k.tiles ++ [x] ∧ (t.core sq.core).copies = k.copies ∧ (t.core sq.core).board = k.board ∧
        (t.core sq.core).bindings = k.bindings ++ x.binds ∧
        x.id = s.nextId ∧ x.ord = s.nextId ∧ x.squad = q ∧ x.kind = kind ∧ x.flag = flag ∧ x.image = image ∧ x.started = false ∧ x.ended = false) ∧
      (16 ≤ k.tiles.length → exec i s = .next (s.holdWord .tileQueue))
    let at_ := (s.block sq.blockOf).base + off
    let meets : Prop := ∃ z ∈ k.bank, z.at_ < at_ + 64 ∧ at_ < z.at_ + z.size
    (s.imageFree q sq off → ¬ meets → tileCheck p (s.block sq.blockOf).size = none → enters (.tileMma b o) (tpFlag p) .mma p) ∧
    (s.imageThere q sq off → meets → exec (.tileMma b o) s = .next (s.holdWord .retry)) ∧
    (s.imageThere q sq off → ¬ meets → tileCheck p (s.block sq.blockOf).size = none → k.tiles.length < 16 → ¬ k.idleBanks at_ →
      exec (.tileMma b o) s = .next ((s.bankRefuse sq.core).holdWord .retry)) ∧
    enters (.tileZero d f) f.toNat (.zero d.toNat) [] ∧
    enters (.tileMov d a f) f.toNat (.mov d.toNat a.toNat) [] ∧
    enters (.tileAdd d a f) f.toNat (.add d.toNat a.toNat) [] ∧
    enters (.tileScale d a f) f.toNat (.scale d.toNat ((sq.readS a.toNat).setWidth 32)) [] ∧
    ((∃ z ∈ k.bank, z.squad = q) → exec (.tileMma b o) s = .next (s.holdWord .retry)) ∧
    ((∀ z ∈ k.bank, z.squad ≠ q) → (s.block sq.blockOf).size < off + 64 → exec (.tileMma b o) s = .next (s.trapWord q sq e 4 (BitVec.ofNat 64 off) 0))) ∧
  (∀ (s : State) (q : Nat) (sq : Squad) (e : Exec) (b o : BitVec 6), s.current = some (q, sq, e) →
    let k := s.core sq.core
    let blk := s.block sq.blockOf
    let off := sq.addrScalar b.toNat o 64
    let p := s.image64 sq off
    let raises (cause x detail : Nat) : Prop := exec (.tileMma b o) s = .next (s.trapWord q sq e cause (BitVec.ofNat 64 x) detail)
    let boarded (y : Nat) : Prop := ∃ z ∈ k.board, z.lo ≤ y ∧ y ≤ z.hi ∧ ∃ c ∈ k.copies, c.id = z.op ∧ c.squad = q
    let half (at_ : Nat) : Nat := Machine.fld p at_ 2
    let ctl := Machine.fld p 0x0D 1
    let c16 : Prop := ctl / 2 % 4 = 2
    let elided : Prop := ctl / 8 % 2 = 1
    let kb := half 8
    let m := Machine.fld p 0x0A 1 + 1
    let n := Machine.fld p 0x0B 1 + 1
    let aRows := if half 0x10 = 0 then m else half 0x10
    let bRows := if half 0x12 = 0 then n else half 0x12
    let progress := Machine.fld p 0x1C 4
    let slab (rows : Nat) : Nat := rows * (if c16 then 64 else 32) + (rows + 31) / 32 * 32
    let bUnit := if elided then 4 else slab bRows
    let aLo := Machine.fld p 0 4 + half 0x18 * slab aRows
    let aEnd := Machine.fld p 0 4 + (half 0x18 + kb) * slab aRows
    let bLo := Machine.fld p 4 4 + half 0x1A * bUnit
    let bEnd := Machine.fld p 4 4 + (half 0x1A + kb) * bUnit
    let bad1 : Prop := 64 ≤ Machine.fld p 0x0C 1 ∨ 64 ≤ ctl ∨ ctl / 16 % 4 = 3 ∨ 12 ≤ Machine.fld p 0x0E 1 ∨ Machine.fld p 0x0F 1 ≠ 0 ∨ 2 ^ 18 ≤ progress ∨
      ∃ j < 64, 0x20 ≤ j ∧ p.getD j 0 ≠ 0
    let bad3 : Prop := Machine.fld p 0 4 % 32 ≠ 0 ∨ Machine.fld p 4 4 % (if elided then 4 else 32) ≠ 0 ∨ kb = 0 ∨ 2048 < kb ∨ 128 < m ∨ aRows < half 0x14 + m ∨
      bRows < half 0x16 + n ∨ kb ≤ progress % 65536 ∨ progress / 65536 ≠ 0
    ((∀ z ∈ k.bank, z.squad ≠ q) → off + 64 ≤ blk.size → ∀ j < 64, boarded (blk.base + off + j) → (∀ h < j, ¬ boarded (blk.base + off + h)) →
      raises 3 (off + j) 6) ∧
    (s.imageThere q sq off → ¬ (∃ z ∈ k.bank, z.at_ < blk.base + off + 64 ∧ blk.base + off < z.at_ + z.size) →
      (bad1 → raises 1 0 1) ∧ (¬ bad1 → c16 → elided → raises 1 0 2) ∧ (¬ bad1 → ¬ (c16 ∧ elided) → bad3 → raises 1 0 3) ∧
      (¬ bad1 → ¬ (c16 ∧ elided) → ¬ bad3 → (blk.size < aEnd → raises 4 (max aLo blk.size) 0) ∧
        (aEnd ≤ blk.size → 0x200000 < bEnd → raises 1 bLo 4))))

/-- R191, R192, R196. LOCK adds a range of the weight buffer to the lock table, or raises BINDING 7 with eight there; UNLOCK takes
out one that matches; a range that is empty, not of 64-byte units or beyond the buffer raises ILLEGAL 3. WKEY gives its key to
every fresh unit. TILE.QUERY returns the epoch and how full the queues and the bindings are, with bits 63:56 zero. -/
def Obligations.WeightBufferWords : Prop :=
  ∀ (s : State) (q : Nat) (sq : Squad) (e : Exec) (t b o a d : BitVec 6), s.current = some (q, sq, e) →
    let k := s.core sq.core
    let off := sq.addrScalar b.toNat o 64
    let n := (sq.readS t.toNat).toNat
    let good : Prop := n ≠ 0 ∧ n % 64 = 0 ∧ off + n ≤ 0x200000
    (good → k.locks.length < 8 → ∃ t', exec (.lock t b o) s = .next t' ∧ CoreRan s t' sq ∧
      t'.core sq.core = { (s.charge sq 1).core sq.core with locks := k.locks ++ [(off, n)] }) ∧
    (good → 8 ≤ k.locks.length → exec (.lock t b o) s = .next (s.trapWord q sq e 3 0 7)) ∧
    (good → ∃ t', exec (.unlock t b o) s = .next t' ∧ CoreRan s t' sq ∧
      t'.core sq.core = { (s.charge sq 1).core sq.core with locks := (t'.core sq.core).locks } ∧
      (∀ r, r ≠ (off, n) → (t'.core sq.core).locks.count r = k.locks.count r) ∧
      (t'.core sq.core).locks.count (off, n) = k.locks.count (off, n) - 1) ∧
    (¬ good → exec (.lock t b o) s = .next (s.trapWord q sq e 1 0 3) ∧ exec (.unlock t b o) s = .next (s.trapWord q sq e 1 0 3)) ∧
    (∃ t', exec (.wkey a) s = .next t' ∧ CoreRan s t' sq ∧
      t'.core sq.core = { (s.charge sq 1).core sq.core with tags := (t'.core sq.core).tags } ∧
      ∀ u < 32, tabGet {} (t'.core sq.core).tags u =
        if (tabGet {} k.tags u).fresh then { key := (sq.readS a.toNat).setWidth 16, fresh := false } else tabGet {} k.tags u) ∧
    ∃ t' sq', exec (.tileQuery d) s = .next t' ∧ ScalarRan s t' q sq sq' d.toNat ∧
      (d ≠ 0 → k.tiles.length < 256 → k.copies.length < 256 → k.bindings.length ≤ 64 →
        (sq'.readS d.toNat).extractLsb' 0 32 = k.epoch ∧ ((sq'.readS d.toNat).extractLsb' 32 8).toNat = k.tiles.length ∧
        ((sq'.readS d.toNat).extractLsb' 40 8).toNat = k.copies.length ∧
        ((sq'.readS d.toNat).extractLsb' 48 8).toNat = 64 - k.bindings.length ∧ (sq'.readS d.toNat).extractLsb' 56 8 = 0)

/-- R131, R146, R238, R245, R248, R249, R250. A FIG of a valid slot that is not busy sends one request per enabled thread, each
counted in event 0x11: as elements that issue into the core store path for a GLOBAL figure, as packets for a POD one, each with
its destination, the definition, the operand and the place of its returned value and flag, behind the write-combining entries of
its line (R211), the squad's oc.ld or oc.st rising by one; a slot that is busy makes it wait, and one that is empty raises ILLEGAL
10. FIGLD issues as one counted load of the 128-byte image; FIGUNLD marks its slot busy and holds the squad's next clause. -/
def Obligations.FigureWords : Prop :=
  ∀ (s : State) (q : Nat) (sq : Squad) (e : Exec) (g : BitVec 4) (n : BitVec 1) (t b : BitVec 6) (x : BitVec 1) (o k : BitVec 6)
    (f : BitVec 4) (y : BitVec 1), s.current = some (q, sq, e) →
    let c := s.core sq.core
    let r := s.regionOf sq
    let fl := (tabGet 0 c.summary k.toNat).toNat
    let size := 2 ^ (fl / 16 % 4)
    let flag := if y = 1 then some f.toNat else none
    let i := Instr.fig g n t b x o k f y
    let act := sq.activeT e g n
    let global := s.elementsM sq e g n b x o size
    let pod := act.map (fun th => (th, s.addrPod sq b.toNat x.toNat o size th))
    let G := if fl.testBit 0 then 256 else 128
    let hit (y : WcbEntry) : Bool := pod.any (fun l => y.dev == l.2 / 2 ^ 48 && y.line * 128 / G == l.2 % 2 ^ 48 / G)
    let counted (t' : State) (sq' : Squad) (ws : List Walk) (es : List PathEntry) (wcb : List WcbEntry) : Prop :=
      tabFind t'.squads q = some sq' ∧ FlagMaybe sq sq' flag ∧
      sq' = { sq with flagF := sq'.flagF, flagP := sq'.flagP, ocLd := sq'.ocLd, ocSt := sq'.ocSt } ∧
      (∀ p, p ≠ q → tabFind t'.squads p = tabFind s.squads p) ∧ t'.pairs = s.pairs ∧ (∀ j, j ≠ sq.core → t'.core j = s.core j) ∧
      (∀ a, t'.readByte a = s.readByte a) ∧ t'.walks = s.walks ++ ws ∧
      t'.core sq.core = { ((((s.withWalks sq.core ws).coreEvent sq.core 0x11 act.length).charge sq act.length).core sq.core) with
        leaving := c.leaving ++ es, wcb := wcb } ∧
      tabFind t'.flagOps s.nextId = (match flag with
        | some m => some { squad := q, flag := m, left := act.length }
        | none => tabFind s.flagOps s.nextId) ∧
      (fl.testBit 2 = true → sq'.ocLd = sq.ocLd + 1 ∧ sq'.ocSt = sq.ocSt ∧ ∃ op, tabFind t'.loads s.nextId = some op ∧
        op.squad = q ∧ op.dest = t.toNat ∧ op.kind = .given ∧ op.elems.map (·.thread) = act) ∧
      (fl.testBit 2 = false → sq'.ocLd = sq.ocLd ∧ sq'.ocSt = sq.ocSt + 1 ∧ t'.loads = s.loads)
    (s.mayName q sq (t.toNat :: regsX x o) → act ≠ [] → (y = 1 → f.toNat < 12 ∧ sq.flagP_ f.toNat < 15) →
      (c.busy.getLsbD k.toNat = true → exec i s = .next (s.holdWord (.slot k.toNat))) ∧
      (c.busy.getLsbD k.toNat = false → fl.testBit 7 = false → exec i s = .next (s.trapWord q sq e 1 (k.setWidth 64) 10)) ∧
      (c.busy.getLsbD k.toNat = false → fl.testBit 7 = true →
        (fl.testBit 6 = false → (∀ l ∈ global, l.2 % size = 0) → s.granted sq { f := true, hbm := true } global →
          ∃ t' sq' ws, exec i s = .next t' ∧ counted t' sq' ws ((s.translated sq global).map (fun l =>
              { l.entry s.nextId q sq r (wordAddr e.clause.addr e.idx) size (.figure k.toNat (s.readV sq t.toNat l.thread)) with
                flag := flag, gran := G })) c.wcb ∧ t'.pod = s.pod ∧
            (t'.lane s.focus).cur = some { e with hold := some (.issue s.nextId) }) ∧
        (fl.testBit 6 = true → (∀ l ∈ pod, l.2 % size = 0 ∧ l.2 < 2 ^ 60) →
          ∃ t' sq' ds ms, exec i s = .next t' ∧ counted t' sq' [] [] (c.wcb.filter (fun y => !hit y)) ∧ t'.pod = s.pod ++ ds ++ ms ∧
            (∃ es : List WcbEntry, LeftAsPackets sq.core es ds ∧ es.Perm (c.wcb.filter hit)) ∧
            ms.map (fun m => (m.dst, m.off, m.kind)) = pod.map (fun l => (l.2 / 2 ^ 48, l.2 % 2 ^ 48,
              PodKind.figure k.toNat (s.readBytes (r.figTable + 128 * k.toNat) 128) (s.readV sq t.toNat l.1).toNat
                (if fl.testBit 2 then some (s.nextId, l.1) else none) (flag.map (fun _ => s.nextId)))) ∧
            ∀ m ∈ ms, m.mine = true ∧ m.sent = false ∧ m.seq = none ∧ m.core = sq.core ∧ m.region = r ∧ m.sname = sq.sname ∧
              m.counted = if fl.testBit 2 then none else some (s.nextId, q)))) ∧
    (let a := sq.addrScalar b.toNat o 64
     let els := (List.range 16).map (fun j => (j, (a + 8 * j) % 2 ^ 64))
     a % 64 = 0 → s.granted sq { r := true } els → ∃ t', exec (.figld t b o k) s = .next t' ∧
       LoadIssued s t' q sq (loadOf q sq t.toNat 8 (.figld k.toNat) r ((s.translated sq els).map (c.issued q 8))) 1) ∧
    ∃ t', exec (.figunld b) s = .next t' ∧
      tabFind t'.squads q = some (sq.await (.figunld s.nextId)) ∧
      (∀ p, p ≠ q → tabFind t'.squads p = tabFind s.squads p) ∧ t'.pairs = s.pairs ∧ (∀ a, t'.readByte a = s.readByte a) ∧
      t'.figLoads = s.figLoads ++ [{ id := s.nextId, squad := q, asid := r.asid, table := r.figTable, slot := b.toNat, image := none }] ∧
      ∀ j ∈ t'.cores, (j.2.region.map (·.asid)) = some r.asid → b.toNat < 64 → j.2.busy.getLsbD b.toNat = true

/-- R80, R129, R131, R261, R266. The named stores send one delivery of the enabled threads' values, counted in oc.st, STN.REL
draining the write-combining buffer first, each entry as a packet with its address, bytes and mask; a store to a name of
generation 0 or above 2^32 issues so too, and its delivery is marked as one that the device will drop (R261: the check is the
device's, a few clocks on). R261, R262, R264, R265. NAMEGET returns the name that a squad holds; to a squad without one it gives
the lowest FREE or RETIRED entry of the directory, its generation one more than the entry's, and returns 0 when no region budget
or no entry allows it. NAMEREL leaves the squad without a name and its entry RETIRED. -/
def Obligations.NamedStoreWords : Prop :=
  (∀ (s : State) (q : Nat) (sq : Squad) (e : Exec) (g : BitVec 4) (n : BitVec 1) (d a b : BitVec 6) (f : BitVec 4),
    s.current = some (q, sq, e) → s.mayName q sq [a.toNat, d.toNat] → f.toNat < 12 → sq.flagP_ f.toNat < 15 →
    let x := sq.readS b.toNat
    let act := sq.activeT e g n
    let dead : Prop := 2 ^ 32 ≤ x.toNat ∨ x.toNat % 64 = 0
    act ≠ [] → ∀ row ∈ [(Instr.stn g n d a b, none, false), (.stnRel g n d a b, none, true), (.stnF g n d a b f, some f.toNat, false)],
      ∃ t sq' m, exec row.1 s = .next t ∧ tabFind t.squads q = some sq' ∧ FlagMaybe sq sq' row.2.1 ∧
        sq' = { sq with flagF := sq'.flagF, flagP := sq'.flagP, ocSt := sq.ocSt + 1 } ∧
        (∀ p, p ≠ q → tabFind t.squads p = tabFind s.squads p) ∧ t.pairs = s.pairs ∧ (∀ c, c ≠ sq.core → t.core c = s.core c) ∧
        (∀ y, t.readByte y = s.readByte y) ∧ t.stns = s.stns ++ [m] ∧ m.squad = q ∧ m.name = x.setWidth 32 ∧ m.reg = d.toNat ∧
        (∀ th < 32, inMask m.mask th = sq.enabledT e g n th) ∧
        (∀ th < 32, sq.enabledT e g n th → (th, s.readV sq a.toNat th) ∈ m.vals) ∧ m.flag = row.2.1 ∧ m.rel.isSome = row.2.2 ∧
        (m.dead = true ↔ dead) ∧ m.mine = true ∧ m.at_ = .sent ∧ t.deadLetter = s.deadLetter ∧
        (row.2.2 = true → (t.core sq.core).wcb = [] ∧ ∃ ds, t.pod = s.pod ++ ds ∧ LeftAsPackets sq.core (s.core sq.core).wcb ds) ∧
        (row.2.2 = false → (t.core sq.core).wcb = (s.core sq.core).wcb ∧ t.pod = s.pod)) ∧
  (∀ (s : State) (q : Nat) (sq : Squad) (e : Exec) (d : BitVec 6), s.current = some (q, sq, e) →
    let free (i : Nat) : Prop := (s.dirEntry i).st = 0 ∨ (s.dirEntry i).st = 4
    let room : Prop := ∀ x ∈ (s.regionOf sq).path, s.namesUnder x.1 < x.2.2
    (sq.sname ≠ 0 → ∃ t sq', exec (.nameget d) s = .next t ∧ ScalarRan s t q sq sq' d.toNat ∧
      (d ≠ 0 → sq'.readS d.toNat = sq.sname.setWidth 64)) ∧
    (sq.sname = 0 → (¬ room ∨ ∀ i < 16384, ¬ free i) → ∃ t sq', exec (.nameget d) s = .next t ∧ ScalarRan s t q sq sq' d.toNat ∧
      sq'.readS d.toNat = 0) ∧
    (∀ i < 16384, ∀ core lane slot, sq.sname = 0 → room → free i → (∀ j < i, ¬ free j) → sq.place = .resident core lane slot →
      core < 512 → lane < 64 → slot < 4 →
      ∃ t sq', exec (.nameget d) s = .next t ∧ tabFind t.squads q = some sq' ∧ (∀ p, p ≠ q → tabFind t.squads p = tabFind s.squads p) ∧
        sq' = { sq with sc := sq'.sc, sname := sq'.sname } ∧ (d ≠ 0 → sq'.readS d.toNat = sq'.sname.setWidth 64) ∧
        (∀ y, y ≠ d.toNat ∨ y = 0 → sq'.readS y = sq.readS y) ∧
        sq'.sname.toNat = s.module.config.deviceId.toNat * 2 ^ 20 % 2 ^ 32 + i * 64 + ((s.dirEntry i).gen % 63 + 1) ∧
        t.dirEntry i = { st := 1, gen := (s.dirEntry i).gen % 63 + 1, core := core, lane := lane, slot := slot } ∧
        ∀ y, (y < s.dirAt i ∨ s.dirAt i + 16 ≤ y) → t.readByte y = s.readByte y) ∧
    ∃ t sq', exec .namerel s = .next t ∧ tabFind t.squads q = some sq' ∧ sq'.sname = 0 ∧
      (sq.sname ≠ 0 → (t.dirEntry (nameIndex sq.sname)).st = 4 ∧ (t.dirEntry (nameIndex sq.sname)).gen = (s.dirEntry (nameIndex sq.sname)).gen ∧
        (∀ c < 16, tabGet 0 (t.core sq.core).servers c ≠ sq.sname) ∧
        ∀ y, (y < s.dirAt (nameIndex sq.sname) ∨ s.dirAt (nameIndex sq.sname) + 16 ≤ y) → t.readByte y = s.readByte y) ∧
      (sq.sname = 0 → WordRan s t q sq sq 1 ∧ t.pairs = s.pairs))

/-- R274, R275, R279. TENDER takes a 64-byte task from scratch, enters a heat for it and waits for its result; SERVE registers the
squad's name for its class on its core and the core in the class's server mask, or raises ILLEGAL 11 for a squad without a name;
TAKE moves the oldest task of its class from the core's inbox into scratch, or returns 0. TENDER and TAKE wait while an element of
the squad is on its way to a bank (R204), and, refused and counted, while a bank that they need has served an access in the clock
(R150, log 69). R272, R273, R275, R276, R277, R278. A tender at the root, 12 clk after its issue, opens a window of its class's
length, of 16 clk where the class gives none, for the servers that its cores allow and that have not withdrawn; with none its
result is 0. The class reaches a bidder after 12 clk, (R12, R278; that these legs and the root's count decide which messages are
late is log 34), which sends its cost, and the bid is at the root 26 clk after the broadcast: it counts if the window is open
then, and is ignored in a shorter one. When the window closes, or with a DET region's last bid, the least cost wins, the nearest
core among equals. The winner's inbox takes the task while it has room, 12 clk later; a winner without room withdraws, and the
tender runs again, or with its third withdrawal traps at its word, the three cores in xaddr. The result, the serving name and the
core, reaches the tender's scalar 24 clk after that. -/
def Obligations.HeatsOfTasks : Prop :=
  (∀ (s : State) (q : Nat) (sq : Squad) (e : Exec) (d a : BitVec 6) (c : BitVec 4), s.current = some (q, sq, e) →
    let off := (sq.readS a.toNat).toNat
    let k := s.core sq.core
    let blk := s.block sq.blockOf
    let r := s.regionOf sq
    let free (write : Bool) : Prop := off % 64 = 0 ∧ off + 64 ≤ blk.size ∧
      ∀ i < 64, ∀ y ∈ k.bindings, y.acc = false → (y.excl = true ∨ write = true) →
        ¬ (y.lo ≤ blk.base + off + i ∧ blk.base + off + i ≤ y.hi)
    let still : Prop := ∀ z ∈ k.bank, z.squad ≠ q
    (free false → ¬ still → exec (.tender d a c) s = .next (s.holdWord .retry)) ∧
    (free true → ¬ still → exec (.take d a c) s = .next (s.holdWord .retry)) ∧
    let idle : Prop := k.idleBanks (blk.base + off)
    let refuses (i : Instr) : Prop := exec i s = .next ((s.bankRefuse sq.core).holdWord .retry)
    (free false → still → ¬ idle → refuses (.tender d a c)) ∧
    (free true → still → ¬ idle → (∃ y ∈ k.inbox, y.cls = c.toNat) → refuses (.take d a c)) ∧
    (free false → still → idle → ∃ t h, exec (.tender d a c) s = .next t ∧ t.squads = s.squads ∧ t.pairs = s.pairs ∧ (∀ y, t.readByte y = s.readByte y) ∧
      tabFind t.heats s.nextId = some h ∧ (∀ j, j ≠ s.nextId → tabFind t.heats j = tabFind s.heats j) ∧
      h.core = sq.core ∧ h.squad = q ∧ h.dest = d.toNat ∧ h.cls = c.toNat ∧ h.task = s.image64 sq off ∧ h.rcb = r.rcb ∧
      h.stage = .queued ∧ h.due = s.clockOfDie 8 + 12 ∧ (t.lane s.focus).cur = some { e with hold := some (.heat s.nextId) }) ∧
    (sq.sname = 0 → exec (.serve c) s = .next (s.trapWord q sq e 1 0 11)) ∧
    (sq.sname ≠ 0 → ∃ t, exec (.serve c) s = .next t ∧ CoreRan s t sq ∧ tabGet 0 (t.core sq.core).servers c.toNat = sq.sname ∧
      (∀ j, j ≠ c.toNat → tabGet 0 (t.core sq.core).servers j = tabGet 0 k.servers j) ∧
      ∀ j < 384, (t.classOf r.rcb c.toNat).servers.getLsbD j = ((s.classOf r.rcb c.toNat).servers.getLsbD j || decide (j = sq.core))) ∧
    (free true → still → (∀ y ∈ k.inbox, y.cls ≠ c.toNat) → ∃ t sq', exec (.take d a c) s = .next t ∧ ScalarRan s t q sq sq' d.toNat ∧
      sq'.readS d.toNat = 0) ∧
    ∀ before x after, k.inbox = before ++ x :: after → (∀ y ∈ before, y.cls ≠ c.toNat) → x.cls = c.toNat → x.core < 2 ^ 16 →
      x.task.length = 64 → free true → still → idle → ∃ t sq', exec (.take d a c) s = .next t ∧
        tabFind t.squads q = some sq' ∧ sq' = { sq with sc := sq'.sc } ∧ (∀ y, y ≠ d.toNat ∨ y = 0 → sq'.readS y = sq.readS y) ∧
        (d ≠ 0 → sq'.readS d.toNat = BitVec.ofNat 64 (2 ^ 48 + x.core * 2 ^ 32 + x.sname.toNat)) ∧
        (∀ p, p ≠ q → tabFind t.squads p = tabFind s.squads p) ∧ t.pairs = s.pairs ∧ (∀ y, t.readByte y = s.readByte y) ∧
        (∀ i < 64, tabGet 0 (t.core sq.core).scratch (blk.base + off + i) = x.task.getD i 0) ∧
        (∀ y, (y < blk.base + off ∨ blk.base + off + 64 ≤ y) → tabGet 0 (t.core sq.core).scratch y = tabGet 0 k.scratch y) ∧
        before ++ after <+: (t.core sq.core).inbox) ∧
  (∀ (s : State) (id core : Nat) (h : Heat), tabFind s.heats id = some h →
    let becomes (i : Instr) (x : Heat) : Prop := ∃ u, exec i s = .next u ∧ QuietOutside s u ∧ u.cores = s.cores ∧ tabFind u.heats id = some x ∧
      ∀ j, j ≠ id → tabFind u.heats j = tabFind s.heats j
    let cls := s.classOf h.rcb h.cls
    let bidders := (List.range 384).filter (fun c => h.coreMask.getLsbD c && cls.servers.getLsbD c && !h.withdrawn.contains c)
    let best (bids : List (Nat × Int)) (w : Nat) : Prop := ∃ x, (w, x) ∈ bids ∧ ∀ b ∈ bids, x ≤ b.2 ∧
      (b.2 = x → (w + 384 - h.core) % 384 ≤ (b.1 + 384 - h.core) % 384)
    let now := s.clockOfDie 8
    (h.stage = .queued → h.due ≤ now → (h.withdrawn ≠ [] ∨ (s.heats.filter (fun x => x.2.active)).length < 16) →
      (bidders = [] → becomes (.heatBroadcast id) { h with stage := .result 0 0, bids := [], due := now + 12 }) ∧
      (bidders ≠ [] → ∃ x, becomes (.heatBroadcast id) x ∧ x.stage = .window (now + (if cls.window = 0 then 16 else cls.window)) ∧
        x.bidders = bidders ∧ x.sent = [] ∧ x.bids = [] ∧ x.entry = cls ∧ x.task = h.task ∧ x.due = now + 12)) ∧
    (∀ closes, h.stage = .window closes → h.due ≤ now → core ∈ h.bidders → (∀ b ∈ h.sent ++ h.bids, b.1 ≠ core) →
      becomes (.heatBid id core) { h with sent := h.sent ++ [(core, s.bidCost h core)] }) ∧
    (∀ closes b, h.stage = .window closes → h.sent.find? (fun x => x.1 == core) = some b →
      (now < h.due + 14 → exec (.heatBidReceive id core) s = .next s) ∧
      (h.due + 14 ≤ now →
        (h.det = false → h.due + 14 ≤ closes →
          becomes (.heatBidReceive id core) { h with sent := h.sent.erase b, bids := h.bids ++ [b] }) ∧
        (h.det = false → closes < h.due + 14 → exec (.heatBidReceive id core) s = .next s) ∧
        (h.det = true → (∃ c ∈ h.bidders, ∀ x ∈ h.bids ++ [b], x.1 ≠ c) →
          becomes (.heatBidReceive id core) { h with sent := h.sent.erase b, bids := h.bids ++ [b] }) ∧
        (h.det = true → (∀ c ∈ h.bidders, ∃ x ∈ h.bids ++ [b], x.1 = c) → ∃ w, best (h.bids ++ [b]) w ∧
          becomes (.heatBidReceive id core) { h with stage := .award w, sent := [], bids := h.bids ++ [b], due := now + 12 }))) ∧
    (∀ closes, h.stage = .window closes → h.det = false → closes ≤ now →
      (h.bids = [] → closes < h.due + 14 → becomes (.heatWindowClose id) { h with stage := .result 0 0, sent := [], due := closes + 12 }) ∧
      (h.bids ≠ [] → (∀ c ∈ h.bidders, ∃ x ∈ h.bids, x.1 = c) →
        ∃ w, best h.bids w ∧ becomes (.heatWindowClose id) { h with stage := .award w, sent := [], due := closes + 12 })) ∧
    (h.stage = .award core → h.due ≤ now →
      let k := s.core core
      let moved (u : State) : Prop := u.squads = s.squads ∧ u.pairs = s.pairs ∧ (∀ a, u.readByte a = s.readByte a) ∧
        (∀ c, c ≠ core → u.core c = s.core c)
      (k.inbox.length < 16 → ∃ u, exec (.heatAward id) s = .next u ∧ moved u ∧
        (u.core core).inbox = k.inbox ++ [{ cls := h.cls, task := h.task, core := h.core, sname := h.sname }] ∧
        tabFind u.heats id = some { h with stage := .result (tabGet 0 k.servers h.cls) core, due := now + 24 }) ∧
      (16 ≤ k.inbox.length → h.det = true → exec (.heatAward id) s = .next s) ∧
      (16 ≤ k.inbox.length → h.det = false → h.withdrawn.length < 2 → ∃ u, exec (.heatAward id) s = .next u ∧ moved u ∧
        (u.core core).inbox = k.inbox ∧
        tabFind u.heats id = some { h with withdrawn := h.withdrawn ++ [core], stage := .queued, due := now + 12 }) ∧
      (∀ a b sq e, 16 ≤ k.inbox.length → h.det = false → h.withdrawn = [a, b] → tabFind s.squads h.squad = some sq → sq.isResident = true →
        (s.lane sq.laneOf).cur = some e → e.squad = h.squad → e.hold = some (.heat id) →
        exec (.heatAward id) s = .next (State.trapWord { s.coreEvent core 0x14 1 with heats := tabDel s.heats id } h.squad sq e 6
          (BitVec.ofNat 64 (a + b * 2 ^ 16 + core * 2 ^ 32)) 0))) ∧
    ∀ name c sq e, h.stage = .result name c → h.due ≤ now → tabFind s.squads h.squad = some sq → sq.isResident = true → (s.lane sq.laneOf).cur = some e →
      e.squad = h.squad → e.hold = some (.heat id) → ∃ u sq', exec (.heatResult id) s = .next u ∧ tabFind u.squads h.squad = some sq' ∧
        (h.dest ≠ 0 → sq'.readS h.dest = BitVec.ofNat 64 (name.toNat + c * 2 ^ 32)) ∧ (∀ r, r ≠ h.dest ∨ r = 0 → sq'.readS r = sq.readS r) ∧
        ((∃ th < 32, sq'.readVpc th ≠ exited) → ∀ p, p ≠ h.squad → tabFind u.squads p = tabFind s.squads p) ∧ tabFind u.heats id = none ∧ (u.lane sq.laneOf).cur = none ∧
        ∀ th < 32, inMask e.mask th = false → sq'.readVpc th = sq.readVpc th)

/-- R25, R26, R34, R43, R94, R95, R96, R98, R139. A branch sends its enabled threads to its target and the others stay in the
clause; BRX and RET take each thread's own register, and raise ILLEGAL at the lowest enabled thread whose target is not a multiple
of 4; CALL leaves the address after its clause in v31[31:0]; EXIT retires its threads, and a squad whose last thread it retires
loses its pair lock, its name becomes RETIRED in the directory, sname standing (log 32), and it begins to retire, once. BRA, BRX
and RET alone cancel the loops that a target leaves. -/
def Obligations.Branches : Prop :=
  ∀ (s : State) (q : Nat) (sq : Squad) (e : Exec) (g : BitVec 4) (n : BitVec 1) (f : BitVec 19) (a : BitVec 6),
    s.current = some (q, sq, e) →
    let act := sq.activeT e g n
    let hit (th : Nat) : Bool := sq.enabledT e g n th
    let goes (i : Instr) (target : Nat → Word) (cancels : Bool) : Prop :=
      ∃ t sq', exec i s = .next t ∧ LeftClause s t q sq sq' e hit act.length ∧ t.pairs = s.pairs ∧
        sq' = { sq with vpc := sq'.vpc, loop0 := sq'.loop0, loop1 := sq'.loop1, loop2 := sq'.loop2 } ∧
        (∀ th < 32, sq'.readVpc th = if hit th then target th else sq.readVpc th) ∧
        ∀ k < 3, if cancels then sq.loopAfter k (fun x => ∃ th ∈ act, x = target th) (sq'.loopN k) else sq'.loopN k = sq.loopN k
    let label : Word := e.clause.addr + f.signExtend 32 * 4
    let reg (th : Nat) : Word := (s.readV sq a.toNat th).setWidth 32
    goes (.bra g n f) (fun _ => label) true ∧
    ((sq.isResident = false ∨ sq.exiting = true ∨ ∃ th < 32, hit th = false ∧ sq.readVpc th ≠ 0xFFFFFFFF) → goes (.exit g n) (fun _ => 0xFFFFFFFF) false) ∧
    (sq.isResident = true → sq.exiting = false → (∀ th < 32, hit th = false → sq.readVpc th = 0xFFFFFFFF) → ∃ t sq', exec (.exit g n) s = .next t ∧
      tabFind t.squads q = some sq' ∧ (∀ th < 32, sq'.readVpc th = 0xFFFFFFFF) ∧ sq'.exiting = true ∧ sq'.sname = sq.sname ∧
      (sq.sname ≠ 0 → (t.dirEntry (nameIndex sq.sname)).st = 4) ∧
      sq'.remainder = none ∧ (t.pair sq.pairOf).owner ≠ some q ∧ (∀ k, k ≠ sq.pairOf → t.pair k = s.pair k) ∧
      (sq.sname = 0 → sq' = { sq with vpc := sq'.vpc, exiting := true, remainder := none } ∧
        (∀ p, p ≠ q → tabFind t.squads p = tabFind s.squads p) ∧ ∀ a, t.readByte a = s.readByte a)) ∧
    (s.mayName q sq [a.toNat] → ∀ i ∈ [Instr.brx g n a, .ret g n a],
      ((∀ th ∈ act, (reg th).toNat % 4 = 0) → goes i reg true) ∧
      ∀ before th after, act = before ++ th :: after → (∀ u ∈ before, (reg u).toNat % 4 = 0) → (reg th).toNat % 4 ≠ 0 →
        exec i s = .next (s.trapWord q sq e 1 ((reg th).setWidth 64) 0)) ∧
    ∃ t sq', exec (.call g n f) s = .next t ∧ LeftClause s t q sq sq' e hit act.length ∧ t.pairs = s.pairs ∧
      sq' = { sq with vpc := sq'.vpc, v := sq'.v } ∧ (∀ th < 32, sq'.readVpc th = if hit th then label else sq.readVpc th) ∧
      (∀ th < 32, t.readV sq' 31 th =
        if hit th then (s.readV sq 31 th).extractLsb' 32 32 ++ (e.clause.addr + BitVec.ofNat 32 (4 * (hdrCount e.clause.hdr + 1)))
        else s.readV sq 31 th) ∧
      ∀ r < 64, r ≠ 31 → ∀ th < 32, t.readV sq' r th = s.readV sq r th

/-- R59, R300, R301. A squad whose barrier has completed takes its role: BAR and BARC write 0xFF into pd of all its threads for
the squad that holds the epilogue role and 0x00 for the others. A generation in progress of the other kind, or a BARC of another
count, met at its issue or at its word, raises ILLEGAL 13, and a BARC count of 0 or above 16 raises ILLEGAL 3. -/
def Obligations.BarrierWords : Prop :=
  ∀ (s : State) (q : Nat) (sq : Squad) (e : Exec) (p : BitVec 7) (a : BitVec 6) (b : BitVec 4), s.current = some (q, sq, e) →
    let count := (sq.readS a.toNat).toNat
    let bar := tabGet ({} : Barrier) (s.block sq.blockOf).barriers b.toNat
    let takes (i : Instr) (role : Bool) : Prop := ∃ t sq', exec i s = .next t ∧ WordRan s t q sq sq' 1 ∧ t.pairs = s.pairs ∧
      sq' = { sq with pr := sq'.pr, barRole := none } ∧
      (∀ th < 32, sq'.readP p.toNat th = if p = 0 ∨ role = true then 0xFF else 0x00) ∧
      ∀ r < 128, r ≠ p.toNat ∨ r = 0 → ∀ th < 32, sq'.readP r th = sq.readP r th
    (∀ role, sq.barRole = some role → takes (.bar p b) role ∧ (1 ≤ count → count ≤ 16 → takes (.barc p a b) role)) ∧
    (sq.barRole = none → (e.clash = true ∨ (bar.arrivals ≠ [] ∧ bar.barc = true ∧ bar.arrivals.length < bar.count)) → exec (.bar p b) s = .next (s.trapWord q sq e 1 0 13)) ∧
    (sq.barRole = none → (e.clash = true ∨ (bar.arrivals ≠ [] ∧ (bar.barc = false ∨
        (bar.count ≠ count ∧ bar.arrivals.length < bar.count)))) → 1 ≤ count → count ≤ 16 →
      exec (.barc p a b) s = .next (s.trapWord q sq e 1 0 13)) ∧
    (count = 0 ∨ 16 < count → exec (.barc p a b) s = .next (s.trapWord q sq e 1 0 3))

/-- R99, R134, R203, R214, R304. NOP and WAIT change nothing; YIELD ends the lane's turn; COMMIT enters the commit section; PASS,
in it, LNEXT hold the squad's next clause, an LNEXT of a released squad for no engine any more; COMMIT, WAITPRED and WAITDONE drop
the lines of the core's L1 that are not of CORE scope. A PASS outside a commit section raises ILLEGAL 12. R136, R138, R140. A LOOP
whose body nests sets its counter and its frame, cancelling the loops it sets aside, and its body leaves the loop buffer but where
a later pass of a loop around it issues from there; with a trip count of 0 it leaves its loop inactive and sends the clause's
threads past the body at the clause's end; one whose body does not nest raises ILLEGAL 1 with the body's end in xaddr, and no
counter or frame changes. R25, R62, R137. A word whose clause has no word after it ends the clause: the lane is free, and every
thread still in the clause takes the address behind it, A + 4(COUNT + 1); if the clause closes active loops, the most recently
started whose counter is above 1 lowers it and the threads take its start instead, which is counted (0x15); each that closes
inside it, or each when none loops back, ends with its counter 0. A clause with no thread left in it, or one in privileged state,
acts on no loop. A LOOP that skips its body sends them to its end. -/
def Obligations.WaitsAndLoops : Prop :=
  (∀ (s : State) (q : Nat) (sq : Squad) (e : Exec) (g : BitVec 4) (n : BitVec 1) (l b c : BitVec 5) (k : BitVec 4),
    s.current = some (q, sq, e) →
    let acquired (t : State) : Prop := CoreRan s t sq ∧ t.core sq.core = { (s.charge sq 1).core sq.core with l1 := (t.core sq.core).l1 } ∧
      ∀ x, x ∈ (t.core sq.core).l1 ↔ x ∈ (s.core sq.core).l1 ∧ x.2.scope = 0
    let holds (i : Instr) (w : NextWait) : Prop :=
      ∃ t, exec i s = .next t ∧ WordRan s t q sq (sq.await w) 1 ∧ t.pairs = s.pairs
    (∃ t, exec (.nop g n) s = .next t ∧ WordRan s t q sq sq (sq.activeT e g n).length ∧ t.pairs = s.pairs) ∧
    (∃ t, exec (.wait l b c k) s = .next t ∧ WordRan s t q sq sq 1 ∧ t.pairs = s.pairs) ∧
    (∃ t, exec .yield s = .next t ∧ CoreRan s t sq ∧ t.lane s.focus = { s.lane s.focus with ended := true } ∧
      ∀ j, j ≠ s.focus → t.lane j = s.lane j) ∧
    (∃ t, exec .commit s = .next t ∧ acquired t ∧
      tabFind t.launches sq.launch = (tabFind s.launches sq.launch).map (fun x => { x with inSection := true }) ∧
      ∀ j, j ≠ sq.launch → tabFind t.launches j = tabFind s.launches j) ∧
    (∃ t, exec .waitpred s = .next t ∧ acquired t ∧ t.launches = s.launches) ∧
    (∃ t, exec .waitdone s = .next t ∧ acquired t ∧ t.launches = s.launches) ∧
    holds .lnext (.lnext (if sq.released then 0 else s.nextId) none) ∧
    (s.inSection sq = true → holds .pass (.pass s.nextId)) ∧
    (s.inSection sq = false → exec .pass s = .next (s.trapWord q sq e 1 0 12))) ∧
  (∀ (s : State) (q : Nat) (sq : Squad) (e : Exec) (c : BitVec 2) (l : BitVec 8) (b : BitVec 6), s.current = some (q, sq, e) → c ≠ 3 →
    let start : Word := e.clause.addr + BitVec.ofNat 32 (4 * (hdrCount e.clause.hdr + 1))
    let len := l.toNat + 1
    let trips : Word := (sq.readS b.toNat).setWidth 32
    let own := sq.loopN c.toNat
    let aside (m : Nat) : Prop := own.active = true ∧ (sq.loopN m).active = true ∧ own.seq ≤ (sq.loopN m).seq
    let nests : Prop := ∀ m < 3, (sq.loopN m).active = true → ¬ aside m →
      (sq.loopN m).start.toNat ≤ start.toNat ∧ start.toNat + 4 * len ≤ (sq.loopN m).start.toNat + 4 * (sq.loopN m).len.toNat
    (nests → ∃ t sq', exec (.loop c l b) s = .next t ∧ tabFind t.squads q = some sq' ∧
      (∀ p, p ≠ q → tabFind t.squads p = tabFind s.squads p) ∧ t.pairs = s.pairs ∧ (∀ a, t.readByte a = s.readByte a) ∧
      sq' = { sq with loop0 := sq'.loop0, loop1 := sq'.loop1, loop2 := sq'.loop2, loopBuf := sq'.loopBuf } ∧
      (∀ m < 3, m ≠ c.toNat → (aside m → (sq'.loopN m).active = false ∧ (sq'.loopN m).lc = 0) ∧ (¬ aside m → sq'.loopN m = sq.loopN m)) ∧
      (sq'.loopN c.toNat).lc = trips ∧ (sq'.loopN c.toNat).active = decide (trips ≠ 0) ∧
      (trips ≠ 0 → (sq'.loopN c.toNat).start = start ∧ (sq'.loopN c.toNat).len.toNat = len ∧
        (sq'.loopN c.toNat).again = false ∧ (∀ y x, tabFind sq'.loopBuf y = some x → start.toNat ≤ y → y < start.toNat + 4 * len →
          ∃ m < 3, m ≠ c.toNat ∧ (sq'.loopN m).active = true ∧ (sq'.loopN m).inside y = true ∧ (sq'.loopN m).again = true) ∧
        (∀ m < 3, m ≠ c.toNat → (sq'.loopN m).seq < (sq'.loopN c.toNat).seq) ∧ t.lanes = s.lanes) ∧
      (trips = 0 → sq'.loopBuf = sq.loopBuf ∧ (t.lane s.focus).cur = some { e with jump := some (start + BitVec.ofNat 32 (4 * len)) })) ∧
    (¬ nests → exec (.loop c l b) s = .next (s.trapWord q sq e 1 (BitVec.ofNat 64 (start.toNat + 4 * len)) 1))) ∧
  (∀ (s t : State) (i : Instr) (e0 e : Exec) (sq : Squad), s.agenda = [] → (s.lane s.focus).cur = some e0 → e0.hold = none →
    e0.idx ≤ e0.clause.words.length → e0.clause.instrAt e0.idx = some i → exec i s = .next t → (t.lane t.focus).cur = some e → e.hold = none →
    e.clause.words.length < e.idx + (if i.isLong then 2 else 1) → tabFind t.squads e.squad = some sq →
    let behind := e.clause.addr + BitVec.ofNat 32 (4 * (hdrCount e.clause.hdr + 1))
    let closes (n : Nat) : Prop := (sq.loopN n).active = true ∧ (sq.loopN n).start.toNat ≤ e.clause.addr.toNat ∧
      e.clause.addr.toNat + 4 * (hdrCount e.clause.hdr + 1) = (sq.loopN n).start.toNat + 4 * (sq.loopN n).len.toNat
    let inner (m n : Nat) : Prop := (sq.loopN n).seq < (sq.loopN m).seq
    let finished (l l' : Loop) : Prop := l' = { l with lc := 0, active := false }
    ∃ u sq', step s = .next u ∧ (u.lane t.focus).cur = none ∧ tabFind u.squads e.squad = some sq' ∧
      (∀ th < 32, e.mask.getLsbD th = false → sq'.readVpc th = sq.readVpc th) ∧
      ((∃ th < 32, sq'.readVpc th ≠ 0xFFFFFFFF) → (∀ p, p ≠ e.squad → tabFind u.squads p = tabFind t.squads p) ∧ u.pairs = t.pairs ∧
        sq' = { sq with vpc := sq'.vpc, loop0 := sq'.loop0, loop1 := sq'.loop1, loop2 := sq'.loop2 } ∧ ∀ a, u.readByte a = t.readByte a) ∧
      let at_ (a : Word) : Prop := ∀ th < 32, e.mask.getLsbD th = true → sq'.readVpc th = a
      let kept (n : Nat) : Prop := sq'.loopN n = sq.loopN n
      (∀ a, e.jump = some a → at_ a ∧ ∀ n < 3, kept n) ∧
      (e.jump = none → (sq.priv = true ∨ e.mask = 0 ∨ ∀ n < 3, ¬ closes n) → at_ behind ∧ (∀ n < 3, kept n) ∧
        (u.core sq.core).events = (t.core sq.core).events) ∧
      (e.jump = none → sq.priv = false → e.mask ≠ 0 → (∀ m < 3, ∀ n < 3, closes m → closes n → m ≠ n → inner m n ∨ inner n m) →
        (∀ n < 3, closes n → 1 < (sq.loopN n).lc.toNat → (∀ m < 3, closes m → inner m n → (sq.loopN m).lc.toNat ≤ 1) →
          at_ (sq.loopN n).start ∧ (u.core sq.core).events = ((t.coreEvent sq.core 0x15 1).core sq.core).events ∧
          sq'.loopN n = { sq.loopN n with lc := (sq.loopN n).lc - 1, again := true } ∧
          ∀ m < 3, m ≠ n → (closes m ∧ inner m n → finished (sq.loopN m) (sq'.loopN m)) ∧ (¬ (closes m ∧ inner m n) → kept m)) ∧
        ((∀ n < 3, closes n → (sq.loopN n).lc.toNat ≤ 1) → at_ behind ∧ (u.core sq.core).events = (t.core sq.core).events ∧
          ∀ n < 3, (closes n → finished (sq.loopN n) (sq'.loopN n)) ∧ (¬ closes n → kept n))))

/-- R59, R68, R69, R70, R101, R107, R108, R135. FLAGSET and FLAGCLR act on the flags of their mask; ARM sets a hold count; XLOCK
takes a free pair lock, the pair's registers and counts zeroed for a new holder, and XUNLOCK releases it; GETID gives a thread its
number and the squad its identities; SETMODE sets the rounding mode and seeds the generators; ELECT marks the lowest enabled
thread. -/
def Obligations.SquadWords : Prop :=
  ∀ (s : State) (q : Nat) (sq : Squad) (e : Exec) (g : BitVec 4) (n : BitVec 1) (p : BitVec 7) (a c d : BitVec 6) (m : BitVec 12)
    (r : BitVec 3), s.current = some (q, sq, e) →
    let only (i : Instr) (sq' : Squad) : Prop := ∃ t, exec i s = .next t ∧ WordRan s t q sq sq' 1 ∧ t.pairs = s.pairs
    let pair := s.pair sq.pairOf
    only (.flagset m) { sq with flagF := sq.flagF ||| m } ∧
    only (.flagclr m) { sq with flagF := sq.flagF &&& ~~~ m, flagE := sq.flagE &&& ~~~ m } ∧
    (s.mayName q sq [d.toNat] → ∃ t sq', exec (.arm d c) s = .next t ∧ WordRan s t q sq sq' 1 ∧ sq' = { sq with hold := sq'.hold } ∧
      t.pair sq.pairOf = { pair with hold := (t.pair sq.pairOf).hold } ∧ t.readHold sq' d.toNat = c ∧
      ∀ x < 64, x ≠ d.toNat → t.readHold sq' x = s.readHold sq x) ∧
    (pair.owner = none ∨ pair.owner = some q → ∃ t, exec .xlock s = .next t ∧ WordRan s t q sq sq 1 ∧
      (t.pair sq.pairOf).owner = some q ∧ (t.pair sq.pairOf).last = some q ∧
      if pair.owner = some q ∨ pair.last = some q then (t.pair sq.pairOf).v = pair.v ∧ (t.pair sq.pairOf).hold = pair.hold
      else (t.pair sq.pairOf).v = [] ∧ (t.pair sq.pairOf).hold = []) ∧
    (∃ t, exec .xunlock s = .next t ∧ WordRan s t q sq sq 1 ∧
      t.pair sq.pairOf = { pair with owner := if pair.owner = some q then none else pair.owner }) ∧
    (s.mayName q sq [d.toNat] → ∃ t sq', exec (.getid g n d 0) s = .next t ∧
      VecRan s t q sq sq' d.toNat (sq.activeE e g n 64 1).length ∧
      ∀ th < 32, t.readV sq' d.toNat th = if sq.elementOn e g n 64 th 0 then BitVec.ofNat 64 th else s.readV sq d.toNat th) ∧
    (∀ row ∈ [((1 : BitVec 7), sq.qid), (2, sq.bx), (3, sq.byy), (4, sq.bz), (5, sq.cluster), (6, sq.core), (7, s.module.config.deviceId.toNat)],
      ∃ t sq', exec (.getid g n d row.1) s = .next t ∧ ScalarRan s t q sq sq' d.toNat ∧
        sq'.readS d.toNat = if d = 0 then 0 else BitVec.ofNat 64 row.2) ∧
    (∃ t sq', exec (.setmode a r) s = .next t ∧ WordRan s t q sq sq' 1 ∧ t.pairs = s.pairs ∧
      sq' = { sq with mode := sq'.mode, gen := sq'.gen } ∧ sq'.mode.extractLsb' 0 3 = r ∧
      sq'.mode.extractLsb' 3 29 = sq.mode.extractLsb' 3 29 ∧
      ∀ th < 32, sq'.readGen th = genSeed ((sq.readS a.toNat).setWidth 32) th) ∧
    ∃ t sq', exec (.elect g n p) s = .next t ∧ PredRan s t q sq sq' p.toNat (sq.activeT e g n).length ∧
      ∀ th < 32, sq'.readP p.toNat th = if p ≠ 0 ∧ sq.enabledT e g n th then
        (if ∀ u < th, sq.enabledT e g n u = false then 0xFF else 0x00) else sq.readP p.toNat th

/-- R26, R71, R72, R100, R299. TRAP, in a squad with a handler and not yet in privileged state, enters the handler with cause 0x80
+ code and the mask of its enabled threads in xaddr; with no thread enabled it does nothing. R26, R71, R72, R299. A precise trap
at the word in execution, in a squad with a handler and not in privileged state, whatever its cause, writes the trap registers and
enters the handler. R73, R284, R299. A precise trap of a squad in privileged state, or of one whose region has no handler, kills
the squads of its fault domain; none of them enters a handler. -/
def Obligations.Traps : Prop :=
  (∀ (s : State) (q : Nat) (sq : Squad) (e : Exec) (g : BitVec 4) (n : BitVec 1) (k : BitVec 7), s.current = some (q, sq, e) →
    let act := sq.activeT e g n
    (act = [] → ∃ t, exec (.trap g n k) s = .next t ∧ WordRan s t q sq sq 1 ∧ t.pairs = s.pairs) ∧
    (act ≠ [] → sq.priv = false → (s.regionOf sq).handler ≠ 0 → (s.regionOf sq).handler < (s.regionOf sq).codeSize →
      (s.regionOf sq).handler < 2 ^ 32 - 1 →
      ∃ t x, exec (.trap g n k) s = .next t ∧ TrapTaken s t q sq e (0x80 + k.toNat) x 0 ∧
        ∀ i < 64, x.getLsbD i = (decide (i < 32) && sq.enabledT e g n i))) ∧
  (∀ (s : State) (q : Nat) (sq : Squad) (e : Exec) (cause : Nat) (xaddr : Reg) (detail : Nat), s.current = some (q, sq, e) →
    sq.priv = false → (s.regionOf sq).handler ≠ 0 → (s.regionOf sq).handler < (s.regionOf sq).codeSize →
    (s.regionOf sq).handler < 2 ^ 32 - 1 →
    TrapTaken s (s.trapWord q sq e cause xaddr detail) q sq e cause xaddr detail) ∧
  (∀ (s : State) (q : Nat) (sq : Squad) (e : Exec) (cause : Nat) (xaddr : Reg) (detail : Nat), s.current = some (q, sq, e) →
    (sq.priv = true ∨ (s.regionOf sq).handler = 0 ∨ (s.regionOf sq).codeSize ≤ (s.regionOf sq).handler) →
    (s.regionOf sq).within (s.regionOf sq).domain = true →
    let t := s.trapWord q sq e cause xaddr detail
    (∃ sq', tabFind t.squads q = some sq' ∧ sq'.live = [] ∧ sq'.xcause = sq.xcause) ∧
    ∀ l x p y, (l, x) ∈ s.launches → x.region.within (s.regionOf sq).domain = true → tabFind s.squads p = some y → y.launch = l →
      tabFind t.launches l = none ∧ ∃ y', tabFind t.squads p = some y' ∧ y'.place = .retired ∧ y'.live = [])

/-- R27. A SYS word of a squad that is not in privileged state raises PRIV at its clause's header, and does nothing else. -/
def Obligations.SystemWordPrivilege : Prop :=
  ∀ (s : State) (q : Nat) (sq : Squad) (e : Exec) (d a b : BitVec 6) (c : BitVec 12) (n : BitVec 4) (m : BitVec 1),
    s.current = some (q, sq, e) → sq.priv = false →
    ∀ i ∈ sysRows d a b c n m,
      exec i s = .next (s.trapHeader q sq e.mask 7 (hdrClass e.clause.hdr) e.clause.addr 0 0)

/-- R76. RFT restores vpc of all 32 threads from xvpc, clears privileged state, and leaves the rest of the trapped clause to be
resumed at xpc for the threads of xinfo[63:32], when xinfo[3:0] is not 0, with the target that a LOOP of that clause had given its
end (R136, log 17); a squad that it leaves without a live thread begins to retire. That RFT ends its own clause is an inference
(log 17). A management firmware squad raises ILLEGAL. -/
def Obligations.ReturnFromTrap : Prop :=
  ∀ (s : State) (q : Nat) (sq : Squad) (e : Exec), s.current = some (q, sq, e) → sq.priv = true →
    (sq.mgmt = false → (∃ th < 32, tabGet 0 sq.xvpc th ≠ 0xFFFFFFFF) → ∃ t sq', exec .rft s = .next t ∧ tabFind t.squads q = some sq' ∧
      (∀ p, p ≠ q → tabFind t.squads p = tabFind s.squads p) ∧ t.pairs = s.pairs ∧ (∀ a, t.readByte a = s.readByte a) ∧
      (t.lane sq.laneOf).cur = none ∧ sq' = { sq with vpc := sq'.vpc, priv := false, remainder := sq'.remainder } ∧
      (∀ th < 32, sq'.readVpc th = tabGet 0 sq.xvpc th) ∧
      (sq.xinfo.extractLsb' 0 4 = 0 → sq'.remainder = none) ∧
      (sq.xinfo.extractLsb' 0 4 ≠ 0 → ∃ r, sq'.remainder = some r ∧ r.index = (sq.xinfo.extractLsb' 0 4).toNat ∧
        r.addr + BitVec.ofNat 32 (4 * r.index) = sq.xpc ∧ r.mask = sq.xinfo.extractLsb' 32 32 ∧
        ∀ a, r.jump = some a ↔ sq.xjump = some (r.addr, a))) ∧
    (sq.mgmt = false → sq.isResident = true → sq.exiting = false → (∀ th < 32, tabGet 0 sq.xvpc th = 0xFFFFFFFF) → ∃ t sq', exec .rft s = .next t ∧ tabFind t.squads q = some sq' ∧
      sq'.live = [] ∧ sq'.priv = false ∧ sq'.exiting = true ∧ sq'.remainder = none ∧ (t.lane sq.laneOf).cur = none) ∧
    (sq.mgmt = true → exec .rft s = .next (s.trapWord q sq e 1 0 0))

/-- R74, R75, R128, R147, R148. In privileged state CSRRD reads every squad CSR, zero-extended, and CSRWR writes every one that
may be written and changes nothing else; a number that is not listed, and CSRWR of a read-only one, raise ILLEGAL; a hold count of
v32 to v63 without the pair lock raises XSET. That an unlisted number raises ILLEGAL is an inference (log 42). EVRD reads a core
event counter and EVSEL selects, enables and clears one. R157, R227, R272, R309, R318. In privileged state TLBINV and REPLAY hold
the squad's next clause, and LKEYARM does so for its marker; BIDF sets the entry of its class from 16 bytes of memory, read as one
element, LKEYLD the idle key slots of its link from 128, and REPLAY sends a release of the 64-byte record it reads. An address
that is not aligned raises ILLEGAL 1, and an LKEYARM of a slot that is not loaded, ILLEGAL 3. -/
def Obligations.SystemRegisters : Prop :=
  (∀ (s : State) (q : Nat) (sq : Squad) (e : Exec) (d a : BitVec 6) (c : BitVec 12) (n : BitVec 4),
    s.current = some (q, sq, e) → sq.priv = true →
    let k := s.core sq.core
    let x := sq.readS a.toNat
    let lockNeeded : Prop := 0x060 ≤ c.toNat ∧ c.toNat ≤ 0x07F ∧ s.holdsLock q sq = false
    let reads (v : Reg) : Prop := ∃ t sq', exec (.csrrd d c) s = .next t ∧ ScalarRan s t q sq sq' d.toNat ∧
      sq'.readS d.toNat = if d = 0 then 0 else v
    let writes (sq' : Squad) : Prop := ∃ t, exec (.csrwr a c) s = .next t ∧ WordRan s t q sq sq' 1 ∧ t.pairs = s.pairs
    let illegal (i : Instr) : Prop := exec i s = .next (s.trapWord q sq e 1 0 0)
    (c = 0x000 → reads (sq.xcause.setWidth 64) ∧ writes { sq with xcause := x.setWidth 8 }) ∧
    (c = 0x001 → reads (sq.xpc.setWidth 64) ∧ writes { sq with xpc := x.setWidth 32 }) ∧
    (c = 0x002 → reads sq.xaddr ∧ writes { sq with xaddr := x }) ∧
    (c = 0x003 → reads sq.xinfo ∧ writes { sq with xinfo := x }) ∧
    (c = 0x004 → reads (sq.mode.setWidth 64) ∧ illegal (.csrwr a c)) ∧
    (c = 0x005 → reads (sq.sname.setWidth 64) ∧ illegal (.csrwr a c)) ∧
    (∀ th < 32, c.toNat = 0x020 + th → reads ((tabGet 0 sq.xvpc th).setWidth 64) ∧
      ∃ sq', writes sq' ∧ sq' = { sq with xvpc := sq'.xvpc } ∧ tabGet 0 sq'.xvpc th = x.setWidth 32 ∧
        ∀ u, u ≠ th → tabGet 0 sq'.xvpc u = tabGet 0 sq.xvpc u) ∧
    (∀ r < 64, c.toNat = 0x040 + r → (r < 32 ∨ s.holdsLock q sq = true) → reads ((s.readHold sq r).setWidth 64) ∧
      ∃ t sq', exec (.csrwr a c) s = .next t ∧ WordRan s t q sq sq' 1 ∧ sq' = { sq with hold := sq'.hold } ∧
        t.pair sq.pairOf = { s.pair sq.pairOf with hold := (t.pair sq.pairOf).hold } ∧
        t.readHold sq' r = x.setWidth 6 ∧ ∀ u < 64, u ≠ r → t.readHold sq' u = s.readHold sq u) ∧
    (lockNeeded → ∀ i ∈ [Instr.csrrd d c, .csrwr a c], exec i s = .next (s.trapWord q sq e 2 (BitVec.ofNat 64 (c.toNat - 0x040)) 0)) ∧
    (c = 0x100 → reads (sq.flagF.setWidth 64 ||| (sq.flagE.setWidth 64) <<< 16) ∧
      writes { sq with flagF := x.setWidth 12, flagE := x.extractLsb' 16 12 }) ∧
    (c = 0x101 → reads (sq.flagP.setWidth 64) ∧ illegal (.csrwr a c)) ∧
    (c = 0x102 → reads (sq.ocLd.setWidth 64 ||| (sq.ocSt.setWidth 64) <<< 8 ||| (sq.ocCp.setWidth 64) <<< 16 |||
      (sq.ocTl.setWidth 64) <<< 24) ∧ illegal (.csrwr a c)) ∧
    (∀ m < 3, c.toNat = 0x104 + m → reads ((sq.loopN m).lc.setWidth 64) ∧ illegal (.csrwr a c)) ∧
    (∀ m < 3, c.toNat = 0x108 + m → reads ((sq.loopN m).start.setWidth 64 ||| ((sq.loopN m).len.setWidth 64) <<< 32 |||
      (if (sq.loopN m).active then 0x1000000000000 else 0)) ∧ illegal (.csrwr a c)) ∧
    (c = 0x110 → reads (k.mogul.setWidth 64) ∧ illegal (.csrwr a c)) ∧
    (c = 0x111 → reads (sq.underflow.setWidth 64) ∧ writes { sq with underflow := x.setWidth 32 }) ∧
    (∀ y < 4, c.toNat = 0x114 + y → reads ((tabGet 0 k.missed y).setWidth 64) ∧ illegal (.csrwr a c)) ∧
    (c = 0x120 → reads (s.deadLetter.setWidth 64) ∧ illegal (.csrwr a c)) ∧
    ((0x006 ≤ c.toNat ∧ c.toNat < 0x020) ∨ (0x080 ≤ c.toNat ∧ c.toNat < 0x100) ∨ c = 0x103 ∨ c = 0x107 ∨
      (0x10B ≤ c.toNat ∧ c.toNat < 0x110) ∨ c = 0x112 ∨ c = 0x113 ∨ (0x118 ≤ c.toNat ∧ c.toNat < 0x120) ∨ 0x120 < c.toNat →
      illegal (.csrrd d c) ∧ illegal (.csrwr a c)) ∧
    (∃ t sq', exec (.evrd d n) s = .next t ∧ ScalarRan s t q sq sq' d.toNat ∧
      sq'.readS d.toNat = if d = 0 then 0 else (tabGet {} (if e.idx = e.first then e.counts else k.events) n.toNat).count.setWidth 64) ∧
    ∃ t, exec (.evsel a n) s = .next t ∧ CoreRan s t sq ∧
      t.core sq.core = { (s.charge sq 1).core sq.core with events := (t.core sq.core).events } ∧
      (tabGet {} (t.core sq.core).events n.toNat).source = x.setWidth 8 ∧ (tabGet {} (t.core sq.core).events n.toNat).en = x.getLsbD 8 ∧
      (x.getLsbD 9 = true → (tabGet {} (t.core sq.core).events n.toNat).count = 0) ∧
      ∀ j, j ≠ n.toNat → tabGet {} (t.core sq.core).events j = tabGet {} ((s.charge sq 1).core sq.core).events j) ∧
  (∀ (s : State) (q : Nat) (sq : Squad) (e : Exec) (a b : BitVec 6) (n : BitVec 4), s.current = some (q, sq, e) → sq.priv = true → e.hold = none →
    let k := s.core sq.core
    let r := s.regionOf sq
    let at_ := (sq.readS a.toNat).toNat
    let quiet (m z : Nat) : Prop := s.combining = [] ∧ s.tileFigs = [] ∧ k.path = [] ∧ k.held = [] ∧ s.struck = [] ∧
      (∀ o ∈ s.loads, o.2.squad = q → ∀ l ∈ o.2.elems, l.st ≠ .waiting) ∧
      ∀ i < m, at_ + z * i < 2 ^ 56 ∧ ∃ p, s.translateIn sq.core r (at_ + z * i) = .page p ∧ p.r = true ∧ p.host = false ∧ p.home = 3 ∧
        s.isPoisoned (p.pa (at_ + z * i)) = false
    let bytes (m z : Nat) : List Byte := (List.range m).flatMap (fun i =>
      match s.translateIn sq.core r (at_ + z * i) with
      | .page p => s.readBytes (p.pa (at_ + z * i)) z
      | .absent => []
      | .malformed => [])
    (∀ m : BitVec 1, ∃ t, exec (.tlbinv m a b) s = .next t ∧ WordRan s t q sq (sq.await (.tlbinv
      ((sq.readS b.toNat).toNat % 65536) (if m = 1 then none else some (at_ % 2 ^ 56)) s.nextId none)) 1 ∧ t.pairs = s.pairs) ∧
    ((s.link n.toNat).txIdle.valid = true → (s.link n.toNat).keyAddr = some at_ → ∃ t, exec (.lkeyarm a n) s = .next t ∧
      tabFind t.squads q = some (sq.await (.marker n.toNat)) ∧
      (∀ p, p ≠ q → tabFind t.squads p = tabFind s.squads p) ∧ (∀ y, t.readByte y = s.readByte y) ∧
      t.link n.toNat = { s.link n.toNat with armed := (s.link n.toNat).armed ++ [q] } ∧ ∀ j, j ≠ n.toNat → t.link j = s.link j) ∧
    (((s.link n.toNat).txIdle.valid = false ∨ (s.link n.toNat).keyAddr ≠ some at_) →
      exec (.lkeyarm a n) s = .next (s.trapWord q sq e 1 0 3)) ∧
    (at_ % 16 ≠ 0 → exec (.bidf a n) s = .next (s.trapWord q sq e 1 (BitVec.ofNat 64 at_) 1)) ∧
    (at_ % 64 ≠ 0 → ∀ i ∈ [Instr.lkeyld a n, .replay a], exec i s = .next (s.trapWord q sq e 1 (BitVec.ofNat 64 at_) 1)) ∧
    (at_ % 16 = 0 → quiet 1 16 → ∀ x, classEntryOf (bytes 1 16) (s.classOf r.rcb n.toNat).servers = some x →
      ∃ t, exec (.bidf a n) s = .next t ∧ t.squads = s.squads ∧ t.pairs = s.pairs ∧ (∀ y, t.readByte y = s.readByte y) ∧
        t.classOf r.rcb n.toNat = x) ∧
    (at_ % 64 = 0 → quiet 16 8 → (∀ i, 0x52 ≤ i → i < 128 → (bytes 16 8).getD i 0 = 0) →
      ∃ t, exec (.lkeyld a n) s = .next t ∧ t.squads = s.squads ∧ t.pairs = s.pairs ∧ (∀ y, t.readByte y = s.readByte y) ∧
        t.link n.toNat = (s.link n.toNat).load (bytes 16 8) at_) ∧
    (at_ % 64 = 0 → quiet 8 8 →
      ∃ t op, exec (.replay a) s = .next t ∧ tabFind t.squads q = some (sq.await (.replay op)) ∧
        (∀ p, p ≠ q → tabFind t.squads p = tabFind s.squads p) ∧ t.pairs = s.pairs ∧ (∀ y, t.readByte y = s.readByte y) ∧
        t.releases = s.releases ++ [{ id := op, squad := some q, record := bytes 8 8 }]))

/-- R22, R23, R27, R97, R140, R224, R226, R340. The lane of a squad whose clause has ended fetches the next one: the header at the
issue address, then the words that its COUNT gives, in address order, each from the loop buffer in a pass after a loop's first,
else from its home. A clause that passes the stages waits to be issued. When its lane is free and it is the squad's turn, a POISON
that waits, a clause that fails the clause check and a SYS clause outside privileged state enter the handler at the header, in
that order, with index 0. The first word that cannot be fetched raises PROT there instead, with detail 1 at or beyond the code
segment's end and detail 8 on a page without X, or parks the squad with kind X on a page that is not resident. That a trap is
taken on the squad's turn whatever its next clause would wait for is an inference (log 16). R25, R63, R64, R300. A free lane gives
the squad whose turn it is its clause: one more to the squad that issued last, while it still holds its slot, if that was its
first clause of the turn and nothing ended the turn, which is the model's choice where it may (log 18); else the first ready squad
after it in slot order. The clause starts with its participating threads. -/
def Obligations.ClauseFetchAndIssue : Prop :=
  (∀ (s : State) (q : Nat) (sq : Squad) (a m h : Word) (i : Nat) (w : Nat → Word), tabFind s.squads q = some sq →
    s.mayTake q sq = true → sq.nextStart = some (a, i, m) → sq.fetched = none → s.calm →
    let g := s.regionOf sq
    let later (b : Nat) : Prop := ∃ l ∈ sq.loops, l.2.active = true ∧ l.2.inside b = true ∧ l.2.again = true
    let word (header : Bool) (b : Nat) (x : Word) : Prop := (later b ∧ tabFind sq.loopBuf b = some x) ∨
      ((¬ later b ∨ tabFind sq.loopBuf b = none) ∧ s.codeWord sq.core g header b = .ok x)
    let due (s1 : State) : Prop := (s.lane sq.laneOf).cur = none ∧ (s1.choice sq.laneOf).map (·.1) = some q
    let turn (s1 : State) : Prop := due s1 ∧ sq.priv = false ∧
      sq.arrived = none ∧ g.handler ≠ 0 ∧ g.handler < g.codeSize ∧ g.handler < 2 ^ 32 - 1
    (∀ n ≤ 15, let b := a.toNat + 4 * n
      (n = 0 ∨ (word true a.toNat h ∧ n ≤ hdrCount h ∧ ∀ j < n - 1, word false (a.toNat + 4 * (j + 1)) (w j))) →
      (¬ later b ∨ tabFind sq.loopBuf b = none) → ∃ s1, Fetched s s1 sq.core ∧
      let raises (xaddr : Nat) (d : BitVec 8) : Prop := turn s1 → ∃ t sq', exec (.clauseFetch q) s = .next t ∧
        tabFind t.squads q = some sq' ∧ sq'.xcause = 9 ∧ sq'.xpc = a ∧ sq'.xaddr = BitVec.ofNat 64 xaddr ∧
        sq'.xinfo.extractLsb' 0 4 = 0 ∧ sq'.xinfo.extractLsb' 8 8 = d ∧ sq'.xinfo.extractLsb' 32 32 = m ∧ sq'.priv = true ∧
        (∀ y, t.readByte y = s.readByte y)
      (g.codeSize ≤ b → raises (if n = 0 then a.toNat else g.codeSize) 1) ∧
      (b < g.codeSize → g.codeBase + b < 2 ^ 56 →
        (∀ p, s.translateIn sq.core g (g.codeBase + b) = .page p → p.x = false → raises (g.codeBase + b) 8) ∧
        (s.translateIn sq.core g (g.codeBase + b) = .absent → due s1 → ∃ t f, exec (.clauseFetch q) s = .next t ∧
          tabFind t.squads q = some { sq with parked := some [(g.codeBase + b) / 4096] } ∧ (t.lane sq.laneOf).cur = none ∧
          (t.core sq.core).filterWait = (s.core sq.core).filterWait ++ [f] ∧ f.page = (g.codeBase + b) / 4096 ∧ f.kinds = 4 ∧
          f.asid = g.asid ∧ f.party = 2 * q ∧ (∀ y, t.readByte y = s.readByte y)))) ∧
    (word true a.toNat h → (∀ j < hdrCount h, word false (a.toNat + 4 * (j + 1)) (w j)) →
    let c : Clause := { addr := a, hdr := h, words := (List.range (hdrCount h)).map w }
    let sound : Prop := sq.poison = none ∨ sq.remainder ≠ none
    let at_ : Exec := { squad := q, clause := c, idx := 0, mask := m }
    ∃ s1, Fetched s s1 sq.core ∧
      (sound → sq.clauseCheck c = none → (hdrClass h ≠ 7 ∨ sq.priv = true) →
        exec (.clauseFetch q) s = .next { s1 with squads := tabIns s.squads q { sq with fetched := some c } }) ∧
      (∀ x, turn s1 → sq.remainder = none → sq.poison = some x → ∃ t, exec (.clauseFetch q) s = .next t ∧
        TrapTaken { s1 with squads := tabIns s.squads q { sq with poison := none } } t q { sq with poison := none } at_ 10 x.1 x.2.toNat) ∧
      (∀ k < 16, turn s1 → sound → sq.clauseCheck c = some k → ∃ t sq',
        exec (.clauseFetch q) s = .next t ∧ tabFind t.squads q = some sq' ∧ sq'.xcause = 1 ∧ sq'.xpc = a + BitVec.ofNat 32 (4 * k) ∧
        sq'.xinfo.extractLsb' 0 4 = 0 ∧ sq'.xinfo.extractLsb' 32 32 = m ∧ sq'.priv = true ∧ (∀ y, t.readByte y = s.readByte y)) ∧
      (turn s1 → sound → sq.clauseCheck c = none → hdrClass h = 7 → ∃ t, exec (.clauseFetch q) s = .next t ∧
        TrapTaken s1 t q sq at_ 7 0 0))) ∧
  (∀ (s : State) (lane q : Nat) (sq : Squad) (c : Clause) (i : Nat) (m : Word),
    let s1 := s.arrivals lane
    let l := s1.lane lane
    let ok (k : Nat) : Prop := ∃ e, s1.inSlot lane ((l.last + k) % 4) = some e ∧ s1.counts e.1 e.2 = true
    l.cur = none → l.last < 4 → tabFind s1.squads q = some sq → s1.counts q sq = true → s1.take sq = .ok c i m →
    let begins (turns : Nat) : Prop := ∃ t sq', exec (.clauseIssue lane) s = .next t ∧
      t.lane lane = { last := sq.slot, who := q, turns := turns, ended := false, cur := some { squad := q, clause := c, idx := i, mask := m, jump := sq.remainder.bind (·.jump), clash := s1.clashes sq (c.uses i), first := i, counts := (s1.core sq.core).events } } ∧
      (∀ k, k ≠ lane → t.lane k = s1.lane k) ∧ tabFind t.squads q = some sq' ∧
      sq' = { sq with fetched := none, remainder := none, wcbWait := [], loopBuf := sq'.loopBuf } ∧
      (∀ p, p ≠ q → tabFind t.squads p = tabFind s1.squads p) ∧ (∀ y, t.readByte y = s.readByte y) ∧
      t = { s1.coreEvent sq.core 0x02 1 with squads := t.squads, lanes := t.lanes }
    (l.turns = 1 → l.ended = false → l.who = q → s1.inSlot lane l.last = some (q, sq) → begins 2) ∧
    ∀ k, 1 ≤ k → k ≤ 4 → s1.inSlot lane ((l.last + k) % 4) = some (q, sq) → (∀ j, 1 ≤ j → j < k → ¬ ok j) →
      ¬ (l.turns = 1 ∧ l.ended = false ∧ ok 0 ∧ (s1.inSlot lane (l.last % 4)).map (·.1) = some l.who) → begins 1)

/-- R67, R131, R158, R161, R164. An element of an outstanding load or atomic returns: its value, extended as its word says, is
written to its destination in its thread, unless the squad has no live thread, which discards every result, or, as log 41 has it,
the destination is in v32 to v63 without the pair lock; LDG.NF also writes its residency predicate, and POISON leaves the
destination and waits for the squad's next header. The load ends with its last element. R7, R152, R156, R202, R204, R216, R217. A
waiting element of a GLOBAL load, among the first 4,096 requests of its core, is performed once no earlier access of its squad to
one of its bytes waits: every byte from the youngest store of its core's path that covers it, else all from a valid L1 line, else
from its home, little-endian, an element of 16 bytes (BIDF's) as one; a poisoned line gives POISON. While the youngest entry on a
byte that it may see is an atomic or a figure issued before it, it only takes note that its home serves it, past L1. Nothing is
written. -/
def Obligations.LoadsCompletion : Prop :=
  (∀ (s : State) (op t : Nat) (o : LoadOp) (sq : Squad) (l : Elem) (v : Reg), tabFind s.loads op = some o → t < 32 → o.dest < 64 →
    o.elems.find? (fun x => x.thread == t) = some l → tabFind s.squads o.squad = some sq →
    let live : Prop := sq.exiting = false ∧ sq.place ≠ .retired
    let may : Prop := live ∧ (o.dest < 32 ∨ s.holdsLock o.squad sq = true)
    let returns (p : State → Squad → Prop) : Prop := ∃ u sq', exec (.loadCompletion op t) s = .next u ∧ Returned s u op t o sq sq' ∧ p u sq'
    let vector (x : Reg) (u : State) (sq' : Squad) : Prop := sq'.sc = sq.sc ∧ u.readV sq' o.dest t = (if may then x else s.readV sq o.dest t) ∧
      ∀ r < 64, ∀ th < 32, (r ≠ o.dest ∨ th ≠ t) → u.readV sq' r th = s.readV sq r th
    let residency (x : Byte) (sq' : Squad) : Prop := ∀ r < 128, ∀ th < 32,
      sq'.readP r th = if r = 64 + o.dest ∧ th = t ∧ live then x else sq.readP r th
    (∀ signed, o.kind = .vec signed → l.st = .ready v →
      returns (fun u sq' => vector (extend signed o.size v.toNat) u sq' ∧ sq'.pr = sq.pr)) ∧
    (o.kind = .given → l.st = .ready v → returns (fun u sq' => vector v u sq' ∧ sq'.pr = sq.pr)) ∧
    (o.kind = .given → l.st = .bad 2 → returns (fun u sq' => vector 0 u sq' ∧ sq'.pr = sq.pr)) ∧
    (o.kind = .nf → l.st = .ready v → returns (fun u sq' => vector v u sq' ∧ residency 0xFF sq')) ∧
    (o.kind = .nf → l.st = .skip → returns (fun u sq' => vector 0 u sq' ∧ residency 0x00 sq')) ∧
    ((o.kind = .scalar ∨ o.kind = .grab) → l.st = .ready v → returns (fun _ sq' => sq'.v = sq.v ∧ sq'.pr = sq.pr ∧
      (o.dest ≠ 0 → live → sq'.readS o.dest = v) ∧ ∀ r, r ≠ o.dest ∨ r = 0 ∨ ¬ live → sq'.readS r = sq.readS r)) ∧
    (∀ signed d, o.kind = .vec signed → l.st = .bad d → returns (fun u sq' => sq'.v = sq.v ∧ u.pairs = s.pairs ∧ sq'.sc = sq.sc ∧
      ((∀ x ∈ o.elems, x.thread ≠ t → x.st = .done) → o.bad = none → sq.poison = none →
        sq'.poison = some (BitVec.ofNat 64 l.va, BitVec.ofNat 8 d))))) ∧
  (∀ (s : State) (op t : Nat) (o : LoadOp) (l : Elem), tabFind s.loads op = some o →
    o.elems.find? (fun x => x.thread == t) = some l → l.st = .waiting → o.global = true → s.calm → 0 < o.size →
    l.pa % 128 + o.size ≤ 128 →
    let k := s.core o.core
    let meets (host : Bool) (pa n : Nat) : Prop := host = l.host ∧ pa < l.pa + o.size ∧ l.pa < pa + n
    let waits : Prop := (∃ h ∈ k.held, h.squad = o.squad ∧ h.op < op ∧ meets h.host h.lo h.len) ∨
      (∃ y ∈ s.loads, y.1 < op ∧ y.2.squad = o.squad ∧ y.2.global = true ∧ ∃ x ∈ y.2.elems, x.st = .waiting ∧ meets x.host x.pa y.2.size) ∨
      ∃ x ∈ o.elems, x.thread < t ∧ x.st = .waiting ∧ meets x.host x.pa o.size
    let path := k.path.filter (fun e => e.isStore || decide (e.op < op))
    let clear : Prop := ∀ e ∈ path, ∀ i < o.size, e.touches l.host (l.pa + i) 1 = false
    let miss : Prop := l.host = true ∨ l.home = 3 ∨ l.late = true ∨ ∀ x, tabFind k.l1 (l.pa / 128) = some x → k.l1Valid x = false
    let bad : Prop := l.host = false ∧ s.isPoisoned l.pa = true
    let got (v : Nat) : ElemState := if o.size = 16 then .wide (BitVec.ofNat 128 v) else .ready (BitVec.ofNat 64 v)
    let performs (st : ElemState) (more : State → Prop) : Prop := ∃ u, exec (.loadAtHome op t) s = .next u ∧ QuietOutside s u ∧
      tabFind u.loads op = some (o.setElem t st) ∧ (∀ j, j ≠ op → tabFind u.loads j = tabFind s.loads j) ∧
      (∀ c, c ≠ o.core → u.core c = s.core c) ∧ (k.held = [] → (u.core o.core).path = k.path) ∧ more u
    (waits ∨ 4096 ≤ s.pipeBefore o.core op t → exec (.loadAtHome op t) s = .next s) ∧
    (¬ waits → s.pipeBefore o.core op t < 4096 →
      (∀ e i, i < o.size → youngest path l.host (l.pa + i) = some e → e.isStore = false → exec (.loadAtHome op t) s = .next
        { s with loads := tabIns s.loads op { o with elems := o.elems.map (fun x => if x.thread = t then { x with late := true } else x) } }) ∧
      (clear → miss → ¬ bad → performs (got (leVal (s.homeBytes l.host l.pa o.size))) (fun u =>
        k.path = [] → k.held = [] → k.l1.length < 8192 → l.host = false → (l.home = 0 ∨ l.home = 1) →
          tabFind (u.core o.core).l1 (l.pa / 128) = some { scope := l.scope, fill := k.clk, data := s.readBytes (l.pa / 128 * 128) 128 })) ∧
      (clear → miss → bad → performs (if o.kind = .nf then .skip else .bad 1) (fun u => k.held = [] → (u.core o.core).l1 = k.l1)) ∧
      (∀ line, clear → l.host = false → l.home ≠ 3 → l.late = false → tabFind k.l1 (l.pa / 128) = some line → k.l1Valid line = true →
        line.data.length = 128 →
        performs (got (leVal ((List.range o.size).map (fun i => line.data.getD (l.pa % 128 + i) 0))))
          (fun u => k.held = [] → (u.core o.core).l1 = k.l1)) ∧
      (∀ e bs, (∀ i < o.size, youngest path l.host (l.pa + i) = some e) → e.kind = .store bs →
        performs (got (leVal ((List.range o.size).map (fun i => bs.getD (l.pa + i - e.pa) 0))))
          (fun u => k.held = [] → (u.core o.core).l1 = k.l1))))

/-- R131, R200, R201, R331. The oldest element on its line of a core's store path, or one behind another squad's BF16X2 element
that is between its halves (R216), is accepted by its home: a store writes its bytes there and nowhere else, the store that covers
a whole line clears its poison, and oc.st falls with a store's last element. R166, R167, R168, R216, R218. The oldest element on
its line of a core's store path that is an atomic, or one behind another squad's BF16X2 element that is between its halves,
performs its read-modify-write at its home in one step, the BF16X2 form in two, its low half first; the old value returns to its
element, and a poisoned line gives POISON and no write. Its line leaves its core's L1 once more as it is performed, which is an
inference (log 51). -/
def Obligations.StoresAndAtomicsAtHome : Prop :=
  (∀ (s : State) (core k : Nat) (e : PathEntry) (bs : List Byte), (s.core core).path[k]? = some e →
    (∀ x ∈ (s.core core).path.take k, x.sharesLine e = false ∨ x.between e = true) → s.calm → e.kind = .store bs → bs.length = e.size →
    let c := s.core core
    let last (rest : List PathEntry) : Prop := ∀ x ∈ rest ++ c.held ++ c.leaving, x.op ≠ e.op
    let counted (u : State) (rest : List PathEntry) : Prop :=
      (last rest → tabFind u.squads e.squad = (tabFind s.squads e.squad).map (fun sq => { sq with ocSt := sq.ocSt - 1 })) ∧
      (¬ last rest → tabFind u.squads e.squad = tabFind s.squads e.squad)
    (e.whole = false → ∃ u, exec (.storeAccept core k) s = .next u ∧ counted u (c.path.eraseIdx k) ∧
      (u.core core).path = c.path.eraseIdx k ∧ (u.core core).held = c.held ∧ (u.core core).l1 = c.l1 ∧
      (∀ j, j ≠ core → u.core j = s.core j) ∧ (∀ p, p ≠ e.squad → tabFind u.squads p = tabFind s.squads p) ∧ u.pairs = s.pairs ∧
      (∀ a, u.homeByte e.host a = if e.pa ≤ a ∧ a < e.pa + e.size then bs.getD (a - e.pa) 0 else s.homeByte e.host a) ∧
      ∀ a, u.homeByte (!e.host) a = s.homeByte (!e.host) a) ∧
    (e.whole = true →
      let es := c.path.filter (fun x => x.op == e.op && x.whole && x.onLine e.host e.pa)
      let rest := c.path.filter (fun x => !(x.op == e.op && x.whole && x.onLine e.host e.pa))
      (∀ x ∈ es, x.host = e.host ∧ x.bytes.length = x.size) →
      es.Pairwise (fun x y => x.pa + x.size ≤ y.pa ∨ y.pa + y.size ≤ x.pa) →
      ∃ u, exec (.storeAccept core k) s = .next u ∧ counted u rest ∧ (u.core core).path = rest ∧
        (e.host = false → u.isPoisoned e.pa = false) ∧
        (∀ x ∈ es, ∀ i < x.size, u.homeByte e.host (x.pa + i) = x.bytes.getD i 0) ∧
        (∀ a, (∀ x ∈ es, a < x.pa ∨ x.pa + x.size ≤ a) → u.homeByte e.host a = s.homeByte e.host a) ∧
        (∀ a, u.homeByte (!e.host) a = s.homeByte (!e.host) a) ∧
        (∀ p, p ≠ e.squad → tabFind u.squads p = tabFind s.squads p) ∧ u.pairs = s.pairs)) ∧
  (∀ (s : State) (core k : Nat) (e : PathEntry) (x y : Reg), (s.core core).path[k]? = some e →
    (∀ z ∈ (s.core core).path.take k, z.sharesLine e = false ∨ z.between e = true) → s.calm → e.host = false → e.gran = 0 →
    let m := s.readLe e.pa e.size
    let good : Prop := s.isPoisoned e.pa = false
    let performs (new ret : Nat) : Prop := good → ∃ u, exec (.atomicAtHome core k) s = .next u ∧ LeftPath s u core k e ∧
      u.squads = s.squads ∧ u.host = s.host ∧ u.readLe e.pa e.size = new ∧
      u.loads = tabMod s.loads e.op (fun o => o.setElem e.thread (.ready (BitVec.ofNat 64 ret))) ∧
      tabFind (u.core core).l1 (e.pa / 128) = none
    (∀ v < 2, let W := 32 * (v + 1)
      e.size = W / 8 →
      (∀ row ∈ atomicRows W, e.kind = .atomic row.2.2.1 v x y → performs (row.2.2.2 m (x.toNat % 2 ^ W)) m) ∧
      (e.kind = .atomic 9 v x y → performs (if m = x.toNat % 2 ^ W then y.toNat % 2 ^ W else m) m)) ∧
    (e.size = 4 → e.kind = .addF32 x → performs (fadd .f32 .rne m (x.toNat % 2 ^ 32) 0) m) ∧
    (e.size = 4 → e.kind = .addBf16 x none → good → ∃ u, exec (.atomicAtHome core k) s = .next u ∧ QuietOutside s { u with hbm := s.hbm } ∧
      u.readLe e.pa 2 = fadd .bf16 .rne (m % 65536) (x.toNat % 65536) 0 ∧
      (∀ a, (a < e.pa ∨ e.pa + 2 ≤ a) → u.readByte a = s.readByte a) ∧ u.loads = s.loads ∧
      (u.core core).path = (s.core core).path.set k { e with kind := .addBf16 x (some (m % 65536)) }) ∧
    (∀ lo < 65536, e.size = 4 → e.kind = .addBf16 x (some lo) →
      performs (m % 65536 + 65536 * fadd .bf16 .rne (m / 65536) (x.toNat / 65536 % 65536) 0) (lo + 65536 * (m / 65536))) ∧
    (e.size = 16 → e.kind = .grab →
      let next := m % 2 ^ 32
      let rem := m / 2 ^ 32 % 2 ^ 32 - next
      let chunk := min rem (max (m / 2 ^ 64 % 2 ^ 32) ((rem + 2 * max 1 (m / 2 ^ 96) - 1) / (2 * max 1 (m / 2 ^ 96))))
      performs (next + chunk + m / 2 ^ 32 * 2 ^ 32) (chunk * 2 ^ 32 + next)) ∧
    (¬ good → e.isAtomic = true → ∃ u, exec (.atomicAtHome core k) s = .next u ∧ LeftPath s u core k e ∧ QuietOutside s u ∧
      u.loads = tabMod s.loads e.op (fun o => o.setElem e.thread (.bad 1))))

/-- R202, R203, R212, R214, R226, R227, R230. L1 lines of a scope beyond CORE expire after 4,096 clk; a walk that ends in a
well-formed leaf enters it in the TLB, unless it is stale. A fence, a PASS, an LNEXT and a TLBINV end the wait of their squad's
next clause once all that they wait for is done: a fence beyond CORE invalidates L1's lines of a scope beyond CORE, PASS sends the
token on, LNEXT marks the squad released, once its copies and tile operations are over, MCAST and REDX left out, which is the
model's choice against R214's "every copy and tile operation" (log 65), and TLBINV, after its own release, invalidates its TLB
entries, with ALL unpins the lines of its address space and frees its pin table entries, waits for what the entries translated,
and drops what a walk begun before it ended has installed since. R165. A write-combining entry that nothing has written for 2,048
clk leaves its core's buffer as one packet to its device. -/
def Obligations.MemoryWaits : Prop :=
  (∀ (s : State) (q core line : Nat) (sq : Squad),
    (∀ x, tabFind (s.core core).l1 line = some x → x.scope ≠ 0 → 4096 ≤ (s.core core).clk - x.fill →
      ∃ u, exec (.l1LineExpiry core line) s = .next u ∧ QuietOutside s u ∧ tabFind (u.core core).l1 line = none ∧
        (∀ j, j ≠ line → tabFind (u.core core).l1 j = tabFind (s.core core).l1 j) ∧ ∀ c, c ≠ core → u.core c = s.core c) ∧
    (∀ w asid va, s.walkInFlight core asid va = some w → s.calm → ∃ u, exec (.pageWalkComplete core asid va) s = .next u ∧
      QuietOutside s u ∧ u.walks = s.walks.erase w ∧ (∀ c, c ≠ core → u.core c = s.core c) ∧
      (∀ p, s.walk w.root w.va = .page p → w.stale = false →
        (u.core core).tlb.head? = some { asid := asid, page := va / p.size, size := p.size, leaf := p.leaf }) ∧
      ((w.stale = true ∨ ∀ p, s.walk w.root w.va ≠ .page p) → u.core core = s.core core)) ∧
    (tabFind s.squads q = some sq → s.combining = [] →
      (∀ scope upto, sq.nextWait = some (.fence scope upto) → s.releasedAt q sq.core scope upto → ∃ u, exec (.fenceComplete q) s = .next u ∧
        SquadOnly s u q sq.waited ∧ (∀ c, c ≠ sq.core → u.core c = s.core c) ∧
        (u.core sq.core).l1 = if scope = 0 then (s.core sq.core).l1 else (s.core sq.core).l1.filter (fun x => x.2.scope == 0)) ∧
      (∀ upto l, sq.nextWait = some (.pass upto) → s.releasedAt q sq.core 2 upto → tabFind s.launches sq.launch = some l →
        ∃ u l', exec (.fenceComplete q) s = .next u ∧ SquadOnly s u q sq.waited ∧
          tabFind u.launches sq.launch = some l' ∧ l'.tokenHere = false ∧ l'.inSection = false) ∧
      (∀ upto, sq.nextWait = some (.lnext upto none) → sq.exiting = false → (∀ c ∈ (s.core sq.core).copies, c.squad = q → c.kind ≠ .mcast → upto ≤ c.id) →
        (∀ c ∈ (s.core sq.core).tiles, c.squad = q → upto ≤ c.id) →
        (s.releasedAt q sq.core 2 s.nextId → ∃ u, exec (.lnextRelease q) s = .next u ∧
          SquadOnly s u q { sq.waited with released := true }) ∧
        (¬ s.releasedAt q sq.core 2 s.nextId → ∃ u, exec (.lnextRelease q) s = .next u ∧
          SquadOnly s u q { sq with nextWait := some (.lnext upto (some s.nextId)) })) ∧
      (∀ asid va upto, sq.nextWait = some (.tlbinv asid va upto none) → s.releasedAt q sq.core 2 upto →
        ∃ u, exec (.tlbinvComplete q) s = .next u ∧ SquadOnly s u q { sq with nextWait := some (.tlbinv asid va upto (some s.nextId)) } ∧
          (∀ c ∈ u.cores, ∀ e ∈ c.2.tlb, e.asid = asid → ∃ v, va = some v ∧ e.page ≠ v / e.size) ∧
          (∀ c ∈ u.cores, ∃ k, (c.1, k) ∈ s.cores ∧ c.2.tlb = k.tlb.filter (fun e => !(e.asid == asid && pageHas e.page e.size va))) ∧
          (va = none → u.pins = s.pins.filter (fun p => p.asid != asid) ∧ ∀ l, tabFind u.l2 l = (tabFind s.l2 l).map (fun x =>
            if x.asid = asid then { x with pinned := false } else x)) ∧
          (va ≠ none → u.pins = s.pins ∧ u.l2 = s.l2) ∧
          ∀ w ∈ u.walks, w.asid = asid → w.stale = true) ∧
      (∀ asid va upto n, sq.nextWait = some (.tlbinv asid va upto (some n)) → (∀ w ∈ s.walks, w.asid ≠ asid ∨ w.stale = false) →
        (∀ o ∈ s.loads, o.1 < n → o.2.asid = asid → ∀ l ∈ o.2.elems, l.st ≠ .waiting) →
        (∀ c ∈ s.cores, ∀ e ∈ c.2.path ++ c.2.held ++ c.2.leaving, e.op < n → e.asid ≠ asid) →
        ∃ u, exec (.tlbinvComplete q) s = .next u ∧ SquadOnly s u q sq.waited ∧
          (∀ c, u.core c = { s.core c with tlb := (s.core c).tlb.filter (fun e => !(e.asid == asid && pageHas e.page e.size va)) }) ∧
          ∀ w ∈ u.walks, w.asid = asid → w.stale = true))) ∧
  (∀ (s : State) (core k : Nat) (w : WcbEntry), (s.core core).wcb[k]? = some w → 2048 ≤ (s.core core).clk - w.last →
    ∃ u m, exec (.wcbAgeDrain core k) s = .next u ∧ QuietOutside s u ∧ u.pod = s.pod ++ [m] ∧ m.dst = w.dev ∧ m.off = w.line * 128 ∧
      m.kind = .write w.data ∧ m.mine = true ∧ m.core = core ∧ (u.core core).wcb = (s.core core).wcb.erase w ∧
      ∀ c, c ≠ core → u.core c = s.core c)

/-- R231, R232, R235. The pages of parked parties enter their core's fault filter in parking order: a page with an entry adds its
kinds and its waiter to it, another takes a free entry of the 64; with none free a page with an entry passes those without. An
entry with news is forwarded to its die's stage, which merges it with the entry of the same key or creates one. A release of a
page record that a die stage still holds frees the entry and every filter entry of its key on its die, and no other, and releases
every party that waits for the page there, a squad and a copy; any other changes nothing. A release that a squad asked for ends
that squad's wait, and no other of its waits. R232, R233, R234, R324. A page entry of a die stage is posted 64 die clk after its
creation, and an unposted entry tries again every 4,096: with room in its ring its record is written at the tail of the ring,
whose base counts with 52 bits (log 58), and the tail then rises; an entry with a waiter stays, one with none is freed with its
filter entries that hold none either. The fault queue's interrupt is raised: to the management controller when its header says so
or for causes 11, 0x25 and 0x26, else its vector of the owner function, as a message, or as a pending bit while the vector is
masked; a vector that the function lacks is not sent, and logged with kind 3. With the ring full the overflow count rises by one
the first time, and the entry stays unposted. -/
def Obligations.FaultRecords : Prop :=
  (∀ (s : State) (core die : Nat),
    (∀ w rest, (s.core core).filterWait = w :: rest →
      let k := s.core core
      let same (x : FilterEntry) : Prop := x.asid = w.asid ∧ x.fq = w.fq ∧ x.page = w.page
      ((∀ x ∈ k.filter, ¬ same x) → k.filter.length < 64 → ∃ u y, exec (.faultFilterAdmit core) s = .next u ∧ QuietOutside s u ∧
        (u.core core).filterWait = rest ∧ (u.core core).filter = k.filter ++ [y] ∧ same y ∧ y.kinds = w.kinds ∧ y.waiters = [w.party] ∧
        ∀ c, c ≠ core → u.core c = s.core c) ∧
      (∀ a x b, k.filter = a ++ x :: b → same x → (∀ y ∈ a ++ b, ¬ same y) → w.party ∉ x.waiters → x.waiters.Nodup →
        ∃ u, exec (.faultFilterAdmit core) s = .next u ∧ QuietOutside s u ∧ (u.core core).filterWait = rest ∧
          (u.core core).filter = a ++ { x with kinds := x.kinds ||| w.kinds, waiters := x.waiters ++ [w.party] } :: b ∧
          ∀ c, c ≠ core → u.core c = s.core c) ∧
      ((∀ v ∈ w :: rest, ∀ x ∈ k.filter, ¬ (x.asid = v.asid ∧ x.fq = v.fq ∧ x.page = v.page)) → 64 ≤ k.filter.length →
        exec (.faultFilterAdmit core) s = .next s) ∧
      (∀ before v after, w :: rest = before ++ v :: after → 64 ≤ k.filter.length →
        (∀ y ∈ before, ∀ x ∈ k.filter, ¬ (x.asid = y.asid ∧ x.fq = y.fq ∧ x.page = y.page)) →
        (∃ x ∈ k.filter, x.asid = v.asid ∧ x.fq = v.fq ∧ x.page = v.page) →
        ∃ u, exec (.faultFilterAdmit core) s = .next u ∧ QuietOutside s u ∧ (u.core core).filterWait = before ++ after ∧
          ∃ x ∈ (u.core core).filter, x.asid = v.asid ∧ x.fq = v.fq ∧ x.page = v.page ∧ v.party ∈ x.waiters)) ∧
    (∀ f, s.dieFilters die = [(core, f)] → f.sent = none →
      let same (x : StageEntry) : Prop := x.matches_ die f.asid f.fq f.page = true
      let told (u : State) : Prop := ∀ x ∈ (u.core core).filter, x.asid = f.asid → x.fq = f.fq → x.page = f.page →
        x.sent = some (f.kinds, f.waiters)
      ((∀ x ∈ s.stage, ¬ same x) → s.stageCount die < 256 → ∃ u y, exec (.faultStageForward die) s = .next u ∧ QuietOutside s u ∧
        u.stage = s.stage ++ [y] ∧ y.die = die ∧ y.asid = f.asid ∧ y.fq = f.fq ∧ y.page = f.page ∧ y.rcb = f.rcb ∧ y.kinds = f.kinds ∧
        y.waiters = f.waiters ∧ y.cores = BitVec.ofNat 48 (2 ^ (core % 48)) ∧ y.posted = false ∧ y.born = s.clockOfDie die ∧ told u) ∧
      (∀ a x b, s.stage = a ++ x :: b → same x → (∀ y ∈ a ++ b, ¬ same y) → ∃ u y, exec (.faultStageForward die) s = .next u ∧
        QuietOutside s u ∧ u.stage = a ++ y :: b ∧ y.kinds = x.kinds ||| f.kinds ∧
        y.cores = x.cores ||| BitVec.ofNat 48 (2 ^ (core % 48)) ∧ y = { x with kinds := y.kinds, waiters := y.waiters, cores := y.cores } ∧ (∀ p, p ∈ y.waiters ↔ p ∈ x.waiters ∨ p ∈ f.waiters) ∧ told u) ∧
      ((∀ x ∈ s.stage, ¬ same x) → 256 ≤ s.stageCount die → exec (.faultStageForward die) s = .next s)) ∧
    (∀ (k : Nat) (r : Release) (e : StageEntry), s.releases[k]? = some r → r.squad = none → Machine.fld r.record 0x0A 1 = 8 →
      s.stage = [e] → e.die = Machine.fld r.record 0x10 8 / 2 ^ 48 % 8 → e.posted = true → e.record = none →
      e.asid = Machine.fld r.record 8 2 → e.page = Machine.fld r.record 0 8 / 4096 → e.rcb = Machine.fld r.record 0x20 8 →
      let own (c : Nat) (f : FilterEntry) : Bool := decide (dieOfCore c = e.die ∧ f.asid = e.asid ∧ f.fq = e.fq ∧ f.page = e.page)
      let waits (p : Nat) : Prop := p ∈ e.waiters ∨ ∃ c ∈ s.cores, ∃ f ∈ c.2.filter, own c.1 f = true ∧ p ∈ f.waiters
      let left (ps : List Nat) : List Nat := ps.filter (fun p => p != e.page)
      ∃ u, exec (.replayRelease k) s = .next u ∧ u.stage = [] ∧ u.releases = s.releases.eraseIdx k ∧ u.pairs = s.pairs ∧
        (∀ a, u.readByte a = s.readByte a) ∧ u.host = s.host ∧
        (∀ c, (u.core c).filter = (s.core c).filter.filter (fun f => !own c f)) ∧
        (∀ q sq, tabFind s.squads q = some sq → (¬ waits (2 * q) → tabFind u.squads q = some sq) ∧
          (waits (2 * q) → sq.parked = none → tabFind u.squads q = some sq) ∧
          ∀ ps, waits (2 * q) → sq.parked = some ps →
            tabFind u.squads q = some { sq with parked := if left ps = [] then none else some (left ps) }) ∧
        ∀ c x, x ∈ (s.core c).copies → waits (2 * x.id + 1) →
          (∀ k ∈ s.cores, (∀ w ∈ k.2.filterWait, w.party ≠ 2 * x.id + 1) ∧
            ∀ f ∈ k.2.filter, own k.1 f = false → 2 * x.id + 1 ∉ f.waiters) →
          { x with parked := false } ∈ (u.core c).copies) ∧
    (∀ (k : Nat) (r : Release) (q : Nat) (sq : Squad), s.releases[k]? = some r → r.squad = some q → Machine.fld r.record 0x0A 1 ≠ 8 → tabFind s.squads q = some sq →
      sq.nextWait = some (.replay r.id) → ∃ u, exec (.replayRelease k) s = .next u ∧ SquadOnly s u q (sq.waitedFor (.replay r.id)) ∧
        u.cores = s.cores ∧ u.stage = s.stage ∧ u.releases = s.releases.eraseIdx k)) ∧
  (∀ (s : State) (die k : Nat) (e : StageEntry), (s.stageOf die)[k]? = some e → s.stage.count e = 1 → e.posted = false →
    let h := e.fq
    let tail := s.readLe (h + 0x10) 4
    let at_ := s.readLe h 8 % 2 ^ 52 + 64 * (tail % 2 ^ s.readLe (h + 8) 4)
    let record := (e.record.getD e.rec_.bytes).take 64
    let cause := match e.record with | some bs => Machine.fld bs 0x0A 1 | none => 8
    let intr := s.readLe (h + 0x0C) 4
    let vector := 256 * e.fn + intr % 65536
    let own : Prop := intr / 65536 % 2 = 0 ∧ cause ∉ [11, 0x25, 0x26]
    let room : Prop := (tail + 2 ^ 32 - s.readLe (h + 0x14) 4) % 2 ^ 32 ≠ 2 ^ s.readLe (h + 8) 4
    let apart : Prop := at_ + 64 ≤ h ∨ h + 64 ≤ at_
    let key (c : Nat) (f : FilterEntry) : Bool := decide (dieOfCore c = e.die ∧ f.asid = e.asid ∧ f.fq = e.fq ∧ f.page = e.page)
    let posts (i : Instr) : Prop :=
      (room → apart → (∀ bs, e.record = some bs → bs.length = 64) → ∃ u, exec i s = .next u ∧ u.squads = s.squads ∧ u.pairs = s.pairs ∧
        (∀ j < 64, u.readByte (at_ + j) = record.getD j 0) ∧ u.readLe (h + 0x10) 4 = (tail + 1) % 2 ^ 32 ∧
        (∀ a, (a < at_ ∨ at_ + 64 ≤ a) → (a < h + 0x10 ∨ h + 0x14 ≤ a) → u.readByte a = s.readByte a) ∧
        (e.record = none → e.waiters ≠ [] → u.stage = s.stage.map (fun z => if z = e then { e with posted := true, overflowed := false } else z) ∧
          u.cores = s.cores) ∧
        ((e.record ≠ none ∨ e.waiters = []) → u.stage = s.stage.erase e) ∧
        (e.record ≠ none → ∀ c, (u.core c).filter = (s.core c).filter) ∧
        (e.record = none → e.waiters = [] → ∀ c, (∀ f ∈ (s.core c).filter, key c f = true → f.waiters = []) →
          (u.core c).filter = (s.core c).filter.filter (fun f => !key c f)) ∧
        (own → vectorsOf e.fn ≤ intr % 65536 → u.msix = s.msix ∧ (s.struck = [] → u.outbox = s.outbox) ∧
          (tabGet {} u.fnLogs e.fn).count = (tabGet {} s.fnLogs e.fn).count + 1 ∧
          ∃ bs es, (tabGet {} u.fnLogs e.fn).entries = bs :: es ∧ Machine.fld bs 0 8 = intr % 65536 ∧ Machine.fld bs 8 1 = 3) ∧
        (s.struck = [] → ¬ own → u.outbox = s.outbox ++ [.mgmtIrq] ∧ u.msix = s.msix) ∧
        (s.struck = [] → own → intr % 65536 < vectorsOf e.fn →
          ((tabGet {} s.msix vector).masked = false → u.outbox = s.outbox ++ [.msix e.fn (intr % 65536)] ∧ u.msix = s.msix) ∧
          ((tabGet {} s.msix vector).masked = true → u.outbox = s.outbox ∧ (tabGet {} u.msix vector).pending = true ∧
            ∀ v, v ≠ vector → tabGet {} u.msix v = tabGet {} s.msix v))) ∧
      (¬ room → ∃ u, exec i s = .next u ∧ u.squads = s.squads ∧ u.pairs = s.pairs ∧ u.cores = s.cores ∧
        u.stage = s.stage.map (fun z => if z = e then { e with overflowed := true, tried := s.clockOfDie e.die } else z) ∧
        u.readLe (h + 0x18) 4 = (if e.overflowed then s.readLe (h + 0x18) 4 else (s.readLe (h + 0x18) 4 + 1) % 2 ^ 32) ∧
        ∀ a, (a < h + 0x18 ∨ h + 0x1C ≤ a) → u.readByte a = s.readByte a)
    (e.record = none → e.overflowed = false → 64 ≤ s.clockOfDie die - e.born → posts (.faultStagePost die k)) ∧
    (e.overflowed = true → 4096 ≤ s.clockOfDie die - e.tried → posts (.faultPostRetry die k)))

/-- R129, R131, R142, R173, R175, R181, R184, R189. An engine word that waited for room in its queue goes on when there is room. A
queued copy starts once those before it have started, fewer than four are in progress, a parked one among them (log 59), and no
earlier operation of its core conflicts with it; so does the tile operation at the head of its queue, and an overwriting tile's
elements then start at 0. A copy whose last row is written, or that met an error, retires: its flag completes, oc.cp falls and its
underflows are added. -/
def Obligations.EngineQueues : Prop :=
  ∀ (s : State) (lane core op q : Nat) (sq : Squad),
    let k := s.core core
    (∀ e, (s.lane lane).cur = some e → ((e.hold = some .copyQueue ∧ (s.core (lane / 64)).copies.length < 16) ∨
        (e.hold = some .tileQueue ∧ (s.core (lane / 64)).tiles.length < 16)) →
      ∃ u, exec (.engineWordEnqueue lane) s = .next u ∧ (u.lane lane).cur = some { e with hold := none } ∧
        (∀ j, j ≠ lane → u.lane j = s.lane j) ∧ QuietOutside s u ∧ u.cores = s.cores) ∧
    (∀ c, k.copies.find? (fun x => x.id == op) = some c → c.started = false → (∀ x ∈ k.copies, x.ord < c.ord → x.started = true) →
      (k.copies.filter (fun x => x.started)).length < 4 → (∀ x ∈ k.engines, x.ord < c.ord → x.conflict c.ranges = false) →
      ∃ u, exec (.copyStart core op) s = .next u ∧ EngineStep s u core ∧
        u.core core = { k with copies := k.copies.map (fun x => if x.id = op then { c with started := true } else x) }) ∧
    (∀ c, k.copies.find? (fun x => x.id == op) = some c → c.ended = true → c.pending = 0 → c.squad = q → tabFind s.squads q = some sq →
      c.flag < 12 → ∃ u sq', exec (.copyRetire core op) s = .next u ∧ EngineDone s u core q sq sq' op c.flag c.err ∧ sq'.ocCp = sq.ocCp - 1 ∧
        sq'.ocTl = sq.ocTl ∧ sq'.underflow.toNat = min (2 ^ 32 - 1) (sq.underflow.toNat + c.under) ∧
        (u.core core).copies = k.copies.filter (fun x => x.id != op) ∧ (u.core core).board = k.board.filter (fun b => b.op != op) ∧
        (∀ n < 32, (tabGet {} (u.core core).tags n).key = (tabGet {} k.tags n).key ∧
          (tabGet {} (u.core core).tags n).fresh = ((tabGet {} k.tags n).fresh || c.units.getLsbD n))) ∧
    ∀ o, k.tiles.head? = some o → o.started = false → (∀ x ∈ k.engines, x.ord < o.ord → x.conflict o.ranges = false) →
      ∃ u, exec (.tileStart core) s = .next u ∧ EngineStep s u core ∧
        (u.core core).tiles = k.tiles.map (fun x => if x.id = o.id then { o with started := true } else x) ∧
        (o.kind = .mma → o.k = 0 → tpAccumulate o.image = false → ∀ m < tpM o.image, ∀ n < tpN o.image,
          tabGet 0 (u.core core).acc (accIndex (tpTile o.image) m n) = 0) ∧
        (∀ i, ((o.kind ≠ .mma ∨ o.k ≠ 0 ∨ tpAccumulate o.image = true) ∨ ∀ m < tpM o.image, ∀ n < tpN o.image, i ≠ accIndex (tpTile o.image) m n) →
          tabGet 0 (u.core core).acc i = tabGet 0 k.acc i)

/-- R181, R182, R183, R185, R319. The copy engine does one row of a copy that has started and neither ended nor parked, and goes
on to the next row, or ends after its last. A RAW CPIN row moves its bytes unchanged, from scratch or GLOBAL, in pieces of 256
(that one may span storage rows is log 37), a CPWB row its bytes of the weight buffer, an F32 CPOUT row its words, and an MCAST
row is one packet. A row that meets an error, a poisoned byte among them, ends the copy with error and posts its record, one that
meets an absent page parks it, and one of scratch waits for the core's earlier bank accesses. A row takes all its banks once, in
one clock, and waits, refused and counted, while one is in use: the model's choice (log 69). A row into the weight buffer is seen
by those that wait for it with a saved one (log 71). R179, R180, R181. One copy row of a CPIN, from scratch or from GLOBAL, into a
panel: the 32 elements of destination row r at K-block kb, 0 past the K extent, form one block. In a dense panel its significands
and exponent stand in their slab, whose padding is 0; in a zero-elided one its exponent, its mask and its significands that are
not 0, which follow those before them, and a slab's first row enters the slab in the table. Nothing else is written. R107, R113,
R114, R115, R177, R182. One copy row of a CPOUT, to scratch or to GLOBAL: its elements, up to 256 of one storage row, each
converted as a CVT does from F32 or I32, or copied as it stands (RAW, and F32 from F32). With a storage block size each element is
first divided by its block's scale, and the scale byte of each block that starts in the row is written: 0xFF where an element is
no number, 0 where all are zero, else the block's largest exponent less that of the format, clamped. Under RS the copy's own
generator word advances once for each element that is rounded, in ascending order. Nothing else is written. -/
def Obligations.CopyRows : Prop :=
  (∀ (s : State) (core op : Nat) (c : CopyOp), (s.core core).copies.find? (fun x => x.id == op) = some c →
    c.started = true → c.parked = false → c.ended = false →
    let k := s.core core
    let r := c.image
    let replaced (x : CopyOp) : List CopyOp := k.copies.map (fun y => if y.id = x.id then x else y)
    let goes (u : State) : Prop := ∃ x, (u.core core).copies = replaced x ∧ x.id = c.id ∧ x.row = c.row + 1 ∧
      x.ended = decide (copyRows c.kind r ≤ c.row + 1) ∧ x.err = c.err
    let piece (i : Nat) : Prop := i < 256 ∧ 256 * c.row + i < recExt r 0 * recRows r
    let rawPlace (i : Nat) : Int :=
      let j := 256 * c.row + i
      (storeAt .cpin r (recSrc r) (j % recExt r 0) (rowCoords r (j / recExt r 0)).1 (rowCoords r (j / recExt r 0)).2.1
        (rowCoords r (j / recExt r 0)).2.2).1
    let n := ceilDiv (recExt r 0) 256
    let place (kind : CopyKind) (i : Nat) : Int := (storeAt kind r (recDst r) i (rowCoords r (c.row / n)).1
      (rowCoords r (c.row / n)).2.1 (rowCoords r (c.row / n)).2.2).1
    let mine (i : Nat) : Prop := i < recExt r 0 ∧ i / 256 = c.row % n
    let banks : Prop := ∃ b ∈ k.bank, b.op < op
    let inScratch : Prop := ∃ x ∈ c.reads ++ c.writes, x.space = 0
    let bad (a : Nat) : Prop := tabGet false k.badScratch (c.base + a) = true
    let free : Prop := k.placesFree c.rowPlaces
    let sees (u : State) (row : Nat → Prop) (waits : List Nat) (old new : Option (Tab Byte)) : Prop := (op ∉ waits → new = old) ∧
      (op ∈ waits → (old = none → new = none) ∧ ∀ w, old = some w → ∃ w', new = some w' ∧
        (∀ a, row a → tabGet 0 w' a = tabGet 0 (u.core core).wb a) ∧ ∀ a, ¬ row a → tabGet 0 w' a = tabGet 0 w a)
    let passes (u : State) (row : Nat → Prop) : Prop :=
      (∀ y ∈ k.copies, y.id ≠ op → ∃ y' ∈ (u.core core).copies, y' = { y with wbSaved := y'.wbSaved } ∧
        sees u row y.wbFrom y.wbSaved y'.wbSaved) ∧
      ∀ y ∈ k.tiles, ∃ y' ∈ (u.core core).tiles, y' = { y with wbSaved := y'.wbSaved } ∧ sees u row y.wbFrom y.wbSaved y'.wbSaved
    (c.kind ≠ .mcast → inScratch → banks → exec (.copyRow core op) s = .next s) ∧
    (c.kind ≠ .mcast → (inScratch → ¬ banks) → ¬ free → ∃ u, exec (.copyRow core op) s = .next u ∧ BankTurned s u core) ∧
    (∀ s1 c1, s.rowDo core c = (s1, .ok c1) → ∃ u, exec (.copyRow core op) s = .next u ∧ u.squads = s1.squads ∧ u.pairs = s1.pairs ∧
      u.hbm = s1.hbm ∧ u.pod = s1.pod ∧ (u.core core).copies = (s1.core core).copies.map (fun y =>
        if y.id = c1.id then { c1 with row := c.row + 1, ended := decide (copyRows c.kind r ≤ c.row + 1) } else y) ∧
      (s1.core core).usesBanks (u.core core) c.rowPlaces) ∧
    (c.kind = .cpin → recFmt r = fmtRaw → recScr r = true → ¬ banks → free → (∃ i, piece i ∧ bad (rawPlace i).toNat) →
      ∃ u, exec (.copyRow core op) s = .next u ∧ u.squads = s.squads ∧ (u.core core).copies = replaced { c with ended := true, err := true } ∧
        (u.core core).wb = k.wb ∧ (u.core core).scratch = k.scratch) ∧
    (c.kind = .cpin → recFmt r = fmtRaw → (inScratch → ¬ banks) → free → ∀ pa : Nat → Nat,
      (recScr r = true → ∀ i, piece i → ¬ bad (rawPlace i).toNat) → (recScr r = false → s.calm ∧ ∀ i, piece i → let va := (rawPlace i % 2 ^ 64).toNat
        va < 2 ^ 56 ∧ (∃ p, s.translateIn core c.region va = .page p ∧ p.r = true ∧ p.host = false ∧ pa i = p.pa va) ∧
        s.isPoisoned (pa i) = false ∧ ∀ z ∈ k.path ++ k.held, z.squad = c.squad → z.op < op → z.onLine false (pa i) = false) →
      let row (a : Nat) : Prop := ∃ i, piece i ∧ a = recDst r + 256 * c.row + i
      ∃ u, exec (.copyRow core op) s = .next u ∧ EngineStep s u core ∧ ((recSide r = 0 ∨ ∀ y ∈ k.copies, op ∉ y.wbFrom) → goes u) ∧
        (recSide r ≠ 0 → passes u row) ∧
        (∃ x ∈ (u.core core).copies, x.id = op ∧ x.row = c.row + 1 ∧ x.ended = decide (copyRows c.kind r ≤ c.row + 1) ∧ x.err = c.err) ∧
        (∀ i, piece i → (if recSide r = 0 then tabGet 0 (u.core core).scratch (c.base + recDst r + 256 * c.row + i)
          else tabGet 0 (u.core core).wb (recDst r + 256 * c.row + i)) =
            if recScr r then tabGet 0 k.scratch (c.base + (rawPlace i).toNat) else s.readByte (pa i)) ∧
        (∀ a, (recSide r ≠ 0 ∨ ∀ y, row y → a ≠ c.base + y) → tabGet 0 (u.core core).scratch a = tabGet 0 k.scratch a) ∧
        ∀ a, (recSide r = 0 ∨ ¬ row a) → tabGet 0 (u.core core).wb a = tabGet 0 k.wb a) ∧
    (c.kind = .cpwb → recScr r = false → free → s.calm → ∀ pa : Nat → Nat,
      (∀ i, mine i → (place .cpwb i % 2 ^ 64).toNat < 2 ^ 56 ∧ ∃ p, s.translateIn core c.region (place .cpwb i % 2 ^ 64).toNat = .page p ∧
        p.w = true ∧ p.host = false ∧ (p.det = true → c.sec = true) ∧ pa i = p.pa (place .cpwb i % 2 ^ 64).toNat) →
      (∀ i j, mine i → mine j → i ≠ j → pa i ≠ pa j) →
      (c.wbSaved = none → ∀ i, mine i → tabGet false k.badWb (recSrc r + c.row / n * recExt r 0 + i) = false) →
      ∃ u, exec (.copyRow core op) s = .next u ∧ u.squads = s.squads ∧ u.pairs = s.pairs ∧ u.loads = s.loads ∧
        (∀ j, j ≠ core → (u.core j).scratch = (s.core j).scratch ∧ (u.core j).wb = (s.core j).wb ∧ (u.core j).acc = (s.core j).acc) ∧
        goes u ∧ (u.core core).wb = k.wb ∧ (u.core core).scratch = k.scratch ∧
        (∀ i, mine i → u.readByte (pa i) = tabGet 0 (c.wbSaved.getD k.wb) (recSrc r + c.row / n * recExt r 0 + i)) ∧
        ∀ a, (∀ i, mine i → a ≠ pa i) → u.readByte a = s.readByte a) ∧
    (c.kind = .cpout → recScr r = true → recFmt r = 0 → recBlk r = 0 → recSide r = 0 → ¬ banks → free →
      (∀ i, mine i → tabGet false k.badAcc ((recSrc r + c.row / n * 0x400 + 4 * i) / 4) = false) →
      (∀ i j, mine i → mine j → 0 ≤ place .cpout i ∧ (i ≠ j → place .cpout i + 4 ≤ place .cpout j ∨ place .cpout j + 4 ≤ place .cpout i)) →
      ∃ u, exec (.copyRow core op) s = .next u ∧ EngineStep s u core ∧ goes u ∧ (u.core core).acc = k.acc ∧
        (∀ i, mine i → ∀ b < 4, tabGet 0 (u.core core).scratch (c.base + (place .cpout i).toNat + b) =
          (tabGet 0 k.acc ((recSrc r + c.row / n * 0x400 + 4 * i) / 4)).extractLsb' (8 * b) 8) ∧
        ∀ a, (∀ i, mine i → a < c.base + (place .cpout i).toNat ∨ c.base + (place .cpout i).toNat + 4 ≤ a) →
          tabGet 0 (u.core core).scratch a = tabGet 0 k.scratch a) ∧
    (c.kind = .mcast → ∀ s1 bs, s.rowRead core { c with wrote := 0 } ((List.range 128).map (fun i => (recSrc r + 128 * c.row + i) % 2 ^ 64)) =
        (s1, .ok bs) →
      ∃ u m, exec (.copyRow core op) s = .next u ∧ u.squads = s1.squads ∧ u.pairs = s1.pairs ∧ u.pod = s1.pod ++ [m] ∧ m.dst = leafSwitch ∧
        m.off = recDst r + 128 * c.row ∧ m.kind = .cast c.id c.leaf c.port bs) ∧
    (∀ s1 cause addr detail, s.rowDo core c = (s1, .error (.error cause addr detail)) →
      ∃ u, exec (.copyRow core op) s = .next u ∧ u.squads = s1.squads ∧ u.pairs = s1.pairs ∧ u.loads = s1.loads ∧ u.host = s1.host ∧
        (∀ j, j ≠ core → u.core j = s1.core j) ∧
        s1.Posted u c.region.faultQueue (dieOfCore core) (recordOf c.region addr cause detail 1 core c.sname c.code) ∧
        (u.core core).copies = (s1.core core).copies.map (fun y => if y.id = c.id then { c with ended := true, err := true } else y)) ∧
    (∀ s1 pages kinds, s.rowDo core c = (s1, .error (.park pages kinds)) → ∃ u, exec (.copyRow core op) s = .next u ∧ EngineStep s1 u core ∧
      (u.core core).copies = (s1.core core).copies.map (fun y => if y.id = c.id then { c with parked := true } else y) ∧
      (u.core core).filterWait.map (fun w => (w.party, w.page)) =
        (s1.core core).filterWait.map (fun w => (w.party, w.page)) ++ pages.map (fun p => (2 * op + 1, p))) ∧
    (∀ s1, s.rowDo core c = (s1, .error .later) → exec (.copyRow core op) s = .next s1)) ∧
  (∀ (s : State) (core op : Nat) (c : CopyOp) (pa : Int → Nat), (s.core core).copies.find? (fun x => x.id == op) = some c →
    c.started = true → c.parked = false → c.ended = false → c.kind = .cpin →
    let k := s.core core
    let r := c.image
    let ext (d : Nat) : Nat := recExt r d
    let across (d : Nat) : Nat := ((List.range d).filter (fun x => x != recKdim r)).foldl (fun n x => n * ext x) 1
    let rows := across 4
    let kb := c.row / rows
    let row := c.row % rows
    let at_ (i d : Nat) : Nat := if d = recKdim r then 32 * kb + i else row / across d % ext d
    let inside (i : Nat) : Prop := 32 * kb + i < ext (recKdim r)
    let place (i : Nat) : Int × Nat := storeAt .cpin r (recSrc r) (at_ i 0) (at_ i 1) (at_ i 2) (at_ i 3)
    let B := recBlk r
    let block (i : Nat) : Nat := (at_ i 1 + ext 1 * (at_ i 2 + ext 2 * at_ i 3)) * ((ext 0 + B - 1) / B) + at_ i 0 / B
    let bits := storeBits .cpin (recFmt r)
    let reads (i : Nat) (a : Int) : Prop := (∃ j : Nat, j < max 1 (bits / 8) ∧ a = (place i).1 + j) ∨ (B ≠ 0 ∧ a = recScale r + block i) ∨
      (recFmt r = 16 ∧ a = recZero r + block i / 2)
    let byte (a : Int) : Nat := (if recScr r then tabGet 0 k.scratch (c.base + a.toNat) else s.readByte (pa a)).toNat
    let elem (i : Nat) : Nat × Nat × Nat :=
      (leVal ((List.range (max 1 (bits / 8))).map (fun (j : Nat) => BitVec.ofNat 8 (byte ((place i).1 + j)))) / 2 ^ (place i).2 % 2 ^ bits,
       if B = 0 then 0 else byte (recScale r + block i),
       if recFmt r = 16 then byte (recZero r + block i / 2) / 2 ^ (4 * (block i % 2)) % 16 else 0)
    let wide := if recC16 r then 64 else 32
    let slab := recDst r + kb * (wide * rows + (rows + 31) / 32 * 32)
    let dest := if recSide r = 0 then c.base + slab else slab
    recFmt r ≠ 31 → recSide r < 3 → (∀ b ∈ k.bank, op ≤ b.op) → k.placesFree c.rowPlaces →
    (recSide r ≠ 0 → ∀ y ∈ k.copies, op ∉ y.wbFrom) →
    (recScr r = true → ∀ i < 32, inside i → ∀ a, reads i a → tabGet false k.badScratch (c.base + a.toNat) = false) →
    (recScr r = false → s.calm ∧ ∀ i < 32, inside i → ∀ a, reads i a → (a % 2 ^ 64).toNat < 2 ^ 56 ∧ s.isPoisoned (pa a) = false ∧
      (∃ p, s.translateIn core c.region (a % 2 ^ 64).toNat = .page p ∧ p.r = true ∧ p.host = false ∧ pa a = p.pa (a % 2 ^ 64).toNat) ∧
      ∀ z ∈ k.path ++ k.held, z.squad = c.squad → z.op < op → z.onLine false (pa a) = false) →
    ∀ vals : List (Option (Nat × Nat × Nat)), vals.length = 32 →
      (∀ i < 32, (inside i → vals.getD i none = some (elem i)) ∧ (¬ inside i → vals.getD i none = none)) →
      let blk := panelBlock r vals
      let sig (i : Nat) : Int := blk.2.1.getD i 0
      let goes (u : State) (x : CopyOp) : Prop := exec (.copyRow core op) s = .next u ∧ EngineStep s u core ∧
        (u.core core).copies = k.copies.map (fun y => if y.id = x.id then x else y) ∧ x.id = c.id ∧ x.row = c.row + 1 ∧
        x.ended = decide (copyRows c.kind r ≤ c.row + 1) ∧ x.err = c.err ∧ x.under = c.under + blk.2.2 ∧ x.gen = c.gen
      (recSide r < 2 →
        let mine (a : Nat) : Prop := (dest + wide * row ≤ a ∧ a < dest + wide * row + wide) ∨ a = dest + wide * rows + row ∨
          (row = 0 ∧ dest + wide * rows + rows ≤ a ∧ a < dest + wide * rows + (rows + 31) / 32 * 32)
        ∃ u x, goes u x ∧
        let after (a : Nat) : Byte := if recSide r = 0 then tabGet 0 (u.core core).scratch a else tabGet 0 (u.core core).wb a
        (∀ i < 32, sig i % 2 ^ (wide / 4) =
          leVal ((List.range (wide / 32)).map (fun j => after (dest + wide * row + wide / 32 * i + j)))) ∧
        (after (dest + wide * rows + row)).toNat = blk.1 % 256 ∧
        (row = 0 → ∀ a, dest + wide * rows + rows ≤ a → a < dest + wide * rows + (rows + 31) / 32 * 32 → after a = 0) ∧
        (∀ a, ¬ (recSide r = 0 ∧ mine a) → tabGet 0 (u.core core).scratch a = tabGet 0 k.scratch a) ∧
        (∀ a, ¬ (recSide r = 1 ∧ mine a) → tabGet 0 (u.core core).wb a = tabGet 0 k.wb a)) ∧
      let table := 4 * ((ext (recKdim r) + 31) / 32)
      let off := if row ≠ 0 then c.slab else if kb = 0 then table else (c.next + 3) / 4 * 4
      let masks := off + (rows + 3) / 4 * 4
      let next := if row ≠ 0 then c.next else masks + 4 * rows
      let kept (i : Nat) : Nat := (List.range i).countP (fun j => sig j != 0)
      (recSide r = 2 → recC16 r = false → 4 * kb < table → (kb ≠ 0 ∨ row ≠ 0 → table ≤ c.next) → (row ≠ 0 → table ≤ c.slab ∧ masks + 4 * rows ≤ c.next) →
        ∃ u x, goes u x ∧ x.slab = off ∧ x.next = next + kept 32 ∧ (u.core core).scratch = k.scratch ∧
        let after (a : Nat) : Byte := tabGet 0 (u.core core).wb (recDst r + a)
        let word (a : Nat) : Nat := leVal ((List.range 4).map (fun j => after (a + j)))
        let ends := if row + 1 = rows then (next + kept 32 + 3) / 4 * 4 else next + kept 32
        (after (off + row)).toNat = blk.1 % 256 ∧ (∀ i < 32, (word (masks + 4 * row)).testBit i = (sig i != 0)) ∧
        (∀ i < 32, sig i ≠ 0 → (after (next + kept i)).toNat = sig i % 256) ∧
        (∀ a, next + kept 32 ≤ a → a < ends → after a = 0) ∧
        (row = 0 → word (4 * kb) = off % 2 ^ 32 ∧ ∀ a, off + rows ≤ a → a < masks → after a = 0) ∧
        ∀ a, (∀ y, a = recDst r + y → y ≠ off + row ∧ (y < masks + 4 * row ∨ masks + 4 * row + 4 ≤ y) ∧ (y < next ∨ ends ≤ y) ∧
          (row = 0 → (y < 4 * kb ∨ 4 * kb + 4 ≤ y) ∧ (y < off + rows ∨ masks ≤ y))) → tabGet 0 (u.core core).wb a = tabGet 0 k.wb a)) ∧
  (∀ (s : State) (core op : Nat) (c : CopyOp) (pa : Int → Nat), (s.core core).copies.find? (fun x => x.id == op) = some c →
    c.started = true → c.parked = false → c.ended = false → c.kind = .cpout →
    let k := s.core core
    let r := c.image
    let ext0 := recExt r 0
    let f := recFmt r
    let bits := storeBits .cpout f
    let size := max 1 (bits / 8)
    let B := recBlk r
    let n := (ext0 + 255) / 256
    let row := c.row / n
    let q := rowCoords r row
    let first := 256 * (c.row % n)
    let mine (i : Nat) : Prop := first ≤ i ∧ i < min ext0 (first + 256)
    let whole : Bool := decide (recSide r % 2 = 1)
    let src (i : Nat) : Nat := if recSide r < 2 then (tabGet 0 k.acc ((recSrc r + row * 0x400 + 4 * i) / 4)).toNat
      else leVal ((List.range 4).map (fun b => tabGet 0 k.scratch (c.base + recSrc r + 4 * (row * ext0 + i) + b)))
    let mode := if recRound r = 5 then c.rm else rmodeOf (recRound r)
    let asIs : Prop := f = 31 ∨ (f = 0 ∧ whole = false)
    let moves : Prop := mode = .rs ∧ ¬ asIs ∧ ¬ (whole = true ∧ (f = 7 ∨ f = 8))
    let num (i : Nat) : Bool := whole || (Fmt.f32.units (src i)).isSome
    let mag (i : Nat) : Nat := if whole then (sx 32 (src i)).natAbs else ((Fmt.f32.units (src i)).getD 0).natAbs
    let neg (i : Nat) : Bool := decide (2 ^ 31 ≤ src i)
    let p : Nat := if whole then 0 else 149
    let emax : Nat := if f = 3 then 8 else if f = 4 then 15 else 2
    let inBlock (b i : Nat) : Prop := i < ext0 ∧ i / B = b
    let code (b x : Nat) : Prop := ((∃ i, inBlock b i ∧ num i = false) ∧ x = 0xFF) ∨
      ((∀ i, inBlock b i → num i = true) ∧ ((∀ i, inBlock b i → mag i = 0) ∧ x = 0 ∨
        ∃ top, 0 < top ∧ (∃ i, inBlock b i ∧ mag i = top) ∧ (∀ i, inBlock b i → mag i ≤ top) ∧
          x = min 254 (Nat.log2 top + 127 - (p + emax))))
    let place (i : Nat) : Int × Nat := storeAt .cpout r (recDst r) i q.1 q.2.1 q.2.2
    let scaleAt (b : Nat) : Int := recScale r + row * ((ext0 + B - 1) / B) + b
    let puts (a : Int) : Prop := (∃ i, mine i ∧ ∃ j : Nat, j < size ∧ a = (place i).1 + j) ∨ (B ≠ 0 ∧ ∃ i, mine i ∧ i % B = 0 ∧ a = scaleAt (i / B))
    (B = 0 ∨ f = 3 ∨ f = 4 ∨ f = 5) → (bits = 4 → ext0 % 2 = 0) → (∀ b ∈ k.bank, op ≤ b.op) → k.placesFree c.rowPlaces →
    (∀ a, tabGet false k.badAcc a = false ∧ tabGet false k.badScratch a = false) →
    (∀ i j, mine i → mine j → i ≠ j → (bits = 4 ∧ i / 2 = j / 2) ∨ ∀ x y : Nat, x < size → y < size → (place i).1 + x ≠ (place j).1 + y) →
    (B ≠ 0 → ∀ i j, mine i → mine j → ∀ x : Nat, x < size → (place i).1 + x ≠ scaleAt (j / B)) →
    (recScr r = true → (∀ a, puts a → 0 ≤ a ∧ pa a = c.base + a.toNat)) →
    (recScr r = false → s.calm ∧ (∀ a b, puts a → puts b → a ≠ b → pa a ≠ pa b) ∧ ∀ a, puts a → (a % 2 ^ 64).toNat < 2 ^ 56 ∧
      ∃ g, s.translateIn core c.region (a % 2 ^ 64).toNat = .page g ∧ g.w = true ∧ g.host = false ∧ (g.det = true → c.sec = true) ∧
        pa a = g.pa (a % 2 ^ 64).toNat) →
    ∃ u x, exec (.copyRow core op) s = .next u ∧ u.squads = s.squads ∧ u.pairs = s.pairs ∧ u.loads = s.loads ∧
      (u.core core).copies = k.copies.map (fun y => if y.id = x.id then x else y) ∧ x.id = c.id ∧ x.row = c.row + 1 ∧
      x.ended = decide (copyRows c.kind r ≤ c.row + 1) ∧ x.err = c.err ∧ x.under = c.under ∧
      (moves → x.gen = genSteps (min ext0 (first + 256) - first) c.gen) ∧ (¬ moves → x.gen = c.gen) ∧
      (u.core core).acc = k.acc ∧ (u.core core).wb = k.wb ∧
      let after (a : Nat) : Byte := if recScr r then tabGet 0 (u.core core).scratch a else u.readByte a
      let result (i v : Nat) : Prop := ∀ g, (moves → g = genSteps (i - first + 1) c.gen) → (¬ moves → g = c.gen) →
        (asIs → v = src i) ∧
        (¬ asIs → B = 0 → v = cvtElem f (if whole then 10 else 0) mode (recSat r) (src i) g) ∧
        (B ≠ 0 → ∀ fm, (f, fm) ∈ floatCodes → ∃ x, code (i / B) x ∧ (x = 0xFF → v = fm.quiet) ∧
          (x ≠ 0xFF → fm.Delivers mode (recSat r) (neg i) (mag i * 2 ^ (127 + fm.places)) (2 ^ (x + p)) g v))
      (∀ i, mine i → result i (leVal ((List.range size).map (fun (j : Nat) => after (pa ((place i).1 + j)))) / 2 ^ (place i).2 % 2 ^ bits)) ∧
      (B ≠ 0 → ∀ i, mine i → i % B = 0 → code (i / B) (after (pa (scaleAt (i / B)))).toNat) ∧
      (∀ a, (recScr r = false ∨ ∀ b, puts b → a ≠ pa b) → tabGet 0 (u.core core).scratch a = tabGet 0 k.scratch a) ∧
      ∀ a, (recScr r = true ∨ ∀ b, puts b → a ≠ pa b) → u.readByte a = s.readByte a)

/-- R121, R124, R125, R179, R180, R186, R194. The matrix engine folds one K-block of a tile: each accumulator of its M by N
elements takes the exact sum of the 32 products of its rows of A and B, clamped in integer mode, and in the others scaled by the
block exponents and rounded once to nearest even, an exact zero giving +0 and a NaN or infinity staying; nothing else of the store
changes. The rows stand in the slabs of dense panels, C16 significands as little-endian 16-bit values, or in a zero-elided panel
beside their masks. A row of B that points past the weight buffer, and a poisoned byte of A, of B or of the elements, ends the
tile with error and writes its progress. The block waits for the core's earlier accesses on their way to the banks, and, refused
and counted, for the banks of its rows of A, or of its progress field, while they serve another: that it takes each once, in one
clock, is the model's choice (log 69). R129, R131, R186, R189, R194, R195. The tile operation at the head of its queue completes:
a TILE.MMA that ended without error writes progress 0, once its banks are free (the model's choice, log 69), a whole-tile
operation sets the 32,768 elements of its tile; its flag completes, oc.tl falls and its bindings are gone. R104, R121, R122, R123,
R177, R178. The canonical block of 32 elements, each with its scale code and zero point: of a floating format the largest
element's exponent, raised once where a significand reaches the limit, the significands rounded to nearest even, those rounded to
0 counted; an element that is no number makes the whole block 0xFF, and an exponent above 127 is cut there, the significands
lifted and clamped. A Q4 block takes its exponent from its scale code; an integer block has none. -/
def Obligations.TileOperations : Prop :=
  (∀ (s : State) (core : Nat) (o : TileOp), (s.core core).tiles.head? = some o → o.started = true → o.kind = .mma → o.ended = false →
    let k := s.core core
    let p := o.image
    let as_ := o.aRows k.scratch o.k
    let wb := o.wbSaved.getD k.wb
    let word (mem : Tab Byte) (at_ : Nat) : Nat := leVal ((List.range 4).map (fun i => tabGet 0 mem (at_ + i)))
    let wide := if tpClass p = 2 then 64 else 32
    let slabOf (panel first rows : Nat) : Nat := panel + (first + o.k) * (wide * rows + (rows + 31) / 32 * 32)
    let dense (mem : Tab Byte) (panel first rows r : Nat) (x : Nat × List Int) : Prop :=
      x.1 = (tabGet 0 mem (slabOf panel first rows + wide * rows + r)).toNat ∧ ∀ i < 32, x.2.getD i 0 =
        if tpClass p = 2 then (tabGet 0 mem (slabOf panel first rows + wide * r + 2 * i + 1) ++ tabGet 0 mem (slabOf panel first rows + wide * r + 2 * i)).toInt
        else (tabGet 0 mem (slabOf panel first rows + wide * r + i)).toInt
    let slabA := slabOf (o.base + tpA p) (tpAKB p) (tpARows p)
    let banks : Prop := ∃ b ∈ k.bank, b.op < o.id
    let free : Prop := k.placesFree o.blockPlaces
    let failed (cause detail : Nat) : Prop := (¬ k.placesFree o.progressPlaces → ∃ u, exec (.tileKblock core) s = .next u ∧ BankTurned s u core) ∧
      (k.placesFree o.progressPlaces → o.k < 2 ^ 32 → ∃ u addr, exec (.tileKblock core) s = .next u ∧ u.squads = s.squads ∧
      u.pairs = s.pairs ∧ u.loads = s.loads ∧ u.host = s.host ∧ (∀ j, j ≠ core → u.core j = s.core j) ∧
      s.Posted u o.region.faultQueue (dieOfCore core) (recordOf o.region addr cause detail 2 core o.sname o.code) ∧
      (cause = 9 → addr = tpB p + 4 * (tpBKB p + o.k)) ∧
      (u.core core).acc = k.acc ∧ (u.core core).tiles = k.tiles.map (fun x => if x.id = o.id then { o with ended := true, err := true } else x) ∧
      leVal ((List.range 4).map (fun i => tabGet 0 (u.core core).scratch (o.at_ + 0x1C + i))) = o.k ∧
      ∀ a, (a < o.at_ + 0x1C ∨ o.at_ + 0x20 ≤ a) → tabGet 0 (u.core core).scratch a = tabGet 0 k.scratch a)
    (banks → exec (.tileKblock core) s = .next s) ∧
    (¬ banks → ¬ free → ∃ u, exec (.tileKblock core) s = .next u ∧ BankTurned s u core) ∧
    (¬ banks → free → o.poisonAt k = none → ∀ bs, o.bRows wb o.k = some bs → ∃ u, exec (.tileKblock core) s = .next u ∧ EngineStep s u core ∧
      (u.core core).scratch = k.scratch ∧ k.usesBanks (u.core core) o.blockPlaces ∧
      (u.core core).tiles = k.tiles.map (fun x => if x.id = o.id then { o with k := o.k + 1, ended := decide (tpKB p ≤ o.k + 1) } else x) ∧
      (∀ m < tpM p, ∀ n < tpN p,
        let i := accIndex (tpTile p) m n
        let a := as_.getD m (0, [])
        let b := bs.getD n (0, [])
        let sum : Int := ((a.2.zip b.2).map (fun x => x.1 * x.2)).foldl (· + ·) 0
        (tpClass p = 3 → (tabGet 0 (u.core core).acc i).toInt = min (max ((tabGet 0 k.acc i).toInt + sum) (-2 ^ 31)) (2 ^ 31 - 1)) ∧
        (tpClass p ≠ 3 → (a.1 = 0xFF ∨ b.1 = 0xFF) → tabGet 0 (u.core core).acc i = 0x7FC00000) ∧
        let c := (tabGet 0 k.acc i).toNat
        let r := (tabGet 0 (u.core core).acc i).toNat
        (tpClass p ≠ 3 → a.1 ≠ 0xFF → b.1 ≠ 0xFF →
          (Fmt.f32.units c = none → r = c) ∧
          ∀ v : Int, Fmt.f32.units c = some v →
            let exact : Int := v * 2 ^ 133 + sum * 2 ^ (a.1 + b.1 + if tpClass p = 2 then 0 else 16)
            (exact = 0 → r = 0) ∧ (exact ≠ 0 → Fmt.f32.Delivers .rne false (decide (exact < 0)) exact.natAbs (2 ^ 133) 0 r))) ∧
      ∀ i, (∀ m < tpM p, ∀ n < tpN p, i ≠ accIndex (tpTile p) m n) → tabGet 0 (u.core core).acc i = tabGet 0 k.acc i) ∧
    (∀ m < tpM p, dense k.scratch (o.base + tpA p) (tpAKB p) (tpARows p) (tpARow p + m) (as_.getD m (0, []))) ∧
    (tpElided p = false → ∃ bs, o.bRows wb o.k = some bs ∧
      ∀ n < tpN p, dense wb (tpB p) (tpBKB p) (tpBRows p) (tpBCol p + n) (bs.getD n (0, []))) ∧
    (tpElided p = true → ∀ bs, o.bRows wb o.k = some bs → ∀ n < tpN p,
      let row := bs.getD n (0, [])
      let r := tpBCol p + n
      let slab := tpB p + word wb (tpB p + 4 * (tpBKB p + o.k))
      let masks := slab + (tpBRows p + 3) / 4 * 4
      let kept (j below : Nat) : Nat := (List.range below).countP (fun i => (word wb (masks + 4 * j)).testBit i)
      let start := masks + 4 * tpBRows p + ((List.range r).map (fun j => kept j 32)).sum
      row.1 = (tabGet 0 wb (slab + r)).toNat ∧ ∀ i < 32, row.2.getD i 0 =
        if (word wb (masks + 4 * r)).testBit i then (tabGet 0 wb (start + kept r i)).toInt else 0) ∧
    (¬ banks → free → o.poisonAt k = none → o.bRows wb o.k = none → failed 9 4) ∧
    (¬ banks → free → tpC16 p = false → (∃ m < tpM p, tabGet false k.badScratch (slabA + 32 * tpARows p + tpARow p + m) = true ∨
      ∃ i < 32, tabGet false k.badScratch (slabA + 32 * (tpARow p + m) + i) = true) → failed 10 1) ∧
    (¬ banks → free → (∃ m < tpM p, ∃ n < tpN p, tabGet false k.badAcc (accIndex (tpTile p) m n) = true) → failed 10 1)) ∧
  (∀ (s : State) (core q : Nat) (o : TileOp) (sq : Squad), (s.core core).tiles.head? = some o → o.squad = q → tabFind s.squads q = some sq →
    o.flag < 12 →
    let k := s.core core
    let at_ (d i : Nat) : Nat := (tabGet 0 k.acc (32768 * d + i)).toNat
    let done_ (u : State) (err : Bool) : Prop := ∃ sq', EngineDone s u core q sq sq' o.id o.flag err ∧ sq'.ocTl = sq.ocTl - 1 ∧
      sq'.ocCp = sq.ocCp ∧ sq'.underflow = sq.underflow ∧ (u.core core).tiles = k.tiles.filter (fun x => x.id != o.id)
    let whole (d : Nat) (f : Nat → Nat) : Prop := o.started = true → ∃ u, exec (.tileOpComplete core) s = .next u ∧ done_ u o.err ∧
      (u.core core).scratch = k.scratch ∧ (∀ i < 32768, tabGet 0 (u.core core).acc (32768 * d + i) = BitVec.ofNat 32 (f i)) ∧
      ∀ i, (i < 32768 * d ∨ 32768 * d + 32768 ≤ i) → tabGet 0 (u.core core).acc i = tabGet 0 k.acc i
    (o.kind = .mma → o.ended = true → o.err = false → ¬ k.placesFree o.progressPlaces →
      ∃ u, exec (.tileComplete core) s = .next u ∧ BankTurned s u core) ∧
    (o.kind = .mma → o.ended = true → (o.err = false → k.placesFree o.progressPlaces) →
      ∃ u, exec (.tileComplete core) s = .next u ∧ done_ u o.err ∧ (u.core core).acc = k.acc ∧
      (o.err = false → ∀ i < 4, tabGet 0 (u.core core).scratch (o.at_ + 0x1C + i) = 0) ∧
      ∀ a, (o.err = true ∨ a < o.at_ + 0x1C ∨ o.at_ + 0x20 ≤ a) → tabGet 0 (u.core core).scratch a = tabGet 0 k.scratch a) ∧
    (∀ d, o.kind = .zero d → whole d (fun _ => 0)) ∧
    (∀ d a, o.kind = .mov d a → whole d (at_ a)) ∧
    (∀ d a, o.kind = .add d a → whole d (fun i => fadd .f32 .rne (at_ d i) (at_ a i) 0)) ∧
    (∀ d x, o.kind = .scale d x → whole d (fun i => fmul .f32 .rne (at_ d i) x.toNat 0))) ∧
  (∀ (r : List Byte) (vals : List (Option (Nat × Nat × Nat))), vals.length = 32 →
    let blk := panelBlock r vals
    let sig (i : Nat) : Int := blk.2.1.getD i 0
    let got (i : Nat) := vals.getD i none
    blk.2.1.length = 32 ∧
    ((recFmt r = 7 ∨ recFmt r = 8) → blk.1 = 0x7F ∧ blk.2.2 = 0 ∧ ∀ i < 32, (got i = none → sig i = 0) ∧
      ∀ x, got i = some x → sig i = sx (if recFmt r = 7 then 4 else 8) x.1) ∧
    (recFmt r = 16 → ∀ code z : Nat, code < 256 → (∃ x, some x ∈ vals) → (∀ x, some x ∈ vals → x.2 = (code, z)) →
      blk.2.2 = 0 ∧ (code = 0xFF → blk.1 = 0xFF) ∧ (code ≤ 248 → blk.1 = code + 6) ∧ (248 < code → code < 255 → blk.1 = 254) ∧
      ∀ i < 32, ((got i = none ∨ code = 0xFF) → sig i = 0) ∧ ∀ x, got i = some x →
        (code ≤ 248 → sig i = (x.1 : Int) - z) ∧
        (248 < code → code < 255 → sig i = max (-127) (min 127 (((x.1 : Int) - z) * 2 ^ (code - 248))))) ∧
    ∀ f, (recFmt r, f) ∈ floatCodes → f ≠ .e8m0 →
      let wide : Prop := recFmt r = 2 ∨ recWide r = true
      let code (x : Nat × Nat × Nat) : Nat := if recBlk r = 0 then 127 else x.2.1
      let bad : Prop := ∃ x, some x ∈ vals ∧ (f.units x.1 = none ∨ code x = 0xFF)
      let value (i : Nat) : Int := match got i with
        | none => 0
        | some x => (f.units x.1).getD 0 * 2 ^ code x
      let mag (i : Nat) : Nat := (value i).natAbs
      (bad → blk = (0xFF, List.replicate 32 0, 0)) ∧
      (¬ bad → (∀ i < 32, mag i = 0) → blk = (0, List.replicate 32 0, 0)) ∧
      (¬ bad → ∀ top, 0 < top → (∃ i < 32, mag i = top) → (∀ i < 32, mag i ≤ top) → ∀ lim sh, (wide → lim = 32768 ∧ sh = 14) →
        (¬ wide → lim = 128 ∧ sh = 6) →
        let low := max f.places (Nat.log2 top)
        ∃ (first last : Nat → Nat) (w : Nat), (∀ i < 32, NearestEven (mag i * 2 ^ sh) (2 ^ low) (first i)) ∧
          ((∃ i < 32, first i = lim) → w = low + 1) ∧ ((∀ i < 32, first i ≠ lim) → w = low) ∧
          (∀ i < 32, NearestEven (mag i * 2 ^ sh) (2 ^ w) (last i)) ∧
          let E := w - f.places
          blk.1 = min E 254 ∧ blk.2.2 = (List.range 32).countP (fun i => decide (mag i ≠ 0) && decide (last i = 0)) ∧
          ∀ i < 32, let n : Int := if E ≤ 254 then last i else min (last i * 2 ^ (E - 254)) (lim - 1)
            sig i = if value i < 0 then -n else n))

/-- R131, R201, R239, R242, R247, R249, R254. A figure request that is not to be combined, the oldest element on its lines, is
executed at its slice, which holds its definition: its program runs once on its granule of 128 bytes, whole or not at all, its
return value goes to its element, and the request leaves the path, a NORET one counting in oc.st; without the definition the
request waits. A program that faults under DROP changes no byte and is counted. A TILE request goes to its channel instead, whose
update unit runs the oldest request of a granule of 256 bytes. R131, R146, R239, R241, R252. A combinable request leaves the path
for its slice's combining buffer: merged into the entry of its space, slot and address by the operation of the definition's third
word, which counts event 0x46, or in a new entry, for which the slice's oldest is applied first when all 32 are in use; a slice
without the definition leaves it where it is (R247). A request that would overtake an entry of its core on its bytes waits (log
70). An entry 64 die clk old is applied as one execution with its merged operand, at its slice or, for a TILE figure, at its
channel, and is gone. That an entry keeps its first request's core, address and squad for a record is the model's inference (log
39). R131, R145, R233, R234, R249, R254. What a request's fault does, by its definition's policy. Under TRAP one record is posted
in the fault queue (its ring's base counts with 52 bits, log 58), a combined entry's naming its first request, which is the
model's inference (log 39): the element's address, cause 0x22, the detail, source 5, the first core, the squad's name and the
FIG's address; a flag whose last element this was completes with E set. Under DROP nothing is posted, the flag completes without
error, and the slice's counter rises by the requests of the entry. -/
def Obligations.FigureExecution : Prop :=
  (∀ (s : State) (core k : Nat) (e : PathEntry) (slot : Nat) (x : Reg), s.combining = [] → s.struck = [] → s.poisoned = [] →
    let c := s.core core
    let img := s.figEntry e.region.figTable slot
    let fl := figFlags img
    let held (sl : Nat) : Prop := ∃ d ∈ tabGet [] s.defCache sl, d.asid = e.asid ∧ d.slot = slot
    let ran (u : State) (base size pa operand : Nat) (back : Option (Nat × Nat)) (im : List Byte) : Prop :=
      (∀ r, figRun im (s.readBytes base size) (pa - base) operand = .ok r → r.img.length = size →
        (∀ i < size, u.readByte (base + i) = if r.stored then r.img.getD i 0 else s.readByte (base + i)) ∧
        (∀ a, (a < base ∨ base + size ≤ a) → u.readByte a = s.readByte a) ∧
        (∀ b, back = some b → u.loads = tabMod s.loads b.1 (fun o => o.setElem b.2 (.ready (BitVec.ofNat 64 r.ret))))) ∧
      (∀ d, figRun im (s.readBytes base size) (pa - base) operand = .fault d →
        (figDrop (figFlags im) = true → (∀ a, u.readByte a = s.readByte a) ∧
          (figTile (figFlags im) = false → u.sliceDrops = tabPut 0 s.sliceDrops (sliceOf pa) (tabGet 0 s.sliceDrops (sliceOf pa) + 1)) ∧
          (figTile (figFlags im) = true → u.channelDrops = tabPut 0 s.channelDrops (channelOf pa) (tabGet 0 s.channelDrops (channelOf pa) + 1))) ∧
        (∀ b, back = some b → u.loads = tabMod s.loads b.1 (fun o => o.setElem b.2 .skip)))
    let rest := c.path.eraseIdx k ++ c.held ++ c.leaving
    let leaves (u : State) : Prop := (u.core core).path = c.path.eraseIdx k ∧ u.pairs = s.pairs ∧
      (∀ p, p ≠ e.squad → tabFind u.squads p = tabFind s.squads p) ∧
      ((figRet fl = true ∨ ∃ y ∈ rest, y.op = e.op) → tabFind u.squads e.squad = tabFind s.squads e.squad) ∧
      (figRet fl = false → (∀ y ∈ rest, y.op ≠ e.op) →
        tabFind u.squads e.squad = (tabFind s.squads e.squad).map (fun sq => { sq with ocSt := sq.ocSt - 1 }))
    (c.path[k]? = some e → (∀ z ∈ c.path.take k, z.sharesLine e = false ∨ z.between e = true) → s.tileFigs = [] → e.kind = .figure slot x → e.host = false →
      e.flag = none → combinable fl none = false →
      (¬ held (if figTile fl then sliceOf (e.pa / 256 * 256) else sliceOf e.pa) → exec (.figureExecute core k) s = .next s) ∧
      (figTile fl = false → held (sliceOf e.pa) → ∃ u, exec (.figureExecute core k) s = .next u ∧ leaves u ∧
        ran u (e.pa / 128 * 128) 128 e.pa x.toNat (if figRet fl then some (e.op, e.thread) else none) img) ∧
      (figTile fl = true → held (sliceOf (e.pa / 256 * 256)) → ∃ u f, exec (.figureExecute core k) s = .next u ∧ leaves u ∧
        (∀ a, u.readByte a = s.readByte a) ∧ u.tileFigs = s.tileFigs ++ [f] ∧ f.granule = e.pa / 256 * 256 ∧ f.pa = e.pa ∧
        f.channel = channelOf (e.pa / 256 * 256) ∧ f.image = img ∧ f.operand = x.toNat ∧ f.count = 1 ∧
        f.back = (if figRet fl then some (e.op, e.thread) else none) ∧
        (∀ l ∈ u.l2, (l.1 = e.pa / 256 * 2 ∨ l.1 = e.pa / 256 * 2 + 1) → l.2.pinned = true ∧ l.2.present = false ∧ l.2.dirty = false) ∧
        (∀ n, n = e.pa / 256 * 2 ∨ n = e.pa / 256 * 2 + 1 → tabFind u.msc n = none))) ∧
    ∀ f, s.tileFigs[k]? = some f → (∀ z ∈ s.tileFigs.take k, z.granule ≠ f.granule) → figTile (figFlags f.image) = true → f.flagOp = none →
      f.count = 1 → ∃ u, exec (.tileFigureChannel k) s = .next u ∧ u.squads = s.squads ∧ u.pairs = s.pairs ∧
        u.tileFigs = s.tileFigs.eraseIdx k ∧ ran u (f.pa / 256 * 256) 256 f.pa f.operand f.back f.image) ∧
  (∀ (s : State) (core k : Nat) (e : PathEntry) (slot : Nat) (x : Reg),
    let c := s.core core
    let img := s.figEntry e.region.figTable slot
    let fl := figFlags img
    let sl := if figTile fl then sliceOf (e.pa / 256 * 256) else sliceOf e.pa
    let v := x.toNat % 2 ^ figW fl
    let same (y : CombineEntry) : Prop := y.slice = sl ∧ y.asid = e.asid ∧ y.slot = slot ∧ y.pa = e.pa
    let held : Prop := ∃ d ∈ tabGet [] s.defCache sl, d.asid = e.asid ∧ d.slot = slot
    (c.path[k]? = some e → (∀ z ∈ c.path.take k, z.sharesLine e = false ∨ z.between e = true) → s.tileFigs = [] → e.kind = .figure slot x → e.host = false →
      combinable fl e.flag = true → (¬ held → exec (.figureCombine core k) s = .next s) ∧
      let leaves (u : State) : Prop := (u.core core).path = c.path.eraseIdx k ∧ u.pairs = s.pairs ∧
        (∀ p, p ≠ e.squad → tabFind u.squads p = tabFind s.squads p) ∧
        ((∀ y ∈ c.path.eraseIdx k ++ c.held ++ c.leaving, y.op ≠ e.op) →
          tabFind u.squads e.squad = (tabFind s.squads e.squad).map (fun sq => { sq with ocSt := sq.ocSt - 1 }))
      let quiet (u : State) : Prop := ∀ a, u.readByte a = s.readByte a
      let entered (u : State) (z : CombineEntry) : Prop := z.operand = v ∧ z.count = 1 ∧ same z ∧ z.born = u.clockOfDie (dieOfSlice sl) ∧
        z.cores = [core] ∧ z.va = e.va ∧ z.sname = e.sname ∧ z.code = e.code
      let W := figW fl
      let w2 := leVal ((List.range 4).map (fun j => img.getD (24 + j) 0))
      let num (n : Nat) : Int := if w2.testBit 18 then sx W n else n
      let merges (a z : Nat) : Prop := a < 2 ^ W →
        (w2 / 2 ^ 26 = 4 → z = (a + v) % 2 ^ W) ∧ (w2 / 2 ^ 26 = 6 → w2.testBit 18 = false → z = min (a + v) (2 ^ W - 1)) ∧
        (w2 / 2 ^ 26 = 7 → z = if num a ≤ num v then a else v) ∧ (w2 / 2 ^ 26 = 8 → z = if num a ≤ num v then v else a) ∧
        (w2 / 2 ^ 26 = 9 → z = a &&& v) ∧ (w2 / 2 ^ 26 = 10 → z = a ||| v) ∧ (w2 / 2 ^ 26 = 11 → z = a ^^^ v)
      let younger (b : List CombineEntry) : Prop := ∃ z ∈ b, s.entryMeets e.pa (figBytes fl) [core] z = true
      (∀ a y b, s.combining = a ++ y :: b → (∀ z ∈ a, ¬ same z) → same y → younger b → exec (.figureCombine core k) s = .next s) ∧
      (∀ a y b, held → s.combining = a ++ y :: b → same y → (∀ z ∈ a ++ b, ¬ same z) → ¬ younger b → ∃ u z, exec (.figureCombine core k) s = .next u ∧ leaves u ∧ quiet u ∧
        u.combining = a ++ z :: b ∧ merges y.operand z.operand ∧ z.count = y.count + 1 ∧ same z ∧ z.born = y.born ∧
        z = { y with operand := z.operand, count := z.count, cores := z.cores } ∧ (∀ j, j ∈ z.cores ↔ j ∈ y.cores ∨ j = core) ∧
        u.dieEvents = (s.dieEvent (dieOfSlice sl) 0x46 1).dieEvents) ∧
      (held → (∀ z ∈ s.combining, ¬ same z) → (s.combining.filter (fun z => z.slice == sl)).length < 32 →
        ∃ u z, exec (.figureCombine core k) s = .next u ∧ leaves u ∧ quiet u ∧ u.combining = s.combining ++ [z] ∧ entered s z ∧
          u.dieEvents = s.dieEvents) ∧
      (∀ a o b, held → s.combining = a ++ o :: b → (∀ z ∈ a, z.slice ≠ sl ∧ s.entryMeets o.pa (s.entryBytes o) o.cores z = false) →
        o.slice = sl → o ∉ b → (∀ z ∈ s.combining, ¬ same z) → (s.combining.filter (fun z => z.slice == sl)).length = 32 →
        s.struck = [] → s.poisoned = [] →
        let im := s.figEntry o.region.figTable o.slot
        (figTile (figFlags im) = false → ∀ r, figRun im (s.readBytes (o.pa / 128 * 128) 128) (o.pa % 128) o.operand = .ok r → r.img.length = 128 →
          ∃ u z, exec (.figureCombine core k) s = .next u ∧ leaves u ∧ u.combining = a ++ b ++ [z] ∧ entered s z ∧
            (∀ i < 128, u.readByte (o.pa / 128 * 128 + i) = if r.stored then r.img.getD i 0 else s.readByte (o.pa / 128 * 128 + i)) ∧
            ∀ y, (y < o.pa / 128 * 128 ∨ o.pa / 128 * 128 + 128 ≤ y) → u.readByte y = s.readByte y) ∧
        (figTile (figFlags im) = true → ∃ u f, exec (.figureCombine core k) s = .next u ∧ quiet u ∧ u.tileFigs = [f] ∧ f.pa = o.pa ∧
          f.granule = o.pa / 256 * 256 ∧ f.image = im ∧ f.operand = o.operand ∧ f.count = o.count ∧
          (e.pa / 256 = o.pa / 256 → u.combining = a ++ b ∧ u.squads = s.squads ∧ (u.core core).path = c.path) ∧
          (e.pa / 256 ≠ o.pa / 256 → leaves u ∧ ∃ z, u.combining = a ++ b ++ [z] ∧ entered s z)))) ∧
    ∀ y, s.combining = [y] → 64 ≤ s.clockOfDie (dieOfSlice y.slice) - y.born → s.poisoned = [] → s.struck = [] →
      let im := s.figEntry y.region.figTable y.slot
      (figTile (figFlags im) = false → s.granuleHeld y.pa = true → exec (.combineEntryAge y.slice 0) s = .next s) ∧
      ((figTile (figFlags im) = false → s.granuleHeld y.pa = false) →
      let g := figGranule (figFlags im)
      ∃ u, exec (.combineEntryAge y.slice 0) s = .next u ∧ u.combining = [] ∧ u.squads = s.squads ∧ u.pairs = s.pairs ∧ u.loads = s.loads ∧
        (figTile (figFlags im) = true → (∀ a, u.readByte a = s.readByte a) ∧ ∃ f, u.tileFigs = s.tileFigs ++ [f] ∧ f.pa = y.pa ∧
          f.granule = y.pa / 256 * 256 ∧ f.channel = channelOf (y.pa / 256 * 256) ∧ f.image = im ∧ f.operand = y.operand ∧ f.count = y.count) ∧
        (figTile (figFlags im) = false → u.tileFigs = s.tileFigs) ∧
        (figTile (figFlags im) = false → ∀ r, figRun im (s.readBytes (y.pa / g * g) g) (y.pa - y.pa / g * g) y.operand = .ok r → r.img.length = g →
          (∀ i < g, u.readByte (y.pa / g * g + i) = if r.stored then r.img.getD i 0 else s.readByte (y.pa / g * g + i)) ∧
          ∀ a, (a < y.pa / g * g ∨ y.pa / g * g + g ≤ a) → u.readByte a = s.readByte a))) ∧
  (∀ (s : State), s.struck = [] → s.poisoned = [] →
    let faults (im : List Byte) (pa operand d : Nat) : Prop := figTile (figFlags im) = false ∧
      figRun im (s.readBytes (pa / 128 * 128) 128) (pa - pa / 128 * 128) operand = .fault d
    let posted (u : State) (g : Region) (pa va core d : Nat) (sname code : Word) : Prop :=
      s.Posted u g.faultQueue (dieOfPa pa) (recordOf g va 0x22 d 5 core sname code)
    let dropped (u : State) (pa n : Nat) : Prop := u.stage = s.stage ∧ u.outbox = s.outbox ∧ (∀ a, u.readByte a = s.readByte a) ∧
      u.sliceDrops = tabPut 0 s.sliceDrops (sliceOf pa) (tabGet 0 s.sliceDrops (sliceOf pa) + BitVec.ofNat 32 n)
    (∀ (core k : Nat) (e : PathEntry) (slot : Nat) (x : Reg) (d : Nat), (s.core core).path[k]? = some e →
      (∀ z ∈ (s.core core).path.take k, z.sharesLine e = false ∨ z.between e = true) → s.combining = [] → s.tileFigs = [] → e.kind = .figure slot x → e.host = false →
      let im := s.figEntry e.region.figTable slot
      combinable (figFlags im) e.flag = false → (∃ y ∈ tabGet [] s.defCache (sliceOf e.pa), y.asid = e.asid ∧ y.slot = slot) →
      faults im e.pa x.toNat d →
      ∃ u, exec (.figureExecute core k) s = .next u ∧
        (figDrop (figFlags im) = false → posted u e.region e.pa e.va core d e.sname e.code) ∧ (figDrop (figFlags im) = true → dropped u e.pa 1) ∧
        ∀ n fo sq, e.flag = some n → tabFind s.flagOps e.op = some fo → fo.left ≤ 1 → fo.flag < 12 → tabFind s.squads fo.squad = some sq →
          ∃ sq', tabFind u.squads fo.squad = some sq' ∧ FlagCompleted sq sq' fo.flag (fo.err || !figDrop (figFlags im))) ∧
    ∀ (y : CombineEntry) (d : Nat), s.combining = [y] → 64 ≤ s.clockOfDie (dieOfSlice y.slice) - y.born →
      let im := s.figEntry y.region.figTable y.slot
      faults im y.pa y.operand d → s.granuleHeld y.pa = false →
      ∃ u, exec (.combineEntryAge y.slice 0) s = .next u ∧ u.squads = s.squads ∧ u.combining = [] ∧
        (figDrop (figFlags im) = false → posted u y.region y.pa y.va (y.cores.headD 0) d y.sname y.code) ∧
        (figDrop (figFlags im) = true → dropped u y.pa y.count))

/-- R131, R243, R245, R246, R247. A FIGLD whose image has been read returns its status if the image fails a check; a good image
waits for its turn, its slot marked busy. Once no earlier load of its address space and no FIG of its slot is left, a FIGLD
installs its image in the table, with V set, returns status 0 and lowers oc.ld, and a FIGUNLD empties the slot and lets its squad
go on: the slot's summaries follow and its marks clear when no other load waits. A FIG word that waited on a mark goes on. A slice
that holds a request whose definition it lacks takes it from the table, through the table's home, in place of its least recently
used one. R239, R240, R241, R243, R244. The status of a definition image, by the first check that it breaks, and the position it
names: the count of words, the header (its reserved bytes at 0x50 to 0x7F among them, log 66), each word's form, END and the zeros
after it, constant offsets, RETV against RET, the sequence of a COMM program, and the widths of FADD and OPND. R240, R241, R242.
What each micro-operation does to the temporaries, the working image and the return value, W being the element's width in bits, b
in bytes and G the granule: a temporary holds W bits, a second source is a temporary or the signed nine-bit immediate, S reads
sources as signed. LDE and STE fault with detail 1 outside the granule or off alignment, CHK with detail 2. A program starts with
temporaries 0 and its granule's bytes, runs its words in order, and is over at END or at a fault. -/
def Obligations.FigureDefinitions : Prop :=
  (∀ (s : State) (q k op lane : Nat) (sq : Squad),
    (∀ o slot, tabFind s.loads op = some o → o.squad = q → tabFind s.squads q = some sq → o.kind = .figld slot → slot < 64 →
      (∀ l ∈ o.elems, ∃ v, l.st = .ready v) → o.bad = none → ∀ t,
      (figCheck o.image ≠ 0 → ∃ u sq', exec (.loadCompletion op t) s = .next u ∧ SquadOnly s u q sq' ∧ tabFind u.loads op = none ∧
        sq' = { sq with sc := sq'.sc, ocLd := sq.ocLd - 1 } ∧ (o.dest ≠ 0 → sq'.readS o.dest = BitVec.ofNat 64 (figCheck o.image)) ∧
        ∀ r, r ≠ o.dest ∨ r = 0 → sq'.readS r = sq.readS r) ∧
      (figCheck o.image = 0 → ∃ u, exec (.loadCompletion op t) s = .next u ∧ QuietOutside s u ∧ tabFind u.loads op = none ∧
        u.figLoads = s.figLoads ++ [{ id := op, squad := q, asid := o.asid, table := o.region.figTable, slot := slot, image := some o.image,
                                      dest := o.dest }] ∧
        ∀ c ∈ u.cores, (c.2.region.map (·.asid)) = some o.asid → c.2.busy.getLsbD slot = true)) ∧
    (∀ f, s.figLoads[k]? = some f → f.squad = q → tabFind s.squads q = some sq → (∀ x ∈ s.figLoads.take k, x.asid ≠ f.asid) →
      s.figInFlight f.asid f.slot = false → s.combining = [] → f.slot < 64 →
      let at_ := f.table + 128 * f.slot
      let installs (u : State) (img : List Byte) : Prop := u.pairs = s.pairs ∧ u.figLoads = s.figLoads.eraseIdx k ∧
        (∀ i < 128, u.readByte (at_ + i) = img.getD i 0) ∧ (∀ a, (a < at_ ∨ at_ + 128 ≤ a) → u.readByte a = s.readByte a) ∧
        (∀ c ∈ u.cores, (c.2.region.map (·.asid)) = some f.asid → tabGet 0 c.2.summary f.slot = img.getD 0 0 ∧
          ((∀ x ∈ s.figLoads.eraseIdx k, x.asid = f.asid → x.slot ≠ f.slot) → c.2.busy.getLsbD f.slot = false)) ∧
        (∀ p, p ≠ q → tabFind u.squads p = tabFind s.squads p)
      (∀ b more, f.image = some (b :: more) → more.length = 127 → ∃ u sq', exec (.figldApply k) s = .next u ∧
        installs u ((b ||| 0x80) :: more) ∧ tabFind u.squads q = some sq' ∧ sq' = { sq with sc := sq'.sc, ocLd := sq.ocLd - 1 } ∧
        sq'.readS f.dest = 0 ∧ ∀ r, r ≠ f.dest → sq'.readS r = sq.readS r) ∧
      (f.image = none → ∃ u, exec (.figunldApply k) s = .next u ∧ installs u (List.replicate 128 0) ∧
        tabFind u.squads q = some (sq.waitedFor (.figunld f.id)))) ∧
    (∀ e n, (s.lane lane).cur = some e → e.hold = some (.slot n) → (s.core (lane / 64)).busy.getLsbD n = false →
      ∃ u, exec (.figSlotClear lane) s = .next u ∧ (u.lane lane).cur = some { e with hold := none } ∧ (∀ j, j ≠ lane → u.lane j = s.lane j) ∧
        QuietOutside s u ∧ u.cores = s.cores) ∧
    (∀ slice asid slot, s.figWaiting slice asid slot = none → exec (.definitionCacheFill slice asid slot) s = .next s) ∧
    ∀ slice asid slot w, s.figWaiting slice asid slot = some w → s.calm → (∀ d ∈ tabGet [] s.defCache slice, ¬ (d.asid = asid ∧ d.slot = slot)) →
      (∃ x e' n v, (w.1, x) ∈ s.cores ∧ e' ∈ x.path ∧ w.2 = e' ∧ e'.kind = .figure n v ∧ n = slot ∧ e'.asid = asid) ∧
      ∃ u, exec (.definitionCacheFill slice asid slot) s = .next u ∧ QuietOutside s u ∧
        tabGet [] u.defCache slice = ({ asid := asid, slot := slot, image := s.readBytes (w.2.region.figTable + 128 * slot) 128 } ::
          tabGet [] s.defCache slice).take 256 ∧
        ∀ j, j ≠ slice → tabGet [] u.defCache j = tabGet [] s.defCache j) ∧
  (∀ (img : List Byte), img.length = 128 →
    let byte (i : Nat) : Nat := (img.getD i 0).toNat
    let word (i : Nat) : Nat := leVal ((List.range 4).map (fun j => img.getD (16 + 4 * i + j) 0))
    let n := byte 1
    let size : Int := 2 ^ (byte 0 / 16 % 4)
    let granule : Int := if (byte 0).testBit 0 then 256 else 128
    let op (i : Nat) : Nat := word i / 2 ^ 26
    let D (i : Nat) : Nat := word i / 2 ^ 24 % 4
    let A (i : Nat) : Nat := word i / 2 ^ 22 % 4
    let B (i : Nat) : Nat := word i / 2 ^ 20 % 4
    let K (i : Nat) : Bool := (word i).testBit 19
    let S (i : Nat) : Bool := (word i).testBit 18
    let mode (i : Nat) : Nat := word i / 2 ^ 16 % 4
    let imm (i : Nat) : Int := if word i % 512 < 256 then (word i % 512 : Nat) else (word i % 512 : Nat) - 512
    let binary (i : Nat) : Prop := (4 ≤ op i ∧ op i ≤ 13) ∨ op i = 15 ∨ op i = 16
    let memory (i : Nat) : Prop := op i = 1 ∨ op i = 2
    let ret : Bool := (byte 0).testBit 2
    let unused (i : Nat) : Prop :=
      (D i ≠ 0 ∧ (op i = 2 ∨ op i = 19 ∨ op i = 20)) ∨ (A i ≠ 0 ∧ (op i = 1 ∨ op i = 3)) ∨
      (B i ≠ 0 ∧ ((memory i ∧ mode i ≠ 2) ∨ op i = 3 ∨ (binary i ∧ K i = true) ∨ op i = 19 ∨ op i = 20)) ∨
      (K i = true ∧ ¬ binary i) ∨ (S i = true ∧ op i ∉ [6, 7, 8, 13, 16]) ∨ (mode i ≠ 0 ∧ ¬ memory i) ∨ word i / 2 ^ 9 % 128 ≠ 0 ∨
      (imm i ≠ 0 ∧ ((binary i ∧ K i = false) ∨ op i = 14 ∨ 17 ≤ op i))
    let bad2 (i : Nat) : Prop := i < 16 ∧ if i + 1 < n then op i = 0 ∨ 0x15 ≤ op i ∨ mode i = 3 ∨ unused i else word i ≠ 0
    let bad3 (i : Nat) : Prop := i < n ∧ memory i ∧ (imm i % size ≠ 0 ∨ granule - size < imm i ∨
      (mode i = 1 ∧ imm i < -(granule - size)) ∨ (mode i ≠ 1 ∧ imm i < 0))
    let returns (i : Nat) : Prop := i < n ∧ op i = 19
    let bad4 (i : Nat) : Prop := (ret = false ∧ returns i) ∨ (ret = true ∧ (∀ j, ¬ returns j) ∧ i + 1 = n) ∨
      (ret = true ∧ returns i ∧ ∃ j < i, returns j)
    let bad5 (i : Nat) : Prop := (byte 0).testBit 1 = true ∧
      ((i = 0 ∧ ¬ (op 0 = 1 ∧ mode 0 = 1 ∧ imm 0 = 0)) ∨ (i = 1 ∧ ¬ (op 1 = 3 ∧ imm 1 = 0 ∧ D 1 ≠ D 0)) ∨
        (i = 2 ∧ ¬ (K 2 = false ∧ (op 2 ∈ [4, 7, 8, 9, 10, 11] ∨ (op 2 = 6 ∧ S 2 = false)) ∧
          ((A 2 = D 0 ∧ B 2 = D 1) ∨ (A 2 = D 1 ∧ B 2 = D 0)))) ∨
        (i = 3 ∧ ¬ (op 3 = 2 ∧ mode 3 = 1 ∧ imm 3 = 0 ∧ A 3 = D 2)) ∨
        (i = 4 ∧ ret = true ∧ ¬ (op 4 = 19 ∧ (A 4 = D 0 ∨ A 4 = D 2))) ∨ (i = 4 ∧ ret = false ∧ word 4 ≠ 0) ∨ (i = 5 ∧ ret = true ∧ word 5 ≠ 0))
    let bad6 (i : Nat) : Prop := i < n ∧ ((op i = 17 ∧ size ≠ 4) ∨ (op i = 18 ∧ size ≠ 2 ∧ size ≠ 4) ∨
      (op i = 3 ∧ (imm i < 0 ∨ 8 ≤ imm i * size)))
    let header : Prop := n = 0 ∨ (byte 0).testBit 7 = true ∨ (∃ i < 128, ((2 ≤ i ∧ i < 16) ∨ 0x50 ≤ i) ∧ byte i ≠ 0)
    let first (bad : Nat → Prop) (i : Nat) : Prop := bad i ∧ ∀ j < i, ¬ bad j
    let none_ (bad : Nat → Prop) : Prop := ∀ i, ¬ bad i
    (16 < n → figCheck img = 1 + 256 * 0xFF) ∧
    (n ≤ 16 → header → figCheck img = 2 + 256 * 0xFF) ∧
    (n ≤ 16 → ¬ header →
      (∀ i, first bad2 i → figCheck img = 2 + 256 * i) ∧
      (none_ bad2 → ∀ i, first bad3 i → figCheck img = 3 + 256 * i) ∧
      (none_ bad2 → none_ bad3 → ∀ i, first bad4 i → figCheck img = 4 + 256 * i) ∧
      (none_ bad2 → none_ bad3 → none_ bad4 → ∀ i, first bad5 i → figCheck img = 5 + 256 * i) ∧
      (none_ bad2 → none_ bad3 → none_ bad4 → none_ bad5 → ∀ i, first bad6 i → figCheck img = 6 + 256 * i) ∧
      (none_ bad2 → none_ bad3 → none_ bad4 → none_ bad5 → none_ bad6 → figCheck img = 0))) ∧
  ((∀ (fl e operand w : Nat) (r : FigRun),
    let n : Nat := 2 ^ (fl / 16 % 4)
    let W := 8 * n
    let G : Nat := if fl % 2 = 1 then 256 else 128
    let op := w / 2 ^ 26
    let D := w / 2 ^ 24 % 4
    let A := w / 2 ^ 22 % 4
    let B := w / 2 ^ 20 % 4
    let K : Bool := w.testBit 19
    let S : Bool := w.testBit 18
    let mode := w / 2 ^ 16 % 4
    let imm : Int := if w % 512 < 256 then (w % 512 : Nat) else (w % 512 : Nat) - 512
    let a := r.get A
    let y : Nat := if K then (imm % 2 ^ W).toNat else r.get B
    let num (v : Nat) : Int := if S then sx W v else v
    let writes (P : Int → Prop) : Prop := ∃ r', uopStep fl e operand w r = .ok r' ∧ r'.img = r.img ∧ r'.ret = r.ret ∧ r'.stored = r.stored ∧
      P (r'.get D) ∧ r'.get D < 2 ^ W ∧ ∀ k < 4, k ≠ D → r'.get k = r.get k
    let gives (v : Int) : Prop := writes (fun x => x = v)
    let off : Int := if mode = 0 then imm else if mode = 1 then e + imm else r.get B + imm
    let outside : Prop := off < 0 ∨ (G : Int) - n < off ∨ off % n ≠ 0
    (∀ k < 4, r.get k < 2 ^ W) → r.img.length = G →
      ((op = 1 ∨ op = 2) → outside → uopStep fl e operand w r = .fault 1) ∧
      (op = 1 → ¬ outside → gives (leVal ((List.range n).map (fun i => r.img.getD (off.toNat + i) 0)))) ∧
      (op = 2 → ¬ outside → ∃ r', uopStep fl e operand w r = .ok r' ∧ r'.stored = true ∧ r'.ret = r.ret ∧ (∀ k < 4, r'.get k = r.get k) ∧
        r'.img.length = G ∧ ∀ i < G, r'.img.getD i 0 = if off.toNat ≤ i ∧ i < off.toNat + n then
          BitVec.ofNat 8 (a / 2 ^ (8 * (i - off.toNat))) else r.img.getD i 0) ∧
      (op = 3 → 0 ≤ imm → gives (operand / 2 ^ (W * imm.toNat) % 2 ^ W)) ∧
      (op = 4 → gives (((a : Int) + y) % 2 ^ W)) ∧ (op = 5 → gives (((a : Int) - y) % 2 ^ W)) ∧
      (op = 6 → gives ((if S then clampSigned W (num a + num y) else clampUnsigned W (num a + num y)) % 2 ^ W)) ∧
      (op = 7 → gives (if num a ≤ num y then a else y)) ∧ (op = 8 → gives (if num a ≤ num y then y else a)) ∧
      (op = 9 → gives (a &&& y : Nat)) ∧ (op = 10 → gives (a ||| y : Nat)) ∧ (op = 11 → gives (a ^^^ y : Nat)) ∧
      (op = 12 → gives (if W ≤ y then 0 else ((a : Int) * 2 ^ y) % 2 ^ W)) ∧
      (op = 13 → gives (if W ≤ y then (if num a < 0 then 2 ^ W - 1 else 0) else (num a / 2 ^ y) % 2 ^ W)) ∧
      (op = 14 → K = false → gives (if r.get D ≠ 0 then a else r.get B)) ∧
      (op = 15 → gives (if a = y then 1 else 0)) ∧ (op = 16 → gives (if num a < num y then 1 else 0)) ∧
      (op = 17 → K = false → W = 32 → gives (fadd .f32 .rne a (r.get B) 0)) ∧
      (op = 18 → K = false → W = 16 → gives (fadd .bf16 .rne a (r.get B) 0)) ∧
      (op = 18 → K = false → W = 32 → writes (fun x => x % 2 ^ 16 = fadd .bf16 .rne (a % 2 ^ 16) (r.get B % 2 ^ 16) 0 ∧
        x / 2 ^ 16 = fadd .bf16 .rne (a / 2 ^ 16) (r.get B / 2 ^ 16) 0)) ∧
      (op = 19 → uopStep fl e operand w r = .ok { r with ret := a }) ∧
      (op = 20 → uopStep fl e operand w r = if a = 0 then .fault 2 else .ok r)) ∧
  (∀ (img granule : List Byte) (e operand : Nat), figRun img granule e operand = uopRun (img.getD 0 0).toNat e operand
    ((List.range (img.getD 1 0).toNat).map (fun i => leVal ((List.range 4).map (fun j => img.getD (16 + 4 * i + j) 0))))
    { t0 := 0, t1 := 0, t2 := 0, t3 := 0, img := granule, ret := 0, stored := false } ∨ img.length < 16 + 4 * (img.getD 1 0).toNat) ∧
  ∀ (fl e operand w : Nat) (ws : List Nat) (r : FigRun), (w < 2 ^ 26 → uopRun fl e operand (w :: ws) r = .ok r) ∧
    (2 ^ 26 ≤ w → (∀ d, uopStep fl e operand w r = .fault d → uopRun fl e operand (w :: ws) r = .fault d) ∧
      ∀ r', uopStep fl e operand w r = .ok r' → uopRun fl e operand (w :: ws) r = uopRun fl e operand ws r'))

/-- R80, R129, R131, R212, R261, R263, R266, R267, R268, R269. The oldest named store of its stream meets its name's directory
entry: LIVE forwards it to the entry's core, lane and slot, PARKED writes it into the saved registers, MOVING queues it while
fewer than 64 wait, another generation, FREE and RETIRED drop it as a dead letter; a name of another device leaves in a packet,
and one that cannot reach it is dropped and counted; a store to no name is dropped before (log 33), counted, and its flag takes an
error. An STN.REL's release half goes before it. In each case oc.st of its sender falls. At its target a delivery writes its
values as one unit and lowers the register's hold count, and the core acquires as it reaches 0; one to v32 to v63 of a target that
does not hold them, or whose image does not, is dropped with an XSET record of source 5 and detail 1. A flag completes once its
delivery has been applied or dropped, without error in these cases. -/
def Obligations.NamedStoreDelivery : Prop :=
  ∀ (s : State) (k q : Nat) (d : Delivery) (sq : Squad), s.stns[k]? = some d → tabFind s.squads q = some sq →
    let i := nameIndex d.name
    let e := s.dirEntry i
    let own : Prop := d.squad = q ∧ d.mine = true ∧ ∀ f, d.flag = some f → f < 12
    let cleared : Prop := ∀ n, d.rel = some n → s.releasedAt d.squad d.core 3 n ∧ s.combining = []
    let first : Prop := own ∧ d.at_ = .sent ∧ cleared ∧ d.dead = false ∧ ∀ x ∈ s.stns.take k, x.sameStream d = true → x.at_ ≠ .sent ∨ x.dead = true
    let accepted (u : State) : Prop := SquadOnly s u q { sq with ocSt := sq.ocSt - 1 } ∧ u.deadLetter = s.deadLetter
    let flagged (sq' : Squad) (err : Bool) : Prop := match d.flag with
      | some f => FlagCompleted sq sq' f err
      | none => sq'.flagP = sq.flagP ∧ sq'.flagF = sq.flagF ∧ sq'.flagE = sq.flagE
    let done (u : State) (err : Bool) : Prop := ∃ sq', tabFind u.squads q = some sq' ∧ flagged sq' err ∧
      sq' = { sq with ocSt := sq.ocSt - 1, flagP := sq'.flagP, flagF := sq'.flagF, flagE := sq'.flagE } ∧
      (∀ p, p ≠ q → tabFind u.squads p = tabFind s.squads p) ∧ u.pairs = s.pairs ∧ u.stns = s.stns.eraseIdx k
    let dropped (u : State) : Prop := done u true ∧ u.deadLetter = s.deadLetter + 1 ∧ ∀ a, u.readByte a = s.readByte a
    let whole : Prop := ∀ x ∈ d.vals, x.1 < 32
    (∀ n, d.rel = some n → ¬ s.releasedAt d.squad d.core 3 n → exec (.stnDelivery k) s = .next s) ∧
    (d.dead = true → cleared → own → ∃ u, exec (.stnDelivery k) s = .next u ∧ dropped u) ∧
    (first → nameDev d.name = s.module.config.deviceId.toNat →
      (e.gen = nameGen d.name → e.st = 1 → ∃ u, exec (.stnDelivery k) s = .next u ∧ accepted u ∧
        u.stns = s.stns.set k { d with at_ := .forwarded e.core e.lane e.slot }) ∧
      (e.gen = nameGen d.name → e.st = 3 → (tabGet [] s.moves i).length < 64 → ∃ u, exec (.stnDelivery k) s = .next u ∧
        tabFind u.squads q = some { sq with ocSt := sq.ocSt - 1 } ∧ u.stns = s.stns.eraseIdx k ∧ u.pairs = s.pairs ∧
        tabGet [] u.moves i = tabGet [] s.moves i ++ [d] ∧ (u.dirEntry i).queued = (tabGet [] s.moves i).length + 1 ∧
        ∀ a, (a < s.dirAt i ∨ s.dirAt i + 16 ≤ a) → u.readByte a = s.readByte a) ∧
      (e.gen = nameGen d.name → e.st = 3 → 64 ≤ (tabGet [] s.moves i).length → ∃ u, exec (.stnDelivery k) s = .next u ∧ QuietOutside s u ∧
        u.stns = s.stns ∧ u.moves = s.moves) ∧
      ((e.gen ≠ nameGen d.name ∨ e.st = 0 ∨ e.st = 4) → ∃ u, exec (.stnDelivery k) s = .next u ∧ dropped u) ∧
      ∀ p tq, e.gen = nameGen d.name → e.st = 2 → s.savedAt e.save = some (p, tq) →
        let at_ (th : Nat) : Nat := e.save + 256 * d.reg + 8 * th
        let hold := e.save + 0x5380 + d.reg
        (d.reg < 64 → (d.reg < 32 ∨ tq.savedExt.isSome = true) → (d.vals.map (·.1)).Nodup → whole → ∃ u, exec (.stnDelivery k) s = .next u ∧
          done u false ∧ (∀ x ∈ d.vals, u.readLe (at_ x.1) 8 = x.2.toNat) ∧
          (u.readByte hold).toNat = (if (s.readByte hold).toNat % 64 = 0 then (s.readByte hold).toNat else (s.readByte hold).toNat % 64 - 1) ∧
          ∀ a, a ≠ hold → (∀ x ∈ d.vals, a < at_ x.1 ∨ at_ x.1 + 8 ≤ a) → u.readByte a = s.readByte a) ∧
        (32 ≤ d.reg → tq.savedExt = none → ∃ u, exec (.stnDelivery k) s = .next u ∧ done u false ∧
          let home := dieOfPa (s.dirAt (nameIndex tq.sname))
          s.Posted u (s.regionOf tq).faultQueue home (recordFrom (s.regionOf tq) d.reg 2 1 5 0 home tq.sname 0))) ∧
    (first → nameDev d.name ≠ s.module.config.deviceId.toNat → ∃ u m, exec (.stnDelivery k) s = .next u ∧ accepted u ∧ u.stns = s.stns.eraseIdx k ∧
      u.pod = s.pod ++ [m] ∧ m.dst = nameDev d.name ∧ m.mine = true ∧ m.kind = .named d.squad d.name d.reg d.mask d.vals d.flag) ∧
    (∀ c l j p tq, d.at_ = .forwarded c l j → (∀ x ∈ s.stns.take k, x.sameStream d = false) → (d.flag = none ∨ own) →
      s.squads.find? (fun x => x.2.place == .resident c l j && x.2.sname == d.name && !x.2.exiting) = some (p, tq) → tabFind s.squads p = some tq →
      let told (u : State) : Prop := u.stns = s.stns.eraseIdx k ∧ (∀ y, y ≠ p → (y ≠ q ∨ d.flag = none) → tabFind u.squads y = tabFind s.squads y) ∧
        ∀ f, d.flag = some f → ∃ sq', tabFind u.squads q = some sq' ∧ FlagCompleted sq sq' f false ∧
          (p ≠ q → sq' = { sq with flagP := sq'.flagP, flagF := sq'.flagF, flagE := sq'.flagE })
      (d.reg < 64 → (d.reg < 32 ∨ (s.pair tq.pairOf).owner = some p) → (d.vals.map (·.1)).Nodup → whole →
        ∃ u tq', exec (.stnArrival k) s = .next u ∧ told u ∧ tabFind u.squads p = some tq' ∧
          tq' = { tq with v := tq'.v, hold := tq'.hold, flagP := tq'.flagP, flagF := tq'.flagF, flagE := tq'.flagE } ∧
          ((p ≠ q ∨ d.flag = none) → tq'.flagP = tq.flagP ∧ tq'.flagF = tq.flagF ∧ tq'.flagE = tq.flagE) ∧
          (∀ x ∈ d.vals, u.readV tq' d.reg x.1 = x.2) ∧
          (∀ r < 64, ∀ th < 32, (r ≠ d.reg ∨ th ∉ d.vals.map (·.1)) → u.readV tq' r th = s.readV tq r th) ∧
          u.readHold tq' d.reg = (if s.readHold tq d.reg = 0 then 0 else s.readHold tq d.reg - 1) ∧
          (∀ r < 64, r ≠ d.reg → u.readHold tq' r = s.readHold tq r) ∧ (∀ n, n ≠ tq.pairOf → u.pair n = s.pair n) ∧
          (∀ a, u.readByte a = s.readByte a) ∧
          (u.core tq.core).l1 = (if s.readHold tq d.reg = 1 then (s.core tq.core).l1.filter (fun x => x.2.scope == 0) else (s.core tq.core).l1)) ∧
      (32 ≤ d.reg → (s.pair tq.pairOf).owner ≠ some p → ∃ u, exec (.stnArrival k) s = .next u ∧ told u ∧ u.pairs = s.pairs ∧ u.cores = s.cores ∧
        (p ≠ q → tabFind u.squads p = some tq) ∧
        s.Posted u (s.regionOf tq).faultQueue (dieOfCore c) (recordOf (s.regionOf tq) d.reg 2 1 5 c tq.sname 0))) ∧
    ∀ n m nm r mask vals flag, s.pod[n]? = some m → m.kind = .named q nm r mask vals flag → m.mine = true →
      (m.sent = true ∨ ∀ l < 16, (s.link l).st ≠ .up) → (∀ f, flag = some f → f < 12) →
      ∃ u sq', exec (.stnRefusal n) s = .next u ∧ SquadOnly s u q sq' ∧ u.pod = s.pod.eraseIdx n ∧ u.deadLetter = s.deadLetter + 1 ∧
        sq' = { sq with flagP := sq'.flagP, flagF := sq'.flagF, flagE := sq'.flagE } ∧
        match flag with
        | some f => FlagCompleted sq sq' f true
        | none => sq' = sq

/-- R98, R288, R297, R300, R301, R303. A block barrier whose arrivals have reached its count, with what each participant issued
performed, completes: every participant's next clause may issue, and one of them holds the epilogue role, the greatest logical id
in a region with DET, the last to arrive in another. A squad whose threads have exited retires once its clause has ended and what
it issued has taken effect; the last squad of a block takes the block with it. A token that travels arrives at a resident squad,
and passes on from a retired one. A launch whose squads have all retired writes its completion value and leaves the launch table. -/
def Obligations.Retirement : Prop :=
  ∀ (s : State) (l b n q : Nat) (sq : Squad) (x : Launch), tabFind s.launches l = some x →
    (∀ blk, tabFind s.blocks (blockKey l b) = some blk →
      let bar := tabGet {} blk.barriers n
      let lid (p : Nat) : Nat := ((tabFind s.squads p).getD {}).lid
      bar.arrivals ≠ [] → bar.arrivals.Nodup → (∀ p ∈ bar.arrivals, ∃ y, tabFind s.squads p = some y) →
      (bar.arrivals.length = s.barrierCount bar (blockKey l b) →
        (∀ p ∈ bar.arrivals, (∀ o ∈ s.loads, o.2.squad ≠ p) ∧ (∀ f ∈ s.figLoads, f.squad = p → f.image = none) ∧
          ∀ y, tabFind s.squads p = some y → (∀ e ∈ (s.core y.core).held, e.squad ≠ p) ∧ ∀ e ∈ (s.core y.core).bank, e.squad ≠ p) →
        ∃ t h blk', exec (.barrierComplete l b n) s = .next t ∧ h ∈ bar.arrivals ∧
          (x.region.det = true → ∀ p ∈ bar.arrivals, lid p ≤ lid h) ∧ (x.region.det = false → bar.arrivals.getLast? = some h) ∧
          (∀ p y, tabFind s.squads p = some y →
            tabFind t.squads p = some (if p ∈ bar.arrivals then { y with arrived := none, barRole := some (p == h) } else y)) ∧
          tabFind t.blocks (blockKey l b) = some blk' ∧ blk' = { blk with barriers := blk'.barriers } ∧ tabFind blk'.barriers n = none ∧
          (∀ k, k ≠ n → tabFind blk'.barriers k = tabFind blk.barriers k) ∧ t = { s with squads := t.squads, blocks := t.blocks }) ∧
      (bar.arrivals.length ≠ s.barrierCount bar (blockKey l b) → exec (.barrierComplete l b n) s = .next s)) ∧
    (∀ e, tabFind s.squads q = some sq → (s.lane sq.laneOf).cur = some e → e.squad = q → exec (.squadRetire q) s = .next s) ∧
    (tabFind s.squads q = some sq → (∀ e, (s.lane sq.laneOf).cur = some e → e.squad ≠ q) → sq.exiting = true → sq.ocLd = 0 → sq.ocSt = 0 → sq.ocCp = 0 → sq.ocTl = 0 → s.combining = [] →
      (∀ blk, tabFind s.blocks sq.blockOf = some blk → blk.records = []) →
      (∀ r, sq.nextWait = some (.lnext 0 (some r)) → s.releasedAt q sq.core 2 r → ∃ t, exec (.squadRetire q) s = .next t ∧
        SquadOnly s t q { sq with place := .retired, exiting := false, nextWait := none, moreWaits := [], released := true } ∧
        ((∃ e ∈ t.squads, e.2.blockOf = sq.blockOf ∧ e.2.place ≠ .retired) → t.blocks = s.blocks) ∧
        ((∀ e ∈ t.squads, e.2.blockOf = sq.blockOf → e.2.place = .retired) → tabFind t.blocks sq.blockOf = none) ∧
        (sq.launch = l → x.tokenHere = true → x.tokenAt = sq.lid →
          ∃ y, tabFind t.launches l = some y ∧ y.tokenHere = false ∧ y.inSection = false) ∧
        t = { s with squads := t.squads, blocks := t.blocks, launches := t.launches }) ∧
      (sq.nextWait = none → ¬ s.releasedAt q sq.core 2 s.nextId →
        ∃ t, exec (.squadRetire q) s = .next t ∧ SquadOnly s t q { sq with nextWait := some (.lnext 0 (some s.nextId)) })) ∧
    (x.tokenHere = false → ∀ p y, s.squadOfLid l x.tokenAt = some (p, y) →
      (y.isResident = true → ∃ t, exec (.tokenArrival l) s = .next t ∧ tabFind t.launches l = some { x with tokenHere := true } ∧
        t = { s with launches := t.launches }) ∧
      (y.place = .retired → ∃ t x', exec (.tokenArrival l) s = .next t ∧ tabFind t.launches l = some x' ∧ x'.tokenHere = false ∧
        x'.inSection = false ∧ t = { s with launches := t.launches })) ∧
    (x.placed = x.clusters → (∀ e ∈ s.squads, e.2.launch = l → e.2.place = .retired) → x.graph = none →
      let gone (t : State) : Prop := tabFind t.launches l = none ∧ (∀ k, k ≠ l → tabFind t.launches k = tabFind s.launches k) ∧
        t.squads = s.squads.filter (fun e => e.2.launch != l) ∧ t.blocks = s.blocks.filter (fun e => e.2.launch != l) ∧ t.pairs = s.pairs
      (x.signal = 0 → ∃ t, exec (.launchRetire l) s = .next t ∧ gone t ∧ ∀ a, t.readByte a = s.readByte a) ∧
      (x.signal ≠ 0 → s.calm → ∀ p a, s.devPlace x.region true x.signal = some (p, a) → p.host = false →
        ∃ t, exec (.launchRetire l) s = .next t ∧ gone t ∧ t.readLe a 8 = x.value % 2 ^ 64 ∧
          ∀ y, (y < a ∨ a + 8 ≤ y) → t.readByte y = s.readByte y))

/-- R141, R208, R270, R305, R306, R307. A pre-emption request halts the squads of its unit and takes save-area records for its
blocks; where too few are free the unit runs on, and one record of cause 0x23 is posted, whose source is left open (log 3). When
nothing of the unit runs, its squads' names go MOVING and its blocks save; once the banks of what its TILE.MMAs write are free
(log 69), the contexts are written into their records, and its squads hold no lane slot and no pair lock. A squad that held the
lock saves v32 to v63 too, and waits to retake it, with no clause in execution on its lane. A unit that fits is restored: its
squads' registers are read back from their records onto the slots they take; each squad acquires, and with the last its blocks
run. A squad's name is PARKED at its record once its context is written, and LIVE again at its new place once it is restored. A
request for a unit that is being restored waits for its end. R263, R267, R270. The name of a squad whose context is written into
its record goes from MOVING to PARKED, with the record's address; the name of a squad that is restored goes from MOVING to LIVE,
with its new core, lane and slot. The deliveries that wait in its move queue are applied first, in arrival order: each thread of a
register takes the last value delivered to it, and each delivery lowers a hold count above 0. -/
def Obligations.Preemption : Prop :=
  (∀ (s : State) (l b : Nat) (x : Launch), tabFind s.launches l = some x →
    let ks := s.unitOf l b
    let bs := s.unitBlocks ks
    let sqs := s.unitSquads ks
    let phases (t : State) (ph : Phase) : Prop := ∀ e ∈ bs, ∃ blk, tabFind t.blocks e.1 = some blk ∧ blk.phase = ph
    let allAt (ph : Phase) : Prop := ∀ e ∈ bs, e.2.phase = ph
    let ready (q : Nat) : Prop := ∀ e ∈ bs, ∀ o ∈ (s.core (e.2.core.getD 0)).tiles, o.squad = q → o.kind = .mma → o.started = true →
      (s.core (e.2.core.getD 0)).placesFree ((List.range 4).map (fun j => o.at_ + 0x1C + j))
    bs ≠ [] →
    (allAt .running → (s.takeRecords bs).isSome = true → ∃ t, exec (.preemptionRequest l b) s = .next t ∧ phases t .asked ∧
      (∀ e ∈ sqs, ∃ y, tabFind s.squads e.1 = some y ∧ tabFind t.squads e.1 = some { y with halted := true }) ∧
      (∀ q, (∀ e ∈ sqs, e.1 ≠ q) → tabFind t.squads q = tabFind s.squads q) ∧
      t.lanes = s.lanes ∧ t.pairs = s.pairs ∧ t.cores = s.cores ∧ t.launches = s.launches) ∧
    (allAt .running → s.takeRecords bs = none → ∃ t r, exec (.preemptionRequest l b) s = .next t ∧ t.squads = s.squads ∧ t.pairs = s.pairs ∧
      t.cores = s.cores ∧ t.blocks = s.blocks ∧ t.launches = s.launches ∧ r < 7 ∧ ∀ k blk y, bs.head? = some (k, blk) →
        tabFind s.launches blk.launch = some y →
        s.Posted t y.region.faultQueue (dieOfCore (blk.core.getD 0)) (recordOf y.region 0 0x23 0 r (blk.core.getD 0) 0 0)) ∧
    (¬ allAt .running → ¬ allAt .restoring → exec (.preemptionRequest l b) s = .next s) ∧
    (allAt .restoring → ∃ t, exec (.preemptionRequest l b) s = .next t ∧ t = { s with blocks := t.blocks } ∧
      ∀ e ∈ bs, tabFind t.blocks e.1 = (tabFind s.blocks e.1).map (fun y => { y with wanted := true })) ∧
    (allAt .asked → (∀ e ∈ sqs, s.squadIdle e.1 e.2 = true) → ∃ t, exec (.contextSave l b) s = .next t ∧ phases t .saving ∧
      (∀ e ∈ sqs, e.2.sname ≠ 0 → (t.dirEntry (nameIndex e.2.sname)).st = 3) ∧
      (∀ q y, tabFind s.squads q = some y → ∃ y', tabFind t.squads q = some y' ∧ y' = { y with saveAt := y'.saveAt }) ∧
      t.lanes = s.lanes ∧ t.pairs = s.pairs ∧ t.cores = s.cores ∧ t.launches = s.launches) ∧
    ∀ (key q r : Nat) (blk : Block) (sq : Squad) (rest : List Nat), bs = [(key, blk)] → sqs = [(q, sq)] → tabFind s.blocks key = some blk →
      tabFind s.squads q = some sq → blk.launch = l → sq.sname = 0 →
      (blk.phase = .saving → blk.records = r :: rest → r ∉ rest → s.combining = [] → (∀ d ∈ s.stns, ∀ c i k, d.at_ ≠ .forwarded c i k) →
        s.releasedAt q sq.core 2 blk.upto → ready q →
        let a := x.region.saveBase + 0x8000 * r
        ∃ t sq' blk', exec (.contextSave l b) s = .next t ∧ tabFind t.squads q = some sq' ∧ sq'.place = .saved ∧ sq'.saveAt = a ∧
          sq' = { sq with place := sq'.place, saveAt := sq'.saveAt, savedExt := sq'.savedExt, wcbWait := sq'.wcbWait, fetched := none,
                          serves := sq'.serves } ∧ (∀ w ∈ sq.wcbWait, w ∈ sq'.wcbWait) ∧
          tabFind t.blocks key = some blk' ∧ blk'.phase = .saved ∧ blk'.core = none ∧
          (∀ v < 32, ∀ th < 32, t.readLe (a + 256 * v + 8 * th) 8 = (s.readV sq v th).toNat) ∧
          (∀ v < 64, t.readLe (a + 0x4000 + 8 * v) 8 = (sq.readS v).toNat) ∧
          (∀ p < 128, ∀ th < 32, t.readByte (a + 0x4200 + 32 * p + th) = sq.readP p th) ∧
          (∀ th < 32, t.readLe (a + 0x5200 + 4 * th) 4 = (sq.readVpc th).toNat ∧
            t.readLe (a + 0x5280 + 4 * th) 4 = (tabGet 0 sq.xvpc th).toNat ∧ t.readLe (a + 0x5300 + 4 * th) 4 = (sq.readGen th).toNat) ∧
          (∀ v < 32, (t.readByte (a + 0x5380 + v)).toNat = (s.readHold sq v).toNat) ∧
          (sq.isResident = true → (s.pair sq.pairOf).owner = some q → sq'.savedExt.isSome = true ∧ (t.pair sq.pairOf).owner = none ∧
            ∀ v, 32 ≤ v → v < 64 → (t.readByte (a + 0x5380 + v)).toNat = (s.readHold sq v).toNat ∧
              ∀ th < 32, t.readLe (a + 256 * v + 8 * th) 8 = (s.readV sq v th).toNat) ∧
          ((s.pair sq.pairOf).owner ≠ some q → sq'.savedExt = none) ∧
          (∀ p, p ≠ q → tabFind t.squads p = tabFind s.squads p) ∧
          ∀ y, (∀ k ∈ blk.records, y < x.region.saveBase + 0x8000 * k ∨ x.region.saveBase + 0x8000 * (k + 1) ≤ y) →
            t.readByte y = s.readByte y) ∧
      (blk.phase = .saved → x.preempted = false → x.region.det = false →
        ∀ d c p, s.fit x sq.cluster [(1, blk.size)] = some (d, [c]) → (s.freeSlots c).head? = some p →
        ∃ t sq' blk', exec (.contextRestore l b) s = .next t ∧ tabFind t.squads q = some sq' ∧ sq'.place = .resident c p.2 p.1 ∧
          tabFind t.blocks key = some blk' ∧ blk'.phase = .restoring ∧ blk'.core = some c ∧
          (∀ v < 32, ∀ th < 32, t.readV sq' v th = BitVec.ofNat 64 (s.readLe (sq.saveAt + 256 * v + 8 * th) 8)) ∧
          (∀ v < 64, v ≠ 0 → sq'.readS v = BitVec.ofNat 64 (s.readLe (sq.saveAt + 0x4000 + 8 * v) 8)) ∧
          (∀ v < 128, v ≠ 0 → ∀ th < 32, sq'.readP v th = s.readByte (sq.saveAt + 0x4200 + 32 * v + th)) ∧
          (∀ th < 32, sq'.readVpc th = BitVec.ofNat 32 (s.readLe (sq.saveAt + 0x5200 + 4 * th) 4) ∧
            sq'.readGen th = BitVec.ofNat 32 (s.readLe (sq.saveAt + 0x5300 + 4 * th) 4)) ∧
          (∀ th < 32, tabGet 0 sq'.xvpc th = BitVec.ofNat 32 (s.readLe (sq.saveAt + 0x5280 + 4 * th) 4)) ∧
          (∀ v < 32, tabGet 0 sq'.hold v = BitVec.ofNat 6 (s.readByte (sq.saveAt + 0x5380 + v)).toNat) ∧
          (sq.savedExt = none → sq'.savedExt = none) ∧ (sq.savedExt.isSome = true → ∃ y, sq'.savedExt = some y ∧ ∀ v, 32 ≤ v → v < 64 →
            tabGet 0 y.2 v = BitVec.ofNat 6 (s.readByte (sq.saveAt + 0x5380 + v)).toNat ∧
            ∀ th < 32, tabGet 0 y.1 (32 * v + th) = BitVec.ofNat 64 (s.readLe (sq.saveAt + 256 * v + 8 * th) 8)) ∧
          sq'.mode = BitVec.ofNat 32 (sq.mode.toNat % 8 + (if sq.mode.getLsbD 3 then 8 else 0) + (p.1 * 64 + p.2) * 256) ∧
          sq' = { sq with place := sq'.place, v := sq'.v, savedExt := sq'.savedExt, hold := sq'.hold, sc := sq'.sc, pr := sq'.pr,
                          vpc := sq'.vpc, xvpc := sq'.xvpc, gen := sq'.gen, mode := sq'.mode, wcbWait := sq'.wcbWait } ∧
          (∀ p, p ≠ q → tabFind t.squads p = tabFind s.squads p) ∧ ∀ y, t.readByte y = s.readByte y) ∧
      (blk.phase = .restoring → sq.saveAt ≠ 0 → sq.savedExt.isSome = true →
        ((s.pair sq.pairOf).owner ≠ none ∨ (s.lane sq.laneOf).cur ≠ none) → exec (.contextRestore l b) s = .next s) ∧
      (blk.phase = .restoring → blk.wanted = false → sq.saveAt ≠ 0 → ∀ y, sq.savedExt = some y → (s.pair sq.pairOf).owner = none →
        (s.lane sq.laneOf).cur = none → ∃ t, exec (.contextRestore l b) s = .next t ∧
        tabFind t.squads q = some { sq with savedExt := none, saveAt := 0, halted := false, serves := 0 } ∧
        t.pair sq.pairOf = { v := y.1, hold := y.2, owner := some q, last := some q } ∧ ∀ n, n ≠ sq.pairOf → t.pair n = s.pair n) ∧
      (blk.phase = .restoring → blk.wanted = false → sq.saveAt ≠ 0 → sq.savedExt = none → ∃ t, exec (.contextRestore l b) s = .next t ∧
        tabFind t.squads q = some { sq with savedExt := none, saveAt := 0, halted := false, serves := 0 } ∧
        (∀ p, p ≠ q → tabFind t.squads p = tabFind s.squads p) ∧ t.pairs = s.pairs ∧
        (t.core sq.core).l1 = (s.core sq.core).l1.filter (fun z => z.2.scope == 0) ∧ ∀ c, c ≠ sq.core → t.core c = s.core c) ∧
      (blk.phase = .restoring → blk.wanted = false → sq.saveAt = 0 → ∃ t, exec (.contextRestore l b) s = .next t ∧
        tabFind t.blocks key = some { blk with phase := .running, records := [] } ∧ t.squads = s.squads ∧ t.cores = s.cores ∧ t.pairs = s.pairs)) ∧
  (∀ (s : State) (l b : Nat) (x : Launch) (key q r : Nat) (blk : Block) (sq : Squad) (rest : List Nat), tabFind s.launches l = some x →
    let ks := s.unitOf l b
    s.unitBlocks ks = [(key, blk)] → s.unitSquads ks = [(q, sq)] → tabFind s.blocks key = some blk → tabFind s.squads q = some sq →
    blk.launch = l → sq.sname ≠ 0 →
    let i := nameIndex sq.sname
    let base := x.region.saveBase
    let a := base + 0x8000 * r
    let ds := tabGet [] s.moves i
    let lastTo (v th : Nat) : Option Reg := (((ds.filter (fun d => d.reg == v)).flatMap (·.vals)).reverse.find? (fun x => x.1 == th)).map (·.2)
    let holdOf (v : Nat) : Nat := (s.readHold sq v).toNat - ds.countP (fun d => d.reg == v)
    (∀ d ∈ ds, d.reg < 32 ∧ ∀ x ∈ d.vals, x.1 < 32) →
    (blk.phase = .saving → blk.records = r :: rest → r ∉ rest → s.combining = [] → a < 2 ^ 64 →
      (∀ o ∈ (s.core (blk.core.getD 0)).tiles, o.squad = q → o.kind = .mma → o.started = true →
        (s.core (blk.core.getD 0)).placesFree ((List.range 4).map (fun j => o.at_ + 0x1C + j))) →
      (∀ d ∈ s.stns, ∀ c m k, d.at_ ≠ .forwarded c m k) → s.releasedAt q sq.core 2 blk.upto →
      (∀ k ∈ blk.records, s.dirAt i + 16 ≤ base + 0x8000 * k ∨ base + 0x8000 * (k + 1) ≤ s.dirAt i) →
      ∃ t, exec (.contextSave l b) s = .next t ∧ t.dirEntry i = { st := 2, gen := (s.dirEntry i).gen, save := a } ∧ tabGet [] t.moves i = [] ∧
        (∀ v < 32, (t.readByte (a + 0x5380 + v)).toNat = holdOf v ∧
          ∀ th < 32, t.readLe (a + 256 * v + 8 * th) 8 = ((lastTo v th).getD (s.readV sq v th)).toNat) ∧
        ∃ sq', tabFind t.squads q = some sq' ∧ sq'.place = .saved ∧ sq'.saveAt = a ∧ sq'.sname = sq.sname) ∧
    ∀ c ln k, blk.phase = .restoring → blk.wanted = false → sq.saveAt ≠ 0 → sq.savedExt = none → sq.place = .resident c ln k →
      c < 512 → ln < 64 → k < 4 → (∀ n ∈ blk.records, s.dirAt i + 16 ≤ base + n / 8 ∨ base + n / 8 + 1 ≤ s.dirAt i) →
      ∃ t sq', exec (.contextRestore l b) s = .next t ∧
        t.dirEntry i = { st := 1, gen := nameGen sq.sname, core := c, lane := ln, slot := k } ∧ tabGet [] t.moves i = [] ∧
        tabFind t.squads q = some sq' ∧ ∀ v < 32, (t.readHold sq' v).toNat = holdOf v ∧
          ∀ th < 32, t.readV sq' v th = (lastTo v th).getD (s.readV sq v th))

/-- R286, R287, R292, R293. A doorbell write moves its queue's write index; one that leaves more packets than the ring holds stops
the queue with status 7 (its failing packet id stays, which is the model's choice of log 61), and one at a wrong offset, with
reserved bits or of another function's queue is logged. The scheduler binds the runnable queue of the highest priority, and among
equals the one unbound longest, to the lowest free slot (the model's choice, log 72), at its read index and with its whole slice;
with none free it pre-empts the weakest bound queue for a stronger one. A slot whose queue can run no more, as one that software
has disabled, is freed first. A slice that runs out pre-empts its queue for an equal or stronger one, and else starts again. -/
def Obligations.QueueScheduling : Prop :=
  ∀ (s : State) (fn off i q : Nat) (v : Reg) (sl : Slot),
    let n := v.toNat % 65536
    let wr := v.toNat / 2 ^ 32
    let d := s.qdesc n
    let desc := s.queueDesc n
    let good : Prop := off = 0 ∧ v.toNat / 65536 % 65536 = 0 ∧ d.owner = fn
    let pushed (t : State) (p : Nat) : Prop := (∀ e ∈ t.slots, e.2.queue ≠ p) ∧
      ∀ k y, tabFind t.launches k = some y → y.queue = p → y.preempted = true
    let age (p : Slot) : Nat := (s.schedClk - BitVec.ofNat 32 p.boundAt).toNat
    let seen : Prop := fn ≤ 64 ∧ (s.module.booted = false → fn = 0)
    (seen → good → (wr + 2 ^ 32 - d.rd) % 2 ^ 32 ≤ 2 ^ d.logN → ∃ t, exec (.doorbell fn off v) s = .next t ∧
      t.readLe (desc + 0x10) 4 = wr ∧ (∀ a, (a < desc + 0x10 ∨ desc + 0x14 ≤ a) → t.readByte a = s.readByte a) ∧
      { s with hbm := t.hbm }.HomesOnly t) ∧
    (seen → good → 2 ^ d.logN < (wr + 2 ^ 32 - d.rd) % 2 ^ 32 → ∃ t, exec (.doorbell fn off v) s = .next t ∧ t.readLe (desc + 0x0B) 1 = 7 ∧
      (∀ a, a ≠ desc + 0x0B → t.readByte a = s.readByte a) ∧ (∀ e ∈ t.slots, e.2.queue ≠ n) ∧ t.squads = s.squads ∧ t.launches = s.launches) ∧
    (fn ≤ 64 → ¬ good → off < 0x1000 → ∃ t, exec (.doorbell fn off v) s = .next t ∧ (tabGet {} t.fnLogs fn).count = (tabGet {} s.fnLogs fn).count + 1 ∧
      t = { s with fnLogs := t.fnLogs }) ∧
    (∀ e ∈ s.slots, e.2.st = .run → s.runnable e.2.queue = false → ∃ t, exec .schedulerBind s = .next t ∧
      ∀ z ∈ t.slots, z.2.st = .run → z.2.queue ≠ e.2.queue) ∧
    ((∀ e ∈ s.slots, e.2.st = .run → s.runnable e.2.queue = true) → q ∈ s.candidates → (∀ p ∈ s.candidates, p = q ∨ s.queuePriority p < s.queuePriority q ∨
        (s.queuePriority p = s.queuePriority q ∧ s.unboundFor p < s.unboundFor q)) →
      (i < 64 → (∀ y, tabFind s.slots i = some y → y.st ≠ .run) → (∀ j < i, ∃ y, tabFind s.slots j = some y ∧ y.st = .run) →
        ∃ t y, exec .schedulerBind s = .next t ∧ tabFind t.slots i = some y ∧ y.st = .run ∧ y.queue = q ∧ y.next = (s.qdesc q).rd ∧
          y.slice = (if (s.qdesc q).slice = 0 then 10000 else (s.qdesc q).slice) ∧ (∀ j, j ≠ i → tabFind t.slots j = tabFind s.slots j) ∧
          t = { s with slots := t.slots, launches := t.launches }) ∧
      ((∀ j < 64, ∃ y, tabFind s.slots j = some y ∧ y.st = .run) → ∀ w ∈ s.slots, w.2.st = .run →
        (∀ e ∈ s.slots, e.2.st = .run → e = w ∨ s.queuePriority w.2.queue < s.queuePriority e.2.queue ∨
          (s.queuePriority w.2.queue = s.queuePriority e.2.queue ∧ age e.2 < age w.2)) →
        (s.queuePriority w.2.queue < s.queuePriority q → ∃ t, exec .schedulerBind s = .next t ∧ pushed t w.2.queue) ∧
        (s.queuePriority q ≤ s.queuePriority w.2.queue → exec .schedulerBind s = .next s))) ∧
    (tabFind s.slots i = some sl → sl.st = .run → sl.slice = 0 →
      ((∃ p ∈ s.candidates, s.queuePriority sl.queue ≤ s.queuePriority p) → ∃ t, exec (.sliceExpiry i) s = .next t ∧ pushed t sl.queue) ∧
      ((∀ p ∈ s.candidates, s.queuePriority p < s.queuePriority sl.queue) → ∃ t, exec (.sliceExpiry i) s = .next t ∧
        tabFind t.slots i = some { sl with slice := if (s.qdesc sl.queue).slice = 0 then 10000 else (s.qdesc sl.queue).slice } ∧
        (∀ j, j ≠ i → tabFind t.slots j = tabFind s.slots j) ∧ t = { s with slots := t.slots }))

/-- R237, R287, R288, R289, R290, R291. A slot acts on its queue's next packet. A LAUNCH whose image is well formed, in the
queue's region and within its budgets, enters the launch table, waiting for what its edge names; another image, like an unknown
type, stops the queue with the status of the first check that fails. A PREFETCH with the page-in bit posts one record for its
first page that is absent (the ring's base counts with 52 bits, log 58). A SIGNAL waits for the queue's launches, then writes or
adds to its word as one action. A WAITSIG whose condition holds completes; else its queue leaves the slot and waits, and the
scheduler looks again after a write to the word, or after 4,096 ticks. A GRAPH that is well formed starts, and dispatches its
nodes in order, each waiting for the nodes its edges name. A packet that completes moves the queue's read index. R290, R291. The
scheduler reads a waiting word again when it has been written since, or after 4,096 ticks: a condition that holds lets its WAITSIG
complete in the queue's next slot, another leaves the queue waiting from now. A graph's slot dispatches its next node, in its
queue's region, as a launch that waits for the nodes that its edges name. -/
def Obligations.QueuePackets : Prop :=
  (∀ (s : State) (i : Nat) (sl : Slot) (g : Region) (p : List Byte), tabFind s.slots i = some sl → s.mayBegin sl = true → s.calm →
    s.queueRegion sl.queue = some g →
    s.devBytes g ((s.qdesc sl.queue).ring + 64 * (sl.next % 2 ^ (s.qdesc sl.queue).logN)) 64 = some p →
    let q := sl.queue
    let d := s.queueDesc q
    let idx (t : State) : Prop := t.readLe (d + 0x14) 4 = (sl.next + 1) % 2 ^ 32
    let stops (ev : Instr) (n : Nat) : Prop := ∃ t, exec ev s = .next t ∧ (t.readByte (d + 0x0B)).toNat = n % 256 ∧
      t.readLe (d + 0x20) 4 = pkId p ∧ (∀ e ∈ t.slots, e.2.queue ≠ q) ∧ t.squads = s.squads ∧ t.launches = s.launches ∧
      ∀ a, a ≠ d + 0x0B → (a < d + 0x20 ∨ d + 0x24 ≤ a) → t.readByte a = s.readByte a
    let placed (t : State) (n : Nat) (y : Launch) : Prop := tabFind t.launches n = some y ∧
      (∀ k, k ≠ n → tabFind t.launches k = tabFind s.launches k) ∧ t.squads = s.squads ∧ ∀ a, t.readByte a = s.readByte a
    ((pkType p = 0 ∨ 5 < pkType p) → stops (.launchPacket i) 1) ∧
    (pkType p = 1 → ∀ r, s.resolve (fld p 0x20 8) g.fn = some r → r.within g.rcb = true → pkReserved p = false → zeroFrom p 0x38 64 = true →
      imageRange p (some r.codeSize) true = false → (imageLaunch p q r).tooLarge = false → s.launches.length < 256 →
      ∃ t, exec (.launchPacket i) s = .next t ∧ placed t s.nextId { imageLaunch p q r with
        preds := if pkEdge p = 0 then [] else (s.queueRun q).latest.map (fun k => (k, pkEdge p == 2)) } ∧
        tabFind t.slots i = some { sl with busy := [s.nextId] }) ∧
    (pkType p = 1 → ∀ n, s.checkImage q g p true = .error n → stops (.launchPacket i) n) ∧
    (pkType p = 2 → (∀ n, checkPrefetch p = some n → stops (.prefetchPacket i) n) ∧
      (checkPrefetch p = none → fld p 9 1 = 1 → fld p 8 1 = 1 →
        let a := fld p 0x10 8
        let n := fld p 0x18 8
        let mapped (k : Nat) : Prop := s.walk g.root (4096 * k) ≠ .absent
        ((∀ k, a / 4096 ≤ k → 4096 * k < a + n → mapped k) → ∃ t, exec (.prefetchPacket i) s = .next t ∧ idx t ∧ t.squads = s.squads ∧
          ∀ y, (y < d + 0x14 ∨ d + 0x18 ≤ y) → t.readByte y = s.readByte y) ∧
        (∀ k, a / 4096 ≤ k → 4096 * k < a + n → ¬ mapped k → (∀ j, a / 4096 ≤ j → j < k → mapped j) → g.faultQueue ≠ 0 →
          let h := g.faultQueue
          let tail := s.readLe (h + 0x10) 4
          let w := s.readLe h 8 % 2 ^ 52 + 64 * (tail % 2 ^ s.readLe (h + 8) 4)
          (tail + 2 ^ 32 - s.readLe (h + 0x14) 4) % 2 ^ 32 ≠ 2 ^ s.readLe (h + 8) 4 → (w + 64 ≤ h ∨ h + 64 ≤ w) →
          (w + 64 ≤ d ∨ d + 64 ≤ w) → (h + 64 ≤ d ∨ d + 64 ≤ h) →
          ∃ t, exec (.prefetchPacket i) s = .next t ∧ idx t ∧ t.squads = s.squads ∧ t.readLe w 8 = (4096 * k) % 2 ^ 64 ∧
            t.readLe (w + 0x08) 2 = g.asid % 65536 ∧ (t.readByte (w + 0x0A)).toNat = 8 ∧ (t.readByte (w + 0x0C)).toNat = 16 ∧
            (t.readByte (w + 0x0D)).toNat = 3 ∧ t.readLe (w + 0x28) 8 = (a + n - max a (4096 * k)) % 2 ^ 64 ∧
            t.readLe (h + 0x10) 4 = (tail + 1) % 2 ^ 32))) ∧
    (pkType p = 3 →
      ((∃ e ∈ s.launches, e.2.queue = q) → ∃ t, exec (.signalPacket i) s = .next t ∧ t.slots = s.slots ∧ t.queues = s.queues ∧
        t.squads = s.squads ∧ ∀ y, t.readByte y = s.readByte y) ∧
      ((∀ e ∈ s.launches, e.2.queue ≠ q) → (∀ n, checkSignal p 1 true = some n → stops (.signalPacket i) n) ∧
        ∀ pg a, checkSignal p 1 true = none → s.devPlace g true (fld p 8 8) = some (pg, a) → pg.host = false →
          (a + 8 ≤ d ∨ d + 64 ≤ a) → ∃ t, exec (.signalPacket i) s = .next t ∧ idx t ∧ t.squads = s.squads ∧
          t.readLe a 8 = (if fld p 0x18 1 = 0 then fld p 0x10 8 else (s.readLe a 8 + fld p 0x10 8) % 2 ^ 64) ∧
          ∀ y, (y < a ∨ a + 8 ≤ y) → (y < d + 0x14 ∨ d + 0x18 ≤ y) → t.readByte y = s.readByte y)) ∧
    (pkType p = 4 → (s.queueRun q).passed = false → ∀ pg a, checkSignal p 2 false = none → s.devPlace g false (fld p 8 8) = some (pg, a) →
      pg.host = false →
      let word := s.readLe a 8
      let value := fld p 0x10 8
      let holds : Prop := (fld p 0x18 1 = 0 ∧ word = value) ∨ (fld p 0x18 1 = 1 ∧ value ≤ word) ∨ (fld p 0x18 1 = 2 ∧ word ≠ value)
      (holds → ∃ t, exec (.waitsigPacket i) s = .next t ∧ idx t ∧ t.squads = s.squads) ∧
      (¬ holds → ∃ t, exec (.waitsigPacket i) s = .next t ∧ tabFind t.slots i = some { sl with st := .waitsig } ∧
        (t.queueRun q).waiting = some (a, s.schedClk.toNat) ∧ (∀ y, t.readByte y = s.readByte y) ∧
        (∀ j, j ≠ i → tabFind t.slots j = tabFind s.slots j) ∧ t.squads = s.squads ∧ t.launches = s.launches)) ∧
    (pkType p = 5 → (∀ n, s.checkGraph q g p = .error n → stops (.graphPacket i) n) ∧
      ∀ gr, s.checkGraph q g p = .ok gr → ∃ t, exec (.graphPacket i) s = .next t ∧ tabFind t.graphs s.nextId = some gr ∧
        gr.nodes = [] ∧ gr.count = fld p 0x10 4 ∧ tabFind t.slots i = some { sl with graph := some s.nextId } ∧
        (∀ j, j ≠ i → tabFind t.slots j = tabFind s.slots j) ∧ t.squads = s.squads ∧ t.launches = s.launches ∧
        ∀ y, t.readByte y = s.readByte y)) ∧
  (∀ (s : State) (i q : Nat) (g : Region) (p : List Byte), s.queueRegion q = some g → s.calm →
    let same (t : State) : Prop := t.squads = s.squads ∧ t.launches = s.launches ∧ t.slots = s.slots ∧ (∀ y, t.readByte y = s.readByte y) ∧
      ∀ j, j ≠ q → t.queueRun j = s.queueRun j
    (∀ w pg a, (s.queueRun q).waiting = some w →
      s.devBytes g ((s.qdesc q).ring + 64 * ((s.qdesc q).rd % 2 ^ (s.qdesc q).logN)) 64 = some p →
      s.devPlace g false (fld p 8 8) = some (pg, a) → pg.host = false →
      let word := s.readLe a 8
      let value := fld p 0x10 8
      let holds : Prop := (fld p 0x18 1 = 0 ∧ word = value) ∨ (fld p 0x18 1 = 1 ∧ value ≤ word) ∨ (2 ≤ fld p 0x18 1 ∧ word ≠ value)
      let late : Prop := (s.queueRun q).due = true ∨ 4096 ≤ (s.schedClk - BitVec.ofNat 32 w.2).toNat
      (late → holds → ∃ t, exec (.waitsigRecheck q) s = .next t ∧
        t.queueRun q = { s.queueRun q with waiting := none, due := false, passed := true } ∧ same t) ∧
      (late → ¬ holds → ∃ t, exec (.waitsigRecheck q) s = .next t ∧
        t.queueRun q = { s.queueRun q with waiting := some (a, s.schedClk.toNat), due := false } ∧ same t) ∧
      (¬ late → exec (.waitsigRecheck q) s = .next s)) ∧
    ∀ sl n gr x, tabFind s.slots i = some sl → sl.st = .run → sl.queue = q → sl.graph = some n → tabFind s.graphs n = some gr →
      gr.nodes.length < gr.count → s.launches.length < 256 →
      s.devBytes g (gr.nodeVa + 64 * gr.nodes.length) 64 = some p → s.checkImage q g p false = .ok x →
      let ins := gr.edges.filter (fun e => e.2.1 == gr.nodes.length)
      ∃ t, exec (.graphPacket i) s = .next t ∧ tabFind t.graphs n = some { gr with nodes := gr.nodes ++ [s.nextId] } ∧
        tabFind t.launches s.nextId = some { x with
          preds := if ins = [] then gr.preds else ins.map (fun e => (gr.nodes.getD e.1 0, e.2.2)), graph := some n, packetId := gr.packetId } ∧
        (∀ k, k ≠ s.nextId → tabFind t.launches k = tabFind s.launches k) ∧ t.squads = s.squads ∧ ∀ y, t.readByte y = s.readByte y)

/-- R14, R55, R60, R61, R129, R149, R150, R172, R238, R289, R295, R296. A cluster that fits, and whose launch may be placed, goes
onto its cores: each block gets an allocation of scratch that reads zero, and its squads the core's free lane slots in order,
every register of theirs zero, every thread at the entry, no flag pending and none in error, the mode word zero but for DET and
the lane slot. A squad of management firmware is privileged (R55; that the image names the firmware's regions is log 62). A core
that passes to another region zeroes its accumulator store and weight buffer, adds one to the epoch, empties its locks, returns
its tags to key 0 and reloads its slot summary, which reads invalid in a region without a figure table (the model's choice, log
63); one that keeps its region keeps all of this. With the last cluster of a slot's LAUNCH its queue's read index moves on. -/
def Obligations.Placement : Prop :=
  ∀ (s : State) (l d : Nat) (cs : List Nat) (x : Launch), tabFind s.launches l = some x → x.placed < x.clusters → s.mayPlace l x = true →
    s.running = true → (∀ e ∈ s.squads, e.1 < s.nextId) → 1 ≤ x.cx → 1 ≤ x.cy → 1 ≤ x.cz →
    s.fit x x.placed (List.replicate (x.cx * x.cy * x.cz) (x.squadsPer, x.scratch)) = some (d, cs) →
    let k := x.nthCluster x.placed
    let desc := s.queueDesc x.queue
    let per := x.squadsPer
    cs.length = x.cx * x.cy * x.cz ∧
    ∃ t, exec (.placement l) s = .next t ∧ tabFind t.launches l = some { x with placed := x.placed + 1 } ∧
      (∀ j, j ≠ l → tabFind t.launches j = tabFind s.launches j) ∧
      (∀ n c, cs[n]? = some c →
        let at_ : Nat × Nat × Nat := (k % x.gridC.1 * x.cx + n % x.cx, k / x.gridC.1 % x.gridC.2.1 * x.cy + n / x.cx % x.cy,
          k / (x.gridC.1 * x.gridC.2.1) * x.cz + n / (x.cx * x.cy))
        let block := at_.1 + x.gx * (at_.2.1 + x.gy * at_.2.2)
        ∃ blk, tabFind t.blocks (blockKey l block) = some blk ∧ blk.launch = l ∧ blk.index = block ∧ blk.core = some c ∧ blk.size = x.scratch ∧
          blk.phase = .running ∧ blk.barriers = [] ∧ (∀ off < x.scratch, tabGet 0 (t.core c).scratch (blk.base + off) = 0) ∧
          ∀ i < per, ∃ sq p, tabFind t.squads (s.nextId + n * per + i) = some sq ∧
            (s.freeSlots c)[(cs.take n).count c * per + i]? = some p ∧
            sq.place = .resident c p.2 p.1 ∧ sq.launch = l ∧ sq.block = block ∧ sq.cluster = k ∧ sq.qid = i ∧ sq.lid = block * per + i ∧
            sq.bx = at_.1 ∧ sq.byy = at_.2.1 ∧ sq.bz = at_.2.2 ∧
            (∀ th < 32, sq.readVpc th = x.entry ∧ sq.readGen th = 0 ∧ (∀ r < 32, t.readV sq r th = 0) ∧ sq.readP 0 th = 0xFF ∧
              ∀ r < 128, r ≠ 0 → sq.readP r th = 0) ∧
            (∀ r, sq.readS r = 0) ∧ (∀ r < 32, t.readHold sq r = 0) ∧ sq.flagF = BitVec.allOnes 12 ∧ sq.flagE = 0 ∧ sq.flagP = 0 ∧
            sq.ocLd = 0 ∧ sq.ocSt = 0 ∧ sq.ocCp = 0 ∧ sq.ocTl = 0 ∧ (sq.priv = true ↔ x.region.rcb ∈ s.module.config.firmware) ∧
            sq.mgmt = sq.priv ∧ sq.sname = 0 ∧ sq.xcause = 0 ∧ sq.loop0.active = false ∧ sq.loop1.active = false ∧ sq.loop2.active = false ∧
            sq.nextWait = none ∧ sq.moreWaits = [] ∧ sq.xjump = none ∧
            sq.mode = BitVec.ofNat 32 ((if x.region.det then 8 else 0) + (p.1 * 64 + p.2) * 256)) ∧
      (∀ c ∈ cs,
        let a := s.core c
        let b := t.core c
        b.region = some x.region ∧
        (a.region.map (·.rcb) = some x.region.rcb → b.acc = a.acc ∧ b.wb = a.wb ∧ b.epoch = a.epoch ∧ b.locks = a.locks ∧ b.tags = a.tags ∧
          b.summary = a.summary ∧ b.busy = a.busy) ∧
        (a.region.map (·.rcb) ≠ some x.region.rcb → (∀ i, tabGet 0 b.acc i = 0 ∧ tabGet 0 b.wb i = 0) ∧ b.epoch = a.epoch + 1 ∧ b.locks = [] ∧
          (∀ n, tabGet {} b.tags n = {}) ∧ ∀ i < 64,
            tabGet 0 b.summary i = (if x.region.figTable = 0 then 0 else s.readByte (x.region.figTable + 128 * i)) ∧
            (b.busy.getLsbD i = true ↔ ∃ f ∈ s.figLoads, f.asid = x.region.asid ∧ f.slot = i)) ∧
        b = { a with region := b.region, acc := b.acc, wb := b.wb, badAcc := b.badAcc, badWb := b.badWb, epoch := b.epoch, locks := b.locks,
                     tags := b.tags, summary := b.summary, busy := b.busy, scratch := b.scratch, badScratch := b.badScratch }) ∧
      (∀ i sl, tabFind s.slots i = some sl → sl.st = .run → sl.queue = x.queue → (∀ e ∈ s.slots, e.2.st = .run → e.2.queue = x.queue → e = (i, sl)) →
        sl.busy = [l] → sl.graph = none →
        t.readLe (desc + 0x14) 4 = if x.placed + 1 = x.clusters then (sl.next + 1) % 2 ^ 32 else s.readLe (desc + 0x14) 4) ∧
      (∀ q, (q < s.nextId ∨ s.nextId + cs.length * per ≤ q) → tabFind t.squads q = tabFind s.squads q) ∧ t.pairs = s.pairs ∧
      t.lanes = s.lanes ∧ (∀ j, j ∉ cs → t.core j = s.core j) ∧ ∀ a, (a < desc + 0x14 ∨ desc + 0x18 ≤ a) → t.readByte a = s.readByte a

/-- R147, R284, R293, R309, R321, R322, R324, R330, R332. Host writes of registers. A write that the function may not make is
discarded and logged. KILL kills its region's fault domain, REPLAY releases its record, PREEMPT pre-empts its queue's slot; the
window's registers, a die counter's select and a channel's groomer settings take what is written; a 0 clears an error log's count;
an MSI-X vector takes its address, data and mask, in one request of 16 bytes or in two, and an unmasked vector that is pending
sends its message; a write of the pending bits changes nothing. That KILL of a block that no root resolves has no effect is log
46; that a physical function's vectors from 128 up are written where its pending bits also stand, and how a request falls into
registers, are log 45; that 8 bytes of an address are taken modulo 2^52 is log 58. R5, R145, R312, R321, R322, R323. A host read
returns its register's value, reserved bits zero, or a refusal that is logged. An access that the host refuses: the load's element
meets POISON with detail 3 and one of LDG.NF is 0, a store is discarded, with a record of cause 0x21 and source 4, a copy ends
with an error and its record; each is logged with kind 4. That LDG.NF's elements and copies are among what the host refuses is log
46. -/
def Obligations.HostLinkRegisters : Prop :=
  (∀ (s : State) (fn bar off n : Nat) (v : Reg),
    let seen : Prop := fn ≤ 64 ∧ (bar = 0 ∨ bar = 2 ∧ fn = 0) ∧ (s.module.booted = false → fn = 0 ∧ bar = 0)
    let logged (i : Instr) (f : Nat) : Prop := ∃ t, exec i s = .next t ∧
      (tabGet {} t.fnLogs f).count = (tabGet {} s.fnLogs f).count + 1 ∧ t = { s with fnLogs := t.fnLogs, fresh := t.fresh }
    let pa := v.toNat % 2 ^ 52
    (∀ data : List Byte, data ≠ [] → data.length ≤ 512 → ¬ seen → fn ≤ 64 → logged (.registerWrite fn bar off data) fn) ∧
    (s.module.booted = true →
      (∀ g, s.resolve pa 0 = some g → ∃ t, exec (.hostKill 0 v) s = .next t ∧
        ∀ l x, (l, x) ∈ s.launches → x.region.within g.domain = true → tabFind t.launches l = none ∧
          ∀ p y, tabFind s.squads p = some y → y.launch = l → ∃ y', tabFind t.squads p = some y' ∧ y'.place = .retired ∧ y'.live = []) ∧
      (s.resolve pa 0 = none → exec (.hostKill 0 v) s = .next s) ∧
      (∃ t r, exec (.hostReplay 0 v) s = .next t ∧ t.releases = s.releases ++ [r] ∧ r.id = s.nextId ∧ r.record = s.readBytes pa 64 ∧
        t = { s with releases := t.releases, nextId := s.nextId + 1 }) ∧
      (v.toNat < 65536 → (∀ e ∈ s.slots, e.2.st = .run → e.2.queue ≠ v.toNat) → exec (.hostPreempt 0 v) s = .next s) ∧
      (v.toNat < 65536 → (∃ e ∈ s.slots, e.2.st = .run ∧ e.2.queue = v.toNat) → ∃ t, exec (.hostPreempt 0 v) s = .next t ∧
        (∀ e ∈ t.slots, e.2.queue ≠ v.toNat) ∧ ∀ l x, tabFind t.launches l = some x → x.queue = v.toNat → x.preempted = true) ∧
      (65536 ≤ v.toNat → logged (.hostPreempt 0 v) 0) ∧
      (v.toNat < 131072 → exec (.exportWindowWrite 0 0x80020 v) s =
        .next { s with window := { s.window with asid := v.toNat % 65536, enable := v.getLsbD 16 } }) ∧
      exec (.exportWindowWrite 0 0x80028 v) s = .next { s with window := { s.window with base := v.toNat } } ∧
      exec (.exportWindowWrite 0 0x80030 v) s = .next { s with window := { s.window with size := v.toNat } } ∧
      (∀ d < 10, n < 64 → ∃ t, exec (.dieEventSelect 0 (0x50200 + 0x400 * d + 8 * n) v) s = .next t ∧
        tabGet {} t.dieEvents (64 * d + n) = { count := if v.getLsbD 9 then 0 else (tabGet {} s.dieEvents (64 * d + n)).count,
                                               source := v.setWidth 8, en := v.getLsbD 8 } ∧
        (∀ k, k ≠ 64 * d + n → tabFind t.dieEvents k = tabFind s.dieEvents k) ∧ t = { s with dieEvents := t.dieEvents }) ∧
      (n < 512 →
        let th := v.toNat % 128
        let p := v.toNat / 2 ^ 32
        let good : Prop := v.toNat / 128 % 2 ^ 25 = 0 ∧ 1 ≤ th ∧ th ≤ 64 ∧ p ≠ 0
        (good → ∃ t, exec (.groomerConfigWrite 0 (0x82000 + 8 * n) v) s = .next t ∧
          t.channel n = { s.channel n with threshold := BitVec.ofNat 7 th, period := BitVec.ofNat 32 p } ∧
          (∀ c, c ≠ n → t.channel c = s.channel c) ∧ t = { s with channels := t.channels }) ∧
        (¬ good → logged (.groomerConfigWrite 0 (0x82000 + 8 * n) v) 0)) ∧
      (n < 512 → v.toNat % 2 ^ 32 = 0 → ∃ t, exec (.channelErrorLogClear 0 (0x84000 + 4 * n) v) s = .next t ∧
        t.channel n = { s.channel n with errors := [], errCount := 0 } ∧ (∀ c, c ≠ n → t.channel c = s.channel c) ∧
        t = { s with channels := t.channels }) ∧
      (fn ≤ 64 → v = 0 → ∃ t, exec (.functionErrorLogClear fn v) s = .next t ∧
        tabGet {} t.fnLogs fn = { tabGet {} s.fnLogs fn with count := 0 } ∧ t = { s with fnLogs := t.fnLogs }) ∧
      (fn ≤ 64 → n < vectorsOf fn →
        let k := 256 * fn + n
        let x := tabGet {} s.msix k
        let sends (t : State) (w : Reg) : Prop := t.outbox = s.outbox ++ (if x.pending && !w.getLsbD 32 then [.msix fn n] else []) ∧
          (∀ j, j ≠ k → tabFind t.msix j = tabFind s.msix j) ∧ t = { s with msix := t.msix, outbox := t.outbox, fresh := t.fresh }
        (∃ t, exec (.registerWrite fn 0 (0x3000 + 16 * n) (leBytes 8 v.toNat)) s = .next t ∧ tabGet {} t.msix k = { x with addr := v } ∧
          (∀ j, j ≠ k → tabFind t.msix j = tabFind s.msix j) ∧ t = { s with msix := t.msix, fresh := t.fresh }) ∧
        (v.toNat < 2 ^ 33 → ∃ t, exec (.registerWrite fn 0 (0x3008 + 16 * n) (leBytes 8 v.toNat)) s = .next t ∧ sends t v ∧
          tabGet {} t.msix k = { x with data := v.setWidth 32, masked := v.getLsbD 32, pending := x.pending && v.getLsbD 32 }) ∧
        (2 ^ 33 ≤ v.toNat → logged (.registerWrite fn 0 (0x3008 + 16 * n) (leBytes 8 v.toNat)) fn) ∧
        (∀ w : Reg, w.toNat < 2 ^ 33 → ∃ t, exec (.registerWrite fn 0 (0x3000 + 16 * n) (leBytes 8 v.toNat ++ leBytes 8 w.toNat)) s = .next t ∧
          sends t w ∧ tabGet {} t.msix k = { addr := v, data := w.setWidth 32, masked := w.getLsbD 32, pending := x.pending && w.getLsbD 32 })) ∧
      (1 ≤ fn → fn ≤ 64 → ∃ t, exec (.registerWrite fn 0 0x3800 (leBytes 8 v.toNat)) s = .next t ∧ t = { s with fresh := t.fresh }))) ∧
  (∀ (s : State) (fn bar off len : Nat),
    let seen : Prop := fn ≤ 64 ∧ (bar = 0 ∨ bar = 2 ∧ fn = 0) ∧ (s.module.booted = false → fn = 0 ∧ bar = 0)
    let refused (t : State) (f : Nat) : Prop := (tabGet {} t.fnLogs f).count = (tabGet {} s.fnLogs f).count + 1
    let logs (t : State) (f a : Nat) : Prop := ∃ e es, (tabGet {} t.fnLogs f).entries = e :: es ∧ e.length = 16 ∧ Machine.fld e 0 8 = a % 2 ^ 64 ∧
      Machine.fld e 8 1 = 4 ∧ Machine.fld e 10 2 = f % 2 ^ 16
    let gives (f b o w : Nat) : Prop := ∃ t, exec (.memoryReadRequest f b o 8) s = .next t ∧
      t = { s with fresh := t.fresh, outbox := s.outbox ++ [.readReply f (some (leBytes 8 w))] }
    ((¬ seen ∨ len = 0 ∨ 512 < len) → fn ≤ 64 → ∃ t, exec (.memoryReadRequest fn bar off len) s = .next t ∧ refused t fn ∧
      t = { s with fresh := t.fresh, fnLogs := t.fnLogs, outbox := s.outbox ++ [.readReply fn none] }) ∧
    (s.module.booted = true → fn ≤ 64 →
      gives fn 0 0x1000 (s.module.config.deviceId.toNat + fn * 4096) ∧
      (∃ w, gives fn 0 0 w ∧ w / 2 ^ 16 % 2 ^ 16 = 0) ∧ (∃ w, gives 0 2 0x80010 w ∧ w < 2 ^ 16) ∧ gives fn 0 0x2100 (tabGet {} s.fnLogs fn).count.toNat ∧
      gives 0 2 0x40000 s.deadLetter.toNat ∧ gives 0 2 0x80028 (s.window.base % 2 ^ 64) ∧ gives 0 2 0x80030 (s.window.size % 2 ^ 64) ∧
      (∀ l < 16, gives 0 2 (0x41000 + 32 * l) (s.link l).authFails.toNat) ∧
      (∀ sl < 768, gives 0 2 (16 * sl) (tabGet 0 s.pinOverflow sl).toNat ∧ gives 0 2 (16 * sl + 8) (tabGet 0 s.sliceDrops sl).toNat) ∧
      (∀ c < 512, gives 0 2 (0x82000 + 8 * c) ((s.channel c).threshold.toNat + 2 ^ 32 * (s.channel c).period.toNat))) ∧
    (∀ op th o l, tabFind s.loads op = some o → o.elems.find? (fun z => z.thread == th) = some l → l.host = true → l.st = .waiting →
      o.kind.global = true → (s.core o.core).held = [] → ∃ t o', exec (.hostRefusal 0 op th) s = .next t ∧ tabFind t.loads op = some o' ∧
        o'.elems = o.elems.map (fun z => if z.thread = th then { z with st := if o.kind = .nf then .skip else .bad 3 } else z) ∧
        (∀ k, k ≠ op → tabFind t.loads k = tabFind s.loads k) ∧ refused t o.region.fn ∧ logs t o.region.fn l.pa ∧ t.squads = s.squads ∧ t.pairs = s.pairs) ∧
    (∀ core k e sq, (s.core core).path[k]? = some e → e.host = true → e.isStore = true →
      (∀ x ∈ (s.core core).path.take k, x.sharesLine e = false ∨ x.between e = true) →
      tabFind s.squads e.squad = some sq → ∃ t, exec (.hostRefusal 1 core k) s = .next t ∧
        (t.core core).path = (s.core core).path.eraseIdx k ∧ (t.core core).held = (s.core core).held ∧
        (∀ c, c ≠ core → (t.core c).path = (s.core c).path ∧ (t.core c).scratch = (s.core c).scratch) ∧
        (∀ p, p ≠ e.squad → tabFind t.squads p = tabFind s.squads p) ∧ t.pairs = s.pairs ∧ t.host = s.host ∧ logs t e.region.fn e.pa ∧
        s.Posted t e.region.faultQueue (dieOfCore core) (recordOf e.region e.va 0x21 0 4 core e.sname e.code) ∧
        tabFind t.squads e.squad = some { sq with ocSt :=
          if (∃ x ∈ (s.core core).path.eraseIdx k ++ (s.core core).held ++ (s.core core).leaving, x.op = e.op) then sq.ocSt else sq.ocSt - 1 }) ∧
    ∀ core c va p, (s.core core).copies.find? (fun x => x.id == c.id) = some c → (∀ j k, (j, k) ∈ s.cores → j ≠ core → ∀ x ∈ k.copies, x.id ≠ c.id) →
      c.started = true → c.parked = false → c.ended = false →
      va ∈ c.rowVas → s.translateIn core c.region va = .page p → p.host = true → ∃ t, exec (.hostRefusal 2 c.id va) s = .next t ∧
        logs t c.region.fn (p.pa va) ∧ t.squads = s.squads ∧ t.pairs = s.pairs ∧ t.host = s.host ∧ (t.core core).copies =
          (s.core core).copies.map (fun x => if x.id = c.id then { c with ended := true, err := true } else x) ∧
        let reads : Prop := c.kind = .cpin ∨ c.kind = .mcast
        (reads → s.Posted t c.region.faultQueue (dieOfCore core) (recordOf c.region va 10 3 1 core c.sname c.code)) ∧
        (¬ reads → s.Posted t c.region.faultQueue (dieOfCore core) (recordOf c.region va 0x21 0 1 core c.sname c.code)))

/-- R334, R335, R336. A command in the mailbox runs: ATTEST answers with a report over the nonce, the measurement and the device,
and its signature; POWER asks for ACTIVE, which a halted module that was brought up enters, or, with no launch in the table,
HALTED, and with any other argument fails (log 27); SENSORS gives the 18 temperatures and the supply; LINKRESET puts a link into
training with its replay buffer emptied (log 28), and a link that does not exist is refused. With no such command nothing changes.
R325, R333, R335. Power on with an image whose signature checks out measures it, brings memory up as zero, sets what the image
sets, trains the links and enters ACTIVE; with another image bring-up does not complete, and the module is new (log 48). A die at
105 °C or a supply below 48 V throttles the module by a step of 50 MHz, at most six steps; cooler than 100 °C with the supply back
it is ACTIVE again; at 115 °C or below 46 V it halts from any other state, kills every fault domain and records it. -/
def Obligations.ModuleControl : Prop :=
  (∀ (s : State),
    let m := s.module
    let asked (c : Byte) : Prop := m.status = 1 ∧ m.command = c
    let arg := (tabGet 0 m.buffer 0).toNat
    let ends (t : State) (st : Byte) : Prop := t.module.status = st ∧ t.module.command = m.command
    (asked 1 → ∃ t, exec .mailboxAttest s = .next t ∧ ends t 0 ∧ t = { s with module := t.module } ∧
      (∀ i < 32, tabGet 0 t.module.buffer i = tabGet 0 m.buffer i) ∧
      (∀ i < 48, tabGet 0 t.module.buffer (32 + i) = m.measurement.getD i 0) ∧
      leVal (((List.range 2).map (fun i => tabGet 0 t.module.buffer (80 + i)))) = m.config.deviceId.toNat ∧
      (∀ i < 48, tabGet 0 t.module.buffer (96 + i) = (sha384 Config.certificate).getD i 0) ∧
      (∀ i < 16, tabGet 0 t.module.buffer (144 + i) = 0) ∧
      ∀ i < 96, tabGet 0 t.module.buffer (160 + i) = (Config.sign ((List.range 160).map (fun j => tabGet 0 t.module.buffer j))).getD i 0) ∧
    (asked 2 → (arg = 0 → ∃ t, exec .mailboxPower s = .next t ∧ ends t 0 ∧ t = { s with module := t.module } ∧
        let wakes : Prop := m.power = .halted ∧ m.booted = true
        (wakes → t.module.power = .active ∧ t.module.slower = 0 ∧ tabGet 0 t.module.buffer 0 = 0) ∧
        (¬ wakes → t.module.power = m.power ∧ t.module.slower = m.slower ∧ (m.power = .active → tabGet 0 t.module.buffer 0 = 0) ∧
          (m.power = .halted → tabGet 0 t.module.buffer 0 = 3))) ∧
      (arg = 3 → s.launches = [] → ∃ t, exec .mailboxPower s = .next t ∧ ends t 0 ∧ t = { s with module := t.module } ∧
        t.module.power = .halted ∧ tabGet 0 t.module.buffer 0 = 3) ∧
      ((arg ≠ 0 ∧ arg ≠ 3) ∨ arg = 3 ∧ s.launches ≠ [] → exec .mailboxPower s = .next { s with module := { m with status := 3 } })) ∧
    (asked 3 → ∃ t, exec .mailboxSensors s = .next t ∧ ends t 0 ∧ t = { s with module := t.module } ∧
      (∀ d < 18, (tabGet 0 t.module.buffer (2 * d)).toNat + 256 * (tabGet 0 t.module.buffer (2 * d + 1)).toNat = tabGet 0 m.temps d % 65536) ∧
      (tabGet 0 t.module.buffer 36).toNat + 256 * (tabGet 0 t.module.buffer 37).toNat = m.supply % 65536) ∧
    (asked 4 → (arg < 16 → ∃ t, exec .mailboxLinkreset s = .next t ∧ ends t 0 ∧ (t.link arg).st = .training ∧ (t.link arg).replay = [] ∧
        tabGet 0 t.module.buffer 0 = 1 ∧ (∀ l, l ≠ arg → t.link l = s.link l) ∧
        t = { s with module := t.module, links := t.links, pod := t.pod }) ∧
      (16 ≤ arg → exec .mailboxLinkreset s = .next { s with module := { m with status := 3 } })) ∧
    (m.status ≠ 1 → ∀ i ∈ [Instr.mailboxAttest, .mailboxPower, .mailboxSensors, .mailboxLinkreset], exec i s = .next s)) ∧
  (∀ (s : State) (image : List Byte),
    let m := s.module
    let live : Prop := m.power = .active ∨ m.power = .throttled
    let hot (t : Nat) : Prop := ∃ e ∈ m.temps, t ≤ e.2
    (Config.imageGood image = true → ∃ t, exec (.powerOn image) s = .next t ∧ t.module.power = .active ∧ t.module.booted = true ∧
      t.module.measurement = sha384 image ∧ t.module.status = 0 ∧ t.squads = [] ∧ t.launches = [] ∧ (∀ a, t.readByte a = 0) ∧
      (∀ l < 16, (t.link l).st = .up) ∧ t.module.slower = 0 ∧ t.module.config.deviceId = Config.imageDevice image ∧
      t.module.config.directory = Config.imageDirectory image ∧ t.module.config.queueTable = Config.imageQueueTable image ∧
      ∀ c < 512, (t.channel c).threshold = Config.imageThreshold image ∧ (t.channel c).period = Config.imagePeriod image ∧
        (t.channel c).queue = []) ∧
    (Config.imageGood image = false → exec (.powerOn image) s = .next { State.reset with
      agenda := s.agenda, outbox := s.outbox, fresh := s.fresh, nextId := s.nextId, host := s.host,
      module := { power := .bringup, booted := false, temps := m.temps, supply := m.supply } }) ∧
    (live → (hot 1050 ∨ m.supply < 48000) → exec .throttleEntry s =
      .next { s with module := { m with power := .throttled, slower := min 6 (m.slower + 1) } }) ∧
    (¬ (live ∧ (hot 1050 ∨ m.supply < 48000)) → exec .throttleEntry s = .next s) ∧
    (m.power = .throttled → ¬ hot 1000 → 48000 ≤ m.supply → exec .throttleExit s =
      .next { s with module := { m with power := .active, slower := 0 } }) ∧
    (¬ (m.power = .throttled ∧ ¬ hot 1000 ∧ 48000 ≤ m.supply) → exec .throttleExit s = .next s) ∧
    (m.power ≠ .halted → (hot 1150 ∨ m.supply < 46000) → (∀ e ∈ s.launches, e.2.region.within e.2.region.domain = true) → ∃ t pre bs,
      exec .moduleHalt s = .next t ∧ t.module = { m with power := .halted } ∧ t.launches = [] ∧ t.outbox = pre ++ [.mgmtRecord bs] ∧
      bs.length = 64 ∧ bs.getD 0x0A 0 = 0x27 ∧
      ∀ p y x, tabFind s.squads p = some y → (y.launch, x) ∈ s.launches → ∃ y', tabFind t.squads p = some y' ∧ y'.place = .retired ∧ y'.live = []) ∧
    (¬ (m.power ≠ .halted ∧ (hot 1150 ∨ m.supply < 46000)) → exec .moduleHalt s = .next s))

/-- R10, R144, R325, R326, R327, R328, R329, R331, R332. A request on its way enters the queue of the one channel of its line,
with the deadline of its budget, behind those of its line and while the queue holds fewer than 64. The channel issues, of the
requests that no earlier one of their line precedes, one of the lowest class, and of these the one of earliest deadline; after 63
issues without one of class 3, one of class 3. A request served late counts in its core, a slice's own nowhere. A refresh writes
back its bank's row buffers, which writes have dirtied. The groomer asks for the next row when it may, one row at a time (log 47;
how many lines a row has is log 9), with its level's class and a budget of 1,023; the channel reads the row as it issues the
request, and starts a new pass after the last. The groomer escalates to level 1 when the pass has taken its whole period. A
codeword that an error has struck is logged as its row is read: in its entry, or in a new one in place of the oldest corrected
one, or of the oldest for an uncorrectable error; the count rises. A correctable error counts in event 0x49, another poisons its
line and posts a record of cause 10. -/
def Obligations.MemoryChannels : Prop :=
  ∀ (s : State) (chan bank core k : Nat) (r : ChanReq),
    let c := s.channel chan
    let only (t : State) : Prop := (∀ j, j ≠ chan → t.channel j = s.channel j) ∧ t.squads = s.squads ∧ t.pairs = s.pairs ∧
      ∀ a, t.readByte a = s.readByte a
    let lines (x : ChanReq) : List Nat := match x.row with
      | none => [x.line]
      | some n => Config.linesOfRow chan n
    let free (j : Nat) : Prop := ∃ y, c.queue[j]? = some y ∧ ∀ x ∈ c.queue.take j, ∀ l ∈ lines x, l ∉ lines y
    let due (x : ChanReq) (base : Word) : Nat := (x.deadline - base).toNat
    let asker : Option Nat := if core < 384 then some core else none
    let arrival := Instr.channelRequestArrival chan r.cls r.budget r.line core
    let late (x : ChanReq) : Prop := (x.deadline - c.clk).getLsbD 31 = true
    (s.toChannel[k]? = some r → r.core = asker → (∀ x ∈ s.toChannel.take k, x.line ≠ r.line) →
      (channelOf (128 * r.line) ≠ chan → exec arrival s = .next s) ∧
      (channelOf (128 * r.line) = chan → c.queue.length < 64 → ∃ t, exec arrival s = .next t ∧ only t ∧
        t.toChannel = s.toChannel.eraseIdx k ∧
        t.channel chan = { c with queue := c.queue ++ [{ r with deadline := c.clk + BitVec.ofNat 32 (16 * r.budget) }] })) ∧
    (64 ≤ c.queue.length → exec arrival s = .next s) ∧
    (∀ base : Word, c.queue[k]? = some r → free k → s.struck = [] → (∀ x ∈ c.queue, x.cls < 4 ∧ due x base < 2 ^ 31) →
      (∀ j y, c.queue[j]? = some y → free j → y.cls = r.cls → due r base ≤ due y base ∧ (j < k → due r base < due y base)) →
      ((63 ≤ c.since3 ∧ r.cls = 3) ∨ ((c.since3 < 63 ∨ ∀ j y, c.queue[j]? = some y → free j → y.cls ≠ 3) ∧
        ∀ j y, c.queue[j]? = some y → free j → r.cls ≤ y.cls)) →
      ∃ t, exec (.channelIssue chan) s = .next t ∧ only t ∧ (t.channel chan).queue = c.queue.eraseIdx k ∧
        (t.channel chan).since3 = (if r.cls = 3 then 0 else c.since3 + 1) ∧
        (∀ l, (lines r).head? = some l → ∃ b, (tabGet [] (t.channel chan).rows (Config.rowOf l).1).head? = some b ∧ b.row = (Config.rowOf l).2 ∧
          (r.write = true → b.dirty = true)) ∧
        (∀ m, r.core = some m → tabGet 0 (t.core m).missed r.cls = tabGet 0 (s.core m).missed r.cls + (if late r then 1 else 0)) ∧
        (∀ m, r.core ≠ some m ∨ ¬ late r → (t.core m).missed = (s.core m).missed) ∧
        (r.row = none → (t.channel chan).progress = c.progress) ∧
        (r.row.isSome = true → c.progress + 1 < Config.rowsPerChannel → (t.channel chan).progress = c.progress + 1) ∧
        (r.row.isSome = true → Config.rowsPerChannel ≤ c.progress + 1 → (t.channel chan).progress = 0 ∧ (t.channel chan).elapsed = 0 ∧
          (t.channel chan).level = 3 ∧ (t.channel chan).passPeriod = c.period)) ∧
    (c.queue = [] → exec (.channelIssue chan) s = .next s) ∧
    (∀ n cw kind, c.queue = [r] → r.row = some n → r.cls < 4 → r.core = none → s.struck = [(cw, kind)] → (kind = 1 ∨ kind = 2) →
      cw / 2 ∈ Config.linesOfRow chan n → channelOf (64 * cw) = chan →
      let at_ := 64 * cw
      let err (times : Nat) : ErrEntry := { addr := at_, bad := decide (kind = 2), groomer := true, times := times, at_ := c.clk }
      ∃ t, exec (.channelIssue chan) s = .next t ∧ t.struck = [] ∧ t.squads = s.squads ∧ t.pairs = s.pairs ∧
        (∀ a, t.readByte a = s.readByte a) ∧ (∀ j, j ≠ chan → t.channel j = s.channel j) ∧ (t.channel chan).errCount = c.errCount + 1 ∧
        (∀ xs e ys, c.errors = xs ++ e :: ys → e.addr = at_ → (∀ z ∈ xs ++ ys, z.addr ≠ at_) →
          (t.channel chan).errors = xs ++ err (min 65535 (e.times + 1)) :: ys) ∧
        ((∀ e ∈ c.errors, e.addr ≠ at_) →
          (c.errors.length < 16 → (t.channel chan).errors = c.errors ++ [err 1]) ∧
          (16 ≤ c.errors.length → ∀ xs e ys, c.errors = xs ++ e :: ys → e.bad = false → (∀ z ∈ xs, z.bad = true) →
            (t.channel chan).errors = xs ++ ys ++ [err 1]) ∧
          (16 ≤ c.errors.length → (∀ e ∈ c.errors, e.bad = true) →
            (t.channel chan).errors = if kind = 2 then c.errors.drop 1 ++ [err 1] else c.errors)) ∧
        (kind = 1 → t.poisoned = s.poisoned ∧ t.outbox = s.outbox ∧ t.dieEvents = (s.dieEvent (dieOfPa at_) 0x49 1).dieEvents) ∧
        (kind = 2 → t.isPoisoned at_ = true ∧ (∀ a, a / 128 ≠ at_ / 128 → t.isPoisoned a = s.isPoisoned a) ∧ t.dieEvents = s.dieEvents ∧
          ∃ bs, t.outbox = s.outbox ++ [.mgmtRecord bs] ∧ bs.length = 64 ∧ Machine.fld bs 0 8 = at_ % 2 ^ 64 ∧ Machine.fld bs 0x0A 1 = 10 ∧
            Machine.fld bs 0x0D 1 = 5)) ∧
    (∃ t, exec (.bankRefresh chan bank) s = .next t ∧ only t ∧ tabGet [] (t.channel chan).rows bank = [] ∧
      (∀ b, b ≠ bank → tabFind (t.channel chan).rows b = tabFind c.rows b) ∧ (t.channel chan).queue = c.queue) ∧
    (let period := c.passPeriod.toNat * 2 ^ 20
     let level := if c.level = 1 ∨ period ≤ c.elapsed then 1 else if c.elapsed * Config.rowsPerChannel ≤ c.progress * period then 3 else 2
     let may : Prop := (level = 1 ∨ c.queue.length < c.threshold.toNat) ∧ c.queue.length < 64 ∧ ∀ x ∈ c.queue, x.row = none
     (¬ may → exec (.groomerRead chan) s = .next s) ∧
     (may → ∃ t, exec (.groomerRead chan) s = .next t ∧ only t ∧ t = { s with channels := t.channels } ∧
       t.channel chan = { c with queue := c.queue ++ [{ cls := level, budget := 1023, line := 0, row := some c.progress,
                                                        deadline := c.clk + BitVec.ofNat 32 (16 * 1023) }] }) ∧
     (period ≤ c.elapsed → ∃ t, exec (.groomerPeriodExpiry chan) s = .next t ∧ only t ∧ t.channel chan = { c with level := 1 }) ∧
     (c.elapsed < period → exec (.groomerPeriodExpiry chan) s = .next s))

/-- R154, R164, R207, R313, R314, R316, R322, R331. A packet whose turn in its pair has come meets the export window of its
device: this device's own packet the window as it stands, another's as it stood when it arrived. A write whose bytes all lie in
it, on pages with W and, as log 43 has it, not DET-shared, each byte checked by itself, is applied as one update; a load of bytes
with R gives their value; else nothing is written. A packet of another device is answered. A packet for another device is over
when that device has taken it, its answer, a value or poisoned data, standing in the event (log 26). A packet that its destination
refuses, or that no link can carry, poisons its load with detail 2, or posts a record in the fault queue of the region that issued
it: the POD address, cause 0x21, source 4, the core, the squad's name and the word's address. -/
def Obligations.PodTraffic : Prop :=
  ∀ (s : State) (k : Nat) (m : PodMsg) (v : Option (BitVec 64)), s.pod[k]? = some m → m.id < s.nextId →
    let turn : Prop := m.sent = true ∧ ((m.mine = true ∧ ∀ x ∈ s.pod.take k, x.mine = true → x.dst ≠ m.dst) ∨
      (m.mine = false ∧ m.seq = some (tabGet 0 s.rxSeq (pairOfDevices m.src m.dst))))
    let quiet (t : State) : Prop := t.squads = s.squads ∧ t.pairs = s.pairs ∧ t.cores = s.cores ∧ ∀ x ∈ t.pod, x.id ≠ m.id
    let same (t : State) : Prop := ∀ y, t.readByte y = s.readByte y
    let window : ExportWindow := match m.window with
      | some w => w
      | none => s.window
    let place (ok : Page → Bool) (off : Nat) := s.windowPlace window ok off
    let at_ (ok : Page → Bool) (off a : Nat) : Prop := ∃ p, place ok off = some (false, a, p)
    let answered (t : State) (v : ElemState) : Prop := m.mine = false → ∃ x ∈ t.pod, x.kind = .reply v ∧ x.src = s.own ∧ x.dst = m.src ∧
      x.mine = true ∧ x.sent = false
    let recorded (t : State) : Prop := s.Posted t m.region.faultQueue (dieOfCore m.core)
      (recordOf m.region (m.dst * 2 ^ 48 + m.off) 0x21 0 4 m.core m.sname m.code)
    let refused : Prop := (turn ∧ m.dst ≠ s.own ∧ m.dst < 4096) ∨ (m.sent = false ∧ ∀ l < 16, (s.link l).st ≠ .up)
    (turn → ∀ data, m.kind = .write data →
      (∀ a : Nat → Nat, m.dst = s.own → (data.map (·.1)).Nodup → s.calm → (∀ x ∈ data, at_ podWrites (m.off + x.1) (a x.1)) →
        (∀ x ∈ data, ∀ y ∈ data, x.1 ≠ y.1 → a x.1 ≠ a y.1) →
        ∃ t, exec (.podWriteApply k) s = .next t ∧ quiet t ∧ (∀ x ∈ data, t.readByte (a x.1) = x.2) ∧
          (∀ y, (∀ x ∈ data, y ≠ a x.1) → t.readByte y = s.readByte y) ∧ answered t (.ready 0)) ∧
      (m.dst = s.own → (∃ x ∈ data, place podWrites (m.off + x.1) = none) → ∃ t, exec (.podWriteApply k) s = .next t ∧ quiet t ∧
        (m.mine = true → recorded t) ∧ (m.mine = false → same t) ∧ answered t (.bad 2)) ∧
      (m.dst ≠ s.own → ∃ t, exec (.podWriteApply k) s = .next t ∧ quiet t ∧ same t)) ∧
    (turn → ∀ op th size, m.kind = .load op th size →
      let gives (t : State) (st : ElemState) : Prop := m.mine = true → ∀ o, tabFind s.loads op = some o →
        tabFind t.loads op = some (o.setElem th st)
      (∀ a : Nat → Nat, m.dst = s.own → s.calm → (∀ i < size, at_ podReads (m.off + i) (a i)) →
        let whole : Prop := ∀ i < size, s.isPoisoned (a i) = false
        let value : Reg := BitVec.ofNat 64 (leVal ((List.range size).map (fun i => s.readByte (a i))))
        ∃ t, exec (.podLoadServe k v) s = .next t ∧ quiet t ∧ same t ∧ (whole → gives t (.ready value) ∧ answered t (.ready value)) ∧
          (¬ whole → gives t (.bad 1) ∧ answered t (.bad 1))) ∧
      (m.dst = s.own → (∃ i < size, place podReads (m.off + i) = none) →
        ∃ t, exec (.podLoadServe k v) s = .next t ∧ quiet t ∧ same t ∧ gives t (.bad 2) ∧ answered t (.bad 2)) ∧
      (m.dst ≠ s.own → ∃ t, exec (.podLoadServe k v) s = .next t ∧ quiet t ∧ same t ∧ ∀ o, tabFind s.loads op = some o →
        tabFind t.loads op = some (o.setElem th (match v with
          | some w => .ready (BitVec.ofNat 64 (w.toNat % 2 ^ (8 * size)))
          | none => .bad 1)))) ∧
    (m.mine = true → refused →
      (∀ op th size, m.kind = .load op th size → ∃ t, exec (.podRefusal k) s = .next t ∧ quiet t ∧ same t ∧
        ∀ o, tabFind s.loads op = some o → tabFind t.loads op = some (o.setElem th (.bad 2))) ∧
      (∀ data, m.kind = .write data → ∃ t, exec (.podRefusal k) s = .next t ∧ quiet t ∧ recorded t)) ∧
    (¬ (m.mine = true ∧ refused) → exec (.podRefusal k) s = .next s)

/-- R131, R207, R312, R313, R315, R316, R317, R318, R322. A link that is UP sends at each flit boundary: the oldest packet that
has not left, or one behind it to the same device that reaches other bytes (a figure: those its program may), with writes in order
and no figure before a store to its granule, sealed by AES-256-GCM under the active slot's salt and invocation count in 256 bytes;
the flit is kept until it is acknowledged, the packet takes its pair's next number, and with the last packet of a NORET FIG oc.st
falls. With none, or no room, an idle flit. One message stands in a flit that this device sends, and what a received payload
carries is Config.packets of it (log 24). At the last invocation the other slot takes over with a marker, or the link stalls and
says so; a marker that LKEYARM asked for wakes every squad that asked, and the old slot's invocation counter stands. A flit that
opens, the receive slot's count being its authenticated flits (log 44), is acknowledged and its packets arrive, and a marker makes
the other receive slot active and erases the old one; one that does not open, or of an unknown type, is refused by a NAK, all
behind it are discarded, and the third in a row takes the link down. An acknowledgement frees the flits up to its number; a
refusal sends them again, and the third of one flit takes the link down, its packets waiting for another link. -/
def Obligations.LinkTraffic : Prop :=
  ∀ (s : State) (l : Nat),
    let k := s.link l
    let only (t : State) : Prop := t.pairs = s.pairs ∧ t.cores = s.cores ∧ (∀ j, j ≠ l → t.link j = s.link j) ∧ ∀ a, t.readByte a = s.readByte a
    let rest (t : State) : Prop := t.squads = s.squads ∧ only t
    let told (t : State) (out : List OutMsg) (cause : Nat) : Prop := ∃ bs, t.outbox = out ++ [.mgmtRecord bs, .mgmtIrq] ∧ bs.length = 64 ∧
      Machine.fld bs 0 8 = l % 2 ^ 64 ∧ Machine.fld bs 0x0A 1 = cause ∧ Machine.fld bs 0x0D 1 = 6
    let down (t : State) (out : List OutMsg) : Prop := (t.link l).st = .down ∧ (t.link l).replay = [] ∧
      (∀ m ∈ t.pod, (∃ f ∈ k.replay, m.id ∈ f.packets) → m.sent = false) ∧ told t out 0x25
    let header (type : Nat) (seq arg : BitVec 16) : List Byte :=
      leBytes 2 (type + if k.txActive ∧ (type = 1 ∨ type = 2) then 16 else 0) ++ leBytes 2 seq.toNat ++ leBytes 2 arg.toNat ++ leBytes 6 0
    let plain (type : Nat) (arg : BitVec 16) : OutMsg :=
      .flit l (header type 0 arg ++ leBytes 4 (Config.crc32 (header type 0 arg)).toNat ++ List.replicate 240 0)
    let sealed_ (type n : Nat) : List Byte :=
      let hd := header type k.seq 0 ++ leBytes 4 0
      hd ++ gcmSeal k.tx.key (k.tx.salt ++ k.tx.count) hd ((List.range 224).map (fun i => (Config.payload n).getD i 0))
    let room : Prop := k.replay.length < 128
    let waiting := s.pod.filter (fun x => x.mine && !x.sent)
    let isWrite (x : PodMsg) : Prop := ∃ d, x.kind = .write d
    let isFigure (x : PodMsg) : Prop := ∃ n im v b f, x.kind = .figure n im v b f
    let granule (y : PodMsg) : Nat := match y.kind with
      | .figure _ im _ _ _ => if (im.getD 0 0).getLsbD 0 then 256 else 128
      | _ => 128
    let passes (y x : PodMsg) : Prop := (∃ a b, y.reach = some a ∧ x.reach = some b ∧ ∀ i ∈ a, i ∉ b) ∧ ¬ (isWrite y ∧ isWrite x) ∧
      ¬ (isFigure y ∧ isWrite x ∧ y.off / granule y = x.off / granule y)
    let switched (t : State) : Prop := (t.link l).txActive = !k.txActive ∧ (t.link l).armed = [] ∧ (t.link l).stalled = false ∧
      (t.link l).txIdle = { count := k.tx.count + 1 } ∧ (t.link l).tx = k.txIdle ∧
      t.outbox = s.outbox ++ [.flit l (sealed_ 2 s.fresh)] ∧ (t.link l).seq = k.seq + 1 ∧
      (t.link l).replay = k.replay ++ [{ seq := k.seq.toNat, bytes := sealed_ 2 s.fresh }] ∧
      ∀ p, tabFind t.squads p = if p ∈ k.armed then (tabFind s.squads p).map (fun sq =>
        sq.waitedFor (.marker l)) else tabFind s.squads p
    (k.st = .training → ∃ t, exec (.linkTrained l) s = .next t ∧ t.link l = { k with st := .up } ∧ rest t) ∧
    (k.st ≠ .training → exec (.linkTrained l) s = .next s) ∧
    (k.st = .up →
      (∀ n f, f ∈ k.replay → f.seq = n → (∀ g ∈ k.replay, g.seq = n → g = f) → k.replay.Nodup →
        (∃ t, exec (.ackReceive l n) s = .next t ∧ rest t ∧ (t.link l).replay = k.replay.drop (k.replay.idxOf f + 1) ∧
          t = { s with links := t.links }) ∧
        (f.naks < 2 → ∃ t, exec (.nakReceive l n) s = .next t ∧ rest t ∧
          t.outbox = s.outbox ++ (k.replay.drop (k.replay.idxOf f)).map (fun g => .flit l g.bytes) ∧
          (t.link l).replay = k.replay.map (fun g => if g = f then { g with naks := g.naks + 1 } else g)) ∧
        (2 ≤ f.naks → ∃ t, exec (.nakReceive l n) s = .next t ∧ rest t ∧ down t s.outbox)) ∧
      (k.armed = [] → k.tx.valid = true → k.tx.count ≠ k.tx.last → room → ∀ m, waiting.head? = some m →
        ∃ t y z bs n, exec (.flitBoundary l) s = .next t ∧ y ∈ waiting ∧ only t ∧
          (y = m ∨ (m.seq = none ∧ y.dst = m.dst ∧ ∃ before after, waiting = before ++ y :: after ∧ ∀ x ∈ before, x.dst = m.dst → passes y x)) ∧
          t.outbox = s.outbox ++ [.flit l bs] ∧ (t.link l).tx.count = k.tx.count + 1 ∧ (t.link l).seq = k.seq + 1 ∧
          (t.link l).replay = k.replay ++ [{ seq := k.seq.toNat, bytes := bs, packets := [y.id] }] ∧
          bs = sealed_ 1 n ∧ bs.length = 256 ∧
          z ∈ t.pod ∧ z = { y with sent := true, seq := z.seq, counted := none } ∧ (∀ x ∈ s.pod, x.id ≠ y.id → x ∈ t.pod) ∧
          (y.seq = none → y.dst < 4096 → z.seq = some (tabGet 0 s.txSeq (pairOfDevices y.src y.dst)) ∧
            tabGet 0 t.txSeq (pairOfDevices y.src y.dst) = tabGet 0 s.txSeq (pairOfDevices y.src y.dst) + 1) ∧
          (y.seq ≠ none → z.seq = y.seq ∧ t.txSeq = s.txSeq) ∧
          ((y.counted = none ∨ ∃ x ∈ s.pod, x.id ≠ y.id ∧ x.counted = y.counted) → t.squads = s.squads) ∧
          ∀ op q sq, y.counted = some (op, q) → (∀ x ∈ s.pod, x.id ≠ y.id → x.counted ≠ y.counted) → tabFind s.squads q = some sq →
            SquadOnly s t q { sq with ocSt := sq.ocSt - 1 }) ∧
      (k.armed = [] → (waiting = [] ∨ k.tx.valid = false ∨ k.tx.count = k.tx.last) ∨ ¬ room →
        exec (.flitBoundary l) s = .next { s with outbox := s.outbox ++ [plain 0 0] }) ∧
      (k.armed ≠ [] → room → ∃ t, exec (.flitBoundary l) s = .next t ∧ only t ∧ switched t) ∧
      (k.tx.valid = true → k.tx.count = k.tx.last →
        (k.txIdle.valid = true → room → ∃ t, exec (.keyLimitReached l) s = .next t ∧ only t ∧ switched t) ∧
        (k.txIdle.valid = false → k.stalled = false → ∃ t, exec (.keyLimitReached l) s = .next t ∧ rest t ∧
          t.link l = { k with stalled := true } ∧ told t s.outbox 11)) ∧
      ∀ flit : List Byte,
        let type := flitField flit 0 1 % 16
        let seq : BitVec 16 := BitVec.ofNat 16 (flitField flit 2 2)
        let slot := (flitField flit 0 1).testBit 4
        let key := k.rx slot
        let opened := gcmOpen 224 key.key (key.salt ++ key.count) (flit.take 16) (flit.drop 16)
        let good (body : List Byte) : Prop := key.valid = true ∧ opened = some body ∧ seq = k.rxSeq
        let acked (t : State) : Prop := (t.link l).rxSeq = k.rxSeq + 1 ∧ (t.link l).fails = 0 ∧ (t.link l).discarding = false ∧
          t.outbox = s.outbox ++ [plain 3 seq]
        (type = 0 → exec (.flitReceive l flit) s = .next s) ∧
        (((type = 1 ∨ type = 2) ∧ (key.valid = false ∨ opened = none)) ∨ 5 ≤ type → (k.discarding = false ∨ seq = k.rxSeq) → ∃ t,
          exec (.flitReceive l flit) s = .next t ∧ rest t ∧ (t.link l).authFails = k.authFails + 1 ∧
          (k.fails < 2 → (t.link l).st = .up ∧ (t.link l).discarding = true ∧ (t.link l).fails = k.fails + 1 ∧ t.pod = s.pod ∧
            t.outbox = s.outbox ++ [plain 4 seq]) ∧
          (2 ≤ k.fails → down t (s.outbox ++ [plain 4 seq]))) ∧
        (1 ≤ type → type ≠ 3 → type ≠ 4 → k.discarding = true → seq ≠ k.rxSeq → exec (.flitReceive l flit) s = .next s) ∧
        (∀ body, type = 2 → good body → ∃ t, exec (.flitReceive l flit) s = .next t ∧ rest t ∧ t.pod = s.pod ∧ acked t ∧
          (t.link l).rxActive = !k.rxActive ∧ (t.link l).rx k.rxActive = {} ∧
          (t.link l).rx (!k.rxActive) = (if slot = k.rxActive then k.rx (!k.rxActive) else { key with count := key.count + 1 })) ∧
        (∀ body, type = 1 → good body → Config.packets body = [] → ∃ t, exec (.flitReceive l flit) s = .next t ∧ rest t ∧ acked t ∧
          t.pod = s.pod ∧ (t.link l).rx slot = { key with count := key.count + 1 } ∧ (t.link l).rx (!slot) = k.rx (!slot)) ∧
        (∀ body p, type = 1 → good body → Config.packets body = [p] → p.kind = 0 →
          p.seq = tabGet 0 s.rxSeq (pairOfDevices p.src s.own) → (∀ x ∈ s.pod, x.mine = true) → ∃ t m,
          exec (.flitReceive l flit) s = .next t ∧ rest t ∧ acked t ∧ t.pod = s.pod ++ [m] ∧ m.mine = false ∧ m.sent = true ∧ m.src = p.src ∧
          m.dst = s.own ∧ m.off = p.off ∧ m.seq = some p.seq ∧ m.window = some s.window ∧ ∃ data, m.kind = .write data))

/-- R213, R313, R319. A multicast packet that has left becomes, at the leaf switch of the device, a branch for each named port of
its own leaf, and one up to a spine for the other leaves. A switch that has a branch sends one for each leaf its string names, and
each leaf one for each port; a branch to a device becomes that device's line, with its pair's next number. A line applied at its
destination is one update of its 128 bytes and lowers what its copy waits for; whether another device takes it is the event's
argument (log 26). A line that its destination's window does not allow, each byte checked by itself (log 43), counts as refused,
the copy ends in error, and a record of cause 0x21 is posted. R129, R131, R184, R320. REDX contributes a vector and its flag is
pending. When the group's spine combines, which it does for the first reduction of a group among the 256 of its unit (the count is
of this device's own, log 25), the reduction has its result, element by element, leaf by leaf and port by port in ascending order,
or is in error where the members do not agree; a group of this device alone agrees. What the peers send and whether they agree is
Config.peerVector and Config.peersAgree (log 25). The result is then written at this member and its flag completes, in error if it
met one. -/
def Obligations.MulticastAndReduction : Prop :=
  (∀ (s : State) (k : Nat),
    (∀ m op leaf port data, s.branches.length ≤ k →
      (s.pod.filter (fun x => x.dst == 4096 && x.sent))[k - s.branches.length]? = some m → m.kind = .cast op leaf port data →
      let own := s.own / 64
      let b (g : BranchTo) : Branch := { op := op, core := m.core, off := m.off, data := data, port := port, goes := g, region := m.region,
                                         sname := m.sname, code := m.code }
      ∃ t bs, exec (.mcastSwitchBranch k) s = .next t ∧ t = { s with pod := s.pod.filter (fun x => x.id != m.id), branches := s.branches ++ bs } ∧
        (∀ x, x ∈ bs ↔ ((leaf.getLsbD own = true ∧ ∃ p < 64, port.getLsbD p = true ∧ x = b (.device (64 * own + p))) ∨
          ∃ others : Reg, x = b (.spine others) ∧ others ≠ 0 ∧ ∀ i < 64, others.getLsbD i = (leaf.getLsbD i && decide (i ≠ own)))) ∧ bs.Nodup) ∧
    (∀ b, s.branches[k]? = some b →
      (∀ leaves, b.goes = .spine leaves → ∃ t, exec (.mcastSwitchBranch k) s = .next t ∧ t = { s with branches := t.branches } ∧
        t.branches = s.branches.eraseIdx k ++ ((List.range 64).filter (fun i => leaves.getLsbD i)).map (fun i => { b with goes := .leaf i })) ∧
      (∀ i, b.goes = .leaf i → ∃ t, exec (.mcastSwitchBranch k) s = .next t ∧ t = { s with branches := t.branches } ∧
        t.branches = s.branches.eraseIdx k ++ ((List.range 64).filter (fun p => b.port.getLsbD p)).map (fun p =>
          { b with goes := .device (64 * i + p) })) ∧
      (∀ d, b.goes = .device d → ∃ t m, exec (.mcastSwitchBranch k) s = .next t ∧ t.branches = s.branches.eraseIdx k ∧ m ∈ t.pod ∧
        m.dst = d ∧ m.off = b.off ∧ m.kind = .line b.op b.data ∧ m.mine = true ∧ m.sent = true ∧
        m.seq = some (tabGet 0 s.txSeq (pairOfDevices s.own d)) ∧ (∀ x ∈ s.pod, x.id ≠ s.nextId → x ∈ t.pod) ∧
        tabGet 0 t.txSeq (pairOfDevices s.own d) = tabGet 0 s.txSeq (pairOfDevices s.own d) + 1 ∧ t.squads = s.squads ∧ t.cores = s.cores)) ∧
    ∀ m op bs core c, s.pod[k]? = some m → m.sent = true → m.mine = true → (∀ x ∈ s.pod.take k, x.mine = true → x.dst ≠ m.dst) →
      m.kind = .line op bs → (s.core core).copies.find? (fun x => x.id == op) = some c →
      let window : ExportWindow := match m.window with
        | some w => w
        | none => s.window
      let told (t : State) (err : Bool) : Prop := t.squads = s.squads ∧ t.pairs = s.pairs ∧ (∀ x ∈ t.pod, x.id ≠ m.id) ∧
        (t.core core).copies = (s.core core).copies.map (fun x => if x.id = op then
          { x with pending := x.pending - 1, err := x.err || err } else x)
      (m.dst ≠ s.own → ∃ t, exec (.mcastLineApply k m.dst) s = .next t ∧ told t false ∧ ∀ y, t.readByte y = s.readByte y) ∧
      (m.dst = s.own → s.calm → bs.length = 128 → ∀ base : Nat,
        (∀ i < 128, ∃ p, s.windowPlace window podWrites (m.off + i) = some (false, base + i, p)) →
        ∃ t, exec (.mcastLineApply k m.dst) s = .next t ∧ told t false ∧ (∀ i < 128, t.readByte (base + i) = bs.getD i 0) ∧
          ∀ y, (y < base ∨ base + 128 ≤ y) → t.readByte y = s.readByte y) ∧
      (m.dst = s.own → (∃ i < 128, s.windowPlace window podWrites (m.off + i) = none) →
        ∃ t, exec (.mcastLineApply k m.dst) s = .next t ∧ told t true ∧ s.Posted t m.region.faultQueue (dieOfCore m.core)
          (recordOf m.region (m.dst * 2 ^ 48 + m.off) 0x21 0 4 m.core m.sname m.code))) ∧
  (∀ (s : State) (k q : Nat) (sq : Squad),
    (∀ (e : Exec) (d : BitVec 6) (o : BitVec 3) (f : BitVec 4), s.current = some (q, sq, e) → f.toNat < 12 → sq.flagP_ f.toNat < 15 →
      let off := (sq.readS d.toNat).toNat
      let img := s.image64 sq off
      let n := fld img 0x10 4
      s.imageFree q sq off → (∀ i < 64, (i = 0x16 ∨ i = 0x17 ∨ 0x28 ≤ i) → img.getD i 0 = 0) →
      off % 64 = 0 → fld img 0 8 % 4 = 0 → fld img 8 8 % 4 = 0 → n % 4 = 0 → 4 ≤ n → n ≤ 65536 →
      (fld img 0x18 8).testBit (s.own / 64) = true → (fld img 0x20 8).testBit (s.own % 64) = true →
      ∃ t sq' x, exec (.redx d o f) s = .next t ∧ EngineIssued s t q sq sq' f.toNat ∧ sq'.ocCp = sq.ocCp + 1 ∧ sq'.ocTl = sq.ocTl ∧
        t.redx = s.redx ++ [x] ∧ x.id = s.nextId ∧ x.squad = q ∧ x.op = o.toNat ∧ x.flag = f.toNat ∧ x.image = img ∧ x.result = none ∧
        x.err = false ∧ (t.core sq.core).copies = (s.core sq.core).copies ∧ (t.core sq.core).tiles = (s.core sq.core).tiles) ∧
    ∀ (r : RedxOp), s.redx[k]? = some r → tabFind s.squads q = some sq → r.squad = q → sq.isResident = true → r.parked = false →
      let n := fld r.image 0x10 4
      let group (x : RedxOp) : Nat := fld x.image 0x14 2
      let before := (s.redx.take k).filter (fun x => x.result.isNone && !x.err)
      let read := s.rowRead sq.core r.asCopy ((List.range n).map (fun i => (fld r.image 0 8 + i) % 2 ^ 64))
      let alone : Prop := ∀ i < 64, ∀ p < 64, (((fld r.image 0x18 8).testBit i = true ∧ (fld r.image 0x20 8).testBit p = true) ↔ 64 * i + p = s.own)
      let becomes (t : State) (y : RedxOp) : Prop := t.redx = s.redx.map (fun x => if x.id = r.id then y else x) ∧ t.squads = s.squads ∧
        t.pairs = s.pairs
      let finishes (t : State) (err : Bool) : Prop := ∃ sq', tabFind t.squads q = some sq' ∧
        sq' = { sq with flagF := sq'.flagF, flagE := sq'.flagE, flagP := sq'.flagP, ocCp := sq.ocCp - 1 } ∧ FlagCompleted sq sq' r.flag err ∧
        (∀ p, p ≠ q → tabFind t.squads p = tabFind s.squads p) ∧ t.pairs = s.pairs ∧ t.redx = s.redx.filter (fun x => x.id != r.id)
      let ahead : Prop := (∃ x ∈ before, group x = group r) ∨
        256 ≤ (before.filter (fun x => group x % 16 == group r % 16 && group x / 16 % 64 == group r / 16 % 64)).length
      (ahead → exec (.redxSpineCombine k) s = .next s) ∧
      (s.calm → r.result = none → r.err = false → ¬ ahead →
        (∀ s1 v, read = (s1, .ok v) →
          ((alone ∨ Config.peersAgree s1.fresh = true) → ∃ t bs, exec (.redxSpineCombine k) s = .next t ∧ becomes t { r with result := some bs } ∧
            bs.length = n / 4 * 4 ∧ ∀ j < n / 4, Machine.fld bs (4 * j) 4 = redxElem r.op (redxLeaf r.image) (redxPort r.image)
              (fun d => if d = s.own then v else Config.peerVector s1.fresh d) j % 2 ^ 32) ∧
          (popNat 64 (fld r.image 0x18 8) * popNat 64 (fld r.image 0x20 8) ≠ 1 → Config.peersAgree s1.fresh = false →
            ∃ t, exec (.redxSpineCombine k) s = .next t ∧ becomes t { r with err := true })) ∧
        (∀ s1 cause addr detail, read = (s1, .error (.error cause addr detail)) →
          ∃ t, exec (.redxSpineCombine k) s = .next t ∧ becomes t { r with err := true })) ∧
      (r.flag < 12 → r.err = true → ∃ t, exec (.redxResultWrite k) s = .next t ∧ finishes t true ∧ ∀ y, t.readByte y = s.readByte y) ∧
      (r.flag < 12 → r.err = false → ∀ bs s1, r.result = some bs →
        s.rowWrite sq.core r.asCopy ((List.range bs.length).map (fun i => ((fld r.image 8 8 + i) % 2 ^ 64, bs.getD i 0))) = (s1, .ok ()) →
        s.calm → ∃ t, exec (.redxResultWrite k) s = .next t ∧ finishes t false ∧ ∀ y, t.readByte y = s1.readByte y))
end

