-- ==== Sys2Proof/Laws/Bits.lean ====
section
/-!
SUPPORT. Sub-elements: reading one after replacing one (R77).
-/
namespace Sys2Proof.Machine

/-- The bits of a sub-element are bits of the register. -/
theorem subGet_testBit (W : Nat) (x : Reg) (j i : Nat) : (subGet W x j).testBit i = (decide (i < W) && x.getLsbD (W * j + i)) := by
  unfold subGet
  rw [Nat.testBit_mod_two_pow, Nat.testBit_div_two_pow]
  rw [Nat.add_comm i]
  rfl

/-- A sub-element is below 2^W. -/
theorem subGet_lt (W : Nat) (x : Reg) (j : Nat) : subGet W x j < 2 ^ W := Nat.mod_lt _ (Nat.two_pow_pos W)

/-- The bits of a sub-element's mask. -/
theorem subMask_getLsbD (W j b : Nat) (hb : b < 64) : (subMask W j).getLsbD b = decide (W * j ≤ b ∧ b < W * j + W) := by
  unfold subMask
  rw [BitVec.getLsbD_ofNat, Nat.testBit_mul_two_pow, Nat.testBit_two_pow_sub_one]
  by_cases h : W * j ≤ b
  · simp [hb, h]; omega
  · simp [h]

/-- The bits after a sub-element is replaced. -/
theorem subSet_getLsbD (W : Nat) (x : Reg) (j v b : Nat) (hb : b < 64) :
    (subSet W x j v).getLsbD b = if W * j ≤ b ∧ b < W * j + W then v.testBit (b - W * j) else x.getLsbD b := by
  unfold subSet
  rw [BitVec.getLsbD_or, BitVec.getLsbD_and, BitVec.getLsbD_not, subMask_getLsbD W j b hb, BitVec.getLsbD_ofNat,
    Nat.testBit_mul_two_pow, Nat.testBit_mod_two_pow]
  by_cases h1 : W * j ≤ b
  · by_cases h2 : b < W * j + W
    · have h3 : b - W * j < W := by omega
      simp [hb, h1, h2, h3]
    · have h3 : ¬ b - W * j < W := by omega
      simp [hb, h1, h2, h3]
  · simp [hb, h1]

/-- The sub-element that was replaced. -/
theorem subGet_subSet_same (W : Nat) (x : Reg) (j v : Nat) (h : W * j + W ≤ 64) : subGet W (subSet W x j v) j = v % 2 ^ W := by
  apply Nat.eq_of_testBit_eq
  intro i
  rw [subGet_testBit, Nat.testBit_mod_two_pow]
  by_cases hi : i < W
  · rw [subSet_getLsbD _ _ _ _ _ (by omega), if_pos (by omega)]
    simp [hi]
  · simp [hi]

/-- Another sub-element than the one replaced. -/
theorem subGet_subSet_ne (W : Nat) (x : Reg) {j i : Nat} (v : Nat) (h : i ≠ j) (hi : W * i + W ≤ 64) :
    subGet W (subSet W x j v) i = subGet W x i := by
  apply Nat.eq_of_testBit_eq
  intro b
  rw [subGet_testBit, subGet_testBit]
  by_cases hb : b < W
  · rw [subSet_getLsbD _ _ _ _ _ (by omega), if_neg]
    rcases Nat.lt_or_gt_of_ne h with h | h
    · have : W * i + W ≤ W * j := by rw [← Nat.mul_succ]; exact Nat.mul_le_mul_left W h
      omega
    · have : W * j + W ≤ W * i := by rw [← Nat.mul_succ]; exact Nat.mul_le_mul_left W h
      omega
  · simp [hb]

/-- R77. Each enabled sub-element takes its result, the others stay. -/
theorem subGet_elemUpdate (W k : Nat) (gb : Byte) (old : Reg) (f : Nat → Nat) (j : Nat) (hk : W * k ≤ 64) (hj : j < k) :
    subGet W (elemUpdate W k gb old f) j = if elemOn W gb j then f j % 2 ^ W else subGet W old j := by
  have hfit : ∀ i, i < k → W * i + W ≤ 64 := by
    intro i hi
    have : W * i + W ≤ W * k := by rw [← Nat.mul_succ]; exact Nat.mul_le_mul_left W hi
    omega
  have main : ∀ m, m ≤ k → ∀ i, i < k →
      subGet W ((List.range m).foldl (fun acc j => if elemOn W gb j then subSet W acc j (f j) else acc) old) i =
        if i < m ∧ elemOn W gb i then f i % 2 ^ W else subGet W old i := by
    intro m
    induction m with
    | zero => intro _ i _; simp
    | succ m ih =>
      intro hm i hi
      rw [List.range_succ, List.foldl_append]
      simp only [List.foldl_cons, List.foldl_nil]
      by_cases he : elemOn W gb m
      · rw [if_pos he]
        by_cases him : i = m
        · subst him
          rw [subGet_subSet_same _ _ _ _ (hfit i hi)]
          simp [he]
        · rw [subGet_subSet_ne _ _ _ him (hfit i hi), ih (by omega) i hi]
          have : i < m + 1 ↔ i < m := by omega
          simp [this]
      · rw [if_neg he, ih (by omega) i hi]
        by_cases him : i = m
        · subst him; simp [he]
        · have : i < m + 1 ↔ i < m := by omega
          simp [this]
  have := main k (Nat.le_refl k) j hj
  rw [elemUpdate, this]
  simp [hj]

/-- The widths of the integer words divide 64 bits into whole sub-elements. -/
theorem widthOf_mul (w : BitVec 2) : widthOf w * (64 / widthOf w) = 64 := by
  have h : ∀ w : BitVec 2, widthOf w * (64 / widthOf w) = 64 := by decide
  exact h w

/-- A thread of the list of threads is below 32. -/
theorem mem_threads {t : Nat} : t ∈ threads ↔ t < 32 := by simp [threads]

/-- The threads of a filter are distinct. -/
theorem nodup_threads (p : Nat → Bool) : (threads.filter p).Nodup := List.Pairwise.filter p List.nodup_range

end Sys2Proof.Machine
end

