-- ==== Sys2Proof/Laws/State.lean ====
section
/-!
SUPPORT. What each update of a part of the state leaves as it was, field by field.
-/
namespace Sys2Proof.Machine

@[simp] theorem State.modSquad_lanes (s : State) (q : Nat) (f : Squad → Squad) : (s.modSquad q f).lanes = s.lanes := rfl
@[simp] theorem State.modSquad_pairs (s : State) (q : Nat) (f : Squad → Squad) : (s.modSquad q f).pairs = s.pairs := rfl
@[simp] theorem State.modSquad_cores (s : State) (q : Nat) (f : Squad → Squad) : (s.modSquad q f).cores = s.cores := rfl
@[simp] theorem State.modSquad_launches (s : State) (q : Nat) (f : Squad → Squad) : (s.modSquad q f).launches = s.launches := rfl
@[simp] theorem State.modSquad_blocks (s : State) (q : Nat) (f : Squad → Squad) : (s.modSquad q f).blocks = s.blocks := rfl
@[simp] theorem State.modSquad_hbm (s : State) (q : Nat) (f : Squad → Squad) : (s.modSquad q f).hbm = s.hbm := rfl
@[simp] theorem State.modSquad_poisoned (s : State) (q : Nat) (f : Squad → Squad) : (s.modSquad q f).poisoned = s.poisoned := rfl
@[simp] theorem State.modSquad_host (s : State) (q : Nat) (f : Squad → Squad) : (s.modSquad q f).host = s.host := rfl
@[simp] theorem State.modSquad_walks (s : State) (q : Nat) (f : Squad → Squad) : (s.modSquad q f).walks = s.walks := rfl
@[simp] theorem State.modSquad_stage (s : State) (q : Nat) (f : Squad → Squad) : (s.modSquad q f).stage = s.stage := rfl
@[simp] theorem State.modSquad_releases (s : State) (q : Nat) (f : Squad → Squad) : (s.modSquad q f).releases = s.releases := rfl
@[simp] theorem State.modSquad_dieClk (s : State) (q : Nat) (f : Squad → Squad) : (s.modSquad q f).dieClk = s.dieClk := rfl
@[simp] theorem State.modSquad_slots (s : State) (q : Nat) (f : Squad → Squad) : (s.modSquad q f).slots = s.slots := rfl
@[simp] theorem State.modSquad_queues (s : State) (q : Nat) (f : Squad → Squad) : (s.modSquad q f).queues = s.queues := rfl
@[simp] theorem State.modSquad_schedClk (s : State) (q : Nat) (f : Squad → Squad) : (s.modSquad q f).schedClk = s.schedClk := rfl
@[simp] theorem State.modSquad_graphs (s : State) (q : Nat) (f : Squad → Squad) : (s.modSquad q f).graphs = s.graphs := rfl
@[simp] theorem State.modSquad_rotation (s : State) (q : Nat) (f : Squad → Squad) : (s.modSquad q f).rotation = s.rotation := rfl
@[simp] theorem State.modSquad_deadLetter (s : State) (q : Nat) (f : Squad → Squad) : (s.modSquad q f).deadLetter = s.deadLetter := rfl
@[simp] theorem State.modSquad_msix (s : State) (q : Nat) (f : Squad → Squad) : (s.modSquad q f).msix = s.msix := rfl
@[simp] theorem State.modSquad_fnLogs (s : State) (q : Nat) (f : Squad → Squad) : (s.modSquad q f).fnLogs = s.fnLogs := rfl
@[simp] theorem State.modSquad_outbox (s : State) (q : Nat) (f : Squad → Squad) : (s.modSquad q f).outbox = s.outbox := rfl
@[simp] theorem State.modSquad_dieEvents (s : State) (q : Nat) (f : Squad → Squad) : (s.modSquad q f).dieEvents = s.dieEvents := rfl
@[simp] theorem State.modSquad_loads (s : State) (q : Nat) (f : Squad → Squad) : (s.modSquad q f).loads = s.loads := rfl
@[simp] theorem State.modSquad_flagOps (s : State) (q : Nat) (f : Squad → Squad) : (s.modSquad q f).flagOps = s.flagOps := rfl
@[simp] theorem State.modSquad_l2 (s : State) (q : Nat) (f : Squad → Squad) : (s.modSquad q f).l2 = s.l2 := rfl
@[simp] theorem State.modSquad_msc (s : State) (q : Nat) (f : Squad → Squad) : (s.modSquad q f).msc = s.msc := rfl
@[simp] theorem State.modSquad_pins (s : State) (q : Nat) (f : Squad → Squad) : (s.modSquad q f).pins = s.pins := rfl
@[simp] theorem State.modSquad_pinOverflow (s : State) (q : Nat) (f : Squad → Squad) : (s.modSquad q f).pinOverflow = s.pinOverflow := rfl
@[simp] theorem State.modSquad_sliceDrops (s : State) (q : Nat) (f : Squad → Squad) : (s.modSquad q f).sliceDrops = s.sliceDrops := rfl
@[simp] theorem State.modSquad_channelDrops (s : State) (q : Nat) (f : Squad → Squad) : (s.modSquad q f).channelDrops = s.channelDrops := rfl
@[simp] theorem State.modSquad_combining (s : State) (q : Nat) (f : Squad → Squad) : (s.modSquad q f).combining = s.combining := rfl
@[simp] theorem State.modSquad_tileFigs (s : State) (q : Nat) (f : Squad → Squad) : (s.modSquad q f).tileFigs = s.tileFigs := rfl
@[simp] theorem State.modSquad_figLoads (s : State) (q : Nat) (f : Squad → Squad) : (s.modSquad q f).figLoads = s.figLoads := rfl
@[simp] theorem State.modSquad_defCache (s : State) (q : Nat) (f : Squad → Squad) : (s.modSquad q f).defCache = s.defCache := rfl
@[simp] theorem State.modSquad_pod (s : State) (q : Nat) (f : Squad → Squad) : (s.modSquad q f).pod = s.pod := rfl
@[simp] theorem State.modSquad_branches (s : State) (q : Nat) (f : Squad → Squad) : (s.modSquad q f).branches = s.branches := rfl
@[simp] theorem State.modSquad_redx (s : State) (q : Nat) (f : Squad → Squad) : (s.modSquad q f).redx = s.redx := rfl
@[simp] theorem State.modSquad_stns (s : State) (q : Nat) (f : Squad → Squad) : (s.modSquad q f).stns = s.stns := rfl
@[simp] theorem State.modSquad_moves (s : State) (q : Nat) (f : Squad → Squad) : (s.modSquad q f).moves = s.moves := rfl
@[simp] theorem State.modSquad_classes (s : State) (q : Nat) (f : Squad → Squad) : (s.modSquad q f).classes = s.classes := rfl
@[simp] theorem State.modSquad_heats (s : State) (q : Nat) (f : Squad → Squad) : (s.modSquad q f).heats = s.heats := rfl
@[simp] theorem State.modSquad_links (s : State) (q : Nat) (f : Squad → Squad) : (s.modSquad q f).links = s.links := rfl
@[simp] theorem State.modSquad_txSeq (s : State) (q : Nat) (f : Squad → Squad) : (s.modSquad q f).txSeq = s.txSeq := rfl
@[simp] theorem State.modSquad_rxSeq (s : State) (q : Nat) (f : Squad → Squad) : (s.modSquad q f).rxSeq = s.rxSeq := rfl
@[simp] theorem State.modSquad_window (s : State) (q : Nat) (f : Squad → Squad) : (s.modSquad q f).window = s.window := rfl
@[simp] theorem State.modSquad_roots (s : State) (q : Nat) (f : Squad → Squad) : (s.modSquad q f).roots = s.roots := rfl
@[simp] theorem State.modSquad_channels (s : State) (q : Nat) (f : Squad → Squad) : (s.modSquad q f).channels = s.channels := rfl
@[simp] theorem State.modSquad_module (s : State) (q : Nat) (f : Squad → Squad) : (s.modSquad q f).module = s.module := rfl
@[simp] theorem State.modSquad_struck (s : State) (q : Nat) (f : Squad → Squad) : (s.modSquad q f).struck = s.struck := rfl
@[simp] theorem State.modSquad_toChannel (s : State) (q : Nat) (f : Squad → Squad) : (s.modSquad q f).toChannel = s.toChannel := rfl
@[simp] theorem State.modSquad_prefetches (s : State) (q : Nat) (f : Squad → Squad) : (s.modSquad q f).prefetches = s.prefetches := rfl
@[simp] theorem State.modSquad_savedCopies (s : State) (q : Nat) (f : Squad → Squad) : (s.modSquad q f).savedCopies = s.savedCopies := rfl
@[simp] theorem State.modSquad_savedTiles (s : State) (q : Nat) (f : Squad → Squad) : (s.modSquad q f).savedTiles = s.savedTiles := rfl
@[simp] theorem State.modSquad_savedInbox (s : State) (q : Nat) (f : Squad → Squad) : (s.modSquad q f).savedInbox = s.savedInbox := rfl
@[simp] theorem State.modSquad_inboxWait (s : State) (q : Nat) (f : Squad → Squad) : (s.modSquad q f).inboxWait = s.inboxWait := rfl
@[simp] theorem State.modSquad_agenda (s : State) (q : Nat) (f : Squad → Squad) : (s.modSquad q f).agenda = s.agenda := rfl
@[simp] theorem State.modSquad_focus (s : State) (q : Nat) (f : Squad → Squad) : (s.modSquad q f).focus = s.focus := rfl
@[simp] theorem State.modSquad_fresh (s : State) (q : Nat) (f : Squad → Squad) : (s.modSquad q f).fresh = s.fresh := rfl
@[simp] theorem State.modSquad_nextId (s : State) (q : Nat) (f : Squad → Squad) : (s.modSquad q f).nextId = s.nextId := rfl

@[simp] theorem State.modCore_squads (s : State) (c : Nat) (f : CoreS → CoreS) : (s.modCore c f).squads = s.squads := rfl
@[simp] theorem State.modCore_lanes (s : State) (c : Nat) (f : CoreS → CoreS) : (s.modCore c f).lanes = s.lanes := rfl
@[simp] theorem State.modCore_pairs (s : State) (c : Nat) (f : CoreS → CoreS) : (s.modCore c f).pairs = s.pairs := rfl
@[simp] theorem State.modCore_launches (s : State) (c : Nat) (f : CoreS → CoreS) : (s.modCore c f).launches = s.launches := rfl
@[simp] theorem State.modCore_blocks (s : State) (c : Nat) (f : CoreS → CoreS) : (s.modCore c f).blocks = s.blocks := rfl
@[simp] theorem State.modCore_hbm (s : State) (c : Nat) (f : CoreS → CoreS) : (s.modCore c f).hbm = s.hbm := rfl
@[simp] theorem State.modCore_poisoned (s : State) (c : Nat) (f : CoreS → CoreS) : (s.modCore c f).poisoned = s.poisoned := rfl
@[simp] theorem State.modCore_host (s : State) (c : Nat) (f : CoreS → CoreS) : (s.modCore c f).host = s.host := rfl
@[simp] theorem State.modCore_walks (s : State) (c : Nat) (f : CoreS → CoreS) : (s.modCore c f).walks = s.walks := rfl
@[simp] theorem State.modCore_stage (s : State) (c : Nat) (f : CoreS → CoreS) : (s.modCore c f).stage = s.stage := rfl
@[simp] theorem State.modCore_releases (s : State) (c : Nat) (f : CoreS → CoreS) : (s.modCore c f).releases = s.releases := rfl
@[simp] theorem State.modCore_dieClk (s : State) (c : Nat) (f : CoreS → CoreS) : (s.modCore c f).dieClk = s.dieClk := rfl
@[simp] theorem State.modCore_slots (s : State) (c : Nat) (f : CoreS → CoreS) : (s.modCore c f).slots = s.slots := rfl
@[simp] theorem State.modCore_queues (s : State) (c : Nat) (f : CoreS → CoreS) : (s.modCore c f).queues = s.queues := rfl
@[simp] theorem State.modCore_schedClk (s : State) (c : Nat) (f : CoreS → CoreS) : (s.modCore c f).schedClk = s.schedClk := rfl
@[simp] theorem State.modCore_graphs (s : State) (c : Nat) (f : CoreS → CoreS) : (s.modCore c f).graphs = s.graphs := rfl
@[simp] theorem State.modCore_rotation (s : State) (c : Nat) (f : CoreS → CoreS) : (s.modCore c f).rotation = s.rotation := rfl
@[simp] theorem State.modCore_deadLetter (s : State) (c : Nat) (f : CoreS → CoreS) : (s.modCore c f).deadLetter = s.deadLetter := rfl
@[simp] theorem State.modCore_msix (s : State) (c : Nat) (f : CoreS → CoreS) : (s.modCore c f).msix = s.msix := rfl
@[simp] theorem State.modCore_fnLogs (s : State) (c : Nat) (f : CoreS → CoreS) : (s.modCore c f).fnLogs = s.fnLogs := rfl
@[simp] theorem State.modCore_outbox (s : State) (c : Nat) (f : CoreS → CoreS) : (s.modCore c f).outbox = s.outbox := rfl
@[simp] theorem State.modCore_dieEvents (s : State) (c : Nat) (f : CoreS → CoreS) : (s.modCore c f).dieEvents = s.dieEvents := rfl
@[simp] theorem State.modCore_loads (s : State) (c : Nat) (f : CoreS → CoreS) : (s.modCore c f).loads = s.loads := rfl
@[simp] theorem State.modCore_flagOps (s : State) (c : Nat) (f : CoreS → CoreS) : (s.modCore c f).flagOps = s.flagOps := rfl
@[simp] theorem State.modCore_l2 (s : State) (c : Nat) (f : CoreS → CoreS) : (s.modCore c f).l2 = s.l2 := rfl
@[simp] theorem State.modCore_msc (s : State) (c : Nat) (f : CoreS → CoreS) : (s.modCore c f).msc = s.msc := rfl
@[simp] theorem State.modCore_pins (s : State) (c : Nat) (f : CoreS → CoreS) : (s.modCore c f).pins = s.pins := rfl
@[simp] theorem State.modCore_pinOverflow (s : State) (c : Nat) (f : CoreS → CoreS) : (s.modCore c f).pinOverflow = s.pinOverflow := rfl
@[simp] theorem State.modCore_sliceDrops (s : State) (c : Nat) (f : CoreS → CoreS) : (s.modCore c f).sliceDrops = s.sliceDrops := rfl
@[simp] theorem State.modCore_channelDrops (s : State) (c : Nat) (f : CoreS → CoreS) : (s.modCore c f).channelDrops = s.channelDrops := rfl
@[simp] theorem State.modCore_combining (s : State) (c : Nat) (f : CoreS → CoreS) : (s.modCore c f).combining = s.combining := rfl
@[simp] theorem State.modCore_tileFigs (s : State) (c : Nat) (f : CoreS → CoreS) : (s.modCore c f).tileFigs = s.tileFigs := rfl
@[simp] theorem State.modCore_figLoads (s : State) (c : Nat) (f : CoreS → CoreS) : (s.modCore c f).figLoads = s.figLoads := rfl
@[simp] theorem State.modCore_defCache (s : State) (c : Nat) (f : CoreS → CoreS) : (s.modCore c f).defCache = s.defCache := rfl
@[simp] theorem State.modCore_pod (s : State) (c : Nat) (f : CoreS → CoreS) : (s.modCore c f).pod = s.pod := rfl
@[simp] theorem State.modCore_branches (s : State) (c : Nat) (f : CoreS → CoreS) : (s.modCore c f).branches = s.branches := rfl
@[simp] theorem State.modCore_redx (s : State) (c : Nat) (f : CoreS → CoreS) : (s.modCore c f).redx = s.redx := rfl
@[simp] theorem State.modCore_stns (s : State) (c : Nat) (f : CoreS → CoreS) : (s.modCore c f).stns = s.stns := rfl
@[simp] theorem State.modCore_moves (s : State) (c : Nat) (f : CoreS → CoreS) : (s.modCore c f).moves = s.moves := rfl
@[simp] theorem State.modCore_classes (s : State) (c : Nat) (f : CoreS → CoreS) : (s.modCore c f).classes = s.classes := rfl
@[simp] theorem State.modCore_heats (s : State) (c : Nat) (f : CoreS → CoreS) : (s.modCore c f).heats = s.heats := rfl
@[simp] theorem State.modCore_links (s : State) (c : Nat) (f : CoreS → CoreS) : (s.modCore c f).links = s.links := rfl
@[simp] theorem State.modCore_txSeq (s : State) (c : Nat) (f : CoreS → CoreS) : (s.modCore c f).txSeq = s.txSeq := rfl
@[simp] theorem State.modCore_rxSeq (s : State) (c : Nat) (f : CoreS → CoreS) : (s.modCore c f).rxSeq = s.rxSeq := rfl
@[simp] theorem State.modCore_window (s : State) (c : Nat) (f : CoreS → CoreS) : (s.modCore c f).window = s.window := rfl
@[simp] theorem State.modCore_roots (s : State) (c : Nat) (f : CoreS → CoreS) : (s.modCore c f).roots = s.roots := rfl
@[simp] theorem State.modCore_channels (s : State) (c : Nat) (f : CoreS → CoreS) : (s.modCore c f).channels = s.channels := rfl
@[simp] theorem State.modCore_module (s : State) (c : Nat) (f : CoreS → CoreS) : (s.modCore c f).module = s.module := rfl
@[simp] theorem State.modCore_struck (s : State) (c : Nat) (f : CoreS → CoreS) : (s.modCore c f).struck = s.struck := rfl
@[simp] theorem State.modCore_toChannel (s : State) (c : Nat) (f : CoreS → CoreS) : (s.modCore c f).toChannel = s.toChannel := rfl
@[simp] theorem State.modCore_prefetches (s : State) (c : Nat) (f : CoreS → CoreS) : (s.modCore c f).prefetches = s.prefetches := rfl
@[simp] theorem State.modCore_savedCopies (s : State) (c : Nat) (f : CoreS → CoreS) : (s.modCore c f).savedCopies = s.savedCopies := rfl
@[simp] theorem State.modCore_savedTiles (s : State) (c : Nat) (f : CoreS → CoreS) : (s.modCore c f).savedTiles = s.savedTiles := rfl
@[simp] theorem State.modCore_savedInbox (s : State) (c : Nat) (f : CoreS → CoreS) : (s.modCore c f).savedInbox = s.savedInbox := rfl
@[simp] theorem State.modCore_inboxWait (s : State) (c : Nat) (f : CoreS → CoreS) : (s.modCore c f).inboxWait = s.inboxWait := rfl
@[simp] theorem State.modCore_agenda (s : State) (c : Nat) (f : CoreS → CoreS) : (s.modCore c f).agenda = s.agenda := rfl
@[simp] theorem State.modCore_focus (s : State) (c : Nat) (f : CoreS → CoreS) : (s.modCore c f).focus = s.focus := rfl
@[simp] theorem State.modCore_fresh (s : State) (c : Nat) (f : CoreS → CoreS) : (s.modCore c f).fresh = s.fresh := rfl
@[simp] theorem State.modCore_nextId (s : State) (c : Nat) (f : CoreS → CoreS) : (s.modCore c f).nextId = s.nextId := rfl

@[simp] theorem State.modLane_squads (s : State) (k : Nat) (f : Lane → Lane) : (s.modLane k f).squads = s.squads := rfl
@[simp] theorem State.modLane_pairs (s : State) (k : Nat) (f : Lane → Lane) : (s.modLane k f).pairs = s.pairs := rfl
@[simp] theorem State.modLane_cores (s : State) (k : Nat) (f : Lane → Lane) : (s.modLane k f).cores = s.cores := rfl
@[simp] theorem State.modLane_launches (s : State) (k : Nat) (f : Lane → Lane) : (s.modLane k f).launches = s.launches := rfl
@[simp] theorem State.modLane_blocks (s : State) (k : Nat) (f : Lane → Lane) : (s.modLane k f).blocks = s.blocks := rfl
@[simp] theorem State.modLane_hbm (s : State) (k : Nat) (f : Lane → Lane) : (s.modLane k f).hbm = s.hbm := rfl
@[simp] theorem State.modLane_poisoned (s : State) (k : Nat) (f : Lane → Lane) : (s.modLane k f).poisoned = s.poisoned := rfl
@[simp] theorem State.modLane_host (s : State) (k : Nat) (f : Lane → Lane) : (s.modLane k f).host = s.host := rfl
@[simp] theorem State.modLane_walks (s : State) (k : Nat) (f : Lane → Lane) : (s.modLane k f).walks = s.walks := rfl
@[simp] theorem State.modLane_stage (s : State) (k : Nat) (f : Lane → Lane) : (s.modLane k f).stage = s.stage := rfl
@[simp] theorem State.modLane_releases (s : State) (k : Nat) (f : Lane → Lane) : (s.modLane k f).releases = s.releases := rfl
@[simp] theorem State.modLane_dieClk (s : State) (k : Nat) (f : Lane → Lane) : (s.modLane k f).dieClk = s.dieClk := rfl
@[simp] theorem State.modLane_slots (s : State) (k : Nat) (f : Lane → Lane) : (s.modLane k f).slots = s.slots := rfl
@[simp] theorem State.modLane_queues (s : State) (k : Nat) (f : Lane → Lane) : (s.modLane k f).queues = s.queues := rfl
@[simp] theorem State.modLane_schedClk (s : State) (k : Nat) (f : Lane → Lane) : (s.modLane k f).schedClk = s.schedClk := rfl
@[simp] theorem State.modLane_graphs (s : State) (k : Nat) (f : Lane → Lane) : (s.modLane k f).graphs = s.graphs := rfl
@[simp] theorem State.modLane_rotation (s : State) (k : Nat) (f : Lane → Lane) : (s.modLane k f).rotation = s.rotation := rfl
@[simp] theorem State.modLane_deadLetter (s : State) (k : Nat) (f : Lane → Lane) : (s.modLane k f).deadLetter = s.deadLetter := rfl
@[simp] theorem State.modLane_msix (s : State) (k : Nat) (f : Lane → Lane) : (s.modLane k f).msix = s.msix := rfl
@[simp] theorem State.modLane_fnLogs (s : State) (k : Nat) (f : Lane → Lane) : (s.modLane k f).fnLogs = s.fnLogs := rfl
@[simp] theorem State.modLane_outbox (s : State) (k : Nat) (f : Lane → Lane) : (s.modLane k f).outbox = s.outbox := rfl
@[simp] theorem State.modLane_dieEvents (s : State) (k : Nat) (f : Lane → Lane) : (s.modLane k f).dieEvents = s.dieEvents := rfl
@[simp] theorem State.modLane_loads (s : State) (k : Nat) (f : Lane → Lane) : (s.modLane k f).loads = s.loads := rfl
@[simp] theorem State.modLane_flagOps (s : State) (k : Nat) (f : Lane → Lane) : (s.modLane k f).flagOps = s.flagOps := rfl
@[simp] theorem State.modLane_l2 (s : State) (k : Nat) (f : Lane → Lane) : (s.modLane k f).l2 = s.l2 := rfl
@[simp] theorem State.modLane_msc (s : State) (k : Nat) (f : Lane → Lane) : (s.modLane k f).msc = s.msc := rfl
@[simp] theorem State.modLane_pins (s : State) (k : Nat) (f : Lane → Lane) : (s.modLane k f).pins = s.pins := rfl
@[simp] theorem State.modLane_pinOverflow (s : State) (k : Nat) (f : Lane → Lane) : (s.modLane k f).pinOverflow = s.pinOverflow := rfl
@[simp] theorem State.modLane_sliceDrops (s : State) (k : Nat) (f : Lane → Lane) : (s.modLane k f).sliceDrops = s.sliceDrops := rfl
@[simp] theorem State.modLane_channelDrops (s : State) (k : Nat) (f : Lane → Lane) : (s.modLane k f).channelDrops = s.channelDrops := rfl
@[simp] theorem State.modLane_combining (s : State) (k : Nat) (f : Lane → Lane) : (s.modLane k f).combining = s.combining := rfl
@[simp] theorem State.modLane_tileFigs (s : State) (k : Nat) (f : Lane → Lane) : (s.modLane k f).tileFigs = s.tileFigs := rfl
@[simp] theorem State.modLane_figLoads (s : State) (k : Nat) (f : Lane → Lane) : (s.modLane k f).figLoads = s.figLoads := rfl
@[simp] theorem State.modLane_defCache (s : State) (k : Nat) (f : Lane → Lane) : (s.modLane k f).defCache = s.defCache := rfl
@[simp] theorem State.modLane_pod (s : State) (k : Nat) (f : Lane → Lane) : (s.modLane k f).pod = s.pod := rfl
@[simp] theorem State.modLane_branches (s : State) (k : Nat) (f : Lane → Lane) : (s.modLane k f).branches = s.branches := rfl
@[simp] theorem State.modLane_redx (s : State) (k : Nat) (f : Lane → Lane) : (s.modLane k f).redx = s.redx := rfl
@[simp] theorem State.modLane_stns (s : State) (k : Nat) (f : Lane → Lane) : (s.modLane k f).stns = s.stns := rfl
@[simp] theorem State.modLane_moves (s : State) (k : Nat) (f : Lane → Lane) : (s.modLane k f).moves = s.moves := rfl
@[simp] theorem State.modLane_classes (s : State) (k : Nat) (f : Lane → Lane) : (s.modLane k f).classes = s.classes := rfl
@[simp] theorem State.modLane_heats (s : State) (k : Nat) (f : Lane → Lane) : (s.modLane k f).heats = s.heats := rfl
@[simp] theorem State.modLane_links (s : State) (k : Nat) (f : Lane → Lane) : (s.modLane k f).links = s.links := rfl
@[simp] theorem State.modLane_txSeq (s : State) (k : Nat) (f : Lane → Lane) : (s.modLane k f).txSeq = s.txSeq := rfl
@[simp] theorem State.modLane_rxSeq (s : State) (k : Nat) (f : Lane → Lane) : (s.modLane k f).rxSeq = s.rxSeq := rfl
@[simp] theorem State.modLane_window (s : State) (k : Nat) (f : Lane → Lane) : (s.modLane k f).window = s.window := rfl
@[simp] theorem State.modLane_roots (s : State) (k : Nat) (f : Lane → Lane) : (s.modLane k f).roots = s.roots := rfl
@[simp] theorem State.modLane_channels (s : State) (k : Nat) (f : Lane → Lane) : (s.modLane k f).channels = s.channels := rfl
@[simp] theorem State.modLane_module (s : State) (k : Nat) (f : Lane → Lane) : (s.modLane k f).module = s.module := rfl
@[simp] theorem State.modLane_struck (s : State) (k : Nat) (f : Lane → Lane) : (s.modLane k f).struck = s.struck := rfl
@[simp] theorem State.modLane_toChannel (s : State) (k : Nat) (f : Lane → Lane) : (s.modLane k f).toChannel = s.toChannel := rfl
@[simp] theorem State.modLane_prefetches (s : State) (k : Nat) (f : Lane → Lane) : (s.modLane k f).prefetches = s.prefetches := rfl
@[simp] theorem State.modLane_savedCopies (s : State) (k : Nat) (f : Lane → Lane) : (s.modLane k f).savedCopies = s.savedCopies := rfl
@[simp] theorem State.modLane_savedTiles (s : State) (k : Nat) (f : Lane → Lane) : (s.modLane k f).savedTiles = s.savedTiles := rfl
@[simp] theorem State.modLane_savedInbox (s : State) (k : Nat) (f : Lane → Lane) : (s.modLane k f).savedInbox = s.savedInbox := rfl
@[simp] theorem State.modLane_inboxWait (s : State) (k : Nat) (f : Lane → Lane) : (s.modLane k f).inboxWait = s.inboxWait := rfl
@[simp] theorem State.modLane_agenda (s : State) (k : Nat) (f : Lane → Lane) : (s.modLane k f).agenda = s.agenda := rfl
@[simp] theorem State.modLane_focus (s : State) (k : Nat) (f : Lane → Lane) : (s.modLane k f).focus = s.focus := rfl
@[simp] theorem State.modLane_fresh (s : State) (k : Nat) (f : Lane → Lane) : (s.modLane k f).fresh = s.fresh := rfl
@[simp] theorem State.modLane_nextId (s : State) (k : Nat) (f : Lane → Lane) : (s.modLane k f).nextId = s.nextId := rfl

@[simp] theorem State.modPair_squads (s : State) (k : Nat) (f : Pair → Pair) : (s.modPair k f).squads = s.squads := rfl
@[simp] theorem State.modPair_lanes (s : State) (k : Nat) (f : Pair → Pair) : (s.modPair k f).lanes = s.lanes := rfl
@[simp] theorem State.modPair_cores (s : State) (k : Nat) (f : Pair → Pair) : (s.modPair k f).cores = s.cores := rfl
@[simp] theorem State.modPair_launches (s : State) (k : Nat) (f : Pair → Pair) : (s.modPair k f).launches = s.launches := rfl
@[simp] theorem State.modPair_blocks (s : State) (k : Nat) (f : Pair → Pair) : (s.modPair k f).blocks = s.blocks := rfl
@[simp] theorem State.modPair_hbm (s : State) (k : Nat) (f : Pair → Pair) : (s.modPair k f).hbm = s.hbm := rfl
@[simp] theorem State.modPair_poisoned (s : State) (k : Nat) (f : Pair → Pair) : (s.modPair k f).poisoned = s.poisoned := rfl
@[simp] theorem State.modPair_host (s : State) (k : Nat) (f : Pair → Pair) : (s.modPair k f).host = s.host := rfl
@[simp] theorem State.modPair_walks (s : State) (k : Nat) (f : Pair → Pair) : (s.modPair k f).walks = s.walks := rfl
@[simp] theorem State.modPair_stage (s : State) (k : Nat) (f : Pair → Pair) : (s.modPair k f).stage = s.stage := rfl
@[simp] theorem State.modPair_releases (s : State) (k : Nat) (f : Pair → Pair) : (s.modPair k f).releases = s.releases := rfl
@[simp] theorem State.modPair_dieClk (s : State) (k : Nat) (f : Pair → Pair) : (s.modPair k f).dieClk = s.dieClk := rfl
@[simp] theorem State.modPair_slots (s : State) (k : Nat) (f : Pair → Pair) : (s.modPair k f).slots = s.slots := rfl
@[simp] theorem State.modPair_queues (s : State) (k : Nat) (f : Pair → Pair) : (s.modPair k f).queues = s.queues := rfl
@[simp] theorem State.modPair_schedClk (s : State) (k : Nat) (f : Pair → Pair) : (s.modPair k f).schedClk = s.schedClk := rfl
@[simp] theorem State.modPair_graphs (s : State) (k : Nat) (f : Pair → Pair) : (s.modPair k f).graphs = s.graphs := rfl
@[simp] theorem State.modPair_rotation (s : State) (k : Nat) (f : Pair → Pair) : (s.modPair k f).rotation = s.rotation := rfl
@[simp] theorem State.modPair_deadLetter (s : State) (k : Nat) (f : Pair → Pair) : (s.modPair k f).deadLetter = s.deadLetter := rfl
@[simp] theorem State.modPair_msix (s : State) (k : Nat) (f : Pair → Pair) : (s.modPair k f).msix = s.msix := rfl
@[simp] theorem State.modPair_fnLogs (s : State) (k : Nat) (f : Pair → Pair) : (s.modPair k f).fnLogs = s.fnLogs := rfl
@[simp] theorem State.modPair_outbox (s : State) (k : Nat) (f : Pair → Pair) : (s.modPair k f).outbox = s.outbox := rfl
@[simp] theorem State.modPair_dieEvents (s : State) (k : Nat) (f : Pair → Pair) : (s.modPair k f).dieEvents = s.dieEvents := rfl
@[simp] theorem State.modPair_loads (s : State) (k : Nat) (f : Pair → Pair) : (s.modPair k f).loads = s.loads := rfl
@[simp] theorem State.modPair_flagOps (s : State) (k : Nat) (f : Pair → Pair) : (s.modPair k f).flagOps = s.flagOps := rfl
@[simp] theorem State.modPair_l2 (s : State) (k : Nat) (f : Pair → Pair) : (s.modPair k f).l2 = s.l2 := rfl
@[simp] theorem State.modPair_msc (s : State) (k : Nat) (f : Pair → Pair) : (s.modPair k f).msc = s.msc := rfl
@[simp] theorem State.modPair_pins (s : State) (k : Nat) (f : Pair → Pair) : (s.modPair k f).pins = s.pins := rfl
@[simp] theorem State.modPair_pinOverflow (s : State) (k : Nat) (f : Pair → Pair) : (s.modPair k f).pinOverflow = s.pinOverflow := rfl
@[simp] theorem State.modPair_sliceDrops (s : State) (k : Nat) (f : Pair → Pair) : (s.modPair k f).sliceDrops = s.sliceDrops := rfl
@[simp] theorem State.modPair_channelDrops (s : State) (k : Nat) (f : Pair → Pair) : (s.modPair k f).channelDrops = s.channelDrops := rfl
@[simp] theorem State.modPair_combining (s : State) (k : Nat) (f : Pair → Pair) : (s.modPair k f).combining = s.combining := rfl
@[simp] theorem State.modPair_tileFigs (s : State) (k : Nat) (f : Pair → Pair) : (s.modPair k f).tileFigs = s.tileFigs := rfl
@[simp] theorem State.modPair_figLoads (s : State) (k : Nat) (f : Pair → Pair) : (s.modPair k f).figLoads = s.figLoads := rfl
@[simp] theorem State.modPair_defCache (s : State) (k : Nat) (f : Pair → Pair) : (s.modPair k f).defCache = s.defCache := rfl
@[simp] theorem State.modPair_pod (s : State) (k : Nat) (f : Pair → Pair) : (s.modPair k f).pod = s.pod := rfl
@[simp] theorem State.modPair_branches (s : State) (k : Nat) (f : Pair → Pair) : (s.modPair k f).branches = s.branches := rfl
@[simp] theorem State.modPair_redx (s : State) (k : Nat) (f : Pair → Pair) : (s.modPair k f).redx = s.redx := rfl
@[simp] theorem State.modPair_stns (s : State) (k : Nat) (f : Pair → Pair) : (s.modPair k f).stns = s.stns := rfl
@[simp] theorem State.modPair_moves (s : State) (k : Nat) (f : Pair → Pair) : (s.modPair k f).moves = s.moves := rfl
@[simp] theorem State.modPair_classes (s : State) (k : Nat) (f : Pair → Pair) : (s.modPair k f).classes = s.classes := rfl
@[simp] theorem State.modPair_heats (s : State) (k : Nat) (f : Pair → Pair) : (s.modPair k f).heats = s.heats := rfl
@[simp] theorem State.modPair_links (s : State) (k : Nat) (f : Pair → Pair) : (s.modPair k f).links = s.links := rfl
@[simp] theorem State.modPair_txSeq (s : State) (k : Nat) (f : Pair → Pair) : (s.modPair k f).txSeq = s.txSeq := rfl
@[simp] theorem State.modPair_rxSeq (s : State) (k : Nat) (f : Pair → Pair) : (s.modPair k f).rxSeq = s.rxSeq := rfl
@[simp] theorem State.modPair_window (s : State) (k : Nat) (f : Pair → Pair) : (s.modPair k f).window = s.window := rfl
@[simp] theorem State.modPair_roots (s : State) (k : Nat) (f : Pair → Pair) : (s.modPair k f).roots = s.roots := rfl
@[simp] theorem State.modPair_channels (s : State) (k : Nat) (f : Pair → Pair) : (s.modPair k f).channels = s.channels := rfl
@[simp] theorem State.modPair_module (s : State) (k : Nat) (f : Pair → Pair) : (s.modPair k f).module = s.module := rfl
@[simp] theorem State.modPair_struck (s : State) (k : Nat) (f : Pair → Pair) : (s.modPair k f).struck = s.struck := rfl
@[simp] theorem State.modPair_toChannel (s : State) (k : Nat) (f : Pair → Pair) : (s.modPair k f).toChannel = s.toChannel := rfl
@[simp] theorem State.modPair_prefetches (s : State) (k : Nat) (f : Pair → Pair) : (s.modPair k f).prefetches = s.prefetches := rfl
@[simp] theorem State.modPair_savedCopies (s : State) (k : Nat) (f : Pair → Pair) : (s.modPair k f).savedCopies = s.savedCopies := rfl
@[simp] theorem State.modPair_savedTiles (s : State) (k : Nat) (f : Pair → Pair) : (s.modPair k f).savedTiles = s.savedTiles := rfl
@[simp] theorem State.modPair_savedInbox (s : State) (k : Nat) (f : Pair → Pair) : (s.modPair k f).savedInbox = s.savedInbox := rfl
@[simp] theorem State.modPair_inboxWait (s : State) (k : Nat) (f : Pair → Pair) : (s.modPair k f).inboxWait = s.inboxWait := rfl
@[simp] theorem State.modPair_agenda (s : State) (k : Nat) (f : Pair → Pair) : (s.modPair k f).agenda = s.agenda := rfl
@[simp] theorem State.modPair_focus (s : State) (k : Nat) (f : Pair → Pair) : (s.modPair k f).focus = s.focus := rfl
@[simp] theorem State.modPair_fresh (s : State) (k : Nat) (f : Pair → Pair) : (s.modPair k f).fresh = s.fresh := rfl
@[simp] theorem State.modPair_nextId (s : State) (k : Nat) (f : Pair → Pair) : (s.modPair k f).nextId = s.nextId := rfl

@[simp] theorem State.modLaunch_squads (s : State) (l : Nat) (f : Launch → Launch) : (s.modLaunch l f).squads = s.squads := rfl
@[simp] theorem State.modLaunch_lanes (s : State) (l : Nat) (f : Launch → Launch) : (s.modLaunch l f).lanes = s.lanes := rfl
@[simp] theorem State.modLaunch_pairs (s : State) (l : Nat) (f : Launch → Launch) : (s.modLaunch l f).pairs = s.pairs := rfl
@[simp] theorem State.modLaunch_cores (s : State) (l : Nat) (f : Launch → Launch) : (s.modLaunch l f).cores = s.cores := rfl
@[simp] theorem State.modLaunch_blocks (s : State) (l : Nat) (f : Launch → Launch) : (s.modLaunch l f).blocks = s.blocks := rfl
@[simp] theorem State.modLaunch_hbm (s : State) (l : Nat) (f : Launch → Launch) : (s.modLaunch l f).hbm = s.hbm := rfl
@[simp] theorem State.modLaunch_poisoned (s : State) (l : Nat) (f : Launch → Launch) : (s.modLaunch l f).poisoned = s.poisoned := rfl
@[simp] theorem State.modLaunch_host (s : State) (l : Nat) (f : Launch → Launch) : (s.modLaunch l f).host = s.host := rfl
@[simp] theorem State.modLaunch_walks (s : State) (l : Nat) (f : Launch → Launch) : (s.modLaunch l f).walks = s.walks := rfl
@[simp] theorem State.modLaunch_stage (s : State) (l : Nat) (f : Launch → Launch) : (s.modLaunch l f).stage = s.stage := rfl
@[simp] theorem State.modLaunch_releases (s : State) (l : Nat) (f : Launch → Launch) : (s.modLaunch l f).releases = s.releases := rfl
@[simp] theorem State.modLaunch_dieClk (s : State) (l : Nat) (f : Launch → Launch) : (s.modLaunch l f).dieClk = s.dieClk := rfl
@[simp] theorem State.modLaunch_slots (s : State) (l : Nat) (f : Launch → Launch) : (s.modLaunch l f).slots = s.slots := rfl
@[simp] theorem State.modLaunch_queues (s : State) (l : Nat) (f : Launch → Launch) : (s.modLaunch l f).queues = s.queues := rfl
@[simp] theorem State.modLaunch_schedClk (s : State) (l : Nat) (f : Launch → Launch) : (s.modLaunch l f).schedClk = s.schedClk := rfl
@[simp] theorem State.modLaunch_graphs (s : State) (l : Nat) (f : Launch → Launch) : (s.modLaunch l f).graphs = s.graphs := rfl
@[simp] theorem State.modLaunch_rotation (s : State) (l : Nat) (f : Launch → Launch) : (s.modLaunch l f).rotation = s.rotation := rfl
@[simp] theorem State.modLaunch_deadLetter (s : State) (l : Nat) (f : Launch → Launch) : (s.modLaunch l f).deadLetter = s.deadLetter := rfl
@[simp] theorem State.modLaunch_msix (s : State) (l : Nat) (f : Launch → Launch) : (s.modLaunch l f).msix = s.msix := rfl
@[simp] theorem State.modLaunch_fnLogs (s : State) (l : Nat) (f : Launch → Launch) : (s.modLaunch l f).fnLogs = s.fnLogs := rfl
@[simp] theorem State.modLaunch_outbox (s : State) (l : Nat) (f : Launch → Launch) : (s.modLaunch l f).outbox = s.outbox := rfl
@[simp] theorem State.modLaunch_dieEvents (s : State) (l : Nat) (f : Launch → Launch) : (s.modLaunch l f).dieEvents = s.dieEvents := rfl
@[simp] theorem State.modLaunch_loads (s : State) (l : Nat) (f : Launch → Launch) : (s.modLaunch l f).loads = s.loads := rfl
@[simp] theorem State.modLaunch_flagOps (s : State) (l : Nat) (f : Launch → Launch) : (s.modLaunch l f).flagOps = s.flagOps := rfl
@[simp] theorem State.modLaunch_l2 (s : State) (l : Nat) (f : Launch → Launch) : (s.modLaunch l f).l2 = s.l2 := rfl
@[simp] theorem State.modLaunch_msc (s : State) (l : Nat) (f : Launch → Launch) : (s.modLaunch l f).msc = s.msc := rfl
@[simp] theorem State.modLaunch_pins (s : State) (l : Nat) (f : Launch → Launch) : (s.modLaunch l f).pins = s.pins := rfl
@[simp] theorem State.modLaunch_pinOverflow (s : State) (l : Nat) (f : Launch → Launch) : (s.modLaunch l f).pinOverflow = s.pinOverflow := rfl
@[simp] theorem State.modLaunch_sliceDrops (s : State) (l : Nat) (f : Launch → Launch) : (s.modLaunch l f).sliceDrops = s.sliceDrops := rfl
@[simp] theorem State.modLaunch_channelDrops (s : State) (l : Nat) (f : Launch → Launch) : (s.modLaunch l f).channelDrops = s.channelDrops := rfl
@[simp] theorem State.modLaunch_combining (s : State) (l : Nat) (f : Launch → Launch) : (s.modLaunch l f).combining = s.combining := rfl
@[simp] theorem State.modLaunch_tileFigs (s : State) (l : Nat) (f : Launch → Launch) : (s.modLaunch l f).tileFigs = s.tileFigs := rfl
@[simp] theorem State.modLaunch_figLoads (s : State) (l : Nat) (f : Launch → Launch) : (s.modLaunch l f).figLoads = s.figLoads := rfl
@[simp] theorem State.modLaunch_defCache (s : State) (l : Nat) (f : Launch → Launch) : (s.modLaunch l f).defCache = s.defCache := rfl
@[simp] theorem State.modLaunch_pod (s : State) (l : Nat) (f : Launch → Launch) : (s.modLaunch l f).pod = s.pod := rfl
@[simp] theorem State.modLaunch_branches (s : State) (l : Nat) (f : Launch → Launch) : (s.modLaunch l f).branches = s.branches := rfl
@[simp] theorem State.modLaunch_redx (s : State) (l : Nat) (f : Launch → Launch) : (s.modLaunch l f).redx = s.redx := rfl
@[simp] theorem State.modLaunch_stns (s : State) (l : Nat) (f : Launch → Launch) : (s.modLaunch l f).stns = s.stns := rfl
@[simp] theorem State.modLaunch_moves (s : State) (l : Nat) (f : Launch → Launch) : (s.modLaunch l f).moves = s.moves := rfl
@[simp] theorem State.modLaunch_classes (s : State) (l : Nat) (f : Launch → Launch) : (s.modLaunch l f).classes = s.classes := rfl
@[simp] theorem State.modLaunch_heats (s : State) (l : Nat) (f : Launch → Launch) : (s.modLaunch l f).heats = s.heats := rfl
@[simp] theorem State.modLaunch_links (s : State) (l : Nat) (f : Launch → Launch) : (s.modLaunch l f).links = s.links := rfl
@[simp] theorem State.modLaunch_txSeq (s : State) (l : Nat) (f : Launch → Launch) : (s.modLaunch l f).txSeq = s.txSeq := rfl
@[simp] theorem State.modLaunch_rxSeq (s : State) (l : Nat) (f : Launch → Launch) : (s.modLaunch l f).rxSeq = s.rxSeq := rfl
@[simp] theorem State.modLaunch_window (s : State) (l : Nat) (f : Launch → Launch) : (s.modLaunch l f).window = s.window := rfl
@[simp] theorem State.modLaunch_roots (s : State) (l : Nat) (f : Launch → Launch) : (s.modLaunch l f).roots = s.roots := rfl
@[simp] theorem State.modLaunch_channels (s : State) (l : Nat) (f : Launch → Launch) : (s.modLaunch l f).channels = s.channels := rfl
@[simp] theorem State.modLaunch_module (s : State) (l : Nat) (f : Launch → Launch) : (s.modLaunch l f).module = s.module := rfl
@[simp] theorem State.modLaunch_struck (s : State) (l : Nat) (f : Launch → Launch) : (s.modLaunch l f).struck = s.struck := rfl
@[simp] theorem State.modLaunch_toChannel (s : State) (l : Nat) (f : Launch → Launch) : (s.modLaunch l f).toChannel = s.toChannel := rfl
@[simp] theorem State.modLaunch_prefetches (s : State) (l : Nat) (f : Launch → Launch) : (s.modLaunch l f).prefetches = s.prefetches := rfl
@[simp] theorem State.modLaunch_savedCopies (s : State) (l : Nat) (f : Launch → Launch) : (s.modLaunch l f).savedCopies = s.savedCopies := rfl
@[simp] theorem State.modLaunch_savedTiles (s : State) (l : Nat) (f : Launch → Launch) : (s.modLaunch l f).savedTiles = s.savedTiles := rfl
@[simp] theorem State.modLaunch_savedInbox (s : State) (l : Nat) (f : Launch → Launch) : (s.modLaunch l f).savedInbox = s.savedInbox := rfl
@[simp] theorem State.modLaunch_inboxWait (s : State) (l : Nat) (f : Launch → Launch) : (s.modLaunch l f).inboxWait = s.inboxWait := rfl
@[simp] theorem State.modLaunch_agenda (s : State) (l : Nat) (f : Launch → Launch) : (s.modLaunch l f).agenda = s.agenda := rfl
@[simp] theorem State.modLaunch_focus (s : State) (l : Nat) (f : Launch → Launch) : (s.modLaunch l f).focus = s.focus := rfl
@[simp] theorem State.modLaunch_fresh (s : State) (l : Nat) (f : Launch → Launch) : (s.modLaunch l f).fresh = s.fresh := rfl
@[simp] theorem State.modLaunch_nextId (s : State) (l : Nat) (f : Launch → Launch) : (s.modLaunch l f).nextId = s.nextId := rfl

@[simp] theorem State.modBlock_squads (s : State) (k : Nat) (f : Block → Block) : (s.modBlock k f).squads = s.squads := rfl
@[simp] theorem State.modBlock_lanes (s : State) (k : Nat) (f : Block → Block) : (s.modBlock k f).lanes = s.lanes := rfl
@[simp] theorem State.modBlock_pairs (s : State) (k : Nat) (f : Block → Block) : (s.modBlock k f).pairs = s.pairs := rfl
@[simp] theorem State.modBlock_cores (s : State) (k : Nat) (f : Block → Block) : (s.modBlock k f).cores = s.cores := rfl
@[simp] theorem State.modBlock_launches (s : State) (k : Nat) (f : Block → Block) : (s.modBlock k f).launches = s.launches := rfl
@[simp] theorem State.modBlock_hbm (s : State) (k : Nat) (f : Block → Block) : (s.modBlock k f).hbm = s.hbm := rfl
@[simp] theorem State.modBlock_poisoned (s : State) (k : Nat) (f : Block → Block) : (s.modBlock k f).poisoned = s.poisoned := rfl
@[simp] theorem State.modBlock_host (s : State) (k : Nat) (f : Block → Block) : (s.modBlock k f).host = s.host := rfl
@[simp] theorem State.modBlock_walks (s : State) (k : Nat) (f : Block → Block) : (s.modBlock k f).walks = s.walks := rfl
@[simp] theorem State.modBlock_stage (s : State) (k : Nat) (f : Block → Block) : (s.modBlock k f).stage = s.stage := rfl
@[simp] theorem State.modBlock_releases (s : State) (k : Nat) (f : Block → Block) : (s.modBlock k f).releases = s.releases := rfl
@[simp] theorem State.modBlock_dieClk (s : State) (k : Nat) (f : Block → Block) : (s.modBlock k f).dieClk = s.dieClk := rfl
@[simp] theorem State.modBlock_slots (s : State) (k : Nat) (f : Block → Block) : (s.modBlock k f).slots = s.slots := rfl
@[simp] theorem State.modBlock_queues (s : State) (k : Nat) (f : Block → Block) : (s.modBlock k f).queues = s.queues := rfl
@[simp] theorem State.modBlock_schedClk (s : State) (k : Nat) (f : Block → Block) : (s.modBlock k f).schedClk = s.schedClk := rfl
@[simp] theorem State.modBlock_graphs (s : State) (k : Nat) (f : Block → Block) : (s.modBlock k f).graphs = s.graphs := rfl
@[simp] theorem State.modBlock_rotation (s : State) (k : Nat) (f : Block → Block) : (s.modBlock k f).rotation = s.rotation := rfl
@[simp] theorem State.modBlock_deadLetter (s : State) (k : Nat) (f : Block → Block) : (s.modBlock k f).deadLetter = s.deadLetter := rfl
@[simp] theorem State.modBlock_msix (s : State) (k : Nat) (f : Block → Block) : (s.modBlock k f).msix = s.msix := rfl
@[simp] theorem State.modBlock_fnLogs (s : State) (k : Nat) (f : Block → Block) : (s.modBlock k f).fnLogs = s.fnLogs := rfl
@[simp] theorem State.modBlock_outbox (s : State) (k : Nat) (f : Block → Block) : (s.modBlock k f).outbox = s.outbox := rfl
@[simp] theorem State.modBlock_dieEvents (s : State) (k : Nat) (f : Block → Block) : (s.modBlock k f).dieEvents = s.dieEvents := rfl
@[simp] theorem State.modBlock_loads (s : State) (k : Nat) (f : Block → Block) : (s.modBlock k f).loads = s.loads := rfl
@[simp] theorem State.modBlock_flagOps (s : State) (k : Nat) (f : Block → Block) : (s.modBlock k f).flagOps = s.flagOps := rfl
@[simp] theorem State.modBlock_l2 (s : State) (k : Nat) (f : Block → Block) : (s.modBlock k f).l2 = s.l2 := rfl
@[simp] theorem State.modBlock_msc (s : State) (k : Nat) (f : Block → Block) : (s.modBlock k f).msc = s.msc := rfl
@[simp] theorem State.modBlock_pins (s : State) (k : Nat) (f : Block → Block) : (s.modBlock k f).pins = s.pins := rfl
@[simp] theorem State.modBlock_pinOverflow (s : State) (k : Nat) (f : Block → Block) : (s.modBlock k f).pinOverflow = s.pinOverflow := rfl
@[simp] theorem State.modBlock_sliceDrops (s : State) (k : Nat) (f : Block → Block) : (s.modBlock k f).sliceDrops = s.sliceDrops := rfl
@[simp] theorem State.modBlock_channelDrops (s : State) (k : Nat) (f : Block → Block) : (s.modBlock k f).channelDrops = s.channelDrops := rfl
@[simp] theorem State.modBlock_combining (s : State) (k : Nat) (f : Block → Block) : (s.modBlock k f).combining = s.combining := rfl
@[simp] theorem State.modBlock_tileFigs (s : State) (k : Nat) (f : Block → Block) : (s.modBlock k f).tileFigs = s.tileFigs := rfl
@[simp] theorem State.modBlock_figLoads (s : State) (k : Nat) (f : Block → Block) : (s.modBlock k f).figLoads = s.figLoads := rfl
@[simp] theorem State.modBlock_defCache (s : State) (k : Nat) (f : Block → Block) : (s.modBlock k f).defCache = s.defCache := rfl
@[simp] theorem State.modBlock_pod (s : State) (k : Nat) (f : Block → Block) : (s.modBlock k f).pod = s.pod := rfl
@[simp] theorem State.modBlock_branches (s : State) (k : Nat) (f : Block → Block) : (s.modBlock k f).branches = s.branches := rfl
@[simp] theorem State.modBlock_redx (s : State) (k : Nat) (f : Block → Block) : (s.modBlock k f).redx = s.redx := rfl
@[simp] theorem State.modBlock_stns (s : State) (k : Nat) (f : Block → Block) : (s.modBlock k f).stns = s.stns := rfl
@[simp] theorem State.modBlock_moves (s : State) (k : Nat) (f : Block → Block) : (s.modBlock k f).moves = s.moves := rfl
@[simp] theorem State.modBlock_classes (s : State) (k : Nat) (f : Block → Block) : (s.modBlock k f).classes = s.classes := rfl
@[simp] theorem State.modBlock_heats (s : State) (k : Nat) (f : Block → Block) : (s.modBlock k f).heats = s.heats := rfl
@[simp] theorem State.modBlock_links (s : State) (k : Nat) (f : Block → Block) : (s.modBlock k f).links = s.links := rfl
@[simp] theorem State.modBlock_txSeq (s : State) (k : Nat) (f : Block → Block) : (s.modBlock k f).txSeq = s.txSeq := rfl
@[simp] theorem State.modBlock_rxSeq (s : State) (k : Nat) (f : Block → Block) : (s.modBlock k f).rxSeq = s.rxSeq := rfl
@[simp] theorem State.modBlock_window (s : State) (k : Nat) (f : Block → Block) : (s.modBlock k f).window = s.window := rfl
@[simp] theorem State.modBlock_roots (s : State) (k : Nat) (f : Block → Block) : (s.modBlock k f).roots = s.roots := rfl
@[simp] theorem State.modBlock_channels (s : State) (k : Nat) (f : Block → Block) : (s.modBlock k f).channels = s.channels := rfl
@[simp] theorem State.modBlock_module (s : State) (k : Nat) (f : Block → Block) : (s.modBlock k f).module = s.module := rfl
@[simp] theorem State.modBlock_struck (s : State) (k : Nat) (f : Block → Block) : (s.modBlock k f).struck = s.struck := rfl
@[simp] theorem State.modBlock_toChannel (s : State) (k : Nat) (f : Block → Block) : (s.modBlock k f).toChannel = s.toChannel := rfl
@[simp] theorem State.modBlock_prefetches (s : State) (k : Nat) (f : Block → Block) : (s.modBlock k f).prefetches = s.prefetches := rfl
@[simp] theorem State.modBlock_savedCopies (s : State) (k : Nat) (f : Block → Block) : (s.modBlock k f).savedCopies = s.savedCopies := rfl
@[simp] theorem State.modBlock_savedTiles (s : State) (k : Nat) (f : Block → Block) : (s.modBlock k f).savedTiles = s.savedTiles := rfl
@[simp] theorem State.modBlock_savedInbox (s : State) (k : Nat) (f : Block → Block) : (s.modBlock k f).savedInbox = s.savedInbox := rfl
@[simp] theorem State.modBlock_inboxWait (s : State) (k : Nat) (f : Block → Block) : (s.modBlock k f).inboxWait = s.inboxWait := rfl
@[simp] theorem State.modBlock_agenda (s : State) (k : Nat) (f : Block → Block) : (s.modBlock k f).agenda = s.agenda := rfl
@[simp] theorem State.modBlock_focus (s : State) (k : Nat) (f : Block → Block) : (s.modBlock k f).focus = s.focus := rfl
@[simp] theorem State.modBlock_fresh (s : State) (k : Nat) (f : Block → Block) : (s.modBlock k f).fresh = s.fresh := rfl
@[simp] theorem State.modBlock_nextId (s : State) (k : Nat) (f : Block → Block) : (s.modBlock k f).nextId = s.nextId := rfl

@[simp] theorem State.modQueue_squads (s : State) (q : Nat) (f : QueueRun → QueueRun) : (s.modQueue q f).squads = s.squads := rfl
@[simp] theorem State.modQueue_lanes (s : State) (q : Nat) (f : QueueRun → QueueRun) : (s.modQueue q f).lanes = s.lanes := rfl
@[simp] theorem State.modQueue_pairs (s : State) (q : Nat) (f : QueueRun → QueueRun) : (s.modQueue q f).pairs = s.pairs := rfl
@[simp] theorem State.modQueue_cores (s : State) (q : Nat) (f : QueueRun → QueueRun) : (s.modQueue q f).cores = s.cores := rfl
@[simp] theorem State.modQueue_launches (s : State) (q : Nat) (f : QueueRun → QueueRun) : (s.modQueue q f).launches = s.launches := rfl
@[simp] theorem State.modQueue_blocks (s : State) (q : Nat) (f : QueueRun → QueueRun) : (s.modQueue q f).blocks = s.blocks := rfl
@[simp] theorem State.modQueue_hbm (s : State) (q : Nat) (f : QueueRun → QueueRun) : (s.modQueue q f).hbm = s.hbm := rfl
@[simp] theorem State.modQueue_poisoned (s : State) (q : Nat) (f : QueueRun → QueueRun) : (s.modQueue q f).poisoned = s.poisoned := rfl
@[simp] theorem State.modQueue_host (s : State) (q : Nat) (f : QueueRun → QueueRun) : (s.modQueue q f).host = s.host := rfl
@[simp] theorem State.modQueue_walks (s : State) (q : Nat) (f : QueueRun → QueueRun) : (s.modQueue q f).walks = s.walks := rfl
@[simp] theorem State.modQueue_stage (s : State) (q : Nat) (f : QueueRun → QueueRun) : (s.modQueue q f).stage = s.stage := rfl
@[simp] theorem State.modQueue_releases (s : State) (q : Nat) (f : QueueRun → QueueRun) : (s.modQueue q f).releases = s.releases := rfl
@[simp] theorem State.modQueue_dieClk (s : State) (q : Nat) (f : QueueRun → QueueRun) : (s.modQueue q f).dieClk = s.dieClk := rfl
@[simp] theorem State.modQueue_slots (s : State) (q : Nat) (f : QueueRun → QueueRun) : (s.modQueue q f).slots = s.slots := rfl
@[simp] theorem State.modQueue_schedClk (s : State) (q : Nat) (f : QueueRun → QueueRun) : (s.modQueue q f).schedClk = s.schedClk := rfl
@[simp] theorem State.modQueue_graphs (s : State) (q : Nat) (f : QueueRun → QueueRun) : (s.modQueue q f).graphs = s.graphs := rfl
@[simp] theorem State.modQueue_rotation (s : State) (q : Nat) (f : QueueRun → QueueRun) : (s.modQueue q f).rotation = s.rotation := rfl
@[simp] theorem State.modQueue_deadLetter (s : State) (q : Nat) (f : QueueRun → QueueRun) : (s.modQueue q f).deadLetter = s.deadLetter := rfl
@[simp] theorem State.modQueue_msix (s : State) (q : Nat) (f : QueueRun → QueueRun) : (s.modQueue q f).msix = s.msix := rfl
@[simp] theorem State.modQueue_fnLogs (s : State) (q : Nat) (f : QueueRun → QueueRun) : (s.modQueue q f).fnLogs = s.fnLogs := rfl
@[simp] theorem State.modQueue_outbox (s : State) (q : Nat) (f : QueueRun → QueueRun) : (s.modQueue q f).outbox = s.outbox := rfl
@[simp] theorem State.modQueue_dieEvents (s : State) (q : Nat) (f : QueueRun → QueueRun) : (s.modQueue q f).dieEvents = s.dieEvents := rfl
@[simp] theorem State.modQueue_loads (s : State) (q : Nat) (f : QueueRun → QueueRun) : (s.modQueue q f).loads = s.loads := rfl
@[simp] theorem State.modQueue_flagOps (s : State) (q : Nat) (f : QueueRun → QueueRun) : (s.modQueue q f).flagOps = s.flagOps := rfl
@[simp] theorem State.modQueue_l2 (s : State) (q : Nat) (f : QueueRun → QueueRun) : (s.modQueue q f).l2 = s.l2 := rfl
@[simp] theorem State.modQueue_msc (s : State) (q : Nat) (f : QueueRun → QueueRun) : (s.modQueue q f).msc = s.msc := rfl
@[simp] theorem State.modQueue_pins (s : State) (q : Nat) (f : QueueRun → QueueRun) : (s.modQueue q f).pins = s.pins := rfl
@[simp] theorem State.modQueue_pinOverflow (s : State) (q : Nat) (f : QueueRun → QueueRun) : (s.modQueue q f).pinOverflow = s.pinOverflow := rfl
@[simp] theorem State.modQueue_sliceDrops (s : State) (q : Nat) (f : QueueRun → QueueRun) : (s.modQueue q f).sliceDrops = s.sliceDrops := rfl
@[simp] theorem State.modQueue_channelDrops (s : State) (q : Nat) (f : QueueRun → QueueRun) : (s.modQueue q f).channelDrops = s.channelDrops := rfl
@[simp] theorem State.modQueue_combining (s : State) (q : Nat) (f : QueueRun → QueueRun) : (s.modQueue q f).combining = s.combining := rfl
@[simp] theorem State.modQueue_tileFigs (s : State) (q : Nat) (f : QueueRun → QueueRun) : (s.modQueue q f).tileFigs = s.tileFigs := rfl
@[simp] theorem State.modQueue_figLoads (s : State) (q : Nat) (f : QueueRun → QueueRun) : (s.modQueue q f).figLoads = s.figLoads := rfl
@[simp] theorem State.modQueue_defCache (s : State) (q : Nat) (f : QueueRun → QueueRun) : (s.modQueue q f).defCache = s.defCache := rfl
@[simp] theorem State.modQueue_pod (s : State) (q : Nat) (f : QueueRun → QueueRun) : (s.modQueue q f).pod = s.pod := rfl
@[simp] theorem State.modQueue_branches (s : State) (q : Nat) (f : QueueRun → QueueRun) : (s.modQueue q f).branches = s.branches := rfl
@[simp] theorem State.modQueue_redx (s : State) (q : Nat) (f : QueueRun → QueueRun) : (s.modQueue q f).redx = s.redx := rfl
@[simp] theorem State.modQueue_stns (s : State) (q : Nat) (f : QueueRun → QueueRun) : (s.modQueue q f).stns = s.stns := rfl
@[simp] theorem State.modQueue_moves (s : State) (q : Nat) (f : QueueRun → QueueRun) : (s.modQueue q f).moves = s.moves := rfl
@[simp] theorem State.modQueue_classes (s : State) (q : Nat) (f : QueueRun → QueueRun) : (s.modQueue q f).classes = s.classes := rfl
@[simp] theorem State.modQueue_heats (s : State) (q : Nat) (f : QueueRun → QueueRun) : (s.modQueue q f).heats = s.heats := rfl
@[simp] theorem State.modQueue_links (s : State) (q : Nat) (f : QueueRun → QueueRun) : (s.modQueue q f).links = s.links := rfl
@[simp] theorem State.modQueue_txSeq (s : State) (q : Nat) (f : QueueRun → QueueRun) : (s.modQueue q f).txSeq = s.txSeq := rfl
@[simp] theorem State.modQueue_rxSeq (s : State) (q : Nat) (f : QueueRun → QueueRun) : (s.modQueue q f).rxSeq = s.rxSeq := rfl
@[simp] theorem State.modQueue_window (s : State) (q : Nat) (f : QueueRun → QueueRun) : (s.modQueue q f).window = s.window := rfl
@[simp] theorem State.modQueue_roots (s : State) (q : Nat) (f : QueueRun → QueueRun) : (s.modQueue q f).roots = s.roots := rfl
@[simp] theorem State.modQueue_channels (s : State) (q : Nat) (f : QueueRun → QueueRun) : (s.modQueue q f).channels = s.channels := rfl
@[simp] theorem State.modQueue_module (s : State) (q : Nat) (f : QueueRun → QueueRun) : (s.modQueue q f).module = s.module := rfl
@[simp] theorem State.modQueue_struck (s : State) (q : Nat) (f : QueueRun → QueueRun) : (s.modQueue q f).struck = s.struck := rfl
@[simp] theorem State.modQueue_toChannel (s : State) (q : Nat) (f : QueueRun → QueueRun) : (s.modQueue q f).toChannel = s.toChannel := rfl
@[simp] theorem State.modQueue_prefetches (s : State) (q : Nat) (f : QueueRun → QueueRun) : (s.modQueue q f).prefetches = s.prefetches := rfl
@[simp] theorem State.modQueue_savedCopies (s : State) (q : Nat) (f : QueueRun → QueueRun) : (s.modQueue q f).savedCopies = s.savedCopies := rfl
@[simp] theorem State.modQueue_savedTiles (s : State) (q : Nat) (f : QueueRun → QueueRun) : (s.modQueue q f).savedTiles = s.savedTiles := rfl
@[simp] theorem State.modQueue_savedInbox (s : State) (q : Nat) (f : QueueRun → QueueRun) : (s.modQueue q f).savedInbox = s.savedInbox := rfl
@[simp] theorem State.modQueue_inboxWait (s : State) (q : Nat) (f : QueueRun → QueueRun) : (s.modQueue q f).inboxWait = s.inboxWait := rfl
@[simp] theorem State.modQueue_agenda (s : State) (q : Nat) (f : QueueRun → QueueRun) : (s.modQueue q f).agenda = s.agenda := rfl
@[simp] theorem State.modQueue_focus (s : State) (q : Nat) (f : QueueRun → QueueRun) : (s.modQueue q f).focus = s.focus := rfl
@[simp] theorem State.modQueue_fresh (s : State) (q : Nat) (f : QueueRun → QueueRun) : (s.modQueue q f).fresh = s.fresh := rfl
@[simp] theorem State.modQueue_nextId (s : State) (q : Nat) (f : QueueRun → QueueRun) : (s.modQueue q f).nextId = s.nextId := rfl

@[simp] theorem State.send_squads (s : State) (m : OutMsg) : (s.send m).squads = s.squads := rfl
@[simp] theorem State.send_lanes (s : State) (m : OutMsg) : (s.send m).lanes = s.lanes := rfl
@[simp] theorem State.send_pairs (s : State) (m : OutMsg) : (s.send m).pairs = s.pairs := rfl
@[simp] theorem State.send_cores (s : State) (m : OutMsg) : (s.send m).cores = s.cores := rfl
@[simp] theorem State.send_launches (s : State) (m : OutMsg) : (s.send m).launches = s.launches := rfl
@[simp] theorem State.send_blocks (s : State) (m : OutMsg) : (s.send m).blocks = s.blocks := rfl
@[simp] theorem State.send_hbm (s : State) (m : OutMsg) : (s.send m).hbm = s.hbm := rfl
@[simp] theorem State.send_poisoned (s : State) (m : OutMsg) : (s.send m).poisoned = s.poisoned := rfl
@[simp] theorem State.send_host (s : State) (m : OutMsg) : (s.send m).host = s.host := rfl
@[simp] theorem State.send_walks (s : State) (m : OutMsg) : (s.send m).walks = s.walks := rfl
@[simp] theorem State.send_stage (s : State) (m : OutMsg) : (s.send m).stage = s.stage := rfl
@[simp] theorem State.send_releases (s : State) (m : OutMsg) : (s.send m).releases = s.releases := rfl
@[simp] theorem State.send_dieClk (s : State) (m : OutMsg) : (s.send m).dieClk = s.dieClk := rfl
@[simp] theorem State.send_slots (s : State) (m : OutMsg) : (s.send m).slots = s.slots := rfl
@[simp] theorem State.send_queues (s : State) (m : OutMsg) : (s.send m).queues = s.queues := rfl
@[simp] theorem State.send_schedClk (s : State) (m : OutMsg) : (s.send m).schedClk = s.schedClk := rfl
@[simp] theorem State.send_graphs (s : State) (m : OutMsg) : (s.send m).graphs = s.graphs := rfl
@[simp] theorem State.send_rotation (s : State) (m : OutMsg) : (s.send m).rotation = s.rotation := rfl
@[simp] theorem State.send_deadLetter (s : State) (m : OutMsg) : (s.send m).deadLetter = s.deadLetter := rfl
@[simp] theorem State.send_msix (s : State) (m : OutMsg) : (s.send m).msix = s.msix := rfl
@[simp] theorem State.send_fnLogs (s : State) (m : OutMsg) : (s.send m).fnLogs = s.fnLogs := rfl
@[simp] theorem State.send_dieEvents (s : State) (m : OutMsg) : (s.send m).dieEvents = s.dieEvents := rfl
@[simp] theorem State.send_loads (s : State) (m : OutMsg) : (s.send m).loads = s.loads := rfl
@[simp] theorem State.send_flagOps (s : State) (m : OutMsg) : (s.send m).flagOps = s.flagOps := rfl
@[simp] theorem State.send_l2 (s : State) (m : OutMsg) : (s.send m).l2 = s.l2 := rfl
@[simp] theorem State.send_msc (s : State) (m : OutMsg) : (s.send m).msc = s.msc := rfl
@[simp] theorem State.send_pins (s : State) (m : OutMsg) : (s.send m).pins = s.pins := rfl
@[simp] theorem State.send_pinOverflow (s : State) (m : OutMsg) : (s.send m).pinOverflow = s.pinOverflow := rfl
@[simp] theorem State.send_sliceDrops (s : State) (m : OutMsg) : (s.send m).sliceDrops = s.sliceDrops := rfl
@[simp] theorem State.send_channelDrops (s : State) (m : OutMsg) : (s.send m).channelDrops = s.channelDrops := rfl
@[simp] theorem State.send_combining (s : State) (m : OutMsg) : (s.send m).combining = s.combining := rfl
@[simp] theorem State.send_tileFigs (s : State) (m : OutMsg) : (s.send m).tileFigs = s.tileFigs := rfl
@[simp] theorem State.send_figLoads (s : State) (m : OutMsg) : (s.send m).figLoads = s.figLoads := rfl
@[simp] theorem State.send_defCache (s : State) (m : OutMsg) : (s.send m).defCache = s.defCache := rfl
@[simp] theorem State.send_pod (s : State) (m : OutMsg) : (s.send m).pod = s.pod := rfl
@[simp] theorem State.send_branches (s : State) (m : OutMsg) : (s.send m).branches = s.branches := rfl
@[simp] theorem State.send_redx (s : State) (m : OutMsg) : (s.send m).redx = s.redx := rfl
@[simp] theorem State.send_stns (s : State) (m : OutMsg) : (s.send m).stns = s.stns := rfl
@[simp] theorem State.send_moves (s : State) (m : OutMsg) : (s.send m).moves = s.moves := rfl
@[simp] theorem State.send_classes (s : State) (m : OutMsg) : (s.send m).classes = s.classes := rfl
@[simp] theorem State.send_heats (s : State) (m : OutMsg) : (s.send m).heats = s.heats := rfl
@[simp] theorem State.send_links (s : State) (m : OutMsg) : (s.send m).links = s.links := rfl
@[simp] theorem State.send_txSeq (s : State) (m : OutMsg) : (s.send m).txSeq = s.txSeq := rfl
@[simp] theorem State.send_rxSeq (s : State) (m : OutMsg) : (s.send m).rxSeq = s.rxSeq := rfl
@[simp] theorem State.send_window (s : State) (m : OutMsg) : (s.send m).window = s.window := rfl
@[simp] theorem State.send_roots (s : State) (m : OutMsg) : (s.send m).roots = s.roots := rfl
@[simp] theorem State.send_channels (s : State) (m : OutMsg) : (s.send m).channels = s.channels := rfl
@[simp] theorem State.send_module (s : State) (m : OutMsg) : (s.send m).module = s.module := rfl
@[simp] theorem State.send_struck (s : State) (m : OutMsg) : (s.send m).struck = s.struck := rfl
@[simp] theorem State.send_toChannel (s : State) (m : OutMsg) : (s.send m).toChannel = s.toChannel := rfl
@[simp] theorem State.send_prefetches (s : State) (m : OutMsg) : (s.send m).prefetches = s.prefetches := rfl
@[simp] theorem State.send_savedCopies (s : State) (m : OutMsg) : (s.send m).savedCopies = s.savedCopies := rfl
@[simp] theorem State.send_savedTiles (s : State) (m : OutMsg) : (s.send m).savedTiles = s.savedTiles := rfl
@[simp] theorem State.send_savedInbox (s : State) (m : OutMsg) : (s.send m).savedInbox = s.savedInbox := rfl
@[simp] theorem State.send_inboxWait (s : State) (m : OutMsg) : (s.send m).inboxWait = s.inboxWait := rfl
@[simp] theorem State.send_agenda (s : State) (m : OutMsg) : (s.send m).agenda = s.agenda := rfl
@[simp] theorem State.send_focus (s : State) (m : OutMsg) : (s.send m).focus = s.focus := rfl
@[simp] theorem State.send_fresh (s : State) (m : OutMsg) : (s.send m).fresh = s.fresh := rfl
@[simp] theorem State.send_nextId (s : State) (m : OutMsg) : (s.send m).nextId = s.nextId := rfl

@[simp] theorem State.writeByte_squads (s : State) (a : Nat) (b : Byte) : (s.writeByte a b).squads = s.squads := rfl
@[simp] theorem State.writeByte_lanes (s : State) (a : Nat) (b : Byte) : (s.writeByte a b).lanes = s.lanes := rfl
@[simp] theorem State.writeByte_pairs (s : State) (a : Nat) (b : Byte) : (s.writeByte a b).pairs = s.pairs := rfl
@[simp] theorem State.writeByte_cores (s : State) (a : Nat) (b : Byte) : (s.writeByte a b).cores = s.cores := rfl
@[simp] theorem State.writeByte_launches (s : State) (a : Nat) (b : Byte) : (s.writeByte a b).launches = s.launches := rfl
@[simp] theorem State.writeByte_blocks (s : State) (a : Nat) (b : Byte) : (s.writeByte a b).blocks = s.blocks := rfl
@[simp] theorem State.writeByte_poisoned (s : State) (a : Nat) (b : Byte) : (s.writeByte a b).poisoned = s.poisoned := rfl
@[simp] theorem State.writeByte_host (s : State) (a : Nat) (b : Byte) : (s.writeByte a b).host = s.host := rfl
@[simp] theorem State.writeByte_walks (s : State) (a : Nat) (b : Byte) : (s.writeByte a b).walks = s.walks := rfl
@[simp] theorem State.writeByte_stage (s : State) (a : Nat) (b : Byte) : (s.writeByte a b).stage = s.stage := rfl
@[simp] theorem State.writeByte_releases (s : State) (a : Nat) (b : Byte) : (s.writeByte a b).releases = s.releases := rfl
@[simp] theorem State.writeByte_dieClk (s : State) (a : Nat) (b : Byte) : (s.writeByte a b).dieClk = s.dieClk := rfl
@[simp] theorem State.writeByte_slots (s : State) (a : Nat) (b : Byte) : (s.writeByte a b).slots = s.slots := rfl
@[simp] theorem State.writeByte_queues (s : State) (a : Nat) (b : Byte) : (s.writeByte a b).queues = s.queues := rfl
@[simp] theorem State.writeByte_schedClk (s : State) (a : Nat) (b : Byte) : (s.writeByte a b).schedClk = s.schedClk := rfl
@[simp] theorem State.writeByte_graphs (s : State) (a : Nat) (b : Byte) : (s.writeByte a b).graphs = s.graphs := rfl
@[simp] theorem State.writeByte_rotation (s : State) (a : Nat) (b : Byte) : (s.writeByte a b).rotation = s.rotation := rfl
@[simp] theorem State.writeByte_deadLetter (s : State) (a : Nat) (b : Byte) : (s.writeByte a b).deadLetter = s.deadLetter := rfl
@[simp] theorem State.writeByte_msix (s : State) (a : Nat) (b : Byte) : (s.writeByte a b).msix = s.msix := rfl
@[simp] theorem State.writeByte_fnLogs (s : State) (a : Nat) (b : Byte) : (s.writeByte a b).fnLogs = s.fnLogs := rfl
@[simp] theorem State.writeByte_outbox (s : State) (a : Nat) (b : Byte) : (s.writeByte a b).outbox = s.outbox := rfl
@[simp] theorem State.writeByte_dieEvents (s : State) (a : Nat) (b : Byte) : (s.writeByte a b).dieEvents = s.dieEvents := rfl
@[simp] theorem State.writeByte_loads (s : State) (a : Nat) (b : Byte) : (s.writeByte a b).loads = s.loads := rfl
@[simp] theorem State.writeByte_flagOps (s : State) (a : Nat) (b : Byte) : (s.writeByte a b).flagOps = s.flagOps := rfl
@[simp] theorem State.writeByte_l2 (s : State) (a : Nat) (b : Byte) : (s.writeByte a b).l2 = s.l2 := rfl
@[simp] theorem State.writeByte_msc (s : State) (a : Nat) (b : Byte) : (s.writeByte a b).msc = s.msc := rfl
@[simp] theorem State.writeByte_pins (s : State) (a : Nat) (b : Byte) : (s.writeByte a b).pins = s.pins := rfl
@[simp] theorem State.writeByte_pinOverflow (s : State) (a : Nat) (b : Byte) : (s.writeByte a b).pinOverflow = s.pinOverflow := rfl
@[simp] theorem State.writeByte_sliceDrops (s : State) (a : Nat) (b : Byte) : (s.writeByte a b).sliceDrops = s.sliceDrops := rfl
@[simp] theorem State.writeByte_channelDrops (s : State) (a : Nat) (b : Byte) : (s.writeByte a b).channelDrops = s.channelDrops := rfl
@[simp] theorem State.writeByte_combining (s : State) (a : Nat) (b : Byte) : (s.writeByte a b).combining = s.combining := rfl
@[simp] theorem State.writeByte_tileFigs (s : State) (a : Nat) (b : Byte) : (s.writeByte a b).tileFigs = s.tileFigs := rfl
@[simp] theorem State.writeByte_figLoads (s : State) (a : Nat) (b : Byte) : (s.writeByte a b).figLoads = s.figLoads := rfl
@[simp] theorem State.writeByte_defCache (s : State) (a : Nat) (b : Byte) : (s.writeByte a b).defCache = s.defCache := rfl
@[simp] theorem State.writeByte_pod (s : State) (a : Nat) (b : Byte) : (s.writeByte a b).pod = s.pod := rfl
@[simp] theorem State.writeByte_branches (s : State) (a : Nat) (b : Byte) : (s.writeByte a b).branches = s.branches := rfl
@[simp] theorem State.writeByte_redx (s : State) (a : Nat) (b : Byte) : (s.writeByte a b).redx = s.redx := rfl
@[simp] theorem State.writeByte_stns (s : State) (a : Nat) (b : Byte) : (s.writeByte a b).stns = s.stns := rfl
@[simp] theorem State.writeByte_moves (s : State) (a : Nat) (b : Byte) : (s.writeByte a b).moves = s.moves := rfl
@[simp] theorem State.writeByte_classes (s : State) (a : Nat) (b : Byte) : (s.writeByte a b).classes = s.classes := rfl
@[simp] theorem State.writeByte_heats (s : State) (a : Nat) (b : Byte) : (s.writeByte a b).heats = s.heats := rfl
@[simp] theorem State.writeByte_links (s : State) (a : Nat) (b : Byte) : (s.writeByte a b).links = s.links := rfl
@[simp] theorem State.writeByte_txSeq (s : State) (a : Nat) (b : Byte) : (s.writeByte a b).txSeq = s.txSeq := rfl
@[simp] theorem State.writeByte_rxSeq (s : State) (a : Nat) (b : Byte) : (s.writeByte a b).rxSeq = s.rxSeq := rfl
@[simp] theorem State.writeByte_window (s : State) (a : Nat) (b : Byte) : (s.writeByte a b).window = s.window := rfl
@[simp] theorem State.writeByte_roots (s : State) (a : Nat) (b : Byte) : (s.writeByte a b).roots = s.roots := rfl
@[simp] theorem State.writeByte_channels (s : State) (a : Nat) (b : Byte) : (s.writeByte a b).channels = s.channels := rfl
@[simp] theorem State.writeByte_module (s : State) (a : Nat) (b : Byte) : (s.writeByte a b).module = s.module := rfl
@[simp] theorem State.writeByte_struck (s : State) (a : Nat) (b : Byte) : (s.writeByte a b).struck = s.struck := rfl
@[simp] theorem State.writeByte_toChannel (s : State) (a : Nat) (b : Byte) : (s.writeByte a b).toChannel = s.toChannel := rfl
@[simp] theorem State.writeByte_prefetches (s : State) (a : Nat) (b : Byte) : (s.writeByte a b).prefetches = s.prefetches := rfl
@[simp] theorem State.writeByte_savedCopies (s : State) (a : Nat) (b : Byte) : (s.writeByte a b).savedCopies = s.savedCopies := rfl
@[simp] theorem State.writeByte_savedTiles (s : State) (a : Nat) (b : Byte) : (s.writeByte a b).savedTiles = s.savedTiles := rfl
@[simp] theorem State.writeByte_savedInbox (s : State) (a : Nat) (b : Byte) : (s.writeByte a b).savedInbox = s.savedInbox := rfl
@[simp] theorem State.writeByte_inboxWait (s : State) (a : Nat) (b : Byte) : (s.writeByte a b).inboxWait = s.inboxWait := rfl
@[simp] theorem State.writeByte_agenda (s : State) (a : Nat) (b : Byte) : (s.writeByte a b).agenda = s.agenda := rfl
@[simp] theorem State.writeByte_focus (s : State) (a : Nat) (b : Byte) : (s.writeByte a b).focus = s.focus := rfl
@[simp] theorem State.writeByte_fresh (s : State) (a : Nat) (b : Byte) : (s.writeByte a b).fresh = s.fresh := rfl
@[simp] theorem State.writeByte_nextId (s : State) (a : Nat) (b : Byte) : (s.writeByte a b).nextId = s.nextId := rfl

@[simp] theorem State.dieEvent_squads (s : State) (d c n : Nat) : (s.dieEvent d c n).squads = s.squads := rfl
@[simp] theorem State.dieEvent_lanes (s : State) (d c n : Nat) : (s.dieEvent d c n).lanes = s.lanes := rfl
@[simp] theorem State.dieEvent_pairs (s : State) (d c n : Nat) : (s.dieEvent d c n).pairs = s.pairs := rfl
@[simp] theorem State.dieEvent_cores (s : State) (d c n : Nat) : (s.dieEvent d c n).cores = s.cores := rfl
@[simp] theorem State.dieEvent_launches (s : State) (d c n : Nat) : (s.dieEvent d c n).launches = s.launches := rfl
@[simp] theorem State.dieEvent_blocks (s : State) (d c n : Nat) : (s.dieEvent d c n).blocks = s.blocks := rfl
@[simp] theorem State.dieEvent_hbm (s : State) (d c n : Nat) : (s.dieEvent d c n).hbm = s.hbm := rfl
@[simp] theorem State.dieEvent_poisoned (s : State) (d c n : Nat) : (s.dieEvent d c n).poisoned = s.poisoned := rfl
@[simp] theorem State.dieEvent_host (s : State) (d c n : Nat) : (s.dieEvent d c n).host = s.host := rfl
@[simp] theorem State.dieEvent_walks (s : State) (d c n : Nat) : (s.dieEvent d c n).walks = s.walks := rfl
@[simp] theorem State.dieEvent_stage (s : State) (d c n : Nat) : (s.dieEvent d c n).stage = s.stage := rfl
@[simp] theorem State.dieEvent_releases (s : State) (d c n : Nat) : (s.dieEvent d c n).releases = s.releases := rfl
@[simp] theorem State.dieEvent_dieClk (s : State) (d c n : Nat) : (s.dieEvent d c n).dieClk = s.dieClk := rfl
@[simp] theorem State.dieEvent_slots (s : State) (d c n : Nat) : (s.dieEvent d c n).slots = s.slots := rfl
@[simp] theorem State.dieEvent_queues (s : State) (d c n : Nat) : (s.dieEvent d c n).queues = s.queues := rfl
@[simp] theorem State.dieEvent_schedClk (s : State) (d c n : Nat) : (s.dieEvent d c n).schedClk = s.schedClk := rfl
@[simp] theorem State.dieEvent_graphs (s : State) (d c n : Nat) : (s.dieEvent d c n).graphs = s.graphs := rfl
@[simp] theorem State.dieEvent_rotation (s : State) (d c n : Nat) : (s.dieEvent d c n).rotation = s.rotation := rfl
@[simp] theorem State.dieEvent_deadLetter (s : State) (d c n : Nat) : (s.dieEvent d c n).deadLetter = s.deadLetter := rfl
@[simp] theorem State.dieEvent_msix (s : State) (d c n : Nat) : (s.dieEvent d c n).msix = s.msix := rfl
@[simp] theorem State.dieEvent_fnLogs (s : State) (d c n : Nat) : (s.dieEvent d c n).fnLogs = s.fnLogs := rfl
@[simp] theorem State.dieEvent_outbox (s : State) (d c n : Nat) : (s.dieEvent d c n).outbox = s.outbox := rfl
@[simp] theorem State.dieEvent_loads (s : State) (d c n : Nat) : (s.dieEvent d c n).loads = s.loads := rfl
@[simp] theorem State.dieEvent_flagOps (s : State) (d c n : Nat) : (s.dieEvent d c n).flagOps = s.flagOps := rfl
@[simp] theorem State.dieEvent_l2 (s : State) (d c n : Nat) : (s.dieEvent d c n).l2 = s.l2 := rfl
@[simp] theorem State.dieEvent_msc (s : State) (d c n : Nat) : (s.dieEvent d c n).msc = s.msc := rfl
@[simp] theorem State.dieEvent_pins (s : State) (d c n : Nat) : (s.dieEvent d c n).pins = s.pins := rfl
@[simp] theorem State.dieEvent_pinOverflow (s : State) (d c n : Nat) : (s.dieEvent d c n).pinOverflow = s.pinOverflow := rfl
@[simp] theorem State.dieEvent_sliceDrops (s : State) (d c n : Nat) : (s.dieEvent d c n).sliceDrops = s.sliceDrops := rfl
@[simp] theorem State.dieEvent_channelDrops (s : State) (d c n : Nat) : (s.dieEvent d c n).channelDrops = s.channelDrops := rfl
@[simp] theorem State.dieEvent_combining (s : State) (d c n : Nat) : (s.dieEvent d c n).combining = s.combining := rfl
@[simp] theorem State.dieEvent_tileFigs (s : State) (d c n : Nat) : (s.dieEvent d c n).tileFigs = s.tileFigs := rfl
@[simp] theorem State.dieEvent_figLoads (s : State) (d c n : Nat) : (s.dieEvent d c n).figLoads = s.figLoads := rfl
@[simp] theorem State.dieEvent_defCache (s : State) (d c n : Nat) : (s.dieEvent d c n).defCache = s.defCache := rfl
@[simp] theorem State.dieEvent_pod (s : State) (d c n : Nat) : (s.dieEvent d c n).pod = s.pod := rfl
@[simp] theorem State.dieEvent_branches (s : State) (d c n : Nat) : (s.dieEvent d c n).branches = s.branches := rfl
@[simp] theorem State.dieEvent_redx (s : State) (d c n : Nat) : (s.dieEvent d c n).redx = s.redx := rfl
@[simp] theorem State.dieEvent_stns (s : State) (d c n : Nat) : (s.dieEvent d c n).stns = s.stns := rfl
@[simp] theorem State.dieEvent_moves (s : State) (d c n : Nat) : (s.dieEvent d c n).moves = s.moves := rfl
@[simp] theorem State.dieEvent_classes (s : State) (d c n : Nat) : (s.dieEvent d c n).classes = s.classes := rfl
@[simp] theorem State.dieEvent_heats (s : State) (d c n : Nat) : (s.dieEvent d c n).heats = s.heats := rfl
@[simp] theorem State.dieEvent_links (s : State) (d c n : Nat) : (s.dieEvent d c n).links = s.links := rfl
@[simp] theorem State.dieEvent_txSeq (s : State) (d c n : Nat) : (s.dieEvent d c n).txSeq = s.txSeq := rfl
@[simp] theorem State.dieEvent_rxSeq (s : State) (d c n : Nat) : (s.dieEvent d c n).rxSeq = s.rxSeq := rfl
@[simp] theorem State.dieEvent_window (s : State) (d c n : Nat) : (s.dieEvent d c n).window = s.window := rfl
@[simp] theorem State.dieEvent_roots (s : State) (d c n : Nat) : (s.dieEvent d c n).roots = s.roots := rfl
@[simp] theorem State.dieEvent_channels (s : State) (d c n : Nat) : (s.dieEvent d c n).channels = s.channels := rfl
@[simp] theorem State.dieEvent_module (s : State) (d c n : Nat) : (s.dieEvent d c n).module = s.module := rfl
@[simp] theorem State.dieEvent_struck (s : State) (d c n : Nat) : (s.dieEvent d c n).struck = s.struck := rfl
@[simp] theorem State.dieEvent_toChannel (s : State) (d c n : Nat) : (s.dieEvent d c n).toChannel = s.toChannel := rfl
@[simp] theorem State.dieEvent_prefetches (s : State) (d c n : Nat) : (s.dieEvent d c n).prefetches = s.prefetches := rfl
@[simp] theorem State.dieEvent_savedCopies (s : State) (d c n : Nat) : (s.dieEvent d c n).savedCopies = s.savedCopies := rfl
@[simp] theorem State.dieEvent_savedTiles (s : State) (d c n : Nat) : (s.dieEvent d c n).savedTiles = s.savedTiles := rfl
@[simp] theorem State.dieEvent_savedInbox (s : State) (d c n : Nat) : (s.dieEvent d c n).savedInbox = s.savedInbox := rfl
@[simp] theorem State.dieEvent_inboxWait (s : State) (d c n : Nat) : (s.dieEvent d c n).inboxWait = s.inboxWait := rfl
@[simp] theorem State.dieEvent_agenda (s : State) (d c n : Nat) : (s.dieEvent d c n).agenda = s.agenda := rfl
@[simp] theorem State.dieEvent_focus (s : State) (d c n : Nat) : (s.dieEvent d c n).focus = s.focus := rfl
@[simp] theorem State.dieEvent_fresh (s : State) (d c n : Nat) : (s.dieEvent d c n).fresh = s.fresh := rfl
@[simp] theorem State.dieEvent_nextId (s : State) (d c n : Nat) : (s.dieEvent d c n).nextId = s.nextId := rfl

@[simp] theorem State.coreEvent_squads (s : State) (c k n : Nat) : (s.coreEvent c k n).squads = s.squads := rfl
@[simp] theorem State.coreEvent_lanes (s : State) (c k n : Nat) : (s.coreEvent c k n).lanes = s.lanes := rfl
@[simp] theorem State.coreEvent_pairs (s : State) (c k n : Nat) : (s.coreEvent c k n).pairs = s.pairs := rfl
@[simp] theorem State.coreEvent_launches (s : State) (c k n : Nat) : (s.coreEvent c k n).launches = s.launches := rfl
@[simp] theorem State.coreEvent_blocks (s : State) (c k n : Nat) : (s.coreEvent c k n).blocks = s.blocks := rfl
@[simp] theorem State.coreEvent_hbm (s : State) (c k n : Nat) : (s.coreEvent c k n).hbm = s.hbm := rfl
@[simp] theorem State.coreEvent_poisoned (s : State) (c k n : Nat) : (s.coreEvent c k n).poisoned = s.poisoned := rfl
@[simp] theorem State.coreEvent_host (s : State) (c k n : Nat) : (s.coreEvent c k n).host = s.host := rfl
@[simp] theorem State.coreEvent_walks (s : State) (c k n : Nat) : (s.coreEvent c k n).walks = s.walks := rfl
@[simp] theorem State.coreEvent_stage (s : State) (c k n : Nat) : (s.coreEvent c k n).stage = s.stage := rfl
@[simp] theorem State.coreEvent_releases (s : State) (c k n : Nat) : (s.coreEvent c k n).releases = s.releases := rfl
@[simp] theorem State.coreEvent_dieClk (s : State) (c k n : Nat) : (s.coreEvent c k n).dieClk = s.dieClk := rfl
@[simp] theorem State.coreEvent_slots (s : State) (c k n : Nat) : (s.coreEvent c k n).slots = s.slots := rfl
@[simp] theorem State.coreEvent_queues (s : State) (c k n : Nat) : (s.coreEvent c k n).queues = s.queues := rfl
@[simp] theorem State.coreEvent_schedClk (s : State) (c k n : Nat) : (s.coreEvent c k n).schedClk = s.schedClk := rfl
@[simp] theorem State.coreEvent_graphs (s : State) (c k n : Nat) : (s.coreEvent c k n).graphs = s.graphs := rfl
@[simp] theorem State.coreEvent_rotation (s : State) (c k n : Nat) : (s.coreEvent c k n).rotation = s.rotation := rfl
@[simp] theorem State.coreEvent_deadLetter (s : State) (c k n : Nat) : (s.coreEvent c k n).deadLetter = s.deadLetter := rfl
@[simp] theorem State.coreEvent_msix (s : State) (c k n : Nat) : (s.coreEvent c k n).msix = s.msix := rfl
@[simp] theorem State.coreEvent_fnLogs (s : State) (c k n : Nat) : (s.coreEvent c k n).fnLogs = s.fnLogs := rfl
@[simp] theorem State.coreEvent_outbox (s : State) (c k n : Nat) : (s.coreEvent c k n).outbox = s.outbox := rfl
@[simp] theorem State.coreEvent_loads (s : State) (c k n : Nat) : (s.coreEvent c k n).loads = s.loads := rfl
@[simp] theorem State.coreEvent_flagOps (s : State) (c k n : Nat) : (s.coreEvent c k n).flagOps = s.flagOps := rfl
@[simp] theorem State.coreEvent_l2 (s : State) (c k n : Nat) : (s.coreEvent c k n).l2 = s.l2 := rfl
@[simp] theorem State.coreEvent_msc (s : State) (c k n : Nat) : (s.coreEvent c k n).msc = s.msc := rfl
@[simp] theorem State.coreEvent_pins (s : State) (c k n : Nat) : (s.coreEvent c k n).pins = s.pins := rfl
@[simp] theorem State.coreEvent_pinOverflow (s : State) (c k n : Nat) : (s.coreEvent c k n).pinOverflow = s.pinOverflow := rfl
@[simp] theorem State.coreEvent_sliceDrops (s : State) (c k n : Nat) : (s.coreEvent c k n).sliceDrops = s.sliceDrops := rfl
@[simp] theorem State.coreEvent_channelDrops (s : State) (c k n : Nat) : (s.coreEvent c k n).channelDrops = s.channelDrops := rfl
@[simp] theorem State.coreEvent_combining (s : State) (c k n : Nat) : (s.coreEvent c k n).combining = s.combining := rfl
@[simp] theorem State.coreEvent_tileFigs (s : State) (c k n : Nat) : (s.coreEvent c k n).tileFigs = s.tileFigs := rfl
@[simp] theorem State.coreEvent_figLoads (s : State) (c k n : Nat) : (s.coreEvent c k n).figLoads = s.figLoads := rfl
@[simp] theorem State.coreEvent_defCache (s : State) (c k n : Nat) : (s.coreEvent c k n).defCache = s.defCache := rfl
@[simp] theorem State.coreEvent_pod (s : State) (c k n : Nat) : (s.coreEvent c k n).pod = s.pod := rfl
@[simp] theorem State.coreEvent_branches (s : State) (c k n : Nat) : (s.coreEvent c k n).branches = s.branches := rfl
@[simp] theorem State.coreEvent_redx (s : State) (c k n : Nat) : (s.coreEvent c k n).redx = s.redx := rfl
@[simp] theorem State.coreEvent_stns (s : State) (c k n : Nat) : (s.coreEvent c k n).stns = s.stns := rfl
@[simp] theorem State.coreEvent_moves (s : State) (c k n : Nat) : (s.coreEvent c k n).moves = s.moves := rfl
@[simp] theorem State.coreEvent_classes (s : State) (c k n : Nat) : (s.coreEvent c k n).classes = s.classes := rfl
@[simp] theorem State.coreEvent_heats (s : State) (c k n : Nat) : (s.coreEvent c k n).heats = s.heats := rfl
@[simp] theorem State.coreEvent_links (s : State) (c k n : Nat) : (s.coreEvent c k n).links = s.links := rfl
@[simp] theorem State.coreEvent_txSeq (s : State) (c k n : Nat) : (s.coreEvent c k n).txSeq = s.txSeq := rfl
@[simp] theorem State.coreEvent_rxSeq (s : State) (c k n : Nat) : (s.coreEvent c k n).rxSeq = s.rxSeq := rfl
@[simp] theorem State.coreEvent_window (s : State) (c k n : Nat) : (s.coreEvent c k n).window = s.window := rfl
@[simp] theorem State.coreEvent_roots (s : State) (c k n : Nat) : (s.coreEvent c k n).roots = s.roots := rfl
@[simp] theorem State.coreEvent_channels (s : State) (c k n : Nat) : (s.coreEvent c k n).channels = s.channels := rfl
@[simp] theorem State.coreEvent_module (s : State) (c k n : Nat) : (s.coreEvent c k n).module = s.module := rfl
@[simp] theorem State.coreEvent_struck (s : State) (c k n : Nat) : (s.coreEvent c k n).struck = s.struck := rfl
@[simp] theorem State.coreEvent_toChannel (s : State) (c k n : Nat) : (s.coreEvent c k n).toChannel = s.toChannel := rfl
@[simp] theorem State.coreEvent_prefetches (s : State) (c k n : Nat) : (s.coreEvent c k n).prefetches = s.prefetches := rfl
@[simp] theorem State.coreEvent_savedCopies (s : State) (c k n : Nat) : (s.coreEvent c k n).savedCopies = s.savedCopies := rfl
@[simp] theorem State.coreEvent_savedTiles (s : State) (c k n : Nat) : (s.coreEvent c k n).savedTiles = s.savedTiles := rfl
@[simp] theorem State.coreEvent_savedInbox (s : State) (c k n : Nat) : (s.coreEvent c k n).savedInbox = s.savedInbox := rfl
@[simp] theorem State.coreEvent_inboxWait (s : State) (c k n : Nat) : (s.coreEvent c k n).inboxWait = s.inboxWait := rfl
@[simp] theorem State.coreEvent_agenda (s : State) (c k n : Nat) : (s.coreEvent c k n).agenda = s.agenda := rfl
@[simp] theorem State.coreEvent_focus (s : State) (c k n : Nat) : (s.coreEvent c k n).focus = s.focus := rfl
@[simp] theorem State.coreEvent_fresh (s : State) (c k n : Nat) : (s.coreEvent c k n).fresh = s.fresh := rfl
@[simp] theorem State.coreEvent_nextId (s : State) (c k n : Nat) : (s.coreEvent c k n).nextId = s.nextId := rfl

@[simp] theorem State.modSquad_core (s : State) (q : Nat) (f : Squad → Squad) (j : Nat) : (s.modSquad q f).core j = s.core j := rfl
@[simp] theorem State.modSquad_lane (s : State) (q : Nat) (f : Squad → Squad) (j : Nat) : (s.modSquad q f).lane j = s.lane j := rfl
@[simp] theorem State.modSquad_pair (s : State) (q : Nat) (f : Squad → Squad) (j : Nat) : (s.modSquad q f).pair j = s.pair j := rfl
@[simp] theorem State.modSquad_block (s : State) (q : Nat) (f : Squad → Squad) (j : Nat) : (s.modSquad q f).block j = s.block j := rfl
@[simp] theorem State.modSquad_readByte (s : State) (q : Nat) (f : Squad → Squad) (j : Nat) : (s.modSquad q f).readByte j = s.readByte j := rfl
@[simp] theorem State.modSquad_queueRun (s : State) (q : Nat) (f : Squad → Squad) (j : Nat) : (s.modSquad q f).queueRun j = s.queueRun j := rfl
@[simp] theorem State.modSquad_isPoisoned (s : State) (q : Nat) (f : Squad → Squad) (j : Nat) : (s.modSquad q f).isPoisoned j = s.isPoisoned j := rfl
@[simp] theorem State.modSquad_holdsLock (s : State) (q : Nat) (f : Squad → Squad) (j : Nat) (sq : Squad) : (s.modSquad q f).holdsLock j sq = s.holdsLock j sq := rfl
@[simp] theorem State.modSquad_readV (s : State) (q : Nat) (f : Squad → Squad) (sq : Squad) (r t : Nat) : (s.modSquad q f).readV sq r t = s.readV sq r t := rfl
@[simp] theorem State.modSquad_readHold (s : State) (q : Nat) (f : Squad → Squad) (sq : Squad) (r : Nat) : (s.modSquad q f).readHold sq r = s.readHold sq r := rfl
@[simp] theorem State.modSquad_regionOf (s : State) (q : Nat) (f : Squad → Squad) (sq : Squad) : (s.modSquad q f).regionOf sq = s.regionOf sq := rfl

@[simp] theorem State.modCore_lane (s : State) (c : Nat) (f : CoreS → CoreS) (j : Nat) : (s.modCore c f).lane j = s.lane j := rfl
@[simp] theorem State.modCore_pair (s : State) (c : Nat) (f : CoreS → CoreS) (j : Nat) : (s.modCore c f).pair j = s.pair j := rfl
@[simp] theorem State.modCore_block (s : State) (c : Nat) (f : CoreS → CoreS) (j : Nat) : (s.modCore c f).block j = s.block j := rfl
@[simp] theorem State.modCore_readByte (s : State) (c : Nat) (f : CoreS → CoreS) (j : Nat) : (s.modCore c f).readByte j = s.readByte j := rfl
@[simp] theorem State.modCore_queueRun (s : State) (c : Nat) (f : CoreS → CoreS) (j : Nat) : (s.modCore c f).queueRun j = s.queueRun j := rfl
@[simp] theorem State.modCore_isPoisoned (s : State) (c : Nat) (f : CoreS → CoreS) (j : Nat) : (s.modCore c f).isPoisoned j = s.isPoisoned j := rfl
@[simp] theorem State.modCore_holdsLock (s : State) (c : Nat) (f : CoreS → CoreS) (j : Nat) (sq : Squad) : (s.modCore c f).holdsLock j sq = s.holdsLock j sq := rfl
@[simp] theorem State.modCore_readV (s : State) (c : Nat) (f : CoreS → CoreS) (sq : Squad) (r t : Nat) : (s.modCore c f).readV sq r t = s.readV sq r t := rfl
@[simp] theorem State.modCore_readHold (s : State) (c : Nat) (f : CoreS → CoreS) (sq : Squad) (r : Nat) : (s.modCore c f).readHold sq r = s.readHold sq r := rfl
@[simp] theorem State.modCore_regionOf (s : State) (c : Nat) (f : CoreS → CoreS) (sq : Squad) : (s.modCore c f).regionOf sq = s.regionOf sq := rfl

@[simp] theorem State.modLane_core (s : State) (k : Nat) (f : Lane → Lane) (j : Nat) : (s.modLane k f).core j = s.core j := rfl
@[simp] theorem State.modLane_pair (s : State) (k : Nat) (f : Lane → Lane) (j : Nat) : (s.modLane k f).pair j = s.pair j := rfl
@[simp] theorem State.modLane_block (s : State) (k : Nat) (f : Lane → Lane) (j : Nat) : (s.modLane k f).block j = s.block j := rfl
@[simp] theorem State.modLane_readByte (s : State) (k : Nat) (f : Lane → Lane) (j : Nat) : (s.modLane k f).readByte j = s.readByte j := rfl
@[simp] theorem State.modLane_queueRun (s : State) (k : Nat) (f : Lane → Lane) (j : Nat) : (s.modLane k f).queueRun j = s.queueRun j := rfl
@[simp] theorem State.modLane_isPoisoned (s : State) (k : Nat) (f : Lane → Lane) (j : Nat) : (s.modLane k f).isPoisoned j = s.isPoisoned j := rfl
@[simp] theorem State.modLane_holdsLock (s : State) (k : Nat) (f : Lane → Lane) (j : Nat) (sq : Squad) : (s.modLane k f).holdsLock j sq = s.holdsLock j sq := rfl
@[simp] theorem State.modLane_readV (s : State) (k : Nat) (f : Lane → Lane) (sq : Squad) (r t : Nat) : (s.modLane k f).readV sq r t = s.readV sq r t := rfl
@[simp] theorem State.modLane_readHold (s : State) (k : Nat) (f : Lane → Lane) (sq : Squad) (r : Nat) : (s.modLane k f).readHold sq r = s.readHold sq r := rfl
@[simp] theorem State.modLane_regionOf (s : State) (k : Nat) (f : Lane → Lane) (sq : Squad) : (s.modLane k f).regionOf sq = s.regionOf sq := rfl

@[simp] theorem State.modPair_core (s : State) (k : Nat) (f : Pair → Pair) (j : Nat) : (s.modPair k f).core j = s.core j := rfl
@[simp] theorem State.modPair_lane (s : State) (k : Nat) (f : Pair → Pair) (j : Nat) : (s.modPair k f).lane j = s.lane j := rfl
@[simp] theorem State.modPair_block (s : State) (k : Nat) (f : Pair → Pair) (j : Nat) : (s.modPair k f).block j = s.block j := rfl
@[simp] theorem State.modPair_readByte (s : State) (k : Nat) (f : Pair → Pair) (j : Nat) : (s.modPair k f).readByte j = s.readByte j := rfl
@[simp] theorem State.modPair_queueRun (s : State) (k : Nat) (f : Pair → Pair) (j : Nat) : (s.modPair k f).queueRun j = s.queueRun j := rfl
@[simp] theorem State.modPair_isPoisoned (s : State) (k : Nat) (f : Pair → Pair) (j : Nat) : (s.modPair k f).isPoisoned j = s.isPoisoned j := rfl
@[simp] theorem State.modPair_regionOf (s : State) (k : Nat) (f : Pair → Pair) (sq : Squad) : (s.modPair k f).regionOf sq = s.regionOf sq := rfl

@[simp] theorem State.modLaunch_core (s : State) (l : Nat) (f : Launch → Launch) (j : Nat) : (s.modLaunch l f).core j = s.core j := rfl
@[simp] theorem State.modLaunch_lane (s : State) (l : Nat) (f : Launch → Launch) (j : Nat) : (s.modLaunch l f).lane j = s.lane j := rfl
@[simp] theorem State.modLaunch_pair (s : State) (l : Nat) (f : Launch → Launch) (j : Nat) : (s.modLaunch l f).pair j = s.pair j := rfl
@[simp] theorem State.modLaunch_block (s : State) (l : Nat) (f : Launch → Launch) (j : Nat) : (s.modLaunch l f).block j = s.block j := rfl
@[simp] theorem State.modLaunch_readByte (s : State) (l : Nat) (f : Launch → Launch) (j : Nat) : (s.modLaunch l f).readByte j = s.readByte j := rfl
@[simp] theorem State.modLaunch_queueRun (s : State) (l : Nat) (f : Launch → Launch) (j : Nat) : (s.modLaunch l f).queueRun j = s.queueRun j := rfl
@[simp] theorem State.modLaunch_isPoisoned (s : State) (l : Nat) (f : Launch → Launch) (j : Nat) : (s.modLaunch l f).isPoisoned j = s.isPoisoned j := rfl
@[simp] theorem State.modLaunch_holdsLock (s : State) (l : Nat) (f : Launch → Launch) (j : Nat) (sq : Squad) : (s.modLaunch l f).holdsLock j sq = s.holdsLock j sq := rfl
@[simp] theorem State.modLaunch_readV (s : State) (l : Nat) (f : Launch → Launch) (sq : Squad) (r t : Nat) : (s.modLaunch l f).readV sq r t = s.readV sq r t := rfl
@[simp] theorem State.modLaunch_readHold (s : State) (l : Nat) (f : Launch → Launch) (sq : Squad) (r : Nat) : (s.modLaunch l f).readHold sq r = s.readHold sq r := rfl

@[simp] theorem State.modBlock_core (s : State) (k : Nat) (f : Block → Block) (j : Nat) : (s.modBlock k f).core j = s.core j := rfl
@[simp] theorem State.modBlock_lane (s : State) (k : Nat) (f : Block → Block) (j : Nat) : (s.modBlock k f).lane j = s.lane j := rfl
@[simp] theorem State.modBlock_pair (s : State) (k : Nat) (f : Block → Block) (j : Nat) : (s.modBlock k f).pair j = s.pair j := rfl
@[simp] theorem State.modBlock_readByte (s : State) (k : Nat) (f : Block → Block) (j : Nat) : (s.modBlock k f).readByte j = s.readByte j := rfl
@[simp] theorem State.modBlock_queueRun (s : State) (k : Nat) (f : Block → Block) (j : Nat) : (s.modBlock k f).queueRun j = s.queueRun j := rfl
@[simp] theorem State.modBlock_isPoisoned (s : State) (k : Nat) (f : Block → Block) (j : Nat) : (s.modBlock k f).isPoisoned j = s.isPoisoned j := rfl
@[simp] theorem State.modBlock_holdsLock (s : State) (k : Nat) (f : Block → Block) (j : Nat) (sq : Squad) : (s.modBlock k f).holdsLock j sq = s.holdsLock j sq := rfl
@[simp] theorem State.modBlock_readV (s : State) (k : Nat) (f : Block → Block) (sq : Squad) (r t : Nat) : (s.modBlock k f).readV sq r t = s.readV sq r t := rfl
@[simp] theorem State.modBlock_readHold (s : State) (k : Nat) (f : Block → Block) (sq : Squad) (r : Nat) : (s.modBlock k f).readHold sq r = s.readHold sq r := rfl
@[simp] theorem State.modBlock_regionOf (s : State) (k : Nat) (f : Block → Block) (sq : Squad) : (s.modBlock k f).regionOf sq = s.regionOf sq := rfl

@[simp] theorem State.modQueue_core (s : State) (q : Nat) (f : QueueRun → QueueRun) (j : Nat) : (s.modQueue q f).core j = s.core j := rfl
@[simp] theorem State.modQueue_lane (s : State) (q : Nat) (f : QueueRun → QueueRun) (j : Nat) : (s.modQueue q f).lane j = s.lane j := rfl
@[simp] theorem State.modQueue_pair (s : State) (q : Nat) (f : QueueRun → QueueRun) (j : Nat) : (s.modQueue q f).pair j = s.pair j := rfl
@[simp] theorem State.modQueue_block (s : State) (q : Nat) (f : QueueRun → QueueRun) (j : Nat) : (s.modQueue q f).block j = s.block j := rfl
@[simp] theorem State.modQueue_readByte (s : State) (q : Nat) (f : QueueRun → QueueRun) (j : Nat) : (s.modQueue q f).readByte j = s.readByte j := rfl
@[simp] theorem State.modQueue_isPoisoned (s : State) (q : Nat) (f : QueueRun → QueueRun) (j : Nat) : (s.modQueue q f).isPoisoned j = s.isPoisoned j := rfl
@[simp] theorem State.modQueue_holdsLock (s : State) (q : Nat) (f : QueueRun → QueueRun) (j : Nat) (sq : Squad) : (s.modQueue q f).holdsLock j sq = s.holdsLock j sq := rfl
@[simp] theorem State.modQueue_readV (s : State) (q : Nat) (f : QueueRun → QueueRun) (sq : Squad) (r t : Nat) : (s.modQueue q f).readV sq r t = s.readV sq r t := rfl
@[simp] theorem State.modQueue_readHold (s : State) (q : Nat) (f : QueueRun → QueueRun) (sq : Squad) (r : Nat) : (s.modQueue q f).readHold sq r = s.readHold sq r := rfl
@[simp] theorem State.modQueue_regionOf (s : State) (q : Nat) (f : QueueRun → QueueRun) (sq : Squad) : (s.modQueue q f).regionOf sq = s.regionOf sq := rfl

@[simp] theorem State.send_core (s : State) (m : OutMsg) (j : Nat) : (s.send m).core j = s.core j := rfl
@[simp] theorem State.send_lane (s : State) (m : OutMsg) (j : Nat) : (s.send m).lane j = s.lane j := rfl
@[simp] theorem State.send_pair (s : State) (m : OutMsg) (j : Nat) : (s.send m).pair j = s.pair j := rfl
@[simp] theorem State.send_block (s : State) (m : OutMsg) (j : Nat) : (s.send m).block j = s.block j := rfl
@[simp] theorem State.send_readByte (s : State) (m : OutMsg) (j : Nat) : (s.send m).readByte j = s.readByte j := rfl
@[simp] theorem State.send_queueRun (s : State) (m : OutMsg) (j : Nat) : (s.send m).queueRun j = s.queueRun j := rfl
@[simp] theorem State.send_isPoisoned (s : State) (m : OutMsg) (j : Nat) : (s.send m).isPoisoned j = s.isPoisoned j := rfl
@[simp] theorem State.send_holdsLock (s : State) (m : OutMsg) (j : Nat) (sq : Squad) : (s.send m).holdsLock j sq = s.holdsLock j sq := rfl
@[simp] theorem State.send_readV (s : State) (m : OutMsg) (sq : Squad) (r t : Nat) : (s.send m).readV sq r t = s.readV sq r t := rfl
@[simp] theorem State.send_readHold (s : State) (m : OutMsg) (sq : Squad) (r : Nat) : (s.send m).readHold sq r = s.readHold sq r := rfl
@[simp] theorem State.send_regionOf (s : State) (m : OutMsg) (sq : Squad) : (s.send m).regionOf sq = s.regionOf sq := rfl

@[simp] theorem State.writeByte_core (s : State) (a : Nat) (b : Byte) (j : Nat) : (s.writeByte a b).core j = s.core j := rfl
@[simp] theorem State.writeByte_lane (s : State) (a : Nat) (b : Byte) (j : Nat) : (s.writeByte a b).lane j = s.lane j := rfl
@[simp] theorem State.writeByte_pair (s : State) (a : Nat) (b : Byte) (j : Nat) : (s.writeByte a b).pair j = s.pair j := rfl
@[simp] theorem State.writeByte_block (s : State) (a : Nat) (b : Byte) (j : Nat) : (s.writeByte a b).block j = s.block j := rfl
@[simp] theorem State.writeByte_queueRun (s : State) (a : Nat) (b : Byte) (j : Nat) : (s.writeByte a b).queueRun j = s.queueRun j := rfl
@[simp] theorem State.writeByte_isPoisoned (s : State) (a : Nat) (b : Byte) (j : Nat) : (s.writeByte a b).isPoisoned j = s.isPoisoned j := rfl
@[simp] theorem State.writeByte_holdsLock (s : State) (a : Nat) (b : Byte) (j : Nat) (sq : Squad) : (s.writeByte a b).holdsLock j sq = s.holdsLock j sq := rfl
@[simp] theorem State.writeByte_readV (s : State) (a : Nat) (b : Byte) (sq : Squad) (r t : Nat) : (s.writeByte a b).readV sq r t = s.readV sq r t := rfl
@[simp] theorem State.writeByte_readHold (s : State) (a : Nat) (b : Byte) (sq : Squad) (r : Nat) : (s.writeByte a b).readHold sq r = s.readHold sq r := rfl
@[simp] theorem State.writeByte_regionOf (s : State) (a : Nat) (b : Byte) (sq : Squad) : (s.writeByte a b).regionOf sq = s.regionOf sq := rfl

@[simp] theorem State.dieEvent_core (s : State) (d c n : Nat) (j : Nat) : (s.dieEvent d c n).core j = s.core j := rfl
@[simp] theorem State.dieEvent_lane (s : State) (d c n : Nat) (j : Nat) : (s.dieEvent d c n).lane j = s.lane j := rfl
@[simp] theorem State.dieEvent_pair (s : State) (d c n : Nat) (j : Nat) : (s.dieEvent d c n).pair j = s.pair j := rfl
@[simp] theorem State.dieEvent_block (s : State) (d c n : Nat) (j : Nat) : (s.dieEvent d c n).block j = s.block j := rfl
@[simp] theorem State.dieEvent_readByte (s : State) (d c n : Nat) (j : Nat) : (s.dieEvent d c n).readByte j = s.readByte j := rfl
@[simp] theorem State.dieEvent_queueRun (s : State) (d c n : Nat) (j : Nat) : (s.dieEvent d c n).queueRun j = s.queueRun j := rfl
@[simp] theorem State.dieEvent_isPoisoned (s : State) (d c n : Nat) (j : Nat) : (s.dieEvent d c n).isPoisoned j = s.isPoisoned j := rfl
@[simp] theorem State.dieEvent_holdsLock (s : State) (d c n : Nat) (j : Nat) (sq : Squad) : (s.dieEvent d c n).holdsLock j sq = s.holdsLock j sq := rfl
@[simp] theorem State.dieEvent_readV (s : State) (d c n : Nat) (sq : Squad) (r t : Nat) : (s.dieEvent d c n).readV sq r t = s.readV sq r t := rfl
@[simp] theorem State.dieEvent_readHold (s : State) (d c n : Nat) (sq : Squad) (r : Nat) : (s.dieEvent d c n).readHold sq r = s.readHold sq r := rfl
@[simp] theorem State.dieEvent_regionOf (s : State) (d c n : Nat) (sq : Squad) : (s.dieEvent d c n).regionOf sq = s.regionOf sq := rfl

@[simp] theorem State.coreEvent_lane (s : State) (c k n : Nat) (j : Nat) : (s.coreEvent c k n).lane j = s.lane j := rfl
@[simp] theorem State.coreEvent_pair (s : State) (c k n : Nat) (j : Nat) : (s.coreEvent c k n).pair j = s.pair j := rfl
@[simp] theorem State.coreEvent_block (s : State) (c k n : Nat) (j : Nat) : (s.coreEvent c k n).block j = s.block j := rfl
@[simp] theorem State.coreEvent_readByte (s : State) (c k n : Nat) (j : Nat) : (s.coreEvent c k n).readByte j = s.readByte j := rfl
@[simp] theorem State.coreEvent_queueRun (s : State) (c k n : Nat) (j : Nat) : (s.coreEvent c k n).queueRun j = s.queueRun j := rfl
@[simp] theorem State.coreEvent_isPoisoned (s : State) (c k n : Nat) (j : Nat) : (s.coreEvent c k n).isPoisoned j = s.isPoisoned j := rfl
@[simp] theorem State.coreEvent_holdsLock (s : State) (c k n : Nat) (j : Nat) (sq : Squad) : (s.coreEvent c k n).holdsLock j sq = s.holdsLock j sq := rfl
@[simp] theorem State.coreEvent_readV (s : State) (c k n : Nat) (sq : Squad) (r t : Nat) : (s.coreEvent c k n).readV sq r t = s.readV sq r t := rfl
@[simp] theorem State.coreEvent_readHold (s : State) (c k n : Nat) (sq : Squad) (r : Nat) : (s.coreEvent c k n).readHold sq r = s.readHold sq r := rfl
@[simp] theorem State.coreEvent_regionOf (s : State) (c k n : Nat) (sq : Squad) : (s.coreEvent c k n).regionOf sq = s.regionOf sq := rfl

end Sys2Proof.Machine
end

