-- ==== Sys2Proof/Laws/Table.lean ====
section
/-!
SUPPORT. Laws of finite tables: reading after writing, and the canonical form.
-/
namespace Sys2Proof

/-- Reading the key written. -/
@[simp] theorem tabFind_tabIns_same {α : Type} (m : Tab α) (k : Nat) (v : α) : tabFind (tabIns m k v) k = some v := by
  induction m with
  | nil => simp [tabIns, tabFind]
  | cons e r ih =>
    obtain ⟨k', v'⟩ := e
    simp only [tabIns]
    split
    · simp [tabFind]
    · split
      · simp [tabFind]
      · simp only [tabFind]
        rw [if_neg ‹_›]
        exact ih

/-- Reading another key than the one written. -/
theorem tabFind_tabIns_ne {α : Type} (m : Tab α) {k j : Nat} (v : α) (h : j ≠ k) : tabFind (tabIns m k v) j = tabFind m j := by
  induction m with
  | nil => simp [tabIns, tabFind, h]
  | cons e r ih =>
    obtain ⟨k', v'⟩ := e
    simp only [tabIns]
    split
    · simp [tabFind, h]
    · split
      · subst k'
        simp [tabFind, h]
      · simp only [tabFind, ih]

/-- A removed key is not listed. -/
@[simp] theorem tabFind_tabDel_same {α : Type} (m : Tab α) (k : Nat) : tabFind (tabDel m k) k = none := by
  induction m with
  | nil => rfl
  | cons e r ih =>
    obtain ⟨k', v'⟩ := e
    by_cases h : k' = k
    · subst h; simpa [tabDel] using ih
    · have hd : tabDel ((k', v') :: r) k = (k', v') :: tabDel r k := by simp [tabDel, h]
      rw [hd, tabFind, if_neg (fun x => h x.symm), ih]

/-- Removing a key leaves the others. -/
theorem tabFind_tabDel_ne {α : Type} (m : Tab α) {k j : Nat} (h : j ≠ k) : tabFind (tabDel m k) j = tabFind m j := by
  induction m with
  | nil => rfl
  | cons e r ih =>
    obtain ⟨k', v'⟩ := e
    by_cases hk : k' = k
    · subst hk; simpa [tabDel, tabFind, h] using ih
    · have hd : tabDel ((k', v') :: r) k = (k', v') :: tabDel r k := by simp [tabDel, hk]
      rw [hd, tabFind, tabFind, ih]

/-- Reading what was put. -/
@[simp] theorem tabGet_tabPut_same {α : Type} [DecidableEq α] (d : α) (m : Tab α) (k : Nat) (v : α) :
    tabGet d (tabPut d m k v) k = v := by
  unfold tabPut tabGet
  split <;> simp_all

/-- Putting at a key leaves the others. -/
theorem tabFind_tabPut_ne {α : Type} [DecidableEq α] (d : α) (m : Tab α) {k j : Nat} (v : α) (h : j ≠ k) :
    tabFind (tabPut d m k v) j = tabFind m j := by
  unfold tabPut
  split
  · exact tabFind_tabDel_ne m h
  · exact tabFind_tabIns_ne m v h

/-- Putting at a key leaves what is read at the others. -/
theorem tabGet_tabPut_ne {α : Type} [DecidableEq α] (d d' : α) (m : Tab α) {k j : Nat} (v : α) (h : j ≠ k) :
    tabGet d (tabPut d' m k v) j = tabGet d m j := by
  simp [tabGet, tabFind_tabPut_ne d' m v h]

/-- Reading any key after a put. -/
theorem tabGet_tabPut {α : Type} [DecidableEq α] (d : α) (m : Tab α) (k j : Nat) (v : α) :
    tabGet d (tabPut d m k v) j = if j = k then v else tabGet d m j := by
  split
  · next h => subst h; simp
  · next h => exact tabGet_tabPut_ne d d m v h

/-- Changing a listed entry. -/
theorem tabFind_tabMod_same {α : Type} (m : Tab α) (k : Nat) (f : α → α) : tabFind (tabMod m k f) k = (tabFind m k).map f := by
  unfold tabMod
  cases h : tabFind m k <;> simp [h]

/-- Changing an entry leaves the others. -/
theorem tabFind_tabMod_ne {α : Type} (m : Tab α) {k j : Nat} (f : α → α) (h : j ≠ k) : tabFind (tabMod m k f) j = tabFind m j := by
  unfold tabMod
  split
  · rfl
  · exact tabFind_tabIns_ne m _ h

/-- Reading any key after a change. -/
theorem tabFind_tabMod {α : Type} (m : Tab α) (k j : Nat) (f : α → α) :
    tabFind (tabMod m k f) j = if j = k then (tabFind m j).map f else tabFind m j := by
  split
  · next h => subst h; exact tabFind_tabMod_same m j f
  · next h => exact tabFind_tabMod_ne m f h

/-- The keys after the first are above it. -/
theorem tabSorted_cons {α : Type} {k : Nat} {v : α} {r : Tab α} :
    tabSorted ((k, v) :: r) = true ↔ tabSorted r = true ∧ ∀ e ∈ r, k < e.1 := by
  induction r generalizing k v with
  | nil => simp [tabSorted]
  | cons e r ih =>
    obtain ⟨k', v'⟩ := e
    simp only [tabSorted, Bool.and_eq_true, decide_eq_true_eq, List.mem_cons, forall_eq_or_imp]
    constructor
    · rintro ⟨h1, h2⟩
      exact ⟨h2, h1, fun e he => Nat.lt_trans h1 ((ih.1 h2).2 e he)⟩
    · rintro ⟨h1, h2, -⟩
      exact ⟨h2, h1⟩

/-- What a write lists: the new entry, or an old one. -/
theorem mem_tabIns {α : Type} {m : Tab α} {k : Nat} {v : α} {e : Nat × α} (h : e ∈ tabIns m k v) : e = (k, v) ∨ e ∈ m := by
  induction m with
  | nil => simpa [tabIns] using h
  | cons x r ih =>
    obtain ⟨k', v'⟩ := x
    simp only [tabIns] at h
    split at h
    · simpa using h
    · split at h
      · rcases List.mem_cons.1 h with h | h <;> simp [h]
      · rcases List.mem_cons.1 h with h | h
        · simp [h]
        · rcases ih h with h | h <;> simp [h]

/-- A write keeps the keys rising. -/
theorem tabSorted_tabIns {α : Type} {m : Tab α} (k : Nat) (v : α) (h : tabSorted m = true) : tabSorted (tabIns m k v) = true := by
  induction m with
  | nil => rfl
  | cons x r ih =>
    obtain ⟨k', v'⟩ := x
    have hc := tabSorted_cons.1 h
    simp only [tabIns]
    split
    · next hlt =>
      refine tabSorted_cons.2 ⟨h, ?_⟩
      intro e he
      rcases List.mem_cons.1 he with he | he
      · subst he; exact hlt
      · exact Nat.lt_trans hlt (hc.2 e he)
    · split
      · next _ heq => subst heq; exact tabSorted_cons.2 hc
      · next hnl hne =>
        refine tabSorted_cons.2 ⟨ih hc.1, ?_⟩
        intro e he
        rcases mem_tabIns he with he | he
        · subst he; simp only; omega
        · exact hc.2 e he

/-- A removal keeps the keys rising. -/
theorem tabSorted_tabDel {α : Type} {m : Tab α} (k : Nat) (h : tabSorted m = true) : tabSorted (tabDel m k) = true := by
  induction m with
  | nil => rfl
  | cons x r ih =>
    obtain ⟨k', v'⟩ := x
    have hc := tabSorted_cons.1 h
    by_cases hk : k' = k
    · subst hk
      have := ih hc.1
      simpa [tabDel] using this
    · have : tabDel ((k', v') :: r) k = (k', v') :: tabDel r k := by simp [tabDel, hk]
      rw [this]
      exact tabSorted_cons.2 ⟨ih hc.1, fun e he => hc.2 e (List.mem_filter.1 he).1⟩

/-- A put keeps the canonical form. -/
theorem tabWf_tabPut {α : Type} [DecidableEq α] {d : α} {m : Tab α} (k : Nat) (v : α) (h : tabWf d m = true) :
    tabWf d (tabPut d m k v) = true := by
  simp only [tabWf, Bool.and_eq_true, List.all_eq_true, decide_eq_true_eq] at h ⊢
  unfold tabPut
  split
  · exact ⟨tabSorted_tabDel k h.1, fun e he => h.2 e (List.mem_filter.1 he).1⟩
  · next hv =>
    refine ⟨tabSorted_tabIns k v h.1, fun e he => ?_⟩
    rcases mem_tabIns he with he | he
    · subst he; exact hv
    · exact h.2 e he

/-- A fold keeps what each of its steps keeps. -/
theorem foldl_keeps {α β : Type} (P : α → Prop) (f : α → β → α) (hf : ∀ a b, P a → P (f a b)) (l : List β) (a : α) (h : P a) :
    P (l.foldl f a) := by
  induction l generalizing a with
  | nil => exact h
  | cons b r ih => exact ih _ (hf a b h)

/-- Several puts keep the canonical form. -/
theorem tabWf_tabPuts {α : Type} [DecidableEq α] {d : α} {m : Tab α} (kvs : List (Nat × α)) (h : tabWf d m = true) :
    tabWf d (tabPuts d m kvs) = true := by
  unfold tabPuts
  exact foldl_keeps (fun m => tabWf d m = true) _ (fun _ e => tabWf_tabPut e.1 e.2) kvs m h

end Sys2Proof
end

