-- ==== Sys2Proof/Laws/Regs.lean ====
section
/-!
SUPPORT. Reading the parts of the machine after one of them was written.
-/
namespace Sys2Proof.Machine

/-- The squad that was changed. -/
theorem State.modSquad_find (s : State) (q p : Nat) (f : Squad → Squad) :
    tabFind (s.modSquad q f).squads p = if p = q then (tabFind s.squads p).map f else tabFind s.squads p :=
  tabFind_tabMod s.squads q p f

/-- The core that was changed. -/
theorem State.modCore_read (s : State) (c d : Nat) (f : CoreS → CoreS) :
    (s.modCore c f).core d = if d = c then f (s.core c) else s.core d :=
  tabGet_tabPut ({} : CoreS) s.cores c d (f (s.core c))

/-- The lane that was changed. -/
theorem State.modLane_read (s : State) (k j : Nat) (f : Lane → Lane) :
    (s.modLane k f).lane j = if j = k then f (s.lane k) else s.lane j :=
  tabGet_tabPut ({} : Lane) s.lanes k j (f (s.lane k))

/-- The pair that was changed. -/
theorem State.modPair_read (s : State) (k j : Nat) (f : Pair → Pair) :
    (s.modPair k f).pair j = if j = k then f (s.pair k) else s.pair j :=
  tabGet_tabPut ({} : Pair) s.pairs k j (f (s.pair k))

/-- The launch that was changed. -/
theorem State.modLaunch_find (s : State) (l j : Nat) (f : Launch → Launch) :
    tabFind (s.modLaunch l f).launches j = if j = l then (tabFind s.launches j).map f else tabFind s.launches j :=
  tabFind_tabMod s.launches l j f

/-- The block that was changed. -/
theorem State.modBlock_find (s : State) (k j : Nat) (f : Block → Block) :
    tabFind (s.modBlock k f).blocks j = if j = k then (tabFind s.blocks j).map f else tabFind s.blocks j :=
  tabFind_tabMod s.blocks k j f

/-- The byte that was written. -/
theorem State.writeByte_read (s : State) (a j : Nat) (b : Byte) :
    (s.writeByte a b).readByte j = if j = a then b else s.readByte j :=
  tabGet_tabPut 0 s.hbm a j b

/-- Bytes written from an address up leave what lies outside. -/
theorem State.writeBytes_outside (s : State) (a : Nat) (bs : List Byte) (j : Nat) (h : j < a ∨ a + bs.length ≤ j) :
    (s.writeBytes a bs).readByte j = s.readByte j := by
  induction bs generalizing s a with
  | nil => rfl
  | cons b r ih =>
    simp only [List.length_cons] at h
    rw [State.writeBytes, ih _ _ (by omega), State.writeByte_read, if_neg (by omega)]

/-- Bytes written from an address up read back. -/
theorem State.writeBytes_inside (s : State) (a : Nat) (bs : List Byte) (i : Nat) (h : i < bs.length) :
    (s.writeBytes a bs).readByte (a + i) = bs[i] := by
  induction bs generalizing s a i with
  | nil => simp at h
  | cons b r ih =>
    cases i with
    | zero =>
      rw [State.writeBytes, State.writeBytes_outside _ _ _ _ (by omega), State.writeByte_read]
      simp
    | succ n =>
      have := ih (s.writeByte a b) (a + 1) n (by simpa using h)
      rw [State.writeBytes]
      simpa [Nat.add_assoc, Nat.add_comm 1 n] using this

/-- A stored line or part of one reads as the bytes written. -/
@[simp] theorem State.storeBytes_readByte (s : State) (a : Nat) (bs : List Byte) (j : Nat) :
    (s.storeBytes a bs).readByte j = (s.writeBytes a bs).readByte j := by
  unfold State.storeBytes
  split <;> rfl

/-- A write of a byte keeps the memories' canonical form. -/
theorem State.writeByte_memWf (s : State) (a : Nat) (b : Byte) (h : s.memWf = true) : (s.writeByte a b).memWf = true := by
  simp only [State.memWf, Memory.wf, Bool.and_eq_true] at h ⊢
  exact ⟨tabWf_tabPut a b h.1, h.2⟩

/-- A write of bytes keeps the memories' canonical form. -/
theorem State.writeBytes_memWf (s : State) (a : Nat) (bs : List Byte) (h : s.memWf = true) : (s.writeBytes a bs).memWf = true := by
  induction bs generalizing s a with
  | nil => exact h
  | cons b r ih => exact ih _ _ (s.writeByte_memWf a b h)

/-- A store keeps the memories' canonical form. -/
theorem State.storeBytes_memWf (s : State) (a : Nat) (bs : List Byte) (h : s.memWf = true) : (s.storeBytes a bs).memWf = true := by
  unfold State.storeBytes
  split
  · exact s.writeBytes_memWf a bs h
  · exact s.writeBytes_memWf a bs h

/-- Reset lists nothing. -/
theorem State.reset_memWf : State.reset.memWf = true := by decide

/-- The fields that charging thread-clocks leaves. -/
@[simp] theorem State.charge_squads (s : State) (sq : Squad) (n : Nat) : (s.charge sq n).squads = s.squads := rfl

end Sys2Proof.Machine
end

