-- ==== Sys2Proof/Laws/Word.lean ====
section
/-!
SUPPORT. What the shared operations of the instruction words do.
-/
namespace Sys2Proof.Machine

/-- The squad of the clause in execution. -/
theorem State.current_find {s : State} {q : Nat} {sq : Squad} {e : Exec} (h : s.current = some (q, sq, e)) :
    tabFind s.squads q = some sq ∧ (s.lane s.focus).cur = some e ∧ e.squad = q := by
  unfold State.current at h
  split at h
  · simp at h
  · next e' he =>
    split at h
    · simp at h
    · next x hx =>
      simp only [Option.some.injEq, Prod.mk.injEq] at h
      obtain ⟨rfl, rfl, rfl⟩ := h
      exact ⟨hx, he, rfl⟩

/-- A word runs on the clause in execution. -/
theorem State.word_next {s : State} {q : Nat} {sq : Squad} {e : Exec} (h : s.current = some (q, sq, e))
    (f : Nat → Squad → Exec → State) : s.word f = .next (f q sq e) := by
  simp [State.word, h]

/-- R67. XSET is raised when some register lies in v32 to v63 and the lock is not held. -/
theorem State.xsetReg_none {s : State} {q : Nat} {sq : Squad} {rs : List Nat} :
    s.xsetReg q sq rs = none ↔ s.holdsLock q sq = true ∨ ∀ r ∈ rs, r < 32 := by
  unfold State.xsetReg
  by_cases h : s.holdsLock q sq = true
  · simp [h]
  · simp [h, List.find?_eq_none]

/-- A word that may name its registers runs. -/
theorem State.wordV_next {s : State} {q : Nat} {sq : Squad} {e : Exec} (h : s.current = some (q, sq, e)) {rs : List Nat}
    (hr : s.xsetReg q sq rs = none) (f : Nat → Squad → Exec → State) : s.wordV rs f = .next (f q sq e) := by
  simp [State.wordV, State.word, h, hr]

/-- A word that may not takes XSET. -/
theorem State.wordV_xset {s : State} {q : Nat} {sq : Squad} {e : Exec} (h : s.current = some (q, sq, e)) {rs : List Nat} {r : Nat}
    (hr : s.xsetReg q sq rs = some r) (f : Nat → Squad → Exec → State) :
    s.wordV rs f = .next (s.trapWord q sq e causeXset (BitVec.ofNat 64 r) 0) := by
  simp [State.wordV, State.word, h, hr]

/-- R27. A SYS word of privileged state runs. -/
theorem State.sysWord_next {s : State} {q : Nat} {sq : Squad} {e : Exec} (h : s.current = some (q, sq, e)) (hp : sq.priv = true)
    (f : Nat → Squad → Exec → State) : s.sysWord f = .next (f q sq e) := by
  simp [State.sysWord, State.word, h, hp]

/-- Charging changes only event counters. -/
theorem State.charge_eq (s : State) (sq : Squad) (n : Nat) :
    s.charge sq n = { s with cores := (s.charge sq n).cores, dieEvents := (s.charge sq n).dieEvents } := rfl

/-- R146. Of a core, an event moves only its counters. -/
theorem State.coreEvent_core (s : State) (c code n d : Nat) :
    (s.coreEvent c code n).core d =
      if d = c then { s.core c with events := (s.core c).events.map (fun p => (p.1, if p.2.en then p.2.add code n else p.2)) }
      else s.core d :=
  s.modCore_read c d (fun k => { k with events := k.events.map (fun p => (p.1, if p.2.en then p.2.add code n else p.2)) })

/-- The cores' other fields survive a charge. -/
theorem State.charge_core (s : State) (sq : Squad) (n c : Nat) :
    (s.charge sq n).core c = { s.core c with events := ((s.charge sq n).core c).events } := by
  unfold State.charge
  rw [State.coreEvent_core]
  split
  · next h => subst h; rfl
  · rfl

/-- Writing scalars, predicates and vector registers leaves the event counters, so a charge is the same before and after. -/
theorem State.charge_of_cores {s t : State} (hc : t.cores = s.cores) (hd : t.dieEvents = s.dieEvents) (sq : Squad) (n : Nat) :
    (t.charge sq n).cores = (s.charge sq n).cores ∧ (t.charge sq n).dieEvents = (s.charge sq n).dieEvents := by
  simp [State.charge, State.coreEvent, State.modCore, State.core, hc, hd]

/-! ### Vector registers -/

/-- What one write of a vector register leaves. -/
theorem State.writeV_frame (s : State) (q r t : Nat) (x : Reg) :
    s.writeV q r t x = { s with squads := (s.writeV q r t x).squads, pairs := (s.writeV q r t x).pairs } := by
  unfold State.writeV
  split
  · rfl
  · split <;> rfl

/-- The squads after one write of a vector register. -/
theorem State.writeV_find (s : State) {q : Nat} {sq : Squad} (h : tabFind s.squads q = some sq) (r t : Nat) (x : Reg) :
    tabFind (s.writeV q r t x).squads q = some (if r < 32 then { sq with v := tabPut 0 sq.v (32 * r + t) x } else sq) ∧
    ∀ p, p ≠ q → tabFind (s.writeV q r t x).squads p = tabFind s.squads p := by
  unfold State.writeV
  split
  · refine ⟨?_, fun p hp => ?_⟩ <;> rw [State.modSquad_find]
    · simp [h]
    · rw [if_neg hp]
  · simp [h]

/-- The pairs after one write of a vector register. -/
theorem State.writeV_pair (s : State) {q : Nat} {sq : Squad} (h : tabFind s.squads q = some sq) (r t : Nat) (x : Reg) (k : Nat) :
    (s.writeV q r t x).pair k =
      if ¬ r < 32 ∧ k = sq.pairOf then { s.pair k with v := tabPut 0 (s.pair k).v (32 * r + t) x } else s.pair k := by
  unfold State.writeV
  split
  · next hr => simp [hr]
  · next hr =>
    simp only [h]
    rw [State.modPair_read]
    by_cases hk : k = sq.pairOf
    · subst hk; simp [hr]
    · simp [hk]

/-- What several writes of one vector register leave, and what is read after them. -/
theorem State.writeVs_spec (s : State) {q : Nat} {sq : Squad} (h : tabFind s.squads q = some sq) (d : Nat) (hd : d < 64)
    (xs : List (Nat × Reg)) (hx : ∀ e ∈ xs, e.1 < 32) (hn : (xs.map (·.1)).Nodup) :
    ∃ sq', tabFind (s.writeVs q d xs).squads q = some sq' ∧
      (∀ p, p ≠ q → tabFind (s.writeVs q d xs).squads p = tabFind s.squads p) ∧
      sq' = { sq with v := sq'.v } ∧
      (∀ k, k ≠ sq.pairOf → (s.writeVs q d xs).pair k = s.pair k) ∧
      (s.writeVs q d xs).pair sq.pairOf = { s.pair sq.pairOf with v := ((s.writeVs q d xs).pair sq.pairOf).v } ∧
      s.writeVs q d xs = { s with squads := (s.writeVs q d xs).squads, pairs := (s.writeVs q d xs).pairs } ∧
      (∀ r < 64, r ≠ d → ∀ t < 32, (s.writeVs q d xs).readV sq' r t = s.readV sq r t) ∧
      (∀ e ∈ xs, (s.writeVs q d xs).readV sq' d e.1 = e.2) ∧
      (∀ t < 32, t ∉ xs.map (·.1) → (s.writeVs q d xs).readV sq' d t = s.readV sq d t) := by
  induction xs generalizing s sq with
  | nil => exact ⟨sq, h, fun _ _ => rfl, rfl, fun _ _ => rfl, rfl, rfl, fun _ _ _ _ _ => rfl, by simp, fun _ _ _ => rfl⟩
  | cons e r ih =>
    obtain ⟨th, x⟩ := e
    have ht : th < 32 := hx (th, x) (by simp)
    simp only [List.map_cons, List.nodup_cons] at hn
    have hf := s.writeV_find h d th x
    have hp := s.writeV_pair h d th x
    have hs := s.writeV_frame q d th x
    obtain ⟨sq', h1, h2, h3, h4, h5, h6, h7, h8, h9⟩ := ih (s.writeV q d th x) hf.1 (fun e he => hx e (by simp [he])) hn.2
    have hw : s.writeVs q d ((th, x) :: r) = (s.writeV q d th x).writeVs q d r := rfl
    have hpo : (if d < 32 then ({ sq with v := tabPut 0 sq.v (32 * d + th) x } : Squad) else sq).pairOf = sq.pairOf := by
      split <;> rfl
    rw [hpo] at h4 h5
    have hread : ∀ r' < 64, ∀ t < 32, (s.writeV q d th x).readV
        (if d < 32 then ({ sq with v := tabPut 0 sq.v (32 * d + th) x } : Squad) else sq) r' t =
        if r' = d ∧ t = th then x else s.readV sq r' t := by
      intro r' hr' t ht'
      unfold State.readV
      rw [hpo, hp]
      by_cases hd32 : d < 32
      · by_cases hr32 : r' < 32
        · simp only [hd32, hr32, if_true, tabGet_tabPut]
          by_cases hk : r' = d ∧ t = th
          · obtain ⟨rfl, rfl⟩ := hk; simp
          · rw [if_neg hk, if_neg (by omega)]
        · simp [hd32, hr32]; intro he; omega
      · by_cases hr32 : r' < 32
        · simp [hd32, hr32]; intro he; omega
        · simp only [hd32, hr32, if_false, not_false_eq_true, true_and, if_true, tabGet_tabPut]
          by_cases hk : r' = d ∧ t = th
          · obtain ⟨rfl, rfl⟩ := hk; simp
          · rw [if_neg hk, if_neg (by omega)]
    refine ⟨sq', hw ▸ h1, ?_, ?_, ?_, ?_, ?_, ?_, ?_, ?_⟩
    · intro p hp'; rw [hw, h2 p hp', hf.2 p hp']
    · rw [h3]; split <;> rfl
    · intro k hk; rw [hw, h4 k hk, hp, if_neg (by simp [hk])]
    · rw [hw, h5, hp]; split <;> rfl
    · rw [hw, h6, hs]
    · intro r' hr' hne t ht'
      rw [hw, h7 r' hr' hne t ht', hread r' hr' t ht', if_neg (by simp [hne])]
    · intro e he
      rcases List.mem_cons.1 he with he | he
      · subst he
        rw [hw, h9 th ht hn.1, hread d hd th ht]; simp
      · rw [hw, h8 e he]
    · intro t ht' hnm
      simp only [List.map_cons, List.mem_cons, not_or] at hnm
      rw [hw, h9 t ht' hnm.2, hread d hd t ht', if_neg (by simp [hnm.1])]

end Sys2Proof.Machine
end

