-- ==== Sys2Proof/Laws/Ran.lean ====
section
/-!
SUPPORT. What words leave that write one vector register, one predicate or one scalar.
-/
namespace Sys2Proof.Machine

/-- A word that charges and writes nothing. -/
theorem wordRan_charge (s : State) {q : Nat} {sq : Squad} (h : tabFind s.squads q = some sq) (n : Nat) :
    WordRan s (s.charge sq n) q sq sq n :=
  ⟨h, fun _ _ => rfl, fun _ _ => rfl, rfl, rfl, fun _ => rfl, rfl⟩

/-- A word that wrote vector register d in the threads of a list. -/
theorem vecRan_writeVs (s : State) {q : Nat} {sq : Squad} (h : tabFind s.squads q = some sq) {d : Nat} (hd : d < 64)
    (act : List Nat) (ha : ∀ t ∈ act, t < 32) (hn : act.Nodup) (val : Nat → Reg) (n : Nat) :
    ∃ sq', VecRan s ((s.writeVs q d (act.map (fun t => (t, val t)))).charge sq n) q sq sq' d n ∧
      ∀ t < 32, ((s.writeVs q d (act.map (fun t => (t, val t)))).charge sq n).readV sq' d t =
        if t ∈ act then val t else s.readV sq d t := by
  have hm : (act.map (fun t => (t, val t))).map (·.1) = act := by simp [Function.comp_def]
  obtain ⟨sq', h1, h2, h3, h4, h5, h6, h7, h8, h9⟩ := s.writeVs_spec h d hd (act.map (fun t => (t, val t)))
    (fun e he => by obtain ⟨t, ht, rfl⟩ := List.mem_map.1 he; exact ha t ht) (hm.symm ▸ hn)
  rw [hm] at h9
  generalize s.writeVs q d (act.map (fun t => (t, val t))) = u at h1 h2 h4 h5 h6 h7 h8 h9
  have hc : u.cores = s.cores := by rw [h6]
  have hde : u.dieEvents = s.dieEvents := by rw [h6]
  have hch := State.charge_of_cores hc hde sq n
  refine ⟨sq', ⟨⟨h1, h2, h4, hch.1, hch.2, fun a => ?_, ?_⟩, h3, h5, h7⟩, fun t ht => ?_⟩
  · show u.readByte a = s.readByte a
    rw [h6]; rfl
  · rw [State.charge_eq, h6]
  · show u.readV sq' d t = _
    split
    · next hin => exact h8 (t, val t) (List.mem_map.2 ⟨t, hin, rfl⟩)
    · next hin => exact h9 t ht hin

/-- What several writes of one predicate leave, and what is read after them. -/
theorem State.writePs_spec (s : State) {q : Nat} {sq : Squad} (h : tabFind s.squads q = some sq) (p : Nat)
    (xs : List (Nat × Byte)) (hx : ∀ e ∈ xs, e.1 < 32) (hn : (xs.map (·.1)).Nodup) :
    ∃ sq', tabFind (s.writePs q p xs).squads q = some sq' ∧
      (∀ r, r ≠ q → tabFind (s.writePs q p xs).squads r = tabFind s.squads r) ∧
      sq' = { sq with pr := sq'.pr } ∧
      s.writePs q p xs = { s with squads := (s.writePs q p xs).squads } ∧
      (∀ r, r ≠ p ∨ r = 0 → ∀ t < 32, sq'.readP r t = sq.readP r t) ∧
      (p ≠ 0 → ∀ e ∈ xs, sq'.readP p e.1 = e.2) ∧
      (∀ t < 32, t ∉ xs.map (·.1) → sq'.readP p t = sq.readP p t) := by
  induction xs generalizing s sq with
  | nil => exact ⟨sq, h, fun _ _ => rfl, rfl, rfl, fun _ _ _ _ => rfl, by simp, fun _ _ _ => rfl⟩
  | cons e r ih =>
    obtain ⟨th, x⟩ := e
    have ht : th < 32 := hx (th, x) (by simp)
    simp only [List.map_cons, List.nodup_cons] at hn
    have hw : s.writePs q p ((th, x) :: r) = (s.writeP q p th x).writePs q p r := rfl
    by_cases hp0 : p = 0
    · subst hp0
      have hz : s.writeP q 0 th x = s := rfl
      rw [hz] at hw
      obtain ⟨sq', h1, h2, h3, h4, h5, h6, h7⟩ := ih s h (fun e he => hx e (by simp [he])) hn.2
      refine ⟨sq', hw ▸ h1, fun r' hr' => by rw [hw, h2 r' hr'], h3, by rw [hw]; exact h4, h5, by simp, fun t ht' _ => ?_⟩
      exact h5 0 (Or.inr rfl) t ht'
    · have hf : s.writeP q p th x = s.modSquad q (fun sq => { sq with pr := tabPut 0 sq.pr (32 * p + th) x }) := by
        simp [State.writeP, hp0]
      have hq : tabFind (s.writeP q p th x).squads q = some { sq with pr := tabPut 0 sq.pr (32 * p + th) x } := by
        rw [hf, State.modSquad_find]; simp [h]
      obtain ⟨sq', h1, h2, h3, h4, h5, h6, h7⟩ := ih (s.writeP q p th x) hq (fun e he => hx e (by simp [he])) hn.2
      have hread : ∀ r' t, t < 32 → ({ sq with pr := tabPut 0 sq.pr (32 * p + th) x } : Squad).readP r' t =
          if r' = p ∧ t = th then x else sq.readP r' t := by
        intro r' t ht'
        unfold Squad.readP
        by_cases hr0 : r' = 0
        · have hk : ¬ (r' = p ∧ t = th) := by omega
          rw [if_pos hr0, if_neg hk, if_pos hr0]
        · simp only [hr0, if_false, tabGet_tabPut]
          by_cases hk : r' = p ∧ t = th
          · obtain ⟨rfl, rfl⟩ := hk; simp
          · rw [if_neg hk, if_neg (by omega)]
      refine ⟨sq', hw ▸ h1, fun r' hr' => ?_, ?_, ?_, fun r' hr' t ht' => ?_, fun _ e he => ?_, fun t ht' hnm => ?_⟩
      · rw [hw, h2 r' hr', hf, State.modSquad_find, if_neg hr']
      · rw [h3]
      · rw [hw, h4, hf]; rfl
      · rw [h5 r' hr' t ht', hread r' t ht', if_neg]
        rcases hr' with hr' | hr' <;> omega
      · rcases List.mem_cons.1 he with he | he
        · subst he
          rw [h7 th ht hn.1, hread p th ht]; simp
        · exact h6 hp0 e he
      · simp only [List.map_cons, List.mem_cons, not_or] at hnm
        rw [h7 t ht' hnm.2, hread p t ht', if_neg (by simp [hnm.1])]

/-- A word that wrote predicate p in the threads of a list. -/
theorem predRan_writePs (s : State) {q : Nat} {sq : Squad} (h : tabFind s.squads q = some sq) (p : Nat)
    (act : List Nat) (ha : ∀ t ∈ act, t < 32) (hn : act.Nodup) (val : Nat → Byte) (n : Nat) :
    ∃ sq', PredRan s ((s.writePs q p (act.map (fun t => (t, val t)))).charge sq n) q sq sq' p n ∧
      ∀ t < 32, sq'.readP p t = if p ≠ 0 ∧ t ∈ act then val t else sq.readP p t := by
  have hm : (act.map (fun t => (t, val t))).map (·.1) = act := by simp [Function.comp_def]
  obtain ⟨sq', h1, h2, h3, h4, h5, h6, h7⟩ := s.writePs_spec h p (act.map (fun t => (t, val t)))
    (fun e he => by obtain ⟨t, ht, rfl⟩ := List.mem_map.1 he; exact ha t ht) (hm.symm ▸ hn)
  rw [hm] at h7
  generalize s.writePs q p (act.map (fun t => (t, val t))) = u at h1 h2 h4
  have hch := State.charge_of_cores (s := s) (t := u) (by rw [h4]) (by rw [h4]) sq n
  refine ⟨sq', ⟨⟨h1, h2, fun k _ => ?_, hch.1, hch.2, fun a => ?_, ?_⟩, h3, ?_, fun r _ => h5 r⟩, fun t ht => ?_⟩
  · show u.pair k = s.pair k
    rw [h4]; rfl
  · show u.readByte a = s.readByte a
    rw [h4]; rfl
  · rw [State.charge_eq, h4]
  · show u.pair sq.pairOf = s.pair sq.pairOf
    rw [h4]; rfl
  · split
    · next hc => exact h6 hc.1 (t, val t) (List.mem_map.2 ⟨t, hc.2, rfl⟩)
    · next hc =>
      by_cases hp : p = 0
      · exact h5 p (Or.inr hp) t ht
      · exact h7 t ht (fun hin => hc ⟨hp, hin⟩)

/-- A word that wrote scalar d. -/
theorem scalarRan_writeS (s : State) {q : Nat} {sq : Squad} (h : tabFind s.squads q = some sq) (d : Nat) (x : Reg) :
    ∃ sq', ScalarRan s ((s.writeS q d x).charge sq 1) q sq sq' d ∧ sq'.readS d = if d = 0 then 0 else x := by
  by_cases hd : d = 0
  · subst hd
    exact ⟨sq, ⟨wordRan_charge s h 1, rfl, rfl, fun _ _ => rfl⟩, rfl⟩
  · have hf : s.writeS q d x = s.modSquad q (fun sq => { sq with sc := tabPut 0 sq.sc d x }) := by simp [State.writeS, hd]
    rw [hf]
    have hch := State.charge_of_cores (s := s) (t := s.modSquad q (fun sq => { sq with sc := tabPut 0 sq.sc d x })) rfl rfl sq 1
    refine ⟨{ sq with sc := tabPut 0 sq.sc d x }, ⟨⟨?_, fun p hp => ?_, fun _ _ => rfl, hch.1, hch.2, fun _ => rfl, rfl⟩, rfl, rfl,
      fun r hr => ?_⟩, ?_⟩
    · show tabFind (s.modSquad q _).squads q = _
      rw [State.modSquad_find]; simp [h]
    · show tabFind (s.modSquad q _).squads p = _
      rw [State.modSquad_find, if_neg hp]
    · unfold Squad.readS
      by_cases hr0 : r = 0
      · simp [hr0]
      · simp only [hr0, if_false]
        exact tabGet_tabPut_ne 0 0 sq.sc x (by omega)
    · simp [Squad.readS, hd]

end Sys2Proof.Machine
end

