-- ==== Sys2Proof/Laws/Vec.lean ====
section
/-!
SUPPORT. What the shared operations of the VEC class do (R77, R86, R87, R88, R90, R92).
-/
namespace Sys2Proof.Machine

/-- The threads of an E-kind word with an enabled sub-element. -/
theorem mem_activeE {sq : Squad} {e : Exec} {g : BitVec 4} {n : BitVec 1} {W k th : Nat} (ht : th < 32) :
    th ∈ sq.activeE e g n W k ↔ inMask e.mask th = true ∧ ∃ j < k, elemOn W (sq.guard g n th) j = true := by
  simp [Squad.activeE, mem_threads, ht]

/-- The enabled threads of a T-kind word. -/
theorem mem_activeT {sq : Squad} {e : Exec} {g : BitVec 4} {n : BitVec 1} {th : Nat} (ht : th < 32) :
    th ∈ sq.activeT e g n ↔ sq.enabledT e g n th = true := by
  simp [Squad.activeT, mem_threads, ht]

/-- The active threads are threads, each listed once. -/
theorem activeE_threads {sq : Squad} {e : Exec} {g : BitVec 4} {n : BitVec 1} {W k : Nat} :
    (∀ t ∈ sq.activeE e g n W k, t < 32) ∧ (sq.activeE e g n W k).Nodup :=
  ⟨fun _ ht => mem_threads.1 (List.mem_filter.1 ht).1, nodup_threads _⟩

/-- The active threads are threads, each listed once. -/
theorem activeT_threads {sq : Squad} {e : Exec} {g : BitVec 4} {n : BitVec 1} :
    (∀ t ∈ sq.activeT e g n, t < 32) ∧ (sq.activeT e g n).Nodup :=
  ⟨fun _ ht => mem_threads.1 (List.mem_filter.1 ht).1, nodup_threads _⟩

/-- The threads in the clause are threads, each listed once. -/
theorem maskThreads_threads {m : Word} : (∀ t ∈ maskThreads m, t < 32) ∧ (maskThreads m).Nodup :=
  ⟨fun _ ht => mem_threads.1 (List.mem_filter.1 ht).1, nodup_threads _⟩

/-- R77. An E-kind word that writes `f` into the enabled sub-elements of vector register d. -/
theorem elemWrite_ran {s : State} {q : Nat} {sq : Squad} (h : tabFind s.squads q = some sq) (e : Exec) (W k : Nat) (hk : W * k ≤ 64)
    (g : BitVec 4) (n : BitVec 1) (d : BitVec 6) (f : Nat → Nat → Nat) :
    ∃ sq', VecRan s ((s.writeVs q d.toNat ((sq.activeE e g n W k).map (fun t =>
        (t, elemUpdate W k (sq.guard g n t) (s.readV sq d.toNat t) (f t))))).charge sq (sq.activeE e g n W k).length) q sq sq' d.toNat
        (sq.activeE e g n W k).length ∧
      ∀ th < 32, ∀ j < k, subGet W (((s.writeVs q d.toNat ((sq.activeE e g n W k).map (fun t =>
        (t, elemUpdate W k (sq.guard g n t) (s.readV sq d.toNat t) (f t))))).charge sq (sq.activeE e g n W k).length).readV sq'
          d.toNat th) j =
        if inMask e.mask th && elemOn W (sq.guard g n th) j then f th j % 2 ^ W else subGet W (s.readV sq d.toNat th) j := by
  obtain ⟨sq', hv, hval⟩ := vecRan_writeVs s h d.isLt (sq.activeE e g n W k) activeE_threads.1 activeE_threads.2
    (fun t => elemUpdate W k (sq.guard g n t) (s.readV sq d.toNat t) (f t)) (sq.activeE e g n W k).length
  refine ⟨sq', hv, fun th hth j hj => ?_⟩
  rw [hval th hth]
  by_cases hin : inMask e.mask th = true
  · by_cases he : elemOn W (sq.guard g n th) j = true
    · rw [if_pos ((mem_activeE hth).2 ⟨hin, j, hj, he⟩), subGet_elemUpdate _ _ _ _ _ _ hk hj]
      simp [hin, he]
    · rw [Bool.not_eq_true] at he
      simp only [he, Bool.and_false, Bool.false_eq_true, if_false]
      split
      · rw [subGet_elemUpdate _ _ _ _ _ _ hk hj]; simp [he]
      · rfl
  · rw [if_neg (fun hm => hin ((mem_activeE hth).1 hm).1)]
    simp [hin]

/-- R77, R81. An E-kind word of sources a and b. -/
theorem State.vecBinary_ran {s : State} {q : Nat} {sq : Squad} {e : Exec} (h : s.current = some (q, sq, e)) {W : Nat} (hW : W * (64 / W) ≤ 64)
    (g : BitVec 4) (n m : BitVec 1) (d a b : BitVec 6) (f : Nat → Nat → Nat)
    (hr : s.mayName q sq (a.toNat :: regsB m b ++ [d.toNat])) :
    ∃ t sq', s.vecBinary W g n m d a b f = .next t ∧ VecRan s t q sq sq' d.toNat (sq.activeE e g n W (64 / W)).length ∧
      ∀ th < 32, ∀ j < 64 / W, subGet W (t.readV sq' d.toNat th) j =
        if inMask e.mask th && elemOn W (sq.guard g n th) j then
          f (subGet W (s.readV sq a.toNat th) j) (subGet W (s.srcB sq m b th) j) % 2 ^ W
        else subGet W (s.readV sq d.toNat th) j := by
  unfold State.vecBinary
  rw [State.wordV_next h (State.xsetReg_none.2 hr)]
  obtain ⟨sq', h1, h2⟩ := elemWrite_ran (State.current_find h).1 e W (64 / W) hW g n d
    (fun th j => f (subGet W (s.readV sq a.toNat th) j) (subGet W (s.srcB sq m b th) j))
  exact ⟨_, sq', rfl, h1, h2⟩

/-- R83. An E-kind word of sources a, b and d. -/
theorem State.vecTernary_ran {s : State} {q : Nat} {sq : Squad} {e : Exec} (h : s.current = some (q, sq, e)) {W : Nat} (hW : W * (64 / W) ≤ 64)
    (g : BitVec 4) (n m : BitVec 1) (d a b : BitVec 6) (f : Nat → Nat → Nat → Nat)
    (hr : s.mayName q sq (a.toNat :: regsB m b ++ [d.toNat])) :
    ∃ t sq', s.vecTernary W g n m d a b f = .next t ∧ VecRan s t q sq sq' d.toNat (sq.activeE e g n W (64 / W)).length ∧
      ∀ th < 32, ∀ j < 64 / W, subGet W (t.readV sq' d.toNat th) j =
        if inMask e.mask th && elemOn W (sq.guard g n th) j then
          f (subGet W (s.readV sq a.toNat th) j) (subGet W (s.srcB sq m b th) j) (subGet W (s.readV sq d.toNat th) j) % 2 ^ W
        else subGet W (s.readV sq d.toNat th) j := by
  unfold State.vecTernary
  rw [State.wordV_next h (State.xsetReg_none.2 hr)]
  obtain ⟨sq', h1, h2⟩ := elemWrite_ran (State.current_find h).1 e W (64 / W) hW g n d
    (fun th j => f (subGet W (s.readV sq a.toNat th) j) (subGet W (s.srcB sq m b th) j) (subGet W (s.readV sq d.toNat th) j))
  exact ⟨_, sq', rfl, h1, h2⟩

/-- R77. An E-kind word of source a. -/
theorem State.vecUnary_ran {s : State} {q : Nat} {sq : Squad} {e : Exec} (h : s.current = some (q, sq, e)) {W : Nat} (hW : W * (64 / W) ≤ 64)
    (g : BitVec 4) (n : BitVec 1) (d a : BitVec 6) (f : Nat → Nat) (hr : s.mayName q sq [a.toNat, d.toNat]) :
    ∃ t sq', s.vecUnary W g n d a f = .next t ∧ VecRan s t q sq sq' d.toNat (sq.activeE e g n W (64 / W)).length ∧
      ∀ th < 32, ∀ j < 64 / W, subGet W (t.readV sq' d.toNat th) j =
        if inMask e.mask th && elemOn W (sq.guard g n th) j then f (subGet W (s.readV sq a.toNat th) j) % 2 ^ W
        else subGet W (s.readV sq d.toNat th) j := by
  unfold State.vecUnary
  rw [State.wordV_next h (State.xsetReg_none.2 hr)]
  obtain ⟨sq', h1, h2⟩ := elemWrite_ran (State.current_find h).1 e W (64 / W) hW g n d
    (fun th j => f (subGet W (s.readV sq a.toNat th) j))
  exact ⟨_, sq', rfl, h1, h2⟩

/-- R84. An E-kind word whose value in a thread is given. -/
theorem State.vecMove_ran {s : State} {q : Nat} {sq : Squad} {e : Exec} (h : s.current = some (q, sq, e)) {W : Nat} (hW : W * (64 / W) ≤ 64)
    (g : BitVec 4) (n : BitVec 1) (d : BitVec 6) (rs : List Nat) (f : Squad → Nat → Reg) (hr : s.mayName q sq (rs ++ [d.toNat])) :
    ∃ t sq', s.vecMove W g n d rs f = .next t ∧ VecRan s t q sq sq' d.toNat (sq.activeE e g n W (64 / W)).length ∧
      ∀ th < 32, ∀ j < 64 / W, subGet W (t.readV sq' d.toNat th) j =
        if inMask e.mask th && elemOn W (sq.guard g n th) j then subGet W (f sq th) j else subGet W (s.readV sq d.toNat th) j := by
  unfold State.vecMove
  rw [State.wordV_next h (State.xsetReg_none.2 hr)]
  obtain ⟨sq', h1, h2⟩ := elemWrite_ran (State.current_find h).1 e W (64 / W) hW g n d (fun th j => subGet W (f sq th) j)
  refine ⟨_, sq', rfl, h1, fun th hth j hj => ?_⟩
  rw [h2 th hth j hj, Nat.mod_eq_of_lt (subGet_lt _ _ _)]

/-- R59. The bits of a predicate after the enabled sub-elements, of 8 k bits each, wrote their results. -/
theorem predUpdate_getLsbD (k : Nat) (hk : 0 < k) (hk8 : k * (8 / k) = 8) (gb old : Byte) (f : Nat → Bool) (b : Nat) (hb : b < 8) :
    (predUpdate (8 * k) gb old f).getLsbD b = if gb.getLsbD (b / k * k) then f (b / k) else old.getLsbD b := by
  have hn : 64 / (8 * k) = 8 / k := by rw [← Nat.div_div_eq_div_mul]
  have he : ∀ j, elemOn (8 * k) gb j = gb.getLsbD (j * k) := by
    intro j
    unfold elemOn
    congr 1
    rw [Nat.mul_left_comm, Nat.mul_div_cancel_left _ (by omega)]
  have hm : ∀ j, (BitVec.ofNat 8 ((2 ^ (8 * k / 8) - 1) * 2 ^ (j * (8 * k) / 8))).getLsbD b = decide (b / k = j) := by
    intro j
    rw [Nat.mul_div_cancel_left _ (by omega : 0 < 8), Nat.mul_left_comm, Nat.mul_div_cancel_left _ (by omega : 0 < 8),
      BitVec.getLsbD_ofNat, Nat.testBit_mul_two_pow, Nat.testBit_two_pow_sub_one]
    have hd := Nat.div_add_mod b k
    have hr := Nat.mod_lt b hk
    by_cases hj : b / k = j
    · subst hj
      have h1 : b / k * k ≤ b := Nat.div_mul_le_self b k
      have h2 : b - b / k * k < k := by rw [Nat.mul_comm]; omega
      simp [hb, h1, h2]
    · by_cases h1 : j * k ≤ b
      · have h2 : ¬ b - j * k < k := by
          intro h2
          apply hj
          refine Nat.div_eq_of_lt_le h1 ?_
          rw [Nat.succ_mul]; omega
        simp [h2, hj]
      · simp [h1, hj]
  have main : ∀ m, ((List.range m).foldl (fun acc j =>
      if elemOn (8 * k) gb j then
        let m : Byte := BitVec.ofNat 8 ((2 ^ (8 * k / 8) - 1) * 2 ^ (j * (8 * k) / 8))
        if f j then acc ||| m else acc &&& ~~~ m
      else acc) old).getLsbD b = if b / k < m ∧ gb.getLsbD (b / k * k) then f (b / k) else old.getLsbD b := by
    intro m
    induction m with
    | zero => simp
    | succ m ih =>
      rw [List.range_succ, List.foldl_append]
      simp only [List.foldl_cons, List.foldl_nil]
      by_cases hg : elemOn (8 * k) gb m
      · rw [if_pos hg]
        rw [he] at hg
        by_cases hjm : b / k = m
        · have hmk := hm m
          split
          · next hf => rw [BitVec.getLsbD_or, hmk]; simp [hjm, hg, hf]
          · next hf => rw [BitVec.getLsbD_and, BitVec.getLsbD_not, hmk]; simp [hjm, hg, hf, hb]
        · have hmk := hm m
          have hlt : b / k < m + 1 ↔ b / k < m := by omega
          simp only [hlt]
          rw [← ih]
          split
          · rw [BitVec.getLsbD_or, hmk]; simp [hjm]
          · rw [BitVec.getLsbD_and, BitVec.getLsbD_not, hmk]; simp [hjm, hb]
      · rw [if_neg hg, ih]
        rw [he, Bool.not_eq_true] at hg
        by_cases hjm : b / k = m
        · subst hjm; simp [hg]
        · have hlt : b / k < m + 1 ↔ b / k < m := by omega
          simp only [hlt]
  have hbk : b / k < 8 / k := by
    rcases Nat.lt_or_ge (b / k) (8 / k) with h | h
    · exact h
    · have h1 := Nat.mul_le_mul_left k h
      have h2 := Nat.mul_div_le b k
      omega
  unfold predUpdate
  rw [hn, main]
  simp [hbk]

/-- R86. A compare. -/
theorem State.vecCompare_ran {s : State} {q : Nat} {sq : Squad} {e : Exec} (h : s.current = some (q, sq, e)) {k : Nat} (hk : 0 < k)
    (hk8 : k * (8 / k) = 8) (g : BitVec 4) (n : BitVec 1) (p : BitVec 7) (a b : BitVec 6) (f : Nat → Nat → Bool)
    (hr : s.mayName q sq [a.toNat, b.toNat]) :
    ∃ t sq', s.vecCompare (8 * k) g n p a b f = .next t ∧
      PredRan s t q sq sq' p.toNat (sq.activeE e g n (8 * k) (64 / (8 * k))).length ∧
      ∀ th < 32, ∀ i < 8, (sq'.readP p.toNat th).getLsbD i =
        if p ≠ 0 ∧ inMask e.mask th ∧ (sq.guard g n th).getLsbD (i / k * k) then
          f (subGet (8 * k) (s.readV sq a.toNat th) (i / k)) (subGet (8 * k) (s.readV sq b.toNat th) (i / k))
        else (sq.readP p.toNat th).getLsbD i := by
  unfold State.vecCompare
  rw [State.wordV_next h (State.xsetReg_none.2 hr)]
  obtain ⟨sq', h1, h2⟩ := predRan_writePs s (State.current_find h).1 p.toNat (sq.activeE e g n (8 * k) (64 / (8 * k)))
    activeE_threads.1 activeE_threads.2
    (fun t => predUpdate (8 * k) (sq.guard g n t) (sq.readP p.toNat t)
      (fun j => f (subGet (8 * k) (s.readV sq a.toNat t) j) (subGet (8 * k) (s.readV sq b.toNat t) j)))
    (sq.activeE e g n (8 * k) (64 / (8 * k))).length
  refine ⟨_, sq', rfl, h1, fun th hth i hi => ?_⟩
  rw [h2 th hth]
  have hp : p.toNat ≠ 0 ↔ p ≠ 0 := by
    constructor
    · rintro hp rfl; exact hp rfl
    · intro hp h0; exact hp (BitVec.eq_of_toNat_eq h0)
  have hn : 64 / (8 * k) = 8 / k := by rw [← Nat.div_div_eq_div_mul]
  have hik : i / k < 64 / (8 * k) := by
    rw [hn]
    rcases Nat.lt_or_ge (i / k) (8 / k) with h | h
    · exact h
    · have h1 := Nat.mul_le_mul_left k h
      have h2 := Nat.mul_div_le i k
      omega
  have he : elemOn (8 * k) (sq.guard g n th) (i / k) = (sq.guard g n th).getLsbD (i / k * k) := by
    unfold elemOn
    congr 1
    rw [Nat.mul_left_comm, Nat.mul_div_cancel_left _ (by omega)]
  by_cases hin : p.toNat ≠ 0 ∧ th ∈ sq.activeE e g n (8 * k) (64 / (8 * k))
  · rw [if_pos hin, predUpdate_getLsbD k hk hk8 _ _ _ _ hi]
    have hp0 : ¬ p = 0#7 := hp.1 hin.1
    simp [hp0, ((mem_activeE hth).1 hin.2).1]
  · rw [if_neg hin]
    by_cases hc : p ≠ 0 ∧ inMask e.mask th ∧ (sq.guard g n th).getLsbD (i / k * k)
    · exact absurd ⟨hp.2 hc.1, (mem_activeE hth).2 ⟨hc.2.1, i / k, hik, by rw [he]; exact hc.2.2⟩⟩ hin
    · rw [if_neg hc]

/-- R87. Predicate logic. -/
theorem State.predLogic_ran {s : State} {q : Nat} {sq : Squad} {e : Exec} (h : s.current = some (q, sq, e))
    (g : BitVec 4) (n : BitVec 1) (p : BitVec 7) (a b : BitVec 6) (f : Byte → Byte → Byte) :
    ∃ t sq', s.predLogic g n p a b f = .next t ∧ PredRan s t q sq sq' p.toNat (sq.activeE e g n 8 8).length ∧
      ∀ th < 32, ∀ i < 8, (sq'.readP p.toNat th).getLsbD i =
        if p ≠ 0 ∧ inMask e.mask th ∧ (sq.guard g n th).getLsbD i then (f (sq.readP a.toNat th) (sq.readP b.toNat th)).getLsbD i
        else (sq.readP p.toNat th).getLsbD i := by
  unfold State.predLogic
  rw [State.word_next h]
  obtain ⟨sq', h1, h2⟩ := predRan_writePs s (State.current_find h).1 p.toNat (sq.activeE e g n 8 8)
    activeE_threads.1 activeE_threads.2
    (fun t => (sq.readP p.toNat t &&& ~~~ sq.guard g n t) ||| (f (sq.readP a.toNat t) (sq.readP b.toNat t) &&& sq.guard g n t))
    (sq.activeE e g n 8 8).length
  refine ⟨_, sq', rfl, h1, fun th hth i hi => ?_⟩
  rw [h2 th hth]
  have hp : p.toNat ≠ 0 ↔ p ≠ 0 := by
    constructor
    · rintro hp rfl; exact hp rfl
    · intro hp h0; exact hp (BitVec.eq_of_toNat_eq h0)
  by_cases hin : p.toNat ≠ 0 ∧ th ∈ sq.activeE e g n 8 8
  · rw [if_pos hin, BitVec.getLsbD_or, BitVec.getLsbD_and, BitVec.getLsbD_and, BitVec.getLsbD_not]
    have hp0 : ¬ p = 0#7 := hp.1 hin.1
    have hm := ((mem_activeE hth).1 hin.2).1
    cases hg : (sq.guard g n th).getLsbD i <;> simp [hp0, hm, hi]
  · rw [if_neg hin]
    by_cases hc : p ≠ 0 ∧ inMask e.mask th ∧ (sq.guard g n th).getLsbD i
    · exact absurd ⟨hp.2 hc.1, (mem_activeE hth).2 ⟨hc.2.1, i, hi, by simpa [elemOn] using hc.2.2⟩⟩ hin
    · rw [if_neg hc]

/-- R88. A scalar form. -/
theorem State.scalarOp_ran {s : State} {q : Nat} {sq : Squad} {e : Exec} (h : s.current = some (q, sq, e)) (d : BitVec 6)
    (f : Squad → Reg) :
    ∃ t sq', s.scalarOp d f = .next t ∧ ScalarRan s t q sq sq' d.toNat ∧ sq'.readS d.toNat = if d = 0 then 0 else f sq := by
  unfold State.scalarOp
  rw [State.word_next h]
  obtain ⟨sq', h1, h2⟩ := scalarRan_writeS s (State.current_find h).1 d.toNat (f sq)
  refine ⟨_, sq', rfl, h1, ?_⟩
  rw [h2]
  by_cases hd : d = 0
  · subst hd; rfl
  · rw [if_neg hd, if_neg]
    intro h0
    exact hd (BitVec.eq_of_toNat_eq h0)

end Sys2Proof.Machine
end

