-- ==== Sys2Proof/Laws/Cross.lean ====
section
/-!
SUPPORT. What the shared operations do that write registers of two kinds: cross-thread reads, reductions, scans and
floating-point words (R90, R92, R107, R110, R112).
-/
namespace Sys2Proof.Machine

/-- Vector register d in some threads, then predicate p in some threads. -/
theorem vecPred_ran {s : State} {q : Nat} {sq : Squad} (h : tabFind s.squads q = some sq) {d : Nat} (hd : d < 64) (p : Nat)
    (act act' : List Nat) (ha : ∀ t ∈ act, t < 32) (hn : act.Nodup) (ha' : ∀ t ∈ act', t < 32) (hn' : act'.Nodup)
    (val : Nat → Reg) (bit : Nat → Byte) (n : Nat) :
    ∃ sq', RegRan s (((s.writeVs q d (act.map (fun t => (t, val t)))).writePs q p (act'.map (fun t => (t, bit t)))).charge sq n)
        q sq sq' [d] [p] [] false n ∧
      (∀ t < 32, (((s.writeVs q d (act.map (fun t => (t, val t)))).writePs q p (act'.map (fun t => (t, bit t)))).charge sq n).readV
        sq' d t = if t ∈ act then val t else s.readV sq d t) ∧
      ∀ t < 32, sq'.readP p t = if p ≠ 0 ∧ t ∈ act' then bit t else sq.readP p t := by
  have hm : (act.map (fun t => (t, val t))).map (·.1) = act := by simp [Function.comp_def]
  have hm' : (act'.map (fun t => (t, bit t))).map (·.1) = act' := by simp [Function.comp_def]
  obtain ⟨sq1, h1, h2, h3, h4, h5, h6, h7, h8, h9⟩ := s.writeVs_spec h d hd (act.map (fun t => (t, val t)))
    (fun e he => by obtain ⟨t, ht, rfl⟩ := List.mem_map.1 he; exact ha t ht) (hm.symm ▸ hn)
  rw [hm] at h9
  generalize hu : s.writeVs q d (act.map (fun t => (t, val t))) = u at h1 h2 h4 h5 h6 h7 h8 h9
  obtain ⟨sq2, g1, g2, g3, g4, g5, g6, g7⟩ := u.writePs_spec h1 p (act'.map (fun t => (t, bit t)))
    (fun e he => by obtain ⟨t, ht, rfl⟩ := List.mem_map.1 he; exact ha' t ht) (hm'.symm ▸ hn')
  rw [hm'] at g7
  generalize hv : u.writePs q p (act'.map (fun t => (t, bit t))) = v at g1 g2 g4
  have hpo : sq2.pairOf = sq1.pairOf := by rw [g3]; rfl
  have hrd : ∀ r t, v.readV sq2 r t = u.readV sq1 r t := by
    intro r t
    unfold State.readV
    rw [hpo, g4, g3]
    rfl
  have hps : ∀ r t, sq1.readP r t = sq.readP r t := by intro r t; rw [h3]; rfl
  have hch := State.charge_of_cores (s := s) (t := v) (by rw [g4, h6]) (by rw [g4, h6]) sq n
  refine ⟨sq2, ⟨⟨g1, fun r hr => ?_, fun k hk => ?_, hch.1, hch.2, fun a => ?_, ?_⟩, ?_, ?_, fun r hr hnm t ht => ?_,
    fun r _ hr t ht => ?_, fun r _ => ?_, fun _ => ?_⟩, fun t ht => ?_, fun t ht => ?_⟩
  · show tabFind v.squads r = _
    rw [g2 r hr, h2 r hr]
  · show v.pair k = _
    have : v.pair k = u.pair k := by rw [g4]; rfl
    rw [this, h4 k hk]
  · show v.readByte a = s.readByte a
    rw [g4, h6]; rfl
  · rw [State.charge_eq, g4, h6]
  · rw [g3, h3]
  · show v.pair sq.pairOf = { s.pair sq.pairOf with v := (v.pair sq.pairOf).v }
    have : v.pair sq.pairOf = u.pair sq.pairOf := by rw [g4]; rfl
    rw [this]; exact h5
  · show v.readV sq2 r t = _
    rw [hrd, h7 r hr (by simpa using hnm) t ht]
  · rw [g5 r (by simpa using hr) t ht, hps]
  · rw [g3, h3]; rfl
  · rw [g3, h3]
  · show v.readV sq2 d t = _
    rw [hrd]
    split
    · next hin => exact h8 (t, val t) (List.mem_map.2 ⟨t, hin, rfl⟩)
    · next hin => exact h9 t ht hin
  · split
    · next hc => exact g6 hc.1 (t, bit t) (List.mem_map.2 ⟨t, hc.2, rfl⟩)
    · next hc =>
      by_cases hp : p = 0
      · rw [g5 p (Or.inr hp) t ht, hps]
      · rw [g7 t ht (fun hin => hc ⟨hp, hin⟩), hps]

/-- Scalar d, then predicate p in all threads. -/
theorem scalarPred_ran {s : State} {q : Nat} {sq : Squad} (h : tabFind s.squads q = some sq) (d : Nat) (x : Reg) (p : Nat)
    (bit : Byte) (n : Nat) :
    ∃ sq', RegRan s (((s.writeS q d x).writePAll q p bit).charge sq n) q sq sq' [] [p] [d] false n ∧
      (sq'.readS d = if d = 0 then 0 else x) ∧
      ∀ t < 32, sq'.readP p t = if p ≠ 0 then bit else sq.readP p t := by
  have hone : ∃ sq1, tabFind (s.writeS q d x).squads q = some sq1 ∧ (∀ r, r ≠ q → tabFind (s.writeS q d x).squads r = tabFind s.squads r) ∧
      sq1 = { sq with sc := sq1.sc } ∧ s.writeS q d x = { s with squads := (s.writeS q d x).squads } ∧
      (∀ r, r ≠ d ∨ r = 0 → sq1.readS r = sq.readS r) ∧ sq1.readS d = if d = 0 then 0 else x := by
    obtain ⟨sq1, hs, hv⟩ := scalarRan_writeS s h d x
    refine ⟨sq1, hs.ran.squad, hs.ran.others, hs.squad, ?_, hs.scalars, hv⟩
    unfold State.writeS
    split <;> rfl
  obtain ⟨sq1, h1, h2, h3, h4, h5, h6⟩ := hone
  generalize s.writeS q d x = u at h1 h2 h4
  have hm : (threads.map (fun t => (t, bit))).map (·.1) = threads := by simp [Function.comp_def]
  obtain ⟨sq2, g1, g2, g3, g4, g5, g6, g7⟩ := u.writePs_spec h1 p (threads.map (fun t => (t, bit)))
    (fun e he => by obtain ⟨t, ht, rfl⟩ := List.mem_map.1 he; exact mem_threads.1 ht)
    (by rw [hm]; exact List.nodup_range)
  have hpa : u.writePAll q p bit = u.writePs q p (threads.map (fun t => (t, bit))) := rfl
  rw [hpa]
  generalize u.writePs q p (threads.map (fun t => (t, bit))) = v at g1 g2 g4
  have hps : ∀ r t, sq1.readP r t = sq.readP r t := by intro r t; rw [h3]; rfl
  have hss : ∀ r, sq2.readS r = sq1.readS r := by intro r; rw [g3]; rfl
  have hch := State.charge_of_cores (s := s) (t := v) (by rw [g4, h4]) (by rw [g4, h4]) sq n
  refine ⟨sq2, ⟨⟨g1, fun r hr => ?_, fun k hk => ?_, hch.1, hch.2, fun a => ?_, ?_⟩, ?_, ?_, fun r hr hnm t ht => ?_,
    fun r _ hr t ht => ?_, fun r hr => ?_, fun _ => ?_⟩, ?_, fun t ht => ?_⟩
  · show tabFind v.squads r = _
    rw [g2 r hr, h2 r hr]
  · show v.pair k = _
    rw [g4, h4]; rfl
  · show v.readByte a = s.readByte a
    rw [g4, h4]; rfl
  · rw [State.charge_eq, g4, h4]
  · rw [g3, h3]
  · show v.pair sq.pairOf = { s.pair sq.pairOf with v := (v.pair sq.pairOf).v }
    rw [g4, h4]; rfl
  · show v.readV sq2 r t = _
    unfold State.readV
    rw [g4, h4, g3, h3]; rfl
  · rw [g5 r (by simpa using hr) t ht, hps]
  · rw [hss, h5 r (by simpa using hr)]
  · rw [g3, h3]
  · rw [hss, h6]
  · split
    · next hc => exact g6 hc (t, bit) (List.mem_map.2 ⟨t, mem_threads.2 ht, rfl⟩)
    · next hc => rw [g5 p (Or.inr (by simpa using hc)) t ht, hps]

/-- R90. A cross-thread read. -/
theorem State.crossRead_ran {s : State} {q : Nat} {sq : Squad} {e : Exec} (h : s.current = some (q, sq, e)) {rs : List Nat}
    (hr : s.mayName q sq rs) (g : BitVec 4) (n : BitVec 1) (p : BitVec 7) (d a : BitVec 6) (named : Squad → Nat → Nat)
    (recv : Reg → Reg) :
    ∃ t sq', s.crossRead rs g n p d a named recv = .next t ∧
      RegRan s t q sq sq' [d.toNat] [p.toNat] [] false (sq.activeT e g n).length ∧
      ∀ th < 32,
        (t.readV sq' d.toNat th = if sq.enabledT e g n th then
          (if sq.enabledT e g n (named sq th) then recv (s.readV sq a.toNat (named sq th)) else s.readV sq a.toNat th)
          else s.readV sq d.toNat th) ∧
        (sq'.readP p.toNat th = if p.toNat ≠ 0 ∧ sq.enabledT e g n th then predByte (sq.enabledT e g n (named sq th))
          else sq.readP p.toNat th) := by
  unfold State.crossRead
  rw [State.wordV_next h (State.xsetReg_none.2 hr)]
  obtain ⟨sq', h1, h2, h3⟩ := vecPred_ran (State.current_find h).1 d.isLt p.toNat (sq.activeT e g n) (sq.activeT e g n)
    activeT_threads.1 activeT_threads.2 activeT_threads.1 activeT_threads.2
    (fun t => if sq.enabledT e g n (named sq t) then recv (s.readV sq a.toNat (named sq t)) else s.readV sq a.toNat t)
    (fun t => predByte (sq.enabledT e g n (named sq t))) (sq.activeT e g n).length
  refine ⟨_, sq', rfl, h1, fun th hth => ⟨?_, ?_⟩⟩
  · rw [h2 th hth]; simp only [mem_activeT hth]
  · rw [h3 th hth]; simp only [mem_activeT hth]

/-- R92. Sub-elements put together one by one. -/
theorem subGet_build (W k : Nat) (hk : W * k ≤ 64) (x : Reg) (f : Nat → Nat) (j : Nat) (hj : j < k) :
    subGet W ((List.range k).foldl (fun acc i => subSet W acc i (f i)) x) j = f j % 2 ^ W := by
  have hfit : ∀ i, i < k → W * i + W ≤ 64 := by
    intro i hi
    have : W * i + W ≤ W * k := by rw [← Nat.mul_succ]; exact Nat.mul_le_mul_left W hi
    omega
  have main : ∀ m, m ≤ k → j < m → subGet W ((List.range m).foldl (fun acc i => subSet W acc i (f i)) x) j = f j % 2 ^ W := by
    intro m
    induction m with
    | zero => intro _ h; omega
    | succ m ih =>
      intro hm hjm
      rw [List.range_succ, List.foldl_append]
      simp only [List.foldl_cons, List.foldl_nil]
      by_cases hjm' : j = m
      · subst hjm'
        exact subGet_subSet_same _ _ _ _ (hfit j hj)
      · rw [subGet_subSet_ne _ _ _ hjm' (hfit j hj)]
        exact ih (by omega) (by omega)
  exact main k (Nat.le_refl k) hj

/-- R92. A reduction. -/
theorem State.reduce_ran {s : State} {q : Nat} {sq : Squad} {e : Exec} (h : s.current = some (q, sq, e)) {W : Nat} (hW : W * (64 / W) ≤ 64)
    (g : BitVec 4) (n : BitVec 1) (d a b : BitVec 6) (f : Nat → Nat → Nat) (idn : Nat) (hr : s.mayName q sq [a.toNat]) :
    ∃ t sq', s.reduce W g n d a b f idn = .next t ∧
      RegRan s t q sq sq' [] [b.toNat] [d.toNat] false (sq.activeT e g n).length ∧
      (d.toNat ≠ 0 → ∀ j < 64 / W, subGet W (sq'.readS d.toNat) j =
        combine f idn ((sq.activeT e g n).map (fun th => subGet W (s.readV sq a.toNat th) j)) % 2 ^ W) ∧
      ∀ th < 32, sq'.readP b.toNat th = if b.toNat ≠ 0 then predByte (!(sq.activeT e g n).isEmpty) else sq.readP b.toNat th := by
  unfold State.reduce
  rw [State.wordV_next h (State.xsetReg_none.2 hr)]
  obtain ⟨sq', h1, h2, h3⟩ := scalarPred_ran (State.current_find h).1 d.toNat ((List.range (64 / W)).foldl (fun acc j =>
      subSet W acc j (combine f idn ((sq.activeT e g n).map (fun t => subGet W (s.readV sq a.toNat t) j)))) (0 : Reg)) b.toNat
    (predByte (!(sq.activeT e g n).isEmpty)) (sq.activeT e g n).length
  refine ⟨_, sq', rfl, h1, fun hd j hj => ?_, h3⟩
  rw [h2, if_neg hd, subGet_build W _ hW _ (fun j => combine f idn ((sq.activeT e g n).map (fun t => subGet W (s.readV sq a.toNat t) j))) j hj]

/-- R92. A scan. -/
theorem State.scan_ran {s : State} {q : Nat} {sq : Squad} {e : Exec} (h : s.current = some (q, sq, e)) {W : Nat} (hW : W * (64 / W) ≤ 64)
    (g : BitVec 4) (n : BitVec 1) (d a b : BitVec 6) (f : Nat → Nat → Nat) (hr : s.mayName q sq [a.toNat, d.toNat]) :
    ∃ t sq', s.scan W g n d a b f = .next t ∧
      RegRan s t q sq sq' [d.toNat] [b.toNat] [] false (sq.activeT e g n).length ∧
      (∀ th < 32, sq.enabledT e g n th → ∀ j < 64 / W, subGet W (t.readV sq' d.toNat th) j =
        combine f 0 (((sq.activeT e g n).filter (fun u => decide (u ≤ th))).map (fun u => subGet W (s.readV sq a.toNat u) j)) % 2 ^ W) ∧
      (∀ th < 32, sq.enabledT e g n th = false → t.readV sq' d.toNat th = s.readV sq d.toNat th) ∧
      ∀ th < 32, sq'.readP b.toNat th = if b.toNat ≠ 0 then predByte (!(sq.activeT e g n).isEmpty) else sq.readP b.toNat th := by
  unfold State.scan
  rw [State.wordV_next h (State.xsetReg_none.2 hr)]
  obtain ⟨sq', h1, h2, h3⟩ := vecPred_ran (State.current_find h).1 d.isLt b.toNat (sq.activeT e g n) threads
    activeT_threads.1 activeT_threads.2 (fun _ => mem_threads.1) List.nodup_range
    (fun t => (List.range (64 / W)).foldl (fun acc j =>
        subSet W acc j (combine f 0 (((sq.activeT e g n).filter (fun u => decide (u ≤ t))).map (fun u => subGet W (s.readV sq a.toNat u) j))))
        (0 : Reg))
    (fun _ => predByte (!(sq.activeT e g n).isEmpty)) (sq.activeT e g n).length
  refine ⟨_, sq', rfl, h1, fun th hth hen j hj => ?_, fun th hth hen => ?_, fun th hth => ?_⟩
  · have h2' := h2 th hth
    rw [if_pos ((mem_activeT hth).2 hen)] at h2'
    show subGet W (State.readV _ sq' d.toNat th) j = _
    refine (congrArg (fun x => subGet W x j) h2').trans ?_
    exact subGet_build W _ hW _
      (fun j => combine f 0 (((sq.activeT e g n).filter (fun u => decide (u ≤ th))).map (fun u => subGet W (s.readV sq a.toNat u) j))) j hj
  · have h2' := h2 th hth
    rw [if_neg (fun hm => by rw [(mem_activeT hth).1 hm] at hen; exact Bool.noConfusion hen)] at h2'
    exact h2'
  · have h3' := h3 th hth
    simp only [mem_threads, hth, and_true] at h3'
    exact h3'

end Sys2Proof.Machine
end

