-- ==== Sys2Proof/Laws/Crypto.lean ====
section
/-!
SUPPORT. What a flit's seal can do: it keeps the length and adds a tag of 16 bytes, and opening it gives the plaintext back (R315).
-/
namespace Sys2Proof.Machine

/-- What an expanded key holds: words of four bytes. -/
def KeyWords (n : Nat) (ws : List (List Nat)) : Prop := ws.length = n ∧ ∀ w ∈ ws, w.length = 4

theorem keyWords_getD {n : Nat} {ws : List (List Nat)} (h : KeyWords n ws) {i : Nat} (hi : i < n) : (ws.getD i []).length = 4 := by
  have hw : ws[i]? = some (ws[i]'(h.1 ▸ hi)) := List.getElem?_eq_getElem _
  rw [List.getD_eq_getElem?_getD, hw]
  exact h.2 _ (List.getElem_mem _)

theorem aesTemp_length (i : Nat) {w : List Nat} (h : w.length = 4) : (aesTemp i w).length = 4 := by
  unfold aesTemp
  split
  · simp [xorBytes, h]
  · split <;> simp [h]

theorem aesExtend_words {n : Nat} {ws : List (List Nat)} (h : KeyWords (8 + n) ws) : KeyWords (8 + (n + 1)) (aesExtend ws (8 + n)) := by
  refine ⟨by simp [aesExtend, h.1, Nat.add_assoc], fun w hw => ?_⟩
  rcases List.mem_append.1 hw with hw | hw
  · exact h.2 w hw
  · rw [List.mem_singleton.1 hw, xorBytes, List.length_zipWith, keyWords_getD h (by omega), aesTemp_length _ (keyWords_getD h (by omega))]
    rfl

theorem aesExpand_words {key : List Nat} (hk : key.length = 32) : KeyWords 60 (aesExpand key) := by
  have go : ∀ n, KeyWords (8 + n) ((List.range n).foldl (fun ws j => aesExtend ws (8 + j))
      ((List.range 8).map (fun i => (key.drop (4 * i)).take 4))) := by
    intro n
    induction n with
    | zero =>
      refine ⟨by simp, fun w hw => ?_⟩
      obtain ⟨i, hi, rfl⟩ := List.mem_map.1 hw
      have := List.mem_range.1 hi
      simp [hk]
      omega
    | succ n ih =>
      rw [List.range_succ (n := n), List.foldl_append]
      exact aesExtend_words ih
  exact go 52

theorem roundKey_length {ws : List (List Nat)} (h : KeyWords 60 ws) {r : Nat} (hr : r < 15) : ((ws.drop (4 * r)).take 4).flatten.length = 16 := by
  have hl : ((ws.drop (4 * r)).take 4).map List.length = List.replicate 4 4 := by
    refine List.eq_replicate_iff.2 ⟨by simp [h.1]; omega, fun n hn => ?_⟩
    obtain ⟨w, hw, rfl⟩ := List.mem_map.1 hn
    exact h.2 w (List.mem_of_mem_drop (List.mem_of_mem_take hw))
  rw [List.length_flatten, hl]
  decide

theorem aesBlock_length {ws : List (List Nat)} (h : KeyWords 60 ws) (b : List Nat) : (aesBlock ws b).length = 16 := by
  simp only [aesBlock, xorBytes, List.length_zipWith, aesShift, List.length_map, List.length_range]
  rw [roundKey_length h (r := 14) (by decide)]
  rfl

theorem keyBytes_length (key : BitVec 256) : (keyBytes key).length = 32 := by simp [keyBytes, leBytes]

theorem gcmStream_length {ws : List (List Nat)} (h : KeyWords 60 ws) (iv : List Nat) (n : Nat) : (gcmStream ws iv n).length = n := by
  simp only [gcmStream, List.length_take, List.length_flatMap, aesBlock_length h, List.map_const', List.length_range, List.sum_replicate_nat]
  omega

theorem gcmCrypt_length (key : BitVec 256) (iv : BitVec 96) (bs : List Byte) : (gcmCrypt key iv bs).length = bs.length := by
  simp [gcmCrypt, gcmStream_length (aesExpand_words (keyBytes_length key))]

theorem zipWith_twice (bs : List Byte) (ks : List Nat) (h : bs.length = ks.length) :
    List.zipWith (fun (b : Byte) k => b ^^^ BitVec.ofNat 8 k) (List.zipWith (fun (b : Byte) k => b ^^^ BitVec.ofNat 8 k) bs ks) ks = bs := by
  induction bs generalizing ks with
  | nil => rfl
  | cons b bs ih =>
    cases ks with
    | nil => cases h
    | cons k ks => exact congr (congrArg List.cons (by show _ ^^^ _ ^^^ _ = _; rw [BitVec.xor_assoc, BitVec.xor_self, BitVec.xor_zero])) (ih ks (by simpa using h))

/-- The key stream twice gives the bytes back. -/
theorem gcmCrypt_twice (key : BitVec 256) (iv : BitVec 96) (bs : List Byte) : gcmCrypt key iv (gcmCrypt key iv bs) = bs := by
  have hl := gcmCrypt_length key iv bs
  have hs := gcmStream_length (aesExpand_words (keyBytes_length key)) (ivBytes iv) bs.length
  rw [gcmCrypt, hl]
  exact zipWith_twice bs _ hs.symm

theorem gcmTagOf_length (key : BitVec 256) (iv : BitVec 96) (aad ct : List Byte) : (gcmTagOf key iv aad ct).length = 16 := by simp [gcmTagOf]

theorem gcmSeal_length (key : BitVec 256) (iv : BitVec 96) (aad p : List Byte) : (gcmSeal key iv aad p).length = p.length + 16 := by
  simp [gcmSeal, gcmCrypt_length, gcmTagOf_length]

/-- What the same key, vector and header sealed opens to its plaintext. -/
theorem gcmOpen_gcmSeal (key : BitVec 256) (iv : BitVec 96) (aad p : List Byte) : gcmOpen p.length key iv aad (gcmSeal key iv aad p) = some p := by
  have hl := gcmCrypt_length key iv p
  simp only [gcmOpen, gcmSeal, ← hl, List.take_left, List.drop_left, if_true, gcmCrypt_twice]

end Sys2Proof.Machine
end

