-- ==== Sys2Proof/Laws/Float.lean ====
section
/-!
SUPPORT. What the shared operations of the floating-point words do (R107, R110, R112).
-/
namespace Sys2Proof.Machine

/-- R107. Elements in ascending order, each with the generator word it used. -/
theorem elemUpdateGen_spec (W k : Nat) (hk : W * k ≤ 64) (gb : Byte) (rs : Bool) (old : Reg) (g0 : Word) (f : Nat → Word → Nat) :
    (elemUpdateGen W k gb rs old g0 f).2 = genSteps (if rs then enabledBelow W gb k else 0) g0 ∧
    ∀ j < k, subGet W (elemUpdateGen W k gb rs old g0 f).1 j =
      if elemOn W gb j then f j (genSteps (if rs then enabledBelow W gb (j + 1) else 0) g0) % 2 ^ W else subGet W old j := by
  have hfit : ∀ i, i < k → W * i + W ≤ 64 := by
    intro i hi
    have : W * i + W ≤ W * k := by rw [← Nat.mul_succ]; exact Nat.mul_le_mul_left W hi
    omega
  have hcount : ∀ m, enabledBelow W gb (m + 1) = enabledBelow W gb m + if elemOn W gb m then 1 else 0 := by
    intro m
    unfold enabledBelow
    rw [List.range_succ, List.countP_append]
    by_cases hm : elemOn W gb m <;> simp [hm]
  have main : ∀ m, m ≤ k →
      let r := (List.range m).foldl (fun acc j =>
        if elemOn W gb j then
          let g := if rs then genAdvance acc.2 else acc.2
          (subSet W acc.1 j (f j g), g)
        else acc) (old, g0)
      r.2 = genSteps (if rs then enabledBelow W gb m else 0) g0 ∧
      ∀ j < k, subGet W r.1 j = if j < m ∧ elemOn W gb j then
        f j (genSteps (if rs then enabledBelow W gb (j + 1) else 0) g0) % 2 ^ W else subGet W old j := by
    intro m
    induction m with
    | zero =>
      intro _
      refine ⟨?_, fun j _ => by simp⟩
      cases rs <;> simp [genSteps, enabledBelow]
    | succ m ih =>
      intro hm
      obtain ⟨ih1, ih2⟩ := ih (by omega)
      simp only [List.range_succ, List.foldl_append, List.foldl_cons, List.foldl_nil]
      by_cases he : elemOn W gb m
      · rw [if_pos he]
        have hg : (if rs then genAdvance ((List.range m).foldl (fun acc j =>
            if elemOn W gb j then
              let g := if rs then genAdvance acc.2 else acc.2
              (subSet W acc.1 j (f j g), g)
            else acc) (old, g0)).2 else ((List.range m).foldl (fun acc j =>
            if elemOn W gb j then
              let g := if rs then genAdvance acc.2 else acc.2
              (subSet W acc.1 j (f j g), g)
            else acc) (old, g0)).2) = genSteps (if rs then enabledBelow W gb (m + 1) else 0) g0 := by
          rw [ih1, hcount m, if_pos he]
          cases rs <;> simp [genSteps]
        refine ⟨hg, fun j hj => ?_⟩
        by_cases hjm : j = m
        · subst hjm
          simp only [hg]
          rw [subGet_subSet_same _ _ _ _ (hfit j hj)]
          simp [he]
        · have := ih2 j hj
          have hlt : j < m + 1 ↔ j < m := by omega
          simp only [hlt]
          rw [subGet_subSet_ne _ _ _ hjm (hfit j hj)]
          exact this
      · rw [if_neg he]
        refine ⟨?_, fun j hj => ?_⟩
        · rw [ih1, hcount m, if_neg he]; rfl
        · rw [ih2 j hj]
          by_cases hjm : j = m
          · subst hjm; simp [he]
          · have hlt : j < m + 1 ↔ j < m := by omega
            simp only [hlt]
  have := main k (Nat.le_refl k)
  refine ⟨this.1, fun j hj => ?_⟩
  have h2 := this.2 j hj
  simp only [hj, true_and] at h2
  exact h2

/-- What several writes of generator words leave, and what is read after them. -/
theorem State.writeGens_spec (s : State) {q : Nat} {sq : Squad} (h : tabFind s.squads q = some sq) (xs : List (Nat × Word))
    (hn : (xs.map (·.1)).Nodup) :
    ∃ sq', tabFind (s.writeGens q xs).squads q = some sq' ∧
      (∀ r, r ≠ q → tabFind (s.writeGens q xs).squads r = tabFind s.squads r) ∧
      sq' = { sq with gen := sq'.gen } ∧
      s.writeGens q xs = { s with squads := (s.writeGens q xs).squads } ∧
      (∀ e ∈ xs, sq'.readGen e.1 = e.2) ∧
      ∀ t, t ∉ xs.map (·.1) → sq'.readGen t = sq.readGen t := by
  induction xs generalizing s sq with
  | nil => exact ⟨sq, h, fun _ _ => rfl, rfl, rfl, by simp, fun _ _ => rfl⟩
  | cons e r ih =>
    obtain ⟨th, x⟩ := e
    simp only [List.map_cons, List.nodup_cons] at hn
    have hw : s.writeGens q ((th, x) :: r) = (s.writeGen q th x).writeGens q r := rfl
    have hq : tabFind (s.writeGen q th x).squads q = some { sq with gen := tabPut 0 sq.gen th x } := by
      unfold State.writeGen
      rw [State.modSquad_find]; simp [h]
    obtain ⟨sq', h1, h2, h3, h4, h5, h6⟩ := ih (s.writeGen q th x) hq hn.2
    have hread : ∀ t, ({ sq with gen := tabPut 0 sq.gen th x } : Squad).readGen t = if t = th then x else sq.readGen t :=
      fun t => tabGet_tabPut 0 sq.gen th t x
    refine ⟨sq', hw ▸ h1, fun r' hr' => ?_, ?_, ?_, fun e he => ?_, fun t hnm => ?_⟩
    · rw [hw, h2 r' hr']
      unfold State.writeGen
      rw [State.modSquad_find, if_neg hr']
    · rw [h3]
    · rw [hw, h4]; rfl
    · rcases List.mem_cons.1 he with he | he
      · subst he
        rw [h6 th hn.1, hread]; simp
      · exact h5 e he
    · simp only [List.map_cons, List.mem_cons, not_or] at hnm
      rw [h6 t hnm.2, hread, if_neg hnm.1]

/-- R107, R110. A word that writes `f` of each enabled sub-element and of the generator word it uses. -/
theorem elemGen_ran {s : State} {q : Nat} {sq : Squad} (h : tabFind s.squads q = some sq) (e : Exec) (W k : Nat) (hk : W * k ≤ 64)
    (g : BitVec 4) (n : BitVec 1) (d : BitVec 6) (rs : Bool) (f : Nat → Nat → Word → Nat) :
    ∃ t sq', t = ((if rs then (s.writeVs q d.toNat ((sq.activeE e g n W k).map (fun t => (t, (elemUpdateGen W k (sq.guard g n t) rs
          (s.readV sq d.toNat t) (sq.readGen t) (f t)).1)))).writeGens q ((sq.activeE e g n W k).map (fun t => (t, (elemUpdateGen W k
          (sq.guard g n t) rs (s.readV sq d.toNat t) (sq.readGen t) (f t)).2)))
        else s.writeVs q d.toNat ((sq.activeE e g n W k).map (fun t => (t, (elemUpdateGen W k (sq.guard g n t) rs
          (s.readV sq d.toNat t) (sq.readGen t) (f t)).1)))).charge sq (sq.activeE e g n W k).length) ∧
      RegRan s t q sq sq' [d.toNat] [] [] rs (sq.activeE e g n W k).length ∧
      ∀ th < 32,
        (∀ j < k, subGet W (t.readV sq' d.toNat th) j = if inMask e.mask th && elemOn W (sq.guard g n th) j then
          f th j (genSteps (if rs then enabledBelow W (sq.guard g n th) (j + 1) else 0) (sq.readGen th)) % 2 ^ W
          else subGet W (s.readV sq d.toNat th) j) ∧
        sq'.readGen th = if inMask e.mask th then
          genSteps (if rs then enabledBelow W (sq.guard g n th) k else 0) (sq.readGen th) else sq.readGen th := by
  generalize hact : sq.activeE e g n W k = act
  have hat : (∀ t ∈ act, t < 32) ∧ act.Nodup := hact ▸ activeE_threads
  have hmem : ∀ th < 32, (th ∈ act ↔ inMask e.mask th = true ∧ ∃ j < k, elemOn W (sq.guard g n th) j = true) :=
    fun th hth => hact ▸ mem_activeE hth
  let E (t : Nat) := elemUpdateGen W k (sq.guard g n t) rs (s.readV sq d.toNat t) (sq.readGen t) (f t)
  have hE (t : Nat) := elemUpdateGen_spec W k hk (sq.guard g n t) rs (s.readV sq d.toNat t) (sq.readGen t) (f t)
  have hm : (act.map (fun t => (t, (E t).1))).map (·.1) = act := by simp [Function.comp_def]
  have hm' : (act.map (fun t => (t, (E t).2))).map (·.1) = act := by simp [Function.comp_def]
  obtain ⟨sq1, h1, h2, h3, h4, h5, h6, h7, h8, h9⟩ := s.writeVs_spec h d.toNat d.isLt (act.map (fun t => (t, (E t).1)))
    (fun e he => by obtain ⟨t, ht, rfl⟩ := List.mem_map.1 he; exact hat.1 t ht) (hm.symm ▸ hat.2)
  rw [hm] at h9
  generalize hu : s.writeVs q d.toNat (act.map (fun t => (t, (E t).1))) = u at h1 h2 h4 h5 h6 h7 h8 h9
  have hsub : ∀ th < 32, ∀ j < k, subGet W (u.readV sq1 d.toNat th) j = if inMask e.mask th && elemOn W (sq.guard g n th) j then
          f th j (genSteps (if rs then enabledBelow W (sq.guard g n th) (j + 1) else 0) (sq.readGen th)) % 2 ^ W
          else subGet W (s.readV sq d.toNat th) j := by
    intro th hth j hj
    by_cases hin : th ∈ act
    · rw [h8 (th, (E th).1) (List.mem_map.2 ⟨th, hin, rfl⟩), (hE th).2 j hj]
      simp [((hmem th hth).1 hin).1]
    · rw [h9 th hth hin]
      by_cases hc : (inMask e.mask th && elemOn W (sq.guard g n th) j) = true
      · rw [Bool.and_eq_true] at hc
        exact absurd ((hmem th hth).2 ⟨hc.1, j, hj, hc.2⟩) hin
      · rw [if_neg hc]
  have hgen0 : ∀ th < 32, th ∉ act → inMask e.mask th = true → enabledBelow W (sq.guard g n th) k = 0 := by
    intro th hth hin hmask
    unfold enabledBelow
    rw [List.countP_eq_zero]
    intro j hj he
    exact hin ((hmem th hth).2 ⟨hmask, j, List.mem_range.1 hj, he⟩)
  have hpa : ∀ (v : State) (sq2 : Squad), v = { u with squads := v.squads } → sq2 = { sq1 with gen := sq2.gen } →
      tabFind v.squads q = some sq2 → (∀ r, r ≠ q → tabFind v.squads r = tabFind u.squads r) → (rs = false → sq2.gen = sq.gen) →
      RegRan s (v.charge sq act.length) q sq sq2 [d.toNat] [] [] rs act.length ∧
      ∀ r t, (v.charge sq act.length).readV sq2 r t = u.readV sq1 r t := by
    intro v sq2 g4 g3 g1 g2 g5
    have hrd : ∀ r t, v.readV sq2 r t = u.readV sq1 r t := by
      intro r t
      have hpo : sq2.pairOf = sq1.pairOf := by rw [g3]; rfl
      unfold State.readV
      rw [hpo, g4, g3]; rfl
    have hch := State.charge_of_cores (s := s) (t := v) (by rw [g4, h6]) (by rw [g4, h6]) sq act.length
    refine ⟨⟨⟨g1, fun r hr => ?_, fun k hk => ?_, hch.1, hch.2, fun a => ?_, ?_⟩, ?_, ?_, fun r hr hnm t ht => ?_,
      fun r _ _ t _ => ?_, fun r _ => ?_, g5⟩, fun r t => hrd r t⟩
    · show tabFind v.squads r = _
      rw [g2 r hr, h2 r hr]
    · show v.pair k = _
      have : v.pair k = u.pair k := by rw [g4]; rfl
      rw [this, h4 k hk]
    · show v.readByte a = s.readByte a
      rw [g4, h6]; rfl
    · rw [State.charge_eq, g4, h6]
    · rw [g3, h3]
    · show v.pair sq.pairOf = { s.pair sq.pairOf with v := (v.pair sq.pairOf).v }
      have : v.pair sq.pairOf = u.pair sq.pairOf := by rw [g4]; rfl
      rw [this]; exact h5
    · show v.readV sq2 r t = _
      rw [hrd, h7 r hr (by simpa using hnm) t ht]
    · rw [g3, h3]; rfl
    · rw [g3, h3]; rfl
  cases rs with
  | false =>
    obtain ⟨hran, hrd⟩ := hpa u sq1 rfl rfl h1 (fun _ _ => rfl) (fun _ => by rw [h3])
    refine ⟨u.charge sq act.length, sq1, by rw [← hu]; rfl, hran, fun th hth => ⟨fun j hj => ?_, ?_⟩⟩
    · rw [hrd]; exact hsub th hth j hj
    · rw [h3]; simp [genSteps, Squad.readGen]
  | true =>
    obtain ⟨sq2, g1, g2, g3, g4, g5, g6⟩ := u.writeGens_spec h1 (act.map (fun t => (t, (E t).2))) (hm'.symm ▸ hat.2)
    rw [hm'] at g6
    obtain ⟨hran, hrd⟩ := hpa _ sq2 g4 g3 g1 g2 (fun hf => by simp at hf)
    refine ⟨_, sq2, by rw [← hu]; rfl, hran, fun th hth => ⟨fun j hj => ?_, ?_⟩⟩
    · rw [hrd]; exact hsub th hth j hj
    · have h1g : sq1.readGen th = sq.readGen th := by rw [h3]; rfl
      by_cases hin : th ∈ act
      · rw [g5 (th, (E th).2) (List.mem_map.2 ⟨th, hin, rfl⟩), (hE th).1]
        simp [((hmem th hth).1 hin).1]
      · rw [g6 th hin, h1g]
        by_cases hmask : inMask e.mask th = true
        · simp [hmask, hgen0 th hth hin hmask, genSteps]
        · simp [hmask]

/-- R110. A floating-point word that rounds by the mode word. -/
theorem State.fpArith_ran {s : State} {q : Nat} {sq : Squad} {e : Exec} (h : s.current = some (q, sq, e)) (fm : BitVec 2)
    (g : BitVec 4) (n m : BitVec 1) (d a b : BitVec 6) (f : Fmt → RMode → Nat → Nat → Nat → Word → Nat)
    (hW : (fpFmt fm).width * (64 / (fpFmt fm).width) ≤ 64) (hr : s.mayName q sq (a.toNat :: regsB m b ++ [d.toNat])) :
    ∃ t sq', s.fpArith fm g n m d a b f = .next t ∧
      RegRan s t q sq sq' [d.toNat] [] [] (sq.rm == .rs) (sq.activeE e g n (fpFmt fm).width (64 / (fpFmt fm).width)).length ∧
      ∀ th < 32,
        (∀ j < 64 / (fpFmt fm).width, subGet (fpFmt fm).width (t.readV sq' d.toNat th) j =
          if inMask e.mask th && elemOn (fpFmt fm).width (sq.guard g n th) j then
            f (fpFmt fm) sq.rm (subGet (fpFmt fm).width (s.readV sq a.toNat th) j) (subGet (fpFmt fm).width (s.srcB sq m b th) j)
              (subGet (fpFmt fm).width (s.readV sq d.toNat th) j)
              (genSteps (if sq.rm == .rs then enabledBelow (fpFmt fm).width (sq.guard g n th) (j + 1) else 0) (sq.readGen th)) %
              2 ^ (fpFmt fm).width
          else subGet (fpFmt fm).width (s.readV sq d.toNat th) j) ∧
        sq'.readGen th = if inMask e.mask th then
          genSteps (if sq.rm == .rs then enabledBelow (fpFmt fm).width (sq.guard g n th) (64 / (fpFmt fm).width) else 0) (sq.readGen th)
          else sq.readGen th := by
  unfold State.fpArith
  rw [State.wordV_next h (State.xsetReg_none.2 hr)]
  obtain ⟨t, sq', rfl, h1, h2⟩ := elemGen_ran (State.current_find h).1 e (fpFmt fm).width (64 / (fpFmt fm).width) hW g n d (sq.rm == .rs)
    (fun t j gw => f (fpFmt fm) sq.rm (subGet (fpFmt fm).width (s.readV sq a.toNat t) j) (subGet (fpFmt fm).width (s.srcB sq m b t) j)
      (subGet (fpFmt fm).width (s.readV sq d.toNat t) j) gw)
  refine ⟨_, sq', ?_, h1, h2⟩
  simp only [List.map_map, Function.comp_def]

/-- R112. A conversion. -/
theorem State.convert_ran {s : State} {q : Nat} {sq : Squad} {e : Exec} (h : s.current = some (q, sq, e)) (dst : BitVec 4)
    (g : BitVec 4) (n : BitVec 1) (d a : BitVec 6) (src : BitVec 4) (r : BitVec 3) (sat : Bool)
    (hW : cvtWidth dst.toNat * (64 / max (cvtWidth src.toNat) (cvtWidth dst.toNat)) ≤ 64) (hr : s.mayName q sq [a.toNat, d.toNat]) :
    let mode := if r.toNat = 5 then sq.rm else rmodeOf r.toNat
    let rs := mode == .rs && cvtRounds dst.toNat src.toNat
    let wd := cvtWidth dst.toNat
    let ws := cvtWidth src.toNat
    let k := 64 / max ws wd
    ∃ t sq', s.convert dst g n d a src r sat = .next t ∧ RegRan s t q sq sq' [d.toNat] [] [] rs (sq.activeE e g n wd k).length ∧
      ∀ th < 32,
        (∀ j < k, subGet wd (t.readV sq' d.toNat th) j = if inMask e.mask th && elemOn wd (sq.guard g n th) j then
          cvtElem dst.toNat src.toNat mode sat (subGet ws (s.readV sq a.toNat th) j)
            (genSteps (if rs then enabledBelow wd (sq.guard g n th) (j + 1) else 0) (sq.readGen th)) % 2 ^ wd
          else subGet wd (s.readV sq d.toNat th) j) ∧
        sq'.readGen th = if inMask e.mask th then
          genSteps (if rs then enabledBelow wd (sq.guard g n th) k else 0) (sq.readGen th) else sq.readGen th := by
  intro mode rs wd ws k
  unfold State.convert
  simp only []
  rw [State.wordV_next h (State.xsetReg_none.2 hr)]
  obtain ⟨t, sq', rfl, h1, h2⟩ := elemGen_ran (State.current_find h).1 e wd k hW g n d rs
    (fun t j gw => cvtElem dst.toNat src.toNat mode sat (subGet ws (s.readV sq a.toNat t) j) gw)
  refine ⟨_, sq', ?_, h1, h2⟩
  simp only [List.map_map, Function.comp_def]
  rfl

end Sys2Proof.Machine
end

