-- ==== Sys2Proof/Laws/Memory.lean ====
section
/-!
SUPPORT. Every operation that writes a memory keeps the memories' canonical form.
-/
namespace Sys2Proof.Machine

/-- One byte of the host's memory. -/
theorem State.hostByte_memWf {s : State} (a : Nat) (b : Byte) (h : s.memWf = true) :
    State.memWf { s with host := tabPut 0 s.host a b } = true := by
  simp only [State.memWf, Memory.wf, Bool.and_eq_true] at h ⊢
  exact ⟨h.1, tabWf_tabPut a b h.2⟩

/-- A little-endian value. -/
theorem State.writeLe_memWf (s : State) (a n v : Nat) (h : s.memWf = true) : (s.writeLe a n v).memWf = true :=
  s.writeBytes_memWf a _ h

/-- An update at the home of an address. -/
theorem State.homeStore_memWf (s : State) (host : Bool) (a : Nat) (bs : List Byte) (h : s.memWf = true) :
    (s.homeStore host a bs).memWf = true := by
  unfold State.homeStore
  split
  · simp only [State.memWf, Memory.wf, Bool.and_eq_true] at h ⊢
    exact ⟨h.1, foldl_keeps (fun m => tabWf 0 m = true) _ (fun _ _ hm => tabWf_tabPut _ _ hm) _ _ h.2⟩
  · exact s.storeBytes_memWf a bs h

/-- A write of the host to its own memory. -/
theorem State.hostStore_memWf (s : State) (a : Nat) (bs : List Byte) (h : s.memWf = true) : (s.hostStore a bs).memWf = true := by
  simp only [State.hostStore, State.memWf, Memory.wf, Bool.and_eq_true] at h ⊢
  exact ⟨h.1, foldl_keeps (fun m => tabWf 0 m = true) _ (fun _ _ hm => tabWf_tabPut _ _ hm) _ _ h.2⟩

/-- Bytes written one by one to places in HBM or at the host. -/
theorem State.places_memWf (l : List ((Bool × Nat × Page) × Byte)) (s : State) (h : s.memWf = true) :
    (l.foldl (fun acc x => if x.1.1 then { acc with host := tabPut 0 acc.host x.1.2.1 x.2 } else acc.writeByte x.1.2.1 x.2) s).memWf
      = true := by
  refine foldl_keeps (fun u : State => u.memWf = true) _ (fun u x hu => ?_) l s h
  split
  · exact State.hostByte_memWf _ _ hu
  · exact u.writeByte_memWf _ _ hu

/-- A write of bytes changes memory alone. -/
theorem State.writeBytes_frame (s : State) (a : Nat) (bs : List Byte) : s.writeBytes a bs = { s with hbm := (s.writeBytes a bs).hbm } := by
  induction bs generalizing s a with
  | nil => rfl
  | cons b r ih => exact ih (s.writeByte a b) (a + 1)

@[simp] theorem State.writeBytes_module (s : State) (a : Nat) (bs : List Byte) : (s.writeBytes a bs).module = s.module := by
  rw [s.writeBytes_frame]

/-- Bytes just written, read back from any place among them. -/
theorem State.readLe_writeBytes (s : State) (a : Nat) (bs : List Byte) (off n : Nat) (h : off + n ≤ bs.length) :
    (s.writeBytes a bs).readLe (a + off) n = leVal ((bs.drop off).take n) := by
  have e : (s.writeBytes a bs).readBytes (a + off) n = (bs.drop off).take n := by
    apply List.ext_getElem
    · simp only [State.readBytes, List.length_map, List.length_range, List.length_take, List.length_drop]
      omega
    · intro i h1 h2
      have hi : i < n := by simpa [State.readBytes] using h1
      have hr := s.writeBytes_inside a bs (off + i) (by omega)
      simp only [State.readBytes, List.getElem_map, List.getElem_range, List.getElem_take, List.getElem_drop]
      rw [Nat.add_assoc, hr]
  unfold State.readLe
  rw [e]

/-- Nothing is listed from an address up: every byte there reads zero. -/
theorem tabGet_above {m : Tab Byte} {b a : Nat} (h : ∀ e ∈ m, e.1 < b) (ha : b ≤ a) : tabGet 0 m a = 0 := by
  induction m with
  | nil => rfl
  | cons e r ih =>
    obtain ⟨k, v⟩ := e
    have hk := h (k, v) List.mem_cons_self
    have hr : tabGet 0 r a = 0 := ih (fun x hx => h x (List.mem_cons_of_mem _ hx))
    have hne : a ≠ k := by simp only at hk; omega
    simpa [tabGet, tabFind, hne] using hr

/-- A value read where nothing is listed. -/
theorem State.readLe_above {s : State} {b a : Nat} (h : ∀ e ∈ s.hbm, e.1 < b) (ha : b ≤ a) (n : Nat) : s.readLe a n = 0 := by
  have z : ∀ l : List Nat, leVal (l.map (fun _ => (0 : Byte))) = 0 := by
    intro l
    induction l with
    | nil => rfl
    | cons _ r ih => rw [List.map_cons, leVal, ih]; rfl
  unfold State.readLe State.readBytes
  rw [List.map_congr_left (fun i _ => show s.readByte (a + i) = 0 from tabGet_above h (by omega)), z]

/-- R261. The fields of a name, as numbers. -/
theorem name_bits (n i g : Nat) (hn : n < 4096) (hi : i < 16384) (hg : g < 64) :
    (BitVec.ofNat 32 (n * 2 ^ 20 + i * 2 ^ 6 + g)).toNat / 2 ^ 20 = n ∧
    (BitVec.ofNat 32 (n * 2 ^ 20 + i * 2 ^ 6 + g)).toNat / 2 ^ 6 % 2 ^ 14 = i ∧
    (BitVec.ofNat 32 (n * 2 ^ 20 + i * 2 ^ 6 + g)).toNat % 2 ^ 6 = g := by
  rw [BitVec.toNat_ofNat]
  omega

/-- R261. A name of this device names it, its index and its generation. -/
theorem State.nameOf_parts (s : State) (i g : Nat) (hi : i < 16384) (hg : g < 64) :
    nameDev (s.nameOf i g) = s.own ∧ nameIndex (s.nameOf i g) = i ∧ nameGen (s.nameOf i g) = g :=
  name_bits s.own i g s.module.config.deviceId.isLt hi hg

end Sys2Proof.Machine
end

