-- ==== Sys2Proof/Laws/Own.lean ====
section
/-!
SUPPORT. The device's own accesses: what a touch of a home changes, and what the bytes of an own store are.
-/
namespace Sys2Proof.Machine

theorem State.HomesOnly.refl (s : State) : s.HomesOnly s := rfl

theorem State.HomesOnly.trans {s t u : State} (a : s.HomesOnly t) (b : t.HomesOnly u) : s.HomesOnly u := by
  unfold State.HomesOnly at *
  rw [b, a]

theorem State.readCodeword_homes (s : State) (g : Bool) (cw : Nat) : s.HomesOnly (s.readCodeword g cw) := by
  unfold State.readCodeword
  simp only
  split
  · rfl
  · split
    · rfl
    · rfl

theorem State.readLine_homes (s : State) (g : Bool) (line : Nat) : s.HomesOnly (s.readLine g line) :=
  (s.readCodeword_homes g _).trans (State.readCodeword_homes _ g _)

theorem State.mscDrop_homes (s : State) (w : Asker) (line : Nat) : s.HomesOnly (s.mscDrop w line) := by
  unfold State.mscDrop
  split
  · rfl
  · simp only
    split <;> rfl

theorem State.mscRoom_homes (s : State) (w : Asker) (die : Nat) : s.HomesOnly (s.mscRoom w die) := by
  unfold State.mscRoom
  simp only
  split
  · rfl
  · split
    · exact State.HomesOnly.trans (t := s.free.2) rfl (State.mscDrop_homes _ _ _)
    · rfl

theorem State.mscTouch_homes (s : State) (w : Asker) (pa : Nat) (write : Bool) : s.HomesOnly (s.mscTouch w pa write) := by
  unfold State.mscTouch
  simp only
  split
  · rfl
  · refine State.HomesOnly.trans ?_ (State.readLine_homes _ _ _)
    exact State.HomesOnly.trans (t := (s.dieEvent (dieOfPa pa) 0x43 1).mscRoom w (dieOfPa pa))
      (State.HomesOnly.trans (t := s.dieEvent (dieOfPa pa) 0x43 1) rfl (State.mscRoom_homes _ _ _)) rfl

theorem State.l2Drop_homes (s : State) (w : Asker) (line : Nat) (l : L2Line) : s.HomesOnly (s.l2Drop w line l) := by
  unfold State.l2Drop State.mscWriteBack
  simp only
  split
  · split
    · rfl
    · exact State.HomesOnly.trans (State.HomesOnly.trans (t := { s with l2 := tabDel s.l2 line }) rfl (State.mscRoom_homes _ _ _)) rfl
  · rfl

theorem State.makeRoom_homes (s : State) (w : Asker) (pa : Nat) : s.HomesOnly (s.makeRoom w pa) := by
  unfold State.makeRoom
  simp only
  split
  · rfl
  · split
    · exact State.HomesOnly.trans (t := s.free.2) rfl (State.l2Drop_homes _ _ _ _)
    · rfl

theorem State.pinRoom_homes (s t : State) (die asid quota : Nat) (h : s.pinRoom die asid quota = some t) : s.HomesOnly t := by
  unfold State.pinRoom at h
  split at h
  · split at h
    · cases h; rfl
    · cases h
  · simp only at h
    split at h
    · cases h; rfl
    · cases h

theorem State.installLine_homes (s : State) (w : Asker) (pa home : Nat) (write : Bool) : s.HomesOnly (s.installLine w pa home write) := by
  have r := s.makeRoom_homes w pa
  unfold State.installLine
  simp only
  split
  · split
    · split
      · next h => exact (r.trans (State.pinRoom_homes _ _ _ _ _ h)).trans rfl
      · exact r.trans rfl
    · exact r.trans rfl
  · exact r.trans rfl

/-- What a touch of the home of a line may change. -/
theorem State.touchHome_homes (s : State) (w : Asker) (host : Bool) (pa home : Nat) (write : Bool) :
    s.HomesOnly (s.touchHome w host pa home write) := by
  have m (x : Bool) : s.HomesOnly ((s.dieEvent (dieOfPa pa) 0x41 1).mscTouch w pa x) :=
    State.HomesOnly.trans (t := s.dieEvent (dieOfPa pa) 0x41 1) rfl (State.mscTouch_homes _ _ _ _)
  unfold State.touchHome
  simp only
  split
  · rfl
  · split
    · exact s.mscTouch_homes w pa write
    · split
      · exact (m false).trans (State.installLine_homes _ _ _ _ _)
      · split
        · rfl
        · exact (m false).trans rfl

theorem State.touches_homes (w : Asker) (home : Nat) (write : Bool) (ls : List Nat) (s : State) :
    s.HomesOnly (ls.foldl (fun acc l => acc.touchHome w false (l * 128) home write) s) := by
  induction ls generalizing s with
  | nil => rfl
  | cons l r ih => exact (s.touchHome_homes w false (l * 128) home write).trans (ih _)

/-- An own touch is a touch of each of its lines, as any other access makes it. -/
theorem State.ownTouch_eq (s : State) (a n : Nat) (write : Bool) :
    s.ownTouch a n write = ((List.range ((a + n + 127) / 128 - a / 128)).map (fun i => a / 128 + i)).foldl
      (fun acc l => acc.touchHome {} false (l * 128) 0 write) s :=
  (State.touches_homes {} 0 write _ s).symm

/-- R9, R152. An own touch changes no more. -/
theorem State.ownTouch_homes (s : State) (a n : Nat) (write : Bool) : s.HomesOnly (s.ownTouch a n write) := rfl

@[simp] theorem State.ownTouch_readByte (s : State) (a n : Nat) (write : Bool) (j : Nat) : (s.ownTouch a n write).readByte j = s.readByte j := rfl
@[simp] theorem State.ownTouch_hbm (s : State) (a n : Nat) (write : Bool) : (s.ownTouch a n write).hbm = s.hbm := rfl
@[simp] theorem State.ownTouch_host (s : State) (a n : Nat) (write : Bool) : (s.ownTouch a n write).host = s.host := rfl
@[simp] theorem State.ownTouch_squads (s : State) (a n : Nat) (write : Bool) : (s.ownTouch a n write).squads = s.squads := rfl
@[simp] theorem State.ownTouch_lanes (s : State) (a n : Nat) (write : Bool) : (s.ownTouch a n write).lanes = s.lanes := rfl
@[simp] theorem State.ownTouch_pairs (s : State) (a n : Nat) (write : Bool) : (s.ownTouch a n write).pairs = s.pairs := rfl
@[simp] theorem State.ownTouch_cores (s : State) (a n : Nat) (write : Bool) : (s.ownTouch a n write).cores = s.cores := rfl
@[simp] theorem State.ownTouch_launches (s : State) (a n : Nat) (write : Bool) : (s.ownTouch a n write).launches = s.launches := rfl
@[simp] theorem State.ownTouch_blocks (s : State) (a n : Nat) (write : Bool) : (s.ownTouch a n write).blocks = s.blocks := rfl
@[simp] theorem State.ownTouch_stage (s : State) (a n : Nat) (write : Bool) : (s.ownTouch a n write).stage = s.stage := rfl
@[simp] theorem State.ownTouch_slots (s : State) (a n : Nat) (write : Bool) : (s.ownTouch a n write).slots = s.slots := rfl
@[simp] theorem State.ownTouch_queues (s : State) (a n : Nat) (write : Bool) : (s.ownTouch a n write).queues = s.queues := rfl
@[simp] theorem State.ownTouch_stns (s : State) (a n : Nat) (write : Bool) : (s.ownTouch a n write).stns = s.stns := rfl
@[simp] theorem State.ownTouch_moves (s : State) (a n : Nat) (write : Bool) : (s.ownTouch a n write).moves = s.moves := rfl
@[simp] theorem State.ownTouch_classes (s : State) (a n : Nat) (write : Bool) : (s.ownTouch a n write).classes = s.classes := rfl
@[simp] theorem State.ownTouch_loads (s : State) (a n : Nat) (write : Bool) : (s.ownTouch a n write).loads = s.loads := rfl
@[simp] theorem State.ownTouch_pod (s : State) (a n : Nat) (write : Bool) : (s.ownTouch a n write).pod = s.pod := rfl
@[simp] theorem State.ownTouch_module (s : State) (a n : Nat) (write : Bool) : (s.ownTouch a n write).module = s.module := rfl
@[simp] theorem State.ownTouch_focus (s : State) (a n : Nat) (write : Bool) : (s.ownTouch a n write).focus = s.focus := rfl
@[simp] theorem State.ownTouch_nextId (s : State) (a n : Nat) (write : Bool) : (s.ownTouch a n write).nextId = s.nextId := rfl
@[simp] theorem State.ownTouch_dirEntry (s : State) (a n : Nat) (write : Bool) (i : Nat) : (s.ownTouch a n write).dirEntry i = s.dirEntry i := rfl

/-- Bytes written depend on memory alone. -/
theorem State.writeByte_hbm_congr {s t : State} (h : s.hbm = t.hbm) (a : Nat) (b : Byte) : (s.writeByte a b).hbm = (t.writeByte a b).hbm := by
  simp [State.writeByte, h]

theorem State.writeBytes_hbm_congr (a : Nat) (bs : List Byte) {s t : State} (h : s.hbm = t.hbm) :
    (s.writeBytes a bs).hbm = (t.writeBytes a bs).hbm := by
  induction bs generalizing a s t with
  | nil => exact h
  | cons b r ih => exact ih (a + 1) (State.writeByte_hbm_congr h a b)

/-- The bytes of memory after an own store are those after the plain write. -/
@[simp] theorem State.ownStore_readByte (s : State) (a : Nat) (bs : List Byte) (j : Nat) :
    (s.ownStore a bs).readByte j = (s.writeBytes a bs).readByte j := by
  rw [State.ownStore, State.storeBytes_readByte]
  unfold State.readByte
  rw [State.writeBytes_hbm_congr a bs (State.ownTouch_hbm s a bs.length true)]

/-- An own store keeps the memories' canonical form. -/
theorem State.ownStore_memWf (s : State) (a : Nat) (bs : List Byte) (h : s.memWf = true) : (s.ownStore a bs).memWf = true :=
  State.storeBytes_memWf _ _ _ (by simpa [State.memWf] using h)

/-- An interrupt leaves the memories alone. -/
theorem State.queueInterrupt_memWf (s : State) (fq fn cause : Nat) : (s.queueInterrupt fq fn cause).memWf = s.memWf := by
  unfold State.queueInterrupt State.interrupt
  simp only
  split
  · rfl
  · split
    · split <;> rfl
    · rfl

/-- A fault record keeps the memories' canonical form. -/
theorem State.postAt_memWf (s : State) (fq fn cause : Nat) (bs : List Byte) (h : s.memWf = true) :
    (s.postAt fq fn cause bs).memWf = true := by
  unfold State.postAt
  simp only
  rw [State.queueInterrupt_memWf]
  exact State.ownStore_memWf _ _ _ (s.ownStore_memWf _ _ h)

end Sys2Proof.Machine
end

