-- ==== Sys2Proof/Laws/PerInstr.lean ====
section
/-!
SUPPORT. One lemma per constructor of the instruction type, about an instruction's own words.
-/
namespace Sys2Proof.Laws.WordFits

set_option Elab.async false

/-- R21, R28. The words that encode an instruction are 32 bits wide: its first word, and its literal where it has one. -/
def Statement (i : Instr) : Prop := encodeWord i < 4294967296 ∧ ∀ l, encodeLit i = some l → l < 4294967296

theorem clauseFetch (q : Nat) : Statement (.clauseFetch q) :=
  ⟨(by omega : 0 < 4294967296), fun _ h => nomatch h⟩

theorem clauseIssue (lane : Nat) : Statement (.clauseIssue lane) :=
  ⟨(by omega : 0 < 4294967296), fun _ h => nomatch h⟩

theorem add (w : BitVec 2) (g : BitVec 4) (n m : BitVec 1) (d a b : BitVec 6) : Statement (.add w g n m d a b) :=
  ⟨(by omega : w.toNat * 16777216 + g.toNat * 1048576 + n.toNat * 524288 + m.toNat * 262144 + d.toNat * 4096 + a.toNat * 64 + b.toNat < 4294967296), fun _ h => nomatch h⟩

theorem sub (w : BitVec 2) (g : BitVec 4) (n m : BitVec 1) (d a b : BitVec 6) : Statement (.sub w g n m d a b) :=
  ⟨(by omega : 0x4000000 + w.toNat * 16777216 + g.toNat * 1048576 + n.toNat * 524288 + m.toNat * 262144 + d.toNat * 4096 + a.toNat * 64 + b.toNat < 4294967296), fun _ h => nomatch h⟩

theorem mul (w : BitVec 2) (g : BitVec 4) (n m : BitVec 1) (d a b : BitVec 6) : Statement (.mul w g n m d a b) :=
  ⟨(by omega : 0x8000000 + w.toNat * 16777216 + g.toNat * 1048576 + n.toNat * 524288 + m.toNat * 262144 + d.toNat * 4096 + a.toNat * 64 + b.toNat < 4294967296), fun _ h => nomatch h⟩

theorem mulhI (w : BitVec 2) (g : BitVec 4) (n m : BitVec 1) (d a b : BitVec 6) : Statement (.mulhI w g n m d a b) :=
  ⟨(by omega : 0xc000000 + w.toNat * 16777216 + g.toNat * 1048576 + n.toNat * 524288 + m.toNat * 262144 + d.toNat * 4096 + a.toNat * 64 + b.toNat < 4294967296), fun _ h => nomatch h⟩

theorem mulhN (w : BitVec 2) (g : BitVec 4) (n m : BitVec 1) (d a b : BitVec 6) : Statement (.mulhN w g n m d a b) :=
  ⟨(by omega : 0x10000000 + w.toNat * 16777216 + g.toNat * 1048576 + n.toNat * 524288 + m.toNat * 262144 + d.toNat * 4096 + a.toNat * 64 + b.toNat < 4294967296), fun _ h => nomatch h⟩

theorem addISat (w : BitVec 2) (g : BitVec 4) (n m : BitVec 1) (d a b : BitVec 6) : Statement (.addISat w g n m d a b) :=
  ⟨(by omega : 0x14000000 + w.toNat * 16777216 + g.toNat * 1048576 + n.toNat * 524288 + m.toNat * 262144 + d.toNat * 4096 + a.toNat * 64 + b.toNat < 4294967296), fun _ h => nomatch h⟩

theorem addNSat (w : BitVec 2) (g : BitVec 4) (n m : BitVec 1) (d a b : BitVec 6) : Statement (.addNSat w g n m d a b) :=
  ⟨(by omega : 0x18000000 + w.toNat * 16777216 + g.toNat * 1048576 + n.toNat * 524288 + m.toNat * 262144 + d.toNat * 4096 + a.toNat * 64 + b.toNat < 4294967296), fun _ h => nomatch h⟩

theorem subISat (w : BitVec 2) (g : BitVec 4) (n m : BitVec 1) (d a b : BitVec 6) : Statement (.subISat w g n m d a b) :=
  ⟨(by omega : 0x1c000000 + w.toNat * 16777216 + g.toNat * 1048576 + n.toNat * 524288 + m.toNat * 262144 + d.toNat * 4096 + a.toNat * 64 + b.toNat < 4294967296), fun _ h => nomatch h⟩

theorem subNSat (w : BitVec 2) (g : BitVec 4) (n m : BitVec 1) (d a b : BitVec 6) : Statement (.subNSat w g n m d a b) :=
  ⟨(by omega : 0x20000000 + w.toNat * 16777216 + g.toNat * 1048576 + n.toNat * 524288 + m.toNat * 262144 + d.toNat * 4096 + a.toNat * 64 + b.toNat < 4294967296), fun _ h => nomatch h⟩

theorem avgI (w : BitVec 2) (g : BitVec 4) (n m : BitVec 1) (d a b : BitVec 6) : Statement (.avgI w g n m d a b) :=
  ⟨(by omega : 0x24000000 + w.toNat * 16777216 + g.toNat * 1048576 + n.toNat * 524288 + m.toNat * 262144 + d.toNat * 4096 + a.toNat * 64 + b.toNat < 4294967296), fun _ h => nomatch h⟩

theorem avgN (w : BitVec 2) (g : BitVec 4) (n m : BitVec 1) (d a b : BitVec 6) : Statement (.avgN w g n m d a b) :=
  ⟨(by omega : 0x28000000 + w.toNat * 16777216 + g.toNat * 1048576 + n.toNat * 524288 + m.toNat * 262144 + d.toNat * 4096 + a.toNat * 64 + b.toNat < 4294967296), fun _ h => nomatch h⟩

theorem minI (w : BitVec 2) (g : BitVec 4) (n m : BitVec 1) (d a b : BitVec 6) : Statement (.minI w g n m d a b) :=
  ⟨(by omega : 0x2c000000 + w.toNat * 16777216 + g.toNat * 1048576 + n.toNat * 524288 + m.toNat * 262144 + d.toNat * 4096 + a.toNat * 64 + b.toNat < 4294967296), fun _ h => nomatch h⟩

theorem minN (w : BitVec 2) (g : BitVec 4) (n m : BitVec 1) (d a b : BitVec 6) : Statement (.minN w g n m d a b) :=
  ⟨(by omega : 0x30000000 + w.toNat * 16777216 + g.toNat * 1048576 + n.toNat * 524288 + m.toNat * 262144 + d.toNat * 4096 + a.toNat * 64 + b.toNat < 4294967296), fun _ h => nomatch h⟩

theorem maxI (w : BitVec 2) (g : BitVec 4) (n m : BitVec 1) (d a b : BitVec 6) : Statement (.maxI w g n m d a b) :=
  ⟨(by omega : 0x34000000 + w.toNat * 16777216 + g.toNat * 1048576 + n.toNat * 524288 + m.toNat * 262144 + d.toNat * 4096 + a.toNat * 64 + b.toNat < 4294967296), fun _ h => nomatch h⟩

theorem maxN (w : BitVec 2) (g : BitVec 4) (n m : BitVec 1) (d a b : BitVec 6) : Statement (.maxN w g n m d a b) :=
  ⟨(by omega : 0x38000000 + w.toNat * 16777216 + g.toNat * 1048576 + n.toNat * 524288 + m.toNat * 262144 + d.toNat * 4096 + a.toNat * 64 + b.toNat < 4294967296), fun _ h => nomatch h⟩

theorem shl (w : BitVec 2) (g : BitVec 4) (n m : BitVec 1) (d a b : BitVec 6) : Statement (.shl w g n m d a b) :=
  ⟨(by omega : 0x3c000000 + w.toNat * 16777216 + g.toNat * 1048576 + n.toNat * 524288 + m.toNat * 262144 + d.toNat * 4096 + a.toNat * 64 + b.toNat < 4294967296), fun _ h => nomatch h⟩

theorem shrN (w : BitVec 2) (g : BitVec 4) (n m : BitVec 1) (d a b : BitVec 6) : Statement (.shrN w g n m d a b) :=
  ⟨(by omega : 0x40000000 + w.toNat * 16777216 + g.toNat * 1048576 + n.toNat * 524288 + m.toNat * 262144 + d.toNat * 4096 + a.toNat * 64 + b.toNat < 4294967296), fun _ h => nomatch h⟩

theorem shrI (w : BitVec 2) (g : BitVec 4) (n m : BitVec 1) (d a b : BitVec 6) : Statement (.shrI w g n m d a b) :=
  ⟨(by omega : 0x44000000 + w.toNat * 16777216 + g.toNat * 1048576 + n.toNat * 524288 + m.toNat * 262144 + d.toNat * 4096 + a.toNat * 64 + b.toNat < 4294967296), fun _ h => nomatch h⟩

theorem cmpeq (w : BitVec 2) (g : BitVec 4) (n : BitVec 1) (p : BitVec 7) (a b : BitVec 6) : Statement (.cmpeq w g n p a b) :=
  ⟨(by omega : 0x48000000 + w.toNat * 16777216 + g.toNat * 1048576 + n.toNat * 524288 + p.toNat * 4096 + a.toNat * 64 + b.toNat < 4294967296), fun _ h => nomatch h⟩

theorem cmpltI (w : BitVec 2) (g : BitVec 4) (n : BitVec 1) (p : BitVec 7) (a b : BitVec 6) : Statement (.cmpltI w g n p a b) :=
  ⟨(by omega : 0x4c000000 + w.toNat * 16777216 + g.toNat * 1048576 + n.toNat * 524288 + p.toNat * 4096 + a.toNat * 64 + b.toNat < 4294967296), fun _ h => nomatch h⟩

theorem cmpltN (w : BitVec 2) (g : BitVec 4) (n : BitVec 1) (p : BitVec 7) (a b : BitVec 6) : Statement (.cmpltN w g n p a b) :=
  ⟨(by omega : 0x50000000 + w.toNat * 16777216 + g.toNat * 1048576 + n.toNat * 524288 + p.toNat * 4096 + a.toNat * 64 + b.toNat < 4294967296), fun _ h => nomatch h⟩

theorem cmpleI (w : BitVec 2) (g : BitVec 4) (n : BitVec 1) (p : BitVec 7) (a b : BitVec 6) : Statement (.cmpleI w g n p a b) :=
  ⟨(by omega : 0x54000000 + w.toNat * 16777216 + g.toNat * 1048576 + n.toNat * 524288 + p.toNat * 4096 + a.toNat * 64 + b.toNat < 4294967296), fun _ h => nomatch h⟩

theorem cmpleN (w : BitVec 2) (g : BitVec 4) (n : BitVec 1) (p : BitVec 7) (a b : BitVec 6) : Statement (.cmpleN w g n p a b) :=
  ⟨(by omega : 0x58000000 + w.toNat * 16777216 + g.toNat * 1048576 + n.toNat * 524288 + p.toNat * 4096 + a.toNat * 64 + b.toNat < 4294967296), fun _ h => nomatch h⟩

theorem cmpne (w : BitVec 2) (g : BitVec 4) (n : BitVec 1) (p : BitVec 7) (a b : BitVec 6) : Statement (.cmpne w g n p a b) :=
  ⟨(by omega : 0x5c000000 + w.toNat * 16777216 + g.toNat * 1048576 + n.toNat * 524288 + p.toNat * 4096 + a.toNat * 64 + b.toNat < 4294967296), fun _ h => nomatch h⟩

theorem and (g : BitVec 4) (n m : BitVec 1) (d a b : BitVec 6) : Statement (.and g n m d a b) :=
  ⟨(by omega : 0x60000000 + g.toNat * 1048576 + n.toNat * 524288 + m.toNat * 262144 + d.toNat * 4096 + a.toNat * 64 + b.toNat < 4294967296), fun _ h => nomatch h⟩

theorem or (g : BitVec 4) (n m : BitVec 1) (d a b : BitVec 6) : Statement (.or g n m d a b) :=
  ⟨(by omega : 0x61000000 + g.toNat * 1048576 + n.toNat * 524288 + m.toNat * 262144 + d.toNat * 4096 + a.toNat * 64 + b.toNat < 4294967296), fun _ h => nomatch h⟩

theorem xor (g : BitVec 4) (n m : BitVec 1) (d a b : BitVec 6) : Statement (.xor g n m d a b) :=
  ⟨(by omega : 0x62000000 + g.toNat * 1048576 + n.toNat * 524288 + m.toNat * 262144 + d.toNat * 4096 + a.toNat * 64 + b.toNat < 4294967296), fun _ h => nomatch h⟩

theorem andn (g : BitVec 4) (n m : BitVec 1) (d a b : BitVec 6) : Statement (.andn g n m d a b) :=
  ⟨(by omega : 0x63000000 + g.toNat * 1048576 + n.toNat * 524288 + m.toNat * 262144 + d.toNat * 4096 + a.toNat * 64 + b.toNat < 4294967296), fun _ h => nomatch h⟩

theorem not (g : BitVec 4) (n : BitVec 1) (d a : BitVec 6) : Statement (.not g n d a) :=
  ⟨(by omega : 0x64000000 + g.toNat * 1048576 + n.toNat * 524288 + d.toNat * 4096 + a.toNat * 64 < 4294967296), fun _ h => nomatch h⟩

theorem mov (g : BitVec 4) (n m : BitVec 1) (d b : BitVec 6) : Statement (.mov g n m d b) :=
  ⟨(by omega : 0x65000000 + g.toNat * 1048576 + n.toNat * 524288 + m.toNat * 262144 + d.toNat * 4096 + b.toNat < 4294967296), fun _ h => nomatch h⟩

theorem sel (g : BitVec 4) (n m : BitVec 1) (d a b : BitVec 6) : Statement (.sel g n m d a b) :=
  ⟨(by omega : 0x66000000 + g.toNat * 1048576 + n.toNat * 524288 + m.toNat * 262144 + d.toNat * 4096 + a.toNat * 64 + b.toNat < 4294967296), fun _ h => nomatch h⟩

theorem movl (g : BitVec 4) (n m : BitVec 1) (d : BitVec 6) (lit : BitVec 32) : Statement (.movl g n m d lit) :=
  ⟨(by omega : 0x67000000 + g.toNat * 1048576 + n.toNat * 524288 + m.toNat * 262144 + d.toNat * 4096 < 4294967296), fun _ h => by cases h; omega⟩

theorem popc (g : BitVec 4) (n : BitVec 1) (d a : BitVec 6) : Statement (.popc g n d a) :=
  ⟨(by omega : 0x68000000 + g.toNat * 1048576 + n.toNat * 524288 + d.toNat * 4096 + a.toNat * 64 < 4294967296), fun _ h => nomatch h⟩

theorem clz (g : BitVec 4) (n : BitVec 1) (d a : BitVec 6) : Statement (.clz g n d a) :=
  ⟨(by omega : 0x69000000 + g.toNat * 1048576 + n.toNat * 524288 + d.toNat * 4096 + a.toNat * 64 < 4294967296), fun _ h => nomatch h⟩

theorem ctz (g : BitVec 4) (n : BitVec 1) (d a : BitVec 6) : Statement (.ctz g n d a) :=
  ⟨(by omega : 0x6a000000 + g.toNat * 1048576 + n.toNat * 524288 + d.toNat * 4096 + a.toNat * 64 < 4294967296), fun _ h => nomatch h⟩

theorem brev (g : BitVec 4) (n : BitVec 1) (d a : BitVec 6) : Statement (.brev g n d a) :=
  ⟨(by omega : 0x6b000000 + g.toNat * 1048576 + n.toNat * 524288 + d.toNat * 4096 + a.toNat * 64 < 4294967296), fun _ h => nomatch h⟩

theorem bfxN (g : BitVec 4) (n m : BitVec 1) (d a b : BitVec 6) : Statement (.bfxN g n m d a b) :=
  ⟨(by omega : 0x6c000000 + g.toNat * 1048576 + n.toNat * 524288 + m.toNat * 262144 + d.toNat * 4096 + a.toNat * 64 + b.toNat < 4294967296), fun _ h => nomatch h⟩

theorem bfxI (g : BitVec 4) (n m : BitVec 1) (d a b : BitVec 6) : Statement (.bfxI g n m d a b) :=
  ⟨(by omega : 0x6d000000 + g.toNat * 1048576 + n.toNat * 524288 + m.toNat * 262144 + d.toNat * 4096 + a.toNat * 64 + b.toNat < 4294967296), fun _ h => nomatch h⟩

theorem bfi (g : BitVec 4) (n m : BitVec 1) (d a b : BitVec 6) : Statement (.bfi g n m d a b) :=
  ⟨(by omega : 0x6e000000 + g.toNat * 1048576 + n.toNat * 524288 + m.toNat * 262144 + d.toNat * 4096 + a.toNat * 64 + b.toNat < 4294967296), fun _ h => nomatch h⟩

theorem rot (g : BitVec 4) (n m : BitVec 1) (d a b : BitVec 6) : Statement (.rot g n m d a b) :=
  ⟨(by omega : 0x6f000000 + g.toNat * 1048576 + n.toNat * 524288 + m.toNat * 262144 + d.toNat * 4096 + a.toNat * 64 + b.toNat < 4294967296), fun _ h => nomatch h⟩

theorem abs (w : BitVec 2) (g : BitVec 4) (n : BitVec 1) (d a : BitVec 6) : Statement (.abs w g n d a) :=
  ⟨(by omega : 0x70000000 + w.toNat * 16777216 + g.toNat * 1048576 + n.toNat * 524288 + d.toNat * 4096 + a.toNat * 64 < 4294967296), fun _ h => nomatch h⟩

theorem pand (g : BitVec 4) (n : BitVec 1) (p : BitVec 7) (a b : BitVec 6) : Statement (.pand g n p a b) :=
  ⟨(by omega : 0x74000000 + g.toNat * 1048576 + n.toNat * 524288 + p.toNat * 4096 + a.toNat * 64 + b.toNat < 4294967296), fun _ h => nomatch h⟩

theorem por (g : BitVec 4) (n : BitVec 1) (p : BitVec 7) (a b : BitVec 6) : Statement (.por g n p a b) :=
  ⟨(by omega : 0x75000000 + g.toNat * 1048576 + n.toNat * 524288 + p.toNat * 4096 + a.toNat * 64 + b.toNat < 4294967296), fun _ h => nomatch h⟩

theorem pxor (g : BitVec 4) (n : BitVec 1) (p : BitVec 7) (a b : BitVec 6) : Statement (.pxor g n p a b) :=
  ⟨(by omega : 0x76000000 + g.toNat * 1048576 + n.toNat * 524288 + p.toNat * 4096 + a.toNat * 64 + b.toNat < 4294967296), fun _ h => nomatch h⟩

theorem pandn (g : BitVec 4) (n : BitVec 1) (p : BitVec 7) (a b : BitVec 6) : Statement (.pandn g n p a b) :=
  ⟨(by omega : 0x77000000 + g.toNat * 1048576 + n.toNat * 524288 + p.toNat * 4096 + a.toNat * 64 + b.toNat < 4294967296), fun _ h => nomatch h⟩

theorem pnot (g : BitVec 4) (n : BitVec 1) (p : BitVec 7) (a : BitVec 6) : Statement (.pnot g n p a) :=
  ⟨(by omega : 0x78000000 + g.toNat * 1048576 + n.toNat * 524288 + p.toNat * 4096 + a.toNat * 64 < 4294967296), fun _ h => nomatch h⟩

theorem xread (g : BitVec 4) (n : BitVec 1) (p : BitVec 7) (d a : BitVec 6) (t : BitVec 5) (j : BitVec 3) (w : BitVec 2) : Statement (.xread g n p d a t j w) :=
  ⟨(by omega : 0x79000000 + g.toNat * 1048576 + n.toNat * 524288 + p.toNat * 4096 + d.toNat * 64 + a.toNat < 4294967296), fun _ h => by cases h; omega⟩

theorem xshuf (g : BitVec 4) (n : BitVec 1) (p : BitVec 7) (d a x : BitVec 6) : Statement (.xshuf g n p d a x) :=
  ⟨(by omega : 0x7a000000 + g.toNat * 1048576 + n.toNat * 524288 + p.toNat * 4096 + d.toNat * 64 + a.toNat < 4294967296), fun _ h => by cases h; omega⟩

theorem xbcast (g : BitVec 4) (n : BitVec 1) (p : BitVec 7) (d a : BitVec 6) (t : BitVec 5) : Statement (.xbcast g n p d a t) :=
  ⟨(by omega : 0x7b000000 + g.toNat * 1048576 + n.toNat * 524288 + p.toNat * 4096 + d.toNat * 64 + a.toNat < 4294967296), fun _ h => by cases h; omega⟩

theorem redand (g : BitVec 4) (n : BitVec 1) (d a b : BitVec 6) : Statement (.redand g n d a b) :=
  ⟨(by omega : 0x7c000000 + g.toNat * 1048576 + n.toNat * 524288 + d.toNat * 4096 + a.toNat * 64 + b.toNat < 4294967296), fun _ h => nomatch h⟩

theorem redor (g : BitVec 4) (n : BitVec 1) (d a b : BitVec 6) : Statement (.redor g n d a b) :=
  ⟨(by omega : 0x7d000000 + g.toNat * 1048576 + n.toNat * 524288 + d.toNat * 4096 + a.toNat * 64 + b.toNat < 4294967296), fun _ h => nomatch h⟩

theorem redfadd (g : BitVec 4) (n : BitVec 1) (d a b : BitVec 6) : Statement (.redfadd g n d a b) :=
  ⟨(by omega : 0x7e000000 + g.toNat * 1048576 + n.toNat * 524288 + d.toNat * 4096 + a.toNat * 64 + b.toNat < 4294967296), fun _ h => nomatch h⟩

theorem redfmax (g : BitVec 4) (n : BitVec 1) (d a b : BitVec 6) : Statement (.redfmax g n d a b) :=
  ⟨(by omega : 0x7f000000 + g.toNat * 1048576 + n.toNat * 524288 + d.toNat * 4096 + a.toNat * 64 + b.toNat < 4294967296), fun _ h => nomatch h⟩

theorem fadd (f : BitVec 2) (g : BitVec 4) (n m : BitVec 1) (d a b : BitVec 6) : Statement (.fadd f g n m d a b) :=
  ⟨(by omega : 0x80000000 + f.toNat * 16777216 + g.toNat * 1048576 + n.toNat * 524288 + m.toNat * 262144 + d.toNat * 4096 + a.toNat * 64 + b.toNat < 4294967296), fun _ h => nomatch h⟩

theorem fsub (f : BitVec 2) (g : BitVec 4) (n m : BitVec 1) (d a b : BitVec 6) : Statement (.fsub f g n m d a b) :=
  ⟨(by omega : 0x84000000 + f.toNat * 16777216 + g.toNat * 1048576 + n.toNat * 524288 + m.toNat * 262144 + d.toNat * 4096 + a.toNat * 64 + b.toNat < 4294967296), fun _ h => nomatch h⟩

theorem fmul (f : BitVec 2) (g : BitVec 4) (n m : BitVec 1) (d a b : BitVec 6) : Statement (.fmul f g n m d a b) :=
  ⟨(by omega : 0x88000000 + f.toNat * 16777216 + g.toNat * 1048576 + n.toNat * 524288 + m.toNat * 262144 + d.toNat * 4096 + a.toNat * 64 + b.toNat < 4294967296), fun _ h => nomatch h⟩

theorem fma (f : BitVec 2) (g : BitVec 4) (n m : BitVec 1) (d a b : BitVec 6) : Statement (.fma f g n m d a b) :=
  ⟨(by omega : 0x8c000000 + f.toNat * 16777216 + g.toNat * 1048576 + n.toNat * 524288 + m.toNat * 262144 + d.toNat * 4096 + a.toNat * 64 + b.toNat < 4294967296), fun _ h => nomatch h⟩

theorem fmin (f : BitVec 2) (g : BitVec 4) (n m : BitVec 1) (d a b : BitVec 6) : Statement (.fmin f g n m d a b) :=
  ⟨(by omega : 0x90000000 + f.toNat * 16777216 + g.toNat * 1048576 + n.toNat * 524288 + m.toNat * 262144 + d.toNat * 4096 + a.toNat * 64 + b.toNat < 4294967296), fun _ h => nomatch h⟩

theorem fmax (f : BitVec 2) (g : BitVec 4) (n m : BitVec 1) (d a b : BitVec 6) : Statement (.fmax f g n m d a b) :=
  ⟨(by omega : 0x94000000 + f.toNat * 16777216 + g.toNat * 1048576 + n.toNat * 524288 + m.toNat * 262144 + d.toNat * 4096 + a.toNat * 64 + b.toNat < 4294967296), fun _ h => nomatch h⟩

theorem fabs (f : BitVec 2) (g : BitVec 4) (n : BitVec 1) (d a : BitVec 6) : Statement (.fabs f g n d a) :=
  ⟨(by omega : 0x98000000 + f.toNat * 16777216 + g.toNat * 1048576 + n.toNat * 524288 + d.toNat * 4096 + a.toNat * 64 < 4294967296), fun _ h => nomatch h⟩

theorem fneg (f : BitVec 2) (g : BitVec 4) (n : BitVec 1) (d a : BitVec 6) : Statement (.fneg f g n d a) :=
  ⟨(by omega : 0x9c000000 + f.toNat * 16777216 + g.toNat * 1048576 + n.toNat * 524288 + d.toNat * 4096 + a.toNat * 64 < 4294967296), fun _ h => nomatch h⟩

theorem fcmpeq (f : BitVec 2) (g : BitVec 4) (n : BitVec 1) (p : BitVec 7) (a b : BitVec 6) : Statement (.fcmpeq f g n p a b) :=
  ⟨(by omega : 0xa0000000 + f.toNat * 16777216 + g.toNat * 1048576 + n.toNat * 524288 + p.toNat * 4096 + a.toNat * 64 + b.toNat < 4294967296), fun _ h => nomatch h⟩

theorem fcmplt (f : BitVec 2) (g : BitVec 4) (n : BitVec 1) (p : BitVec 7) (a b : BitVec 6) : Statement (.fcmplt f g n p a b) :=
  ⟨(by omega : 0xa4000000 + f.toNat * 16777216 + g.toNat * 1048576 + n.toNat * 524288 + p.toNat * 4096 + a.toNat * 64 + b.toNat < 4294967296), fun _ h => nomatch h⟩

theorem fcmple (f : BitVec 2) (g : BitVec 4) (n : BitVec 1) (p : BitVec 7) (a b : BitVec 6) : Statement (.fcmple f g n p a b) :=
  ⟨(by omega : 0xa8000000 + f.toNat * 16777216 + g.toNat * 1048576 + n.toNat * 524288 + p.toNat * 4096 + a.toNat * 64 + b.toNat < 4294967296), fun _ h => nomatch h⟩

theorem fcmpun (f : BitVec 2) (g : BitVec 4) (n : BitVec 1) (p : BitVec 7) (a b : BitVec 6) : Statement (.fcmpun f g n p a b) :=
  ⟨(by omega : 0xac000000 + f.toNat * 16777216 + g.toNat * 1048576 + n.toNat * 524288 + p.toNat * 4096 + a.toNat * 64 + b.toNat < 4294967296), fun _ h => nomatch h⟩

theorem cvt (c g : BitVec 4) (n : BitVec 1) (d a : BitVec 6) (b : BitVec 4) (r : BitVec 3) : Statement (.cvt c g n d a b r) :=
  ⟨(by omega : 0xb0000000 + c.toNat * 16777216 + g.toNat * 1048576 + n.toNat * 524288 + d.toNat * 8192 + a.toNat * 128 + b.toNat * 8 + r.toNat < 4294967296), fun _ h => nomatch h⟩

theorem cvtSat (c g : BitVec 4) (n : BitVec 1) (d a : BitVec 6) (b : BitVec 4) (r : BitVec 3) : Statement (.cvtSat c g n d a b r) :=
  ⟨(by omega : 0xc0000000 + c.toNat * 16777216 + g.toNat * 1048576 + n.toNat * 524288 + d.toNat * 8192 + a.toNat * 128 + b.toNat * 8 + r.toNat < 4294967296), fun _ h => nomatch h⟩

theorem redadd (w : BitVec 2) (g : BitVec 4) (n : BitVec 1) (d a b : BitVec 6) : Statement (.redadd w g n d a b) :=
  ⟨(by omega : 0xd0000000 + w.toNat * 16777216 + g.toNat * 1048576 + n.toNat * 524288 + d.toNat * 4096 + a.toNat * 64 + b.toNat < 4294967296), fun _ h => nomatch h⟩

theorem redminI (w : BitVec 2) (g : BitVec 4) (n : BitVec 1) (d a b : BitVec 6) : Statement (.redminI w g n d a b) :=
  ⟨(by omega : 0xd4000000 + w.toNat * 16777216 + g.toNat * 1048576 + n.toNat * 524288 + d.toNat * 4096 + a.toNat * 64 + b.toNat < 4294967296), fun _ h => nomatch h⟩

theorem redminN (w : BitVec 2) (g : BitVec 4) (n : BitVec 1) (d a b : BitVec 6) : Statement (.redminN w g n d a b) :=
  ⟨(by omega : 0xd8000000 + w.toNat * 16777216 + g.toNat * 1048576 + n.toNat * 524288 + d.toNat * 4096 + a.toNat * 64 + b.toNat < 4294967296), fun _ h => nomatch h⟩

theorem redmaxI (w : BitVec 2) (g : BitVec 4) (n : BitVec 1) (d a b : BitVec 6) : Statement (.redmaxI w g n d a b) :=
  ⟨(by omega : 0xdc000000 + w.toNat * 16777216 + g.toNat * 1048576 + n.toNat * 524288 + d.toNat * 4096 + a.toNat * 64 + b.toNat < 4294967296), fun _ h => nomatch h⟩

theorem redmaxN (w : BitVec 2) (g : BitVec 4) (n : BitVec 1) (d a b : BitVec 6) : Statement (.redmaxN w g n d a b) :=
  ⟨(by omega : 0xe0000000 + w.toNat * 16777216 + g.toNat * 1048576 + n.toNat * 524288 + d.toNat * 4096 + a.toNat * 64 + b.toNat < 4294967296), fun _ h => nomatch h⟩

theorem scanadd (w : BitVec 2) (g : BitVec 4) (n : BitVec 1) (d a b : BitVec 6) : Statement (.scanadd w g n d a b) :=
  ⟨(by omega : 0xe4000000 + w.toNat * 16777216 + g.toNat * 1048576 + n.toNat * 524288 + d.toNat * 4096 + a.toNat * 64 + b.toNat < 4294967296), fun _ h => nomatch h⟩

theorem scanmaxI (w : BitVec 2) (g : BitVec 4) (n : BitVec 1) (d a b : BitVec 6) : Statement (.scanmaxI w g n d a b) :=
  ⟨(by omega : 0xe8000000 + w.toNat * 16777216 + g.toNat * 1048576 + n.toNat * 524288 + d.toNat * 4096 + a.toNat * 64 + b.toNat < 4294967296), fun _ h => nomatch h⟩

theorem scanmaxN (w : BitVec 2) (g : BitVec 4) (n : BitVec 1) (d a b : BitVec 6) : Statement (.scanmaxN w g n d a b) :=
  ⟨(by omega : 0xec000000 + w.toNat * 16777216 + g.toNat * 1048576 + n.toNat * 524288 + d.toNat * 4096 + a.toNat * 64 + b.toNat < 4294967296), fun _ h => nomatch h⟩

theorem addScalar (d a b : BitVec 6) : Statement (.addScalar d a b) :=
  ⟨(by omega : 0xf0000000 + d.toNat * 4096 + a.toNat * 64 + b.toNat < 4294967296), fun _ h => nomatch h⟩

theorem subScalar (d a b : BitVec 6) : Statement (.subScalar d a b) :=
  ⟨(by omega : 0xf1000000 + d.toNat * 4096 + a.toNat * 64 + b.toNat < 4294967296), fun _ h => nomatch h⟩

theorem mulScalar (d a b : BitVec 6) : Statement (.mulScalar d a b) :=
  ⟨(by omega : 0xf2000000 + d.toNat * 4096 + a.toNat * 64 + b.toNat < 4294967296), fun _ h => nomatch h⟩

theorem andScalar (d a b : BitVec 6) : Statement (.andScalar d a b) :=
  ⟨(by omega : 0xf3000000 + d.toNat * 4096 + a.toNat * 64 + b.toNat < 4294967296), fun _ h => nomatch h⟩

theorem orScalar (d a b : BitVec 6) : Statement (.orScalar d a b) :=
  ⟨(by omega : 0xf4000000 + d.toNat * 4096 + a.toNat * 64 + b.toNat < 4294967296), fun _ h => nomatch h⟩

theorem xorScalar (d a b : BitVec 6) : Statement (.xorScalar d a b) :=
  ⟨(by omega : 0xf5000000 + d.toNat * 4096 + a.toNat * 64 + b.toNat < 4294967296), fun _ h => nomatch h⟩

theorem shlScalar (d a b : BitVec 6) : Statement (.shlScalar d a b) :=
  ⟨(by omega : 0xf6000000 + d.toNat * 4096 + a.toNat * 64 + b.toNat < 4294967296), fun _ h => nomatch h⟩

theorem shrNScalar (d a b : BitVec 6) : Statement (.shrNScalar d a b) :=
  ⟨(by omega : 0xf7000000 + d.toNat * 4096 + a.toNat * 64 + b.toNat < 4294967296), fun _ h => nomatch h⟩

theorem shrIScalar (d a b : BitVec 6) : Statement (.shrIScalar d a b) :=
  ⟨(by omega : 0xf8000000 + d.toNat * 4096 + a.toNat * 64 + b.toNat < 4294967296), fun _ h => nomatch h⟩

theorem minIScalar (d a b : BitVec 6) : Statement (.minIScalar d a b) :=
  ⟨(by omega : 0xf9000000 + d.toNat * 4096 + a.toNat * 64 + b.toNat < 4294967296), fun _ h => nomatch h⟩

theorem maxIScalar (d a b : BitVec 6) : Statement (.maxIScalar d a b) :=
  ⟨(by omega : 0xfa000000 + d.toNat * 4096 + a.toNat * 64 + b.toNat < 4294967296), fun _ h => nomatch h⟩

theorem minNScalar (d a b : BitVec 6) : Statement (.minNScalar d a b) :=
  ⟨(by omega : 0xfb000000 + d.toNat * 4096 + a.toNat * 64 + b.toNat < 4294967296), fun _ h => nomatch h⟩

theorem maxNScalar (d a b : BitVec 6) : Statement (.maxNScalar d a b) :=
  ⟨(by omega : 0xfc000000 + d.toNat * 4096 + a.toNat * 64 + b.toNat < 4294967296), fun _ h => nomatch h⟩

theorem movlScalar (m : BitVec 1) (d : BitVec 6) (lit : BitVec 32) : Statement (.movlScalar m d lit) :=
  ⟨(by omega : 0xfd000000 + m.toNat * 262144 + d.toNat * 4096 < 4294967296), fun _ h => by cases h; omega⟩

theorem cmpeqScalar (p : BitVec 7) (a b : BitVec 6) : Statement (.cmpeqScalar p a b) :=
  ⟨(by omega : 0xfe000000 + p.toNat * 4096 + a.toNat * 64 + b.toNat < 4294967296), fun _ h => nomatch h⟩

theorem cmpltScalar (p : BitVec 7) (a b : BitVec 6) : Statement (.cmpltScalar p a b) :=
  ⟨(by omega : 0xff000000 + p.toNat * 4096 + a.toNat * 64 + b.toNat < 4294967296), fun _ h => nomatch h⟩

theorem rcp (f : BitVec 2) (g : BitVec 4) (n : BitVec 1) (d a : BitVec 6) : Statement (.rcp f g n d a) :=
  ⟨(by omega : f.toNat * 16777216 + g.toNat * 1048576 + n.toNat * 524288 + d.toNat * 4096 + a.toNat * 64 < 4294967296), fun _ h => nomatch h⟩

theorem rsq (f : BitVec 2) (g : BitVec 4) (n : BitVec 1) (d a : BitVec 6) : Statement (.rsq f g n d a) :=
  ⟨(by omega : 0x4000000 + f.toNat * 16777216 + g.toNat * 1048576 + n.toNat * 524288 + d.toNat * 4096 + a.toNat * 64 < 4294967296), fun _ h => nomatch h⟩

theorem sqrt (f : BitVec 2) (g : BitVec 4) (n : BitVec 1) (d a : BitVec 6) : Statement (.sqrt f g n d a) :=
  ⟨(by omega : 0x8000000 + f.toNat * 16777216 + g.toNat * 1048576 + n.toNat * 524288 + d.toNat * 4096 + a.toNat * 64 < 4294967296), fun _ h => nomatch h⟩

theorem exp2 (f : BitVec 2) (g : BitVec 4) (n : BitVec 1) (d a : BitVec 6) : Statement (.exp2 f g n d a) :=
  ⟨(by omega : 0xc000000 + f.toNat * 16777216 + g.toNat * 1048576 + n.toNat * 524288 + d.toNat * 4096 + a.toNat * 64 < 4294967296), fun _ h => nomatch h⟩

theorem log2 (f : BitVec 2) (g : BitVec 4) (n : BitVec 1) (d a : BitVec 6) : Statement (.log2 f g n d a) :=
  ⟨(by omega : 0x10000000 + f.toNat * 16777216 + g.toNat * 1048576 + n.toNat * 524288 + d.toNat * 4096 + a.toNat * 64 < 4294967296), fun _ h => nomatch h⟩

theorem sin (f : BitVec 2) (g : BitVec 4) (n : BitVec 1) (d a : BitVec 6) : Statement (.sin f g n d a) :=
  ⟨(by omega : 0x14000000 + f.toNat * 16777216 + g.toNat * 1048576 + n.toNat * 524288 + d.toNat * 4096 + a.toNat * 64 < 4294967296), fun _ h => nomatch h⟩

theorem cos (f : BitVec 2) (g : BitVec 4) (n : BitVec 1) (d a : BitVec 6) : Statement (.cos f g n d a) :=
  ⟨(by omega : 0x18000000 + f.toNat * 16777216 + g.toNat * 1048576 + n.toNat * 524288 + d.toNat * 4096 + a.toNat * 64 < 4294967296), fun _ h => nomatch h⟩

theorem tanh (f : BitVec 2) (g : BitVec 4) (n : BitVec 1) (d a : BitVec 6) : Statement (.tanh f g n d a) :=
  ⟨(by omega : 0x1c000000 + f.toNat * 16777216 + g.toNat * 1048576 + n.toNat * 524288 + d.toNat * 4096 + a.toNat * 64 < 4294967296), fun _ h => nomatch h⟩

theorem ldgN (w : BitVec 2) (g : BitVec 4) (n : BitVec 1) (t b : BitVec 6) (x : BitVec 1) (o : BitVec 6) : Statement (.ldgN w g n t b x o) :=
  ⟨(by omega : w.toNat * 16777216 + g.toNat * 1048576 + n.toNat * 524288 + t.toNat * 8192 + b.toNat * 128 + x.toNat * 64 + o.toNat < 4294967296), fun _ h => nomatch h⟩

theorem ldgI (w : BitVec 2) (g : BitVec 4) (n : BitVec 1) (t b : BitVec 6) (x : BitVec 1) (o : BitVec 6) : Statement (.ldgI w g n t b x o) :=
  ⟨(by omega : 0x4000000 + w.toNat * 16777216 + g.toNat * 1048576 + n.toNat * 524288 + t.toNat * 8192 + b.toNat * 128 + x.toNat * 64 + o.toNat < 4294967296), fun _ h => nomatch h⟩

theorem stg (w : BitVec 2) (g : BitVec 4) (n : BitVec 1) (t b : BitVec 6) (x : BitVec 1) (o : BitVec 6) : Statement (.stg w g n t b x o) :=
  ⟨(by omega : 0x8000000 + w.toNat * 16777216 + g.toNat * 1048576 + n.toNat * 524288 + t.toNat * 8192 + b.toNat * 128 + x.toNat * 64 + o.toNat < 4294967296), fun _ h => nomatch h⟩

theorem ldgNf (w : BitVec 2) (g : BitVec 4) (n : BitVec 1) (t b : BitVec 6) (x : BitVec 1) (o : BitVec 6) : Statement (.ldgNf w g n t b x o) :=
  ⟨(by omega : 0xc000000 + w.toNat * 16777216 + g.toNat * 1048576 + n.toNat * 524288 + t.toNat * 8192 + b.toNat * 128 + x.toNat * 64 + o.toNat < 4294967296), fun _ h => nomatch h⟩

theorem ldsN (w : BitVec 2) (g : BitVec 4) (n : BitVec 1) (t b : BitVec 6) (x : BitVec 1) (o : BitVec 6) : Statement (.ldsN w g n t b x o) :=
  ⟨(by omega : 0x10000000 + w.toNat * 16777216 + g.toNat * 1048576 + n.toNat * 524288 + t.toNat * 8192 + b.toNat * 128 + x.toNat * 64 + o.toNat < 4294967296), fun _ h => nomatch h⟩

theorem ldsI (w : BitVec 2) (g : BitVec 4) (n : BitVec 1) (t b : BitVec 6) (x : BitVec 1) (o : BitVec 6) : Statement (.ldsI w g n t b x o) :=
  ⟨(by omega : 0x14000000 + w.toNat * 16777216 + g.toNat * 1048576 + n.toNat * 524288 + t.toNat * 8192 + b.toNat * 128 + x.toNat * 64 + o.toNat < 4294967296), fun _ h => nomatch h⟩

theorem sts (w : BitVec 2) (g : BitVec 4) (n : BitVec 1) (t b : BitVec 6) (x : BitVec 1) (o : BitVec 6) : Statement (.sts w g n t b x o) :=
  ⟨(by omega : 0x18000000 + w.toNat * 16777216 + g.toNat * 1048576 + n.toNat * 524288 + t.toNat * 8192 + b.toNat * 128 + x.toNat * 64 + o.toNat < 4294967296), fun _ h => nomatch h⟩

theorem ldr (g : BitVec 4) (n : BitVec 1) (t b : BitVec 6) (x : BitVec 1) (o : BitVec 6) : Statement (.ldr g n t b x o) :=
  ⟨(by omega : 0x1c000000 + g.toNat * 1048576 + n.toNat * 524288 + t.toNat * 8192 + b.toNat * 128 + x.toNat * 64 + o.toNat < 4294967296), fun _ h => nomatch h⟩

theorem str (g : BitVec 4) (n : BitVec 1) (t b : BitVec 6) (x : BitVec 1) (o : BitVec 6) : Statement (.str g n t b x o) :=
  ⟨(by omega : 0x1d000000 + g.toNat * 1048576 + n.toNat * 524288 + t.toNat * 8192 + b.toNat * 128 + x.toNat * 64 + o.toNat < 4294967296), fun _ h => nomatch h⟩

theorem lda (g : BitVec 4) (n : BitVec 1) (t b : BitVec 6) (x : BitVec 1) (o : BitVec 6) : Statement (.lda g n t b x o) :=
  ⟨(by omega : 0x1e000000 + g.toNat * 1048576 + n.toNat * 524288 + t.toNat * 8192 + b.toNat * 128 + x.toNat * 64 + o.toNat < 4294967296), fun _ h => nomatch h⟩

theorem sta (g : BitVec 4) (n : BitVec 1) (t b : BitVec 6) (x : BitVec 1) (o : BitVec 6) : Statement (.sta g n t b x o) :=
  ⟨(by omega : 0x1f000000 + g.toNat * 1048576 + n.toNat * 524288 + t.toNat * 8192 + b.toNat * 128 + x.toNat * 64 + o.toNat < 4294967296), fun _ h => nomatch h⟩

theorem ldp (w : BitVec 2) (g : BitVec 4) (n : BitVec 1) (t b : BitVec 6) (x : BitVec 1) (o : BitVec 6) : Statement (.ldp w g n t b x o) :=
  ⟨(by omega : 0x20000000 + w.toNat * 16777216 + g.toNat * 1048576 + n.toNat * 524288 + t.toNat * 8192 + b.toNat * 128 + x.toNat * 64 + o.toNat < 4294967296), fun _ h => nomatch h⟩

theorem stp (w : BitVec 2) (g : BitVec 4) (n : BitVec 1) (t b : BitVec 6) (x : BitVec 1) (o : BitVec 6) : Statement (.stp w g n t b x o) :=
  ⟨(by omega : 0x24000000 + w.toNat * 16777216 + g.toNat * 1048576 + n.toNat * 524288 + t.toNat * 8192 + b.toNat * 128 + x.toNat * 64 + o.toNat < 4294967296), fun _ h => nomatch h⟩

theorem ldgScalar (t b o : BitVec 6) : Statement (.ldgScalar t b o) :=
  ⟨(by omega : 0x28000000 + t.toNat * 8192 + b.toNat * 128 + o.toNat < 4294967296), fun _ h => nomatch h⟩

theorem stgScalar (t b o : BitVec 6) : Statement (.stgScalar t b o) :=
  ⟨(by omega : 0x29000000 + t.toNat * 8192 + b.toNat * 128 + o.toNat < 4294967296), fun _ h => nomatch h⟩

theorem ldsScalar (t b o : BitVec 6) : Statement (.ldsScalar t b o) :=
  ⟨(by omega : 0x2a000000 + t.toNat * 8192 + b.toNat * 128 + o.toNat < 4294967296), fun _ h => nomatch h⟩

theorem stsScalar (t b o : BitVec 6) : Statement (.stsScalar t b o) :=
  ⟨(by omega : 0x2b000000 + t.toNat * 8192 + b.toNat * 128 + o.toNat < 4294967296), fun _ h => nomatch h⟩

theorem atomgAdd (v : BitVec 1) (g : BitVec 4) (n : BitVec 1) (t b : BitVec 6) (x : BitVec 1) (o : BitVec 6) : Statement (.atomgAdd v g n t b x o) :=
  ⟨(by omega : 0x40000000 + v.toNat * 16777216 + g.toNat * 1048576 + n.toNat * 524288 + t.toNat * 8192 + b.toNat * 128 + x.toNat * 64 + o.toNat < 4294967296), fun _ h => nomatch h⟩

theorem atomgMinI (v : BitVec 1) (g : BitVec 4) (n : BitVec 1) (t b : BitVec 6) (x : BitVec 1) (o : BitVec 6) : Statement (.atomgMinI v g n t b x o) :=
  ⟨(by omega : 0x42000000 + v.toNat * 16777216 + g.toNat * 1048576 + n.toNat * 524288 + t.toNat * 8192 + b.toNat * 128 + x.toNat * 64 + o.toNat < 4294967296), fun _ h => nomatch h⟩

theorem atomgMinN (v : BitVec 1) (g : BitVec 4) (n : BitVec 1) (t b : BitVec 6) (x : BitVec 1) (o : BitVec 6) : Statement (.atomgMinN v g n t b x o) :=
  ⟨(by omega : 0x44000000 + v.toNat * 16777216 + g.toNat * 1048576 + n.toNat * 524288 + t.toNat * 8192 + b.toNat * 128 + x.toNat * 64 + o.toNat < 4294967296), fun _ h => nomatch h⟩

theorem atomgMaxI (v : BitVec 1) (g : BitVec 4) (n : BitVec 1) (t b : BitVec 6) (x : BitVec 1) (o : BitVec 6) : Statement (.atomgMaxI v g n t b x o) :=
  ⟨(by omega : 0x46000000 + v.toNat * 16777216 + g.toNat * 1048576 + n.toNat * 524288 + t.toNat * 8192 + b.toNat * 128 + x.toNat * 64 + o.toNat < 4294967296), fun _ h => nomatch h⟩

theorem atomgMaxN (v : BitVec 1) (g : BitVec 4) (n : BitVec 1) (t b : BitVec 6) (x : BitVec 1) (o : BitVec 6) : Statement (.atomgMaxN v g n t b x o) :=
  ⟨(by omega : 0x48000000 + v.toNat * 16777216 + g.toNat * 1048576 + n.toNat * 524288 + t.toNat * 8192 + b.toNat * 128 + x.toNat * 64 + o.toNat < 4294967296), fun _ h => nomatch h⟩

theorem atomgAnd (v : BitVec 1) (g : BitVec 4) (n : BitVec 1) (t b : BitVec 6) (x : BitVec 1) (o : BitVec 6) : Statement (.atomgAnd v g n t b x o) :=
  ⟨(by omega : 0x4a000000 + v.toNat * 16777216 + g.toNat * 1048576 + n.toNat * 524288 + t.toNat * 8192 + b.toNat * 128 + x.toNat * 64 + o.toNat < 4294967296), fun _ h => nomatch h⟩

theorem atomgOr (v : BitVec 1) (g : BitVec 4) (n : BitVec 1) (t b : BitVec 6) (x : BitVec 1) (o : BitVec 6) : Statement (.atomgOr v g n t b x o) :=
  ⟨(by omega : 0x4c000000 + v.toNat * 16777216 + g.toNat * 1048576 + n.toNat * 524288 + t.toNat * 8192 + b.toNat * 128 + x.toNat * 64 + o.toNat < 4294967296), fun _ h => nomatch h⟩

theorem atomgXor (v : BitVec 1) (g : BitVec 4) (n : BitVec 1) (t b : BitVec 6) (x : BitVec 1) (o : BitVec 6) : Statement (.atomgXor v g n t b x o) :=
  ⟨(by omega : 0x4e000000 + v.toNat * 16777216 + g.toNat * 1048576 + n.toNat * 524288 + t.toNat * 8192 + b.toNat * 128 + x.toNat * 64 + o.toNat < 4294967296), fun _ h => nomatch h⟩

theorem atomgXchg (v : BitVec 1) (g : BitVec 4) (n : BitVec 1) (t b : BitVec 6) (x : BitVec 1) (o : BitVec 6) : Statement (.atomgXchg v g n t b x o) :=
  ⟨(by omega : 0x50000000 + v.toNat * 16777216 + g.toNat * 1048576 + n.toNat * 524288 + t.toNat * 8192 + b.toNat * 128 + x.toNat * 64 + o.toNat < 4294967296), fun _ h => nomatch h⟩

theorem atomgCas (v : BitVec 1) (g : BitVec 4) (n : BitVec 1) (t b : BitVec 6) (x : BitVec 1) (o : BitVec 6) : Statement (.atomgCas v g n t b x o) :=
  ⟨(by omega : 0x52000000 + v.toNat * 16777216 + g.toNat * 1048576 + n.toNat * 524288 + t.toNat * 8192 + b.toNat * 128 + x.toNat * 64 + o.toNat < 4294967296), fun _ h => nomatch h⟩

theorem atomgAddBf16x2 (g : BitVec 4) (n : BitVec 1) (t b : BitVec 6) (x : BitVec 1) (o : BitVec 6) : Statement (.atomgAddBf16x2 g n t b x o) :=
  ⟨(by omega : 0x54000000 + g.toNat * 1048576 + n.toNat * 524288 + t.toNat * 8192 + b.toNat * 128 + x.toNat * 64 + o.toNat < 4294967296), fun _ h => nomatch h⟩

theorem atomgAddF32 (g : BitVec 4) (n : BitVec 1) (t b : BitVec 6) (x : BitVec 1) (o : BitVec 6) : Statement (.atomgAddF32 g n t b x o) :=
  ⟨(by omega : 0x55000000 + g.toNat * 1048576 + n.toNat * 524288 + t.toNat * 8192 + b.toNat * 128 + x.toNat * 64 + o.toNat < 4294967296), fun _ h => nomatch h⟩

theorem atomgGrab (t b o : BitVec 6) : Statement (.atomgGrab t b o) :=
  ⟨(by omega : 0x56000000 + t.toNat * 8192 + b.toNat * 128 + o.toNat < 4294967296), fun _ h => nomatch h⟩

theorem atomsAdd (v : BitVec 1) (g : BitVec 4) (n : BitVec 1) (t b : BitVec 6) (x : BitVec 1) (o : BitVec 6) : Statement (.atomsAdd v g n t b x o) :=
  ⟨(by omega : 0x60000000 + v.toNat * 16777216 + g.toNat * 1048576 + n.toNat * 524288 + t.toNat * 8192 + b.toNat * 128 + x.toNat * 64 + o.toNat < 4294967296), fun _ h => nomatch h⟩

theorem atomsMinI (v : BitVec 1) (g : BitVec 4) (n : BitVec 1) (t b : BitVec 6) (x : BitVec 1) (o : BitVec 6) : Statement (.atomsMinI v g n t b x o) :=
  ⟨(by omega : 0x62000000 + v.toNat * 16777216 + g.toNat * 1048576 + n.toNat * 524288 + t.toNat * 8192 + b.toNat * 128 + x.toNat * 64 + o.toNat < 4294967296), fun _ h => nomatch h⟩

theorem atomsMinN (v : BitVec 1) (g : BitVec 4) (n : BitVec 1) (t b : BitVec 6) (x : BitVec 1) (o : BitVec 6) : Statement (.atomsMinN v g n t b x o) :=
  ⟨(by omega : 0x64000000 + v.toNat * 16777216 + g.toNat * 1048576 + n.toNat * 524288 + t.toNat * 8192 + b.toNat * 128 + x.toNat * 64 + o.toNat < 4294967296), fun _ h => nomatch h⟩

theorem atomsMaxI (v : BitVec 1) (g : BitVec 4) (n : BitVec 1) (t b : BitVec 6) (x : BitVec 1) (o : BitVec 6) : Statement (.atomsMaxI v g n t b x o) :=
  ⟨(by omega : 0x66000000 + v.toNat * 16777216 + g.toNat * 1048576 + n.toNat * 524288 + t.toNat * 8192 + b.toNat * 128 + x.toNat * 64 + o.toNat < 4294967296), fun _ h => nomatch h⟩

theorem atomsMaxN (v : BitVec 1) (g : BitVec 4) (n : BitVec 1) (t b : BitVec 6) (x : BitVec 1) (o : BitVec 6) : Statement (.atomsMaxN v g n t b x o) :=
  ⟨(by omega : 0x68000000 + v.toNat * 16777216 + g.toNat * 1048576 + n.toNat * 524288 + t.toNat * 8192 + b.toNat * 128 + x.toNat * 64 + o.toNat < 4294967296), fun _ h => nomatch h⟩

theorem atomsAnd (v : BitVec 1) (g : BitVec 4) (n : BitVec 1) (t b : BitVec 6) (x : BitVec 1) (o : BitVec 6) : Statement (.atomsAnd v g n t b x o) :=
  ⟨(by omega : 0x6a000000 + v.toNat * 16777216 + g.toNat * 1048576 + n.toNat * 524288 + t.toNat * 8192 + b.toNat * 128 + x.toNat * 64 + o.toNat < 4294967296), fun _ h => nomatch h⟩

theorem atomsOr (v : BitVec 1) (g : BitVec 4) (n : BitVec 1) (t b : BitVec 6) (x : BitVec 1) (o : BitVec 6) : Statement (.atomsOr v g n t b x o) :=
  ⟨(by omega : 0x6c000000 + v.toNat * 16777216 + g.toNat * 1048576 + n.toNat * 524288 + t.toNat * 8192 + b.toNat * 128 + x.toNat * 64 + o.toNat < 4294967296), fun _ h => nomatch h⟩

theorem atomsXor (v : BitVec 1) (g : BitVec 4) (n : BitVec 1) (t b : BitVec 6) (x : BitVec 1) (o : BitVec 6) : Statement (.atomsXor v g n t b x o) :=
  ⟨(by omega : 0x6e000000 + v.toNat * 16777216 + g.toNat * 1048576 + n.toNat * 524288 + t.toNat * 8192 + b.toNat * 128 + x.toNat * 64 + o.toNat < 4294967296), fun _ h => nomatch h⟩

theorem atomsXchg (v : BitVec 1) (g : BitVec 4) (n : BitVec 1) (t b : BitVec 6) (x : BitVec 1) (o : BitVec 6) : Statement (.atomsXchg v g n t b x o) :=
  ⟨(by omega : 0x70000000 + v.toNat * 16777216 + g.toNat * 1048576 + n.toNat * 524288 + t.toNat * 8192 + b.toNat * 128 + x.toNat * 64 + o.toNat < 4294967296), fun _ h => nomatch h⟩

theorem atomsCas (v : BitVec 1) (g : BitVec 4) (n : BitVec 1) (t b : BitVec 6) (x : BitVec 1) (o : BitVec 6) : Statement (.atomsCas v g n t b x o) :=
  ⟨(by omega : 0x72000000 + v.toNat * 16777216 + g.toNat * 1048576 + n.toNat * 524288 + t.toNat * 8192 + b.toNat * 128 + x.toNat * 64 + o.toNat < 4294967296), fun _ h => nomatch h⟩

theorem fence (c : BitVec 2) : Statement (.fence c) :=
  ⟨(by omega : 0x80000000 + c.toNat < 4294967296), fun _ h => nomatch h⟩

theorem pref (g : BitVec 4) (n : BitVec 1) (b : BitVec 6) (x : BitVec 1) (o : BitVec 6) : Statement (.pref g n b x o) :=
  ⟨(by omega : 0x81000000 + g.toNat * 1048576 + n.toNat * 524288 + b.toNat * 128 + x.toNat * 64 + o.toNat < 4294967296), fun _ h => nomatch h⟩

theorem reqpage (g : BitVec 4) (n : BitVec 1) (b : BitVec 6) (x : BitVec 1) (o : BitVec 6) : Statement (.reqpage g n b x o) :=
  ⟨(by omega : 0x82000000 + g.toNat * 1048576 + n.toNat * 524288 + b.toNat * 128 + x.toNat * 64 + o.toNat < 4294967296), fun _ h => nomatch h⟩

theorem l1inv (g : BitVec 4) (n : BitVec 1) (b : BitVec 6) (x : BitVec 1) (o : BitVec 6) : Statement (.l1inv g n b x o) :=
  ⟨(by omega : 0x83000000 + g.toNat * 1048576 + n.toNat * 524288 + b.toNat * 128 + x.toNat * 64 + o.toNat < 4294967296), fun _ h => nomatch h⟩

theorem l1inva : Statement (.l1inva) :=
  ⟨(by omega : 0x84000000 < 4294967296), fun _ h => nomatch h⟩

theorem tileMma (b o : BitVec 6) : Statement (.tileMma b o) :=
  ⟨(by omega : b.toNat * 128 + o.toNat < 4294967296), fun _ h => nomatch h⟩

theorem tileZero (d : BitVec 6) (f : BitVec 4) : Statement (.tileZero d f) :=
  ⟨(by omega : 0x1000000 + d.toNat * 8192 + f.toNat < 4294967296), fun _ h => nomatch h⟩

theorem tileMov (d a : BitVec 6) (f : BitVec 4) : Statement (.tileMov d a f) :=
  ⟨(by omega : 0x2000000 + d.toNat * 8192 + a.toNat * 128 + f.toNat < 4294967296), fun _ h => nomatch h⟩

theorem tileAdd (d a : BitVec 6) (f : BitVec 4) : Statement (.tileAdd d a f) :=
  ⟨(by omega : 0x3000000 + d.toNat * 8192 + a.toNat * 128 + f.toNat < 4294967296), fun _ h => nomatch h⟩

theorem tileScale (d a : BitVec 6) (f : BitVec 4) : Statement (.tileScale d a f) :=
  ⟨(by omega : 0x4000000 + d.toNat * 8192 + a.toNat * 128 + f.toNat < 4294967296), fun _ h => nomatch h⟩

theorem tileQuery (d : BitVec 6) : Statement (.tileQuery d) :=
  ⟨(by omega : 0x5000000 + d.toNat * 8192 < 4294967296), fun _ h => nomatch h⟩

theorem cpin (f : BitVec 4) (b : BitVec 6) (x : BitVec 1) (o : BitVec 6) : Statement (.cpin f b x o) :=
  ⟨(by omega : f.toNat * 8192 + b.toNat * 128 + x.toNat * 64 + o.toNat < 4294967296), fun _ h => nomatch h⟩

theorem cpout (f : BitVec 4) (b : BitVec 6) (x : BitVec 1) (o : BitVec 6) : Statement (.cpout f b x o) :=
  ⟨(by omega : 0x1000000 + f.toNat * 8192 + b.toNat * 128 + x.toNat * 64 + o.toNat < 4294967296), fun _ h => nomatch h⟩

theorem cpwb (f : BitVec 4) (b : BitVec 6) (x : BitVec 1) (o : BitVec 6) : Statement (.cpwb f b x o) :=
  ⟨(by omega : 0x2000000 + f.toNat * 8192 + b.toNat * 128 + x.toNat * 64 + o.toNat < 4294967296), fun _ h => nomatch h⟩

theorem lock (t b o : BitVec 6) : Statement (.lock t b o) :=
  ⟨(by omega : 0x3000000 + t.toNat * 8192 + b.toNat * 128 + o.toNat < 4294967296), fun _ h => nomatch h⟩

theorem unlock (t b o : BitVec 6) : Statement (.unlock t b o) :=
  ⟨(by omega : 0x4000000 + t.toNat * 8192 + b.toNat * 128 + o.toNat < 4294967296), fun _ h => nomatch h⟩

theorem wkey (a : BitVec 6) : Statement (.wkey a) :=
  ⟨(by omega : 0x5000000 + a.toNat * 128 < 4294967296), fun _ h => nomatch h⟩

theorem fig (g : BitVec 4) (n : BitVec 1) (t b : BitVec 6) (x : BitVec 1) (o k : BitVec 6) (f : BitVec 4) (e : BitVec 1) : Statement (.fig g n t b x o k f e) :=
  ⟨(by omega : g.toNat * 1048576 + n.toNat * 524288 + t.toNat * 8192 + b.toNat * 128 + x.toNat * 64 + o.toNat < 4294967296), fun _ h => by cases h; omega⟩

theorem figld (t b o k : BitVec 6) : Statement (.figld t b o k) :=
  ⟨(by omega : 0x1000000 + t.toNat * 8192 + b.toNat * 128 + o.toNat < 4294967296), fun _ h => by cases h; omega⟩

theorem figunld (b : BitVec 6) : Statement (.figunld b) :=
  ⟨(by omega : 0x2000000 + b.toNat < 4294967296), fun _ h => nomatch h⟩

theorem stn (g : BitVec 4) (n : BitVec 1) (d a b : BitVec 6) : Statement (.stn g n d a b) :=
  ⟨(by omega : 0x3040000 + g.toNat * 1048576 + n.toNat * 524288 + d.toNat * 4096 + a.toNat * 64 + b.toNat < 4294967296), fun _ h => nomatch h⟩

theorem stnRel (g : BitVec 4) (n : BitVec 1) (d a b : BitVec 6) : Statement (.stnRel g n d a b) :=
  ⟨(by omega : 0x4040000 + g.toNat * 1048576 + n.toNat * 524288 + d.toNat * 4096 + a.toNat * 64 + b.toNat < 4294967296), fun _ h => nomatch h⟩

theorem stnF (g : BitVec 4) (n : BitVec 1) (d a b : BitVec 6) (f : BitVec 4) : Statement (.stnF g n d a b f) :=
  ⟨(by omega : 0x5040000 + g.toNat * 1048576 + n.toNat * 524288 + d.toNat * 4096 + a.toNat * 64 + b.toNat < 4294967296), fun _ h => by cases h; omega⟩

theorem nameget (d : BitVec 6) : Statement (.nameget d) :=
  ⟨(by omega : 0x6000000 + d.toNat * 4096 < 4294967296), fun _ h => nomatch h⟩

theorem namerel : Statement (.namerel) :=
  ⟨(by omega : 0x7000000 < 4294967296), fun _ h => nomatch h⟩

theorem tender (d a : BitVec 6) (c : BitVec 4) : Statement (.tender d a c) :=
  ⟨(by omega : 0x8000000 + d.toNat * 8192 + a.toNat * 128 + c.toNat < 4294967296), fun _ h => nomatch h⟩

theorem serve (c : BitVec 4) : Statement (.serve c) :=
  ⟨(by omega : 0x9000000 + c.toNat < 4294967296), fun _ h => nomatch h⟩

theorem take (d a : BitVec 6) (c : BitVec 4) : Statement (.take d a c) :=
  ⟨(by omega : 0xa000000 + d.toNat * 8192 + a.toNat * 128 + c.toNat < 4294967296), fun _ h => nomatch h⟩

theorem mcast (d a : BitVec 6) (f : BitVec 4) : Statement (.mcast d a f) :=
  ⟨(by omega : 0xb000000 + d.toNat * 8192 + a.toNat * 128 + f.toNat < 4294967296), fun _ h => nomatch h⟩

theorem redx (d : BitVec 6) (o : BitVec 3) (f : BitVec 4) : Statement (.redx d o f) :=
  ⟨(by omega : 0xc000000 + d.toNat * 8192 + o.toNat * 16 + f.toNat < 4294967296), fun _ h => nomatch h⟩

theorem nop (g : BitVec 4) (n : BitVec 1) : Statement (.nop g n) :=
  ⟨(by omega : g.toNat * 1048576 + n.toNat * 524288 < 4294967296), fun _ h => nomatch h⟩

theorem bra (g : BitVec 4) (n : BitVec 1) (f : BitVec 19) : Statement (.bra g n f) :=
  ⟨(by omega : 0x1000000 + g.toNat * 1048576 + n.toNat * 524288 + f.toNat < 4294967296), fun _ h => nomatch h⟩

theorem brx (g : BitVec 4) (n : BitVec 1) (a : BitVec 6) : Statement (.brx g n a) :=
  ⟨(by omega : 0x2000000 + g.toNat * 1048576 + n.toNat * 524288 + a.toNat * 64 < 4294967296), fun _ h => nomatch h⟩

theorem call (g : BitVec 4) (n : BitVec 1) (f : BitVec 19) : Statement (.call g n f) :=
  ⟨(by omega : 0x3000000 + g.toNat * 1048576 + n.toNat * 524288 + f.toNat < 4294967296), fun _ h => nomatch h⟩

theorem ret (g : BitVec 4) (n : BitVec 1) (a : BitVec 6) : Statement (.ret g n a) :=
  ⟨(by omega : 0x4000000 + g.toNat * 1048576 + n.toNat * 524288 + a.toNat * 64 < 4294967296), fun _ h => nomatch h⟩

theorem exit (g : BitVec 4) (n : BitVec 1) : Statement (.exit g n) :=
  ⟨(by omega : 0x5000000 + g.toNat * 1048576 + n.toNat * 524288 < 4294967296), fun _ h => nomatch h⟩

theorem yield : Statement (.yield) :=
  ⟨(by omega : 0x6000000 < 4294967296), fun _ h => nomatch h⟩

theorem bar (p : BitVec 7) (b : BitVec 4) : Statement (.bar p b) :=
  ⟨(by omega : 0x7000000 + p.toNat * 4096 + b.toNat < 4294967296), fun _ h => nomatch h⟩

theorem barc (p : BitVec 7) (a : BitVec 6) (b : BitVec 4) : Statement (.barc p a b) :=
  ⟨(by omega : 0x8000000 + p.toNat * 4096 + a.toNat * 64 + b.toNat < 4294967296), fun _ h => nomatch h⟩

theorem commit : Statement (.commit) :=
  ⟨(by omega : 0x9000000 < 4294967296), fun _ h => nomatch h⟩

theorem pass : Statement (.pass) :=
  ⟨(by omega : 0xa000000 < 4294967296), fun _ h => nomatch h⟩

theorem elect (g : BitVec 4) (n : BitVec 1) (p : BitVec 7) : Statement (.elect g n p) :=
  ⟨(by omega : 0xb000000 + g.toNat * 1048576 + n.toNat * 524288 + p.toNat * 4096 < 4294967296), fun _ h => nomatch h⟩

theorem trap (g : BitVec 4) (n : BitVec 1) (k : BitVec 7) : Statement (.trap g n k) :=
  ⟨(by omega : 0xc000000 + g.toNat * 1048576 + n.toNat * 524288 + k.toNat < 4294967296), fun _ h => nomatch h⟩

theorem loop (c : BitVec 2) (l : BitVec 8) (b : BitVec 6) : Statement (.loop c l b) :=
  ⟨(by omega : 0xd000000 + c.toNat * 131072 + l.toNat * 512 + b.toNat * 8 < 4294967296), fun _ h => nomatch h⟩

theorem wait (l b c : BitVec 5) (t : BitVec 4) : Statement (.wait l b c t) :=
  ⟨(by omega : 0xe000000 + l.toNat * 16384 + b.toNat * 512 + c.toNat * 16 + t.toNat < 4294967296), fun _ h => nomatch h⟩

theorem flagset (m : BitVec 12) : Statement (.flagset m) :=
  ⟨(by omega : 0xf000000 + m.toNat < 4294967296), fun _ h => nomatch h⟩

theorem flagclr (m : BitVec 12) : Statement (.flagclr m) :=
  ⟨(by omega : 0x10000000 + m.toNat < 4294967296), fun _ h => nomatch h⟩

theorem xlock : Statement (.xlock) :=
  ⟨(by omega : 0x11000000 < 4294967296), fun _ h => nomatch h⟩

theorem xunlock : Statement (.xunlock) :=
  ⟨(by omega : 0x12000000 < 4294967296), fun _ h => nomatch h⟩

theorem arm (d c : BitVec 6) : Statement (.arm d c) :=
  ⟨(by omega : 0x13000000 + d.toNat * 8192 + c.toNat < 4294967296), fun _ h => nomatch h⟩

theorem getid (g : BitVec 4) (n : BitVec 1) (d : BitVec 6) (k : BitVec 7) : Statement (.getid g n d k) :=
  ⟨(by omega : 0x14000000 + g.toNat * 1048576 + n.toNat * 524288 + d.toNat * 8192 + k.toNat < 4294967296), fun _ h => nomatch h⟩

theorem setmode (a : BitVec 6) (m : BitVec 3) : Statement (.setmode a m) :=
  ⟨(by omega : 0x15000000 + a.toNat * 128 + m.toNat < 4294967296), fun _ h => nomatch h⟩

theorem lnext : Statement (.lnext) :=
  ⟨(by omega : 0x16000000 < 4294967296), fun _ h => nomatch h⟩

theorem waitpred : Statement (.waitpred) :=
  ⟨(by omega : 0x17000000 < 4294967296), fun _ h => nomatch h⟩

theorem waitdone : Statement (.waitdone) :=
  ⟨(by omega : 0x18000000 < 4294967296), fun _ h => nomatch h⟩

theorem csrrd (d : BitVec 6) (c : BitVec 12) : Statement (.csrrd d c) :=
  ⟨(by omega : d.toNat * 8192 + c.toNat < 4294967296), fun _ h => nomatch h⟩

theorem csrwr (b : BitVec 6) (c : BitVec 12) : Statement (.csrwr b c) :=
  ⟨(by omega : 0x1000000 + b.toNat * 8192 + c.toNat < 4294967296), fun _ h => nomatch h⟩

theorem rft : Statement (.rft) :=
  ⟨(by omega : 0x2000000 < 4294967296), fun _ h => nomatch h⟩

theorem tlbinv (m : BitVec 1) (a b : BitVec 6) : Statement (.tlbinv m a b) :=
  ⟨(by omega : 0x3000000 + m.toNat * 262144 + a.toNat * 64 + b.toNat < 4294967296), fun _ h => nomatch h⟩

theorem lkeyld (a : BitVec 6) (l : BitVec 4) : Statement (.lkeyld a l) :=
  ⟨(by omega : 0x4000000 + a.toNat * 128 + l.toNat < 4294967296), fun _ h => nomatch h⟩

theorem lkeyarm (a : BitVec 6) (l : BitVec 4) : Statement (.lkeyarm a l) :=
  ⟨(by omega : 0x5000000 + a.toNat * 128 + l.toNat < 4294967296), fun _ h => nomatch h⟩

theorem bidf (a : BitVec 6) (c : BitVec 4) : Statement (.bidf a c) :=
  ⟨(by omega : 0x6000000 + a.toNat * 128 + c.toNat < 4294967296), fun _ h => nomatch h⟩

theorem halt : Statement (.halt) :=
  ⟨(by omega : 0x7000000 < 4294967296), fun _ h => nomatch h⟩

theorem replay (a : BitVec 6) : Statement (.replay a) :=
  ⟨(by omega : 0x8000000 + a.toNat * 128 < 4294967296), fun _ h => nomatch h⟩

theorem evrd (d : BitVec 6) (n : BitVec 4) : Statement (.evrd d n) :=
  ⟨(by omega : 0x9000000 + d.toNat * 8192 + n.toNat < 4294967296), fun _ h => nomatch h⟩

theorem evsel (a : BitVec 6) (n : BitVec 4) : Statement (.evsel a n) :=
  ⟨(by omega : 0xa000000 + a.toNat * 128 + n.toNat < 4294967296), fun _ h => nomatch h⟩

theorem loadCompletion (op t : Nat) : Statement (.loadCompletion op t) :=
  ⟨(by omega : 0 < 4294967296), fun _ h => nomatch h⟩

theorem storeAccept (core k : Nat) : Statement (.storeAccept core k) :=
  ⟨(by omega : 0 < 4294967296), fun _ h => nomatch h⟩

theorem loadAtHome (op t : Nat) : Statement (.loadAtHome op t) :=
  ⟨(by omega : 0 < 4294967296), fun _ h => nomatch h⟩

theorem atomicAtHome (core k : Nat) : Statement (.atomicAtHome core k) :=
  ⟨(by omega : 0 < 4294967296), fun _ h => nomatch h⟩

theorem l1LineExpiry (core line : Nat) : Statement (.l1LineExpiry core line) :=
  ⟨(by omega : 0 < 4294967296), fun _ h => nomatch h⟩

theorem pageWalkComplete (core asid va : Nat) : Statement (.pageWalkComplete core asid va) :=
  ⟨(by omega : 0 < 4294967296), fun _ h => nomatch h⟩

theorem fenceComplete (q : Nat) : Statement (.fenceComplete q) :=
  ⟨(by omega : 0 < 4294967296), fun _ h => nomatch h⟩

theorem tlbinvComplete (q : Nat) : Statement (.tlbinvComplete q) :=
  ⟨(by omega : 0 < 4294967296), fun _ h => nomatch h⟩

theorem lnextRelease (q : Nat) : Statement (.lnextRelease q) :=
  ⟨(by omega : 0 < 4294967296), fun _ h => nomatch h⟩

theorem faultFilterAdmit (core : Nat) : Statement (.faultFilterAdmit core) :=
  ⟨(by omega : 0 < 4294967296), fun _ h => nomatch h⟩

theorem faultStageForward (die : Nat) : Statement (.faultStageForward die) :=
  ⟨(by omega : 0 < 4294967296), fun _ h => nomatch h⟩

theorem faultStagePost (die k : Nat) : Statement (.faultStagePost die k) :=
  ⟨(by omega : 0 < 4294967296), fun _ h => nomatch h⟩

theorem faultPostRetry (die k : Nat) : Statement (.faultPostRetry die k) :=
  ⟨(by omega : 0 < 4294967296), fun _ h => nomatch h⟩

theorem replayRelease (k : Nat) : Statement (.replayRelease k) :=
  ⟨(by omega : 0 < 4294967296), fun _ h => nomatch h⟩

theorem engineWordEnqueue (lane : Nat) : Statement (.engineWordEnqueue lane) :=
  ⟨(by omega : 0 < 4294967296), fun _ h => nomatch h⟩

theorem copyStart (core op : Nat) : Statement (.copyStart core op) :=
  ⟨(by omega : 0 < 4294967296), fun _ h => nomatch h⟩

theorem copyRow (core op : Nat) : Statement (.copyRow core op) :=
  ⟨(by omega : 0 < 4294967296), fun _ h => nomatch h⟩

theorem copyRetire (core op : Nat) : Statement (.copyRetire core op) :=
  ⟨(by omega : 0 < 4294967296), fun _ h => nomatch h⟩

theorem tileStart (core : Nat) : Statement (.tileStart core) :=
  ⟨(by omega : 0 < 4294967296), fun _ h => nomatch h⟩

theorem tileKblock (core : Nat) : Statement (.tileKblock core) :=
  ⟨(by omega : 0 < 4294967296), fun _ h => nomatch h⟩

theorem tileComplete (core : Nat) : Statement (.tileComplete core) :=
  ⟨(by omega : 0 < 4294967296), fun _ h => nomatch h⟩

theorem tileOpComplete (core : Nat) : Statement (.tileOpComplete core) :=
  ⟨(by omega : 0 < 4294967296), fun _ h => nomatch h⟩

theorem figSlotClear (lane : Nat) : Statement (.figSlotClear lane) :=
  ⟨(by omega : 0 < 4294967296), fun _ h => nomatch h⟩

theorem definitionCacheFill (slice asid k : Nat) : Statement (.definitionCacheFill slice asid k) :=
  ⟨(by omega : 0 < 4294967296), fun _ h => nomatch h⟩

theorem figureExecute (core k : Nat) : Statement (.figureExecute core k) :=
  ⟨(by omega : 0 < 4294967296), fun _ h => nomatch h⟩

theorem figureCombine (core k : Nat) : Statement (.figureCombine core k) :=
  ⟨(by omega : 0 < 4294967296), fun _ h => nomatch h⟩

theorem combineEntryAge (slice k : Nat) : Statement (.combineEntryAge slice k) :=
  ⟨(by omega : 0 < 4294967296), fun _ h => nomatch h⟩

theorem tileFigureChannel (k : Nat) : Statement (.tileFigureChannel k) :=
  ⟨(by omega : 0 < 4294967296), fun _ h => nomatch h⟩

theorem figldApply (k : Nat) : Statement (.figldApply k) :=
  ⟨(by omega : 0 < 4294967296), fun _ h => nomatch h⟩

theorem figunldApply (k : Nat) : Statement (.figunldApply k) :=
  ⟨(by omega : 0 < 4294967296), fun _ h => nomatch h⟩

theorem wcbAgeDrain (core k : Nat) : Statement (.wcbAgeDrain core k) :=
  ⟨(by omega : 0 < 4294967296), fun _ h => nomatch h⟩

theorem podWriteApply (k : Nat) : Statement (.podWriteApply k) :=
  ⟨(by omega : 0 < 4294967296), fun _ h => nomatch h⟩

theorem podLoadServe (k : Nat) (data : Option (BitVec 64)) : Statement (.podLoadServe k data) :=
  ⟨(by omega : 0 < 4294967296), fun _ h => nomatch h⟩

theorem podRefusal (k : Nat) : Statement (.podRefusal k) :=
  ⟨(by omega : 0 < 4294967296), fun _ h => nomatch h⟩

theorem hostRefusal (kind op t : Nat) : Statement (.hostRefusal kind op t) :=
  ⟨(by omega : 0 < 4294967296), fun _ h => nomatch h⟩

theorem stnDelivery (k : Nat) : Statement (.stnDelivery k) :=
  ⟨(by omega : 0 < 4294967296), fun _ h => nomatch h⟩

theorem stnArrival (k : Nat) : Statement (.stnArrival k) :=
  ⟨(by omega : 0 < 4294967296), fun _ h => nomatch h⟩

theorem stnRefusal (k : Nat) : Statement (.stnRefusal k) :=
  ⟨(by omega : 0 < 4294967296), fun _ h => nomatch h⟩

theorem heatBroadcast (k : Nat) : Statement (.heatBroadcast k) :=
  ⟨(by omega : 0 < 4294967296), fun _ h => nomatch h⟩

theorem heatBid (h core : Nat) : Statement (.heatBid h core) :=
  ⟨(by omega : 0 < 4294967296), fun _ h => nomatch h⟩

theorem heatBidReceive (h core : Nat) : Statement (.heatBidReceive h core) :=
  ⟨(by omega : 0 < 4294967296), fun _ h => nomatch h⟩

theorem heatWindowClose (h : Nat) : Statement (.heatWindowClose h) :=
  ⟨(by omega : 0 < 4294967296), fun _ h => nomatch h⟩

theorem heatAward (h : Nat) : Statement (.heatAward h) :=
  ⟨(by omega : 0 < 4294967296), fun _ h => nomatch h⟩

theorem heatResult (h : Nat) : Statement (.heatResult h) :=
  ⟨(by omega : 0 < 4294967296), fun _ h => nomatch h⟩

theorem tokenArrival (l : Nat) : Statement (.tokenArrival l) :=
  ⟨(by omega : 0 < 4294967296), fun _ h => nomatch h⟩

theorem barrierComplete (l b n : Nat) : Statement (.barrierComplete l b n) :=
  ⟨(by omega : 0 < 4294967296), fun _ h => nomatch h⟩

theorem squadRetire (q : Nat) : Statement (.squadRetire q) :=
  ⟨(by omega : 0 < 4294967296), fun _ h => nomatch h⟩

theorem launchRetire (l : Nat) : Statement (.launchRetire l) :=
  ⟨(by omega : 0 < 4294967296), fun _ h => nomatch h⟩

theorem placement (l : Nat) : Statement (.placement l) :=
  ⟨(by omega : 0 < 4294967296), fun _ h => nomatch h⟩

theorem preemptionRequest (l b : Nat) : Statement (.preemptionRequest l b) :=
  ⟨(by omega : 0 < 4294967296), fun _ h => nomatch h⟩

theorem contextSave (l b : Nat) : Statement (.contextSave l b) :=
  ⟨(by omega : 0 < 4294967296), fun _ h => nomatch h⟩

theorem contextRestore (l b : Nat) : Statement (.contextRestore l b) :=
  ⟨(by omega : 0 < 4294967296), fun _ h => nomatch h⟩

theorem doorbell (fn off : Nat) (v : BitVec 64) : Statement (.doorbell fn off v) :=
  ⟨(by omega : 0 < 4294967296), fun _ h => nomatch h⟩

theorem schedulerBind : Statement (.schedulerBind) :=
  ⟨(by omega : 0 < 4294967296), fun _ h => nomatch h⟩

theorem sliceExpiry (slot : Nat) : Statement (.sliceExpiry slot) :=
  ⟨(by omega : 0 < 4294967296), fun _ h => nomatch h⟩

theorem launchPacket (slot : Nat) : Statement (.launchPacket slot) :=
  ⟨(by omega : 0 < 4294967296), fun _ h => nomatch h⟩

theorem prefetchPacket (slot : Nat) : Statement (.prefetchPacket slot) :=
  ⟨(by omega : 0 < 4294967296), fun _ h => nomatch h⟩

theorem signalPacket (slot : Nat) : Statement (.signalPacket slot) :=
  ⟨(by omega : 0 < 4294967296), fun _ h => nomatch h⟩

theorem waitsigPacket (slot : Nat) : Statement (.waitsigPacket slot) :=
  ⟨(by omega : 0 < 4294967296), fun _ h => nomatch h⟩

theorem waitsigRecheck (queue : Nat) : Statement (.waitsigRecheck queue) :=
  ⟨(by omega : 0 < 4294967296), fun _ h => nomatch h⟩

theorem graphPacket (slot : Nat) : Statement (.graphPacket slot) :=
  ⟨(by omega : 0 < 4294967296), fun _ h => nomatch h⟩

theorem hostKill (fn : Nat) (v : BitVec 64) : Statement (.hostKill fn v) :=
  ⟨(by omega : 0 < 4294967296), fun _ h => nomatch h⟩

theorem hostReplay (fn : Nat) (v : BitVec 64) : Statement (.hostReplay fn v) :=
  ⟨(by omega : 0 < 4294967296), fun _ h => nomatch h⟩

theorem hostPreempt (fn : Nat) (v : BitVec 64) : Statement (.hostPreempt fn v) :=
  ⟨(by omega : 0 < 4294967296), fun _ h => nomatch h⟩

theorem exportWindowWrite (fn off : Nat) (v : BitVec 64) : Statement (.exportWindowWrite fn off v) :=
  ⟨(by omega : 0 < 4294967296), fun _ h => nomatch h⟩

theorem dieEventSelect (fn off : Nat) (v : BitVec 64) : Statement (.dieEventSelect fn off v) :=
  ⟨(by omega : 0 < 4294967296), fun _ h => nomatch h⟩

theorem groomerConfigWrite (fn off : Nat) (v : BitVec 64) : Statement (.groomerConfigWrite fn off v) :=
  ⟨(by omega : 0 < 4294967296), fun _ h => nomatch h⟩

theorem channelErrorLogClear (fn off : Nat) (v : BitVec 64) : Statement (.channelErrorLogClear fn off v) :=
  ⟨(by omega : 0 < 4294967296), fun _ h => nomatch h⟩

theorem functionErrorLogClear (fn : Nat) (v : BitVec 64) : Statement (.functionErrorLogClear fn v) :=
  ⟨(by omega : 0 < 4294967296), fun _ h => nomatch h⟩

theorem mailboxAttest : Statement (.mailboxAttest) :=
  ⟨(by omega : 0 < 4294967296), fun _ h => nomatch h⟩

theorem mailboxPower : Statement (.mailboxPower) :=
  ⟨(by omega : 0 < 4294967296), fun _ h => nomatch h⟩

theorem mailboxSensors : Statement (.mailboxSensors) :=
  ⟨(by omega : 0 < 4294967296), fun _ h => nomatch h⟩

theorem mailboxLinkreset : Statement (.mailboxLinkreset) :=
  ⟨(by omega : 0 < 4294967296), fun _ h => nomatch h⟩

theorem registerWrite (fn bar off : Nat) (data : List (BitVec 8)) : Statement (.registerWrite fn bar off data) :=
  ⟨(by omega : 0 < 4294967296), fun _ h => nomatch h⟩

theorem channelRequestArrival (chan cls budget line core : Nat) : Statement (.channelRequestArrival chan cls budget line core) :=
  ⟨(by omega : 0 < 4294967296), fun _ h => nomatch h⟩

theorem channelIssue (chan : Nat) : Statement (.channelIssue chan) :=
  ⟨(by omega : 0 < 4294967296), fun _ h => nomatch h⟩

theorem bankRefresh (chan bank : Nat) : Statement (.bankRefresh chan bank) :=
  ⟨(by omega : 0 < 4294967296), fun _ h => nomatch h⟩

theorem groomerRead (chan : Nat) : Statement (.groomerRead chan) :=
  ⟨(by omega : 0 < 4294967296), fun _ h => nomatch h⟩

theorem groomerPeriodExpiry (chan : Nat) : Statement (.groomerPeriodExpiry chan) :=
  ⟨(by omega : 0 < 4294967296), fun _ h => nomatch h⟩

theorem flitReceive (link : Nat) (flit : List (BitVec 8)) : Statement (.flitReceive link flit) :=
  ⟨(by omega : 0 < 4294967296), fun _ h => nomatch h⟩

theorem nakReceive (link seq : Nat) : Statement (.nakReceive link seq) :=
  ⟨(by omega : 0 < 4294967296), fun _ h => nomatch h⟩

theorem ackReceive (link seq : Nat) : Statement (.ackReceive link seq) :=
  ⟨(by omega : 0 < 4294967296), fun _ h => nomatch h⟩

theorem keyLimitReached (link : Nat) : Statement (.keyLimitReached link) :=
  ⟨(by omega : 0 < 4294967296), fun _ h => nomatch h⟩

theorem linkTrained (link : Nat) : Statement (.linkTrained link) :=
  ⟨(by omega : 0 < 4294967296), fun _ h => nomatch h⟩

theorem mcastSwitchBranch (k : Nat) : Statement (.mcastSwitchBranch k) :=
  ⟨(by omega : 0 < 4294967296), fun _ h => nomatch h⟩

theorem mcastLineApply (k dev : Nat) : Statement (.mcastLineApply k dev) :=
  ⟨(by omega : 0 < 4294967296), fun _ h => nomatch h⟩

theorem redxSpineCombine (k : Nat) : Statement (.redxSpineCombine k) :=
  ⟨(by omega : 0 < 4294967296), fun _ h => nomatch h⟩

theorem redxResultWrite (k : Nat) : Statement (.redxResultWrite k) :=
  ⟨(by omega : 0 < 4294967296), fun _ h => nomatch h⟩

theorem powerOn (image : List (BitVec 8)) : Statement (.powerOn image) :=
  ⟨(by omega : 0 < 4294967296), fun _ h => nomatch h⟩

theorem throttleEntry : Statement (.throttleEntry) :=
  ⟨(by omega : 0 < 4294967296), fun _ h => nomatch h⟩

theorem throttleExit : Statement (.throttleExit) :=
  ⟨(by omega : 0 < 4294967296), fun _ h => nomatch h⟩

theorem moduleHalt : Statement (.moduleHalt) :=
  ⟨(by omega : 0 < 4294967296), fun _ h => nomatch h⟩

theorem memoryReadRequest (fn bar off len : Nat) : Statement (.memoryReadRequest fn bar off len) :=
  ⟨(by omega : 0 < 4294967296), fun _ h => nomatch h⟩

theorem flitBoundary (link : Nat) : Statement (.flitBoundary link) :=
  ⟨(by omega : 0 < 4294967296), fun _ h => nomatch h⟩

end Sys2Proof.Laws.WordFits
end

