-- ==== Sys2Proof/Tests/Slice0.lean ====
section
/-!
SUPPORT. Tests: terms that the field checks refuse, words written out from the encodings, and a state and operands that meet the
hypotheses of each statement.
-/
namespace Sys2Proof.Tests
open Sys2Proof Sys2Proof.Machine
set_option Elab.async false
set_option maxRecDepth 20000
set_option exponentiation.threshold 400

/-- One term for each check, which the check refuses (R29, R31, R35, R37, R39, R40, R41, R42, R45, R91, R159, R248). -/
theorem test_ill_formed :
    [Instr.fadd 3 15 1 0 1 2 3, .fcmpeq 3 15 1 1 2 3, .ldgI 3 15 1 1 2 0 3, .ldsI 3 15 1 1 2 0 3, .cpin 12 0 1 8, .cpin 11 1 1 8,
      .cpin 11 0 1 57, .atomgCas 0 15 1 63 1 0 2, .cvt 3 15 1 1 2 3 0, .cvt 3 15 1 1 2 4 6, .fig 15 1 1 2 0 3 4 12 1,
      .fig 15 1 1 2 0 3 4 1 0, .mcast 1 63 0, .redx 1 4 0, .loop 3 0 0, .getid 15 1 1 8, .getid 0 1 1 7, .setmode 1 5, .tlbinv 1 1 0,
      .xread 15 1 1 1 2 3 1 3].all (fun i => !i.wellFormed) = true := by decide

/-- Each stands beside a term at the edge of the check, which it allows. -/
theorem test_well_formed :
    [Instr.fadd 2 15 1 0 1 2 3, .fcmpeq 2 15 1 1 2 3, .ldgI 2 15 1 1 2 0 3, .ldsI 2 15 1 1 2 0 3, .cpin 11 0 1 56, .cpin 11 63 0 63,
      .atomgCas 0 15 1 62 1 0 2, .cvt 3 15 1 1 2 4 5, .fig 15 1 1 2 0 3 4 11 1, .fig 15 1 1 2 0 3 4 0 0, .mcast 1 62 0, .redx 1 3 0,
      .loop 2 0 0, .getid 0 0 1 7, .setmode 1 4, .tlbinv 1 0 0, .xread 15 1 1 1 2 3 1 2].all Instr.wellFormed = true := by decide

theorem test_decode_control_1 :
    [(0x00980000, Instr.nop 9 1),
      (0x01B59DD1, Instr.bra 11 0 368081),
      (0x02800340, Instr.brx 8 0 13),
      (0x034A93CA, Instr.call 4 1 168906),
      (0x041001C0, Instr.ret 1 0 7),
      (0x05800000, Instr.exit 8 0),
      (0x06000000, Instr.yield),
      (0x0703700A, Instr.bar 55 10),
      (0x08033D89, Instr.barc 51 54 9),
      (0x09000000, Instr.commit),
      (0x0A000000, Instr.pass),
      (0x0B92F000, Instr.elect 9 0 47),
      (0x0C68002C, Instr.trap 6 1 44),
      (0x0D04CB40, Instr.loop 2 101 40)].all (fun x => (decode 0 x.1 none).toOption == some x.2) = true := by decide

theorem test_decode_control_2 :
    [(0x0E07C458, Instr.wait 31 2 5 8),
      (0x0F00011C, Instr.flagset 284),
      (0x10000C18, Instr.flagclr 3096),
      (0x11000000, Instr.xlock),
      (0x12000000, Instr.xunlock),
      (0x1301C011, Instr.arm 14 17),
      (0x14022005, Instr.getid 0 0 17 5),
      (0x15000382, Instr.setmode 7 2),
      (0x16000000, Instr.lnext),
      (0x17000000, Instr.waitpred),
      (0x18000000, Instr.waitdone)].all (fun x => (decode 0 x.1 none).toOption == some x.2) = true := by decide

theorem test_decode_vector_1 :
    [(0x027545DA, Instr.add 2 7 0 1 20 23 26),
      (0x05891517, Instr.sub 1 8 1 0 17 20 23),
      (0x0A54D413, Instr.mul 2 5 0 1 13 16 19),
      (0x0D14A350, Instr.mulhI 1 1 0 1 10 13 16),
      (0x1298728C, Instr.mulhN 2 9 1 0 7 10 12),
      (0x15B03189, Instr.addISat 1 11 0 0 3 6 9),
      (0x1A7400C6, Instr.addNSat 2 7 0 1 0 3 6),
      (0x1D4BDFC2, Instr.subISat 1 4 1 0 61 63 2),
      (0x221B9F3F, Instr.subNSat 2 1 1 0 57 60 63),
      (0x25876E7C, Instr.avgI 1 8 0 1 54 57 60),
      (0x2AAB2D78, Instr.avgN 2 10 1 0 50 53 56),
      (0x2D6AFCB5, Instr.minI 1 6 1 0 47 50 53),
      (0x3236CBF1, Instr.minN 2 3 0 1 44 47 49),
      (0x350E8AEE, Instr.maxI 1 0 1 1 40 43 46)].all (fun x => (decode 1 x.1 none).toOption == some x.2) = true := by decide

theorem test_decode_vector_2 :
    [(0x3A7A5A2B, Instr.maxN 2 7 1 0 37 40 43),
      (0x3D962927, Instr.shl 1 9 0 1 34 36 39),
      (0x4265E864, Instr.shrN 2 6 0 1 30 33 36),
      (0x4529B7A1, Instr.shrI 1 2 1 0 27 30 33),
      (0x4AA155DA, Instr.cmpeq 2 10 0 21 23 26),
      (0x4DB11517, Instr.cmpltI 1 11 0 17 20 23),
      (0x5288E454, Instr.cmpltN 2 8 1 14 17 20),
      (0x5550A350, Instr.cmpleI 1 5 0 10 13 16),
      (0x5A10728D, Instr.cmpleN 2 1 0 7 10 13),
      (0x5D9841C9, Instr.cmpne 1 9 1 4 7 9),
      (0x608C00C6, Instr.and 8 1 1 0 3 6),
      (0x614BD003, Instr.or 4 1 0 61 0 3),
      (0x6217AF3F, Instr.xor 1 0 1 58 60 63),
      (0x63976E7C, Instr.andn 9 0 1 54 57 60)].all (fun x => (decode 1 x.1 none).toOption == some x.2) = true := by decide

theorem test_decode_vector_3 :
    [(0x64AB0CC0, Instr.not 10 1 48 51),
      (0x6576F032, Instr.mov 7 0 1 47 50),
      (0x6636CBF2, Instr.sel 3 0 1 44 47 50),
      (0x68822940, Instr.popc 8 0 34 37),
      (0x6991F880, Instr.clz 9 0 31 34),
      (0x6A69C7C0, Instr.ctz 6 1 28 31),
      (0x6B3986C0, Instr.brev 3 1 24 27),
      (0x6CA586DE, Instr.bfxN 10 0 1 24 27 30),
      (0x6D7945DA, Instr.bfxI 7 1 0 20 23 26),
      (0x6E891517, Instr.bfi 8 1 0 17 20 23),
      (0x6F54E453, Instr.rot 5 0 1 14 17 19),
      (0x7258A340, Instr.abs 2 5 1 10 13),
      (0x749841CA, Instr.pand 9 1 4 7 10),
      (0x75B01106, Instr.por 11 0 1 4 6)].all (fun x => (decode 1 x.1 none).toOption == some x.2) = true := by decide

theorem test_decode_vector_4 :
    [(0x7687D003, Instr.pxor 8 0 125 0 3),
      (0x774FAF40, Instr.pandn 4 1 122 61 0),
      (0x78177E40, Instr.pnot 1 0 119 57),
      (0x7C329B2F, Instr.redand 3 0 41 44 47),
      (0x7D0A6A6B, Instr.redor 0 1 38 41 43),
      (0x7E8A2968, Instr.redfadd 8 1 34 37 40),
      (0x7F91F8A5, Instr.redfmax 9 0 31 34 37),
      (0x82921927, Instr.fadd 2 9 0 0 33 36 39),
      (0x8655E864, Instr.fsub 2 5 0 1 30 33 36),
      (0x8829B760, Instr.fmul 0 2 1 0 27 29 32),
      (0x8CA9769D, Instr.fma 0 10 1 0 23 26 29),
      (0x90B545DA, Instr.fmin 0 11 0 1 20 23 26),
      (0x958904D6, Instr.fmax 1 8 1 0 16 19 22),
      (0x9A48A340, Instr.fabs 2 4 1 10 13)].all (fun x => (decode 1 x.1 none).toOption == some x.2) = true := by decide

theorem test_decode_vector_5 :
    [(0x9E107280, Instr.fneg 2 1 0 7 10),
      (0xA0983189, Instr.fcmpeq 0 9 1 3 6 9),
      (0xA4A800C6, Instr.fcmplt 0 10 1 0 3 6),
      (0xA877D002, Instr.fcmple 0 7 0 125 0 2),
      (0xAD479F3F, Instr.fcmpun 1 4 0 121 60 63),
      (0xB20EDC84, Instr.cvt 2 0 1 54 57 0 4),
      (0xC1867AC9, Instr.cvtSat 1 8 0 51 53 9 1),
      (0xD192FCB5, Instr.redadd 1 9 0 47 50 53),
      (0xD66ACBF2, Instr.redminI 2 6 1 44 47 50),
      (0xD9328AEE, Instr.redminN 1 3 0 40 43 46),
      (0xDEA25A2B, Instr.redmaxI 2 10 0 37 40 43),
      (0xE17A2967, Instr.redmaxN 1 7 1 34 37 39),
      (0xE699E864, Instr.scanadd 2 9 1 30 33 36),
      (0xE951B7A1, Instr.scanmaxI 1 5 0 27 30 33)].all (fun x => (decode 1 x.1 none).toOption == some x.2) = true := by decide

theorem test_decode_vector_6 :
    [(0xEE29869D, Instr.scanmaxN 2 2 1 24 26 29),
      (0xF000C391, Instr.addScalar 12 14 17),
      (0xF10082CE, Instr.subScalar 8 11 14),
      (0xF200520B, Instr.mulScalar 5 8 11),
      (0xF3001107, Instr.andScalar 1 4 7),
      (0xF403E044, Instr.orScalar 62 1 4),
      (0xF503BF80, Instr.xorScalar 59 62 0),
      (0xF6037EBD, Instr.shlScalar 55 58 61),
      (0xF7034DFA, Instr.shrNScalar 52 55 58),
      (0xF8031CF6, Instr.shrIScalar 49 51 54),
      (0xF902DC33, Instr.minIScalar 45 48 51),
      (0xFA02AB70, Instr.maxIScalar 42 45 48),
      (0xFB026A6C, Instr.minNScalar 38 41 44),
      (0xFC0239A9, Instr.maxNScalar 35 38 41)].all (fun x => (decode 1 x.1 none).toOption == some x.2) = true := by decide

theorem test_decode_vector_7 :
    [(0xFE05C7E2, Instr.cmpeqScalar 92 31 34),
      (0xFF05971F, Instr.cmpltScalar 89 28 31)].all (fun x => (decode 1 x.1 none).toOption == some x.2) = true := by decide

theorem test_decode_special_1 :
    [(0x0289E840, Instr.rcp 2 8 1 30 33),
      (0x0651B780, Instr.rsq 2 5 0 27 30),
      (0x08297680, Instr.sqrt 0 2 1 23 26),
      (0x0C9945C0, Instr.exp2 0 9 1 20 23),
      (0x10B11500, Instr.log2 0 11 0 17 20),
      (0x1580D400, Instr.sin 1 8 0 13 16),
      (0x1948A340, Instr.cos 1 4 1 10 13),
      (0x1E107240, Instr.tanh 2 1 0 7 9)].all (fun x => (decode 2 x.1 none).toOption == some x.2) = true := by decide

theorem test_decode_memory_1 :
    [(0x0180634C, Instr.ldgN 1 8 0 3 6 1 12),
      (0x06A80188, Instr.ldgI 2 10 1 0 3 0 8),
      (0x09779F85, Instr.stg 1 7 0 60 63 0 5),
      (0x0E373E42, Instr.ldgNf 2 3 0 57 60 1 2),
      (0x110EDCFE, Instr.ldsN 1 0 1 54 57 1 62),
      (0x168E5ABB, Instr.ldsI 2 8 1 50 53 0 59),
      (0x1995F978, Instr.sts 1 9 0 47 50 1 56),
      (0x1C353631, Instr.ldr 3 0 41 44 0 49),
      (0x1D04B46E, Instr.str 0 0 37 40 1 46),
      (0x1E7C52AB, Instr.lda 7 1 34 37 0 43),
      (0x1F93F0A7, Instr.sta 9 0 31 33 0 39),
      (0x228BD0A7, Instr.ldp 2 8 1 30 33 0 39),
      (0x25536F23, Instr.stp 1 5 0 27 30 0 35),
      (0x2801E914, Instr.ldgScalar 15 18 20)].all (fun x => (decode 3 x.1 none).toOption == some x.2) = true := by decide

theorem test_decode_memory_2 :
    [(0x29016711, Instr.stgScalar 11 14 17),
      (0x2A01058E, Instr.ldsScalar 8 11 14),
      (0x2B00A38A, Instr.stsScalar 5 7 10),
      (0x41494692, Instr.atomgAdd 1 4 1 10 13 0 18),
      (0x4210C48F, Instr.atomgMinI 0 1 0 6 9 0 15),
      (0x4480634C, Instr.atomgMinN 0 8 0 3 6 1 12),
      (0x47A801C8, Instr.atomgMaxI 1 10 1 0 3 1 8),
      (0x487F9F85, Instr.atomgMaxN 0 7 1 60 63 0 5),
      (0x4A373E42, Instr.atomgAnd 0 3 0 57 60 1 2),
      (0x4D0EDC7E, Instr.atomgOr 1 0 1 54 56 1 62),
      (0x4E7E5ABB, Instr.atomgXor 0 7 1 50 53 0 59),
      (0x5095F977, Instr.atomgXchg 0 9 0 47 50 1 55),
      (0x536D7774, Instr.atomgCas 1 6 1 43 46 1 52),
      (0x54A4B46E, Instr.atomgAddBf16x2 10 0 37 40 1 46)].all (fun x => (decode 3 x.1 none).toOption == some x.2) = true := by decide

theorem test_decode_memory_3 :
    [(0x557C52AA, Instr.atomgAddF32 7 1 34 37 0 42),
      (0x56032E1E, Instr.atomgGrab 25 28 30),
      (0x618BD0A7, Instr.atomsAdd 1 8 1 30 33 0 39),
      (0x62536EA3, Instr.atomsMinI 0 5 0 27 29 0 35),
      (0x6512ED60, Instr.atomsMinN 1 1 0 23 26 1 32),
      (0x679A8B9C, Instr.atomsMaxI 1 9 1 20 23 0 28),
      (0x68B20999, Instr.atomsMaxN 0 11 0 16 19 0 25),
      (0x6A71A856, Instr.atomsAnd 0 7 0 13 16 1 22),
      (0x6D4946D2, Instr.atomsOr 1 4 1 10 13 1 18),
      (0x6E18C48F, Instr.atomsXor 0 1 1 6 9 0 15),
      (0x7080634C, Instr.atomsXchg 0 8 0 3 6 1 12),
      (0x73A80148, Instr.atomsCas 1 10 1 0 2 1 8),
      (0x80000000, Instr.fence 0),
      (0x81081B7C, Instr.pref 0 1 54 1 60)].all (fun x => (decode 3 x.1 none).toOption == some x.2) = true := by decide

theorem test_decode_memory_4 :
    [(0x828019F8, Instr.reqpage 8 0 51 1 56),
      (0x839017B5, Instr.l1inv 9 0 47 0 53),
      (0x84000000, Instr.l1inva)].all (fun x => (decode 3 x.1 none).toOption == some x.2) = true := by decide

theorem test_decode_tile_1 :
    [(0x000011A6, Instr.tileMma 35 38),
      (0x0103E002, Instr.tileZero 31 2),
      (0x02038F82, Instr.tileMov 28 31 2),
      (0x03032D89, Instr.tileAdd 25 27 9),
      (0x0402AC0B, Instr.tileScale 21 24 11),
      (0x05024000, Instr.tileQuery 18)].all (fun x => (decode 4 x.1 none).toOption == some x.2) = true := by decide

theorem test_decode_copy_1 :
    [(0x00012897, Instr.cpin 9 17 0 23),
      (0x01016054, Instr.cpout 11 0 1 20),
      (0x02010590, Instr.cpwb 8 11 0 16),
      (0x0300838A, Instr.lock 4 7 10),
      (0x04002207, Instr.unlock 1 4 7),
      (0x05001F00, Instr.wkey 62)].all (fun x => (decode 5 x.1 none).toOption == some x.2) = true := by decide

theorem test_decode_remote_1 :
    [(0x02000033, Instr.figunld 51),
      (0x030F6E7C, Instr.stn 0 1 54 57 60),
      (0x04872D78, Instr.stnRel 8 0 50 53 56),
      (0x06026000, Instr.nameget 38),
      (0x07000000, Instr.namerel),
      (0x0803F105, Instr.tender 31 34 5),
      (0x09000007, Instr.serve 7),
      (0x0A030D89, Instr.take 24 27 9),
      (0x0B02AC0B, Instr.mcast 21 24 11),
      (0x0C024017, Instr.redx 18 1 7)].all (fun x => (decode 6 x.1 none).toOption == some x.2) = true := by decide

theorem test_decode_system_1 :
    [(0x00074A3D, Instr.csrrd 58 2621),
      (0x0106E539, Instr.csrwr 55 1337),
      (0x02000000, Instr.rft),
      (0x03000CF6, Instr.tlbinv 0 51 54),
      (0x0400160A, Instr.lkeyld 44 10),
      (0x05001487, Instr.lkeyarm 41 7),
      (0x06001309, Instr.bidf 38 9),
      (0x07000000, Instr.halt),
      (0x08000F80, Instr.replay 31),
      (0x09038009, Instr.evrd 28 9),
      (0x0A000C0B, Instr.evsel 24 11)].all (fun x => (decode 7 x.1 none).toOption == some x.2) = true := by decide

/-- The rows of two words: the second word follows the first. -/
theorem test_decode_long :
    [(1, 0x672FF000, 0xFFFFFFFD, Instr.movl 2 1 1 63 0xFFFFFFFD),
      (1, 0x793E4261, 0x151, Instr.xread 3 1 100 9 33 17 2 1),
      (1, 0x7A905A42, 63, Instr.xshuf 9 0 5 41 2 63),
      (1, 0x7B17F132, 31, Instr.xbcast 1 0 127 4 50 31),
      (1, 0xFD06C000, 0x80000001, Instr.movlScalar 1 44 0x80000001),
      (6, 0xBCAB6B, 0x67A, Instr.fig 11 1 37 22 1 43 58 9 1),
      (6, 0x10256A1, 0x3E, Instr.figld 18 45 33 62),
      (6, 0x565DD0D, 11, Instr.stnF 6 0 29 52 13 11)].all (fun x => (decode x.1 x.2.1 (some x.2.2.1)).toOption == some x.2.2.2) = true := by
  decide

/-- An unprivileged squad of 32 threads in slot 0 of lane 0 of core 0. -/
def sq0 : Squad := placedSquad false

/-- Its clause in execution at its first word, for the threads of a mask. -/
def ex (mask : Word) : Exec := { squad := 1, clause := placedClause 1 [0], idx := 1, mask := mask }

/-- A small running module: squad 1 executes a clause on core 0, in a region with a handler, outside a commit section. -/
def small (sq : Squad) (mask : Word) (k : CoreS) (g : Region) : State :=
  { State.reset with
    module := { power := .active, booted := true }
    squads := [(1, sq)]
    launches := [(1, { region := g, placed := 1 })]
    blocks := [(blockKey 1 0, { launch := 1, core := some 0, size := 4096 })]
    lanes := [(0, { last := 0, turns := 1, ended := false, cur := some (ex mask) })]
    cores := [(0, k)] }

/-- All threads, an empty core. -/
def s0 : State := small sq0 (BitVec.allOnes 32) {} placedRegion

/-- As `s0`, with the pair lock held. -/
def sLock : State := { s0 with pairs := [(0, { owner := some 1 })] }

/-- Thread 0 alone, s1 holding x, the core as given. -/
def one (x : Reg) (k : CoreS) : State := small { sq0 with sc := [(1, x)] } 1 k placedRegion

/-- A TLB that maps the page of address 0 with the leaf bits given. -/
def mapped (leaf : Nat) : CoreS := { tlb := [{ asid := 0, page := 0, size := 4096, leaf := leaf }] }

theorem wit_DecodeEncode :
    (Instr.add 3 15 1 1 63 63 63).cls = some 1 ∧ (Instr.add 3 15 1 1 63 63 63).wellFormed = true ∧
    encodeLit (Instr.fig 15 1 63 63 1 63 63 11 1) = some 0x6FF ∧ (Instr.fig 15 1 63 63 1 63 63 11 1).cls = some 6 ∧
    (Instr.fig 15 1 63 63 1 63 63 11 1).wellFormed = true := by decide

/-- The lane of a clause of two words ADD stands at the first. -/
def twoWords : State := State.reset.placed 1 [0x02385187, 0x02385187]

theorem wit_StepRunsDecoded :
    twoWords.agenda = [] ∧ ∃ e, (twoWords.lane twoWords.focus).cur = some e ∧ e.hold = none ∧ 1 ≤ e.idx ∧
      e.idx ≤ e.clause.words.length ∧ e.clause.words[e.idx - 1]? = some 0x02385187 ∧
      decode (hdrClass e.clause.hdr) (0x02385187 : Word).toNat ((e.clause.words[e.idx]?).map (·.toNat)) = .ok (.add 2 3 1 0 5 6 7) ∧
      (Instr.add 2 3 1 0 5 6 7).wellFormed = true ∧
      ∃ t e', exec (.add 2 3 1 0 5 6 7) twoWords = .next t ∧ (t.lane t.focus).cur = some e' ∧ e'.hold = none ∧
        e'.idx + (if (Instr.add 2 3 1 0 5 6 7).isLong then 2 else 1) ≤ e'.clause.words.length :=
  ⟨rfl, _, rfl, rfl, by decide, by decide, rfl, rfl, rfl, _, _, rfl, rfl, rfl, by decide⟩

theorem wit_StepKeepsMemoryForm : twoWords.memWf = true ∧ ∃ t, step twoWords = .next t := ⟨by decide, _, rfl⟩

theorem wit_ExtendedRegisters :
    s0.current = some (1, sq0, ex (BitVec.allOnes 32)) ∧ s0.holdsLock 1 sq0 = false ∧ (∃ r ∈ [31, 32], 32 ≤ r) ∧
    32 ≤ (63 : BitVec 6).toNat := ⟨rfl, rfl, by decide, by decide⟩

/-- What every vector word asks of a state: v31 without the pair lock, v63 with it. -/
theorem wit_vector :
    s0.current = some (1, sq0, ex (BitVec.allOnes 32)) ∧ s0.mayName 1 sq0 [31, 31, 31] ∧
    sLock.current = some (1, sq0, ex (BitVec.allOnes 32)) ∧ sLock.mayName 1 sq0 [63, 63, 63] :=
  ⟨rfl, .inr (by decide), rfl, .inl rfl⟩

theorem wit_IntegerArithmetic :
    s0.current = some (1, sq0, ex (BitVec.allOnes 32)) ∧ s0.mayName 1 sq0 ((31 : BitVec 6).toNat :: regsB 0 31 ++ [(31 : BitVec 6).toNat]) ∧
    sLock.mayName 1 sq0 ((63 : BitVec 6).toNat :: regsB 1 63 ++ [(63 : BitVec 6).toNat]) := ⟨rfl, .inr (by decide), .inl rfl⟩

theorem wit_LogicAndBitFields :
    s0.current = some (1, sq0, ex (BitVec.allOnes 32)) ∧ s0.mayName 1 sq0 ((0 : BitVec 6).toNat :: regsB 1 63 ++ [(31 : BitVec 6).toNat]) :=
  ⟨rfl, .inr (by decide)⟩

theorem wit_PredicateWords :
    s0.current = some (1, sq0, ex (BitVec.allOnes 32)) ∧ s0.mayName 1 sq0 [(31 : BitVec 6).toNat, (0 : BitVec 6).toNat] :=
  ⟨rfl, .inr (by decide)⟩

theorem wit_ScalarWords : s0.current = some (1, sq0, ex (BitVec.allOnes 32)) := rfl

theorem wit_FloatArithmetic :
    fpFormatOk 0 = true ∧ fpFormatOk 2 = true ∧ s0.current = some (1, sq0, ex (BitVec.allOnes 32)) ∧
    s0.mayName 1 sq0 ((31 : BitVec 6).toNat :: regsB 0 31 ++ [(31 : BitVec 6).toNat]) :=
  ⟨by decide, by decide, rfl, .inr (by decide)⟩

/-- R103. Two finite values, an infinity of each sign, a NaN and a zero of each sign, in F16. -/
theorem wit_RoundedArithmetic :
    Fmt.bf16 ∈ [Fmt.f32, .f16, .bf16] ∧ 0xFE01 < 2 ^ Fmt.f16.width ∧ Fmt.f16.units 1 = some 1 ∧ Fmt.f16.units 0x8001 = some (-1) ∧
    0x7C00 % 2 ^ (Fmt.f16.width - 1) = Fmt.f16.beyond ∧ 0xFC00 % 2 ^ (Fmt.f16.width - 1) = Fmt.f16.beyond ∧
    Fmt.f16.beyond < 0xFE01 % 2 ^ (Fmt.f16.width - 1) ∧ Fmt.f16.units 0 = some 0 ∧ Fmt.f16.units 0x8000 = some 0 := by decide

theorem wit_FloatOrder :
    fpFormatOk 2 = true ∧ s0.current = some (1, sq0, ex (BitVec.allOnes 32)) ∧
    s0.mayName 1 sq0 ((31 : BitVec 6).toNat :: regsB 0 31 ++ [(31 : BitVec 6).toNat]) := ⟨by decide, rfl, .inr (by decide)⟩

theorem wit_Conversions :
    cvtOk 0 9 5 = true ∧ cvtOk 15 8 0 = true ∧ s0.current = some (1, sq0, ex (BitVec.allOnes 32)) ∧
    s0.mayName 1 sq0 [(31 : BitVec 6).toNat, (31 : BitVec 6).toNat] ∧ 8 ≤ (8 : BitVec 4).toNat ∧ 8 ≤ (15 : BitVec 4).toNat ∧
    2 ^ 64 - 1 < 2 ^ cvtWidth 15 := ⟨by decide, by decide, rfl, .inr (by decide), by decide, by decide, by decide⟩

theorem wit_SpecialFunctions :
    fpFormatOk 2 = true ∧ s0.current = some (1, sq0, ex (BitVec.allOnes 32)) ∧
    s0.mayName 1 sq0 [(31 : BitVec 6).toNat, (31 : BitVec 6).toNat] ∧ Fmt.f16.nanPattern 0x7C01 = true ∧ Fmt.f16.nanPattern 0x7C00 = false :=
  ⟨by decide, rfl, .inr (by decide), by decide, by decide⟩

theorem wit_CrossThreadReads :
    s0.current = some (1, sq0, ex (BitVec.allOnes 32)) ∧
    s0.mayName 1 sq0 [(31 : BitVec 6).toNat, (31 : BitVec 6).toNat, (31 : BitVec 6).toNat] ∧
    (7 : BitVec 3).toNat < 64 / widthOf 0 ∧ (0 : BitVec 3).toNat < 64 / widthOf 3 := ⟨rfl, .inr (by decide), by decide, by decide⟩

theorem wit_ReductionsAndScans :
    s0.current = some (1, sq0, ex (BitVec.allOnes 32)) ∧ s0.mayName 1 sq0 [(31 : BitVec 6).toNat] ∧
    s0.mayName 1 sq0 [(31 : BitVec 6).toNat, (31 : BitVec 6).toNat] := ⟨rfl, .inr (by decide), .inr (by decide)⟩

/-- No thread in the clause; an element that is not aligned; one beyond 2^56; one that its page does not let be written; a write of
a DET-shared page outside a commit section; an absent page. -/
theorem wit_AccessChecks :
    (small sq0 0 {} placedRegion).elementsM sq0 (ex 0) 0 0 1 0 0 4 = [] ∧
    (one 1 {}).current = some (1, { sq0 with sc := [(1, 1)] }, ex 1) ∧ (one 1 {}).mayName 1 sq0 (31 :: regsX 0 0) ∧
    (one 1 {}).elementsM { sq0 with sc := [(1, 1)] } (ex 1) 0 0 1 0 0 4 = [] ++ (0, 1) :: [] ∧ 1 % 4 ≠ 0 ∧
    (one 0x100000000000000 {}).elementsM { sq0 with sc := [(1, 0x100000000000000)] } (ex 1) 0 0 1 0 0 4 = [] ++ (0, 2 ^ 56) :: [] ∧
    (({ r := true } : Need).fails (2 ^ 56) ((one 0 {}).translateIn 0 placedRegion (2 ^ 56))).isSome = true ∧
    (({ w := true } : Need).fails 0 ((one 0 (mapped 0x40103)).translateIn 0 placedRegion 0)).isSome = true ∧
    (({ w := true } : Need).fails 0 ((one 0 (mapped 0x40383)).translateIn 0 placedRegion 0)) = none ∧
    ((one 0 (mapped 0x40383)).translateIn 0 placedRegion 0).pageIs Page.det = true ∧
    (one 0 (mapped 0x40383)).inSection { sq0 with sc := [(1, 0)] } = false ∧
    (one 0 {}).translateIn 0 placedRegion 0 = .absent :=
  ⟨rfl, rfl, .inr (by decide), rfl, by decide, rfl, by decide, by decide, by decide, by decide, by decide, by decide⟩

theorem granted_one (need : Need) (h : need = { r := true } ∨ need = { w := true } ∨ need = { r := true, w := true, hbm := true } ∨
    need = { f := true, hbm := true }) :
    (one 0 (mapped 0x40F03)).granted { sq0 with sc := [(1, 0)] } need [(0, 0)] := by
  intro l hl
  obtain rfl := List.mem_singleton.1 hl
  refine ⟨by decide, _, rfl, ?_⟩
  rcases h with rfl | rfl | rfl | rfl <;> decide

theorem wit_GlobalAccess :
    (one 0 (mapped 0x40F03)).current = some (1, { sq0 with sc := [(1, 0)] }, ex 1) ∧
    (one 0 (mapped 0x40F03)).mayName 1 { sq0 with sc := [(1, 0)] } (31 :: regsX 0 0) ∧
    (one 0 (mapped 0x40F03)).elementsM { sq0 with sc := [(1, 0)] } (ex 1) 0 0 1 0 0 8 = [(0, 0)] ∧
    ({ sq0 with sc := [(1, 0)] } : Squad).addrScalar 1 0 8 % 8 = 0 ∧
    (one 0 (mapped 0x40F03)).granted { sq0 with sc := [(1, 0)] } { r := true } [(0, 0)] ∧
    (one 0 (mapped 0x40F03)).granted { sq0 with sc := [(1, 0)] } { w := true } [(0, 0)] :=
  ⟨rfl, .inr (by decide), rfl, by decide, granted_one _ (.inl rfl), granted_one _ (.inr (.inl rfl))⟩

/-- The last 8 bytes of an allocation of 4,096. -/
theorem wit_ScratchAccess :
    (one 4088 {}).current = some (1, { sq0 with sc := [(1, 4088)] }, ex 1) ∧ (one 4088 {}).mayName 1 { sq0 with sc := [(1, 4088)] } (31 :: regsX 0 0) ∧
    (one 4088 {}).elementsM { sq0 with sc := [(1, 4088)] } (ex 1) 0 0 1 0 0 8 = [(0, 4088)] ∧
    ({ sq0 with sc := [(1, 4088)] } : Squad).addrScalar 1 0 8 = 4088 ∧ 4088 % 8 = 0 ∧
    4088 + 8 ≤ ((one 4088 {}).block ({ sq0 with sc := [(1, 4088)] } : Squad).blockOf).size ∧ ((one 4088 {}).core 0).bindings = [] :=
  ⟨rfl, .inr (by decide), rfl, by decide, by decide, by decide, rfl⟩

theorem wit_RegisterAndAccumulatorAccess :
    (one 0x1FF8 {}).current = some (1, { sq0 with sc := [(1, 0x1FF8)] }, ex 1) ∧
    (one 0x1FF8 {}).mayName 1 { sq0 with sc := [(1, 0x1FF8)] } (31 :: regsX 0 0) ∧
    (one 0x1FF8 {}).elementsM { sq0 with sc := [(1, 0x1FF8)] } (ex 1) 0 0 1 0 0 8 = [(0, 0x1FF8)] ∧ 0x1FF8 % 8 = 0 ∧ 0x1FF8 < 0x2000 ∧
    (one 0x7FFFFC {}).elementsM { sq0 with sc := [(1, 0x7FFFFC)] } (ex 1) 0 0 1 0 0 4 = [(0, 0x7FFFFC)] ∧ 0x7FFFFC % 4 = 0 ∧
    0x7FFFFC < 0x800000 ∧ ((one 0x7FFFFC {}).core 0).bindings = [] :=
  ⟨rfl, .inr (by decide), rfl, by decide, by decide, rfl, by decide, by decide, rfl⟩

theorem wit_PodAccess :
    let x : Reg := 0xFFFFFFFFFFFFFF8
    (one x {}).current = some (1, { sq0 with sc := [(1, x)] }, ex 1) ∧ (one x {}).mayName 1 { sq0 with sc := [(1, x)] } (31 :: regsX 0 0) ∧
    (({ sq0 with sc := [(1, x)] } : Squad).activeT (ex 1) 0 0).map
      (fun th => (th, (one x {}).addrPod { sq0 with sc := [(1, x)] } 1 0 0 8 th)) = [(0, 2 ^ 60 - 8)] ∧ (2 ^ 60 - 8) % 8 = 0 :=
  ⟨rfl, .inr (by decide), rfl, by decide⟩

theorem wit_AtomicWords :
    (one 0 (mapped 0x40F03)).current = some (1, { sq0 with sc := [(1, 0)] }, ex 1) ∧
    (one 0 (mapped 0x40F03)).mayName 1 { sq0 with sc := [(1, 0)] } (30 :: (30 + 1) :: regsX 0 0) ∧
    (one 0 (mapped 0x40F03)).elementsM { sq0 with sc := [(1, 0)] } (ex 1) 0 0 1 0 0 8 = [(0, 0)] ∧
    (one 0 (mapped 0x40F03)).granted { sq0 with sc := [(1, 0)] } { r := true, w := true, hbm := true } [(0, 0)] ∧
    ((one 0 (mapped 0x40F03)).regionOf { sq0 with sc := [(1, 0)] }).det = false ∧
    ((small { sq0 with sc := [(1, 16)] } 1 {} { placedRegion with det := true }).regionOf sq0).det = true ∧
    ({ sq0 with sc := [(1, 16)] } : Squad).addrScalar 1 0 16 % 16 = 0 :=
  ⟨rfl, .inr (by decide), rfl, granted_one _ (.inr (.inr (.inl rfl))), rfl, rfl, by decide⟩

theorem wit_LineWords :
    (one 0 (mapped 0x40F03)).current = some (1, { sq0 with sc := [(1, 0)] }, ex 1) ∧
    (one 0 (mapped 0x40F03)).mayName 1 { sq0 with sc := [(1, 0)] } (regsX 1 31) ∧
    (∃ p, (one 0 (mapped 0x40F03)).translateIn 0 placedRegion 0 = .page p ∧ p.host = false ∧ p.r = true ∧ p.home ≤ 1) ∧
    (one 0 (mapped 0x40F03)).combining = [] ∧ ((one 0 (mapped 0x40F03)).core 0).l1.length + 32 ≤ 8192 ∧
    ((one 0 {}).core 0).filter.length + 32 ≤ 64 ∧ (one 0 {}).translateIn 0 placedRegion 0 = .absent :=
  ⟨rfl, .inr (by decide), ⟨_, rfl, by decide, by decide, by decide⟩, rfl, by decide, by decide, by decide⟩

/-- Scratch whose first bytes are those given. -/
def scratchOf (bs : List Byte) : CoreS := { scratch := tabPuts 0 [] (bs.zipIdx.map (fun x => (x.2, x.1))) }

/-- A layout record: an F32 tensor of one element, or a RAW one from scratch. -/
def recordF32 : List Byte := List.replicate 64 0
def recordRaw : List Byte := List.replicate 0x38 0 ++ [31, 0, 0, 0, 0, 0, 0, 0]

theorem wit_CopyWords :
    s0.current = some (1, sq0, ex (BitVec.allOnes 32)) ∧ (11 : BitVec 4).toNat < 12 ∧ sq0.flagP_ 11 < 15 ∧
    copyCheck .cpin recordF32 4096 [] = none ∧ copyCheck .cpout recordF32 4096 [] = none ∧ copyCheck .cpwb recordRaw 4096 [] = none ∧
    (List.range 64).map (fun i => (sq0.readS (0 + i / 8)).extractLsb' (8 * (i % 8)) 8) = recordF32 ∧
    (s0.core 0).copies.length < 16 ∧ (s0.core 0).board = [] ∧ (s0.block sq0.blockOf).size = 4096 ∧ s0.image64 sq0 4032 = recordF32 ∧
    4096 < 4033 + 64 ∧
    castOk 0 (leBytes 16 0 ++ leBytes 48 128) 1 1 = true := by decide

/-- With 16 entries in use the word waits. -/
theorem wit_copy_full :
    16 ≤ ((small sq0 1 { copies := List.replicate 16 { id := 0, squad := 9, kind := .cpin, flag := 0, image := [], base := 0, size := 0 } }
      placedRegion).core 0).copies.length := by decide

/-- A parameter block: one K-block, one row by one column. -/
def blockOne : List Byte := leBytes 8 0 ++ leBytes 56 1

theorem wit_TileWords :
    s0.current = some (1, sq0, ex (BitVec.allOnes 32)) ∧ tileCheck blockOne 4096 = none ∧ tpFlag blockOne < 12 ∧ (11 : BitVec 4).toNat < 12 ∧
    (small sq0 1 (scratchOf blockOne) placedRegion).image64 sq0 0 = blockOne ∧ sq0.flagP_ 11 < 15 ∧ (s0.core 0).tiles.length < 16 ∧
    16 ≤ (List.replicate 16 ({ id := 0, squad := 9, kind := .mma, flag := 0 } : TileOp)).length ∧ 4096 < 4033 + 64 := by decide

/-- The whole weight buffer, its last 64 bytes, and a range that is empty. -/
theorem wit_WeightBufferWords :
    s0.current = some (1, sq0, ex (BitVec.allOnes 32)) ∧ (0x200000 ≠ 0 ∧ 0x200000 % 64 = 0 ∧ 0 + 0x200000 ≤ 0x200000) ∧
    (64 ≠ 0 ∧ 64 % 64 = 0 ∧ 0x1FFFC0 + 64 ≤ 0x200000) ∧ ¬ (0 ≠ 0) ∧ (s0.core 0).locks.length < 8 ∧
    8 ≤ ((small sq0 1 { locks := List.replicate 8 (0, 64) } placedRegion).core 0).locks.length := by decide

/-- A slot that is valid for GLOBAL, one that is valid for POD, one that is empty, one that is busy. -/
theorem wit_FigureWords :
    let k : CoreS := { (mapped 0x40F03) with summary := [(0, 0x80), (1, 0xC0)], busy := 4 }
    let s := one 0 k
    let sq : Squad := { sq0 with sc := [(1, 0)] }
    s.current = some (1, sq, ex 1) ∧ sq.activeT (ex 1) 0 0 ≠ [] ∧ (s.core 0).busy.getLsbD 2 = true ∧
    (s.core 0).busy.getLsbD 63 = false ∧ ((tabGet 0 (s.core 0).summary 63).toNat).testBit 7 = false ∧ (s.core 0).busy.getLsbD 0 = false ∧
    ((tabGet 0 (s.core 0).summary 0).toNat).testBit 7 = true ∧ ((tabGet 0 (s.core 0).summary 0).toNat).testBit 6 = false ∧
    s.elementsM sq (ex 1) 0 0 1 0 0 1 = [(0, 0)] ∧ ((tabGet 0 (s.core 0).summary 1).toNat).testBit 6 = true ∧
    ({ sq0 with sc := [(1, 0)] } : Squad).addrScalar 1 0 64 % 64 = 0 ∧ (11 : BitVec 4).toNat < 12 := by decide

/-- The page of the image, and of a GLOBAL figure. -/
theorem wit_figure_pages :
    (one 0 (mapped 0x40F03)).granted { sq0 with sc := [(1, 0)] } { f := true, hbm := true } [(0, 0)] :=
  granted_one _ (.inr (.inr (.inr rfl)))

/-- A store to a live name, to a name of generation 0 and to one above 2^32; a squad with a name and one without; a region with room
and one without; an empty directory. -/
theorem wit_NamedStoreWords :
    (one 1 {}).current = some (1, { sq0 with sc := [(1, 1)] }, ex 1) ∧ (one 1 {}).mayName 1 sq0 [31, 31] ∧
    ({ sq0 with sc := [(1, 1)] } : Squad).activeT (ex 1) 0 0 ≠ [] ∧ ¬ (2 ^ 32 ≤ (1 : Reg).toNat ∨ (1 : Reg).toNat % 64 = 0) ∧
    (2 ^ 32 ≤ (0x100000001 : Reg).toNat ∨ (0x100000001 : Reg).toNat % 64 = 0) ∧ (0 : Reg).toNat % 64 = 0 ∧
    (∀ x ∈ ((small sq0 1 {} { placedRegion with path := [(0x10000, 24576, 1)] }).regionOf sq0).path,
      (small sq0 1 {} { placedRegion with path := [(0x10000, 24576, 1)] }).namesUnder x.1 < x.2.2) ∧
    ¬ (∀ x ∈ (s0.regionOf sq0).path, s0.namesUnder x.1 < x.2.2) ∧ sq0.sname = 0 ∧ sq0.place = .resident 0 0 0 :=
  ⟨rfl, .inr (by decide), by decide, by decide, by decide, by decide, by decide, by decide, rfl, rfl⟩

/-- An empty memory's directory is free throughout. -/
theorem wit_directory (i : Nat) : (s0.dirEntry i).st = 0 := by
  have h : s0.readLe (s0.dirAt i) 1 = 0 := State.readLe_above (b := 0) (by decide) (Nat.zero_le _) 1
  simp [State.dirEntry, h]

def heat0 : Heat := { core := 0, squad := 1, sname := 1, dest := 63, cls := 15, task := [], rcb := 0x10000, coreMask := 1 }
def class0 : Tab ClassEntry := [(16 * 0x10000 + 15, { servers := 1 })]

/-- TENDER and TAKE at the last 64 bytes of an allocation; SERVE with a name and without; an inbox with an entry; a heat in each
stage. -/
theorem wit_HeatsOfTasks :
    (4032 % 64 = 0 ∧ 4032 + 64 ≤ (s0.block sq0.blockOf).size ∧ (s0.core 0).bindings = []) ∧ sq0.sname = 0 ∧
    ({ sq0 with sname := 1 } : Squad).sname ≠ 0 ∧ (s0.core 0).inbox = [] ∧
    (let x : InboxEntry := { cls := 15, task := List.replicate 64 0, core := 383, sname := 1 }
     [x] = [] ++ x :: [] ∧ x.cls = (15 : BitVec 4).toNat ∧ x.core < 2 ^ 16 ∧ x.task.length = 64) ∧
    (let s : State := { s0 with heats := [(0, heat0)], classes := class0 }
     tabFind s.heats 0 = some heat0 ∧ heat0.stage = .queued ∧ (s.heats.filter (fun x => x.2.active)).length < 16 ∧
     (List.range 384).filter (fun c => heat0.coreMask.getLsbD c && (s.classOf heat0.rcb heat0.cls).servers.getLsbD c &&
       !heat0.withdrawn.contains c) = [0]) ∧
    heat0.due ≤ s0.clockOfDie 8 ∧
    (let h : Heat := { heat0 with stage := .window 16, bidders := [0] }
     h.due ≤ s0.clockOfDie 8 ∧ 0 ∈ h.bidders ∧ (∀ b ∈ h.sent ++ h.bids, b.1 ≠ 0)) ∧
    (let h : Heat := { heat0 with stage := .window 28, bidders := [0], due := 12, sent := [(0, 5)] }
     h.sent.find? (fun x => x.1 == 0) = some (0, 5) ∧ s0.clockOfDie 8 < h.due + 14 ∧
     h.due + 14 ≤ ({ s0 with dieClk := [(8, 26)] } : State).clockOfDie 8 ∧ h.due + 14 ≤ 28 ∧
     ∀ c ∈ h.bidders, ∃ x ∈ h.bids ++ [(0, 5)], x.1 = c) ∧
    (let h : Heat := { heat0 with stage := .window 25, bidders := [0, 1], due := 12, sent := [(0, 5)] }
     25 < h.due + 14 ∧ ∃ c ∈ h.bidders, ∀ x ∈ h.bids ++ [(0, 5)], x.1 ≠ c) ∧
    (let s : State := { s0 with dieClk := [(8, 28)] }
     let h : Heat := { heat0 with stage := .window 28, bidders := [0], due := 12, bids := [(0, 5)] }
     28 ≤ s.clockOfDie 8 ∧ h.bids ≠ [] ∧ (∀ c ∈ h.bidders, ∃ x ∈ h.bids, x.1 = c) ∧ heat0.bids = [] ∧ 25 < h.due + 14) ∧
    (s0.core 0).inbox.length < 16 ∧
    (let e : Exec := { ex 1 with hold := some (.heat 0) }
     let s : State := { s0 with heats := [(0, { heat0 with stage := .result 1 0 })], lanes := [(0, { cur := some e })] }
     tabFind s.squads 1 = some sq0 ∧ sq0.isResident = true ∧ (s.lane sq0.laneOf).cur = some e ∧ e.squad = 1 ∧ e.hold = some (.heat 0) ∧
       ∃ th < 32, sq0.readVpc th ≠ exited) := by decide

/-- A target that is a multiple of 4, one that is not. -/
theorem wit_Branches :
    (small sq0 1 {} placedRegion).current = some (1, sq0, ex 1) ∧ (small sq0 1 {} placedRegion).mayName 1 sq0 [(31 : BitVec 6).toNat] ∧
    sq0.activeT (ex 1) 0 0 = [] ++ 0 :: [] ∧ ((s0.readV sq0 31 0).setWidth 32 : Word).toNat % 4 = 0 ∧
    (((small { sq0 with v := [(0, 2)] } 1 {} placedRegion).readV { sq0 with v := [(0, 2)] } 0 0).setWidth 32 : Word).toNat % 4 ≠ 0 :=
  ⟨rfl, .inr (by decide), rfl, by decide, by decide⟩

/-- A completed barrier; a generation of the other kind; counts 0, 1, 16 and 17. -/
theorem wit_BarrierWords :
    s0.current = some (1, sq0, ex (BitVec.allOnes 32)) ∧ sq0.barRole = some true ∧ (1 ≤ 1 ∧ 1 ≤ 16) ∧ (1 ≤ 16 ∧ 16 ≤ 16) ∧
    (0 = 0 ∨ 16 < 0) ∧ (17 = 0 ∨ 16 < 17) ∧ ({ sq0 with barRole := none } : Squad).barRole = none ∧
    (let b : Barrier := { count := 2, barc := true, arrivals := [2] }
     b.arrivals ≠ [] ∧ b.barc = true ∧ b.count ≠ 3) := by decide

/-- In a commit section and outside; a loop that nests in none, and one whose body leaves an active one. -/
theorem wit_WaitsAndLoops :
    s0.current = some (1, sq0, ex (BitVec.allOnes 32)) ∧ s0.inSection sq0 = false ∧ (State.reset.placed 1 [0]).inSection sq0 = true ∧
    (2 : BitVec 2) ≠ 3 ∧ (∀ m < 3, (sq0.loopN m).active = true → False) ∧
    (let sq : Squad := { sq0 with loop0 := { lc := 1, start := 0, len := 1, active := true, seq := 1 } }
     (sq.loopN 0).active = true ∧ (sq.loopN 1).active = false ∧
       ¬ (8 + 4 * 1 ≤ (sq.loopN 0).start.toNat + 4 * (sq.loopN 0).len.toNat)) := by decide

theorem wit_SquadWords :
    s0.current = some (1, sq0, ex (BitVec.allOnes 32)) ∧ s0.mayName 1 sq0 [(31 : BitVec 6).toNat] ∧ (s0.pair sq0.pairOf).owner = none ∧
    sLock.mayName 1 sq0 [(63 : BitVec 6).toNat] ∧ (sLock.pair sq0.pairOf).owner = some 1 :=
  ⟨rfl, .inr (by decide), rfl, .inl rfl, rfl⟩

/-- A squad with a handler; one in privileged state; one without a handler. -/
theorem wit_Traps :
    s0.current = some (1, sq0, ex (BitVec.allOnes 32)) ∧ sq0.activeT (ex (BitVec.allOnes 32)) 0 0 ≠ [] ∧ sq0.activeT (ex 0) 0 0 = [] ∧
    sq0.priv = false ∧ (s0.regionOf sq0).handler ≠ 0 ∧ (s0.regionOf sq0).handler < (s0.regionOf sq0).codeSize ∧
    (s0.regionOf sq0).handler < 2 ^ 32 - 1 ∧ (s0.regionOf sq0).within (s0.regionOf sq0).domain = true ∧ (placedSquad true).priv = true ∧
    ((small sq0 1 {} { placedRegion with handler := 0 }).regionOf sq0).handler = 0 := by decide

theorem wit_SystemWordPrivilege : s0.current = some (1, sq0, ex (BitVec.allOnes 32)) ∧ sq0.priv = false := by decide

theorem wit_ReturnFromTrap :
    (small (placedSquad true) 1 {} placedRegion).current = some (1, placedSquad true, ex 1) ∧ (placedSquad true).priv = true ∧
    (placedSquad true).mgmt = false ∧ ({ placedSquad true with mgmt := true } : Squad).mgmt = true ∧
    ({ placedSquad true with xinfo := 15 } : Squad).xinfo.extractLsb' 0 4 ≠ 0 ∧ (placedSquad true).xinfo.extractLsb' 0 4 = 0 := by decide

/-- Addresses of every kind at 0; an uncached page; a key slot that is loaded and one that is not. -/
theorem wit_SystemRegisters :
    let s := small (placedSquad true) 1 (mapped 0x40F0F) placedRegion
    s.current = some (1, placedSquad true, ex 1) ∧ (placedSquad true).priv = true ∧ s.holdsLock 1 (placedSquad true) = false ∧
    (0x020 + 31 = (0x03F : BitVec 12).toNat ∧ 0x040 + 63 = (0x07F : BitVec 12).toNat) ∧
    (s.combining = [] ∧ s.tileFigs = [] ∧ (s.core 0).path = [] ∧ (s.core 0).held = [] ∧ s.struck = []) ∧
    (∀ i < 16, ((s.translateIn 0 placedRegion (8 * i)).pageIs (fun p => p.r && !p.host && p.home == 3 && !s.isPoisoned (p.pa (8 * i)))) = true) ∧
    classEntryOf (List.replicate 16 0) 0 = some {} ∧ 8 % 16 ≠ 0 ∧ 32 % 64 ≠ 0 ∧
    (let t : State := { s with links := [(15, { tx1 := { valid := true }, keyAddr := some 0 })] }
     (t.link 15).txIdle.valid = true ∧ (t.link 15).keyAddr = some 0) ∧ (s.link 15).txIdle.valid = false := by decide

/-- Page tables at 0x1000, 0x2000 and 0x3000 that map the first GiB onto itself, with every permission. -/
def pages : List Host.Cell := [(0x1000, 0x01), (0x1001, 0x20), (0x2000, 0x01), (0x2001, 0x30), (0x3000, 0x03), (0x3001, 0x0F)]

/-- The region of those tables. -/
def gPages : Region := { placedRegion with root := 0x1000 }

/-- A free lane, and one clause in memory at address 0: a header and a word. -/
def fetching (hdr w : Nat) (sq : Squad) : State :=
  { small sq 1 {} gPages with
    lanes := []
    hbm := tabPuts 0 [] ((leBytes 4 hdr ++ leBytes 4 w).zipIdx.map (fun x => (x.2, x.1))) ++ pages }

/-- A clause of one word ADD that passes; one with a POISON before it; one whose word is no instruction; a SYS clause. -/
theorem wit_ClauseFetch :
    (let s := fetching 0x12000000 0x02385187 sq0
     s.mayTake 1 sq0 = true ∧ sq0.nextStart = some (0, 1, BitVec.allOnes 32) ∧ sq0.fetched = none ∧
     (∀ l ∈ sq0.loops, l.2.active = false ∨ l.2.inside 0 = false) ∧ (s.codeWord 0 gPages true 0).toOption = some 0x12000000 ∧
     hdrCount 0x12000000 = 1 ∧ (s.codeWord 0 gPages false 4).toOption = some 0x02385187 ∧ sq0.poison = none ∧
     sq0.clauseCheck { addr := 0, hdr := 0x12000000, words := [0x02385187] } = none ∧ hdrClass 0x12000000 ≠ 7) ∧
    (let sq : Squad := { sq0 with poison := some (8, 1) }
     let s := fetching 0x12000000 0x02385187 sq
     (s.lane sq.laneOf).cur = none ∧ (s.choice sq.laneOf).map (·.1) = some 1 ∧ sq.priv = false ∧ sq.arrived = none ∧ sq.remainder = none ∧
     gPages.handler ≠ 0 ∧ gPages.handler < gPages.codeSize) ∧
    (let s := fetching 0x12000000 0xB0000001 sq0
     (s.choice 0).map (·.1) = some 1 ∧ sq0.clauseCheck { addr := 0, hdr := 0x12000000, words := [0xB0000001] } = some 1) ∧
    (let s := fetching 0x1E000000 0x02000000 sq0
     (s.choice 0).map (·.1) = some 1 ∧ sq0.clauseCheck { addr := 0, hdr := 0x1E000000, words := [0x02000000] } = none ∧
     hdrClass 0x1E000000 = 7) := by decide

/-- A fetched clause; it is the squad's second of the turn, or its first in slot order. -/
theorem wit_ClauseFetchAndIssue :
    let c : Clause := { addr := 0, hdr := 0x12000000, words := [0x02385187] }
    let sq : Squad := { sq0 with fetched := some c, barRole := none }
    let s := fetching 0x12000000 0x02385187 sq
    let s' : State := { s with lanes := [(0, { last := 0, who := 1, turns := 1, ended := false })] }
    ((s.arrivals 0).lane 0).cur = none ∧ ((s.arrivals 0).lane 0).last < 4 ∧ tabFind (s.arrivals 0).squads 1 = some sq ∧
    (s.arrivals 0).counts 1 sq = true ∧ (s.arrivals 0).take sq = .ok c 1 (BitVec.allOnes 32) ∧
    (s.arrivals 0).inSlot 0 ((((s.arrivals 0).lane 0).last + 1) % 4) = some (1, sq) ∧
    ¬ (((s.arrivals 0).lane 0).turns = 1 ∧ ((s.arrivals 0).lane 0).ended = false) ∧
    ((s'.arrivals 0).lane 0).turns = 1 ∧ ((s'.arrivals 0).lane 0).ended = false ∧ (s'.arrivals 0).inSlot 0 0 = some (1, sq) := by decide

def loadAt (kind : LoadKind) (st : ElemState) : LoadOp :=
  { squad := 1, core := 0, dest := 31, size := 8, kind := kind, elems := [{ thread := 31, va := 0x78, pa := 0x40078, st := st }] }

/-- The last 8 bytes of a line: from an empty L1, a poisoned line, a valid L1 line and a store of the same bytes. -/
theorem wit_LoadsCompletion :
    (∀ o ∈ [loadAt (.vec false) (.ready 7), loadAt .given (.bad 2), loadAt .nf .skip, loadAt .scalar (.ready 7), loadAt (.vec true) (.bad 1)],
      let s : State := { s0 with loads := [(5, o)] }
      tabFind s.loads 5 = some o ∧ o.dest < 64 ∧ (o.elems.find? (fun x => x.thread == 31)).isSome = true ∧ tabFind s.squads o.squad = some sq0 ∧
        sq0.exiting = false ∧ sq0.place ≠ .retired ∧ o.dest < 32) ∧
    (let o := loadAt (.vec false) .waiting
     let line : L1Line := { data := List.replicate 128 0 }
     let e : PathEntry := { op := 1, squad := 1, thread := 0, kind := .store (List.replicate 8 0), size := 8, va := 0x78, pa := 0x40078 }
     o.kind.global = true ∧ 0 < o.size ∧ 0x40078 % 128 + o.size ≤ 128 ∧ s0.isPoisoned 0x40078 = false ∧ tabFind (s0.core 0).l1 (0x40078 / 128) = none ∧
     ({ s0 with poisoned := [(0x40078 / 128, true)] } : State).isPoisoned 0x40078 = true ∧ ({ l1 := [(0x40078 / 128, line)] } : CoreS).l1Valid line = true ∧
     line.data.length = 128 ∧ ∀ i < 8, youngest [e] false (0x40078 + i) = some e) := by decide

theorem calm_s0 : s0.calm := ⟨rfl, rfl, rfl⟩

/-- A store of part of a line and of a whole one; an atomic of each kind. -/
theorem wit_StoresAndAtomicsAtHome :
    let e : PathEntry := { op := 1, squad := 1, thread := 0, kind := .store (List.replicate 8 1), size := 8, va := 0x78, pa := 0x40078 }
    let w : PathEntry := { op := 1, squad := 1, thread := 0, kind := .store (List.replicate 128 1), size := 128, va := 0, pa := 0x40000, whole := true }
    let s := small sq0 1 { path := [e] } gPages
    let u := small sq0 1 { path := [w] } gPages
    (s.core 0).path[0]? = some e ∧ (s.core 0).path.take 0 = [] ∧ (List.replicate 8 (1 : Byte)).length = e.size ∧ e.whole = false ∧
    (u.core 0).path[0]? = some w ∧ w.whole = true ∧ (u.core 0).path.filter (fun x => x.op == w.op && x.whole && x.onLine w.host w.pa) = [w] ∧
    w.bytes.length = w.size ∧
    (∀ a ∈ [(PathKind.atomic 0 0 1 0, 4), (.atomic 9 1 1 2, 8), (.addF32 1, 4), (.addBf16 1 none, 4), (.addBf16 1 (some 65535), 4), (.grab, 16)],
      let x : PathEntry := { op := 1, squad := 1, thread := 0, kind := a.1, size := a.2, va := 0, pa := 0x40000 }
      ((small sq0 1 { path := [x] } gPages).core 0).path[0]? = some x ∧ x.host = false ∧ x.gran = 0 ∧ x.isAtomic = true ∧
        (small sq0 1 { path := [x] } gPages).isPoisoned x.pa = false) := by decide

theorem released_s0 (upto : Nat) (scope : Nat) : s0.releasedAt 1 0 scope upto :=
  ⟨fun _ h => absurd h List.not_mem_nil, fun _ h => absurd h List.not_mem_nil, fun _ _ h => absurd h List.not_mem_nil,
   fun _ _ h => absurd h List.not_mem_nil⟩

/-- A line of 4,096 clk; a walk that ends in a leaf; each wait of a squad, with nothing outstanding; a write-combining entry of
2,048 clk. -/
theorem wit_MemoryWaits :
    (let k : CoreS := { l1 := [(3, { scope := 1 })], clk := 4096 }
     tabFind k.l1 3 = some { scope := 1 } ∧ (1 : Nat) ≠ 0 ∧ 4096 ≤ k.clk - 0) ∧
    (let w : Walk := { root := 0x1000, va := 0x40000 }
     let s : State := { s0 with hbm := pages, walks := [w] }
     s.walks.find? (fun x => x.core == 0 && x.asid == 0 && x.va == 0x40000) = some w ∧ (s.walk 0x1000 0x40000).pageIs (fun _ => true) = true) ∧
    s0.combining = [] ∧ tabFind s0.launches sq0.launch = some { region := placedRegion, placed := 1 } ∧
    (∀ w ∈ [NextWait.fence 3 1, .pass 1, .lnext 1 none, .tlbinv 0 none 1 none, .tlbinv 0 none 1 (some 1)],
      ({ sq0 with nextWait := some w } : Squad).nextWait = some w ∧ ({ sq0 with nextWait := some w } : Squad).exiting = false) ∧
    (s0.core 0).copies = [] ∧ (s0.core 0).tiles = [] ∧ s0.walks = [] ∧ s0.loads = [] ∧
    (let w : WcbEntry := { id := 1, dev := 2, line := 3 }
     let k : CoreS := { wcb := [w], clk := 2048 }
     k.wcb[0]? = some w ∧ 2048 ≤ k.clk - w.last) := by decide

/-- A page that waits for an entry: none is there, one is there, all 64 are in use. An entry with news; releases of a page record and
of another. -/
theorem wit_FaultRecords :
    (let w : FilterWait := { party := 2, page := 7, kinds := 1 }
     let f : FilterEntry := { page := 7 }
     let k : CoreS := { filterWait := [w] }
     let s := small sq0 1 { filter := [f] } placedRegion
     k.filterWait = w :: [] ∧ (∀ x ∈ k.filter, ¬ (x.page = w.page)) ∧ k.filter.length < 64 ∧
     [f] = [] ++ f :: [] ∧ (f.asid = w.asid ∧ f.fq = w.fq ∧ f.page = w.page) ∧ w.party ∉ f.waiters ∧ f.waiters.Nodup ∧
     64 ≤ (List.replicate 64 ({ page := 8 } : FilterEntry)).length ∧ (∀ x ∈ List.replicate 64 ({ page := 8 } : FilterEntry), x.page ≠ w.page) ∧
     s.dieFilters 0 = [(0, f)] ∧ f.sent = none ∧ s.stage = [] ∧ s.stageCount 0 < 256 ∧
     (let y : StageEntry := { page := 7 }
      y.matches_ 0 f.asid f.fq f.page = true)) ∧
    (let e : StageEntry := { page := 7, waiters := [2], posted := true, rcb := 0x10000 }
     let r : Release := { id := 9, record := leBytes 8 (7 * 4096) ++ leBytes 2 0 ++ leBytes 22 8 ++ leBytes 32 0x10000 }
     Machine.fld r.record 0x0A 1 = 8 ∧ e.die = Machine.fld r.record 0x10 8 / 2 ^ 48 % 8 ∧ e.page = Machine.fld r.record 0 8 / 4096 ∧
     e.asid = Machine.fld r.record 8 2 ∧ e.rcb = Machine.fld r.record 0x20 8 ∧ e.waiters = [2 * 1] ∧
     ({ sq0 with parked := some [7] } : Squad).parked = some [e.page]) ∧
    (let r : Release := { id := 9, squad := some 1, record := List.replicate 64 0 }
     Machine.fld r.record 0x0A 1 ≠ 8 ∧ ({ sq0 with nextWait := some (.replay 9) } : Squad).nextWait = some (.replay r.id)) := by decide

/-- An entry 64 die clk old with room in its ring, and one that found its ring full 4,096 die clk ago. -/
theorem wit_fault_posts :
    let e : StageEntry := { fq := 0x4000, page := 7, waiters := [2] }
    let o : StageEntry := { fq := 0x4000, page := 7, waiters := [2], overflowed := true }
    let s : State := { s0 with stage := [e], dieClk := [(0, 64)], hbm := [(0x4000, 0), (0x4001, 0x50)] }
    let u : State := { s0 with stage := [o], dieClk := [(0, 4096)] }
    (s.stageOf 0)[0]? = some e ∧ s.stage.count e = 1 ∧ e.posted = false ∧ e.record = none ∧ e.overflowed = false ∧
    64 ≤ s.clockOfDie 0 - e.born ∧ (s.readLe (0x4000 + 0x10) 4 + 2 ^ 32 - s.readLe (0x4000 + 0x14) 4) % 2 ^ 32 ≠ 2 ^ s.readLe (0x4000 + 8) 4 ∧
    0x4000 + 64 ≤ s.readLe 0x4000 8 ∧ (u.stageOf 0)[0]? = some o ∧ o.overflowed = true ∧ 4096 ≤ u.clockOfDie 0 - o.tried := by decide

def copy0 (kind : CopyKind) (image : List Byte) : CopyOp :=
  { id := 1, ord := 1, squad := 1, kind := kind, flag := 11, image := image, base := 0, size := 4096 }
def tile0 (kind : TileKind) (image : List Byte) : TileOp := { id := 1, ord := 1, squad := 1, kind := kind, flag := 11, image := image }

/-- A word that waited; a copy and a tile that may start; a copy that is over. -/
theorem wit_EngineQueues :
    (let e : Exec := { ex 1 with hold := some .copyQueue }
     let s : State := { s0 with lanes := [(0, { cur := some e })] }
     (s.lane 0).cur = some e ∧ e.hold = some .copyQueue ∧ (s.core (0 / 64)).copies.length < 16 ∧ (s.core 0).tiles.length < 16) ∧
    (let c := copy0 .cpin recordF32
     let k : CoreS := { copies := [c] }
     k.copies.find? (fun x => x.id == 1) = some c ∧ c.started = false ∧ (∀ x ∈ k.copies, x.ord < 1 → x.started = true) ∧
     (k.copies.filter (fun x => x.started)).length < 4 ∧ ∀ x ∈ k.engines, x.ord < 1 → x.conflict c.ranges = false) ∧
    (let c : CopyOp := { copy0 .cpin recordF32 with ended := true }
     [c].find? (fun x => x.id == 1) = some c ∧ c.ended = true ∧ c.pending = 0 ∧ c.squad = 1 ∧ c.flag < 12) ∧
    (let o := tile0 .mma blockOne
     let k : CoreS := { tiles := [o] }
     k.tiles.head? = some o ∧ o.started = false ∧ (∀ x ∈ k.engines, x.ord < o.ord → x.conflict o.ranges = false) ∧ o.k = 0 ∧
     tpAccumulate o.image = false) := by decide

/-- A layout record with a mode byte, and a format. -/
def recordOf (fmt mode : Byte) : List Byte := List.replicate 0x38 0 ++ [fmt, 0, mode, 0, 0, 0, 0, 0]

/-- A started copy of each kind, in scratch; a source page that is not there, and one without permission. -/
theorem wit_CopyRows :
    (let c : CopyOp := { copy0 .cpin (recordOf 31 0x11) with started := true }
     let s := small sq0 1 { copies := [c] } placedRegion
     (s.core 0).copies.find? (fun x => x.id == 1) = some c ∧ c.started = true ∧ c.parked = false ∧ c.ended = false ∧
     recFmt c.image = fmtRaw ∧ recScr c.image = true ∧ recSide c.image ≠ 0 ∧ (s.rowDo 0 c).2.toOption.isSome = true) ∧
    (let c : CopyOp := { copy0 .cpwb (recordOf 31 0x10) with started := true }
     recScr c.image = true ∧ recExt c.image 0 = 1 ∧ (storeAt .cpwb c.image (recDst c.image) 0 0 0 0).1 = 0) ∧
    (let c : CopyOp := { copy0 .cpout (recordOf 0 0x10) with started := true }
     recScr c.image = true ∧ recFmt c.image = 0 ∧ recBlk c.image = 0 ∧ recSide c.image = 0 ∧
     (storeAt .cpout c.image (recDst c.image) 0 0 0 0).1 = 0) ∧
    (let c : CopyOp := { copy0 .mcast (leBytes 16 0 ++ leBytes 48 128) with started := true }
     let s : State := { small sq0 1 { copies := [c] } gPages with hbm := pages }
     ({ c with region := gPages } : CopyOp).kind = .mcast ∧
     (s.rowRead 0 { c with region := gPages } ((List.range 128).map (fun i => (recSrc c.image + 128 * c.row + i) % 2 ^ 64))).2.toOption.isSome = true) ∧
    (let c : CopyOp := { copy0 .cpin (recordOf 31 0x01) with started := true, region := placedRegion }
     (match (s0.rowDo 0 c).2 with
      | .error (.park _ _) => true
      | _ => false) = true) ∧
    (let c : CopyOp := { copy0 .cpin (recordOf 31 0x01) with started := true, region := placedRegion }
     (match ((one 0 (mapped 0x40003)).rowDo 0 c).2 with
      | .error (.error _ _ _) => true
      | _ => false) = true) ∧
    ({} : Region).faultQueue = 0 := by decide

/-- A K-block of an A8 tile, and one whose zero-elided B points past the weight buffer; each whole-tile operation. -/
theorem wit_TileOperations :
    (let o : TileOp := { tile0 .mma blockOne with started := true }
     [o].head? = some o ∧ o.started = true ∧ o.kind = .mma ∧ o.ended = false ∧ (o.bRows [] o.k).isSome = true ∧ tpC16 o.image = false ∧
     tpClass o.image ≠ 3) ∧
    (let o : TileOp := { tile0 .mma (leBytes 13 (2 ^ 64) ++ leBytes 51 8) with started := true }
     tpElided o.image = true ∧ o.bRows [(0, 0xFF), (1, 0xFF), (2, 0xFF), (3, 0xFF)] o.k = none ∧ o.k < 2 ^ 32) ∧
    (let o : TileOp := { tile0 .mma blockOne with ended := true }
     o.ended = true ∧ o.squad = 1 ∧ o.flag < 12) ∧
    (∀ kind ∈ [TileKind.zero 63, .mov 63 0, .add 0 63, .scale 0 0x3F800000], ({ tile0 kind [] with started := true } : TileOp).started = true) := by
  decide

/-- A module whose figure table at 0x8000 holds a definition of one micro-operation END with the flags given. -/
def figured (fl : Nat) (k : CoreS) : State :=
  { small sq0 1 k { placedRegion with figTable := 0x8000 } with hbm := [(0x8000, BitVec.ofNat 8 fl), (0x8001, 1)] }
def figReq : PathEntry :=
  { op := 1, squad := 1, thread := 0, kind := .figure 0 5, size := 1, va := 0x70, pa := 0x40070, gran := 128,
    region := { placedRegion with figTable := 0x8000 } }

/-- A request for a slice, one for a channel, one that is combined into a new entry or a present one; an entry of 64 die clk. -/
theorem wit_FigureExecution :
    (let s := figured 0x84 { path := [figReq] }
     s.combining = [] ∧ s.struck = [] ∧ s.poisoned = [] ∧ s.tileFigs = [] ∧ (s.core 0).path[0]? = some figReq ∧
     combinable (figFlags (s.figEntry 0x8000 0)) none = false ∧ figTile (figFlags (s.figEntry 0x8000 0)) = false ∧
     figRet (figFlags (s.figEntry 0x8000 0)) = true ∧
     (match figRun (s.figEntry 0x8000 0) (s.readBytes 0x40000 128) 0x70 5 with
      | .ok r => r.img.length == 128
      | .fault _ => false) = true) ∧
    figTile (figFlags ((figured 0x81 {}).figEntry 0x8000 0)) = true ∧ combinable (figFlags ((figured 0x81 {}).figEntry 0x8000 0)) none = false ∧
    (let f : TileFig := { channel := 0, granule := 0x40000, asid := 0, slot := 0, pa := 0x40070, va := 0x70,
                          image := (figured 0x81 {}).figEntry 0x8000 0, operand := 5, count := 1 }
     [f][0]? = some f ∧ figTile (figFlags f.image) = true ∧ f.flagOp = none) ∧
    (let s := figured 0x82 { path := [figReq] }
     let y : CombineEntry := { slice := sliceOf 0x40070, asid := 0, slot := 0, pa := 0x40070, va := 0x70, operand := 1, count := 1, born := 0 }
     combinable (figFlags (s.figEntry 0x8000 0)) figReq.flag = true ∧ s.combining.length < 32 ∧ [y] = [] ++ y :: [] ∧
     y.slice = sliceOf figReq.pa ∧ y.asid = figReq.asid ∧ y.pa = figReq.pa ∧
     64 ≤ ({ s with dieClk := [(dieOfSlice y.slice, 64)] } : State).clockOfDie (dieOfSlice y.slice) - y.born) := by decide

def figLoad (image : List Byte) : LoadOp :=
  { squad := 1, core := 0, dest := 63, size := 8, kind := .figld 63, asid := 0,
    elems := (List.range 16).map (fun i => { thread := i, va := 8 * i, st := .ready (BitVec.ofNat 64 (Machine.fld image (8 * i) 8)) }) }

/-- A good image and a bad one; a load and an unload whose turn has come; a word that waited; a slice without its definition. -/
theorem wit_FigureDefinitions :
    (let o := figLoad (leBytes 128 256)
     tabFind ({ s0 with loads := [(5, o)] } : State).loads 5 = some o ∧ o.kind = .figld 63 ∧ (∀ l ∈ o.elems, ∃ v, l.st = .ready v) ∧ o.bad = none ∧
     figCheck o.image = 0) ∧
    figCheck (figLoad (leBytes 128 0)).image ≠ 0 ∧
    (let f : FigLoad := { id := 3, squad := 1, asid := 0, table := 0x8000, slot := 63, image := some (0 :: List.replicate 127 0) }
     let s : State := { s0 with figLoads := [f] }
     s.figLoads[0]? = some f ∧ f.squad = 1 ∧ s.figInFlight f.asid f.slot = false ∧ s.combining = [] ∧ (List.replicate 127 (0 : Byte)).length = 127 ∧
     ({ f with image := none } : FigLoad).image = none) ∧
    (let e : Exec := { ex 1 with hold := some (.slot 63) }
     let s : State := { s0 with lanes := [(0, { cur := some e })] }
     (s.lane 0).cur = some e ∧ (s.core (0 / 64)).busy.getLsbD 63 = false) ∧
    (s0.launches.find? (fun x => x.2.region.asid == 0)).isSome = true ∧ tabGet [] s0.defCache 767 = [] := by
  refine ⟨⟨by decide, by decide, ?_, by decide, by decide⟩, by decide, by decide, by decide, by decide, by decide⟩
  intro l hl
  obtain ⟨i, _, rfl⟩ := List.mem_map.1 hl
  exact ⟨_, rfl⟩

/-- A delivery of thread 31's value to v31 of a name of this device, of index 16,383 and generation 1. -/
def delivery0 : Delivery := { id := 1, squad := 1, core := 0, name := s0.nameOf 16383 1, reg := 31, mask := 0x80000000, vals := [(31, 7)] }

theorem delivery0_name :
    nameDev delivery0.name = s0.own ∧ nameIndex delivery0.name = 16383 ∧ nameGen delivery0.name = 1 :=
  s0.nameOf_parts _ _ (by decide) (by decide)

/-- The module with a directory entry at an index. -/
def directory (i : Nat) (e : DirEntry) (s : State) : State := s.writeBytes (s.dirAt i) e.bytes

theorem directory_entry (i : Nat) (e : DirEntry) (s : State)
    (h : leVal ((e.bytes.drop 0).take 1) % 8 = e.st ∧ leVal ((e.bytes.drop 1).take 1) % 64 = e.gen) :
    ((directory i e s).dirEntry i).st = e.st ∧ ((directory i e s).dirEntry i).gen = e.gen := by
  have r (off n : Nat) (ho : off + n ≤ 16) := s.readLe_writeBytes (s.dirAt i) e.bytes off n (by
    have : e.bytes.length = 16 := by simp [DirEntry.bytes, leBytes]
    omega)
  have r0 := r 0 1 (by decide)
  have r1 := r 1 1 (by decide)
  rw [Nat.add_zero] at r0
  have hd : (s.writeBytes (s.dirAt i) e.bytes).dirAt i = s.dirAt i := by simp only [State.dirAt, State.writeBytes_module]
  simp only [State.dirEntry, directory, hd]
  rw [r0, r1]
  exact h

/-- A first store of its stream; entries LIVE, PARKED and MOVING of its generation, and one that is FREE; a delivery at its target; a
refused packet. -/
theorem wit_NamedStoreDelivery :
    (let s : State := { s0 with stns := [delivery0] }
     s.stns[0]? = some delivery0 ∧ delivery0.squad = 1 ∧ delivery0.mine = true ∧ delivery0.at_ = .sent ∧ delivery0.rel = none ∧
     delivery0.flag = none) ∧
    nameDev delivery0.name = s0.own ∧ nameIndex delivery0.name = 16383 ∧
    (∀ st ∈ [1, 2, 3, 0], ((directory 16383 { st := st, gen := 1 } s0).dirEntry 16383).st = st ∧
      ((directory 16383 { st := st, gen := 1 } s0).dirEntry 16383).gen = nameGen delivery0.name) ∧
    (tabGet [] s0.moves 16383).length < 64 ∧ (delivery0.vals.map (·.1)).Nodup ∧ (∀ x ∈ delivery0.vals, x.1 < 32) ∧
    (∃ name : Word, nameDev name ≠ s0.own) ∧
    (let s : State := { s0 with squads := [(1, { sq0 with sname := s0.nameOf 16383 1 })], stns := [{ delivery0 with at_ := .forwarded 0 0 0 }] }
     s.squads.find? (fun x => x.2.place == .resident 0 0 0 && x.2.sname == delivery0.name) = some (1, { sq0 with sname := s0.nameOf 16383 1 })) ∧
    (s0.link 15).st ≠ .up := by
  refine ⟨by simp [delivery0], delivery0_name.1, delivery0_name.2.1, ?_, by decide, by decide, by decide, ?_, ?_, by decide⟩
  · intro st hst
    rw [show nameGen delivery0.name = 1 from delivery0_name.2.2]
    refine directory_entry 16383 { st := st, gen := 1 } s0 ?_
    simp only [List.mem_cons, List.not_mem_nil, or_false] at hst
    rcases hst with rfl | rfl | rfl | rfl <;> decide
  · exact ⟨0x100000, by decide⟩
  · simp [delivery0, sq0, placedSquad]

/-- A generation that is complete, and one that is not; a squad whose threads have exited; a token on its way; a launch that is over. -/
theorem wit_Retirement :
    (let b : Block := { launch := 1, core := some 0, barriers := [(15, { arrivals := [1] })] }
     let s : State := { s0 with blocks := [(blockKey 1 0, b)] }
     tabFind s.blocks (blockKey 1 0) = some b ∧ (tabGet ({} : Barrier) b.barriers 15).arrivals = [1] ∧
     (tabGet ({} : Barrier) b.barriers 15).arrivals.length = s.barrierCount (tabGet {} b.barriers 15) (blockKey 1 0) ∧ s.loads = [] ∧
     s.figLoads = [] ∧ (s.core 0).held = [] ∧
     1 ≠ s.barrierCount { barc := true, count := 2, arrivals := [1] } (blockKey 1 0)) ∧
    (let sq : Squad := { sq0 with exiting := true, nextWait := some (.lnext 0 (some 1)) }
     sq.exiting = true ∧ sq.ocLd = 0 ∧ sq.ocSt = 0 ∧ sq.ocCp = 0 ∧ sq.ocTl = 0 ∧ s0.combining = [] ∧
     sq.nextWait = some (.lnext 0 (some 1))) ∧
    (s0.squadOfLid 1 0 = some (1, sq0) ∧ sq0.isResident = true ∧
     ({ s0 with squads := [(1, { sq0 with place := .retired })] } : State).squadOfLid 1 0 = some (1, { sq0 with place := .retired })) ∧
    (let x : Launch := { region := gPages, placed := 1, signal := 0x6000, value := 1 }
     x.placed = x.clusters ∧ x.graph = none ∧ x.signal ≠ 0 ∧
     (match ({ s0 with hbm := pages } : State).devPlace x.region true x.signal with
      | some (p, _) => p.host == false
      | none => false) = true) := by decide

/-- A store of a squad that is still on its way keeps a release waiting. -/
theorem wit_not_released :
    ¬ (small sq0 1 { path := [{ op := 0, squad := 1, thread := 0, kind := .grab, size := 16, va := 0, pa := 0 }] } placedRegion).releasedAt 1 0 2 1 :=
  fun h => absurd (h.path (by decide) _ List.mem_cons_self) (by decide)

/-- A unit of one block, running with room in its save area, asked, saving, saved with room on a core, and restoring. -/
def unitAt (ph : Phase) (sq : Squad) : State :=
  { small sq 1 {} { placedRegion with saveBase := 0x100000, saveSize := 0x100000, coreMask := 1 } with
    lanes := []
    blocks := [(blockKey 1 0, { launch := 1, core := some 0, phase := ph, records := [1] })] }

theorem wit_Preemption :
    (let s := unitAt .running { sq0 with barRole := none }
     s.unitOf 1 0 = [blockKey 1 0] ∧ (s.unitBlocks (s.unitOf 1 0)).length = 1 ∧ s.unitSquads (s.unitOf 1 0) = [(1, { sq0 with barRole := none })] ∧
     (s.takeRecords (s.unitBlocks (s.unitOf 1 0))).isSome = true ∧ s.squadIdle 1 { sq0 with barRole := none } = true) ∧
    (let sq : Squad := { sq0 with barRole := none, place := .saved }
     let s := unitAt .saved sq
     ({ region := placedRegion } : Launch).preempted = false ∧
     (match s.fit { region := { placedRegion with coreMask := 1 }, placed := 1 } sq.cluster [(1, 0)] with
      | some (_, cs) => cs == [0]
      | none => false) = true ∧ (s.freeSlots 0).head? = some (0, 0)) ∧
    ({ sq0 with saveAt := 0x108000 } : Squad).saveAt ≠ 0 ∧ sq0.savedExt = none ∧ sq0.saveAt = 0 ∧ sq0.sname = 0 := by decide

/-- The bytes from an address up, listed whether they are zero or not. -/
def cells (a : Nat) (bs : List Byte) : List Host.Cell := bs.zipIdx.map (fun x => (a + x.2, x.1))

/-- A complete root region control block. -/
def rootBlock : List Byte :=
  leBytes 8 0 ++ leBytes 8 0x1000 ++ leBytes 16 1 ++ leBytes 8 0x1000 ++ leBytes 8 0x100000 ++ leBytes 72 0x100000 ++ leBytes 8 0x7000 ++
  leBytes 128 0

/-- Page tables, the control block at 0x4000, a ring at 0x5000 that holds one packet, a word at 0x6000. -/
def queueLow (p : List Byte) : List Host.Cell :=
  cells 0x1000 (leBytes 8 0x2001) ++ cells 0x2000 (leBytes 8 0x3001) ++ cells 0x3000 (leBytes 8 0xF03) ++ cells 0x5000 p ++
  cells 0x4000 rootBlock ++ cells 0x6000 (leBytes 8 0)

/-- Queue 65,535, enabled, its ring of one packet at 0x5000, its region's control block at 0x4000, one packet written; bound. -/
def queueDescriptor : List Byte := leBytes 8 0x5000 ++ [0, 0, 1, 0] ++ leBytes 4 0 ++ leBytes 4 1 ++ leBytes 4 0 ++ leBytes 8 0x4000 ++ leBytes 32 0
def bound : Slot := { st := .run, queue := 65535 }
def queueing (p : List Byte) : State :=
  { s0 with
    squads := []
    launches := []
    blocks := []
    lanes := []
    slots := [(63, bound)]
    hbm := queueLow p ++ cells (64 * 65535) queueDescriptor }

/-- A LAUNCH of one squad; a PREFETCH of one byte that is mapped; a SIGNAL and a WAITSIG of the word at 0x6000; an unknown type. -/
def launchImage : List Byte := leBytes 12 1 ++ leBytes 4 1 ++ leBytes 4 1 ++ leBytes 4 1 ++ [1, 1, 1, 1] ++ leBytes 4 0 ++ leBytes 32 0x4000
def prefetchImage : List Byte := leBytes 8 2 ++ leBytes 8 0x101 ++ leBytes 8 0x6000 ++ leBytes 40 1
def signalImage : List Byte := leBytes 8 3 ++ leBytes 8 0x6000 ++ leBytes 48 1
def waitImage (v : Nat) : List Byte := leBytes 8 4 ++ leBytes 8 0x6000 ++ leBytes 48 v

/-- Each packet stands at the head of its queue, whose slot may begin it. -/
theorem wit_queue_heads :
    ∀ p ∈ [launchImage, prefetchImage, signalImage, waitImage 0, waitImage 1, leBytes 64 6, leBytes 64 5],
      ∃ g, (queueing p).queueRegion 65535 = some g ∧ (queueing p).mayBegin bound = true ∧ (queueing p).calm ∧
        (queueing p).devBytes g (((queueing p).qdesc 65535).ring + 64 * (bound.next % 2 ^ ((queueing p).qdesc 65535).logN)) 64 = some p := by
  intro p hp
  have got : ∀ p ∈ [launchImage, prefetchImage, signalImage, waitImage 0, waitImage 1, leBytes 64 6, leBytes 64 5],
      ((queueing p).queueRegion 65535).any (fun g => (queueing p).mayBegin bound &&
        (queueing p).devBytes g (((queueing p).qdesc 65535).ring + 64 * (bound.next % 2 ^ ((queueing p).qdesc 65535).logN)) 64 == some p) = true := by
    decide +kernel
  obtain ⟨g, hg, h⟩ := (Option.any_eq_true ..).1 (got p hp)
  rw [Bool.and_eq_true, beq_iff_eq] at h
  exact ⟨g, hg, h.1, ⟨rfl, rfl, rfl⟩, h.2⟩

/-- Queue 65,535 alone is enabled, with a packet to take; the slots are as given. -/
def oneQueue (slots : Tab Slot) : State := { s0 with launches := [], slots := slots, schedClk := 5, hbm := cells (64 * 65535) queueDescriptor }

/-- 64 bound slots; the first has been bound longest and its slice is over. -/
def fullSlots : Tab Slot := (List.range 64).map (fun i => (i, { st := .run, queue := 7, boundAt := if i = 0 then 1 else 2 }))

/-- As `oneQueue`, beside queue 7, which is enabled and has a packet, and is bound to every slot. -/
def twoQueues : State := { oneQueue fullSlots with hbm := cells (64 * 7) queueDescriptor ++ cells (64 * 65535) queueDescriptor }

theorem wit_QueueScheduling :
    ((oneQueue []).qdesc 65535).owner = 0 ∧ (1 + 2 ^ 32 - ((oneQueue []).qdesc 65535).rd) % 2 ^ 32 ≤ 2 ^ ((oneQueue []).qdesc 65535).logN ∧
    2 ^ ((oneQueue []).qdesc 65535).logN < (2 + 2 ^ 32 - ((oneQueue []).qdesc 65535).rd) % 2 ^ 32 ∧
    ((65535 + 2 ^ 32 : Nat) % 65536 = 65535 ∧ (65535 + 2 ^ 32) / 65536 % 65536 = 0) ∧
    (oneQueue []).candidates = [65535] ∧ (oneQueue []).slots = [] ∧
    twoQueues.candidates = [65535] ∧ (∀ e ∈ twoQueues.slots, e.2.st = .run → twoQueues.runnable e.2.queue = true) ∧
    twoQueues.queuePriority 7 = twoQueues.queuePriority 65535 ∧
    (∀ j : Fin 64, (tabFind fullSlots j).any (fun y => y.st == .run) = true) ∧
    (∃ w ∈ fullSlots, w.2.st = .run ∧ ∀ e ∈ fullSlots, e.2.st = .run → e = w ∨ (e.2.queue = w.2.queue ∧
      ((5 : Word) - BitVec.ofNat 32 e.2.boundAt).toNat < ((5 : Word) - BitVec.ofNat 32 w.2.boundAt).toNat)) ∧
    tabFind fullSlots 0 = some { st := .run, queue := 7, boundAt := 1 } ∧ { s0 with slots := fullSlots }.candidates = [] ∧
    (∃ e ∈ (oneQueue fullSlots).slots, e.2.st = .run ∧ (oneQueue fullSlots).runnable e.2.queue = false) := by
  refine ⟨by decide +kernel, by decide +kernel, by decide +kernel, by decide, by decide +kernel, rfl, by decide +kernel, by decide +kernel,
    by decide +kernel, by decide, ⟨(0, { st := .run, queue := 7, boundAt := 1 }), by decide, rfl, by decide⟩, rfl, by decide +kernel, ?_⟩
  exact ⟨(0, { st := .run, queue := 7, boundAt := 1 }), by decide, rfl, by decide +kernel⟩

/-- The packets at the head of their queues, and what each asks: a LAUNCH in its region and budgets, a PREFETCH of a mapped byte, a
SIGNAL and a WAITSIG that find their word, a WAITSIG that waits, an unknown type and a graph without nodes. -/
theorem wit_QueuePackets_launch :
    pkType launchImage = 1 ∧ (((queueing launchImage).resolve 0x4000 0).any (fun g =>
      ((queueing launchImage).resolve (Machine.fld launchImage 0x20 8) g.fn).any (fun r => r.within g.rcb && !(imageRange launchImage (some r.codeSize) true)
        && !(imageLaunch launchImage 65535 r).tooLarge))) = true ∧
    pkReserved launchImage = false ∧ zeroFrom launchImage 0x38 64 = true ∧ (queueing launchImage).launches.length < 256 := by
  refine ⟨by decide, by decide +kernel, by decide, by decide, by decide⟩

theorem wit_QueuePackets_word (v : Nat) (h : v = 0 ∨ v = 1) :
    pkType (waitImage v) = 4 ∧ ((queueing (waitImage v)).queueRun 65535).passed = false ∧ checkSignal (waitImage v) 2 false = none ∧
    (((queueing (waitImage v)).resolve 0x4000 0).any (fun g => ((queueing (waitImage v)).devPlace g false (Machine.fld (waitImage v) 8 8)).any (fun w =>
      !w.1.host && w.2 == 0x6000 && (queueing (waitImage v)).readLe 0x6000 8 == 0))) = true ∧
    Machine.fld (waitImage v) 0x10 8 = v ∧ Machine.fld (waitImage v) 0x18 1 = 0 := by
  rcases h with rfl | rfl <;> exact ⟨by decide, by decide, by decide, by decide +kernel, by decide, by decide⟩

theorem wit_QueuePackets :
    (∀ p ∈ [launchImage, prefetchImage, signalImage, waitImage 0, waitImage 1, leBytes 64 6, leBytes 64 5], tabFind (queueing p).slots 63 = some bound) ∧
    (pkType prefetchImage = 2 ∧ checkPrefetch prefetchImage = none ∧ Machine.fld prefetchImage 9 1 = 1 ∧ Machine.fld prefetchImage 8 1 = 1 ∧
      Machine.fld prefetchImage 0x10 8 / 4096 = 6 ∧ Machine.fld prefetchImage 0x18 8 = 1 ∧
      (((queueing prefetchImage).resolve 0x4000 0).any (fun g => (queueing prefetchImage).walk g.root (4096 * 6) != .absent)) = true) ∧
    (pkType signalImage = 3 ∧ (queueing signalImage).launches = [] ∧ checkSignal signalImage 1 true = none ∧
      (((queueing signalImage).resolve 0x4000 0).any (fun g => ((queueing signalImage).devPlace g true (Machine.fld signalImage 8 8)).any (fun w =>
        !w.1.host && w.2 == 0x6000))) = true ∧ 0x6000 + 8 ≤ (queueing signalImage).queueDesc 65535) ∧
    5 < pkType (leBytes 64 6) ∧ pkType (leBytes 64 5) = 5 := by
  refine ⟨fun _ _ => rfl, ⟨by decide, by decide, by decide, by decide, by decide, by decide, by decide +kernel⟩,
    ⟨by decide, rfl, by decide, by decide +kernel, by decide +kernel⟩, by decide, by decide⟩

/-- A queue waits on the word; a graph's node image stands at 0x5000. -/
theorem wit_QueueProgress :
    (queueing (waitImage 0)).queueRegion 65535 = (queueing (waitImage 0)).resolve 0x4000 0 ∧
    ({ queueing (waitImage 0) with queues := [(65535, { waiting := some (0x6000, 0), due := true })] }.queueRun 65535).due = true ∧
    (((queueing launchImage).resolve 0x4000 0).any (fun g => match (queueing launchImage).checkImage 65535 g launchImage false with
      | .ok _ => true
      | .error _ => false)) = true := by
  refine ⟨by decide +kernel, by decide, by decide +kernel⟩

/-- A launch of one squad that may be placed, and fits on core 0. -/
def toPlace : State :=
  { s0 with
    squads := []
    blocks := []
    lanes := []
    launches := [(1, { region := { placedRegion with coreMask := 1 }, scratch := 1024 })] }

theorem wit_Placement :
    (tabFind toPlace.launches 1).any (fun x => x.placed == 0 && x.clusters == 1 && toPlace.mayPlace 1 x && toPlace.running &&
      toPlace.fit x 0 [(1, 1024)] == some (0, [0]) && x.cx == 1 && x.cy == 1 && x.cz == 1) = true := by decide +kernel

/-- What host accesses ask: a module past bring-up, a region that resolves, a bound queue and none, an element, a store and a copy's page in
the memory of the host. -/
theorem wit_HostLinkRegisters :
    s0.module.booted = true ∧ State.reset.module.booted = false ∧ (65 : Nat) > 64 ∧ s0.resolve 0 0 = none ∧ ((queueing []).resolve 0x4000 0).isSome = true ∧
    (∃ e ∈ (queueing []).slots, e.2.st = .run ∧ e.2.queue = 65535) ∧
    (let o : LoadOp := { squad := 1, core := 0, dest := 31, size := 8, kind := .nf, elems := [{ thread := 31, va := 0, host := true }] }
     o.elems.find? (fun z => z.thread == 31) = some { thread := 31, va := 0, host := true } ∧ o.kind.global = true ∧
     (s0.core 0).held = []) ∧
    (let e : PathEntry := { op := 0, squad := 1, thread := 31, kind := .store [0], size := 1, va := 0, pa := 0, host := true }
     let s := small sq0 1 { path := [e] } placedRegion
     (s.core 0).path[0]? = some e ∧ e.host = true ∧ e.isStore = true ∧ tabFind s.squads e.squad = some sq0 ∧ e.region.faultQueue = 0) := by
  refine ⟨by decide, by decide, by decide, by decide +kernel, by decide +kernel, ⟨(63, bound), by decide, rfl, rfl⟩, by decide, by decide⟩

/-- The mailbox commands at the ends of their arguments; each power state and its temperatures. -/
theorem wit_ModuleControl :
    (∀ c ∈ [(1 : Byte), 2, 3, 4], ∃ m : ModuleS, m.status = 1 ∧ m.command = c) ∧
    (∀ b ∈ [(0 : Byte), 3, 15, 16], (tabGet 0 ({ buffer := [(0, b)] } : ModuleS).buffer 0).toNat = b.toNat) ∧ (15 < 16 ∧ State.reset.launches = []) ∧
    (∃ m : ModuleS, m.power = .active ∧ (∃ e ∈ m.temps, 1050 ≤ e.2) ∧ ¬ ∃ e ∈ m.temps, 1150 ≤ e.2) ∧
    (∃ m : ModuleS, m.power = .throttled ∧ (¬ ∃ e ∈ m.temps, 1000 ≤ e.2) ∧ 48000 ≤ m.supply) ∧
    (∃ m : ModuleS, m.power = .active ∧ m.supply < 46000) ∧ (∀ e ∈ s0.launches, e.2.region.within e.2.region.domain = true) ∧
    ∀ image, Config.imageGood image = true ∨ Config.imageGood image = false := by
  refine ⟨?_, by decide, by decide, ⟨{ power := .active, temps := [(0, 1050)] }, rfl, by decide, by decide⟩,
    ⟨{ power := .throttled, temps := [(0, 999)] }, rfl, by decide, by decide⟩, ⟨{ power := .active, supply := 45999 }, rfl, by decide⟩,
    by decide, fun i => by cases Config.imageGood i <;> simp⟩
  intro c _
  exact ⟨{ status := 1, command := c }, rfl, rfl⟩

/-- A queue of 63 requests and one of 64; the choice of the lowest class, and of class 3 after 63 others; a pass that is over. -/
def request (c : Nat) (d : Word) (l : Nat) : ChanReq := { cls := c, budget := 1023, deadline := d, line := l, core := some 0 }

theorem wit_MemoryChannels :
    (List.replicate 63 (request 0 0 0)).length < 64 ∧ 64 ≤ (List.replicate 64 (request 0 0 0)).length ∧
    (let q := [request 3 9 1, request 0 7 2, request 0 8 3]
     let free (j : Nat) : Bool := (q[j]?).any (fun y => (q.take j).all (fun x => x.line != y.line))
     (∀ x ∈ q, x.cls < 4 ∧ (x.deadline - (0 : Word)).toNat < 2 ^ 31) ∧ free 1 = true ∧ free 0 = true ∧
     (∀ j < 3, free j = true → (q[j]?).all (fun y => decide (0 ≤ y.cls))) ∧
     ∀ j < 3, free j = true → (q[j]?).all (fun y => y.cls != 0 || decide (7 ≤ y.deadline.toNat)) = true) ∧
    State.reset.struck = [] ∧ (0 : Word).toNat * 2 ^ 20 ≤ (State.reset.channel 511).elapsed ∧
    (({ period := 1, passPeriod := 1 } : ChannelS).elapsed < (1 : Word).toNat * 2 ^ 20) := by decide

/-- The export window of address space 1 over the first 256 bytes of the page at 0x6000; a packet of this device for itself, alone. -/
def window0 : State :=
  { s0 with hbm := pages, nextId := 10, roots := [(1, 0x1000)], window := { asid := 1, enable := true, base := 0x6000, size := 256 } }
def atWindow (m : PodMsg) : State := { window0 with pod := [m] }

def podMsg (kind : PodKind) (off dst : Nat) : PodMsg := { id := 9, src := 0, dst := dst, off := off, kind := kind, sent := true }

theorem some_place (o : Option (Bool × Nat × Page)) (a : Nat) (h : o.any (fun w => w.1 == false && w.2.1 == a) = true) :
    ∃ p, o = some (false, a, p) := by
  cases o with
  | none => simp at h
  | some w =>
    obtain ⟨b, c, p⟩ := w
    simp only [Option.any_some, Bool.and_eq_true, beq_iff_eq] at h
    obtain ⟨rfl, rfl⟩ := h
    exact ⟨p, rfl⟩

/-- A write of the last byte of the window, a load of its last eight, and a line at its end, of this device for itself. -/
def ownWrite : PodMsg := podMsg (.write [(127, 1)]) 128 0
def ownLoad : PodMsg := podMsg (.load 5 31 8) 248 0
def ownLine : PodMsg := podMsg (.line 5 (leBytes 128 1)) 128 0

theorem wit_PodTraffic :
    (ownWrite.mine = true ∧ ownWrite.sent = true ∧ (atWindow ownWrite).pod[0]? = some ownWrite ∧ (atWindow ownWrite).calm) ∧
    (∃ p, (atWindow ownWrite).windowPlace window0.window podWrites (ownWrite.off + 127) = some (false, 0x60FF, p)) ∧
    (∀ i < 8, ∃ p, (atWindow ownLoad).windowPlace window0.window podReads (ownLoad.off + i) = some (false, 0x60F8 + i, p)) ∧
    (∀ i < 8, (atWindow ownLoad).isPoisoned (0x60F8 + i) = false) ∧
    (atWindow ownWrite).windowPlace window0.window podWrites 256 = none ∧ (atWindow ownLoad).windowPlace window0.window podReads 256 = none ∧
    window0.own = 0 ∧ (∃ dst : Nat, dst ≠ window0.own ∧ dst < 4096) ∧ ownWrite.id < (atWindow ownWrite).nextId ∧
    ({ ownWrite with mine := false, seq := some 0, window := some window0.window } : PodMsg).seq = some (tabGet 0 s0.rxSeq (pairOfDevices 0 0)) := by
  have hl : ∀ i : Fin 8, ((atWindow ownLoad).windowPlace window0.window podReads (248 + i.val)).any (fun w => w.1 == false && w.2.1 == 0x60F8 + i.val) = true := by
    decide +kernel
  exact ⟨⟨rfl, rfl, rfl, rfl, rfl, rfl⟩, some_place _ _ (by decide +kernel), fun i h => some_place _ _ (hl ⟨i, h⟩), fun i _ => rfl,
    by decide +kernel, by decide +kernel, rfl, ⟨1, by decide⟩, by decide, rfl⟩

/-- A link in training and one that is up; a flit refused once and one refused twice; a key at its last invocation, with and without another;
an armed marker; a flit without a valid key. What a payload carries is free. -/
def flit0 : StoredFlit := { seq := 65535, bytes := [1], packets := [9] }
def key0 : KeySlot := { valid := true, last := 5, count := 5 }

theorem wit_LinkTraffic :
    (∃ k : LinkS, k.st = .training) ∧
    (∃ k : LinkS, k.st = .up ∧ flit0 ∈ k.replay ∧ (∀ g ∈ k.replay, g.seq = flit0.seq → g = flit0) ∧ k.replay.Nodup ∧ flit0.naks < 2) ∧
    (∃ k : LinkS, k.st = .up ∧ { flit0 with naks := 2 } ∈ k.replay ∧ k.replay.Nodup ∧ 2 ≤ ({ flit0 with naks := 2 } : StoredFlit).naks) ∧
    (∃ k : LinkS, k.armed = [] ∧ k.tx.valid = true ∧ k.tx.count ≠ k.tx.last ∧ k.replay.length < 128) ∧
    (let m : PodMsg := { podMsg (.write []) 0 0 with sent := false }
     [m].find? (fun x => x.mine && !x.sent) = some m ∧ ∀ op leaf port data, m.kind ≠ .cast op leaf port data) ∧
    ({ key0 with valid := false } : KeySlot).valid = false ∧
    (∃ k : LinkS, k.armed = [1, 2] ∧ k.replay.length < 128 ∧ ({ sq0 with nextWait := some (.marker 15) } : Squad).nextWait = some (.marker 15)) ∧
    (∃ k : LinkS, k.tx.valid = true ∧ k.tx.count = k.tx.last ∧ k.txIdle.valid = true ∧ k.replay.length < 128) ∧
    (∃ k : LinkS, k.tx.valid = true ∧ k.tx.count = k.tx.last ∧ k.txIdle.valid = false ∧ k.stalled = false) ∧
    (flitField [0x10] 0 1 % 16 = 0 ∧ flitField [0x01, 0, 0xFF, 0xFF] 0 1 % 16 = 1 ∧ (flitField [0x12] 0 1).testBit 4 = true) := by
  refine ⟨⟨{ st := .training }, rfl⟩, ⟨{ st := .up, replay := [flit0] }, by decide⟩, ⟨{ st := .up, replay := [{ flit0 with naks := 2 }] }, by decide⟩,
    ⟨{ tx0 := { key0 with count := 4 } }, by decide⟩, ⟨by decide, by simp [podMsg]⟩, rfl, ⟨{ armed := [1, 2] }, rfl, by decide, rfl⟩,
    ⟨{ tx0 := key0, tx1 := key0 }, by decide⟩, ⟨{ tx0 := key0 }, by decide⟩, by decide⟩

/-- A descriptor of one element for every device. -/
def redxImage : List Byte := leBytes 8 0x6000 ++ leBytes 8 0x7000 ++ leBytes 4 4 ++ leBytes 4 0 ++ leBytes 8 (2 ^ 64 - 1) ++ leBytes 8 (2 ^ 64 - 1) ++ leBytes 24 0

/-- A branch at each switch; a line for another device, for this one inside its window, and outside it; a descriptor that REDX takes, and a
row that is read. -/
theorem wit_MulticastAndReduction :
    (∀ g ∈ [BranchTo.spine 1, .leaf 63, .device 4095], ∃ b : Branch, ({ s0 with branches := [b] } : State).branches[0]? = some b ∧ b.goes = g) ∧
    (let c : CopyOp := { copy0 .mcast [] with id := 5, pending := 1 }
     ((small sq0 1 { copies := [c] } placedRegion).core 0).copies.find? (fun x => x.id == 5) = some c) ∧
    ((∀ i < 128, ∃ p, (atWindow ownLine).windowPlace window0.window podWrites (ownLine.off + i) = some (false, 0x6080 + i, p)) ∧
      (∃ i < 128, (atWindow ownLine).windowPlace window0.window podWrites (129 + i) = none)) ∧
    ((∀ i < 64, (i = 0x16 ∨ i = 0x17 ∨ 0x28 ≤ i) → redxImage.getD i 0 = 0) ∧ redxOk 0 0 redxImage = true) ∧
    (let r : RedxOp := { id := 9, squad := 1, core := 0, flag := 11, op := 3, image := redxImage, region := gPages }
     let s : State := { small sq0 1 {} gPages with hbm := pages, redx := [r] }
     s.redx[0]? = some r ∧ (match s.rowRead 0 r.asCopy ((List.range 4).map (fun i => (Machine.fld r.image 0 8 + i) % 2 ^ 64)) with
       | (_, .ok v) => v.length == 4
       | (_, .error _) => false) = true ∧
     (match (s.rowWrite 0 r.asCopy ((List.range 4).map (fun i => ((Machine.fld r.image 8 8 + i) % 2 ^ 64, (0 : Byte))))).2 with
       | .ok _ => true
       | .error _ => false) = true ∧
     (match ((small sq0 1 (mapped 3) gPages).rowRead 0 r.asCopy [0]).2 with
       | .error (.error _ _ _) => true
       | _ => false) = true) := by
  have hl : ∀ i : Fin 128, ((atWindow ownLine).windowPlace window0.window podWrites (128 + i.val)).any (fun w => w.1 == false && w.2.1 == 0x6080 + i.val) = true := by
    decide +kernel
  refine ⟨?_, by decide, ⟨fun i h => some_place _ _ (hl ⟨i, h⟩), 127, by decide, by decide +kernel⟩, ⟨by decide, by decide⟩, by decide +kernel⟩
  · intro g _
    exact ⟨{ op := 0, core := 0, off := 0, data := [], port := 0, goes := g }, rfl, rfl⟩

/-- A FIG word and its literal: the lane stands at the word, and at the literal. -/
def figClause : Clause := { addr := 0, hdr := 0x2C000000, words := [0xBCAB6B, 0x67A] }

theorem wit_literal :
    figClause.instrs.toOption = some [(1, Instr.fig 11 1 37 22 1 43 58 9 1)] ∧
    (let e : Exec := { ex 1 with clause := figClause, idx := 2 }
     let s : State := { s0 with lanes := [(0, { cur := some e })] }
     s.agenda = [] ∧ (s.lane s.focus).cur = some e ∧ e.hold = none ∧ 1 ≤ e.idx ∧ e.idx ≤ e.clause.words.length ∧ s.current ≠ none) ∧
    twoWords.agenda = [] ∧ (∃ e l, (twoWords.lane twoWords.focus).cur = some e ∧ e.clause.instrs.toOption = some l ∧
      ¬ ∃ x ∈ l, x.2.isLong = true ∧ e.idx = x.1 + 1) := by
  refine ⟨by decide, by decide, rfl, ({ squad := 1, clause := placedClause 1 [0x02385187, 0x02385187], idx := 1, mask := BitVec.allOnes 32 } : Exec),
    [(1, .add 2 3 1 0 5 6 7), (2, .add 2 3 1 0 5 6 7)], by decide, by decide, by decide⟩

/-- The threads that EXIT retires, and the others, which are live or are not; a trap whose threads all are gone. -/
theorem wit_exits :
    (∃ th < 32, sq0.enabledT (ex 1) 0 0 th = false ∧ sq0.readVpc th ≠ 0xFFFFFFFF) ∧
    (∀ th < 32, sq0.enabledT (ex (BitVec.allOnes 32)) 0 0 th = false → sq0.readVpc th = 0xFFFFFFFF) ∧
    (s0.current = some (1, sq0, ex (BitVec.allOnes 32)) ∧ sq0.sname = 0) ∧
    (∀ th < 32, tabGet 0 ({ placedSquad true with xvpc := (List.range 32).map (fun i => (i, exited)) } : Squad).xvpc th = 0xFFFFFFFF) ∧
    ∃ th < 32, tabGet 0 (placedSquad true).xvpc th ≠ 0xFFFFFFFF := by decide

/-- A barrier word that met another at its issue; a BARC in progress whose count is not reached. -/
theorem wit_barrier_clash :
    (let e : Exec := { ex 1 with clash := true }
     ({ s0 with lanes := [(0, { cur := some e })] } : State).current = some (1, sq0, e) ∧ e.clash = true) ∧
    (let b : Barrier := { count := 2, barc := true, arrivals := [2] }
     b.arrivals.length < b.count ∧ b.count ≠ 16) := by decide

/-- Floating codes and values; an infinity, a NaN, an integer, in one code and another. -/
theorem wit_FloatConversion :
    (0, Fmt.f32) ∈ floatCodes ∧ (5, Fmt.e2m1) ∈ floatCodes ∧ Fmt.f16 ≠ .e8m0 ∧ Fmt.f32.units 0x3F800000 = some (2 ^ 149) ∧
    (Fmt.f16 ∈ [Fmt.f32, .f16, .bf16, .e5m2] ∧ 0xFC00 % 2 ^ 15 = Fmt.f16.beyond) ∧ Fmt.f16.units 0x7C01 = none ∧ 0x7C01 % 2 ^ 15 ≠ Fmt.f16.beyond ∧
    (7 ≤ (7 : BitVec 4).toNat ∧ sx (cvtWidth 7) 8 = -8) ∧ (6 : BitVec 4).toNat = 6 ∧ 0x3F800000 < 2 ^ cvtWidth (0 : BitVec 4).toNat ∧
    (7 ≤ (15 : BitVec 4).toNat ∧ (6 : BitVec 4).toNat < 7) ∧
    ∃ t u, Between Fmt.e8m0.grid (3 * 2 ^ 127) (2 ^ 1) t u := by
  refine ⟨by decide, by decide, by decide, by decide, by decide, by decide, by decide, by decide, rfl, by decide, by decide, 2 ^ 127, 2 ^ 128,
    ⟨⟨1, 127, by decide, by decide⟩, by decide⟩, ⟨⟨1, 128, by decide, by decide⟩, by decide⟩, ?_⟩
  rintro n ⟨m, k, hm, rfl⟩
  rcases (show m = 0 ∨ m = 1 by have : (2 : Nat) ^ (Fmt.e8m0.man + 1) = 2 := by decide
                                omega) with rfl | rfl
  · exact .inl (by simp)
  · rw [Nat.one_mul]
    rcases Nat.lt_or_ge k 128 with h | h
    · exact .inl (Nat.pow_le_pow_right (by decide) (by omega))
    · exact .inr (Nat.pow_le_pow_right (by decide) h)

theorem wit_SpecialValues :
    Fmt.bf16 ∈ [Fmt.f32, .f16, .bf16] ∧ (0xFC00 < 2 ^ Fmt.f16.width ∧ 0xFC00 % 2 ^ (Fmt.f16.width - 1) = Fmt.f16.beyond) ∧
    0x8000 % 2 ^ (Fmt.f16.width - 1) = 0 ∧ Fmt.f16.units 0x4400 = some (2 ^ 26) ∧ Fmt.f16.places = 24 ∧ 2 ^ 26 ∣ 2 ^ (2 * 24) ∧
    (2 ^ 23 * 2 ^ 23 * (2 ^ 26) = 2 ^ (3 * 24)) ∧ (2 ^ 25 * 2 ^ 25 = 2 ^ 26 * 2 ^ 24) ∧ ((2 : Int) ^ 26 = 4 * 2 ^ 24) ∧
    (Fmt.f16.units 0x3800 = some (2 ^ 23) ∧ (2 : Int) * 2 ^ 23 = (2 * 0 + 1) * 2 ^ 24) ∧
    (Fmt.f16.units 0xC900 = some (-10 * 2 ^ 24) ∧ 10 * 2 ^ 24 ≤ (-10 * 2 ^ 24 : Int).natAbs) := by decide

/-- One access on its way to its bank: alone, behind another of its squad, refused, poisoned, of each kind. -/
def banked (k : BankKind) (before : List BankOp) (c : CoreS) : State :=
  { small sq0 1 { c with bank := before ++ [{ op := 5, squad := 1, thread := 31, at_ := 0xFF8, size := 8, kind := k }] } placedRegion with
    agenda := [.bank 0 before.length] }

theorem wit_ScratchBanks :
    (∀ k ∈ [BankKind.read, .write (leBytes 8 1), .atomic 0 1 1 0, .atomic 9 1 1 2],
      let s := banked k [] {}
      ∃ b, s.agenda = .bank 0 0 :: [] ∧ (s.core 0).bank[0]? = some b ∧ b.kind = k ∧ 0 < b.size ∧
        (s.core 0).banksBusy.getLsbD (b.at_ / 8 % 64) = false ∧ (s.core 0).badScratch.all (·.2) = true ∧
        (∀ x ∈ (s.core 0).bank.take 0, x.squad ≠ b.squad) ∧ ∀ i < b.size, tabGet false (s.core 0).badScratch (b.at_ + i) ≠ true) ∧
    (let b : BankOp := { op := 4, squad := 1, thread := 0, at_ := 0, size := 4, kind := .read }
     ∃ x ∈ ((banked .read [b] {}).core 0).bank.take 1, x.squad = 1) ∧
    ((banked .read [] { banksBusy := BitVec.allOnes 64 }).core 0).banksBusy.getLsbD (0xFF8 / 8 % 64) = true ∧
    (let s := banked .read [] { badScratch := [(0xFFF, true)] }
     (s.core 0).badScratch.all (·.2) = true ∧ ∃ i < 8, tabGet false (s.core 0).badScratch (0xFF8 + i) = true) := by
  refine ⟨?_, by decide, by decide, by decide⟩
  intro k _
  exact ⟨_, rfl, rfl, rfl, by show 0 < 8; decide, BitVec.getLsbD_zero, rfl, by simp, fun i _ => Bool.false_ne_true⟩

/-- A word whose element issues: a store alone, one that waits behind a load of its squad, one that covers its line; a full memory pipe. -/
def issuing (x : PathEntry) (c : CoreS) : State :=
  { small sq0 1 { c with leaving := [x] } placedRegion with lanes := [(0, { cur := some { ex 1 with hold := some (.issue x.op) } })] }

def storeOf (whole : Bool) : PathEntry :=
  { op := 6, squad := 1, thread := 31, kind := .store (List.replicate 8 0), size := 8, va := 0x78, pa := 0x40078, whole := whole }

theorem wit_ElementIssue :
    (∀ w ∈ [false, true], let s := issuing (storeOf w) {}
      s.agenda = [] ∧ (∃ e, (s.lane s.focus).cur = some e ∧ e.hold = some (.issue 6)) ∧
      (s.core 0).leaving.find? (fun y => y.op == 6) = some (storeOf w) ∧ s.outstanding 0 < 4096 ∧ (storeOf w).isStore = true ∧ (storeOf w).gran = 0 ∧
      ∀ y ∈ (s.core 0).leaving.filter (fun y => y.op == 6 && y.whole && y.onLine false 0x40078), y.squad = 1 ∧ y.gran = 0 ∧ y.size ≤ 128 ∧ y.isStore = true) ∧
    (∀ w ∈ [false, true], ¬ (issuing (storeOf w) {}).waitsToEnter 0 (storeOf w)) ∧
    (∀ w ∈ [false, true], (issuing (storeOf w) { held := [{ storeOf w with op := 5 }] }).waitsToEnter 0 (storeOf w)) ∧
    4096 ≤ (issuing (storeOf false) { path := List.replicate 4096 (storeOf false) }).outstanding 0 := by
  refine ⟨by decide, ?_, ?_, by simp [State.outstanding, issuing, small, State.core, tabGet, tabFind]⟩
  · rintro w _ (⟨h, hh, _⟩ | ⟨o, ho, _⟩)
    · exact absurd hh List.not_mem_nil
    · exact absurd ho List.not_mem_nil
  · intro w hw
    refine .inl ⟨{ storeOf w with op := 5 }, List.mem_cons_self, rfl, .inr ⟨rfl, rfl⟩⟩

/-- An accumulator cell that is poisoned, among elements of which it is the first. -/
theorem wit_poisoned_cell :
    let s := one 0x7FFFFC { badAcc := [(0x1FFFFF, true)] }
    s.elementsM { sq0 with sc := [(1, 0x7FFFFC)] } (ex 1) 0 0 1 0 0 4 = [] ++ (0, 0x7FFFFC) :: [] ∧
    tabGet false (s.core 0).badAcc (0x7FFFFC / 4) = true ∧ sq0.poison = none := by decide

/-- A load whose element waits behind a held store, another load and an earlier element of its own; behind 4,096 requests; behind an atomic, so
that its home serves it; and with L1 left aside because it waited. -/
theorem wit_LoadPerformed :
    let l : Elem := { thread := 31, va := 0x78, pa := 0x40078 }
    let o := loadAt (.vec false) .waiting
    let a : PathEntry := { op := 4, squad := 2, thread := 0, kind := .addF32 1, size := 4, va := 0x78, pa := 0x40078 }
    let st (k : CoreS) (more : List (Nat × LoadOp)) : State := { small sq0 1 k placedRegion with loads := more ++ [(5, o)] }
    tabFind (st {} []).loads 5 = some o ∧ o.elems.find? (fun x => x.thread == 31) = some l ∧ l.st = .waiting ∧ o.global = true ∧
    (st {} []).pipeBefore 0 5 31 < 4096 ∧ (0 < o.size ∧ l.pa % 128 + o.size ≤ 128) ∧
    (∃ h ∈ ((st { held := [{ storeOf false with op := 3 }] } []).core 0).held, h.squad = o.squad ∧ h.op < 5 ∧ h.host = l.host ∧
      h.lo < l.pa + o.size ∧ l.pa < h.lo + h.len) ∧
    (∃ y ∈ (st {} [(4, o)]).loads, y.1 < 5 ∧ y.2.squad = o.squad ∧ y.2.global = true ∧ ∃ x ∈ y.2.elems, x.st = .waiting ∧ x.host = l.host ∧
      x.pa < l.pa + o.size ∧ l.pa < x.pa + y.2.size) ∧
    youngest ([a].filter (fun e => e.isStore || decide (e.op < 5))) false (0x40078 + 3) = some a ∧ a.isStore = false ∧
    ({ l with late := true } : Elem).late = true ∧ ({ o with kind := .nf } : LoadOp).kind = .nf := by decide

/-- A walk in flight that ends in a leaf, alone and stale; an invalidation whose walks and accesses are over. -/
theorem wit_walks_in_flight :
    (let w : Walk := { root := 0x1000, va := 0x40000 }
     let s : State := { s0 with hbm := pages, walks := [w] }
     s.walkInFlight 0 0 0x40000 = some w ∧ (s.walk w.root w.va).pageIs (fun _ => true) = true ∧ w.stale = false ∧
     ({ w with stale := true } : Walk).stale = true) ∧
    (∀ w ∈ s0.walks, w.asid ≠ 0 ∨ w.stale = false) ∧
    (let w : Walk := { root := 0x1000, va := 0x40000 }
     let s : State := { s0 with walks := [w] }
     (∀ w ∈ s.walks, w.asid ≠ 0 ∨ w.stale = false) ∧ ∀ c ∈ s.cores, ∀ e ∈ c.2.path ++ c.2.held ++ c.2.leaving, e.op < 1 → e.asid ≠ 0) := by
  decide

/-- All 64 filter entries in use: no page that waits has one, or the second has. A page record that a stage entry holds, with a squad that
waits for its page, one that waits for another too, and a copy. -/
theorem wit_full_filter :
    (let k : CoreS := { filter := List.replicate 63 { page := 8 } ++ [{ page := 9 }],
                        filterWait := [{ party := 2, page := 7, kinds := 1 }, { party := 4, page := 9, kinds := 1 }] }
     let w : FilterWait := { party := 2, page := 7, kinds := 1 }
     let v : FilterWait := { party := 4, page := 9, kinds := 1 }
     k.filterWait = [w] ++ v :: [] ∧ 64 ≤ k.filter.length ∧ (∀ y ∈ [w], ∀ x ∈ k.filter, ¬ (x.asid = y.asid ∧ x.fq = y.fq ∧ x.page = y.page)) ∧
     ∃ x ∈ k.filter, x.asid = v.asid ∧ x.fq = v.fq ∧ x.page = v.page) ∧
    (let k : CoreS := { filter := List.replicate 64 { page := 8 }, filterWait := [{ party := 2, page := 7, kinds := 1 }] }
     ∀ v ∈ k.filterWait, ∀ x ∈ k.filter, ¬ (x.asid = v.asid ∧ x.fq = v.fq ∧ x.page = v.page)) ∧
    (let e : StageEntry := { page := 7, waiters := [2], posted := true, rcb := 0x10000 }
     let f : FilterEntry := { page := 7, waiters := [3] }
     let c : CopyOp := { id := 1, squad := 1, kind := .cpin, flag := 0, image := [], base := 0, size := 4096, parked := true }
     let k : CoreS := { filter := [f], copies := [c] }
     e.record = none ∧ dieOfCore 0 = e.die ∧ f.asid = e.asid ∧ f.fq = e.fq ∧ f.page = e.page ∧ 2 * c.id + 1 ∈ f.waiters ∧ k.filterWait = [] ∧
     ({ sq0 with parked := some [7, 8] } : Squad).parked = some [7, 8]) := by decide

/-- A fault queue whose interrupt goes to its function's vector, unmasked and masked, or to the controller. -/
theorem wit_fault_interrupts :
    (s0.readLe (0x4000 + 0x0C) 4 / 65536 % 2 = 0 ∧ (8 : Nat) ∉ [11, 0x25, 0x26] ∧ s0.readLe (0x4000 + 0x0C) 4 % 65536 < vectorsOf 0) ∧
    (tabGet {} s0.msix 0).masked = true ∧ (tabGet {} ({ s0 with msix := [(0, { masked := false })] } : State).msix 0).masked = false ∧
    ({ s0 with hbm := [(0x400E, 1)] } : State).readLe (0x4000 + 0x0C) 4 / 65536 % 2 ≠ 0 := by decide

/-- A second pass of a loop: the words stand in the loop buffer, or were not fetched in the first. -/
theorem wit_loop_buffer :
    let sq : Squad := { sq0 with loop0 := { lc := 1, start := 0, len := 2, active := true, seq := 1, again := true },
                                 loopBuf := [(0, 0x12000000), (4, 0x02385187)] }
    let s := fetching 0x12000000 0x02385187 sq
    s.mayTake 1 sq = true ∧ sq.fetched = none ∧
    (∃ l ∈ sq.loops, l.2.active = true ∧ l.2.inside 0 = true ∧ l.2.again = true) ∧ tabFind sq.loopBuf 0 = some 0x12000000 ∧
    tabFind sq.loopBuf 4 = some 0x02385187 ∧ (s.codeWord 0 gPages true 0).toOption = some 0x12000000 ∧ s.combining = [] ∧
    gPages.handler < 2 ^ 32 - 1 := by decide

/-- An access of the squad that is on its way to a bank, which engine words wait for. -/
theorem wit_engine_words_wait :
    let s := banked .read [] {}
    (∃ z ∈ (s.core 0).bank, z.squad = 1) ∧ (∀ z ∈ (s0.core 0).bank, z.squad ≠ 1) ∧ s.current = some (1, sq0, ex 1) := by decide

/-- A copy from scratch behind an access of its core to a bank; a byte of its row that is poisoned; a row of accumulators. -/
theorem wit_copy_rows_wait :
    (let c : CopyOp := { copy0 .cpin (recordOf 31 0x11) with started := true }
     let b : BankOp := { op := 0, squad := 1, thread := 0, at_ := 0, size := 4, kind := .read }
     let s := small sq0 1 { copies := [c], bank := [b] } placedRegion
     (∃ z ∈ (s.core 0).bank, z.op < 1) ∧ ∃ x ∈ c.reads ++ c.writes, x.space = 0) ∧
    (let c : CopyOp := { copy0 .cpin (recordOf 31 0x11) with started := true }
     let s := small sq0 1 { copies := [c], badScratch := [(0, true)] } placedRegion
     ∃ i < 256, 256 * c.row + i < recExt c.image 0 * recRows c.image ∧ tabGet false (s.core 0).badScratch (c.base + (storeAt .cpin c.image
       (recSrc c.image) (i % recExt c.image 0) 0 0 0).1.toNat) = true) ∧
    (copy0 .cpin []).wbSaved = none := by decide

/-- A row of I8 elements of scratch, the last of the K extent, that forms a block in a dense panel of scratch and of the weight buffer. -/
theorem wit_PanelRows :
    ∀ side ∈ [0x10, 0x11], let c : CopyOp := { copy0 .cpin (recordOf 8 side) with started := true }
      let s := small sq0 1 { copies := [c] } placedRegion
      (s.core 0).copies.find? (fun x => x.id == 1) = some c ∧ c.started = true ∧ c.parked = false ∧ c.ended = false ∧ c.kind = .cpin ∧
      recFmt c.image ≠ 31 ∧ recScr c.image = true ∧ recSide c.image < 2 ∧ (∀ b ∈ (s.core 0).bank, 1 ≤ b.op) ∧
      (∀ a < 64, tabGet false (s.core 0).badScratch a = false) ∧ (List.replicate 31 (none : Option (Nat × Nat × Nat)) ++ [some (255, 0, 0)]).length = 32 := by
  decide

/-- Blocks of integers, of Q4 elements with each kind of code, and of a floating format with a number, none and a largest one. -/
theorem wit_CanonicalBlocks :
    recFmt (recordOf 7 0) = 7 ∧ recFmt (recordOf 16 0) = 16 ∧ some ((15 : Nat), (255 : Nat), (0 : Nat)) ∈ [none, some (15, 255, 0)] ∧
    ((248 : Nat) < 249 ∧ (249 : Nat) < 255) ∧ ((recFmt (recordOf 1 0), Fmt.f16) ∈ floatCodes ∧ Fmt.f16 ≠ .e8m0) ∧
    Fmt.f16.units 0x7C00 = none ∧ (Fmt.f16.units 0x7BFF).isSome = true ∧ recFmt (recordOf 2 0) = 2 ∧ recWide (recordOf 1 0) = false := by decide

/-- The E4M3 image of a row of one accumulator, with a storage block size of 32 and without, to scratch; its mode RS and not. -/
theorem wit_CopyOutRows :
    (∀ blk ∈ [0, 1], ∀ rm ∈ [0, 4], let c : CopyOp := { copy0 .cpout (List.replicate 0x38 0 ++ [3, blk, 0x10, rm, 0, 0, 0, 0]) with started := true }
      let s := small sq0 1 { copies := [c] } placedRegion
      (s.core 0).copies.find? (fun x => x.id == 1) = some c ∧ c.started = true ∧ c.parked = false ∧ c.ended = false ∧ c.kind = .cpout ∧
      recScr c.image = true ∧ recFmt c.image = 3 ∧ storeBits .cpout 3 = 8 ∧ (∀ b ∈ (s.core 0).bank, 1 ≤ b.op) ∧
      (s.core 0).badAcc = [] ∧ (s.core 0).badScratch = [] ∧ recExt c.image 0 = 1) ∧
    (recBlk (List.replicate 0x38 0 ++ [3, 1, 0x10, 4, 0, 0, 0, 0]) ≠ 0 ∧ rmodeOf (recRound (List.replicate 0x38 0 ++ [3, 1, 0x10, 4, 0, 0, 0, 0])) = .rs) := by
  decide

/-- Tile clauses: an access before it on its way to a bank; a poisoned byte of A, one of its exponents, and a poisoned element; a zero-elided
B; C16. -/
theorem wit_tile_blocks :
    (let o : TileOp := { tile0 .mma blockOne with started := true, id := 2 }
     let b : BankOp := { op := 0, squad := 1, thread := 0, at_ := 0, size := 4, kind := .read }
     (∃ z ∈ ({ bank := [b], tiles := [o] } : CoreS).bank, z.op < o.id) ∧ o.poisonAt {} = none ∧ o.k < 2 ^ 32) ∧
    (let o : TileOp := { tile0 .mma blockOne with started := true }
     let at_ := o.base + tpA o.image + tpAKB o.image * (32 * tpARows o.image + (tpARows o.image + 31) / 32 * 32)
     tpM o.image = 1 ∧ tpN o.image = 1 ∧
     (∃ m < tpM o.image, tabGet false [(at_ + 32 * tpARows o.image, true)] (at_ + 32 * tpARows o.image + tpARow o.image + m) = true) ∧
     tabGet false [(accIndex 0 0 0, true)] (accIndex (tpTile o.image) 0 0) = true) ∧
    (let o : TileOp := { tile0 .mma (leBytes 13 0 ++ leBytes 51 4) with started := true }
     tpC16 o.image = true ∧ tpClass o.image = 2 ∧ tpElided o.image = false ∧ o.poisonAt {} = none ∧ (o.bRows [] o.k).isSome = true) := by decide

/-- A definition of one micro-operation CHK of a temporary that is 0, with flags; a slice that holds it; a FIG whose flag waits for this
element alone. -/
def checking (fl : Nat) (k : CoreS) : State :=
  { small sq0 1 k { placedRegion with figTable := 0x8000, faultQueue := 0x9000 } with
    hbm := [(0x8000, BitVec.ofNat 8 fl), (0x8001, 1), (0x8013, 0x50), (0x9001, 0xA0)]
    defCache := [(sliceOf 0x40070, [{ asid := 0, slot := 0, image := [] }])]
    flagOps := [(1, { squad := 1, flag := 11, left := 1 })] }

theorem wit_FigurePolicies :
    (∀ fl ∈ [0x80, 0x88], let e : PathEntry := { figReq with flag := some 11, region := { figReq.region with faultQueue := 0x9000 } }
      let s := checking fl { path := [e] }
      let im := s.figEntry e.region.figTable 0
      (s.core 0).path[0]? = some e ∧ s.combining = [] ∧ s.tileFigs = [] ∧ s.struck = [] ∧ s.poisoned = [] ∧ combinable (figFlags im) e.flag = false ∧
      (∃ y ∈ tabGet [] s.defCache (sliceOf e.pa), y.asid = e.asid ∧ y.slot = 0) ∧ figTile (figFlags im) = false ∧
      (match figRun im (s.readBytes 0x40000 128) 0x70 5 with
        | .fault d => d == 2
        | .ok _ => false) = true ∧
      (figDrop (figFlags im) = decide (fl = 0x88)) ∧ (∃ fo, tabFind s.flagOps e.op = some fo ∧ fo.left ≤ 1 ∧ fo.flag < 12 ∧ tabFind s.squads fo.squad = some sq0) ∧
      e.region.faultQueue ≠ 0 ∧ (s.readLe 0x9010 4 + 2 ^ 32 - s.readLe 0x9014 4) % 2 ^ 32 ≠ 2 ^ s.readLe 0x9008 4 ∧ s.readLe 0x9000 8 + 64 ≤ 0x9000 + 0x1040) ∧
    (let y : CombineEntry := { slice := sliceOf 0x40070, asid := 0, slot := 0, pa := 0x40070, va := 0x70, operand := 1, count := 2, born := 0,
                               region := { figReq.region with faultQueue := 0x9000 } }
     let s : State := { checking 0x80 {} with combining := [y], dieClk := [(dieOfSlice (sliceOf 0x40070), 64)] }
     s.combining = [y] ∧ 64 ≤ s.clockOfDie (dieOfSlice y.slice) - y.born) := by decide

/-- Temporaries, granule and words for each kind of micro-operation: an element of 4 bytes at 124; an offset outside; an immediate. -/
theorem wit_MicroOperations :
    let r : FigRun := { t0 := 5, t1 := 2 ^ 32 - 1, t2 := 0, t3 := 0, img := List.replicate 128 0, ret := 0, stored := false }
    (∀ k < 4, r.get k < 2 ^ 32) ∧ r.img.length = 128 ∧
    (let w := 1 * 2 ^ 26 + 1 * 2 ^ 16
     w / 2 ^ 26 = 1 ∧ w / 2 ^ 16 % 4 = 1 ∧ ¬ ((124 : Int) < 0 ∨ (128 : Int) - 4 < 124 ∨ (124 : Int) % 4 ≠ 0)) ∧
    ((128 : Int) - 4 < 124 + 4) ∧ (14 * 2 ^ 26 : Nat).testBit 19 = false ∧ (17 * 2 ^ 26 : Nat).testBit 19 = false ∧ (2 ^ 26 - 1 : Nat) < 2 ^ 26 ∧
    (match uopStep 0x20 0 0 (20 * 2 ^ 26 + 2 * 2 ^ 22) r with
      | .fault d => d == 2
      | .ok _ => false) = true := by decide

/-- An image for each status: 17 words; a reserved byte; a word END before the last; a constant offset out of range; RETV without RET; a COMM
program of END; FADD on bytes; a good one. -/
theorem wit_FigureChecks :
    let img (fl n : Nat) (ws : List Nat) : List Byte :=
      [BitVec.ofNat 8 fl, BitVec.ofNat 8 n] ++ leBytes 14 0 ++ (ws.flatMap (leBytes 4)) ++ leBytes (112 - 4 * ws.length) 0
    (∀ x ∈ [img 0 17 [], img 0 0 [], img 0 2 [], img 0 2 [2 ^ 26 + 128], img 0 2 [19 * 2 ^ 26], img 2 1 [],
        img 0 2 [17 * 2 ^ 26], img 0 1 []], x.length = 128) ∧
    figCheck (img 0 17 []) = 1 + 256 * 0xFF ∧ figCheck (img 0 0 []) = 2 + 256 * 0xFF ∧ figCheck (img 0 2 []) = 2 ∧
    figCheck (img 0 2 [2 ^ 26 + 128]) = 3 ∧ figCheck (img 0 2 [19 * 2 ^ 26]) = 4 ∧ figCheck (img 2 1 []) = 5 ∧
    figCheck (img 0 2 [17 * 2 ^ 26]) = 6 ∧ figCheck (img 0 1 []) = 0 := by decide

/-- A slice that has the definition of a request; one that lacks it. -/
theorem wit_definition_caches :
    (let s : State := { figured 0x84 { path := [figReq] } with defCache := [(sliceOf 0x40070, [{ asid := 0, slot := 0, image := [] }])] }
     ∃ d ∈ tabGet [] s.defCache (sliceOf figReq.pa), d.asid = figReq.asid ∧ d.slot = 0) ∧
    (let s := figured 0x84 { path := [figReq] }
     s.figWaiting (sliceOf 0x40070) 0 0 = some (0, figReq) ∧ s.combining = [] ∧ tabGet [] s.defCache (sliceOf 0x40070) = []) ∧
    s0.figWaiting 0 0 0 = none := by decide

/-- A store to no name; an STN.REL whose release half still waits. -/
theorem wit_named_stores_dropped :
    (let d : Delivery := { delivery0 with dead := true, flag := some 11 }
     d.dead = true ∧ d.squad = 1 ∧ d.mine = true ∧ 11 < 12) ∧
    (let d : Delivery := { delivery0 with rel := some 1 }
     let s := small sq0 1 { path := [{ op := 0, squad := 1, thread := 0, kind := .grab, size := 16, va := 0, pa := 0 }] } placedRegion
     d.rel = some 1 ∧ d.dead = false ∧ s.released d.squad d.core 3 1 = false) := by decide

/-- The third withdrawal of a tender. -/
theorem wit_withdrawals :
    let h : Heat := { heat0 with stage := .award 2, withdrawn := [0, 1] }
    let e : Exec := { ex 1 with hold := some (.heat 0) }
    let k : CoreS := { inbox := List.replicate 16 { cls := 0, task := [], core := 0, sname := 0 } }
    let s : State := { s0 with heats := [(0, h)], lanes := [(0, { cur := some e })], cores := [(2, k)] }
    tabFind s.heats 0 = some h ∧ h.stage = .award 2 ∧ h.due ≤ s.clockOfDie 8 ∧ 16 ≤ (s.core 2).inbox.length ∧ h.det = false ∧ h.withdrawn = [0, 1] ∧
    tabFind s.squads h.squad = some sq0 ∧ sq0.isResident = true ∧ (s.lane sq0.laneOf).cur = some e ∧ e.squad = h.squad ∧ e.hold = some (.heat 0) ∧
    ({ h with stage := .queued, withdrawn := [] } : Heat).stage = .queued ∧ ({ h with coreMask := 0 } : Heat).coreMask = 0 := by decide

/-- A named squad that saves, and one that is restored; a block that is asked for while it is restored. -/
theorem wit_ParkedNames :
    (let sq : Squad := { sq0 with barRole := none, sname := s0.nameOf 16383 1 }
     let s := unitAt .saving sq
     s.unitSquads (s.unitOf 1 0) = [(1, sq)] ∧ tabGet [] s.moves 16383 = [] ∧ s.combining = [] ∧ 0x100000 + 0x8000 * 1 < 2 ^ 64 ∧
     (∀ k ∈ [1], 16 * 16383 + 16 ≤ 0x100000 + 0x8000 * k)) ∧
    (let sq : Squad := { sq0 with barRole := none, saveAt := 0x108000, sname := s0.nameOf 16383 1 }
     let s := unitAt .restoring sq
     s.unitSquads (s.unitOf 1 0) = [(1, sq)] ∧ sq.saveAt ≠ 0 ∧ sq.savedExt = none ∧ sq.place = .resident 0 0 0 ∧
     (∀ n ∈ [1], 16 * 16383 + 16 ≤ 0x100000 + n / 8)) ∧
    ∀ e ∈ (unitAt .restoring sq0).unitBlocks ((unitAt .restoring sq0).unitOf 1 0), e.2.phase = .restoring := by decide

theorem saving_released (sq : Squad) (n : Nat) : (unitAt .saving sq).releasedAt 1 0 2 n :=
  ⟨fun _ h => absurd h List.not_mem_nil, fun _ h => absurd h List.not_mem_nil, fun _ _ h => absurd h List.not_mem_nil,
   fun _ _ h => absurd h List.not_mem_nil⟩

/-- A multicast packet that has left and stands at the leaf switch of the device. -/
theorem wit_cast_at_leaf :
    let m : PodMsg := { podMsg (.cast 5 1 3 (leBytes 128 1)) 128 4096 with sent := true }
    let s : State := { s0 with pod := [m] }
    s.branches.length ≤ 0 ∧ (s.pod.filter (fun x => x.dst == 4096 && x.sent))[0 - s.branches.length]? = some m ∧
    m.kind = .cast 5 1 3 (leBytes 128 1) ∧ s.own / 64 = 0 := by decide

/-- Packets that wait: the oldest, a load behind it to other bytes, the last packet of a NORET figure, and one whose fellow waits too; a flit whose
packet is a write with the pair's next number. -/
theorem wit_packets_waiting :
    (let a : PodMsg := { podMsg (.load 1 0 8) 0 3 with sent := false }
     let b : PodMsg := { podMsg (.load 2 0 8) 8 3 with id := 10, sent := false }
     let s : State := { s0 with pod := [a, b] }
     (s.pod.filter (fun x => x.mine && !x.sent)).head? = some a ∧ a.seq = none ∧ b.dst = a.dst ∧ a.dst < 4096 ∧ a.off + 8 ≤ b.off) ∧
    (let c : PodMsg := { podMsg (.write [(0, 1)]) 0 3 with sent := false, counted := some (7, 1) }
     let s : State := { s0 with pod := [c] }
     c.counted = some (7, 1) ∧ (∀ x ∈ s.pod, x.id ≠ c.id → x.counted ≠ c.counted) ∧ tabFind s.squads 1 = some sq0) ∧
    (∃ k : LinkS, k.tx.valid = true ∧ k.tx.count = k.tx.last ∧ k.armed = []) ∧ (∃ k : LinkS, ¬ k.replay.length < 128) ∧
    tabGet 0 s0.rxSeq (pairOfDevices 3 0) = 0 ∧ (∃ k : LinkS, k.fails < 2 ∧ k.discarding = false) ∧ ∃ k : LinkS, 2 ≤ k.fails := by
  refine ⟨by decide, by decide, ⟨{ tx0 := key0 }, by decide⟩, ⟨{ replay := List.replicate 128 flit0 }, by simp⟩, rfl, ⟨{}, by decide⟩, ⟨{ fails := 2 }, by decide⟩⟩

/-- A reduction of this device alone, one of a group in progress, and one of a unit with 256. -/
theorem wit_reductions :
    let one_ : List Byte := leBytes 8 0x6000 ++ leBytes 8 0x7000 ++ leBytes 4 4 ++ leBytes 4 0 ++ leBytes 8 1 ++ leBytes 8 1 ++ leBytes 24 0
    let r (image : List Byte) : RedxOp := { id := 9, squad := 1, core := 0, flag := 11, op := 3, image := image, region := gPages }
    let names_ (i p : Nat) : Prop := (Machine.fld one_ 0x18 8).testBit i = true ∧ (Machine.fld one_ 0x20 8).testBit p = true
    (∀ i < 64, ∀ p < 64, (names_ i p ↔ 64 * i + p = s0.own)) ∧ popNat 64 (Machine.fld redxImage 0x18 8) * popNat 64 (Machine.fld redxImage 0x20 8) ≠ 1 ∧
    (∃ x ∈ ([r redxImage, r redxImage].take 1).filter (fun x => x.result.isNone && !x.err), Machine.fld x.image 0x14 2 = Machine.fld redxImage 0x14 2) ∧
    ({ r redxImage with result := some [] } : RedxOp).result = some [] ∧ ({ r redxImage with err := true } : RedxOp).err = true := by
  decide

/-- A channel's request on its way: to its own channel, to another, from a core and from a slice; a row of the groomer; one that is late. -/
theorem wit_channel_requests :
    let r : ChanReq := { cls := 2, budget := 1023, line := 0, core := some 383 }
    let s : State := { s0 with toChannel := [r] }
    s.toChannel[0]? = some r ∧ r.core = (if 383 < 384 then some 383 else none) ∧ (∀ x ∈ s.toChannel.take 0, x.line ≠ r.line) ∧
    channelOf (128 * r.line) = 0 ∧ channelOf (128 * r.line) ≠ 511 ∧ (s.channel 0).queue.length < 64 ∧
    ({ r with core := none } : ChanReq).core = (if (384 : Nat) < 384 then some 384 else none) ∧
    ({ r with row := some 3, write := true } : ChanReq).row = some 3 ∧ ((0 : Word) - 1).getLsbD 31 = true := by decide

/-- The mailbox's POWER in a halted module that had been throttled. -/
theorem wit_power_from_halted :
    ∃ m : ModuleS, m.status = 1 ∧ m.command = 2 ∧ m.power = .halted ∧ m.slower = 3 := ⟨{ status := 1, command := 2, power := .halted, slower := 3 }, rfl, rfl, rfl, rfl⟩

/-- An SCRATCH element just past the allocation; one at a byte that an engine's copy reads, which a store may not write; a register of the upper
half, and one past the last; an accumulator just past the store. -/
theorem wit_SpaceChecks :
    (one 4096 {}).elementsM { sq0 with sc := [(1, 4096)] } (ex 1) 0 0 1 0 0 8 = [] ++ (0, 4096) :: [] ∧ 4096 % 8 = 0 ∧
    ((one 4096 {}).block ({ sq0 with sc := [(1, 4096)] } : Squad).blockOf).size < 4096 + 8 ∧
    (let b : Binding := { acc := false, lo := 4095, hi := 4095, excl := false, op := 7 }
     let s := one 4088 { bindings := [b] }
     s.elementsM { sq0 with sc := [(1, 4088)] } (ex 1) 0 0 1 0 0 8 = [] ++ (0, 4088) :: [] ∧
     4088 + 8 ≤ (s.block ({ sq0 with sc := [(1, 4088)] } : Squad).blockOf).size ∧ b ∈ (s.core 0).bindings ∧
     (s.block ({ sq0 with sc := [(1, 4088)] } : Squad).blockOf).base + 4088 + 7 = b.lo ∧ b.hi < b.lo + 1) ∧
    (one 0x800000 {}).elementsM { sq0 with sc := [(1, 0x800000)] } (ex 1) 0 0 1 0 0 4 = [] ++ (0, 0x800000) :: [] ∧
    (∀ x ∈ [(0x2000 : Reg), 0x3FF8, 0x4000], (one x {}).elementsM { sq0 with sc := [(1, x)] } (ex 1) 0 0 1 0 0 8 = [] ++ (0, x.toNat) :: []) ∧
    (one 0x3FF8 {}).holdsLock 1 sq0 = false := by
  refine ⟨rfl, by decide, by decide, ⟨rfl, by decide, by decide, by decide, by decide⟩, rfl, ?_, by decide⟩
  intro x hx
  simp only [List.mem_cons, List.not_mem_nil, or_false] at hx
  rcases hx with rfl | rfl | rfl <;> rfl

/-- The causes of PROT with their details: an address of 57 bits, a malformed entry, host memory, and a page without R, without W and without F. -/
theorem wit_FailsWith :
    let p (leaf : Nat) : WalkResult := .page { base := 0, size := 4096, leaf := leaf }
    FailsWith { r := true } (2 ^ 56) .absent 5 ∧ FailsWith { r := true } 0 .malformed 7 ∧ FailsWith { r := true, hbm := true } 0 (p 0x843) 4 ∧
    FailsWith { r := true, w := true } 0 (p 0x3) 2 ∧ FailsWith { r := true, w := true } 0 (p 0x103) 3 ∧ FailsWith { f := true } 0 (p 0x703) 9 ∧
    ∀ d, ¬ FailsWith { r := true } 0 (p 0x103) d := by
  simp [FailsWith, Page.r, Page.w, Page.f, Page.host]
  decide

/-- A header beyond the code segment, one on a page without X and one on a page that is absent, each of the squad whose turn it is; and the same
of a word behind a header. -/
theorem wit_clause_fetch_faults :
    (let sq : Squad := { sq0 with vpc := (List.range 32).map (fun i => (i, 0x10000)) }
     let s := fetching 0x12000000 0x02385187 sq
     s.mayTake 1 sq = true ∧ sq.nextStart = some (0x10000, 1, BitVec.allOnes 32) ∧ sq.fetched = none ∧ gPages.codeSize ≤ 0x10000 ∧
     (s.lane sq.laneOf).cur = none ∧ (s.choice sq.laneOf).map (·.1) = some 1 ∧ sq.priv = false ∧ sq.arrived = none) ∧
    (let s : State := { fetching 0x12000000 0x02385187 sq0 with hbm := pages.map (fun c => if c.1 = 0x3001 then (c.1, 0x0B) else c) }
     s.mayTake 1 sq0 = true ∧ (s.translateIn 0 gPages 0).pageIs (fun p => !p.x) = true ∧ 0 < gPages.codeSize ∧ gPages.codeBase + 0 < 2 ^ 56 ∧
     (s.choice 0).map (·.1) = some 1) ∧
    (let s : State := { fetching 0x12000000 0x02385187 sq0 with hbm := [] }
     s.mayTake 1 sq0 = true ∧ s.translateIn 0 gPages 0 = .absent ∧ (s.choice 0).map (·.1) = some 1) ∧
    (let g : Region := { gPages with codeSize := 4 }
     let s := fetching 0x12000000 0x02385187 sq0
     (s.codeWord 0 g true 0).toOption = some 0x12000000 ∧ 1 ≤ hdrCount 0x12000000 ∧ g.codeSize ≤ 0 + 4 * 1) := by decide +kernel

/-- A LOOP of no iterations before a word that trapped: the clause's remainder keeps its target, and RFT gives it back. -/
theorem wit_kept_target :
    (let sq : Squad := { sq0 with remainder := some { addr := 0, index := 2, mask := 1, jump := some 0x40 }, barRole := none }
     let s := fetching 0x22000000 0x02385187 sq
     sq.nextStart = some (0, 2, 1) ∧ sq.remainder.bind (·.jump) = some 0x40 ∧ s.mayTake 1 sq = true) ∧
    (let sq : Squad := { placedSquad true with xinfo := 2 + 2 ^ 32, xpc := 8, xjump := some (0, 0x40), xvpc := [(0, 0)] }
     sq.mgmt = false ∧ sq.xinfo.extractLsb' 0 4 = 2 ∧ sq.xinfo.extractLsb' 32 32 = 1 ∧ tabGet 0 sq.xvpc 0 ≠ 0xFFFFFFFF ∧
     sq.xpc - BitVec.ofNat 32 (4 * 2) = 0) := by decide

/-- Packets that are refused: one for a device that refuses it, one that no link carries, with a fault queue and without. A packet of another
device whose turn it is, inside its window and outside; a load of a poisoned line. -/
theorem wit_pod_refusals :
    let g : Region := { placedRegion with faultQueue := 0x9000 }
    (∀ m ∈ [{ ownWrite with dst := 4095 }, { ownWrite with dst := 4095, region := g }, { ownLoad with dst := 4095 }],
      let s := atWindow m
      s.pod[0]? = some m ∧ m.id < s.nextId ∧ m.mine = true ∧ m.sent = true ∧ (∀ x ∈ s.pod.take 0, x.mine = true → x.dst ≠ m.dst) ∧
        m.dst ≠ s.own ∧ m.dst < 4096) ∧
    (∀ m ∈ [{ ownWrite with sent := false, region := g }, { ownLoad with sent := false }],
      let s := atWindow m
      s.pod[0]? = some m ∧ m.mine = true ∧ m.sent = false ∧ ∀ l < 16, (s.link l).st ≠ .up) ∧
    (∀ off ∈ [128, 129], let m : PodMsg := { ownWrite with mine := false, src := 7, off := off, seq := some 0, window := some window0.window }
      let s := atWindow m
      m.seq = some (tabGet 0 s.rxSeq (pairOfDevices m.src m.dst)) ∧ m.dst = s.own ∧
        ((s.windowPlace window0.window podWrites (m.off + 127)).isSome = decide (off = 128))) ∧
    (let s : State := { atWindow ownLoad with poisoned := [(0x60F8 / 128, true)] }
     ∃ i < 8, s.isPoisoned (0x60F8 + i) = true) ∧
    (let s : State := { atWindow ownWrite with hbm := [(0x9001, 0xA0)] }
     (s.readLe 0x9010 4 + 2 ^ 32 - s.readLe 0x9014 4) % 2 ^ 32 ≠ 2 ^ s.readLe 0x9008 4 ∧ 0x9000 + 64 ≤ s.readLe 0x9000 8) ∧
    (let s : State := { atWindow ownWrite with hbm := [(0x9010, 1)] }
     ¬ (s.readLe 0x9010 4 + 2 ^ 32 - s.readLe 0x9014 4) % 2 ^ 32 ≠ 2 ^ s.readLe 0x9008 4 ∧ s.stageCount 0 < 256) := by
  decide +kernel

/-- Flits that a link receives: of a type beyond 4, a marker, one behind a refused one, one whose slot has no key; packets behind the oldest, one
that may pass it and one that may not. What a key opens is free. -/
theorem wit_link_flits :
    (flitField [5] 0 1 % 16 = 5 ∧ flitField [15] 0 1 % 16 = 15 ∧ flitField [0x12] 0 1 % 16 = 2) ∧
    (∃ k : LinkS, k.st = .up ∧ k.discarding = true ∧ BitVec.ofNat 16 (flitField [1, 0, 7, 0] 2 2) ≠ k.rxSeq) ∧
    (∃ k : LinkS, k.st = .up ∧ (k.rx true).valid = true ∧ k.rxActive = false ∧ BitVec.ofNat 16 (flitField [0x12, 0, 0, 0] 2 2) = k.rxSeq) ∧
    (∃ k : LinkS, k.st = .up ∧ (k.rx false).valid = false ∧ k.discarding = false) ∧
    (let a := podMsg (.load 1 0 8) 0 3
     let b := podMsg (.write [(0, 1)]) 8 3
     let c := podMsg (.write [(0, 1)]) 4 3
     let apart (x y : PodMsg) : Bool := match x.reach, y.reach with
       | some u, some v => u.all (fun i => !v.contains i)
       | _, _ => false
     apart b a = true ∧ apart c a = false ∧ apart c b = true ∧ (∃ d, b.kind = .write d) ∧ ∀ d, a.kind ≠ .write d) := by
  refine ⟨by decide, ⟨{ st := .up, discarding := true }, by decide⟩, ⟨{ st := .up, rx1 := key0 }, by decide⟩, ⟨{ st := .up }, by decide⟩,
    by decide, by decide, by decide, ⟨_, rfl⟩, ?_⟩
  intro d h
  cases h

/-- Two figures of one slot on overlapping elements: a younger entry that a request of its core would overtake, and the request's own entry before
it; an entry whose granule a TILE figure holds. An atomic between its halves that lets another squad's go first. -/
theorem wit_overtaking :
    (let e : PathEntry := { figReq with kind := .figure 0 5 }
     let s : State := { figured 0x82 { path := [e] } with combining := [
        { slice := sliceOf 0x40070, asid := 0, slot := 0, pa := 0x40070, va := 0x70, operand := 1, count := 1, born := 0, cores := [0], region := e.region },
        { slice := sliceOf 0x40070, asid := 0, slot := 1, pa := 0x40070, va := 0x70, operand := 1, count := 1, born := 0, cores := [0], region := e.region }] }
     combinable (figFlags (s.figEntry e.region.figTable 0)) e.flag = true ∧ s.tileFigs = [] ∧
     ∃ y z, s.combining = [] ++ y :: [z] ∧ y.slice = sliceOf e.pa ∧ y.asid = e.asid ∧ y.slot = 0 ∧ y.pa = e.pa ∧
       s.entryMeets e.pa (figBytes (figFlags (s.figEntry e.region.figTable 0))) [0] z = true) ∧
    (let s := figured 0x82 { path := [figReq] }
     s.combining = [] ∧ combinable (figFlags (s.figEntry 0x8000 0)) none = true ∧
     ∃ d ∈ tabGet [] ({ s with defCache := [(sliceOf 0x40070, [{ asid := 0, slot := 0, image := [] }])] } : State).defCache (sliceOf 0x40070),
       d.asid = figReq.asid ∧ d.slot = 0) ∧
    (let f : TileFig := { channel := 0, granule := 0x40000, asid := 0, slot := 1, pa := 0x40000, va := 0, image := [], operand := 0, count := 1 }
     ({ figured 0x82 {} with tileFigs := [f] } : State).granuleHeld 0x40070 = true ∧ (figured 0x82 {}).granuleHeld 0x40070 = false) ∧
    (let a : PathEntry := { op := 1, squad := 2, thread := 0, kind := .addBf16 1 (some 7), size := 4, va := 0, pa := 0x40000 }
     let b : PathEntry := { a with squad := 1, op := 2, kind := .addBf16 1 none }
     a.sharesLine b = true ∧ a.between b = true ∧ a.between { b with squad := 2 } = false) := by
  refine ⟨⟨by decide, rfl, _, _, rfl, by decide⟩, by decide, by decide, by decide⟩

/-- A unit of one squad without a free record; one that holds the pair lock as it saves, and one that takes it back, with its pair free and not. -/
theorem wit_preempted_lock :
    (let s : State := { unitAt .running sq0 with launches := [(1, { region := { placedRegion with saveBase := 0x100000, saveSize := 0x8000 }, placed := 1 })] }
     let bs := s.unitBlocks (s.unitOf 1 0)
     bs ≠ [] ∧ (∀ e ∈ bs, e.2.phase = .running) ∧ s.takeRecords bs = none) ∧
    (let s : State := { unitAt .saving sq0 with pairs := [(0, { owner := some 1, v := [(0, 7)], hold := [(32, 1)] })] }
     sq0.isResident = true ∧ (s.pair sq0.pairOf).owner = some 1 ∧ s.combining = [] ∧ s.stns = []) ∧
    (let sq : Squad := { sq0 with saveAt := 0x108000, savedExt := some ([(0, 7)], [(32, 1)]) }
     let s := unitAt .restoring sq
     s.unitSquads (s.unitOf 1 0) = [(1, sq)] ∧ sq.saveAt ≠ 0 ∧ (s.pair sq.pairOf).owner = none ∧ (s.lane sq.laneOf).cur = none ∧
     ({ s with pairs := [(0, { owner := some 2 })] }.pair sq.pairOf).owner ≠ none) ∧
    ({ ({ region := placedRegion } : Launch) with preempted := false }).region.det = false := by decide

/-- A launch of two blocks in a cluster, with scratch, on one core and on two; a core that another region had, with a figure load for the new one,
and a core of the region itself. -/
theorem wit_clusters :
    (let x : Launch := { region := { placedRegion with coreMask := 3 }, gx := 2, cx := 2, squadsPer := 200, scratch := 1024 }
     let s : State := { toPlace with launches := [(1, x)] }
     x.placed < x.clusters ∧ s.mayPlace 1 x = true ∧ s.running = true ∧ (∀ e ∈ s.squads, e.1 < s.nextId) ∧
     s.fit x x.placed (List.replicate (x.cx * x.cy * x.cz) (x.squadsPer, x.scratch)) = some (0, [0, 1])) ∧
    (let x : Launch := { region := { placedRegion with coreMask := 1 }, gx := 2, cx := 2, scratch := 1024 }
     let s : State := { toPlace with launches := [(1, x)] }
     s.fit x x.placed (List.replicate (x.cx * x.cy * x.cz) (x.squadsPer, x.scratch)) = some (0, [0, 0])) ∧
    (let f : FigLoad := { id := 3, squad := 9, asid := 0, table := 0x8000, slot := 5, image := none }
     (∃ f' ∈ ({ toPlace with figLoads := [f] } : State).figLoads, f'.asid = placedRegion.asid ∧ f'.slot = 5) ∧
     (({ region := some { placedRegion with rcb := 0x30000 } } : CoreS).region.map (·.rcb)) ≠ some placedRegion.rcb ∧
     (({ region := some placedRegion } : CoreS).region.map (·.rcb)) = some placedRegion.rcb) := by
  refine ⟨⟨by decide, by decide, by decide, by decide, by decide +kernel⟩, by decide +kernel, by decide⟩

/-- An engine's row and a tile's K-block whose banks are in use; a copy that waits for another's rows of the weight buffer, saved and not. -/
theorem wit_busy_banks :
    (let c : CopyOp := { copy0 .cpin (recordOf 31 0x11) with started := true, wbFrom := [5], wbSaved := some [] }
     let k : CoreS := { copies := [c], banksBusy := BitVec.allOnes 64 }
     (∃ a ∈ c.rowPlaces, k.banksBusy.getLsbD (a / 8 % 64) ≠ false) ∧ (∀ a ∈ c.rowPlaces, ({} : CoreS).banksBusy.getLsbD (a / 8 % 64) = false) ∧
     5 ∈ c.wbFrom ∧ c.wbSaved = some [] ∧ (copy0 .cpin []).wbFrom = []) ∧
    (let o : TileOp := { tile0 .mma blockOne with started := true }
     let k : CoreS := { tiles := [o], banksBusy := BitVec.allOnes 64 }
     (∃ a ∈ o.blockPlaces, k.banksBusy.getLsbD (a / 8 % 64) ≠ false) ∧ (∃ a ∈ o.progressPlaces, k.banksBusy.getLsbD (a / 8 % 64) ≠ false) ∧
     (∀ a ∈ o.blockPlaces, ({} : CoreS).banksBusy.getLsbD (a / 8 % 64) = false)) := by decide

/-- A store and a copy to the memory of the host, of a region with a fault queue. -/
theorem wit_host_refusals :
    let g : Region := { placedRegion with faultQueue := 0x9000 }
    (let e : PathEntry := { op := 0, squad := 1, thread := 31, kind := .store [0], size := 1, va := 0, pa := 0, host := true, region := g }
     let s := small sq0 1 { path := [e] } g
     (s.core 0).path[0]? = some e ∧ e.host = true ∧ e.isStore = true ∧ tabFind s.squads e.squad = some sq0 ∧ e.region.faultQueue ≠ 0) ∧
    ∀ k ∈ [CopyKind.cpin, .cpout], let c : CopyOp := { copy0 k (recordOf 31 1) with started := true, region := g }
      let s := small sq0 1 { mapped 0x40F43 with copies := [c] } g
      (s.core 0).copies.find? (fun x => x.id == 1) = some c ∧ c.parked = false ∧ c.ended = false ∧ 0 ∈ c.rowVas ∧
        (s.translateIn 0 g 0).pageIs (fun p => p.host) = true := by decide +kernel

/-- A soft error of each kind met by a row of the groomer: the channel's error log with room, full of bad entries, and full with a corrected one. Which
lines a row holds is free. -/
theorem wit_soft_errors :
    let bad (n : Nat) : List ErrEntry := (List.range n).map (fun i => { addr := 0x10000 * (i + 1), bad := true, groomer := false })
    let r : ChanReq := { cls := 2, budget := 1023, line := 0, row := some 3 }
    let s : State := { s0 with struck := [(0, 2)], channels := [(0, { queue := [r], errors := bad 16 })] }
    (s.channel 0).queue = [r] ∧ r.core = none ∧ s.struck = [(0, 2)] ∧ channelOf (64 * 0) = 0 ∧ (∀ e ∈ (s.channel 0).errors, e.addr ≠ 64 * 0) ∧
    16 ≤ (s.channel 0).errors.length ∧ (∀ e ∈ (s.channel 0).errors, e.bad = true) ∧ (bad 15).length < 16 ∧
    (let c : ErrEntry := { addr := 64, bad := false, groomer := true }
     bad 7 ++ c :: bad 8 = bad 7 ++ c :: bad 8 ∧ c.bad = false ∧ (∀ z ∈ bad 7, z.bad = true) ∧ 16 ≤ (bad 7 ++ c :: bad 8).length) := by decide

/-- A squad whose threads have exited with a second wait left; a barrier's participant whose store has reached its bank. -/
theorem wit_retiring_waits :
    (let sq : Squad := { sq0 with exiting := true, nextWait := some (.lnext 0 (some 1)), moreWaits := [.figunld 7] }
     sq.exiting = true ∧ sq.nextWait = some (.lnext 0 (some 1)) ∧ sq.moreWaits ≠ []) ∧
    (∀ e ∈ (s0.core 0).bank, e.squad ≠ 1) ∧
    (let sq : Squad := { sq0 with nextWait := some (.figunld 7), moreWaits := [.figunld 8] }
     (sq.waitedFor (.figunld 7)).nextWait = some (.figunld 8) ∧ (sq.waitedFor (.figunld 8)).nextWait = some (.figunld 7)) := by decide

/-- A clause of one word ADD: the word is its last. -/
def oneWord : State := State.reset.placed 1 [0x02385187]

/-- A clause ends: no loop closes; its end, 8, closes one active loop whose counter is above 1, one whose counter is 1, and two, the later of which is
done; a LOOP has skipped; no thread is left in it; its squad is privileged. -/
theorem wit_ClauseEnd :
    (oneWord.agenda = [] ∧ ∃ e0 t e sq, (oneWord.lane oneWord.focus).cur = some e0 ∧ e0.hold = none ∧ e0.idx ≤ e0.clause.words.length ∧
      e0.clause.instrAt e0.idx = some (.add 2 3 1 0 5 6 7) ∧ exec (.add 2 3 1 0 5 6 7) oneWord = .next t ∧ (t.lane t.focus).cur = some e ∧
      e.hold = none ∧ e.clause.words.length < e.idx + 1 ∧ tabFind t.squads e.squad = some sq ∧ sq.priv = false ∧ e.mask ≠ 0 ∧ e.jump = none ∧
      (∀ n < 3, (sq.loopN n).active = false) ∧ e.clause.addr + BitVec.ofNat 32 (4 * (hdrCount e.clause.hdr + 1)) = 8) ∧
    (let l (lc : Word) (seq : Nat) : Loop := { lc := lc, start := 0, len := 2, active := true, seq := seq }
     let sq : Squad := { sq0 with loop0 := l 2 1, loop2 := l 1 3 }
     let closes (n : Nat) : Prop := (sq.loopN n).active = true ∧ (sq.loopN n).start.toNat ≤ 0 ∧
       0 + 4 * (1 + 1) = (sq.loopN n).start.toNat + 4 * (sq.loopN n).len.toNat
     closes 0 ∧ ¬ closes 1 ∧ closes 2 ∧ (sq.loopN 0).seq < (sq.loopN 2).seq ∧ 1 < (sq.loopN 0).lc.toNat ∧ (sq.loopN 2).lc.toNat ≤ 1) ∧
    (placedSquad true).priv = true ∧ ({ ex 0 with jump := some 0x40 } : Exec).jump = some 0x40 ∧ (ex 0).mask = 0 := by
  refine ⟨⟨rfl, _, _, _, _, rfl, rfl, by decide, by decide, rfl, rfl, rfl, by decide, rfl, rfl, by decide, rfl, by decide, by decide⟩,
    by decide, rfl, rfl, rfl⟩

/-- A free lane whose last squad, `who`, has run one clause of its turn; squad 1 is in its slot, with a clause fetched. -/
def turning (who : Nat) : State :=
  { fetching 0x12000000 0x02385187 { sq0 with fetched := some { addr := 0, hdr := 0x12000000, words := [0x02385187] }, barRole := none } with
    lanes := [(0, { last := 0, who := who, turns := 1, ended := false })] }

/-- That squad is squad 1 itself, or another one whose slot it has taken. -/
theorem wit_turns :
    (∀ who ∈ [1, 7], let t := (turning who).arrivals 0
      (t.lane 0).turns = 1 ∧ (t.lane 0).ended = false ∧ (t.lane 0).who = who ∧ (t.inSlot 0 (t.lane 0).last).map (·.1) = some 1) ∧
    (((turning 7).arrivals 0).inSlot 0 ((0 + 4) % 4)).map (·.1) = some 1 := by decide +kernel

/-- EVRD at the clause's first word, and behind it. -/
theorem wit_EVRD :
    (let e : Exec := { ex 1 with first := 1, counts := [(63, { count := 5, source := 2, en := true })] }
     e.idx = e.first ∧ (tabGet {} e.counts 63).count = 5) ∧ ({ ex 1 with idx := 2, first := 1 } : Exec).idx ≠ 1 := by decide

/-- A layout record with its bytes from 0x38 on, its first address and its second. -/
def layout (src dst : Nat) (tail : List Byte) : List Byte := leBytes 8 src ++ leBytes 8 dst ++ List.replicate 0x28 0 ++ tail
def noRound : List Byte := [0, 0, 0, 0, 0]

/-- Records that fail each check of their kind, at the values where it begins, with those before passed; a weight buffer range that a lock meets at
its first byte and one that ends at its last; a source that a copy in the scoreboard holds. -/
theorem wit_CopyChecks :
    s0.current = some (1, sq0, ex (BitVec.allOnes 32)) ∧ (s0.block sq0.blockOf).size = 4096 ∧
    (∀ x ∈ [[(6 : Byte), 0, 0], [31, 3, 0], [31, 0, 64]], copyCheck .cpin (layout 0 0 (x ++ noRound)) 4096 [] ≠ none) ∧
    (∀ x ∈ [(CopyKind.cpin, (31 : Byte), (1 : Byte), (0 : Byte)), (.cpin, 16, 0, 0), (.cpin, 8, 0, 3), (.cpout, 16, 0, 0), (.cpwb, 0, 0, 0)],
      copyCheck x.1 (layout 0 0 ([x.2.1, x.2.2.1, x.2.2.2] ++ noRound)) 4096 [] ≠ none) ∧
    (∀ x ∈ [(CopyKind.cpin, (8 : Byte), (31 : Nat)), (.cpout, 5, 0)], copyCheck x.1 (layout 1 x.2.2 ([x.2.1, 0, 0] ++ noRound)) 4096 [] ≠ none) ∧
    ((∃ x ∈ copyScratch .cpin (layout 4096 0 ([31, 0, 0x11] ++ noRound)), (4096 : Int) ≤ x.2 ∧ (4096 : Int) = max x.1 4096) ∧
      ∀ x ∈ copyScratch .cpin (layout 4096 0 ([31, 0, 0x11] ++ noRound)), 0 ≤ x.1) ∧
    (copyScratch .cpin (layout 0 0x200000 ([31, 0, 0x01] ++ noRound)) = [] ∧
      (copyWb .cpin (layout 0 0x200000 ([31, 0, 0x01] ++ noRound))).any (fun x => decide (0x200000 ≤ x.2)) = true) ∧
    ((copyWb .cpin (layout 0 0x1FFFFF ([31, 0, 0x01] ++ noRound))) = some (0x1FFFFF, 0x1FFFFF) ∧
      (∃ l ∈ [((0x1FFFC0 : Nat), (64 : Nat))], l.1 ≤ 0x1FFFFF ∧ 0x1FFFFF < l.1 + l.2)) ∧
    (let c : CopyOp := { copy0 .cpout recordF32 with squad := 1 }
     let s := small sq0 1 { copies := [c], board := [{ lo := 63, hi := 63, op := 1 }] } placedRegion
     (∃ z ∈ (s.core 0).board, z.lo ≤ 63 ∧ 63 ≤ z.hi ∧ ∃ c ∈ (s.core 0).copies, c.id = z.op ∧ c.squad = 1) ∧
     ¬ ∃ z ∈ (s.core 0).board, z.lo ≤ 62 ∧ 62 ≤ z.hi) := by decide

/-- Parameter blocks that fail each check, those before passed: a flag of 12; C16 with a zero-elided panel; an A at 1; an A of one K-block beyond an
allocation of 4,096; a B beyond the weight buffer. A block in the scratch that a copy of the squad writes. -/
theorem wit_TileChecks :
    let block (a b kb ctl flag : Nat) : List Byte := leBytes 4 a ++ leBytes 4 b ++ leBytes 2 kb ++ [0, 0, 0] ++ leBytes 1 ctl ++ leBytes 1 flag ++ leBytes 49 0
    (∀ x ∈ [block 0 0 1 0 12, block 0 0 1 12 0, block 1 0 1 0 0, block 0 0 0 0 0, block 4064 0 1 0 0, block 0 0x200000 1 0 0],
      x.length = 64 ∧ tileCheck x 4096 ≠ none) ∧ tileCheck (block 0 0 1 0 11) 4096 = none ∧
    (12 / 2 % 4 = 2 ∧ 12 / 8 % 2 = 1) ∧ 4096 < 4064 + 64 ∧
    (∃ z ∈ ({ board := [{ lo := 0, hi := 0, op := 1 }] } : CoreS).board, z.lo ≤ 0 ∧ 0 ≤ z.hi) := by decide

/-- A row of I8 elements of GLOBAL into a panel of each kind, on a page of the space; the first row of a zero-elided panel, and a later one. -/
theorem wit_panel_sources :
    (∀ mode ∈ [0, 1, 2], let c : CopyOp := { copy0 .cpin (recordOf 8 mode) with started := true, region := gPages }
      let s : State := { small sq0 1 { copies := [c] } gPages with hbm := pages }
      (s.core 0).copies.find? (fun x => x.id == 1) = some c ∧ recScr c.image = false ∧ recSide c.image = mode.toNat ∧ s.struck = [] ∧
      (s.translateIn 0 c.region 0).pageIs (fun p => p.r && !p.host && p.pa 0 == 0) = true ∧ s.isPoisoned 0 = false ∧
      ∀ z ∈ (s.core 0).path ++ (s.core 0).held, z.squad ≠ 1) ∧
    (let c : CopyOp := { copy0 .cpin (recordOf 8 0x12) with started := true, slab := 4, next := 12 }
     recSide c.image = 2 ∧ recC16 c.image = false ∧ 4 * 0 < 4 * ((recExt c.image (recKdim c.image) + 31) / 32) ∧ 4 ≤ c.next ∧ 4 ≤ c.slab) := by decide +kernel

/-- A RAW row of GLOBAL, to scratch and to the weight buffer. -/
theorem wit_raw_rows :
    ∀ side ∈ [0, 1], let c : CopyOp := { copy0 .cpin (recordOf 31 side) with started := true, region := gPages }
      let s : State := { small sq0 1 { copies := [c] } gPages with hbm := pages }
      recFmt c.image = fmtRaw ∧ recScr c.image = false ∧ recSide c.image = side.toNat ∧ 0 < 256 ∧ 256 * c.row + 0 < recExt c.image 0 * recRows c.image ∧
      (∀ b ∈ (s.core 0).bank, 1 ≤ b.op) ∧ (∀ a ∈ c.rowPlaces, (s.core 0).banksBusy.getLsbD (a / 8 % 64) = false) ∧
      (s.translateIn 0 c.region 0).pageIs (fun p => p.r && !p.host) = true := by decide

/-- A named store: for a saved squad without its upper registers and with them; at a target without the pair lock and with it, that holds the register and
does not; the sender itself; a hold count of 1. -/
theorem wit_named_targets :
    (let sq : Squad := { sq0 with place := .saved, saveAt := 0x108000 }
     ∀ x ∈ [none, some ([(0, 7)], [(32, (1 : BitVec 6))])], let s : State := { s0 with squads := [(1, { sq with savedExt := x })] }
       s.savedAt 0x108000 = some (1, { sq with savedExt := x }) ∧ (delivery0.vals.map (·.1)).Nodup ∧ ∀ y ∈ delivery0.vals, y.1 < 32) ∧
    (let d : Delivery := { delivery0 with reg := 63, flag := some 11, at_ := .forwarded 0 0 0, name := 1 }
     let tq : Squad := { sq0 with sname := 1, hold := [(31, 1)] }
     let s : State := { s0 with squads := [(1, tq)], stns := [d] }
     s.squads.find? (fun x => x.2.place == .resident 0 0 0 && x.2.sname == d.name && !x.2.exiting) = some (1, tq) ∧ d.squad = 1 ∧ 32 ≤ d.reg ∧
     d.reg < 64 ∧ (s.pair tq.pairOf).owner ≠ some 1 ∧ ({ s with pairs := [(0, { owner := some 1 })] } : State).pair tq.pairOf = { owner := some 1 } ∧
     (∀ x ∈ s.stns.take 0, x.sameStream d = false) ∧ s.readHold tq 31 = 1) := by decide

/-- A squad that saves, with a delivery to it in its move queue that lowers a hold count. -/
theorem wit_move_queue :
    let d : Delivery := { delivery0 with reg := 31 }
    let ds := [d, { d with vals := [(31, 8)] }]
    (∀ d ∈ ds, d.reg < 32 ∧ ∀ x ∈ d.vals, x.1 < 32) ∧
    ((((ds.filter (fun d => d.reg == 31)).flatMap (·.vals)).reverse.find? (fun x => x.1 == 31)).map (·.2)) = some 8 ∧
    ds.countP (fun d => d.reg == 31) = 2 ∧
    (∀ o ∈ ((unitAt .saving sq0).core 0).tiles, o.squad ≠ 1) := by decide

/-- The last cluster of the LAUNCH of a bound slot. -/
theorem wit_last_cluster :
    let x : Launch := { region := { placedRegion with coreMask := 1 }, queue := 65535 }
    let s : State := { queueing launchImage with launches := [(1, x)], slots := [(63, { bound with busy := [1] })] }
    (tabFind s.slots 63).any (fun sl => sl.st == .run && sl.queue == x.queue && sl.busy == [1] && sl.graph.isNone) = true ∧
    (∀ e ∈ s.slots, e.2.st = .run → e.2.queue = x.queue → e = (63, { bound with busy := [1] })) ∧ x.placed + 1 = x.clusters ∧
    ({ x with gx := 2 } : Launch).placed + 1 ≠ ({ x with gx := 2 } : Launch).clusters := by decide

/-- A POD element that is not aligned, and one at 2^60; a FIG of a POD slot and of a GLOBAL one; a scalar address that is not aligned. -/
theorem wit_pod_checks :
    (∀ x ∈ [(1 : Reg), 2 ^ 60], let sq : Squad := { sq0 with sc := [(1, x)] }
      (one x {}).current = some (1, sq, ex 1) ∧ (one x {}).mayName 1 sq (31 :: regsX 0 0) ∧
      (sq.activeT (ex 1) 0 0).map (fun th => (th, (one x {}).addrPod sq 1 0 0 8 th)) = [] ++ (0, x.toNat) :: []) ∧
    ((1 : Nat) % 8 ≠ 0 ∧ 2 ^ 60 % 8 = 0) ∧ ({ sq0 with sc := [(1, 1)] } : Squad).addrScalar 1 0 8 % 8 ≠ 0 ∧
    (figValid 0x80 = true ∧ figPod 0x80 = false ∧ figValid 0xC0 = true ∧ figPod 0xC0 = true ∧ figBytes 0xB0 = 8) := by
  refine ⟨?_, by decide, by decide, by decide⟩
  intro x hx
  refine ⟨rfl, .inr (by decide), ?_⟩
  simp only [List.mem_cons, List.not_mem_nil, or_false] at hx
  rcases hx with rfl | rfl <;> decide +kernel

/-- A squad whose threads have exited while its clause still runs on its lane, and one whose clause has ended. -/
theorem wit_clause_of_exited :
    (let s := small { sq0 with exiting := true } 1 {} placedRegion
     ∃ e, (s.lane ({ sq0 with exiting := true } : Squad).laneOf).cur = some e ∧ e.squad = 1) ∧
    (∀ e, ((unitAt .running sq0).lane sq0.laneOf).cur = some e → e.squad ≠ 1) :=
  ⟨⟨_, rfl, rfl⟩, fun e h => by cases h⟩

/-- 32 entries of a slice in use, the oldest of a slot that is applied there or at its channel; a merge of operands of the element's width. -/
theorem wit_full_buffer :
    (let e : PathEntry := { figReq with kind := .figure 0 5 }
     let o : CombineEntry := { slice := sliceOf 0x40070, asid := 9, slot := 0, pa := 0x40070, va := 0x70, operand := 1, count := 1, born := 0,
                               cores := [0], region := e.region }
     let b : List CombineEntry := (List.range 31).map (fun i => { o with asid := 10 + i })
     let s : State := { figured 0x82 { path := [e] } with combining := o :: b }
     s.combining = [] ++ o :: b ∧ o ∉ b ∧ (s.combining.filter (fun z => z.slice == sliceOf e.pa)).length = 32 ∧
     (∀ z ∈ s.combining, z.asid ≠ e.asid) ∧ o.slice = sliceOf e.pa ∧ s.struck = [] ∧ s.poisoned = [] ∧ s.tileFigs = [] ∧
     figTile (figFlags (s.figEntry o.region.figTable o.slot)) = false ∧
     (match figRun (s.figEntry o.region.figTable o.slot) (s.readBytes 0x40000 128) 0x70 1 with
      | .ok r => r.img.length == 128
      | .fault _ => false) = true) ∧
    figTile (figFlags ((figured 0x83 {}).figEntry 0x8000 0)) = true ∧ combinable (figFlags ((figured 0x83 {}).figEntry 0x8000 0)) none = true ∧
    (0x40070 / 256 ≠ 0x50070 / 256) ∧ (255 : Nat) < 2 ^ figW 0x82 := by decide +kernel

/-- A waiterless page entry with its filter entry; a vector that its function lacks. -/
theorem wit_waiterless :
    (let e : StageEntry := { fq := 0x4000, page := 7 }
     let f : FilterEntry := { fq := 0x4000, page := 7 }
     e.record = none ∧ e.waiters = [] ∧ dieOfCore 0 = e.die ∧ f.asid = e.asid ∧ f.fq = e.fq ∧ f.page = e.page ∧ f.waiters = []) ∧
    (let s : State := { s0 with hbm := [(0x400D, 1)] }
     vectorsOf 0 ≤ s.readLe (0x4000 + 0x0C) 4 % 65536 ∧ s.readLe (0x4000 + 0x0C) 4 / 65536 % 2 = 0) := by decide

/-- A halted module that was brought up, and one that never was. -/
theorem wit_never_up :
    (∀ b ∈ [true, false], ∃ m : ModuleS, m.status = 1 ∧ m.command = 2 ∧ m.power = .halted ∧ m.booted = b) := by
  intro b _
  exact ⟨{ status := 1, command := 2, power := .halted, booted := b }, rfl, rfl, rfl, rfl⟩

/-- A line pinned for the space of a TLBINV ALL, and its pin table entry; an element of 16 bytes, as BIDF's. -/
theorem wit_unpinned :
    (let s : State := { s0 with l2 := [(5, { pinned := true, asid := 0 })] }
     ∃ x, tabFind s.l2 5 = some x ∧ x.asid = 0 ∧ x.pinned = true) ∧
    ({ loadAt .scalar .waiting with size := 16 } : LoadOp).size = 16 ∧ 0x40070 % 128 + 16 ≤ 128 := by
  refine ⟨⟨{ pinned := true, asid := 0 }, rfl, rfl, rfl⟩, rfl, by decide⟩

/-- A TILE figure behind a store to its granule's other line; a figure that computes no offset, and what it reaches. -/
theorem wit_granules :
    let img (fl : Nat) : List Byte := leBytes 1 fl ++ leBytes 15 2 ++ leBytes 4 (2 ^ 26 + 2 ^ 16 + 8) ++ leBytes 108 0
    let a : PodMsg := podMsg (.write [(0, 1)]) 0 3
    let f (fl : Nat) : PodMsg := podMsg (.figure 0 (img fl) 5 none none) 200 3
    ((img 0x81).getD 0 0).getLsbD 0 = true ∧ a.off / 256 = (f 0x81).off / 256 ∧ a.off / 128 ≠ (f 0x80).off / 128 ∧
    (f 0x80).reach = some [208] ∧ (∀ i ∈ [208], i ∉ [0]) := by decide

/-- Threads of a squad that is already retiring, or not resident: EXIT and RFT only move on. -/
theorem wit_exits_once :
    ({ sq0 with exiting := true } : Squad).exiting = true ∧ sq0.isResident = true ∧ ({ sq0 with place := .retired } : Squad).isResident = false ∧
    (let sq : Squad := { placedSquad true with xvpc := (List.range 32).map (fun i => (i, exited)) }
     sq.mgmt = false ∧ sq.isResident = true ∧ sq.exiting = false ∧ ∀ th < 32, tabGet 0 sq.xvpc th = 0xFFFFFFFF) := by decide

end Sys2Proof.Tests
end

section
/-!
Typed integer arithmetic (R81, R82).
-/
namespace Sys2Proof.Proofs.VectorInteger
open Sys2Proof Sys2Proof.Machine

/-! ### Values of W-bit patterns -/

/-- A power of two is positive, as an integer. -/
theorem two_pow_pos_int (W : Nat) : (0 : Int) < 2 ^ W := Int.pow_pos (by decide)

/-- A power of two, as an integer. -/
theorem two_pow_cast (W : Nat) : ((2 ^ W : Nat) : Int) = 2 ^ W := Int.natCast_pow 2 W

/-- R77. A value mod 2^W, as an integer. -/
theorem modW_cast (W : Nat) (v : Int) : (modW W v : Int) = v % 2 ^ W :=
  Int.toNat_of_nonneg (Int.emod_nonneg _ (Int.ne_of_gt (two_pow_pos_int W)))

/-- A pattern mod 2^W keeps its value when it is written. -/
theorem modW_cast_mod (W : Nat) (v : Int) : ((modW W v % 2 ^ W : Nat) : Int) = v % 2 ^ W := by
  push_cast
  rw [modW_cast, Int.emod_emod]

/-- R81. A signed saturated value, as it is written. -/
theorem clampS_cast_mod (W : Nat) (v : Int) : ((clampS W v % 2 ^ W : Nat) : Int) = clampSigned W v % 2 ^ W :=
  modW_cast_mod W _

/-- R81. An unsigned saturated value, as it is written: it is below 2^W. -/
theorem clampU_cast_mod (W : Nat) (v : Int) : ((clampU W v % 2 ^ W : Nat) : Int) = clampUnsigned W v := by
  have hpos := two_pow_pos_int W
  have hcast : (clampU W v : Int) = clampUnsigned W v := Int.toNat_of_nonneg (by omega)
  push_cast
  rw [hcast, Int.emod_eq_of_lt] <;> unfold clampUnsigned <;> omega

/-- R81. The pattern of the lesser value, as it is written. -/
theorem pick_lesser_cast_mod {W x y : Nat} (val : Nat → Int) (hx : x < 2 ^ W) (hy : y < 2 ^ W) :
    ((pick val false x y % 2 ^ W : Nat) : Int) = if val x < val y then (x : Int) else y := by
  unfold pick
  by_cases h : val x < val y
  · simp [h, Nat.mod_eq_of_lt hx]
  · simp [h, Nat.mod_eq_of_lt hy]

/-- R81. The pattern of the greater value, as it is written. -/
theorem pick_greater_cast_mod {W x y : Nat} (val : Nat → Int) (hx : x < 2 ^ W) (hy : y < 2 ^ W) :
    ((pick val true x y % 2 ^ W : Nat) : Int) = if val x < val y then (y : Int) else x := by
  unfold pick
  by_cases h : val x < val y
  · simp [h, Nat.mod_eq_of_lt hy]
  · simp [h, Nat.mod_eq_of_lt hx]

/-- R82. A left shift, as it is written. -/
theorem shl_cast_mod (W x y : Nat) : ((shl W x y % 2 ^ W : Nat) : Int) = if W ≤ y then 0 else ((x : Int) * 2 ^ y) % 2 ^ W := by
  unfold shl
  split
  · simp
  · push_cast
    rw [Int.emod_emod]

/-- R82. A logical right shift, as it is written. -/
theorem shrN_cast_mod {W x : Nat} (y : Nat) (hx : x < 2 ^ W) :
    ((shrN W x y % 2 ^ W : Nat) : Int) = if W ≤ y then 0 else (x : Int) / 2 ^ y := by
  unfold shrN
  split
  · simp
  · rw [Nat.mod_eq_of_lt (Nat.lt_of_le_of_lt (Nat.div_le_self x _) hx)]
    push_cast
    rfl

/-- R77. A signed value of W bits lies in [-2^W, 2^W). -/
theorem sx_bounds {W x : Nat} (hx : x < 2 ^ W) : -(2 ^ W : Int) ≤ sx W x ∧ sx W x < 2 ^ W := by
  have h : (x : Int) < 2 ^ W := by exact_mod_cast hx
  unfold sx
  split <;> omega

/-- R82. An arithmetic right shift by W or more leaves only the sign. -/
theorem sx_div_two_pow {W x y : Nat} (hx : x < 2 ^ W) (hy : W ≤ y) : sx W x / 2 ^ y = if sx W x < 0 then -1 else 0 := by
  obtain ⟨hlow, hhigh⟩ := sx_bounds hx
  have hle : (2 : Int) ^ W ≤ 2 ^ y := by exact_mod_cast Nat.pow_le_pow_right (by decide : 0 < 2) hy
  split
  · exact Int.ediv_eq_neg_one_of_neg_of_le (by assumption) (by omega)
  · exact Int.ediv_eq_zero_of_lt (by omega) (by omega)

/-- R82. An arithmetic right shift, as it is written: a count of W or more leaves only the sign. -/
theorem shrI_cast_mod {W x : Nat} (y : Nat) (hx : x < 2 ^ W) :
    ((shrI W x y % 2 ^ W : Nat) : Int) =
      if W ≤ y then (if sx W x < 0 then 2 ^ W - 1 else 0) else (sx W x / 2 ^ y) % 2 ^ W := by
  unfold shrI
  rw [modW_cast_mod]
  by_cases hy : W ≤ y
  · have hpos := two_pow_pos_int W
    rw [if_pos hy, Nat.min_eq_right hy, sx_div_two_pow hx (Nat.le_refl W)]
    split
    · rw [← Int.add_emod_right, Int.emod_eq_of_lt] <;> omega
    · rfl
  · rw [if_neg hy, Nat.min_eq_left (by omega)]

/-- R81. The high half of an unsigned product, as it is written. -/
theorem mulHigh_cast_mod {W x y : Nat} (hx : x < 2 ^ W) (hy : y < 2 ^ W) :
    ((x * y / 2 ^ W % 2 ^ W : Nat) : Int) = (x : Int) * y / 2 ^ W := by
  have hlt : x * y / 2 ^ W < 2 ^ W := Nat.div_lt_of_lt_mul (Nat.mul_lt_mul'' hx hy)
  rw [Nat.mod_eq_of_lt hlt]
  push_cast
  rfl

/-- R81. The unsigned rounding average, as it is written. -/
theorem average_cast_mod {W x y : Nat} (hx : x < 2 ^ W) (hy : y < 2 ^ W) :
    (((x + y + 1) / 2 % 2 ^ W : Nat) : Int) = ((x : Int) + y + 1) / 2 := by
  rw [Nat.mod_eq_of_lt (by omega)]
  push_cast
  rfl

/-- R81, R82. Each typed integer word of two sources is an elementwise word whose function writes what its row says. -/
theorem arithmeticRows_vecBinary (w : BitVec 2) : ∀ row ∈ arithmeticRows (widthOf w), ∃ f : Nat → Nat → Nat,
    (∀ g n m d a b s, exec (row.1 w g n m d a b) s = s.vecBinary (widthOf w) g n m d a b f) ∧
    ∀ x y, x < 2 ^ widthOf w → y < 2 ^ widthOf w → ((f x y % 2 ^ widthOf w : Nat) : Int) = row.2 x y := by
  generalize hW : widthOf w = W
  simp only [arithmeticRows, List.forall_mem_cons, List.not_mem_nil, false_imp_iff, implies_true, and_true]
  subst hW
  refine ⟨?add, ?sub, ?mul, ?mulhI, ?mulhN, ?addISat, ?addNSat, ?subISat, ?subNSat, ?avgI, ?avgN, ?minI, ?minN, ?maxI, ?maxN,
    ?shl, ?shrN, ?shrI⟩
  case add => exact ⟨fun x y => (x + y) % 2 ^ widthOf w, fun _ _ _ _ _ _ _ => rfl, fun x y _ _ => by push_cast; rw [Int.emod_emod]⟩
  case sub => exact ⟨fun x y => modW (widthOf w) (zx x - zx y), fun _ _ _ _ _ _ _ => rfl, fun x y _ _ => modW_cast_mod _ _⟩
  case mul => exact ⟨fun x y => x * y % 2 ^ widthOf w, fun _ _ _ _ _ _ _ => rfl, fun x y _ _ => by push_cast; rw [Int.emod_emod]⟩
  case mulhI =>
    exact ⟨fun x y => modW (widthOf w) (sx (widthOf w) x * sx (widthOf w) y / 2 ^ widthOf w), fun _ _ _ _ _ _ _ => rfl,
      fun x y _ _ => modW_cast_mod _ _⟩
  case mulhN => exact ⟨fun x y => x * y / 2 ^ widthOf w, fun _ _ _ _ _ _ _ => rfl, fun x y => mulHigh_cast_mod⟩
  case addISat =>
    exact ⟨fun x y => clampS (widthOf w) (sx (widthOf w) x + sx (widthOf w) y), fun _ _ _ _ _ _ _ => rfl,
      fun x y _ _ => clampS_cast_mod _ _⟩
  case addNSat => exact ⟨fun x y => clampU (widthOf w) (zx x + zx y), fun _ _ _ _ _ _ _ => rfl, fun x y _ _ => clampU_cast_mod _ _⟩
  case subISat =>
    exact ⟨fun x y => clampS (widthOf w) (sx (widthOf w) x - sx (widthOf w) y), fun _ _ _ _ _ _ _ => rfl,
      fun x y _ _ => clampS_cast_mod _ _⟩
  case subNSat => exact ⟨fun x y => clampU (widthOf w) (zx x - zx y), fun _ _ _ _ _ _ _ => rfl, fun x y _ _ => clampU_cast_mod _ _⟩
  case avgI =>
    exact ⟨fun x y => modW (widthOf w) ((sx (widthOf w) x + sx (widthOf w) y + 1) / 2), fun _ _ _ _ _ _ _ => rfl,
      fun x y _ _ => modW_cast_mod _ _⟩
  case avgN => exact ⟨fun x y => (x + y + 1) / 2, fun _ _ _ _ _ _ _ => rfl, fun x y => average_cast_mod⟩
  case minI => exact ⟨pick (sx (widthOf w)) false, fun _ _ _ _ _ _ _ => rfl, fun x y => pick_lesser_cast_mod _⟩
  case minN => exact ⟨pick zx false, fun _ _ _ _ _ _ _ => rfl, fun x y hx hy => by
    simpa only [zx, Int.ofNat_lt] using pick_lesser_cast_mod zx hx hy⟩
  case maxI => exact ⟨pick (sx (widthOf w)) true, fun _ _ _ _ _ _ _ => rfl, fun x y => pick_greater_cast_mod _⟩
  case maxN => exact ⟨pick zx true, fun _ _ _ _ _ _ _ => rfl, fun x y hx hy => by
    simpa only [zx, Int.ofNat_lt] using pick_greater_cast_mod zx hx hy⟩
  case shl => exact ⟨shl (widthOf w), fun _ _ _ _ _ _ _ => rfl, fun x y _ _ => shl_cast_mod _ x y⟩
  case shrN => exact ⟨shrN (widthOf w), fun _ _ _ _ _ _ _ => rfl, fun x y hx _ => shrN_cast_mod y hx⟩
  case shrI => exact ⟨shrI (widthOf w), fun _ _ _ _ _ _ _ => rfl, fun x y hx _ => shrI_cast_mod y hx⟩

/-- Settles O8: every row is an elementwise word with its row's function, and ABS one of a single source. -/
theorem integerArithmetic : Obligations.IntegerArithmetic := by
  unfold Obligations.IntegerArithmetic
  refine ⟨fun s q sq e w g n m d a b hcur hname row hrow => ?_, fun s q sq e w g n d a hcur hname => ?_⟩
  · obtain ⟨f, hexec, hval⟩ := arithmeticRows_vecBinary w row hrow
    obtain ⟨t, sq', hnext, hran, hread⟩ := State.vecBinary_ran hcur (Nat.le_of_eq (widthOf_mul w)) g n m d a b f hname
    refine ⟨t, sq', (hexec g n m d a b s).trans hnext, hran, fun th hth j hj => ?_⟩
    rw [hread th hth j hj, Squad.elementOn]
    split
    · exact hval _ _ (subGet_lt _ _ _) (subGet_lt _ _ _)
    · rfl
  · obtain ⟨t, sq', hnext, hran, hread⟩ := State.vecUnary_ran hcur (Nat.le_of_eq (widthOf_mul w)) g n d a
      (fun x => modW (widthOf w) (sx (widthOf w) x).natAbs) hname
    refine ⟨t, sq', hnext, hran, fun th hth j hj => ?_⟩
    rw [hread th hth j hj, Squad.elementOn]
    split
    · exact modW_cast_mod _ _
    · rfl

end Sys2Proof.Proofs.VectorInteger
end

section
/-!
Typed compares, predicate logic and the scalar words (R86 to R89).
-/
namespace Sys2Proof.Proofs.VectorInteger
open Sys2Proof Sys2Proof.Machine

/-! ### Compares and predicate logic -/

/-- R35. A width of the integer words is a whole number of bytes, and it divides the eight guard bits evenly. -/
theorem widthOf_bytes (w : BitVec 2) : ∃ k, widthOf w = 8 * k ∧ 0 < k ∧ k * (8 / k) = 8 := by
  refine ⟨2 ^ w.toNat, rfl, Nat.two_pow_pos _, ?_⟩
  have h : ∀ w : BitVec 2, 2 ^ w.toNat * (8 / 2 ^ w.toNat) = 8 := by decide
  exact h w

/-- R59. In bytes, the guard bit of a sub-element is that of its lowest byte. -/
theorem elemOn_bytes (k : Nat) (gb : Byte) (j : Nat) : elemOn (8 * k) gb j = gb.getLsbD (j * k) := by
  rw [elemOn, Nat.mul_left_comm, Nat.mul_div_cancel_left _ (by omega)]

/-- R86. Each typed compare is a word of the one compare operation, with its row's function. -/
theorem compareRows_vecCompare (w : BitVec 2) : ∀ row ∈ compareRows (widthOf w),
    ∀ g n p a b s, exec (row.1 w g n p a b) s = s.vecCompare (widthOf w) g n p a b row.2 := by
  generalize hW : widthOf w = W
  simp only [compareRows, List.forall_mem_cons, List.not_mem_nil, false_imp_iff, implies_true, and_true]
  subst hW
  refine ⟨?cmpeq, ?cmpltI, ?cmpltN, ?cmpleI, ?cmpleN, ?cmpne⟩
  case cmpeq => exact fun _ _ _ _ _ _ => rfl
  case cmpltI => exact fun _ _ _ _ _ _ => rfl
  case cmpltN => exact fun _ _ _ _ _ _ => rfl
  case cmpleI => exact fun _ _ _ _ _ _ => rfl
  case cmpleN => exact fun _ _ _ _ _ _ => rfl
  case cmpne =>
    have hne : (fun x y : Nat => x != y) = fun x y => decide (x ≠ y) := by
      funext x y
      exact decide_not.symm
    exact fun g n p a b s => congrArg (s.vecCompare (widthOf w) g n p a b) hne

/-- R87. Each predicate word of two sources is a bytewise word whose function acts on every bit as its row says. -/
theorem predicateRows_predLogic : ∀ row ∈ predicateRows, ∃ f : Byte → Byte → Byte,
    (∀ g n p a b s, exec (row.1 g n p a b) s = s.predLogic g n p a b f) ∧
    ∀ x y, ∀ k < 8, (f x y).getLsbD k = row.2 (x.getLsbD k) (y.getLsbD k) := by
  simp only [predicateRows, List.forall_mem_cons, List.not_mem_nil, false_imp_iff, implies_true, and_true]
  refine ⟨?pand, ?por, ?pxor, ?pandn⟩
  case pand => exact ⟨fun x y => x &&& y, fun _ _ _ _ _ _ => rfl, fun _ _ _ _ => BitVec.getLsbD_and⟩
  case por => exact ⟨fun x y => x ||| y, fun _ _ _ _ _ _ => rfl, fun _ _ _ _ => BitVec.getLsbD_or⟩
  case pxor => exact ⟨fun x y => x ^^^ y, fun _ _ _ _ _ _ => rfl, fun _ _ _ _ => BitVec.getLsbD_xor⟩
  case pandn => exact ⟨fun x y => x &&& ~~~ y, fun _ _ _ _ _ _ => rfl, fun _ _ k hk => by simp [hk]⟩

/-- R87. A predicate word whose byte function acts bit by bit writes the enabled bits of pd. -/
theorem predLogic_writes {s : State} {q : Nat} {sq : Squad} {e : Exec} (hcur : s.current = some (q, sq, e)) (g : BitVec 4)
    (n : BitVec 1) (p : BitVec 7) (a b : BitVec 6) {f : Byte → Byte → Byte} {bit : Nat → Nat → Bool}
    (hbit : ∀ th < 32, ∀ k < 8, (f (sq.readP a.toNat th) (sq.readP b.toNat th)).getLsbD k = bit th k) :
    ∃ t sq', s.predLogic g n p a b f = .next t ∧ PredRan s t q sq sq' p.toNat (sq.activeE e g n 8 8).length ∧
      ∀ th < 32, ∀ k < 8, (sq'.readP p.toNat th).getLsbD k =
        if p ≠ 0 ∧ sq.elementOn e g n 8 th k then bit th k else (sq.readP p.toNat th).getLsbD k := by
  obtain ⟨t, sq', hnext, hran, hread⟩ := State.predLogic_ran hcur g n p a b f
  refine ⟨t, sq', hnext, hran, fun th hth k hk => ?_⟩
  have hon : elemOn 8 (sq.guard g n th) k = (sq.guard g n th).getLsbD k := by simpa using elemOn_bytes 1 (sq.guard g n th) k
  rw [hread th hth k hk, hbit th hth k hk]
  simp only [Squad.elementOn, hon, Bool.and_eq_true]

/-- Settles O10: each compare and each predicate word is its shared operation with its row's function. -/
theorem predicateWords : Obligations.PredicateWords := by
  unfold Obligations.PredicateWords
  refine ⟨fun s q sq e w g n p a b hcur hname row hrow => ?_, fun s q sq e g n p a b hcur => ⟨fun row hrow => ?_, ?_⟩⟩
  · have hexec := compareRows_vecCompare w row hrow g n p a b s
    obtain ⟨k, hw, hpos, hdiv⟩ := widthOf_bytes w
    rw [hexec, hw]
    obtain ⟨t, sq', hnext, hran, hread⟩ := State.vecCompare_ran hcur hpos hdiv g n p a b row.2 hname
    refine ⟨t, sq', hnext, hran, fun th hth i hi => ?_⟩
    rw [hread th hth i hi, Nat.mul_div_mul_left i k (by omega)]
    simp only [Squad.elementOn, elemOn_bytes, Bool.and_eq_true]
  · obtain ⟨f, hexec, hbit⟩ := predicateRows_predLogic row hrow
    rw [hexec]
    exact predLogic_writes hcur g n p a b fun th _ k hk => hbit _ _ k hk
  · exact predLogic_writes (f := fun x _ => ~~~ x) hcur g n p a 0 fun th _ k hk => by simp [hk]

/-! ### Scalar words -/

/-- R77. The signed value of a pattern is that of its bit vector. -/
theorem sx_toNat {W : Nat} (hW : 0 < W) (x : BitVec W) : sx W x.toNat = x.toInt := by
  have htwo : 2 ^ W = 2 * 2 ^ (W - 1) := by rw [Nat.mul_comm, ← Nat.pow_succ, show (W - 1).succ = W by omega]
  have hiff : x.toNat < 2 ^ (W - 1) ↔ 2 * x.toNat < 2 ^ W := by omega
  rw [sx, BitVec.toInt_eq_toNat_cond, two_pow_cast]
  simp only [hiff]

/-- R77. A value mod 2^64, as a word. -/
theorem ofNat_modW (v : Int) : BitVec.ofNat 64 (modW 64 v) = BitVec.ofInt 64 v := by
  apply BitVec.eq_of_toNat_eq
  rw [BitVec.toNat_ofInt, BitVec.toNat_ofNat, modW]
  omega

/-- R82. A left shift of a word; a count of 64 or more gives 0. -/
theorem ofNat_shl (x y : Reg) : BitVec.ofNat 64 (shl 64 x.toNat y.toNat) = x <<< y.toNat := by
  unfold shl
  split
  · next h => rw [BitVec.shiftLeft_eq_zero h]
  · apply BitVec.eq_of_toNat_eq
    simp [Nat.shiftLeft_eq]

/-- R82. A logical right shift of a word; a count of 64 or more gives 0. -/
theorem ofNat_shrN (x y : Reg) : BitVec.ofNat 64 (shrN 64 x.toNat y.toNat) = x >>> y.toNat := by
  unfold shrN
  split
  · next h => rw [BitVec.ushiftRight_eq_zero h]
  · apply BitVec.eq_of_toNat_eq
    rw [BitVec.toNat_ofNat, BitVec.toNat_ushiftRight, Nat.shiftRight_eq_div_pow,
      Nat.mod_eq_of_lt (Nat.lt_of_le_of_lt (Nat.div_le_self _ _) x.isLt)]

/-- R82. An arithmetic right shift of a word; a count of 64 or more leaves only the sign. -/
theorem ofNat_shrI (x y : Reg) : BitVec.ofNat 64 (shrI 64 x.toNat y.toNat) = x.sshiftRight y.toNat := by
  have hcount : sx 64 x.toNat / 2 ^ min y.toNat 64 = sx 64 x.toNat / 2 ^ y.toNat := by
    rcases Nat.le_total y.toNat 64 with h | h
    · rw [Nat.min_eq_left h]
    · rw [Nat.min_eq_right h, sx_div_two_pow x.isLt (Nat.le_refl _), sx_div_two_pow x.isLt h]
  rw [shrI, hcount, sx_toNat (by decide), BitVec.sshiftRight, Int.shiftRight_eq_div_pow, two_pow_cast, ofNat_modW]

/-- R81. The pattern of the lesser of two words. -/
theorem ofNat_pick_lesser (val : Nat → Int) (x y : Reg) :
    BitVec.ofNat 64 (pick val false x.toNat y.toNat) = if val x.toNat < val y.toNat then x else y := by
  unfold pick
  by_cases h : val x.toNat < val y.toNat <;> simp [h]

/-- R81. The pattern of the greater of two words. -/
theorem ofNat_pick_greater (val : Nat → Int) (x y : Reg) :
    BitVec.ofNat 64 (pick val true x.toNat y.toNat) = if val x.toNat < val y.toNat then y else x := by
  unfold pick
  by_cases h : val x.toNat < val y.toNat <;> simp [h]

/-- R88. Each scalar word of two sources is a scalar form whose value is its row's. -/
theorem scalarRows_scalarOp : ∀ row ∈ scalarRows, ∃ f : Reg → Reg → Reg,
    (∀ d a b s, exec (row.1 d a b) s = s.scalarOp d (fun sq => f (sq.readS a.toNat) (sq.readS b.toNat))) ∧
    ∀ x y, f x y = row.2 x y := by
  simp only [scalarRows, List.forall_mem_cons, List.not_mem_nil, false_imp_iff, implies_true, and_true]
  refine ⟨?add, ?sub, ?mul, ?and, ?or, ?xor, ?shl, ?shrN, ?shrI, ?minI, ?maxI, ?minN, ?maxN⟩
  case add => exact ⟨fun x y => x + y, fun _ _ _ _ => rfl, fun _ _ => rfl⟩
  case sub => exact ⟨fun x y => x - y, fun _ _ _ _ => rfl, fun _ _ => rfl⟩
  case mul => exact ⟨fun x y => x * y, fun _ _ _ _ => rfl, fun _ _ => rfl⟩
  case and => exact ⟨fun x y => x &&& y, fun _ _ _ _ => rfl, fun _ _ => rfl⟩
  case or => exact ⟨fun x y => x ||| y, fun _ _ _ _ => rfl, fun _ _ => rfl⟩
  case xor => exact ⟨fun x y => x ^^^ y, fun _ _ _ _ => rfl, fun _ _ => rfl⟩
  case shl => exact ⟨fun x y => BitVec.ofNat 64 (shl 64 x.toNat y.toNat), fun _ _ _ _ => rfl, ofNat_shl⟩
  case shrN => exact ⟨fun x y => BitVec.ofNat 64 (shrN 64 x.toNat y.toNat), fun _ _ _ _ => rfl, ofNat_shrN⟩
  case shrI => exact ⟨fun x y => BitVec.ofNat 64 (shrI 64 x.toNat y.toNat), fun _ _ _ _ => rfl, ofNat_shrI⟩
  case minI =>
    exact ⟨fun x y => BitVec.ofNat 64 (pick (sx 64) false x.toNat y.toNat), fun _ _ _ _ => rfl, fun x y => by
      simp only [ofNat_pick_lesser, sx_toNat (by decide : 0 < 64)]⟩
  case maxI =>
    exact ⟨fun x y => BitVec.ofNat 64 (pick (sx 64) true x.toNat y.toNat), fun _ _ _ _ => rfl, fun x y => by
      simp only [ofNat_pick_greater, sx_toNat (by decide : 0 < 64)]⟩
  case minN =>
    exact ⟨fun x y => BitVec.ofNat 64 (pick zx false x.toNat y.toNat), fun _ _ _ _ => rfl, fun x y => by
      simp only [ofNat_pick_lesser, zx, Int.ofNat_lt]⟩
  case maxN =>
    exact ⟨fun x y => BitVec.ofNat 64 (pick zx true x.toNat y.toNat), fun _ _ _ _ => rfl, fun x y => by
      simp only [ofNat_pick_greater, zx, Int.ofNat_lt]⟩

/-- R89. A word that writes one byte into pd in all 32 threads. -/
theorem writePAll_ran {s : State} {q : Nat} {sq : Squad} (hfind : tabFind s.squads q = some sq) (p : BitVec 7) (c : Bool) :
    ∃ sq', PredRan s ((s.writePAll q p.toNat (predByte c)).charge sq 1) q sq sq' p.toNat 1 ∧
      ∀ th < 32, sq'.readP p.toNat th = if p = 0 then 0xFF else if c then 0xFF else 0x00 := by
  obtain ⟨sq', hran, hread⟩ := predRan_writePs s hfind p.toNat threads (fun _ => mem_threads.1) List.nodup_range
    (fun _ => predByte c) 1
  refine ⟨sq', hran, fun th hth => ?_⟩
  rw [hread th hth]
  by_cases hp : p = 0
  · subst hp
    rfl
  · have hp' : p.toNat ≠ 0 := fun h0 => hp (BitVec.eq_of_toNat_eq h0)
    rw [if_pos ⟨hp', mem_threads.2 hth⟩, if_neg hp, predByte]

/-- Settles O11: the scalar words are the scalar form with their rows' values, and a scalar compare writes all of pd. -/
theorem scalarWords : Obligations.ScalarWords := by
  unfold Obligations.ScalarWords
  refine ⟨fun s q sq e d a b m lit hcur => ⟨fun row hrow => ?_, ?_⟩, fun s q sq e p a b hcur => ⟨?_, ?_⟩⟩
  · obtain ⟨f, hexec, hval⟩ := scalarRows_scalarOp row hrow
    rw [hexec, ← hval]
    exact State.scalarOp_ran hcur d _
  · exact State.scalarOp_ran hcur d (fun _ => movlValue m lit)
  · obtain ⟨sq', hran, hread⟩ := writePAll_ran (State.current_find hcur).1 p (sq.readS a.toNat == sq.readS b.toNat)
    exact ⟨_, sq', State.word_next hcur _, hran, hread⟩
  · obtain ⟨sq', hran, hread⟩ := writePAll_ran (State.current_find hcur).1 p ((sq.readS a.toNat).slt (sq.readS b.toNat))
    exact ⟨_, sq', State.word_next hcur _, hran, hread⟩

end Sys2Proof.Proofs.VectorInteger
end

section
/-!
Bytewise logic, SEL and the 64-bit bit words (R82 to R85).
-/
namespace Sys2Proof.Proofs.VectorInteger
open Sys2Proof Sys2Proof.Machine

/-- R67. A word that names fewer registers may name them. -/
theorem mayName_of_subset {s : State} {q : Nat} {sq : Squad} {rs rs' : List Nat} (h : s.mayName q sq rs) (hsub : rs' ⊆ rs) :
    s.mayName q sq rs' :=
  h.imp_right fun hlow r hr => hlow r (hsub hr)

/-! ### Bytes of a register -/

/-- R77. Bit i of a register is bit i mod 8 of its byte i / 8. -/
theorem subGet_byte_testBit (x : Reg) (i : Nat) : (subGet 8 x (i / 8)).testBit (i % 8) = x.getLsbD i := by
  rw [subGet_testBit, Nat.div_add_mod, decide_eq_true (Nat.mod_lt i (by omega)), Bool.true_and]

/-- A register whose bytes were written where `on` holds, bit by bit. -/
theorem getLsbD_of_bytes {r old : Reg} {on : Nat → Bool} {v : Nat → Nat}
    (hbytes : ∀ j < 8, subGet 8 r j = if on j then v j else subGet 8 old j) {i : Nat} (hi : i < 64) :
    r.getLsbD i = if on (i / 8) then (v (i / 8)).testBit (i % 8) else old.getLsbD i := by
  rw [← subGet_byte_testBit r, hbytes _ (by omega)]
  split
  · rfl
  · rw [subGet_byte_testBit]

/-- R84. The complement of a byte, bit by bit. -/
theorem complement_testBit {x : Nat} (hx : x < 2 ^ 8) {k : Nat} (hk : k < 8) : (255 - x).testBit k = !x.testBit k := by
  have h := Nat.testBit_two_pow_sub_succ hx k
  rw [show 2 ^ 8 - (x + 1) = 255 - x by omega] at h
  simpa [hk] using h

/-- R84. Each logic word of two sources is a bytewise word whose function acts on every bit as its row says. -/
theorem logicRows_vecBinary : ∀ row ∈ logicRows, ∃ f : Nat → Nat → Nat,
    (∀ g n m d a b s, exec (row.1 g n m d a b) s = s.vecBinary 8 g n m d a b f) ∧
    ∀ x y, y < 2 ^ 8 → ∀ k < 8, (f x y).testBit k = row.2 (x.testBit k) (y.testBit k) := by
  simp only [logicRows, List.forall_mem_cons, List.not_mem_nil, false_imp_iff, implies_true, and_true]
  refine ⟨?and, ?or, ?xor, ?andn⟩
  case and => exact ⟨fun x y => x &&& y, fun _ _ _ _ _ _ _ => rfl, fun x y _ k _ => Nat.testBit_and x y k⟩
  case or => exact ⟨fun x y => x ||| y, fun _ _ _ _ _ _ _ => rfl, fun x y _ k _ => Nat.testBit_or x y k⟩
  case xor => exact ⟨fun x y => x ^^^ y, fun _ _ _ _ _ _ _ => rfl, fun x y _ k _ => Nat.testBit_xor x y k⟩
  case andn =>
    exact ⟨fun x y => x &&& (255 - y), fun _ _ _ _ _ _ _ => rfl, fun x y hy k hk => by
      rw [Nat.testBit_and, complement_testBit hy hk]⟩

/-- R85. SEL in a thread, bit by bit. -/
theorem selBytes_getLsbD (p : Byte) (x y : Reg) {i : Nat} (hi : i < 64) :
    (selBytes p x y).getLsbD i = if p.getLsbD (i / 8) then x.getLsbD i else y.getLsbD i := by
  have hbyte : subGet 8 (selBytes p x y) (i / 8) = if p.getLsbD (i / 8) then subGet 8 x (i / 8) else subGet 8 y (i / 8) := by
    rw [selBytes, subGet_build 8 8 (by omega) 0 (fun k => if p.getLsbD k then subGet 8 x k else subGet 8 y k) _ (by omega)]
    exact Nat.mod_eq_of_lt (by split <;> exact subGet_lt _ _ _)
  rw [← subGet_byte_testBit, hbyte]
  split <;> rw [subGet_byte_testBit]

/-- R29. The threads in the clause. -/
theorem mem_maskThreads {m : Word} {th : Nat} (hth : th < 32) : th ∈ maskThreads m ↔ inMask m th = true := by
  simp [maskThreads, mem_threads, hth]

/-- R85. SEL writes every thread still in the clause, and costs one clock for each. -/
theorem execSel_ran {s : State} {q : Nat} {sq : Squad} {e : Exec} (hcur : s.current = some (q, sq, e)) (g : BitVec 4) (n m : BitVec 1)
    (d a b : BitVec 6) (hname : s.mayName q sq (a.toNat :: regsB m b ++ [d.toNat])) :
    ∃ t sq', execSel g n m d a b s = .next t ∧ VecRan s t q sq sq' d.toNat (maskThreads e.mask).length ∧
      ∀ th < 32, t.readV sq' d.toNat th =
        if inMask e.mask th then selBytes (sq.guard g n th) (s.readV sq a.toNat th) (s.srcB sq m b th) else s.readV sq d.toNat th := by
  unfold execSel
  rw [State.wordV_next hcur (State.xsetReg_none.2 hname)]
  obtain ⟨sq', hran, hread⟩ := vecRan_writeVs s (State.current_find hcur).1 d.isLt (maskThreads e.mask) maskThreads_threads.1
    maskThreads_threads.2 (fun t => selBytes (sq.guard g n t) (s.readV sq a.toNat t) (s.srcB sq m b t)) (maskThreads e.mask).length
  refine ⟨_, sq', rfl, hran, fun th hth => (hread th hth).trans ?_⟩
  simp only [mem_maskThreads hth]

/-! ### Words of one 64-bit sub-element -/

/-- What a word `o` of one 64-bit sub-element leaves, whose value in an enabled thread satisfies `val`. -/
def Writes64 (s : State) (q : Nat) (sq : Squad) (e : Exec) (g : BitVec 4) (n : BitVec 1) (d : BitVec 6)
    (o : Host.Outcome State Fault Refusal) (val : Nat → Reg → Prop) : Prop :=
  ∃ t sq', o = .next t ∧ VecRan s t q sq sq' d.toNat (sq.activeE e g n 64 1).length ∧
    ∀ th < 32, if sq.elementOn e g n 64 th 0 then val th (t.readV sq' d.toNat th) else t.readV sq' d.toNat th = s.readV sq d.toNat th

/-- R77. The one sub-element of 64 bits is the register. -/
theorem subGet_full (x : Reg) : subGet 64 x 0 = x.toNat := by
  rw [subGet, Nat.mul_zero, Nat.pow_zero, Nat.div_one, Nat.mod_eq_of_lt x.isLt]

/-- A register whose one 64-bit sub-element was written where `on` holds. -/
theorem full_write {r old : Reg} {on : Bool} {v : Nat} {P : Reg → Prop}
    (hread : subGet 64 r 0 = if on then v % 2 ^ 64 else subGet 64 old 0) (hval : P (BitVec.ofNat 64 v)) :
    if on then P r else r = old := by
  rw [subGet_full, subGet_full] at hread
  split
  · next hon =>
    have hr : r = BitVec.ofNat 64 v := BitVec.eq_of_toNat_eq (by simpa [hon] using hread)
    rwa [hr]
  · next hon => exact BitVec.eq_of_toNat_eq (by simpa [hon] using hread)

section
variable {s : State} {q : Nat} {sq : Squad} {e : Exec} (hcur : s.current = some (q, sq, e)) {g : BitVec 4} {n m : BitVec 1}
  {d a b : BitVec 6} {val : Nat → Reg → Prop}
include hcur

/-- R82, R83. A word of sources a and b. -/
theorem vecBinary_writes64 (hname : s.mayName q sq (a.toNat :: regsB m b ++ [d.toNat])) {f : Nat → Nat → Nat}
    (hval : ∀ th, val th (BitVec.ofNat 64 (f (s.readV sq a.toNat th).toNat (s.srcB sq m b th).toNat))) :
    Writes64 s q sq e g n d (s.vecBinary 64 g n m d a b f) val := by
  obtain ⟨t, sq', hnext, hran, hread⟩ := State.vecBinary_ran hcur (W := 64) (by decide) g n m d a b f hname
  refine ⟨t, sq', hnext, hran, fun th hth => full_write (hread th hth 0 (by decide)) ?_⟩
  rw [subGet_full, subGet_full]
  exact hval th

/-- R83. A word of sources a, b and d. -/
theorem vecTernary_writes64 (hname : s.mayName q sq (a.toNat :: regsB m b ++ [d.toNat])) {f : Nat → Nat → Nat → Nat}
    (hval : ∀ th, val th (BitVec.ofNat 64
      (f (s.readV sq a.toNat th).toNat (s.srcB sq m b th).toNat (s.readV sq d.toNat th).toNat))) :
    Writes64 s q sq e g n d (s.vecTernary 64 g n m d a b f) val := by
  obtain ⟨t, sq', hnext, hran, hread⟩ := State.vecTernary_ran hcur (W := 64) (by decide) g n m d a b f hname
  refine ⟨t, sq', hnext, hran, fun th hth => full_write (hread th hth 0 (by decide)) ?_⟩
  rw [subGet_full, subGet_full, subGet_full]
  exact hval th

/-- R83. A word of source a. -/
theorem vecUnary_writes64 (hname : s.mayName q sq [a.toNat, d.toNat]) {f : Nat → Nat}
    (hval : ∀ th, val th (BitVec.ofNat 64 (f (s.readV sq a.toNat th).toNat))) :
    Writes64 s q sq e g n d (s.vecUnary 64 g n d a f) val := by
  obtain ⟨t, sq', hnext, hran, hread⟩ := State.vecUnary_ran hcur (W := 64) (by decide) g n d a f hname
  refine ⟨t, sq', hnext, hran, fun th hth => full_write (hread th hth 0 (by decide)) ?_⟩
  rw [subGet_full]
  exact hval th

/-- R84. A word of a given value. -/
theorem vecMove_writes64 {rs : List Nat} (hname : s.mayName q sq (rs ++ [d.toNat])) {f : Squad → Nat → Reg}
    (hval : ∀ th, val th (f sq th)) : Writes64 s q sq e g n d (s.vecMove 64 g n d rs f) val := by
  obtain ⟨t, sq', hnext, hran, hread⟩ := State.vecMove_ran hcur (W := 64) (by decide) g n d rs f hname
  refine ⟨t, sq', hnext, hran, fun th hth => full_write (v := (f sq th).toNat) ?_ ?_⟩
  · rw [hread th hth 0 (by decide), subGet_full, Nat.mod_eq_of_lt (f sq th).isLt]
    rfl
  · rw [BitVec.ofNat_toNat, BitVec.setWidth_eq]
    exact hval th

end

/-! ### Values of the 64-bit words -/

/-- R82. The rotation. -/
theorem ofNat_rotl (x y : Reg) : BitVec.ofNat 64 (rotl x.toNat y.toNat) = x.rotateLeft (y.extractLsb' 0 6).toNat := by
  have hcount : (y.extractLsb' 0 6).toNat = y.toNat % 64 := by simp
  have hc : y.toNat % 64 < 64 := Nat.mod_lt _ (by decide)
  rw [hcount, rotl]
  generalize y.toNat % 64 = c at hc
  have hlow : x.toNat / 2 ^ (64 - c) < 2 ^ c :=
    Nat.div_lt_of_lt_mul (by rw [← Nat.pow_add, Nat.sub_add_cancel (Nat.le_of_lt hc)]; exact x.isLt)
  apply BitVec.eq_of_toNat_eq
  rw [BitVec.toNat_rotateLeft, Nat.mod_eq_of_lt hc, BitVec.toNat_ofNat, Nat.mod_mod, ← Nat.shiftLeft_eq,
    Nat.shiftLeft_add_eq_or_of_lt hlow, Nat.or_mod_two_pow, Nat.mod_eq_of_lt (Nat.lt_of_le_of_lt (Nat.div_le_self _ _) x.isLt),
    Nat.shiftRight_eq_div_pow]

/-- R83. The population count counts the bits that are on. -/
theorem popNat_eq_length (n v : Nat) : popNat n v = ((List.range n).filter (fun i => v.testBit i)).length := by
  induction n with
  | zero => rfl
  | succ n ih =>
    rw [popNat, List.range_succ, List.foldl_append, List.filter_append, List.length_append, ← ih, ← popNat]
    have hbit := Nat.testBit_eq_decide_div_mod_eq (x := v) (i := n)
    rcases Nat.mod_two_eq_zero_or_one (v / 2 ^ n) with h | h <;> simp [hbit, h]

/-- R83. POPC. -/
theorem toNat_popc (x : Reg) :
    (BitVec.ofNat 64 (popNat 64 x.toNat)).toNat = ((List.range 64).filter (fun i => x.getLsbD i)).length := by
  have hle : popNat 64 x.toNat ≤ 64 := by
    rw [popNat_eq_length]
    exact Nat.le_trans (List.length_filter_le _ _) (Nat.le_of_eq List.length_range)
  rw [BitVec.toNat_ofNat, Nat.mod_eq_of_lt (by omega), popNat_eq_length]
  rfl

/-- R83. CLZ: bit 63 - r is the highest one. -/
theorem clz_spec (x : Reg) : if x = 0 then BitVec.ofNat 64 (clz x.toNat) = 64 else
    (BitVec.ofNat 64 (clz x.toNat)).toNat < 64 ∧ x.getLsbD (63 - (BitVec.ofNat 64 (clz x.toNat)).toNat) ∧
      ∀ i < 64, 63 - (BitVec.ofNat 64 (clz x.toNat)).toNat < i → x.getLsbD i = false := by
  split
  · next hx =>
    subst hx
    rfl
  · next hx =>
    have hne : x.toNat ≠ 0 := fun h => hx (BitVec.eq_of_toNat_eq h)
    have hlog : Nat.log2 x.toNat < 64 := (Nat.log2_lt hne).2 x.isLt
    have hr : (BitVec.ofNat 64 (clz x.toNat)).toNat = 63 - Nat.log2 x.toNat := by
      rw [clz, if_neg hne, BitVec.toNat_ofNat, Nat.mod_eq_of_lt (by omega)]
    rw [hr, show 63 - (63 - Nat.log2 x.toNat) = Nat.log2 x.toNat by omega]
    refine ⟨by omega, Nat.testBit_log2 hne, fun i _ hi => ?_⟩
    exact Nat.testBit_lt_two_pow ((Nat.log2_lt hne).1 hi)

/-- Bit n of a number, both ways. -/
theorem bitOf_eq_testBit (x n : Nat) : bitOf x n = x.testBit n := by
  rw [bitOf, Nat.testBit_eq_decide_div_mod_eq]
  rfl

/-- R83. The search from bit i up stops at the first one, and at 64 where there is none. -/
theorem ctzFrom_spec (x fuel i : Nat) :
    (ctzFrom x fuel i = 64 ∧ ∀ k, i ≤ k → k < i + fuel → x.testBit k = false) ∨
    (ctzFrom x fuel i < i + fuel ∧ x.testBit (ctzFrom x fuel i) = true ∧ ∀ k, i ≤ k → k < ctzFrom x fuel i → x.testBit k = false) := by
  induction fuel generalizing i with
  | zero => exact .inl ⟨rfl, fun k _ _ => by omega⟩
  | succ fuel ih =>
    rw [ctzFrom, bitOf_eq_testBit]
    split
    · next hi => exact .inr ⟨by omega, hi, fun k _ _ => by omega⟩
    · next hi =>
      have hfirst : ∀ k, i ≤ k → ¬ i + 1 ≤ k → x.testBit k = false := fun k _ _ => by
        rw [show k = i by omega]
        simpa using hi
      rcases ih (i + 1) with ⟨hr, hnone⟩ | ⟨hlt, hone, hbelow⟩
      · exact .inl ⟨hr, fun k _ _ => if h : i + 1 ≤ k then hnone k h (by omega) else hfirst k (by assumption) h⟩
      · exact .inr ⟨by omega, hone, fun k _ _ => if h : i + 1 ≤ k then hbelow k h (by assumption) else hfirst k (by assumption) h⟩

/-- R83. CTZ: bit r is the lowest one. -/
theorem ctz_spec (x : Reg) : if x = 0 then BitVec.ofNat 64 (ctzFrom x.toNat 64 0) = 64 else
    (BitVec.ofNat 64 (ctzFrom x.toNat 64 0)).toNat < 64 ∧ x.getLsbD (BitVec.ofNat 64 (ctzFrom x.toNat 64 0)).toNat ∧
      ∀ i < (BitVec.ofNat 64 (ctzFrom x.toNat 64 0)).toNat, x.getLsbD i = false := by
  split
  · next hx =>
    subst hx
    decide
  · next hx =>
    rcases ctzFrom_spec x.toNat 64 0 with ⟨-, hnone⟩ | ⟨hlt, hone, hbelow⟩
    · exact absurd (BitVec.eq_of_getLsbD_eq fun i hi => (hnone i (by omega) (by omega)).trans BitVec.getLsbD_zero.symm) hx
    · rw [BitVec.toNat_ofNat, Nat.mod_eq_of_lt (by omega)]
      exact ⟨by omega, hone, fun i hi => hbelow i (by omega) hi⟩

/-- R83. The low m bits taken over so far, reversed, stand at the top of the 64. -/
theorem brev_fold (x m : Nat) (hm : m ≤ 64) : ∃ y,
    (List.range m).foldl (fun acc i => if bitOf x i then acc + 2 ^ (63 - i) else acc) 0 = 2 ^ (64 - m) * y ∧
    ∀ k, y.testBit k = (decide (k < m) && x.testBit (m - 1 - k)) := by
  induction m with
  | zero => exact ⟨0, rfl, fun k => by simp⟩
  | succ m ih =>
    obtain ⟨y, hfold, hbits⟩ := ih (by omega)
    refine ⟨2 * y + (x.testBit m).toNat, ?_, fun k => ?_⟩
    · have htwo : 2 ^ (64 - m) = 2 ^ (63 - m) * 2 := by rw [← Nat.pow_succ, show (63 - m).succ = 64 - m by omega]
      rw [List.range_succ, List.foldl_append, hfold, List.foldl_cons, List.foldl_nil, bitOf_eq_testBit, htwo, Nat.mul_add,
        Nat.mul_assoc, show 64 - (m + 1) = 63 - m by omega]
      cases x.testBit m <;> simp
    · cases k with
      | zero => cases h : x.testBit m <;> simp [Nat.testBit_zero, h]
      | succ k =>
        have hhalf : (2 * y + (x.testBit m).toNat) / 2 = y := by have := Bool.toNat_lt (x.testBit m); omega
        rw [Nat.testBit_add_one, hhalf, hbits, show m + 1 - 1 - (k + 1) = m - 1 - k by omega]
        simp

/-- R83. BREV. -/
theorem brev_getLsbD (x : Reg) {i : Nat} (hi : i < 64) : (BitVec.ofNat 64 (brev x.toNat)).getLsbD i = x.getLsbD (63 - i) := by
  obtain ⟨y, hfold, hbits⟩ := brev_fold x.toNat 64 (Nat.le_refl _)
  rw [BitVec.getLsbD_ofNat, brev, hfold, Nat.sub_self, Nat.pow_zero, Nat.one_mul, hbits, decide_eq_true hi]
  rfl

/-- R83. The position of the bit field. -/
theorem bfPos_toNat (y : Reg) : bfPos y.toNat = fieldPos y := by
  simp [bfPos, fieldPos]

/-- R83. The length of the bit field. -/
theorem bfLen_toNat (y : Reg) : bfLen y.toNat = fieldLen y := by
  simp [bfLen, fieldLen, bfPos_toNat, Nat.shiftRight_eq_div_pow]

/-- R83. The unsigned bit field, bit by bit. -/
theorem bfxN_testBit (x y : Reg) (i : Nat) :
    (bfxN x.toNat y.toNat).testBit i = (decide (i < fieldLen y) && x.getLsbD (fieldPos y + i)) := by
  rw [bfxN, bfPos_toNat, bfLen_toNat, Nat.testBit_mod_two_pow, Nat.testBit_div_two_pow, Nat.add_comm i]
  rfl

/-- R83. The signed bit field, bit by bit: beyond its length it repeats its highest bit. -/
theorem bfxI_getLsbD (x y : Reg) {i : Nat} (hi : i < 64) : (BitVec.ofNat 64 (bfxI x.toNat y.toNat)).getLsbD i =
    (decide (0 < fieldLen y) && x.getLsbD (fieldPos y + min i (fieldLen y - 1))) := by
  have hbits := bfxN_testBit x y
  rw [bfxI, bfLen_toNat]
  by_cases hlen : fieldLen y = 0
  · simp [hlen]
  · have hlt : bfxN x.toNat y.toNat < 2 ^ fieldLen y := by
      rw [bfxN, bfLen_toNat]
      exact Nat.mod_lt _ (Nat.two_pow_pos _)
    have hsign : sx (fieldLen y) (bfxN x.toNat y.toNat) = (BitVec.ofNat (fieldLen y) (bfxN x.toNat y.toNat)).toInt := by
      rw [← sx_toNat (by omega), BitVec.toNat_ofNat, Nat.mod_eq_of_lt hlt]
    rw [if_neg hlen, hsign, ofNat_modW, ← BitVec.signExtend, BitVec.getLsbD_signExtend, decide_eq_true hi, Bool.true_and,
      decide_eq_true (by omega), Bool.true_and]
    by_cases hin : i < fieldLen y
    · rw [if_pos hin, BitVec.getLsbD_ofNat, hbits, Nat.min_eq_left (by omega)]
      simp [hin]
    · rw [if_neg hin, BitVec.msb_eq_getLsbD_last, BitVec.getLsbD_ofNat, hbits, Nat.min_eq_right (by omega)]
      simp [show fieldLen y - 1 < fieldLen y by omega]

/-- R83. BFI cuts d in three and replaces the middle part by the low bits of a. -/
theorem bfi_eq_parts (a b d : Nat) :
    bfi a b d = 2 ^ bfPos b * (2 ^ bfLen b * (d / 2 ^ bfPos b / 2 ^ bfLen b) + a % 2 ^ bfLen b) + d % 2 ^ bfPos b := by
  have hd := Nat.div_add_mod d (2 ^ bfPos b)
  have hmid := Nat.div_add_mod (d / 2 ^ bfPos b) (2 ^ bfLen b)
  have hpos := Nat.two_pow_pos (bfLen b)
  rw [bfi, Nat.sub_add_cancel hpos]
  generalize d / 2 ^ bfPos b / 2 ^ bfLen b = high at *
  generalize d / 2 ^ bfPos b % 2 ^ bfLen b = mid at *
  rw [← hmid, Nat.mul_add] at hd
  rw [Nat.mul_add, Nat.mul_comm mid, Nat.mul_comm (a % 2 ^ bfLen b)]
  omega

/-- R83. BFI, bit by bit. -/
theorem bfi_testBit (a b d i : Nat) : (bfi a b d).testBit i =
    if bfPos b ≤ i ∧ i < bfPos b + bfLen b then a.testBit (i - bfPos b) else d.testBit i := by
  rw [bfi_eq_parts, Nat.testBit_two_pow_mul_add _ (Nat.mod_lt _ (Nat.two_pow_pos _)),
    Nat.testBit_two_pow_mul_add _ (Nat.mod_lt _ (Nat.two_pow_pos _))]
  by_cases hlow : i < bfPos b
  · rw [if_pos hlow, if_neg (by omega), Nat.testBit_mod_two_pow, decide_eq_true hlow, Bool.true_and]
  · rw [if_neg hlow]
    by_cases hmid : i - bfPos b < bfLen b
    · rw [if_pos hmid, if_pos (by omega), Nat.testBit_mod_two_pow, decide_eq_true hmid, Bool.true_and]
    · rw [if_neg hmid, if_neg (by omega), Nat.testBit_div_two_pow, Nat.testBit_div_two_pow,
        show i - bfPos b - bfLen b + bfLen b + bfPos b = i by omega]

/-- Settles O9: the bytewise words bit by bit, SEL in every thread of the clause, and the values of the 64-bit words. -/
theorem logicAndBitFields : Obligations.LogicAndBitFields := by
  unfold Obligations.LogicAndBitFields
  refine ⟨fun s q sq e g n m d a b hcur hname => ⟨fun row hrow => ?_, ?not, ?mov, ?sel⟩, ?full⟩
  · obtain ⟨f, hexec, hbit⟩ := logicRows_vecBinary row hrow
    obtain ⟨t, sq', hnext, hran, hread⟩ := State.vecBinary_ran hcur (W := 8) (by decide) g n m d a b f hname
    refine ⟨t, sq', (hexec g n m d a b s).trans hnext, hran, fun th hth i hi => ?_⟩
    rw [getLsbD_of_bytes (hread th hth) hi, Squad.elementOn, Nat.testBit_mod_two_pow, decide_eq_true (by omega), Bool.true_and,
      hbit _ _ (subGet_lt _ _ _) _ (by omega), subGet_byte_testBit, subGet_byte_testBit]
  case not =>
    obtain ⟨t, sq', hnext, hran, hread⟩ := State.vecUnary_ran hcur (W := 8) (by decide) g n d a (fun x => 255 - x)
      (mayName_of_subset hname (by simp))
    refine ⟨t, sq', hnext, hran, fun th hth i hi => ?_⟩
    rw [getLsbD_of_bytes (hread th hth) hi, Squad.elementOn, Nat.testBit_mod_two_pow, decide_eq_true (by omega), Bool.true_and,
      complement_testBit (subGet_lt _ _ _) (by omega), subGet_byte_testBit]
  case mov =>
    obtain ⟨t, sq', hnext, hran, hread⟩ := State.vecMove_ran hcur (W := 8) (by decide) g n d (regsB m b) (fun sq t => s.srcB sq m b t)
      (mayName_of_subset hname (List.subset_cons_self _ _))
    refine ⟨t, sq', hnext, hran, fun th hth i hi => ?_⟩
    rw [getLsbD_of_bytes (hread th hth) hi, Squad.elementOn, subGet_byte_testBit]
  case sel =>
    obtain ⟨t, sq', hnext, hran, hread⟩ := execSel_ran hcur g n m d a b hname
    refine ⟨t, sq', hnext, hran, fun th hth i hi => ?_⟩
    rw [hread th hth]
    split
    · exact selBytes_getLsbD _ _ _ hi
    · rfl
  case full =>
    intro s q sq e g n m d a b lit hcur hname writes A B D
    have hunary : s.mayName q sq [a.toNat, d.toNat] := mayName_of_subset hname (by simp)
    have hw : ∀ i val, Writes64 s q sq e g n d (exec i s) val → writes i val := fun _ _ h => h
    clear_value writes
    refine ⟨hw _ _ ?rot, hw _ _ ?popc, hw _ _ ?clz, hw _ _ ?ctz, hw _ _ ?brev, hw _ _ ?bfxN, hw _ _ ?bfxI, hw _ _ ?bfi, hw _ _ ?movl⟩
    case rot => exact vecBinary_writes64 hcur hname (f := rotl) fun th => ofNat_rotl _ _
    case popc => exact vecUnary_writes64 hcur hunary (f := popNat 64) fun th => toNat_popc _
    case clz => exact vecUnary_writes64 hcur hunary (f := clz) fun th => clz_spec _
    case ctz => exact vecUnary_writes64 hcur hunary (f := fun x => ctzFrom x 64 0) fun th => ctz_spec _
    case brev => exact vecUnary_writes64 hcur hunary (f := brev) fun th i => brev_getLsbD _
    case bfxN =>
      exact vecBinary_writes64 hcur hname (f := bfxN) fun th i hi => by
        rw [BitVec.getLsbD_ofNat, bfxN_testBit, decide_eq_true hi, Bool.true_and]
    case bfxI => exact vecBinary_writes64 hcur hname (f := bfxI) fun th i => bfxI_getLsbD _ _
    case bfi =>
      exact vecTernary_writes64 hcur hname (f := bfi) fun th i hi => by
        rw [BitVec.getLsbD_ofNat, bfi_testBit, bfPos_toNat, bfLen_toNat, decide_eq_true hi, Bool.true_and]
        rfl
    case movl =>
      exact vecMove_writes64 hcur (rs := []) (mayName_of_subset hname (by simp)) (f := fun _ _ => movlValue m lit) fun th => rfl

end Sys2Proof.Proofs.VectorInteger
end

section
/-!
Floating-point selection, sign words and compares (R102, R103, R109 to R111).
-/
namespace Sys2Proof.Proofs.Numbers
open Sys2Proof Sys2Proof.Machine Sys2Proof.Proofs.VectorInteger

/-! ### Magnitudes and their order -/

/-- A signed magnitude. -/
def signed (neg : Bool) (n : Nat) : Int := if neg then -(n : Int) else n

/-- A strictly increasing function of the magnitudes. (The package's modules do not import Mathlib, so its `StrictMono` is not at hand.) -/
def Increasing (u : Nat → Nat) : Prop := ∀ m n, m < n → u m < u n

/-- A function increases when each of its steps does. -/
theorem increasing_of_lt_succ {u : Nat → Nat} (hu : ∀ m, u m < u (m + 1)) : Increasing u := by
  intro m n hmn
  induction n with
  | zero => exact absurd hmn (Nat.not_lt_zero m)
  | succ n ih =>
    rcases Nat.lt_or_eq_of_le (Nat.le_of_lt_succ hmn) with h | h
    · exact Nat.lt_trans (ih h) (hu n)
    · exact h ▸ hu m

/-- An increasing function keeps and reflects the order. -/
theorem Increasing.lt_iff_lt {u : Nat → Nat} (hu : Increasing u) {m n : Nat} : u m < u n ↔ m < n := by
  refine ⟨fun h => ?_, hu m n⟩
  rcases Nat.lt_trichotomy m n with hlt | heq | hgt
  · exact hlt
  · exact absurd (heq ▸ h) (Nat.lt_irrefl _)
  · exact absurd (hu n m hgt) (Nat.lt_asymm h)

/-- An increasing function of the magnitudes that fixes 0 keeps the order of signed magnitudes. -/
theorem signed_lt_signed {u : Nat → Nat} (hu : Increasing u) (hzero : u 0 = 0) (a b : Bool) (m n : Nat) :
    signed a (u m) < signed b (u n) ↔ signed a m < signed b n := by
  have hlt : u m < u n ↔ m < n := hu.lt_iff_lt
  have hgt : u n < u m ↔ n < m := hu.lt_iff_lt
  have hm : 0 < u m ↔ 0 < m := by simpa [hzero] using hu.lt_iff_lt (m := 0) (n := m)
  have hn : 0 < u n ↔ 0 < n := by simpa [hzero] using hu.lt_iff_lt (m := 0) (n := n)
  cases a <;> cases b <;> simp only [signed, if_true, if_false, Bool.false_eq_true] <;> omega

/-- Two integers that lie on the same side of 0 have the same sign. -/
theorem sign_eq_sign {x y : Int} (hneg : x < 0 ↔ y < 0) (hpos : 0 < x ↔ 0 < y) : x.sign = y.sign := by
  rcases Int.lt_trichotomy x 0 with h | h | h
  · rw [Int.sign_eq_neg_one_of_neg h, Int.sign_eq_neg_one_of_neg (hneg.1 h)]
  · rw [h, show y = 0 by omega]
  · rw [Int.sign_eq_one_of_pos h, Int.sign_eq_one_of_pos (hpos.1 h)]

/-- Such a function keeps the sign of a difference of signed magnitudes. -/
theorem sign_signed_sub {u : Nat → Nat} (hu : Increasing u) (hzero : u 0 = 0) (a b : Bool) (m n : Nat) :
    (signed a (u m) - signed b (u n)).sign = (signed a m - signed b n).sign := by
  have hneg := signed_lt_signed hu hzero a b m n
  have hpos := signed_lt_signed hu hzero b a n m
  exact sign_eq_sign (by omega) (by omega)

/-- The greater magnitude decides the sign of a difference. -/
theorem sign_signed_sub_of_lt {m n : Nat} (h : n < m) (a b : Bool) : (signed a m - signed b n).sign = if a then -1 else 1 := by
  cases a with
  | true => exact Int.sign_eq_neg_one_of_neg (by cases b <;> simp only [signed, if_true, if_false, Bool.false_eq_true] <;> omega)
  | false => exact Int.sign_eq_one_of_pos (by cases b <;> simp only [signed, if_true, if_false, Bool.false_eq_true] <;> omega)

/-- Of two opposite signs, the first decides the sign of a difference. -/
theorem sign_signed_sub_of_ne {a b : Bool} (hab : a ≠ b) {m : Nat} (hm : 0 < m) (n : Nat) :
    (signed a m - signed b n).sign = if a then -1 else 1 := by
  obtain rfl : b = !a := by revert hab; cases a <;> cases b <;> decide
  cases a with
  | true => exact Int.sign_eq_neg_one_of_neg (by simp only [signed, Bool.not_true, if_true, if_false, Bool.false_eq_true]; omega)
  | false => exact Int.sign_eq_one_of_pos (by simp only [signed, Bool.not_false, if_true, if_false, Bool.false_eq_true]; omega)

/-- R102. The magnitude of the finite pattern with magnitude bits `mag`, in units of the smallest magnitude of a format with `man`
mantissa bits. -/
def magUnits (man mag : Nat) : Nat :=
  if mag / 2 ^ man = 0 then mag % 2 ^ man else (2 ^ man + mag % 2 ^ man) * 2 ^ (mag / 2 ^ man - 1)

/-- The magnitude by exponent field and mantissa field. -/
theorem magUnits_fields {man E r : Nat} (hr : r < 2 ^ man) :
    magUnits man (2 ^ man * E + r) = if E = 0 then r else (2 ^ man + r) * 2 ^ (E - 1) := by
  rw [magUnits, Nat.mul_add_div (Nat.two_pow_pos man), Nat.div_eq_of_lt hr, Nat.mul_add_mod, Nat.mod_eq_of_lt hr, Nat.add_zero]

theorem magUnits_zero (man : Nat) : magUnits man 0 = 0 := by simp [magUnits]

/-- Magnitudes are ordered as their bits: a full mantissa field carries into the exponent field. -/
theorem magUnits_increasing (man : Nat) : Increasing (magUnits man) := by
  refine increasing_of_lt_succ fun mag => ?_
  have hr := Nat.mod_lt mag (Nat.two_pow_pos man)
  rw [← Nat.div_add_mod mag (2 ^ man)]
  generalize mag / 2 ^ man = E
  generalize mag % 2 ^ man = r at hr
  by_cases hfull : r + 1 < 2 ^ man
  · rw [Nat.add_assoc, magUnits_fields hr, magUnits_fields hfull]
    split
    · exact Nat.lt_succ_self r
    · exact Nat.mul_lt_mul_of_pos_right (by omega) (Nat.two_pow_pos _)
  · rw [show 2 ^ man * E + r + 1 = 2 ^ man * (E + 1) + 0 by rw [Nat.mul_succ]; omega, magUnits_fields hr,
      magUnits_fields (Nat.two_pow_pos man), if_neg (Nat.succ_ne_zero E)]
    rcases E with _ | E
    · simpa using hr
    · rw [if_neg (Nat.succ_ne_zero E), Nat.add_sub_cancel, Nat.add_sub_cancel, Nat.pow_succ, Nat.mul_comm (2 ^ E) 2, ← Nat.mul_assoc]
      exact Nat.mul_lt_mul_of_pos_right (by omega) (Nat.two_pow_pos _)

/-! ### The datum of a pattern, in a format with infinities -/

/-- R103. An infinity is no zero. -/
theorem infBits_pos (f : Fmt) : 0 < f.infBits := by cases f <;> decide

/-- R103. The canonical NaN is a pattern of its format. -/
theorem nanBits_lt (f : Fmt) : f.nanBits < 2 ^ f.width := by cases f <;> decide

/-- R102. The exponent of the smallest magnitude of a format. -/
def unitExp (f : Fmt) : Int := 1 - (f.bias : Int) - f.man

/-- R102. The magnitude bits of a pattern. -/
def magBits (f : Fmt) (w : Nat) : Nat := w % f.signBit

section
variable {f : Fmt} (hf : f.hasInf = true)
include hf

/-- R102. The sign bit is the highest bit of a pattern. -/
theorem signBit_eq : f.signBit = 2 ^ (f.width - 1) := by
  have hw : f.width = f.man + f.exp + 1 := by
    revert hf
    cases f <;> decide
  rw [hw, Nat.add_sub_cancel, Fmt.signBit]

/-- R102. A pattern has one bit above its magnitude bits. -/
theorem two_pow_width : 2 ^ f.width = 2 * f.signBit := by
  have hpos : 0 < f.width := by cases f <;> decide
  rw [signBit_eq hf, ← Nat.pow_succ', Nat.succ_eq_add_one, Nat.sub_add_cancel hpos]

/-- R103. The pattern of an infinity. -/
theorem decode_of_eq_infBits {w : Nat} (h : magBits f w = f.infBits) : f.decode w = .inf (f.isNeg w) := by
  unfold magBits at h
  unfold Fmt.decode
  split
  · exact absurd hf (by decide)
  · simp [hf, h, Fmt.isNeg]

/-- R103. The pattern of a NaN. -/
theorem decode_of_infBits_lt {w : Nat} (h : f.infBits < magBits f w) : f.decode w = .nan (f.isNeg w) := by
  unfold magBits at h
  unfold Fmt.decode
  split
  · exact absurd hf (by decide)
  · simp [hf, h, Nat.ne_of_gt h, Fmt.isNeg]

/-- R102. The pattern of a finite value: its exponent is at least that of the format's unit, of which it holds `magUnits`. -/
theorem decode_of_lt_infBits {w : Nat} (h : magBits f w < f.infBits) : ∃ m e, f.decode w = .fin (f.isNeg w) m e ∧ unitExp f ≤ e ∧
    m * 2 ^ (e - unitExp f).toNat = magUnits f.man (magBits f w) := by
  unfold magBits at *
  unfold Fmt.decode unitExp magUnits
  split
  · exact absurd hf (by decide)
  · have hne : (f == Fmt.e4m3) = false := beq_eq_false_iff_ne.2 (by rintro rfl; exact absurd hf (by decide))
    simp only [hf, hne, beq_eq_false_iff_ne.2 (Nat.ne_of_lt h), Nat.not_lt.2 (Nat.le_of_lt h), Bool.true_and, Bool.false_and,
      Bool.false_eq_true, decide_false, if_false]
    generalize w % f.signBit / 2 ^ f.man = E
    split
    · exact ⟨_, _, rfl, Int.le_refl _, by simp⟩
    · exact ⟨_, _, rfl, by omega, by congr 2; omega⟩

/-- R103. The NaN patterns are those that decode to a NaN. -/
theorem isNan_decode (w : Nat) : (f.decode w).isNan = f.nanPattern w := by
  rw [Fmt.nanPattern, ← signBit_eq hf, ← magBits]
  rcases Nat.lt_trichotomy (magBits f w) f.infBits with h | h | h
  · obtain ⟨m, e, hdec, -⟩ := decode_of_lt_infBits hf h
    simp [hdec, FVal.isNan, Nat.le_of_lt h]
  · simp [decode_of_eq_infBits hf h, FVal.isNan, h]
  · simp [decode_of_infBits_lt hf h, FVal.isNan, h]

/-- R103. A pattern that is no NaN is that of a finite value or of an infinity. -/
theorem magBits_le_infBits {w : Nat} (h : f.nanPattern w = false) : magBits f w ≤ f.infBits := by
  rwa [Fmt.nanPattern, ← signBit_eq hf, ← magBits, decide_eq_false_iff_not, Nat.not_lt] at h

/-- R102. A pattern has its sign bit set when it reaches it. -/
theorem isNeg_eq {w : Nat} (hw : w < 2 ^ f.width) : f.isNeg w = decide (f.signBit ≤ w) := by
  rw [two_pow_width hf] at hw
  have hdiv : w / f.signBit = if f.signBit ≤ w then 1 else 0 := by
    split
    · exact Nat.div_eq_of_lt_le (by omega) (by omega)
    · exact Nat.div_eq_of_lt (by omega)
  rw [Fmt.isNeg, hdiv]
  by_cases h : f.signBit ≤ w <;> simp [h]

/-- R111. The order of values is that of signed magnitude bits. -/
theorem valueKey_eq_signed {w : Nat} (hw : w < 2 ^ f.width) : f.valueKey w = signed (f.isNeg w) (magBits f w) := by
  rw [isNeg_eq hf hw, Fmt.valueKey, ← two_pow_cast, ← signBit_eq hf, magBits, signed]
  rw [two_pow_width hf] at hw
  by_cases h : w < f.signBit
  · rw [if_pos h, if_neg (by simpa using h), Nat.mod_eq_of_lt h]
  · rw [if_neg h, if_pos (by simpa using h), Nat.mod_eq_sub_mod (by omega), Nat.mod_eq_of_lt (by omega)]
    omega

/-- R111. The value key of a pattern has its sign. -/
theorem valueKey_sign {w : Nat} (hw : w < 2 ^ f.width) : if f.isNeg w then f.valueKey w ≤ 0 else 0 ≤ f.valueKey w := by
  rw [valueKey_eq_signed hf hw]
  cases f.isNeg w with
  | true => exact Int.neg_nonpos_of_nonneg (Int.natCast_nonneg _)
  | false => exact Int.natCast_nonneg _

/-- R110. The order that puts -0 below +0, from the order of values. -/
theorem orderKey_eq {w : Nat} (hw : w < 2 ^ f.width) : f.orderKey w = f.valueKey w - if f.isNeg w then 1 else 0 := by
  rw [isNeg_eq hf hw, Fmt.orderKey, Fmt.valueKey, ← signBit_eq hf]
  by_cases h : w < f.signBit
  · rw [if_pos h, if_pos h, if_neg (by simpa using h), Int.sub_zero]
  · rw [if_neg h, if_neg h, if_pos (by simpa using h)]

end

/-! ### The order of data -/

/-- A signed mantissa at a smaller exponent is a multiple of it at a greater one. -/
theorem scaledInt_of_le {n : Bool} {m : Nat} {e q p : Int} (hqe : q ≤ e) (hpq : p ≤ q) :
    scaledInt n m e p = scaledInt n m e q * 2 ^ (q - p).toNat := by
  have hsplit : (e - p).toNat = (e - q).toNat + (q - p).toNat := by omega
  unfold scaledInt
  rw [hsplit, Nat.pow_add, ← Nat.mul_assoc]
  cases n with
  | true => simp only [if_true, Int.natCast_mul, Int.natCast_pow, Int.neg_mul]; rfl
  | false => simp only [Bool.false_eq_true, if_false, Int.natCast_mul, Int.natCast_pow]; rfl

/-- The order of two finite data is that of their mantissas at any common exponent. -/
theorem cmp_fin {a b : Bool} {m n : Nat} {e k p : Int} (he : p ≤ e) (hk : p ≤ k) :
    FVal.cmp (.fin a m e) (.fin b n k) = (scaledInt a m e p - scaledInt b n k p).sign := by
  have hp : p ≤ min e k := Int.le_min.2 ⟨he, hk⟩
  rw [scaledInt_of_le (Int.min_le_left e k) hp, scaledInt_of_le (Int.min_le_right e k) hp, ← Int.sub_mul, Int.sign_mul,
    Int.sign_eq_one_of_pos (two_pow_pos_int _), Int.mul_one]
  rfl

/-- R110, R111. The order of two data that are no NaN is that of the value keys of their patterns. -/
theorem cmp_decode {f : Fmt} (hf : f.hasInf = true) {x y : Nat} (hx : x < 2 ^ f.width) (hy : y < 2 ^ f.width)
    (hxn : f.nanPattern x = false) (hyn : f.nanPattern y = false) :
    (f.decode x).cmp (f.decode y) = (f.valueKey x - f.valueKey y).sign := by
  rw [valueKey_eq_signed hf hx, valueKey_eq_signed hf hy]
  rcases Nat.lt_or_eq_of_le (magBits_le_infBits hf hxn) with hxi | hxi <;>
    rcases Nat.lt_or_eq_of_le (magBits_le_infBits hf hyn) with hyi | hyi
  · obtain ⟨m, e, hdx, hex, hmx⟩ := decode_of_lt_infBits hf hxi
    obtain ⟨n, k, hdy, hey, hmy⟩ := decode_of_lt_infBits hf hyi
    rw [hdx, hdy, cmp_fin hex hey, ← sign_signed_sub (magUnits_increasing f.man) (magUnits_zero f.man), ← hmx, ← hmy]
    rfl
  · obtain ⟨m, e, hdx, -⟩ := decode_of_lt_infBits hf hxi
    rw [hdx, decode_of_eq_infBits hf hyi, ← Int.neg_sub, Int.sign_neg, sign_signed_sub_of_lt (hyi ▸ hxi)]
    cases f.isNeg y <;> rfl
  · obtain ⟨n, k, hdy, -⟩ := decode_of_lt_infBits hf hyi
    rw [hdy, decode_of_eq_infBits hf hxi, sign_signed_sub_of_lt (hxi ▸ hyi)]
    rfl
  · rw [decode_of_eq_infBits hf hxi, decode_of_eq_infBits hf hyi, hxi, hyi, FVal.cmp]
    split
    · next hsame => rw [hsame, Int.sub_self, Int.sign_zero]
    · next hne => rw [sign_signed_sub_of_ne hne (infBits_pos f)]

section
variable {f : Fmt} (hf : f.hasInf = true) {x y : Nat} (hx : x < 2 ^ f.width) (hy : y < 2 ^ f.width)
  (hxn : f.nanPattern x = false) (hyn : f.nanPattern y = false)
include hf hx hy hxn hyn

/-- R111. Less, by the value keys. -/
theorem cmp_decode_neg_iff : (f.decode x).cmp (f.decode y) < 0 ↔ f.valueKey x < f.valueKey y := by
  rw [cmp_decode hf hx hy hxn hyn, Int.sign_neg_iff]
  omega

/-- R111. Equal, by the value keys. -/
theorem cmp_decode_eq_zero_iff : (f.decode x).cmp (f.decode y) = 0 ↔ f.valueKey x = f.valueKey y := by
  rw [cmp_decode hf hx hy hxn hyn, Int.sign_eq_zero_iff_zero, Int.sub_eq_zero]

/-- R111. Less or equal, by the value keys. -/
theorem cmp_decode_nonpos_iff : (f.decode x).cmp (f.decode y) ≤ 0 ↔ f.valueKey x ≤ f.valueKey y := by
  rw [cmp_decode hf hx hy hxn hyn, Int.sign_nonpos_iff]
  omega

end

/-! ### Selection -/

section
variable {f : Fmt} (hf : f.hasInf = true) {x y : Nat} (hx : x < 2 ^ f.width) (hy : y < 2 ^ f.width)
include hf hx hy

/-- R111. The sign and the value key determine a pattern. -/
theorem eq_of_valueKey_eq (hneg : f.isNeg x = f.isNeg y) (hkey : f.valueKey x = f.valueKey y) : x = y := by
  rw [isNeg_eq hf hx, isNeg_eq hf hy, decide_eq_decide] at hneg
  unfold Fmt.valueKey at hkey
  rw [← two_pow_cast, ← signBit_eq hf] at hkey
  split at hkey <;> split at hkey <;> omega

/-- R110. The model takes x for the less when its value is less, or when the values are equal and x is negative: its order key is
less then, or the two patterns are the same. -/
theorem less_iff_orderKey_lt :
    (f.valueKey x < f.valueKey y ∨ f.valueKey x = f.valueKey y ∧ f.isNeg x = true) ↔
      (f.orderKey x < f.orderKey y ∨ x = y ∧ f.isNeg x = true) := by
  have hsame := eq_of_valueKey_eq hf hx hy
  have hkey : x = y → f.valueKey x = f.valueKey y := congrArg f.valueKey
  have hxs := valueKey_sign hf hx
  have hys := valueKey_sign hf hy
  rw [orderKey_eq hf hx, orderKey_eq hf hy]
  cases hxn : f.isNeg x <;> cases hyn : f.isNeg y <;>
    simp only [hxn, hyn, if_true, if_false, Bool.false_eq_true, and_true, and_false, or_false, forall_const] at hsame hxs hys ⊢ <;>
    omega

/-- R110. FMIN and FMAX choose by the order key, save that a NaN loses to a number. -/
theorem fminmax_eq (big : Bool) : fminmax f big x y =
    if f.nanPattern x && f.nanPattern y then f.nanBits
    else if f.nanPattern x then y
    else if f.nanPattern y then x
    else if f.orderKey x < f.orderKey y then (if big then y else x) else if big then x else y := by
  unfold fminmax
  simp only [isNan_decode hf]
  cases hxn : f.nanPattern x <;> cases hyn : f.nanPattern y
  case false.false =>
    have hless := less_iff_orderKey_lt hf hx hy
    rw [← cmp_decode_neg_iff hf hx hy hxn hyn, ← cmp_decode_eq_zero_iff hf hx hy hxn hyn] at hless
    generalize (f.decode x).cmp (f.decode y) = c at hless
    have hbool : (decide (c < 0) || (c == 0 && f.isNeg x)) = decide (f.orderKey x < f.orderKey y ∨ x = y ∧ f.isNeg x = true) := by
      rw [Bool.eq_iff_iff]
      simpa using hless
    simp only [hbool, Bool.false_and, Bool.false_eq_true, if_false]
    by_cases hord : f.orderKey x < f.orderKey y
    · cases big <;> simp [hord]
    · by_cases hxy : x = y
      · simp [hxy]
      · cases big <;> simp [hord, hxy]
  all_goals rfl

/-- R110. FMIN. -/
theorem fminmax_false_eq_lesser : fminmax f false x y = f.lesser x y := by
  simp only [fminmax_eq hf hx hy, Fmt.lesser, Bool.false_eq_true, if_false]

/-- R110. FMAX. -/
theorem fminmax_true_eq_greater : fminmax f true x y = f.greater x y := by
  simp only [fminmax_eq hf hx hy, Fmt.greater, if_true]

end

/-- R110. FMIN and FMAX round nothing: they give an operand, or the canonical NaN. -/
theorem fminmax_cases (f : Fmt) (big : Bool) (x y : Nat) :
    fminmax f big x y = f.nanBits ∨ fminmax f big x y = x ∨ fminmax f big x y = y := by
  unfold fminmax
  dsimp only
  split
  · exact .inl rfl
  · exact .inr (.inr rfl)
  · exact .inr (.inl rfl)
  · split
    · exact .inr (.inl rfl)
    · exact .inr (.inr rfl)

/-- R110. What FMIN and FMAX give is a pattern of the format. -/
theorem fminmax_lt {f : Fmt} {x y : Nat} (hx : x < 2 ^ f.width) (hy : y < 2 ^ f.width) (big : Bool) :
    fminmax f big x y < 2 ^ f.width := by
  rcases fminmax_cases f big x y with h | h | h <;> rw [h]
  · exact nanBits_lt f
  · exact hx
  · exact hy

/-! ### Sign words and compares -/

/-- R110. FABS leaves the bits below the sign bit. -/
theorem fabs_mod {f : Fmt} (hf : f.hasInf = true) (x : Nat) : fabs f x % 2 ^ f.width = x % 2 ^ (f.width - 1) := by
  have hpos : 0 < f.signBit := Nat.two_pow_pos _
  rw [fabs, two_pow_width hf, ← signBit_eq hf, Nat.mod_eq_of_lt]
  exact Nat.lt_of_lt_of_le (Nat.mod_lt _ hpos) (by omega)

/-- R110. FNEG adds the sign bit, mod 2^W. -/
theorem fneg_mod {f : Fmt} (hf : f.hasInf = true) {x : Nat} (hx : x < 2 ^ f.width) :
    fneg f x % 2 ^ f.width = (x + 2 ^ (f.width - 1)) % 2 ^ f.width := by
  rw [fneg, isNeg_eq hf hx, ← signBit_eq hf]
  split
  · next hneg =>
    have hle : f.signBit ≤ x := of_decide_eq_true hneg
    rw [show x + f.signBit = x - f.signBit + 2 ^ f.width by rw [two_pow_width hf]; omega, Nat.add_mod_right]
  · rfl

section
variable {f : Fmt} (hf : f.hasInf = true) {x y : Nat}
include hf

/-- R111. A compare of two data that answers false when one is a NaN needs its answer only where none is. -/
theorem ordered_and {c k : Bool} (h : f.nanPattern x = false → f.nanPattern y = false → c = k) :
    (!((f.decode x).isNan || (f.decode y).isNan) && c) = (!f.nanPattern x && !f.nanPattern y && k) := by
  rw [isNan_decode hf, isNan_decode hf, Bool.not_or]
  cases hx : f.nanPattern x
  case true => rfl
  cases hy : f.nanPattern y
  case true => rfl
  rw [h hx hy]

variable (hx : x < 2 ^ f.width) (hy : y < 2 ^ f.width)
include hx hy

/-- R111. FCMPEQ. -/
theorem fcmp_eq : fcmp f 0 x y = (!f.nanPattern x && !f.nanPattern y && decide (f.valueKey x = f.valueKey y)) :=
  ordered_and hf fun hxn hyn => decide_eq_decide.2 (cmp_decode_eq_zero_iff hf hx hy hxn hyn)

/-- R111. FCMPLT. -/
theorem fcmp_lt : fcmp f 1 x y = (!f.nanPattern x && !f.nanPattern y && decide (f.valueKey x < f.valueKey y)) :=
  ordered_and hf fun hxn hyn => decide_eq_decide.2 (cmp_decode_neg_iff hf hx hy hxn hyn)

/-- R111. FCMPLE. -/
theorem fcmp_le : fcmp f 2 x y = (!f.nanPattern x && !f.nanPattern y && decide (f.valueKey x ≤ f.valueKey y)) :=
  ordered_and hf fun hxn hyn => decide_eq_decide.2 (cmp_decode_nonpos_iff hf hx hy hxn hyn)

end

/-- R111. FCMPUN. -/
theorem fcmp_un {f : Fmt} (hf : f.hasInf = true) (x y : Nat) : fcmp f 3 x y = (f.nanPattern x || f.nanPattern y) := by
  rw [← isNan_decode hf, ← isNan_decode hf]
  rfl

/-- R111. Each floating-point compare is a word of the one compare operation, with a function that on patterns is its row's. -/
theorem floatCompareRows_vecCompare {f : BitVec 2} (hf : (fpFmt f).hasInf = true) : ∀ row ∈ floatCompareRows (fpFmt f),
    ∃ c : Nat → Nat → Bool, (∀ g n p a b s, exec (row.1 f g n p a b) s = s.vecCompare (fpFmt f).width g n p a b c) ∧
      ∀ x y, x < 2 ^ (fpFmt f).width → y < 2 ^ (fpFmt f).width → c x y = row.2 x y := by
  generalize hF : fpFmt f = F at hf
  simp only [floatCompareRows, List.forall_mem_cons, List.not_mem_nil, false_imp_iff, implies_true, and_true]
  subst hF
  refine ⟨?fcmpeq, ?fcmplt, ?fcmple, ?fcmpun⟩
  case fcmpeq => exact ⟨fcmp (fpFmt f) 0, fun _ _ _ _ _ _ => rfl, fun x y => fcmp_eq hf⟩
  case fcmplt => exact ⟨fcmp (fpFmt f) 1, fun _ _ _ _ _ _ => rfl, fun x y => fcmp_lt hf⟩
  case fcmple => exact ⟨fcmp (fpFmt f) 2, fun _ _ _ _ _ _ => rfl, fun x y => fcmp_le hf⟩
  case fcmpun => exact ⟨fcmp (fpFmt f) 3, fun _ _ _ _ _ _ => rfl, fun x y _ _ => fcmp_un hf x y⟩

/-! ### The words -/

/-- R109. What a word `o` on sub-elements of width W leaves, whose value in an enabled sub-element is `val`: it moves no generator. -/
def WritesElems (s : State) (q : Nat) (sq : Squad) (e : Exec) (g : BitVec 4) (n : BitVec 1) (d : BitVec 6) (W : Nat)
    (o : Host.Outcome State Fault Refusal) (val : Nat → Nat → Nat) : Prop :=
  ∃ t sq', o = .next t ∧ VecRan s t q sq sq' d.toNat (sq.activeE e g n W (64 / W)).length ∧
    ∀ th < 32, ∀ j < 64 / W, subGet W (t.readV sq' d.toNat th) j =
      if sq.elementOn e g n W th j then val th j else subGet W (s.readV sq d.toNat th) j

section
variable {s : State} {q : Nat} {sq : Squad} {e : Exec} (hcur : s.current = some (q, sq, e)) (g : BitVec 4) (n : BitVec 1)
  {W : Nat}
include hcur

/-- R110. A word of sources a and b whose function gives what `v` gives on patterns. -/
theorem vecBinary_writesElems {m : BitVec 1} {d a b : BitVec 6} (hname : s.mayName q sq (a.toNat :: regsB m b ++ [d.toNat]))
    {f v : Nat → Nat → Nat} (hval : ∀ x y, x < 2 ^ W → y < 2 ^ W → f x y % 2 ^ W = v x y) :
    WritesElems s q sq e g n d W (s.vecBinary W g n m d a b f)
      (fun th j => v (subGet W (s.readV sq a.toNat th) j) (subGet W (s.srcB sq m b th) j)) := by
  obtain ⟨t, sq', hnext, hran, hread⟩ := State.vecBinary_ran hcur (Nat.mul_div_le 64 W) g n m d a b f hname
  refine ⟨t, sq', hnext, hran, fun th hth j hj => ?_⟩
  rw [hread th hth j hj, hval _ _ (subGet_lt _ _ _) (subGet_lt _ _ _), Squad.elementOn]

/-- R110. A word of source a. -/
theorem vecUnary_writesElems {d a : BitVec 6} (hname : s.mayName q sq [a.toNat, d.toNat]) {f v : Nat → Nat}
    (hval : ∀ x, x < 2 ^ W → f x % 2 ^ W = v x) :
    WritesElems s q sq e g n d W (s.vecUnary W g n d a f) (fun th j => v (subGet W (s.readV sq a.toNat th) j)) := by
  obtain ⟨t, sq', hnext, hran, hread⟩ := State.vecUnary_ran hcur (Nat.mul_div_le 64 W) g n d a f hname
  refine ⟨t, sq', hnext, hran, fun th hth j hj => ?_⟩
  rw [hread th hth j hj, hval _ (subGet_lt _ _ _), Squad.elementOn]

end

/-- R109. The formats of the floating-point words have infinities. -/
theorem fpFmt_hasInf (f : BitVec 2) : (fpFmt f).hasInf = true := by revert f; decide

/-- R109. A format of the floating-point words is a whole number of bytes wide, and its width divides the eight guard bits evenly. -/
theorem fpFmt_bytes (f : BitVec 2) : ∃ k, (fpFmt f).width = 8 * k ∧ 0 < k ∧ k * (8 / k) = 8 := by
  have h : ∀ f : BitVec 2, (fpFmt f).width = 8 * ((fpFmt f).width / 8) ∧ 0 < (fpFmt f).width / 8 ∧
      (fpFmt f).width / 8 * (8 / ((fpFmt f).width / 8)) = 8 := by decide
  exact ⟨_, h f⟩

/-- Settles O13: FMIN, FMAX, FABS and FNEG are elementwise words of one write, and a compare of data is one of value keys. -/
theorem floatOrder : Obligations.FloatOrder := by
  unfold Obligations.FloatOrder
  refine ⟨fun s q sq e f g n m d a b _ hcur hname => ?_, fun s q sq e f g n p a b _ hcur hname row hrow => ?_⟩
  · have hf := fpFmt_hasInf f
    have hunary : s.mayName q sq [a.toNat, d.toNat] := mayName_of_subset hname (by simp)
    refine ⟨?fmin, ?fmax, ?fabs, ?fneg⟩
    case fmin =>
      exact vecBinary_writesElems hcur g n hname fun x y hx hy => by
        rw [Nat.mod_eq_of_lt (fminmax_lt hx hy false), fminmax_false_eq_lesser hf hx hy]
    case fmax =>
      exact vecBinary_writesElems hcur g n hname fun x y hx hy => by
        rw [Nat.mod_eq_of_lt (fminmax_lt hx hy true), fminmax_true_eq_greater hf hx hy]
    case fabs => exact vecUnary_writesElems hcur g n hunary fun x _ => fabs_mod hf x
    case fneg => exact vecUnary_writesElems hcur g n hunary fun x hx => fneg_mod hf hx
  · obtain ⟨c, hexec, hval⟩ := floatCompareRows_vecCompare (fpFmt_hasInf f) row hrow
    obtain ⟨k, hW, hpos, hdiv⟩ := fpFmt_bytes f
    rw [hexec]
    rw [hW] at hval ⊢
    obtain ⟨t, sq', hnext, hran, hread⟩ := State.vecCompare_ran hcur hpos hdiv g n p a b c hname
    refine ⟨t, sq', hnext, hran, fun th hth i hi => ?_⟩
    rw [hread th hth i hi, Nat.mul_div_mul_left i k (by omega), hval _ _ (subGet_lt _ _ _) (subGet_lt _ _ _)]
    simp only [Squad.elementOn, elemOn_bytes, Bool.and_eq_true]

end Sys2Proof.Proofs.Numbers
end
